-- ==== Sys2Proof/Word.lean ====
section
/-! DEFINITION. The byte, the unit in which frames, log records, buffers and flash sectors are written
(spec 07, Layout tables). -/

namespace Sys2Proof

/-- One byte. -/
abbrev Byte := BitVec 8

end Sys2Proof
end

