-- ==== Sys2Proof/Config.lean ====
section
/-! DEFINITION. What the manual leaves open: the free values. -/

namespace Sys2Proof

/-- What a byte of a flash sector reads as while the sector's contents are unknown (R101, R104: a failed
or abandoned program or erase leaves them unknown). The first argument is the stamp of the unknown run,
the second the byte address. It has no body: a claim holds whatever these bytes are (log entry 7). -/
opaque Config.freeByte : Nat → Nat → Byte

end Sys2Proof
end

