-- ==== Sys2Proof/Syntax.lean ====
section
/-! DEFINITION. The station's commands: one constructor of `Instr` per row of spec/opcode_table.json.
A command is one whole step of spec 95. The operand `t` is the reference-clock time, in cycles of the
49.152 MHz reference, at which the event comes about; events whose instant the spec itself fixes (a tick
of the divider, the passing of a window) carry none (log entry 1). -/

namespace Sys2Proof

/-- The header fields of a received frame beside its kind (R112). -/
structure Header where
  key       : BitVec 12
  sender    : BitVec 4
  addressee : BitVec 5
  deriving DecidableEq, Repr, Inhabited

/-- A cue bus frame, less its check word (R112). Its length field is the number of payload bytes. -/
structure Frame where
  kind      : BitVec 4
  key       : BitVec 12
  sender    : BitVec 4
  addressee : BitVec 5
  payload   : List Byte
  deriving DecidableEq, Repr, Inhabited

/-- The two answers of a die in SUSPEND-PENDING (R106). -/
inductive SuspendReport where
  | suspended
  | completed (ok : Bool)
  deriving DecidableEq, Repr, Inhabited

/-- The commands. Frame fields have the widths of the layout tables (spec 07). -/
inductive Instr where
  /-- nRESET with the levels of ID0 to ID3 (R172). -/
  | powerOnReset (straps : BitVec 4)
  /-- The start-up scan's read of a log sector ends; `uncorrectable` is the ECC's verdict (R100). -/
  | logSectorReadEnd (t : Nat) (uncorrectable : Bool)
  /-- A filtered WCLK edge (R39, R42, R43); `order` names the voices that take a tick first. -/
  | filteredEdge (t : Nat) (order : List (BitVec 12))
  /-- The fallback divider's count reaches the period's length (R41). -/
  | dividerTick (order : List (BitVec 12))
  /-- A stand-in tick falls due (R43). -/
  | standInTick (order : List (BitVec 12))
  /-- The 4 us of the station's own DOWNBEAT drive have passed (R48). -/
  | downbeatDriveEnd
  /-- DOWNBEAT has stayed low for 1 us after a falling edge (R50). -/
  | downbeatEvent (t : Nat)
  /-- Twelve consecutive silent bit-times (R110, R111). -/
  | busIdle (t : Nat)
  /-- The first transition of a frame, whose kind field is `kind` (R111, R118). -/
  | frameBegins (t : Nat) (kind : BitVec 4)
  /-- Arbitration loss to a frame of kind `kind` (R115). -/
  | arbitrationLost (t : Nat) (kind : BitVec 4)
  /-- A mismatch other than arbitration loss in the station's own frame (R116). -/
  | bitError (t : Nat)
  /-- A silent bit-time inside a frame, or a length field above 24 (R118). -/
  | frameCutShort (t : Nat)
  /-- A frame assembled to its end, with the check word read (R119, R120). -/
  | frameDiscarded (t : Nat) (frame : Frame) (check : BitVec 16)
  /-- The station's own CLAIM is sent and received (R132). -/
  | claimWon (t : Nat)
  /-- The station's own NOTICE is sent (R179). -/
  | noticeSent (t : Nat)
  /-- A CLAIM from another station (R134, R136, R137). -/
  | claim (t : Nat) (h : Header) (tagField : BitVec 16)
  /-- NOTE (R127). -/
  | note (t : Nat) (h : Header) (region : BitVec 24) (offset : BitVec 32) (tick : BitVec 48)
      (rate : BitVec 24) (flags : BitVec 8)
  /-- END (R145). -/
  | endRequest (t : Nat) (h : Header) (flags : BitVec 8) (fade : BitVec 24) (atTick : BitVec 48)
  /-- RATE (R143). -/
  | rate (t : Nat) (h : Header) (target : BitVec 24) (step : BitVec 16)
  /-- FOLLOW (R151). -/
  | follow (t : Nat) (h : Header) (region : BitVec 24) (offset : BitVec 32)
  /-- UNFOLLOW (R153). -/
  | unfollow (t : Nat) (h : Header)
  /-- HALT (R155, R156). -/
  | halt (t : Nat) (h : Header)
  /-- TIMEBASE (R48). -/
  | timebase (t : Nat) (h : Header) (flags : BitVec 8) (load : BitVec 48) (drive : BitVec 48)
  /-- A NOTICE from another station (R120). -/
  | notice (t : Nat) (h : Header) (payload : List Byte)
  /-- PROBE (R170). -/
  | probe (t : Nat) (h : Header) (region : BitVec 24)
  /-- INSTALL (R160). -/
  | install (t : Nat) (h : Header) (region : BitVec 24) (format : BitVec 8) (frames : BitVec 24)
      (loopStart : BitVec 24) (loopEnd : BitVec 24) (source : BitVec 64)
  /-- RECLAIM (R167). -/
  | reclaim (t : Nat) (h : Header) (region : BitVec 24)
  /-- WIPE (R169). -/
  | wipe (t : Nat) (h : Header)
  /-- CONFIGURE (R173). -/
  | configure (t : Nat) (h : Header) (rateCode : BitVec 8) (base : BitVec 64) (ringLength : BitVec 8)
      (primeDepth : BitVec 8)
  /-- A bid entry's window passes (R135). -/
  | bidWindowExpiry (tag : BitVec 12)
  /-- A watch's window passes (R138). -/
  | watchWindowExpiry (tag : BitVec 12)
  /-- A segment read ends; bit i of `bad` says that the segment's sector i is uncorrectable (R97). -/
  | segmentReadEnd (t : Nat) (die : Nat) (bad : BitVec 12)
  /-- A program ends with success or failure (R101). -/
  | programComplete (t : Nat) (die : Nat) (ok : Bool)
  /-- An erase ends with success or failure (R103). -/
  | eraseComplete (t : Nat) (die : Nat) (ok : Bool)
  /-- A die in SUSPEND-PENDING answers (R106). -/
  | suspendReported (t : Nat) (die : Nat) (report : SuspendReport)
  /-- 250 us have passed since the die's last resume (R105). -/
  | resumeHoldOffExpiry (die : Nat)
  /-- The link has accepted the posting's last write (R176). -/
  | postingEnd (t : Nat)
  /-- The link layer reports the link trained and enabled (R174). -/
  | linkUp (t : Nat)
  /-- The link is lost, or the studio computer resets it (R174). -/
  | linkDown (t : Nat)
  /-- Every byte of the install read has returned: the bytes in address order (R177, log entry 20). -/
  | installReadDone (t : Nat) (bytes : List Byte)
  /-- A request of the install read returns an error completion (R177). -/
  | installReadError (t : Nat)
  /-- The install read's 50 ms timer passes (R177). -/
  | installReadTimeout
  /-- The DOWNBEAT line rises (R50). -/
  | downbeatLineRise (t : Nat)
  deriving DecidableEq, Repr, Inhabited

end Sys2Proof
end

