-- ==== Sys2Proof/WellFormed.lean ====
section
/-! DEFINITION. The checks a command's operands pass where their Lean type is wider than the spec's range.
A meaning still answers on an ill-formed command: it finds no such die, voice or byte and changes nothing. -/

namespace Sys2Proof

/-- A frame's payload has 0 to 24 bytes (R112). -/
def Frame.wellFormed (f : Frame) : Bool := f.payload.length ≤ 24

/-- Operand ranges: dies 0 to 7 (R89), payloads of at most 24 bytes (R112), page reads of at most 24,576
bytes (R177), and an order of voices that names none twice. -/
def Instr.wellFormed : Instr → Bool
  | .filteredEdge _ order => order.Nodup
  | .dividerTick order => order.Nodup
  | .standInTick order => order.Nodup
  | .frameDiscarded _ frame _ => frame.wellFormed
  | .notice _ _ payload => payload.length ≤ 24
  | .segmentReadEnd _ die _ => die < 8
  | .programComplete _ die _ => die < 8
  | .eraseComplete _ die _ => die < 8
  | .suspendReported _ die _ => die < 8
  | .resumeHoldOffExpiry die => die < 8
  | .installReadDone _ bytes => bytes.length ≤ 24576
  | .powerOnReset _ | .logSectorReadEnd _ _ | .downbeatDriveEnd | .downbeatEvent _ | .busIdle _
  | .frameBegins _ _ | .arbitrationLost _ _ | .bitError _ | .frameCutShort _ | .claimWon _
  | .noticeSent _ | .claim _ _ _ | .note _ _ _ _ _ _ _ | .endRequest _ _ _ _ _ | .rate _ _ _ _
  | .follow _ _ _ _ | .unfollow _ _ | .halt _ _ | .timebase _ _ _ _ _ | .probe _ _ _
  | .install _ _ _ _ _ _ _ _ | .reclaim _ _ _ | .wipe _ _ | .configure _ _ _ _ _ _
  | .bidWindowExpiry _ | .watchWindowExpiry _ | .postingEnd _ | .linkUp _ | .linkDown _
  | .installReadError _ | .installReadTimeout | .downbeatLineRise _ => true

end Sys2Proof
end

