-- ==== Sys2Proof/Decode.lean ====
section
/-! DEFINITION. What the spec encodes in bits: the cue bus frame with its check word (R112, R113), the
checks and the addressee filter of the receiving port (R119, R120), and the reading of a received frame as
a command (R121 and the layout tables). The opcode table gives its rows no bits, so `decodeTableWord`
answers none. -/

namespace Sys2Proof

/-! ### Byte and bit order -/

/-- The low `n` bytes of `v`, most significant byte first (R112). -/
def bytesBE : Nat → Nat → List Byte
  | 0, _ => []
  | n + 1, v => bytesBE n (v / 256) ++ [BitVec.ofNat 8 v]

/-- The number whose bytes, most significant first, are `bs` (R112). -/
def natBE (bs : List Byte) : Nat := bs.foldl (fun acc b => acc * 256 + b.toNat) 0

/-- The low `n` bits of `v`, most significant bit first (R112). -/
def bitsBE : Nat → Nat → List Bool
  | 0, _ => []
  | n + 1, v => bitsBE n (v / 2) ++ [v % 2 == 1]

/-- The number whose bits, most significant first, are `bs`. -/
def natOfBits (bs : List Bool) : Nat := bs.foldl (fun acc b => acc * 2 + b.toNat) 0

/-- Bytes `start` to `start + len - 1` of a payload or record, as one number. -/
def field (bs : List Byte) (start len : Nat) : Nat := natBE ((bs.drop start).take len)

/-! ### The frame -/

/-- The bits of a frame before its check word, in the order they are sent (R112). -/
def Frame.body (f : Frame) : List Bool :=
  bitsBE 4 f.kind.toNat ++ bitsBE 12 f.key.toNat ++ bitsBE 4 f.sender.toNat ++
  bitsBE 5 f.addressee.toNat ++ bitsBE 5 f.payload.length ++
  f.payload.flatMap (fun b => bitsBE 8 b.toNat)

/-- One bit into the CRC register: generator x^16 + x^12 + x^5 + 1 (R113). -/
def crcStep (reg : BitVec 16) (bit : Bool) : BitVec 16 :=
  if reg.msb != bit then (reg <<< 1) ^^^ 0x1021#16 else reg <<< 1

/-- The check word over the bits of a frame, from a register of all ones (R113). -/
def crc16 (bits : List Bool) : BitVec 16 := bits.foldl crcStep 0xFFFF#16

/-- The check word of a frame (R113). -/
def Frame.check (f : Frame) : BitVec 16 := crc16 f.body

/-- The whole frame as it is sent (R112). -/
def Frame.bits (f : Frame) : List Bool := f.body ++ bitsBE 16 f.check.toNat

/-- The arbitration value: kind, key and sender read as one number (R112). -/
def Frame.arbitration (f : Frame) : Nat :=
  f.kind.toNat * 65536 + f.key.toNat * 16 + f.sender.toNat

/-- `n` payload bytes taken from the front of a run of bits. -/
def takeBytes : Nat → List Bool → List Byte
  | 0, _ => []
  | n + 1, bits => BitVec.ofNat 8 (natOfBits (bits.take 8)) :: takeBytes n (bits.drop 8)

/-- The fields assembled from the bits of a frame, and its check word (R118). A length field above 24, or
a run of another length than the length field gives, assembles no frame. -/
def Frame.parse (bits : List Bool) : Option (Frame × BitVec 16) :=
  let len := natOfBits ((bits.drop 25).take 5)
  if len ≤ 24 ∧ bits.length = 46 + 8 * len then
    some ({ kind := BitVec.ofNat 4 (natOfBits (bits.take 4))
            key := BitVec.ofNat 12 (natOfBits ((bits.drop 4).take 12))
            sender := BitVec.ofNat 4 (natOfBits ((bits.drop 16).take 4))
            addressee := BitVec.ofNat 5 (natOfBits ((bits.drop 20).take 5))
            payload := takeBytes len (bits.drop 30) },
          BitVec.ofNat 16 (natOfBits (bits.drop (30 + 8 * len))))
  else none

/-- The payload length of a NOTICE whose key is `rank`; none above rank 14 (layout tables, R119). -/
def noticeLength (rank : Nat) : Option Nat :=
  [13, 8, 10, 8, 8, 6, 7, 3, 8, 8, 4, 5, 4, 3, 7][rank]?

/-- The payload length of a frame kind; none for kinds 14 and 15 (layout tables, R119). -/
def payloadLength (kind key : Nat) : Option Nat :=
  if kind = 8 then noticeLength key
  else [0, 2, 17, 10, 5, 7, 0, 13, 0, 3, 21, 3, 11, 0][kind]?

/-- The addressee filter of station `own` (R120): its own number or 31, and any CLAIM. -/
def addressed (own : Nat) (h : Header) : Bool := h.addressee.toNat == own || h.addressee.toNat == 31

/-- R119 and R120: the frame passes its check word, kind, length and the addressee filter. -/
def Frame.accepted (own : Nat) (f : Frame) (check : BitVec 16) : Bool :=
  check == f.check && payloadLength f.kind.toNat f.key.toNat == some f.payload.length &&
  (f.kind == 1#4 || addressed own ⟨f.key, f.sender, f.addressee⟩)

/-- The command by which a frame assembled at time `t` reaches station `own` (R121, layout tables). -/
def frameCommand (t own : Nat) (f : Frame) (check : BitVec 16) : Instr :=
  let h : Header := ⟨f.key, f.sender, f.addressee⟩
  let p := f.payload
  if f.accepted own check then
    match f.kind.toNat with
    | 0 => .halt t h
    | 1 => .claim t h (.ofNat 16 (field p 0 2))
    | 2 => .note t h (.ofNat 24 (field p 0 3)) (.ofNat 32 (field p 3 4)) (.ofNat 48 (field p 7 6))
        (.ofNat 24 (field p 13 3)) (.ofNat 8 (field p 16 1))
    | 3 => .endRequest t h (.ofNat 8 (field p 0 1)) (.ofNat 24 (field p 1 3)) (.ofNat 48 (field p 4 6))
    | 4 => .rate t h (.ofNat 24 (field p 0 3)) (.ofNat 16 (field p 3 2))
    | 5 => .follow t h (.ofNat 24 (field p 0 3)) (.ofNat 32 (field p 3 4))
    | 6 => .unfollow t h
    | 7 => .timebase t h (.ofNat 8 (field p 0 1)) (.ofNat 48 (field p 1 6)) (.ofNat 48 (field p 7 6))
    | 8 => .notice t h p
    | 9 => .probe t h (.ofNat 24 (field p 0 3))
    | 10 => .install t h (.ofNat 24 (field p 0 3)) (.ofNat 8 (field p 3 1)) (.ofNat 24 (field p 4 3))
        (.ofNat 24 (field p 7 3)) (.ofNat 24 (field p 10 3)) (.ofNat 64 (field p 13 8))
    | 11 => .reclaim t h (.ofNat 24 (field p 0 3))
    | 12 => .configure t h (.ofNat 8 (field p 0 1)) (.ofNat 64 (field p 1 8)) (.ofNat 8 (field p 9 1))
        (.ofNat 8 (field p 10 1))
    | 13 => .wipe t h
    | _ => .frameDiscarded t f check
  else .frameDiscarded t f check

/-- What the bits of one frame come to at station `own`: a command for its block, a discarded frame, or a
frame cut short (R118 to R121). -/
def receive (t own : Nat) (bits : List Bool) : Instr :=
  match Frame.parse bits with
  | some (f, check) => frameCommand t own f check
  | none => .frameCutShort t

/-- The opcode table's rows carry no bits: no word spells a command. -/
def decodeTableWord (_nbits _w : Nat) : Option Instr := none

end Sys2Proof
end

