-- ==== Sys2Proof/Machine/State.lean ====
section
/-! DEFINITION. The state of the station, block by block (spec 00, Block overview), as plain data; the
reasons a step could stop; and the state right after power-on reset. Times are in cycles of the 49.152 MHz
reference clock, ticks are values of the 48-bit tick counter, positions and rates are in units of 1/65,536
frame (R54). -/

namespace Sys2Proof.Machine

/-! ### Reasons to stop -/

/-- The station has no event that stops it: the spec turns every error into a notice, a count or a WORN
block, so this type has no constructor. -/
inductive Fault where
  deriving DecidableEq, Repr

/-- Why a step has no meaning. -/
inductive Refusal where
  /-- Raised by `exec`'s arm of a command that has no meaning yet; safe (the model stops). No arm of this
  model raises it. -/
  | notModelled (mnemonic : String)
  deriving DecidableEq, Repr

/-! ### Catalogue (spec 01) -/

/-- A region's format: two channels rather than one, 24-bit samples rather than 16-bit (R1). -/
structure Format where
  stereo : Bool
  wide   : Bool
  deriving DecidableEq, Repr, Inhabited

/-- HOME or REPLICA (R1). -/
inductive Role where
  | home | replica
  deriving DecidableEq, Repr, Inhabited

/-- A loop in region frames (R3). -/
structure Loop where
  start : Nat
  stop  : Nat
  deriving DecidableEq, Repr, Inhabited

/-- A run of pages of one erase block (R4). -/
structure Extent where
  die   : Nat
  block : Nat
  first : Nat
  count : Nat
  deriving DecidableEq, Repr, Inhabited

/-- LIVE or DEPARTING (R8). -/
inductive RegionState where
  | live | departing
  deriving DecidableEq, Repr, Inhabited

/-- A region record (R1). -/
structure Region where
  id      : Nat
  format  : Format
  frames  : Nat
  loop    : Option Loop
  role    : Role
  extents : List Extent
  state   : RegionState
  inUse   : Nat
  deriving DecidableEq, Repr, Inhabited

/-- Block states (R10); `unset` is "no state yet", before the start-up scan ends (R15). -/
inductive BlockState where
  | unset
  | free
  | opened (next : Nat)
  | full
  | queued
  | erasing
  | worn
  | log
  deriving DecidableEq, Repr, Inhabited

/-- A block record (R10). -/
structure Block where
  state   : BlockState
  live    : Nat
  pending : Nat
  deriving DecidableEq, Repr, Inhabited

/-- One die's part of the block table, and its free list (R10). -/
structure DieBlocks where
  blocks : List Block
  free   : List Nat
  deriving DecidableEq, Repr, Inhabited

/-- The start-up scan: the log sector being read and the skipped count (R15). -/
structure Scan where
  sector  : Nat
  skipped : Nat
  deriving DecidableEq, Repr, Inhabited

/-- The catalogue's state. -/
structure Catalogue where
  regions         : List Region
  blockTable      : List DieBlocks
  appendPos       : Nat
  owed            : Nat
  pendingInstalls : List Nat
  scan            : Option Scan
  deriving DecidableEq, Repr, Inhabited

/-! ### Voices (spec 02, 04, 05) -/

/-- The state of an in-use record; a record that is not listed is IDLE (R18, R20). -/
inductive VoiceState where
  | scheduled (start : Nat)
  | armed
  | running
  deriving DecidableEq, Repr, Inhabited

/-- Fill status (R23). -/
inductive Fill where
  | filling | late | complete
  deriving DecidableEq, Repr, Inhabited

/-- The cause of an end (R24). -/
inductive EndCause where
  | fade | loopExit | regionEnd
  deriving DecidableEq, Repr, Inhabited

/-- A present end: the end frame E and its cause (R24). -/
structure VoiceEnd where
  frame : Nat
  cause : EndCause
  deriving DecidableEq, Repr, Inhabited

/-- The modes a pending end can hold (R25). -/
inductive CutOrFade where
  | cut
  | fade (length : Nat)
  deriving DecidableEq, Repr, Inhabited

/-- A pending end (R25). -/
structure PendingEnd where
  mode   : CutOrFade
  atTick : Nat
  deriving DecidableEq, Repr, Inhabited

/-- A held follow slot (R26). -/
structure FollowSlot where
  region : Nat
  offset : Nat
  deriving DecidableEq, Repr, Inhabited

/-- An in-use voice record (R19), with the marks of R71 and the dry frame of R82. -/
structure Voice where
  record       : Nat
  tag          : Nat
  state        : VoiceState
  requester    : Nat
  region       : Nat
  s0           : Nat
  p            : Nat
  r            : Nat
  target       : Nat
  step         : Nat
  loopActive   : Bool
  loopRequest  : Bool
  loopReleased : Bool
  cursor       : Option Nat
  n            : Nat
  d            : Nat
  inFlight     : Option Nat
  fill         : Fill
  dryFrame     : Option Nat
  fin          : Option VoiceEnd
  pendingEnd   : Option PendingEnd
  follow       : Option FollowSlot
  dry          : Option Nat
  deriving DecidableEq, Repr, Inhabited

/-! ### Timebase (spec 03) -/

/-- Clock source state (R40). -/
inductive ClockSource where
  | stopped | fallback | external
  deriving DecidableEq, Repr, Inhabited

/-- The timebase's state. `accumulator` is the value the current divider period started from, before it
gained the step (R41); `lastDivider` is the instant of the divider's last tick in this stay in FALLBACK
(R42); `owedTick` says that a load cleared the phase at the instant of a divider tick still to be taken (R51);
`driving` is the instant the station's own DOWNBEAT drive began (R48); `pulseTaken` says that the
DOWNBEAT line has not risen since the last event (R50). -/
structure Timebase where
  source       : ClockSource
  qual         : Nat
  prevEdge     : Option Nat
  reference    : Option Nat
  standIn      : Nat
  dividerStart : Nat
  accumulator  : Nat
  lastDivider  : Option Nat
  owedTick     : Bool
  tick         : Nat
  load         : Option Nat
  drive        : Option Nat
  driving      : Option Nat
  pulseTaken   : Bool
  readyLow     : Bool
  deriving DecidableEq, Repr, Inhabited

/-! ### Media controller (spec 06) -/

/-- First reading or the single re-read (R92, R98). -/
inductive Attempt where
  | first | reRead
  deriving DecidableEq, Repr, Inhabited

/-- A read request (R92): its location is block, page and first sector on the queue's die. -/
structure ReadRequest where
  tag       : Nat
  ring      : Nat
  region    : Nat
  block     : Nat
  page      : Nat
  sector    : Nat
  sectors   : Nat
  frameSize : Nat
  dry       : Nat
  attempt   : Attempt
  kept      : Bool
  deriving DecidableEq, Repr, Inhabited

/-- A read being performed, with its segment's discarded mark (R33). -/
structure ActiveRead where
  req       : ReadRequest
  discarded : Bool
  deriving DecidableEq, Repr, Inhabited

/-- Who placed a program: the installer, its data in the page buffer, or the catalogue, with the bytes of
the log record (R93, R101). -/
inductive Purpose where
  | page
  | log (record : List Byte)
  deriving DecidableEq, Repr, Inhabited

/-- A program entry (R93). -/
structure Program where
  block   : Nat
  page    : Nat
  first   : Nat
  count   : Nat
  purpose : Purpose
  deriving DecidableEq, Repr, Inhabited

/-- A long operation (R93). -/
inductive LongOp where
  | program (p : Program)
  | erase (block : Nat)
  deriving DecidableEq, Repr, Inhabited

/-- Die states with their current and suspended operation (R89); `busy` is PROGRAM or ERASE, by its
operation, and `logRead` is READ of a log sector (R100). -/
inductive DieState where
  | idle
  | read (a : ActiveRead)
  | logRead (sector : Nat)
  | busy (op : LongOp)
  | suspendPending (op : LongOp)
  | suspended (op : LongOp)
  | suspendedRead (op : LongOp) (a : ActiveRead)
  deriving DecidableEq, Repr, Inhabited

/-- A die record (R89). -/
structure Die where
  state      : DieState
  lastResume : Option Nat
  reads      : List ReadRequest
  longOps    : List LongOp
  deriving DecidableEq, Repr, Inhabited

/-- What left flash sectors with unknown contents (R101, R104): a page program or an erase, failed or abandoned; a
failed log program, which passed its sector over; or a log program of `record`, abandoned at a power-on reset. The
start-up scan tells the three apart (R15, log entry 27). -/
inductive UnknownCause where
  | plain
  | passedOver
  | abandoned (record : List Byte)
  deriving DecidableEq, Repr, Inhabited

/-- A run of flash sectors whose contents are unknown (R101, R104); `stamp` numbers its free values. -/
structure UnknownRun where
  first : Nat
  count : Nat
  stamp : Nat
  cause : UnknownCause
  deriving DecidableEq, Repr, Inhabited

/-- The flash array: its bytes, listed where they differ from the erased byte, and the unknown runs. -/
structure Flash where
  cells   : List Host.Cell
  unknown : List UnknownRun
  deriving DecidableEq, Repr, Inhabited

/-- The media controller's state. `frontFailed` holds the programs that their front has turned away
(R102) in the running step, until their failure is handed on. -/
structure Media where
  dies        : List Die
  freeBuffers : Nat
  fronts      : List (List Nat)
  flash       : Flash
  frontFailed : List (Nat × Program)
  deriving DecidableEq, Repr, Inhabited

/-! ### Claim unit (spec 08) -/

/-- A bid entry's start mode (R125); the start tick is held for AT-TICK only. -/
inductive StartMode where
  | immediate
  | atTick (start : Nat)
  | armed
  deriving DecidableEq, Repr, Inhabited

/-- A bid entry's window (R125). -/
inductive Window where
  | opened | closed
  deriving DecidableEq, Repr, Inhabited

/-- A bid entry's offer state (R125). -/
inductive Offer where
  | waiting | sending
  deriving DecidableEq, Repr, Inhabited

/-- A bid entry (R125). -/
structure Bid where
  tag         : Nat
  region      : Nat
  start       : Nat
  mode        : StartMode
  captured    : Nat
  rate        : Nat
  loopRequest : Bool
  requester   : Nat
  expiry      : Nat
  window      : Window
  offer       : Offer
  deriving DecidableEq, Repr, Inhabited

/-- A watch (R126). `due` says that its window passed while a CLAIM was being received (R138). -/
structure Watch where
  tag       : Nat
  region    : Nat
  requester : Nat
  expiry    : Nat
  heard     : Bool
  due       : Bool
  deriving DecidableEq, Repr, Inhabited

/-- The claim unit's state. -/
structure ClaimUnit where
  bids    : List Bid
  watches : List Watch
  deriving DecidableEq, Repr, Inhabited

/-! ### Cue port (spec 07) -/

/-- The port's view of the bus (R111); RECEIVING with the kind of the frame on the bus, the lowest of those that
contend (R115). -/
inductive BusCondition where
  | seeking
  | idle
  | receiving (kind : Nat)
  | skipping
  deriving DecidableEq, Repr, Inhabited

/-- The frame being sent, with its owner (R117): a bid entry's CLAIM, or the NOTICE of the queue's head. -/
inductive Sending where
  | claim (tag : Nat) (frame : Frame)
  | notice (frame : Frame)
  deriving DecidableEq, Repr, Inhabited

/-- The frame that other stations have begun in this RECEIVING (R114): its kind, the lowest of theirs, and the
instant of its first transition. -/
structure Rival where
  kind  : Nat
  since : Nat
  deriving DecidableEq, Repr, Inhabited

/-- The cue port's state. `rival` is the frame of other stations that the station's own frame may contend with,
or contends with (R114). -/
structure Port where
  bus     : BusCondition
  sending : Option Sending
  rival   : Option Rival := none
  deriving DecidableEq, Repr, Inhabited

/-! ### Notice queue (spec 11) -/

/-- Reasons a voice retires (R34). -/
inductive RetireReason where
  | done | cut | stolen | superseded | yielded | halted | link | limit
  deriving DecidableEq, Repr, Inhabited

/-- Refusal, decline and install-failure reasons (layout tables, spec 07). -/
inductive Reason where
  | busy | badConfig | exists_ | badLoop | tooLarge | logFull | noSpace | absent | inUse | log
  | late | slotFull | notHeld | format | range | state | noneClaimed | linkRead | linkDown | program
  deriving DecidableEq, Repr, Inhabited

/-- A notice's kind with its fields (layout tables, spec 07), the loss count apart (R178). -/
inductive NoticeBody where
  | underrun (tag gapStart gapLength count : Nat)
  | media (tag region sectors : Nat)
  | stitch (tag region frame : Nat)
  | endpoint (tag frame : Nat) (cause : EndCause)
  | retired (tag : Nat) (reason : RetireReason) (frame : Nat)
  | refused (kind : Nat) (reason : Reason) (subject : Nat)
  | declined (tag : Nat) (reason : Reason) (region : Nat)
  | halted (count : Nat)
  | clock (locked : Bool) (tick : Nat)
  | holds (region : Nat) (role : Role) (state : RegionState) (bid : Nat)
  | installed (region : Nat)
  | installFailed (region : Nat) (reason : Reason)
  | reclaimed (region : Nat)
  | wiped (worn : Nat)
  | present (regions skipped used : Nat)
  deriving DecidableEq, Repr, Inhabited

/-- A queued notice (R178). `isOpen` is the open mark of an UNDERRUN or MEDIA notice; no other notice
carries it. -/
structure Notice where
  addressee : Nat
  body      : NoticeBody
  isOpen    : Bool
  deriving DecidableEq, Repr, Inhabited

/-- The notice queue (R178, R179). `drops` counts the notices dropped since the head's frame began. -/
structure NoticeQueue where
  queue      : List Notice
  loss       : Nat
  offerCount : Nat
  addendum   : Option NoticeBody
  drops      : Nat
  deriving DecidableEq, Repr, Inhabited

/-! ### Installer (spec 10) -/

/-- The phase of an INSTALL item; `waiting` is an item that is not RUNNING yet (R158). -/
inductive InstallPhase where
  | waiting | reading | programming | waitingBlock | appending
  deriving DecidableEq, Repr, Inhabited

/-- An INSTALL item (R158): the fields its frame carried, and its progress. -/
structure InstallItem where
  sender    : Nat
  region    : Nat
  format    : Nat
  frames    : Nat
  loopStart : Nat
  loopEnd   : Nat
  source    : Nat
  die       : Nat
  reserved  : Nat
  q         : Nat
  extents   : List Extent
  phase     : InstallPhase
  deriving DecidableEq, Repr, Inhabited

/-- A work item (R158): a RECLAIM with its RUNNING mark, a WIPE with its worn count and the numbers of its
erases still to end, all of them and those of LOG blocks (R169). -/
inductive WorkItem where
  | install (i : InstallItem)
  | reclaim (sender region : Nat) (running : Bool)
  | wipe (sender worn left logLeft : Nat)
  deriving DecidableEq, Repr, Inhabited

/-- The installer's state. `held` says that a program of an ended INSTALL holds the page buffer (R166). -/
structure Installer where
  work       : List WorkItem
  pageBuffer : List Byte
  held       : Bool
  deriving DecidableEq, Repr, Inhabited

/-! ### Delivery engine (spec 11) -/

/-- UP or DOWN (R174). -/
inductive LinkState where
  | up | down
  deriving DecidableEq, Repr, Inhabited

/-- A delivery queue entry (R175); `data` is its segment buffer's contents. -/
structure Delivery where
  tag       : Nat
  ring      : Nat
  frameSize : Nat
  data      : List Byte
  deriving DecidableEq, Repr, Inhabited

/-- The posting under way: its segment, the ring address it writes (R175) and its discarded mark (R176). -/
structure Posting where
  seg       : Delivery
  address   : Nat
  discarded : Bool
  deriving DecidableEq, Repr, Inhabited

/-- The install read under way (R177). -/
structure InstallRead where
  bytes   : Nat
  address : Nat
  since   : Nat
  deriving DecidableEq, Repr, Inhabited

/-- The delivery engine's state. -/
structure DeliveryEngine where
  link        : LinkState
  queue       : List Delivery
  posting     : Option Posting
  installRead : Option InstallRead
  deriving DecidableEq, Repr, Inhabited

/-! ### Station setup (spec 11) -/

/-- STARTING, UNCONFIGURED or CONFIGURED (R172). -/
inductive StationState where
  | starting | unconfigured | configured
  deriving DecidableEq, Repr, Inhabited

/-- The session rates, in the order of their codes 0 to 5 (R39, layout tables). -/
inductive SessionRate where
  | hz44100 | hz48000 | hz88200 | hz96000 | hz176400 | hz192000
  deriving DecidableEq, Repr, Inhabited

/-- A configuration in force (R173). -/
structure Configuration where
  rate       : SessionRate
  base       : Nat
  ringLength : Nat
  primeDepth : Nat
  deriving DecidableEq, Repr, Inhabited

/-- Station setup's state. -/
structure Station where
  state  : StationState
  number : Nat
  config : Option Configuration
  deriving DecidableEq, Repr, Inhabited

/-! ### The whole station -/

/-- The state of the station: its eleven blocks, the reference clock's time at the latest command, the
stamp that numbers free values, and the queue of waiting commands, first in, first out. -/
structure State where
  clock     : Nat
  station   : Station
  port      : Port
  claims    : ClaimUnit
  voices    : List Voice
  timebase  : Timebase
  media     : Media
  catalogue : Catalogue
  installer : Installer
  delivery  : DeliveryEngine
  notices   : NoticeQueue
  stamp     : Nat
  pending   : List Instr
  deriving DecidableEq, Repr, Inhabited

/-! ### Named updates, one per block -/

/-- The state with another clock. -/
def State.setClock (s : State) (x : Nat) : State := { s with clock := x }
/-- The state with another station setup. -/
def State.setStation (s : State) (x : Station) : State := { s with station := x }
/-- The state with another cue port. -/
def State.setPort (s : State) (x : Port) : State := { s with port := x }
/-- The state with another claim unit. -/
def State.setClaims (s : State) (x : ClaimUnit) : State := { s with claims := x }
/-- The state with another voice table. -/
def State.setVoices (s : State) (x : List Voice) : State := { s with voices := x }
/-- The state with another timebase. -/
def State.setTimebase (s : State) (x : Timebase) : State := { s with timebase := x }
/-- The state with another media controller. -/
def State.setMedia (s : State) (x : Media) : State := { s with media := x }
/-- The state with another catalogue. -/
def State.setCatalogue (s : State) (x : Catalogue) : State := { s with catalogue := x }
/-- The state with another installer. -/
def State.setInstaller (s : State) (x : Installer) : State := { s with installer := x }
/-- The state with another delivery engine. -/
def State.setDelivery (s : State) (x : DeliveryEngine) : State := { s with delivery := x }
/-- The state with another notice queue. -/
def State.setNotices (s : State) (x : NoticeQueue) : State := { s with notices := x }
/-- The state with another stamp. -/
def State.setStamp (s : State) (x : Nat) : State := { s with stamp := x }
/-- The state with another queue of waiting commands. -/
def State.setPending (s : State) (x : List Instr) : State := { s with pending := x }

/-! ### Power-on reset -/

/-- The timebase at power-on reset (R53). -/
def Timebase.reset : Timebase :=
  { source := .stopped, qual := 0, prevEdge := none, reference := none, standIn := 0
    dividerStart := 0, accumulator := 0, lastDivider := none, owedTick := false, tick := 0
    load := none, drive := none, driving := none, pulseTaken := false, readyLow := false }

/-- A die record at power-on reset (R89). -/
def Die.reset : Die := { state := .idle, lastResume := none, reads := [], longOps := [] }

/-- A block with no state yet (R15). -/
def Block.unset : Block := { state := .unset, live := 0, pending := 0 }

/-- A block of the catalogue log (R15). -/
def Block.log : Block := { state := .log, live := 0, pending := 0 }

/-- The block table at power-on reset (R15): LOG for die 0 blocks 0 to 7, no state yet elsewhere. -/
def Catalogue.resetBlocks : List DieBlocks :=
  { blocks := List.replicate 8 Block.log ++ List.replicate 2040 Block.unset, free := [] } ::
    List.replicate 7 { blocks := List.replicate 2048 Block.unset, free := [] }

/-- The catalogue at power-on reset (R15): empty, with the start-up scan at log sector 0. -/
def Catalogue.reset : Catalogue :=
  { regions := [], blockTable := Catalogue.resetBlocks, appendPos := 0, owed := 0
    pendingInstalls := [], scan := some { sector := 0, skipped := 0 } }

/-- An erased flash array. -/
def Flash.erased : Flash := { cells := [], unknown := [] }

/-- The media controller after power-on reset over a flash array: every die IDLE but die 0, which performs
the scan's first log sector read (R100, R109, log entry 6). -/
def Media.resetOver (flash : Flash) : Media :=
  { dies := { Die.reset with state := .logRead 0 } :: List.replicate 7 Die.reset
    freeBuffers := 24, fronts := List.replicate 8 (List.replicate 2048 0)
    flash := flash, frontFailed := [] }

/-- The station right after power-on reset with station number `number`, over a flash array and a free
value stamp. -/
def State.resetOver (number : Nat) (flash : Flash) (stamp : Nat) : State :=
  { clock := 0
    station := { state := .starting, number := number, config := none }
    port := { bus := .seeking, sending := none }
    claims := { bids := [], watches := [] }
    voices := []
    timebase := Timebase.reset
    media := Media.resetOver flash
    catalogue := Catalogue.reset
    installer := { work := [], pageBuffer := [], held := false }
    delivery := { link := .down, queue := [], posting := none, installRead := none }
    notices := { queue := [], loss := 0, offerCount := 0, addendum := none, drops := 0 }
    stamp := stamp
    pending := [] }

/-- The machine right after reset: station number 0 and an erased flash array (log entries 5 and 7). -/
def State.reset : State := State.resetOver 0 Flash.erased 0

end Sys2Proof.Machine
end

