-- ==== Sys2Proof/Machine/Ops.lean ====
section
/-! DEFINITION. The named operations every block uses: time, lists keyed by a field, the region table with
its in-use counts, the voice table, the dies, the flash array and the notice queue. -/

namespace Sys2Proof.Machine

/-! ### Quantities -/

/-- Ticks of the 48-bit counter: values lie below this (R46). -/
def tickModulus : Nat := 281474976710656

/-- The greatest slack the position unit states, and the cap of a late start's lateness (R61, R64). -/
def slackCap : Nat := 16777215

/-- Reference cycles of the 2,000 us windows (R125, R126). -/
def windowCycles : Nat := 98304

/-- Reference cycles of the 250 us a die runs after a resume (R105). -/
def holdOffCycles : Nat := 12288

/-- The least number of reference cycles that make 4 us (R48). -/
def driveCycles : Nat := 197

/-- Reference cycles of the 50 ms install read timer (R177). -/
def readTimeoutCycles : Nat := 2457600

/-- The station's clock at an event of time `t`; it never goes back (log entry 1). -/
def State.atTime (s : State) (t : Nat) : State := s.setClock (max s.clock t)

/-- `x` rounded down to a multiple of 1,024 (R122: start and follow offsets). -/
def roundSegment (x : Nat) : Nat := x / 1024 * 1024

/-- A rate brought into 4,096 to 524,288 (R55). -/
def clampRate (x : Nat) : Nat := min 524288 (max 4096 x)

/-- The current slack of a dry tick (R64): its distance ahead of now, or 0. -/
def currentSlack (now dry : Nat) : Nat := dry - now

/-- The first element that passes `p` changed by `f`. -/
def updateFirst {α : Type} (p : α → Bool) (f : α → α) : List α → List α
  | [] => []
  | x :: xs => if p x then f x :: xs else x :: updateFirst p f xs

/-- `x` put into a list ordered by `le`, after every element that is not greater. -/
def insertOrdered {α : Type} (le : α → α → Bool) (x : α) : List α → List α
  | [] => [x]
  | y :: ys => if le y x then y :: insertOrdered le x ys else x :: y :: ys

/-! ### Formats and regions (R1 to R5) -/

/-- The format a format byte gives (layout tables); its unused bits are ignored (R122). -/
def Format.ofByte (b : Nat) : Format := { stereo := b.testBit 0, wide := b.testBit 1 }

/-- The role a format byte gives (layout tables). -/
def Role.ofByte (b : Nat) : Role := if b.testBit 3 then .replica else .home

/-- Bytes per frame: 2, 3, 4 or 6 (R2). -/
def Format.frameSize (f : Format) : Nat := (if f.stereo then 2 else 1) * (if f.wide then 3 else 2)

/-- Sectors per segment: 4, 6, 8 or 12 (R2). -/
def Format.sectorsPerSegment (f : Format) : Nat := 2 * f.frameSize

/-- Segments per page: 12, 8, 6 or 4 (R2). -/
def Format.segmentsPerPage (f : Format) : Nat := 24 / f.frameSize

/-- The segment count of `frames` frames (R2). -/
def segmentsOf (frames : Nat) : Nat := (frames + 1023) / 1024

/-- The page count of `frames` frames in a format (R2). -/
def pagesOf (f : Format) (frames : Nat) : Nat :=
  (segmentsOf frames + f.segmentsPerPage - 1) / f.segmentsPerPage

/-- The segment count of a region (R2). -/
def Region.segments (r : Region) : Nat := segmentsOf r.frames

/-- A loop's conditions against a segment count (R3). -/
def loopValid (l : Loop) (segments : Nat) : Bool :=
  l.start % 1024 == 0 && l.stop % 1024 == 0 && l.start < l.stop && l.stop ≤ 1024 * segments

/-- The block and page of page index `q` of an extent list, walked in order (R5). -/
def locatePage : List Extent → Nat → Option (Nat × Nat)
  | [], _ => none
  | e :: es, q => if q < e.count then some (e.block, e.first + q) else locatePage es (q - e.count)

/-- Block, page and first sector of source segment `k` of a region (R5). -/
def Region.locate (r : Region) (k : Nat) : Option (Nat × Nat × Nat) :=
  let per := r.format.segmentsPerPage
  (locatePage r.extents (k / per)).map fun bp =>
    (bp.1, bp.2, k % per * r.format.sectorsPerSegment)

/-- The die of a region's extents (R4, R5). -/
def Region.die (r : Region) : Nat := (r.extents.head?.map (·.die)).getD 0

/-- The record of a region id in the region table (R6). -/
def State.region? (s : State) (id : Nat) : Option Region := s.catalogue.regions.find? (·.id == id)

/-- The region table changed at one id. -/
def State.updateRegion (s : State) (id : Nat) (f : Region → Region) : State :=
  s.setCatalogue { s.catalogue with regions := updateFirst (·.id == id) f s.catalogue.regions }

/-- One use more of a region (R9). -/
def State.addUse (s : State) (id : Nat) : State :=
  s.updateRegion id fun r => { r with inUse := r.inUse + 1 }

/-- One use fewer of a region (R9). -/
def State.releaseUse (s : State) (id : Nat) : State :=
  s.updateRegion id fun r => { r with inUse := r.inUse - 1 }

/-- One use fewer of each region of a list (R9). -/
def State.releaseUses (s : State) (ids : List Nat) : State := ids.foldl State.releaseUse s

/-! ### Voices (R18) -/

/-- The in-use record that carries a tag (R18). -/
def State.voice? (s : State) (tag : Nat) : Option Voice := s.voices.find? (·.tag == tag)

/-- The voice table changed at one tag. -/
def State.updateVoice (s : State) (tag : Nat) (f : Voice → Voice) : State :=
  s.setVoices (updateFirst (·.tag == tag) f s.voices)

/-- The whole-frame part of a position (R54). -/
def Voice.floorP (v : Voice) : Nat := v.p / 65536

/-- F, the first voice frame not yet delivered (R19). -/
def Voice.firstMissing (v : Voice) : Nat := v.s0 + 1024 * v.d

/-- The regions a voice holds uses of (R9). -/
def Voice.uses (v : Voice) : List Nat := v.region :: (v.follow.map (·.region)).toList

/-- The ring length in force, 0 with no configuration (R173). -/
def State.ringLength (s : State) : Nat := (s.station.config.map (·.ringLength)).getD 0

/-! ### Dies (R89) -/

/-- A die record; no die beyond 7 has work. -/
def State.die (s : State) (d : Nat) : Die := s.media.dies.getD d Die.reset

/-- The die records changed at one die. -/
def State.updateDie (s : State) (d : Nat) (f : Die → Die) : State :=
  s.setMedia { s.media with dies := s.media.dies.modify d f }

/-- A die given another state. -/
def State.setDieState (s : State) (d : Nat) (x : DieState) : State :=
  s.updateDie d fun die => { die with state := x }

/-- The numbers of the eight dies. -/
def dieNumbers : List Nat := List.range 8

/-! ### Block table (R10) -/

/-- One die's part of the block table. -/
def State.dieBlocks (s : State) (d : Nat) : DieBlocks :=
  s.catalogue.blockTable.getD d { blocks := [], free := [] }

/-- The block table changed at one die. -/
def State.updateDieBlocks (s : State) (d : Nat) (f : DieBlocks → DieBlocks) : State :=
  s.setCatalogue { s.catalogue with blockTable := s.catalogue.blockTable.modify d f }

/-- A block record (R10). -/
def State.block (s : State) (d b : Nat) : Block := (s.dieBlocks d).blocks.getD b Block.unset

/-- The block table changed at one block. -/
def State.updateBlock (s : State) (d b : Nat) (f : Block → Block) : State :=
  s.updateDieBlocks d fun t => { t with blocks := t.blocks.modify b f }

/-- A block given another state. -/
def State.setBlockState (s : State) (d b : Nat) (x : BlockState) : State :=
  s.updateBlock d b fun k => { k with state := x }

/-- A block put at the tail of its die's free list (R11). -/
def State.pushFree (s : State) (d b : Nat) : State :=
  s.updateDieBlocks d fun t => { t with free := t.free ++ [b] }

/-! ### Flash array -/

/-- What an erased byte reads as (layout tables: FFh). -/
def erasedByte : Byte := 0xFF#8

/-- The canonical form of a cell list: addresses strictly rising, no erased byte listed. -/
abbrev Memory.wf (m : List Host.Cell) : Prop :=
  m.Pairwise (fun a b => a.1 < b.1) ∧ ∀ c ∈ m, c.2 ≠ erasedByte

/-- One byte of a cell list; an unlisted one reads as erased. -/
def Memory.read (m : List Host.Cell) (a : Nat) : Byte :=
  ((m.find? (fun c => c.1 == a)).map (·.2)).getD erasedByte

/-- The cells that `bytes` at address `a` list. -/
def Memory.run (a : Nat) (bytes : List Byte) : List Host.Cell :=
  ((bytes.zipIdx a).filter (fun x => x.1 != erasedByte)).map fun x => (x.2, x.1)

/-- A cell list with `bytes` written at address `a`. -/
def Memory.write (m : List Host.Cell) (a : Nat) (bytes : List Byte) : List Host.Cell :=
  m.filter (fun c => decide (c.1 < a)) ++ Memory.run a bytes ++
    m.filter (fun c => decide (a + bytes.length ≤ c.1))

/-- A cell list with `len` bytes from address `a` erased. -/
def Memory.erase (m : List Host.Cell) (a len : Nat) : List Host.Cell :=
  m.filter fun c => decide (c.1 < a) || decide (a + len ≤ c.1)

/-- A run of unknown sectors less the sectors `first` to `first + count - 1`. -/
def UnknownRun.minus (u : UnknownRun) (first count : Nat) : List UnknownRun :=
  let last := u.first + u.count
  let left := min last first - u.first
  let right := max u.first (first + count)
  (if 0 < left then [{ u with count := left }] else []) ++
    (if right < last then [{ u with first := right, count := last - right }] else [])

/-- Whether an unknown run covers a sector. -/
def UnknownRun.covers (u : UnknownRun) (sector : Nat) : Bool :=
  u.first ≤ sector && sector < u.first + u.count

/-- The number of a sector in the array: die, block, and sector within the block. -/
def sectorNumber (die block sector : Nat) : Nat := (die * 2048 + block) * 6144 + sector

/-- One byte of the flash array: a free value in an unknown sector, else the listed byte. -/
def Flash.read (f : Flash) (a : Nat) : Byte :=
  match f.unknown.find? (·.covers (a / 512)) with
  | some u => Config.freeByte u.stamp a
  | none => Memory.read f.cells a

/-- What left a sector unknown; none for one whose contents are known (R101, R104). -/
def Flash.cause? (f : Flash) (sector : Nat) : Option UnknownCause :=
  (f.unknown.find? (·.covers sector)).map (·.cause)

/-- The 512 bytes of a sector. -/
def Flash.sector (f : Flash) (n : Nat) : List Byte :=
  (List.range 512).map fun i => f.read (n * 512 + i)

/-- A run of sectors programmed with `bytes` (R101). -/
def Flash.program (f : Flash) (first count : Nat) (bytes : List Byte) : Flash :=
  { cells := Memory.write f.cells (first * 512) (bytes.take (count * 512))
    unknown := f.unknown.flatMap (·.minus first count) }

/-- A run of sectors erased (R103). -/
def Flash.erase (f : Flash) (first count : Nat) : Flash :=
  { cells := Memory.erase f.cells (first * 512) (count * 512)
    unknown := f.unknown.flatMap (·.minus first count) }

/-- A run of sectors whose contents become unknown (R101, R104). -/
def Flash.scramble (f : Flash) (first count stamp : Nat) (cause : UnknownCause) : Flash :=
  { cells := Memory.erase f.cells (first * 512) (count * 512)
    unknown := { first := first, count := count, stamp := stamp, cause := cause } ::
      f.unknown.flatMap (·.minus first count) }

/-- The station with another flash array. -/
def State.setFlash (s : State) (f : Flash) : State := s.setMedia { s.media with flash := f }

/-- A run of sectors of the station's flash becomes unknown, under a fresh stamp (log entry 7). -/
def State.scramble (s : State) (first count : Nat) (cause : UnknownCause) : State :=
  (s.setFlash (s.media.flash.scramble first count s.stamp cause)).setStamp (s.stamp + 1)

/-- The first sector and the sector count of a long operation on a die (R93). -/
def LongOp.sectors (die : Nat) : LongOp → Nat × Nat
  | .program p => (sectorNumber die p.block (p.page * 48 + p.first), p.count)
  | .erase b => (sectorNumber die b 0, 6144)

/-- The long operation a die has under way or suspended (R89). -/
def DieState.longOp? : DieState → Option LongOp
  | .busy op => some op
  | .suspendPending op => some op
  | .suspended op => some op
  | .suspendedRead op _ => some op
  | .idle | .read _ | .logRead _ => none

/-- The segment read a die is performing (R89). -/
def DieState.activeRead? : DieState → Option ActiveRead
  | .read a => some a
  | .suspendedRead _ a => some a
  | .idle | .logRead _ | .busy _ | .suspendPending _ | .suspended _ => none

/-- A die state with its performed read changed. -/
def DieState.mapRead (f : ActiveRead → ActiveRead) : DieState → DieState
  | .read a => .read (f a)
  | .suspendedRead op a => .suspendedRead op (f a)
  | x => x

/-! ### Notices (R178 to R180) -/

/-- The rank of a notice kind, which is its frame's key (layout tables). -/
def NoticeBody.rank : NoticeBody → Nat
  | .underrun .. => 0 | .media .. => 1 | .stitch .. => 2 | .endpoint .. => 3 | .retired .. => 4
  | .refused .. => 5 | .declined .. => 6 | .halted .. => 7 | .clock .. => 8 | .holds .. => 9
  | .installed .. => 10 | .installFailed .. => 11 | .reclaimed .. => 12 | .wiped .. => 13
  | .present .. => 14

/-- The tag of an UNDERRUN or MEDIA report, with its kind: the key by which reports merge (R178). -/
def NoticeBody.mergeKey : NoticeBody → Option (Bool × Nat)
  | .underrun tag .. => some (false, tag)
  | .media tag .. => some (true, tag)
  | _ => none

/-- A later report merged into an earlier one of the same kind: counts and gap lengths are added, the
earlier gap start or region id is kept (R178). -/
def NoticeBody.merge : NoticeBody → NoticeBody → NoticeBody
  | .underrun tag start len count, .underrun _ _ len' count' =>
      .underrun tag start (len + len') (count + count')
  | .media tag region sectors, .media _ _ sectors' => .media tag region (sectors + sectors')
  | earlier, _ => earlier

/-- The code of a reason (layout tables). -/
def Reason.code : Reason → Nat
  | .busy => 1 | .badConfig => 2 | .exists_ => 3 | .badLoop => 4 | .tooLarge => 5 | .logFull => 6
  | .noSpace => 7 | .absent => 8 | .inUse => 9 | .log => 10 | .late => 11 | .slotFull => 12
  | .notHeld => 13 | .format => 14 | .range => 15 | .state => 16 | .noneClaimed => 17
  | .linkRead => 18 | .linkDown => 19 | .program => 20

/-- The code of a retirement reason (layout tables). -/
def RetireReason.code : RetireReason → Nat
  | .done => 0 | .cut => 1 | .stolen => 2 | .superseded => 3 | .yielded => 4 | .halted => 5
  | .link => 6 | .limit => 7

/-- The code of an end's cause (layout tables). -/
def EndCause.code : EndCause → Nat
  | .fade => 0 | .loopExit => 1 | .regionEnd => 2

/-- A count in a field of `n` bytes, most significant first; a greater one is sent as the field's greatest
value (R122, R180). -/
def countField (n v : Nat) : List Byte := bytesBE n (min v (256 ^ n - 1))

/-- The payload of a NOTICE after byte 0 (layout tables). -/
def NoticeBody.fields : NoticeBody → List Byte
  | .underrun tag start len count =>
      countField 2 tag ++ countField 4 start ++ countField 4 len ++ countField 2 count
  | .media tag region sectors => countField 2 tag ++ countField 3 region ++ countField 2 sectors
  | .stitch tag region frame => countField 2 tag ++ countField 3 region ++ countField 4 frame
  | .endpoint tag frame cause => countField 2 tag ++ countField 4 frame ++ countField 1 cause.code
  | .retired tag reason frame => countField 2 tag ++ countField 1 reason.code ++ countField 4 frame
  | .refused kind reason subject =>
      countField 1 kind ++ countField 1 reason.code ++ countField 3 subject
  | .declined tag reason region =>
      countField 2 tag ++ countField 1 reason.code ++ countField 3 region
  | .halted count => countField 2 count
  | .clock locked tick => countField 1 (if locked then 0 else 1) ++ countField 6 tick
  | .holds region role state bid =>
      countField 3 region ++ countField 1 (if role = .home then 0 else 1) ++
        countField 1 (if state = .live then 0 else 1) ++ countField 2 bid
  | .installed region => countField 3 region
  | .installFailed region reason => countField 3 region ++ countField 1 reason.code
  | .reclaimed region => countField 3 region
  | .wiped worn => countField 2 worn
  | .present regions skipped used => countField 2 regions ++ countField 2 skipped ++ countField 2 used

/-- The NOTICE frame of a notice: the key is its rank, byte 0 carries the loss count (R179). -/
def Notice.frame (n : Notice) (sender loss : Nat) : Frame :=
  { kind := 8#4, key := .ofNat 12 n.body.rank, sender := .ofNat 4 sender
    addressee := .ofNat 5 n.addressee, payload := countField 1 loss ++ n.body.fields }

/-- The loss count raised by one, up to 15 (R178). -/
def raiseLoss (loss : Nat) : Nat := min 15 (loss + 1)

/-- Whether the head's frame is on the bus (R179). -/
def State.headOnBus (s : State) : Bool :=
  match s.port.sending with
  | some (.notice _) => true
  | some (.claim _ _) | none => false

/-- Whether a queued notice is open and takes reports of the kind and tag of `body` (R178). -/
def Notice.takes (n : Notice) (body : NoticeBody) : Bool :=
  n.isOpen && body.mergeKey.isSome && n.body.mergeKey == body.mergeKey

/-- A report that finds no notice to merge into joins the tail, or is dropped with 32 in the queue and
the loss count raised (R178). -/
def NoticeQueue.join (q : NoticeQueue) (n : Notice) : NoticeQueue :=
  if q.queue.length < 32 then { q with queue := q.queue ++ [n] }
  else { q with loss := raiseLoss q.loss, drops := q.drops + 1 }

/-- A report merges into the open notice it finds, or into the addendum of a head on the bus; with none it
joins (R178, R179). -/
def NoticeQueue.report (q : NoticeQueue) (onBus : Bool) (n : Notice) : NoticeQueue :=
  match q.queue with
  | [] => q.join n
  | head :: rest =>
    if head.takes n.body then
      if onBus then
        { q with addendum := some ((q.addendum.map (·.merge n.body)).getD n.body) }
      else { q with queue := { head with body := head.body.merge n.body } :: rest }
    else if rest.any (·.takes n.body) then
      let merged := updateFirst (·.takes n.body)
        (fun m => { m with body := m.body.merge n.body }) rest
      { q with queue := head :: merged }
    else q.join n

/-- A block queues a notice (R178). UNDERRUN and MEDIA notices are open from their queueing. -/
def State.queueNotice (s : State) (addressee : Nat) (body : NoticeBody) : State :=
  s.setNotices (s.notices.report s.headOnBus
    { addressee := addressee, body := body, isOpen := body.mergeKey.isSome })

/-- A REFUSED notice (R142, R159). -/
def State.refuse (s : State) (sender kind : Nat) (reason : Reason) (subject : Nat) : State :=
  s.queueNotice sender (.refused kind reason subject)

/-- The UNDERRUN and MEDIA notices of a retiring voice are closed (R33, R178). -/
def Notice.closeFor (tag : Nat) (n : Notice) : Notice :=
  if n.body.mergeKey.map (·.2) = some tag then { n with isOpen := false } else n

/-- The notices of a retiring voice's tag are closed (R33, R178). -/
def State.closeNotices (s : State) (tag : Nat) : State :=
  s.setNotices { s.notices with queue := s.notices.queue.map (Notice.closeFor tag) }

/-- The head leaves the queue; the next notice becomes the head with offer count 0 (R179). -/
def NoticeQueue.dropHead (q : NoticeQueue) : NoticeQueue :=
  { q with queue := q.queue.tail, offerCount := 0, addendum := none }

/-- The addendum merges into the head and empties (R179). -/
def NoticeQueue.foldAddendum (q : NoticeQueue) : NoticeQueue :=
  match q.queue, q.addendum with
  | head :: rest, some add =>
      { q with queue := { head with body := head.body.merge add } :: rest, addendum := none }
  | _, _ => { q with addendum := none }

end Sys2Proof.Machine
end

