-- ==== Sys2Proof/Machine/Operands.lean ====
section
/-! DEFINITION. What the fields of a command's frame stand for (the layout tables of spec 07, R122), and
the numbers that a session rate code stands for (R39, R41). A code field with an unlisted value reads as
none. -/

namespace Sys2Proof.Machine

/-- The modes of an END (layout tables). -/
inductive EndMode where
  | cut
  | fade (length : Nat)
  | loopExit
  deriving DecidableEq, Repr, Inhabited

/-- The start mode of a NOTE: bits 0 and 1 of its flags, with its start tick for AT-TICK alone. -/
def startModeOf (flags : BitVec 8) (tick : BitVec 48) : Option StartMode :=
  match flags.toNat % 4 with
  | 0 => some .immediate
  | 1 => some (.atTick tick.toNat)
  | 2 => some .armed
  | _ => none

/-- The loop-enable bit of a NOTE: bit 2 of its flags. -/
def loopEnableOf (flags : BitVec 8) : Bool := flags.getLsbD 2

/-- The mode of an END: bits 0 and 1 of its flags, a FADE's length clamped to 1,048,575 (R145). -/
def endModeOf (flags : BitVec 8) (fade : BitVec 24) : Option EndMode :=
  match flags.toNat % 4 with
  | 0 => some .cut
  | 1 => some (.fade (min 1048575 fade.toNat))
  | 2 => some .loopExit
  | _ => none

/-- The at-tick of an END, present with bit 2 of its flags. -/
def atTickOf (flags : BitVec 8) (atTick : BitVec 48) : Option Nat :=
  if flags.getLsbD 2 then some atTick.toNat else none

/-- The load value of a TIMEBASE, present with bit 0 of its flags. -/
def loadOf (flags : BitVec 8) (load : BitVec 48) : Option Nat :=
  if flags.getLsbD 0 then some load.toNat else none

/-- The drive tick of a TIMEBASE, present with bit 1 of its flags. -/
def driveOf (flags : BitVec 8) (drive : BitVec 48) : Option Nat :=
  if flags.getLsbD 1 then some drive.toNat else none

/-- The voice tag in a two-byte tag field; its upper four bits are unused (R122). -/
def tagOf (tagField : BitVec 16) : Nat := tagField.toNat % 4096

/-- The loop of a format byte and loop fields: present with bit 2 (layout tables). -/
def loopOf (format loopStart loopEnd : Nat) : Option Loop :=
  if format.testBit 2 then some { start := loopStart, stop := loopEnd } else none

/-- The session rate of a rate code, 0 to 5 (layout tables). -/
def SessionRate.ofCode (code : Nat) : Option SessionRate :=
  [SessionRate.hz44100, .hz48000, .hz88200, .hz96000, .hz176400, .hz192000][code]?

/-- The least and the greatest period in the accepted range, in reference cycles (R39). -/
def SessionRate.accepted : SessionRate → Nat × Nat
  | .hz44100 => (1104, 1125)
  | .hz48000 => (1014, 1034)
  | .hz88200 => (552, 562)
  | .hz96000 => (507, 517)
  | .hz176400 => (276, 281)
  | .hz192000 => (254, 258)

/-- The half period, in reference cycles (R39). -/
def SessionRate.halfPeriod : SessionRate → Nat
  | .hz44100 => 557
  | .hz48000 => 512
  | .hz88200 => 278
  | .hz96000 => 256
  | .hz176400 => 139
  | .hz192000 => 128

/-- The short length of a divider period, in reference cycles; a long one is one cycle longer (R41). -/
def SessionRate.shortPeriod : SessionRate → Nat
  | .hz44100 => 1114
  | .hz48000 => 1024
  | .hz88200 => 557
  | .hz96000 => 512
  | .hz176400 => 278
  | .hz192000 => 256

/-- The accumulator step; 0 for the 48 kHz family, whose periods are all short (R41). -/
def SessionRate.accumulatorStep : SessionRate → Nat
  | .hz44100 => 82
  | .hz88200 => 41
  | .hz176400 => 94
  | .hz48000 | .hz96000 | .hz192000 => 0

/-- Whether a period in reference cycles is in tolerance (R39). -/
def SessionRate.inTolerance (rate : SessionRate) (period : Nat) : Bool :=
  rate.accepted.1 ≤ period && period ≤ rate.accepted.2

/-- The length of the divider period that starts from accumulator `acc`, and the accumulator after it
gained the step (R41). -/
def SessionRate.dividerPeriod (rate : SessionRate) (acc : Nat) : Nat × Nat :=
  let sum := acc + rate.accumulatorStep
  if 147 ≤ sum then (rate.shortPeriod + 1, sum - 147) else (rate.shortPeriod, sum)

/-- The voices in the order they take a tick event: those that `order` names, then the rest (R58: no order
among voices; log entry 10). -/
def tickOrder (order : List (BitVec 12)) (voices : List Voice) : List Nat :=
  let first := (order.map (·.toNat)).dedup
  first ++ (voices.map (·.tag)).filter (fun t => !first.contains t)

end Sys2Proof.Machine
end

