-- ==== Sys2Proof/Machine/Flags.lean ====
section
/-! DEFINITION. The conditions the blocks test: room, the fill limit, eligibility, slack and dry tick, the
steal victim, a bid's price, waiting for a buffer, the log-full test, and the READY line. -/

namespace Sys2Proof.Machine

/-! ### Positions and deadlines (R62 to R64) -/

/-- The consumed count at a whole-frame position (R62). -/
def consumedAt (n s0 floorP : Nat) : Nat :=
  min n (if s0 + 4 ≤ floorP then (floorP - 4 - s0) / 1024 else 0)

/-- The consumed count of a voice (R62). -/
def Voice.consumed (v : Voice) : Nat := consumedAt v.n v.s0 v.floorP

/-- Room: n < c + R (R63). -/
def Voice.hasRoom (v : Voice) (ringLength : Nat) : Bool := v.n < v.consumed + ringLength

/-- floor(p) + 4 ≥ F: the voice has reached its dry point (R58, R65). -/
def Voice.atDryPoint (v : Voice) : Bool := v.firstMissing ≤ v.floorP + 4

/-- The quotient Q of R64, 0 when its numerator is zero or negative. -/
def Voice.quotient (v : Voice) : Nat := ((v.firstMissing - 4) * 65536 - v.p) / max v.r v.target

/-- The slack of a voice at tick `now` (R64), capped. A voice that is not RUNNING has p = 0. -/
def Voice.slack (v : Voice) (now : Nat) : Nat :=
  match v.state with
  | .scheduled start => min slackCap ((start - now) + v.quotient)
  | .armed | .running => min slackCap v.quotient

/-- The dry tick of a voice at tick `now`, saturating at 2^48 - 1 (R64). -/
def Voice.dryTick (v : Voice) (now : Nat) : Nat := min (tickModulus - 1) (now + v.slack now)

/-! ### Fill (R76, R77) -/

/-- The fill limit: the cursor is at rest, or a FADE end's last segment is issued (R76). -/
def Voice.fillLimit (v : Voice) : Bool :=
  v.cursor.isNone ||
    match v.fin with
    | some e => e.cause == .fade && e.frame + 4 ≤ v.s0 + 1024 * v.n
    | none => false

/-- Eligible to issue its next segment (R77); an in-use record is never IDLE. -/
def Voice.eligible (v : Voice) (ringLength : Nat) : Bool :=
  v.fill == .filling && v.inFlight.isNone && v.hasRoom ringLength && !v.fillLimit

/-- Whether the cursor's advance from `k` wraps at the loop end, and where to (R72 step 1). -/
def Voice.wrapTo (v : Voice) (r : Region) (k : Nat) : Option Nat :=
  match r.loop with
  | some l => if v.loopActive && k + 1 == l.stop / 1024 then some (l.start / 1024) else none
  | none => none

/-- A voice is primed when it is COMPLETE or has delivered the prime depth (R52). -/
def Voice.primed (v : Voice) (primeDepth : Nat) : Bool := v.fill == .complete || primeDepth ≤ v.d

/-- READY is pulled low while CONFIGURED with an ARMED voice unprimed (R52). -/
def State.readyWanted (s : State) : Bool :=
  match s.station.state, s.station.config with
  | .configured, some c => s.voices.any fun v => v.state == .armed && !v.primed c.primeDepth
  | _, _ => false

/-! ### Steal victim and bid (R29, R130) -/

/-- The lowest-numbered IDLE record (R27). -/
def State.idleRecord? (s : State) : Option Nat :=
  (List.range 512).find? fun i => s.voices.all (·.record != i)

/-- The remaining length E - floor(p) of a voice with its end present, as a signed number (R29). -/
def Voice.remaining (v : Voice) : Option Int := v.fin.map fun e => (e.frame : Int) - (v.floorP : Int)

/-- `v` is preferred to `w` as steal victim: less remaining, or as much and a lower tag (R29). -/
def victimBefore (v w : Voice) : Bool :=
  match v.remaining, w.remaining with
  | some a, some b => a < b || (a == b && v.tag < w.tag)
  | some _, none => true
  | none, _ => false

/-- The steal victim (R29). -/
def State.stealVictim? (s : State) : Option Voice :=
  s.voices.foldl (fun best v =>
    match best with
    | none => if v.fin.isSome then some v else none
    | some w => if victimBefore v w then some v else some w) none

/-- The station can create a record: an IDLE one, or a steal victim's (R31, R128, R131). -/
def State.canCreate (s : State) : Bool := s.idleRecord?.isSome || s.stealVictim?.isSome

/-- Q of a die: the read requests waiting (R91). -/
def Die.queued (die : Die) : Nat := die.reads.length

/-- B of a die: 1 with a long operation under way or held (R91). -/
def Die.longBusy (die : Die) : Nat := if die.state.longOp?.isSome then 1 else 0

/-- The bid value of the station for a region (R130). -/
def State.bidFor (s : State) (r : Region) : Nat :=
  let die := s.die r.die
  let load := min 2047 (8 * die.queued + 256 * die.longBusy + s.voices.length / 2)
  2048 * (if s.idleRecord?.isSome then 0 else 1) + load

/-- The bid value for a region id; an entry's region is always in the table (R9). -/
def State.bidForId (s : State) (id : Nat) : Nat := ((s.region? id).map s.bidFor).getD 4095

/-- A bid entry is ready to offer (R131). -/
def State.bidReady (s : State) (b : Bid) : Bool :=
  b.offer == .waiting && b.window == .opened && s.canCreate

/-! ### Dies (R92, R96, R105) -/

/-- The current slack of the head of a read queue (R92). -/
def Die.headSlack (die : Die) (now : Nat) : Option Nat :=
  die.reads.head?.map fun r => currentSlack now r.dry

/-- The head is due within `limit` ticks. -/
def Die.headWithin (die : Die) (now limit : Nat) : Bool :=
  match die.headSlack now with
  | some slack => slack ≤ limit
  | none => false

/-- The die waits for a buffer (R96): IDLE with reads after an idle choice that found neither a buffer nor
a long operation, or SUSPENDED with an urgent head; no request of its queue keeps a buffer. -/
def Die.waits (die : Die) (now : Nat) : Bool :=
  !die.reads.isEmpty && die.reads.all (!·.kept) &&
    match die.state with
    | .idle => die.longOps.isEmpty
    | .suspended _ => die.headWithin now 8192
    | .read _ | .logRead _ | .busy _ | .suspendPending _ | .suspendedRead _ _ => false

/-- A suspend is asked of the die (R105). -/
def Die.suspendDue (die : Die) (now clock : Nat) : Bool :=
  die.headWithin now 2048 &&
    match die.lastResume with
    | some at_ => at_ + holdOffCycles ≤ clock
    | none => true

/-! ### Catalogue and installer -/

/-- The log is full (R13). -/
def Catalogue.logFull (c : Catalogue) : Bool := 49152 ≤ c.appendPos + c.owed

/-- A region id is taken: in the table or named by a pending install (R7). -/
def State.idTaken (s : State) (id : Nat) : Bool :=
  (s.region? id).isSome || s.catalogue.pendingInstalls.contains id

/-- The unused pages a block offers to an install (R161). -/
def Block.available (b : Block) : Nat :=
  match b.state with
  | .opened next => 128 - next
  | .free | .queued | .erasing => 128
  | .unset | .full | .worn | .log => 0

/-- The pages an admitted item still reserves on a die (R161). -/
def WorkItem.reservedOn (d : Nat) : WorkItem → Nat
  | .install i => if i.die = d then i.reserved else 0
  | .reclaim .. | .wipe .. => 0

/-- The available pages of a die (R161); negative when its reservations exceed what is left. -/
def State.availablePages (s : State) (d : Nat) : Int :=
  (((s.dieBlocks d).blocks.map Block.available).sum : Int) -
    ((s.installer.work.map (WorkItem.reservedOn d)).sum : Int)

/-- The die with the most available pages, the lower number on equal figures (R161). -/
def State.bestDie (s : State) : Nat :=
  dieNumbers.foldl (fun best d => if s.availablePages best < s.availablePages d then d else best) 0

/-- A block left FULL with no live and no pending page, which becomes QUEUED (R11, R12). -/
def Block.dead (b : Block) : Bool := b.state == .full && b.live == 0 && b.pending == 0

/-- A WIPE is in the work list (R159). -/
def Installer.wiping (i : Installer) : Bool :=
  i.work.any fun w => match w with
    | .wipe .. => true
    | .install _ | .reclaim .. => false

/-- The work-list check that comes first for INSTALL and RECLAIM (R159). -/
def Installer.busy (i : Installer) : Bool := 4 ≤ i.work.length || i.wiping

end Sys2Proof.Machine
end

