-- ==== Sys2Proof/Machine/Media.lean ====
section
/-! DEFINITION. The media controller's shared operations (spec 06): the read queues, the buffer pool and
its arbiter, the idle choice, the suspend test and the service decision. -/

namespace Sys2Proof.Machine

/-- Read queue order: ascending dry tick, equal dry ticks by the lower tag (R92). -/
def ReadRequest.le (a b : ReadRequest) : Bool :=
  a.dry < b.dry || (a.dry == b.dry && a.tag ≤ b.tag)

/-- A request takes its place in a read queue (R92). -/
def placeRead (r : ReadRequest) (reads : List ReadRequest) : List ReadRequest :=
  insertOrdered ReadRequest.le r reads

/-- The request nearest the tail that keeps a buffer gives it up (R98). -/
def takeLastKept : List ReadRequest → Option (List ReadRequest)
  | [] => none
  | r :: rs =>
    match takeLastKept rs with
    | some rs' => some (r :: rs')
    | none => if r.kept then some ({ r with kept := false } :: rs) else none

/-- The head of a read queue with a buffer (R94, R107): its own kept one, one of the `free` buffers, or
one kept in the queue. The answer is the head, the rest of the queue and the buffers still free. -/
def takeHead (free : Nat) : List ReadRequest → Option (ReadRequest × List ReadRequest × Nat)
  | [] => none
  | r :: rs =>
    if r.kept then some (r, rs, free)
    else if 0 < free then some (r, rs, free - 1)
    else (takeLastKept rs).map fun rs' => (r, rs', free)

/-- The die state in which a read is performed: READ from IDLE, SUSPENDED-READ from SUSPENDED (R90). -/
def DieState.reading? (a : ActiveRead) : DieState → Option DieState
  | .idle => some (.read a)
  | .suspended op => some (.suspendedRead op a)
  | .read _ | .logRead _ | .busy _ | .suspendPending _ | .suspendedRead _ _ => none

/-- A die with the head of its queue put under way, and the buffers still free. -/
def Die.begin? (die : Die) (free : Nat) : Option (Die × Nat) :=
  match takeHead free die.reads with
  | none => none
  | some (r, rest, free') =>
    (die.state.reading? { req := r, discarded := false }).map fun x =>
      ({ die with state := x, reads := rest }, free')

/-- The die performs its head read if that read has a buffer (R94, R107). -/
def State.beginRead? (s : State) (d : Nat) : Option State :=
  ((s.die d).begin? s.media.freeBuffers).map fun x =>
    s.setMedia { s.media with dies := s.media.dies.set d x.1, freeBuffers := x.2 }

/-- The programs at the head of a long-op queue that their front turns away, and the queue without
them (R102). -/
def splitRefused (fronts : List Nat) : List LongOp → List Program × List LongOp
  | .program p :: rest =>
    if p.page * 48 + p.first < fronts.getD p.block 0 then
      let x := splitRefused fronts rest
      (p :: x.1, x.2)
    else ([], .program p :: rest)
  | ops => ([], ops)

/-- The program fronts of a die (R102). -/
def State.fronts (s : State) (d : Nat) : List Nat := s.media.fronts.getD d []

/-- A QUEUED block becomes ERASING when its die starts the erase (R11); a block under WIPE is ERASING
already and a LOG block stays LOG (R169). -/
def Block.startErase (b : Block) : Block :=
  if b.state = .queued then { b with state := .erasing } else b

/-- The catalogue is told that a long operation starts (R11, R103). -/
def State.markStarted (s : State) (d : Nat) : LongOp → State
  | .program _ => s
  | .erase b => s.updateBlock d b Block.startErase

/-- Step 2 of the idle choice (R94): the die performs the head of its long-op queue. A program that its
front turns away leaves the queue, and its failure is handed on later in the same step (R102). -/
def State.takeLongOp (s : State) (d : Nat) : State × Bool :=
  let x := splitRefused (s.fronts d) (s.die d).longOps
  let s1 := s.setMedia { s.media with frontFailed := s.media.frontFailed ++ x.1.map (fun p => (d, p)) }
  match x.2 with
  | [] => (s1.updateDie d fun die => { die with longOps := [] }, false)
  | op :: rest =>
      ((s1.updateDie d fun die => { die with state := .busy op, longOps := rest }).markStarted d op, true)

/-- The idle choice of a die (R94). -/
def State.idleChoice (s : State) (d : Nat) : State :=
  if (s.die d).state = .idle then
    let urgent := if (s.die d).headWithin s.timebase.tick 8192 then s.beginRead? d else none
    match urgent with
    | some s1 => s1
    | none =>
      let x := s.takeLongOp d
      if x.2 then x.1 else (x.1.beginRead? d).getD x.1
  else s

/-- The service decision of a SUSPENDED die (R107). -/
def State.serviceDecision (s : State) (d : Nat) : State :=
  match (s.die d).state with
  | .suspended op =>
    if (s.die d).headWithin s.timebase.tick 8192 then (s.beginRead? d).getD s
    else s.updateDie d fun die => { die with state := .busy op, lastResume := some s.clock }
  | .idle | .read _ | .logRead _ | .busy _ | .suspendPending _ | .suspendedRead _ _ => s

/-- The suspend test of a die (R105). -/
def State.suspendTest (s : State) (d : Nat) : State :=
  match (s.die d).state with
  | .busy op =>
    if (s.die d).suspendDue s.timebase.tick s.clock then s.setDieState d (.suspendPending op) else s
  | .idle | .read _ | .logRead _ | .suspendPending _ | .suspended _ | .suspendedRead _ _ => s

/-- What a die does at a change of its read queue: its idle choice (R94), its suspend test (R105) or its
service decision (R107), by its state. -/
def State.readsChanged (s : State) (d : Nat) : State :=
  match (s.die d).state with
  | .idle => s.idleChoice d
  | .busy _ => s.suspendTest d
  | .suspended _ => s.serviceDecision d
  | .read _ | .logRead _ | .suspendPending _ | .suspendedRead _ _ => s

/-- A request joins a die's read queue (R92). -/
def State.joinReads (s : State) (d : Nat) (r : ReadRequest) : State :=
  s.updateDie d fun die => { die with reads := placeRead r die.reads }

/-- An entry joins the tail of a die's long-op queue, and an IDLE die makes its choice (R93, R94). -/
def State.joinLongOp (s : State) (d : Nat) (op : LongOp) : State :=
  (s.updateDie d fun die => { die with longOps := die.longOps ++ [op] }).idleChoice d

/-- The waiting die a freed buffer is granted to: the earliest head, the lower die on a tie (R96). -/
def State.grantee? (s : State) : Option Nat :=
  (dieNumbers.filter fun d => (s.die d).waits s.timebase.tick).foldl (fun best d =>
    match best with
    | none => some d
    | some b =>
      if (((s.die d).reads.head?.map (·.dry)).getD 0) < (((s.die b).reads.head?.map (·.dry)).getD 0)
      then some d else some b) none

/-- A buffer is freed: the arbiter grants it to a waiting die, which starts its head read, or it becomes
free (R96). -/
def State.freeBuffer (s : State) : State :=
  let s1 := s.setMedia { s.media with freeBuffers := s.media.freeBuffers + 1 }
  match s.grantee? with
  | some d => (s1.beginRead? d).getD s1
  | none => s1

/-- Several buffers are freed, one after the other (R96). -/
def State.freeBuffers (s : State) : Nat → State
  | 0 => s
  | n + 1 => (s.freeBuffer).freeBuffers n

/-- Every read in `reads` of a voice that `moved` names takes the dry tick it gives, and its new place
(R68). -/
def reorderReads (moved : Nat → Option Nat) (reads : List ReadRequest) : List ReadRequest :=
  reads.foldl (fun acc r =>
    placeRead (match moved r.tag with
      | some dry => { r with dry := dry }
      | none => r) acc) []

/-- The waiting reads of all voices take the dry ticks their records hold (R68); a die one of whose reads
has changed its dry tick then consults its new queue, the dies in ascending order. A read whose dry tick is the same
as before, though a load has changed its slack, has not moved, and its die decides nothing (R94, R105, R107, log entry
28: the model's choice). -/
def State.syncReads (s : State) : State :=
  dieNumbers.foldl (fun s d =>
    let dryOf := fun tag => (s.voice? tag).bind (·.dry)
    let reads := (s.die d).reads
    if reads.any (fun r => dryOf r.tag != none && dryOf r.tag != some r.dry) then
      (s.updateDie d fun die => { die with reads := reorderReads dryOf reads }).readsChanged d
    else s) s

/-- A die becomes IDLE after a long operation and makes its idle choice (R101, R106). -/
def State.becomeIdle (s : State) (d : Nat) : State :=
  (s.updateDie d fun die => { die with state := .idle, lastResume := none }).idleChoice d

end Sys2Proof.Machine
end

