-- ==== Sys2Proof/Machine/Fill.lean ====
section
/-! DEFINITION. The position unit's dry ticks and the fill scheduler (spec 04 and 05): the cursor's
advance, issuing reads, completion of the fill, skips and delivery completions. -/

namespace Sys2Proof.Machine

/-! ### Dry ticks (R64 to R68) -/

/-- The dry tick computed afresh; a COMPLETE voice holds none (R64, R81). -/
def Voice.withDry (v : Voice) (now : Nat) : Voice :=
  if v.fill = .complete then v else { v with dry := some (v.dryTick now) }

/-- A voice's dry tick is recomputed, and its waiting read takes its new place (R64, R68). -/
def State.recomputeDry (s : State) (tag : Nat) : State :=
  (s.updateVoice tag (·.withDry s.timebase.tick)).syncReads

/-! ### The cursor (R72 to R75) -/

/-- The record after a stitch into `f`; `hasLoop` says whether the follow region has a loop (R74). -/
def Voice.stitched (v : Voice) (f : FollowSlot) (hasLoop : Bool) : Voice :=
  { v with region := f.region, cursor := some (f.offset / 1024), follow := none
           loopActive := v.loopRequest && !v.loopReleased && hasLoop }

/-- A stitch: the cursor moves into the follow region (R74). -/
def State.stitch (s : State) (v : Voice) (f : FollowSlot) : State :=
  let hasLoop := ((s.region? f.region).bind (·.loop)).isSome
  ((s.updateVoice v.tag (·.stitched f hasLoop)).releaseUse v.region).queueNotice v.requester
    (.stitch v.tag f.region (v.s0 + 1024 * v.n))

/-- The end that a region end fixes (R75). -/
def Voice.regionEnd (v : Voice) (r : Region) : VoiceEnd :=
  { frame := v.s0 + 1024 * (v.n - 1) + (r.frames - 1024 * (r.segments - 1))
    cause := if v.loopReleased then .loopExit else .regionEnd }

/-- Region end: the cursor comes to rest, and an absent end is fixed with its ENDPOINT (R75). -/
def State.regionEnd (s : State) (v : Voice) (r : Region) : State :=
  let s1 := s.updateVoice v.tag fun v => { v with cursor := none }
  match v.fin with
  | some _ => s1
  | none =>
    let e := v.regionEnd r
    (s1.updateVoice v.tag fun v => { v with fin := some e }).queueNotice v.requester
      (.endpoint v.tag e.frame e.cause)

/-- The cursor's advance after an issue or a skipped segment, n already raised (R72). -/
def State.advanceCursor (s : State) (tag : Nat) : State :=
  match s.voice? tag with
  | none => s
  | some v =>
    match v.cursor, s.region? v.region with
    | some k, some r =>
      match v.wrapTo r k with
      | some k' => s.updateVoice tag fun v => { v with cursor := some k' }
      | none =>
        if k + 1 < r.segments then s.updateVoice tag fun v => { v with cursor := some (k + 1) }
        else
          match v.follow with
          | some f => s.stitch v f
          | none => s.regionEnd v r
    | _, _ => s

/-! ### Issuing (R77, R78) -/

/-- The record after its segment n is put in flight (R78 steps 3 and 4). -/
def Voice.issued (v : Voice) : Voice := { v with inFlight := some v.n, n := v.n + 1 }

/-- The read request of a voice's next segment (R78, R92). -/
def Voice.request (v : Voice) (r : Region) (loc : Nat × Nat × Nat) : ReadRequest :=
  { tag := v.tag, ring := v.n, region := v.region
    block := loc.1, page := loc.2.1, sector := loc.2.2
    sectors := r.format.sectorsPerSegment, frameSize := r.format.frameSize
    dry := v.dry.getD 0, attempt := .first, kept := false }

/-- A voice issues its next segment (R78). -/
def State.issue (s : State) (v : Voice) : State :=
  match v.cursor, s.region? v.region with
  | some k, some r =>
    match r.locate k with
    | some loc =>
      (((s.joinReads r.die (v.request r loc)).updateVoice v.tag Voice.issued).advanceCursor
        v.tag).readsChanged r.die
    | none => s
  | _, _ => s

/-- The eligibility test, with the issue when it passes (R77). -/
def State.testEligible (s : State) (tag : Nat) : State :=
  match s.voice? tag with
  | some v => if v.eligible s.ringLength then s.issue v else s
  | none => s

/-! ### Completion and skips (R80 to R86) -/

/-- The record of a COMPLETE fill: no dry tick (R81). -/
def Voice.completed (v : Voice) : Voice := { v with fill := .complete, dry := none, dryFrame := none }

/-- The fill becomes COMPLETE when its limit is reached with nothing in flight (R81). -/
def State.completeIfLimit (s : State) (tag : Nat) : State :=
  match s.voice? tag with
  | some v =>
    if v.fillLimit && v.inFlight.isNone then s.updateVoice tag Voice.completed else s
  | none => s

/-- The record after a ring segment is passed over by a skip (R85). -/
def Voice.passedOver (v : Voice) : Voice := { v with n := v.n + 1, d := v.d + 1 }

/-- A skip passes over at most `count` ring segments and stops at a cursor at rest (R85). -/
def State.passOver (s : State) (tag : Nat) : Nat → State
  | 0 => s
  | count + 1 =>
    match s.voice? tag with
    | some v =>
      if v.cursor.isNone then s
      else ((s.updateVoice tag Voice.passedOver).advanceCursor tag).passOver tag count
    | none => s

/-- The number of ring segments n to m that a skip passes over (R84). -/
def Voice.skipCount (v : Voice) : Nat := (v.floorP + 4 - v.s0) / 1024 + 1 - v.n

/-- An UNDERRUN report (R86). -/
def State.reportUnderrun (s : State) (v : Voice) (gapStart gapLength count : Nat) : State :=
  s.queueNotice v.requester (.underrun v.tag gapStart gapLength count)

/-- A skip from the dry frame `gapStart`, reported with underrun count `count` (R84 to R86). -/
def State.skip (s : State) (tag gapStart count : Nat) : State :=
  match s.voice? tag with
  | none => s
  | some v =>
    let s1 := s.passOver tag v.skipCount
    match s1.voice? tag with
    | none => s1
    | some w =>
      let s2 := s1.reportUnderrun w gapStart (w.s0 + 1024 * w.n - gapStart) count
      if w.fillLimit then s2.updateVoice tag Voice.completed
      else
        ((s2.updateVoice tag fun v => { v with fill := .filling, dryFrame := none }).recomputeDry
          tag).testEligible tag

/-- The dry event (R82): a skip at once with nothing in flight, else the fill goes LATE. -/
def State.dryEvent (s : State) (v : Voice) : State :=
  let gapStart := v.firstMissing
  if v.inFlight.isNone then s.skip v.tag gapStart 1
  else
    (s.updateVoice v.tag fun v => { v with fill := .late, dryFrame := some gapStart }).reportUnderrun v
      gapStart 0 1

/-- The record after its in-flight segment is delivered (R80). -/
def Voice.delivered (v : Voice) : Voice := { v with d := v.d + 1, inFlight := none }

/-- A delivery completion for ring segment `ring` of a voice (R80). -/
def State.deliveryCompletion (s : State) (tag ring : Nat) : State :=
  match s.voice? tag with
  | none => s
  | some v =>
    if v.inFlight = some ring then
      let s1 := s.updateVoice tag Voice.delivered
      let w := v.delivered
      if w.fillLimit then s1.updateVoice tag Voice.completed
      else if w.fill = .late && w.atDryPoint then s1.skip tag (w.dryFrame.getD w.firstMissing) 0
      else
        ((s1.updateVoice tag fun v => { v with fill := .filling, dryFrame := none }).recomputeDry
          tag).testEligible tag
    else s

end Sys2Proof.Machine
end

