-- ==== Sys2Proof/Machine/Catalogue.lean ====
section
/-! DEFINITION. The catalogue's shared operations (spec 01): log records, extent lists, block counts, blocks
made QUEUED, and the start-up scan. -/

namespace Sys2Proof.Machine

/-! ### Log records (layout tables of spec 07) -/

/-- A record filled up to one sector with 00h (layout tables). -/
def padRecord (bytes : List Byte) : List Byte := bytes ++ List.replicate (512 - bytes.length) 0#8

/-- One extent as a log record holds it: die, block in two bytes, first page, page count. -/
def Extent.bytes (e : Extent) : List Byte :=
  bytesBE 1 e.die ++ bytesBE 2 e.block ++ bytesBE 1 e.first ++ bytesBE 1 e.count

/-- The INSTALL log record of an item (R164, layout tables). -/
def InstallItem.logRecord (i : InstallItem) : List Byte :=
  padRecord (bytesBE 1 0x1C ++ bytesBE 3 i.region ++ bytesBE 1 i.format ++ bytesBE 3 i.frames ++
    bytesBE 3 i.loopStart ++ bytesBE 3 i.loopEnd ++ bytesBE 1 i.extents.length ++
    i.extents.flatMap Extent.bytes)

/-- The VOID log record of a region (layout tables). -/
def voidRecord (region : Nat) : List Byte := padRecord (bytesBE 1 0xE3 ++ bytesBE 3 region)

/-- What a log record says (R15). -/
inductive LogRecord where
  | install (r : Region)
  | void (region : Nat)
  | other
  deriving DecidableEq, Repr, Inhabited

/-- Extent number `i` of a log record. -/
def extentAt (bytes : List Byte) (i : Nat) : Extent :=
  { die := field bytes (15 + 5 * i) 1, block := field bytes (16 + 5 * i) 2
    first := field bytes (18 + 5 * i) 1, count := field bytes (19 + 5 * i) 1 }

/-- The region a record or an item describes, LIVE with in-use count 0 (R1). -/
def regionOf (id format frames loopStart loopEnd : Nat) (extents : List Extent) : Region :=
  { id := id, format := Format.ofByte format, frames := frames
    loop := loopOf format loopStart loopEnd, role := Role.ofByte format, extents := extents
    state := .live, inUse := 0 }

/-- The record in a good log sector (layout tables). -/
def parseRecord (bytes : List Byte) : LogRecord :=
  let kind := field bytes 0 1
  let id := field bytes 1 3
  if kind = 0x1C then
    .install (regionOf id (field bytes 4 1) (field bytes 5 3) (field bytes 8 3) (field bytes 11 3)
      ((List.range (field bytes 14 1)).map (extentAt bytes)))
  else if kind = 0xE3 then .void id
  else .other

/-! ### Extent lists (R4) -/

/-- An extent in range: die, block, pages within the block, and outside the LOG blocks (R4). -/
def Extent.inRange (e : Extent) : Bool :=
  e.die < 8 && e.block < 2048 && e.first < 128 && 1 ≤ e.count && e.first + e.count ≤ 128 &&
    !(e.die == 0 && e.block < 8)

/-- Two extents name a page in common. -/
def Extent.overlaps (a b : Extent) : Bool :=
  a.die == b.die && a.block == b.block && a.first < b.first + b.count && b.first < a.first + a.count

/-- No two extents of a list name a page in common (R4). -/
def disjointExtents : List Extent → Bool
  | [] => true
  | e :: es => es.all (fun f => !e.overlaps f) && disjointExtents es

/-- A region's extent list is valid (R4). -/
def Region.extentsValid (r : Region) : Bool :=
  1 ≤ r.extents.length && r.extents.length ≤ 16 && r.extents.all Extent.inRange &&
    r.extents.all (fun e => e.die == r.die) && disjointExtents r.extents &&
    (r.extents.map (·.count)).sum == pagesOf r.format r.frames

/-- The fields of an INSTALL log record are in range (R1, R3, R4, R15, log entry 19). -/
def Region.valid (r : Region) : Bool :=
  r.id ≤ 1048575 && 1 ≤ r.frames && r.frames ≤ 7864320 &&
    (match r.loop with
      | some l => loopValid l r.segments
      | none => true) && r.extentsValid

/-- A page of `r` lies in an extent of a region of the table (R4, R15). -/
def State.overlapsTable (s : State) (r : Region) : Bool :=
  s.catalogue.regions.any fun x => x.extents.any fun a => r.extents.any a.overlaps

/-! ### Block counts (R11, R12) -/

/-- The pages that extents name in one block. -/
def pagesIn (extents : List Extent) (d b : Nat) : Nat :=
  ((extents.filter fun e => e.die == d && e.block == b).map (·.count)).sum

/-- The region's pages go from pending to live in the blocks its extents name (R12). -/
def State.makeLive (s : State) (extents : List Extent) : State :=
  extents.foldl (fun s e => s.updateBlock e.die e.block fun b =>
    { b with live := b.live + e.count, pending := b.pending - e.count }) s

/-- The blocks a removed region's extents name lose its live pages (R12). -/
def State.loseLive (s : State) (extents : List Extent) : State :=
  extents.foldl (fun s e => s.updateBlock e.die e.block fun b => { b with live := b.live - e.count }) s

/-- Every block's pending page count returns to 0 (R12). -/
def State.clearPending (s : State) : State :=
  s.setCatalogue { s.catalogue with blockTable := s.catalogue.blockTable.map fun t =>
    { t with blocks := t.blocks.map fun b => { b with pending := 0 } } }

/-- The numbers, ascending, of the blocks of a die that pass a test. -/
def DieBlocks.numbers (t : DieBlocks) (p : Block → Bool) : List Nat :=
  ((t.blocks.zipIdx).filter fun x => p x.1).map (·.2)

/-- Erases of blocks join the tail of a die's long-op queue in order, and an IDLE die makes its choice
(R11, R93, R94). -/
def State.joinErases (s : State) (d : Nat) (blocks : List Nat) : State :=
  if blocks.isEmpty then s
  else (s.updateDie d fun die =>
    { die with longOps := die.longOps ++ blocks.map LongOp.erase }).idleChoice d

/-- The FULL blocks of one die with no live and no pending pages become QUEUED (R11, R12). -/
def State.queueDeadOn (s : State) (d : Nat) : State :=
  (s.updateDieBlocks d fun t => { t with blocks := t.blocks.map fun b =>
    if b.dead then { b with state := .queued } else b }).joinErases d ((s.dieBlocks d).numbers Block.dead)

/-- Every FULL block with no live and no pending pages becomes QUEUED, in ascending order of die and block
(R12). -/
def State.queueDead (s : State) : State := dieNumbers.foldl State.queueDeadOn s

/-! ### Log appends (R13) -/

/-- An append: a one-sector program of a record at the append position, placed in die 0's long-op
queue (R13). -/
def State.appendRecord (s : State) (record : List Byte) : State :=
  let pos := s.catalogue.appendPos
  s.joinLongOp 0 (.program { block := pos / 6144, page := pos % 6144 / 48, first := pos % 48, count := 1
                             purpose := .log record })

/-! ### The start-up scan (R15, R16) -/

/-- The catalogue with its scan moved past a sector, one more skipped if `skip`. -/
def Catalogue.scanned (c : Catalogue) (x : Scan) (skip : Bool) : Catalogue :=
  { c with scan := some { sector := x.sector + 1, skipped := x.skipped + (if skip then 1 else 0) } }

/-- The catalogue classifies a good log sector (R15). -/
def State.classify (s : State) (x : Scan) (record : LogRecord) : State :=
  let c := s.catalogue
  match record with
  | .install r =>
    if r.valid && (s.region? r.id).isNone && !s.overlapsTable r && c.regions.length < 8192 then
      s.setCatalogue (({ c with regions := c.regions ++ [r] } : Catalogue).scanned x false)
    else s.setCatalogue (c.scanned x true)
  | .void id =>
    if (s.region? id).isSome then
      s.setCatalogue (({ c with regions := c.regions.filter (·.id != id) } : Catalogue).scanned x false)
    else s.setCatalogue (c.scanned x true)
  | .other => s.setCatalogue (c.scanned x true)

/-- The record of a block when the classification pass ends: LOG kept, FULL with live pages, QUEUED
else (R16). -/
def Block.derived (b : Block) (live : Nat) : Block :=
  if b.state = .log then b
  else if 0 < live then { state := .full, live := live, pending := 0 }
  else { state := .queued, live := 0, pending := 0 }

/-- The block table derived from the region table on one die (R16 steps 1 to 3). -/
def DieBlocks.derived (t : DieBlocks) (extents : List Extent) (d : Nat) : DieBlocks :=
  { blocks := t.blocks.zipIdx.map fun x => x.1.derived (pagesIn extents d x.2), free := [] }

/-- The program fronts of a die when the scan ends (R102). -/
def scanFronts (d appendPos : Nat) : List Nat :=
  (List.range 2048).map fun b =>
    if d = 0 ∧ b < 8 then min 6144 (appendPos - 6144 * b) else 6144

/-- The erases of a die's QUEUED blocks are placed (R16 step 3). -/
def State.queueErasesOn (s : State) (d : Nat) : State :=
  s.joinErases d ((s.dieBlocks d).numbers fun b => b.state == .queued)

/-- The scan ends with an append position: the block table is derived, the fronts are set, the erases are
queued, PRESENT is queued and the station becomes UNCONFIGURED (R16, R102, R172). -/
def State.endScan (s : State) (appendPos skipped : Nat) : State :=
  let extents := s.catalogue.regions.flatMap (·.extents)
  let s1 := s.setCatalogue { s.catalogue with
    appendPos := appendPos, scan := none
    blockTable := s.catalogue.blockTable.zipIdx.map fun x => x.1.derived extents x.2 }
  let s2 := s1.setMedia { s1.media with fronts := dieNumbers.map fun d => scanFronts d appendPos }
  let s3 := dieNumbers.foldl State.queueErasesOn s2
  let s4 := s3.queueNotice 31 (.present s3.catalogue.regions.length skipped appendPos)
  s4.setStation { s4.station with state := .unconfigured }

/-- Die 0 is given the read of the next log sector (R100). -/
def State.readLogSector (s : State) (sector : Nat) : State := s.setDieState 0 (.logRead sector)

/-- After a classified sector: the next sector is read, or the scan ends after the last one (R15). -/
def State.continueScan (s : State) : State :=
  match s.catalogue.scan with
  | none => s
  | some x =>
    if x.sector < 49152 then s.readLogSector x.sector
    else (s.endScan x.sector x.skipped).becomeIdle 0

/-- What the scan finds in log sector `n`, none for an erased one (R15, R100). An uncorrectable sector holds no record.
A sector passed over by a failed log program holds none in any case. One whose append a reset abandoned holds the
record of that append, or is erased or damaged (log entry 27). -/
def Flash.logRecord? (f : Flash) (n : Nat) (uncorrectable : Bool) : Option LogRecord :=
  let bytes := f.sector n
  let erased := bytes.all (· == erasedByte)
  match f.cause? n with
  | none => if erased then none else some (if uncorrectable then .other else parseRecord bytes)
  | some .passedOver => some .other
  | some .plain =>
    if uncorrectable then some .other else if erased then none else some (parseRecord bytes)
  | some (.abandoned record) =>
    if uncorrectable then some .other else if erased then none
    else some (if bytes = record then parseRecord record else .other)

/-- The read of log sector `x.sector` ends (R15, R100). -/
def State.logSectorRead (s : State) (x : Scan) (uncorrectable : Bool) : State :=
  match s.media.flash.logRecord? x.sector uncorrectable with
  | none => (s.endScan x.sector x.skipped).becomeIdle 0
  | some record => (s.classify x record).continueScan

end Sys2Proof.Machine
end

