-- ==== Sys2Proof/Machine/Installer.lean ====
section
/-! DEFINITION. The installer's shared operations (spec 10) and the results of long operations (spec 06,
R101 to R103): reading a page, entering PROGRAMMING, failing an install, the outcome of a program and of
an erase, and the start of the next work item. -/

namespace Sys2Proof.Machine

/-! ### Figures of an INSTALL item (R160, R162, R163) -/

/-- The page count P of an item (R160). -/
def InstallItem.pages (i : InstallItem) : Nat := pagesOf (Format.ofByte i.format) i.frames

/-- The bytes that the link read of page q covers (R162). -/
def InstallItem.readBytes (i : InstallItem) : Nat :=
  min 24576 (i.frames * (Format.ofByte i.format).frameSize - 24576 * i.q)

/-- The sectors that the program of page q covers (R163). -/
def InstallItem.programSectors (i : InstallItem) : Nat :=
  let f := Format.ofByte i.format
  min f.segmentsPerPage (segmentsOf i.frames - f.segmentsPerPage * i.q) * f.sectorsPerSegment

/-- An extent list with one page more (R163). -/
def extendWith (d b page : Nat) (extents : List Extent) : List Extent :=
  match extents.getLast? with
  | some e =>
    if e.die = d ∧ e.block = b then extents.dropLast ++ [{ e with count := e.count + 1 }]
    else extents ++ [{ die := d, block := b, first := page, count := 1 }]
  | none => [{ die := d, block := b, first := page, count := 1 }]

/-- An item after the program of its page q succeeded in block `b`, page `page` (R163). -/
def InstallItem.programmed (i : InstallItem) (b page : Nat) : InstallItem :=
  { i with reserved := i.reserved - 1, q := i.q + 1, extents := extendWith i.die b page i.extents }

/-! ### The work list (R158) -/

/-- The work list with its head changed. -/
def State.setHead (s : State) (w : WorkItem) : State :=
  s.setInstaller { s.installer with work := w :: s.installer.work.tail }

/-- The head item leaves the work list. -/
def State.endItem (s : State) : State :=
  s.setInstaller { s.installer with work := s.installer.work.tail }

/-- One owed log record fewer (R13). -/
def State.lowerOwed (s : State) : State :=
  s.setCatalogue { s.catalogue with owed := s.catalogue.owed - 1 }

/-- The id of an ended INSTALL is no longer pending (R7). -/
def State.dropPending (s : State) (id : Nat) : State :=
  s.setCatalogue { s.catalogue with pendingInstalls := s.catalogue.pendingInstalls.erase id }

/-- The RUNNING INSTALL in phase READING asks for the link read of its page q (R162, R177). -/
def State.startReading (s : State) (i : InstallItem) : State :=
  (s.setHead (.install { i with phase := .reading })).setDelivery { s.delivery with
    installRead := some { bytes := i.readBytes, address := i.source + 24576 * i.q, since := s.clock } }

/-- A program entry of the long-op queues. -/
def LongOp.isProgram : LongOp → Bool
  | .program _ => true
  | .erase _ => false

/-- The waiting programs of an ending install are withdrawn (R93, R165); no other item has one. -/
def State.withdrawPrograms (s : State) : State :=
  s.setMedia { s.media with dies := s.media.dies.map fun die =>
    { die with longOps := die.longOps.filter fun op => !op.isProgram } }

/-- The RUNNING INSTALL `i` fails (R165). The next item is not started yet. -/
def State.failInstall (s : State) (i : InstallItem) (reason : Reason) : State :=
  (((((s.clearPending.queueDead).endItem).dropPending i.region).lowerOwed).withdrawPrograms).queueNotice
    i.sender (.installFailed i.region reason)

/-- A RECLAIM item ends (R168). -/
def State.endReclaim (s : State) : State := (s.endItem).lowerOwed

/-- The RECLAIM item at the head becomes RUNNING on a region it may remove (R168). -/
def State.runReclaim (s : State) (sender region : Nat) : State :=
  ((s.setHead (.reclaim sender region true)).updateRegion region fun r =>
    { r with state := .departing }).appendRecord (voidRecord region)

/-- The next item becomes RUNNING once the installer is free, and one that ends at once makes way for the
one behind it (R158, R165, R168). -/
def State.startNext : Nat → State → State
  | 0, s => s
  | n + 1, s =>
    if s.installer.held then s
    else
      match s.installer.work with
      | .install i :: _ =>
        if i.phase = .waiting then
          if s.delivery.link = .up then s.startReading i
          else State.startNext n (s.failInstall i .linkDown)
        else s
      | .reclaim sender region false :: _ =>
        match s.region? region with
        | none => State.startNext n ((s.endReclaim).refuse sender 11 .absent region)
        | some r =>
          if r.state = .live ∧ 0 < r.inUse then
            State.startNext n ((s.endReclaim).refuse sender 11 .inUse region)
          else s.runReclaim sender region
      | .reclaim _ _ true :: _ => s
      | .wipe .. :: _ => s
      | [] => s

/-- The installer looks at its next item; the list holds at most four (R158). -/
def State.nextItem (s : State) : State := State.startNext 4 s

/-- The RUNNING INSTALL fails, and the next item may start (R158, R165). -/
def State.installFails (s : State) (i : InstallItem) (reason : Reason) : State :=
  (s.failInstall i reason).nextItem

/-! ### A page on the chosen die (R163) -/

/-- The OPEN block of a die with its next page. -/
def DieBlocks.openBlock? (t : DieBlocks) : Option (Nat × Nat) :=
  t.blocks.zipIdx.findSome? fun x =>
    match x.1.state with
    | .opened next => some (x.2, next)
    | .unset | .free | .full | .queued | .erasing | .worn | .log => none

/-- A QUEUED or ERASING block remains on a die. -/
def DieBlocks.erasePending (t : DieBlocks) : Bool :=
  t.blocks.any fun b => b.state == .queued || b.state == .erasing

/-- The head of a die's free list is opened with next page 0 (R11). -/
def State.openBlock (s : State) (d b : Nat) : State :=
  (s.updateDieBlocks d fun t => { t with free := t.free.tail }).setBlockState d b (.opened 0)

/-- The program of page q is placed (R163). -/
def State.placeProgram (s : State) (i : InstallItem) (b page : Nat) : State :=
  (s.setHead (.install { i with phase := .programming })).joinLongOp i.die
    (.program { block := b, page := page, first := 0, count := i.programSectors, purpose := .page })

/-- The RUNNING INSTALL enters PROGRAMMING (R163). -/
def State.enterProgramming (s : State) (i : InstallItem) : State :=
  let t := s.dieBlocks i.die
  match t.openBlock?, t.free with
  | some (b, next), _ => s.placeProgram i b next
  | none, b :: _ => (s.openBlock i.die b).placeProgram i b 0
  | none, [] =>
    if t.erasePending then s.setHead (.install { i with phase := .waitingBlock })
    else s.installFails i .noSpace

/-! ### The outcome of a program (R11, R13, R14, R163, R164, R166, R168) -/

/-- A block whose page program succeeded: its next page advances, past page 127 it is FULL (R11). -/
def Block.pageUsed (b : Block) : Block :=
  match b.state with
  | .opened next => { b with state := if 127 ≤ next then .full else .opened (next + 1) }
  | .unset | .free | .full | .queued | .erasing | .worn | .log => b

/-- One pending page more (R11). -/
def Block.addPending (b : Block) : Block := { b with pending := b.pending + 1 }

/-- A block whose page program failed (R11); an ERASING one keeps its state (R166, R169). -/
def Block.programFailed (b : Block) : Block :=
  if b.state = .erasing then b else { b with state := .worn }

/-- The RUNNING INSTALL takes the success of its page program (R163, R164). -/
def State.pageProgrammed (s : State) (i : InstallItem) (p : Program) : State :=
  let s1 := s.updateBlock i.die p.block fun b => b.pageUsed.addPending
  let j := i.programmed p.block p.page
  if j.q < j.pages then s1.startReading j
  else (s1.setHead (.install { j with phase := .appending })).appendRecord j.logRecord

/-- The result of a program whose install has ended: the page is dead, the page buffer free (R166). -/
def State.orphanResult (s : State) (d : Nat) (p : Program) (ok : Bool) : State :=
  let s1 := if ok then (s.updateBlock d p.block Block.pageUsed).queueDeadOn d
    else s.updateBlock d p.block Block.programFailed
  (s1.setInstaller { s1.installer with held := false }).nextItem

/-- The result of a page program reaches the installer and the catalogue (R163, R166). -/
def State.pageResult (s : State) (d : Nat) (p : Program) (ok : Bool) : State :=
  match s.installer.work with
  | .install i :: _ =>
    if i.phase = .programming then
      if ok then s.pageProgrammed i p
      else (s.updateBlock d p.block Block.programFailed).installFails i .program
    else s.orphanResult d p ok
  | _ => s.orphanResult d p ok

/-- The append position moves past the sector whose program has ended (R13). -/
def State.advanceAppend (s : State) : State :=
  s.setCatalogue { s.catalogue with appendPos := s.catalogue.appendPos + 1 }

/-- The INSTALL log record is programmed: the region enters the table (R13, R164). -/
def State.installComplete (s : State) (i : InstallItem) : State :=
  let r := regionOf i.region i.format i.frames i.loopStart i.loopEnd i.extents
  let s1 := s.setCatalogue { s.catalogue with regions := s.catalogue.regions ++ [r] }
  let s2 := (((s1.makeLive i.extents).queueDead).dropPending i.region).lowerOwed
  ((s2.queueNotice i.sender (.installed i.region)).endItem).nextItem

/-- The VOID log record is programmed: the region leaves the table (R14, R168). -/
def State.voidComplete (s : State) (sender region : Nat) : State :=
  let extents := ((s.region? region).map (·.extents)).getD []
  let s1 := s.setCatalogue { s.catalogue with
    regions := s.catalogue.regions.filter (·.id != region) }
  ((((s1.loseLive extents).queueDead).endReclaim).queueNotice sender (.reclaimed region)).nextItem

/-- The VOID log record's program failed: the region returns to LIVE (R14, R168). -/
def State.voidFailed (s : State) (sender region : Nat) : State :=
  (((s.updateRegion region fun r => { r with state := .live }).endReclaim).refuse sender 11 .log
    region).nextItem

/-- The result of a log append reaches the catalogue and its item (R13, R14, R164, R168). -/
def State.logResult (s : State) (ok : Bool) : State :=
  let s1 := s.advanceAppend
  match s1.installer.work with
  | .install i :: _ =>
    if i.phase = .appending then if ok then s1.installComplete i else s1.installFails i .log
    else s1
  | .reclaim sender region true :: _ =>
    if ok then s1.voidComplete sender region else s1.voidFailed sender region
  | _ => s1

/-- The result of a program is reported to its requester (R101). -/
def State.handOn (s : State) (d : Nat) (p : Program) (ok : Bool) : State :=
  match p.purpose with
  | .page => s.pageResult d p ok
  | .log _ => s.logResult ok

/-- A block's program front takes a value (R102). -/
def State.setFront (s : State) (d b value : Nat) : State :=
  s.setMedia { s.media with fronts := s.media.fronts.modify d fun f => f.set b value }

/-- The data of a program (R101). -/
def State.programData (s : State) (p : Program) : List Byte :=
  match p.purpose with
  | .page => s.installer.pageBuffer
  | .log record => record

/-- What a failed program makes of its sectors: a log append passes its sector over (R13, R15, R101). -/
def Program.failedCause (p : Program) : UnknownCause :=
  match p.purpose with
  | .page => .plain
  | .log _ => .passedOver

/-- What a performed program leaves on the flash: its data, or unknown contents (R101). -/
def State.programFlash (s : State) (d : Nat) (p : Program) (ok : Bool) : State :=
  let first := sectorNumber d p.block (p.page * 48 + p.first)
  if ok then s.setFlash (s.media.flash.program first p.count (s.programData p))
  else s.scramble first p.count p.failedCause

/-- A performed program ends: its front, its sectors, and its result handed on (R101, R102). -/
def State.programResult (s : State) (d : Nat) (p : Program) (ok : Bool) : State :=
  ((s.setFront d p.block (p.page * 48 + p.first + p.count)).programFlash d p ok).handOn d p ok

/-! ### The outcome of an erase (R11, R17, R103, R163, R169) -/

/-- What an erase leaves on the flash (R103). -/
def State.eraseFlash (s : State) (d b : Nat) (ok : Bool) : State :=
  if ok then s.setFlash (s.media.flash.erase (sectorNumber d b 0) 6144)
  else s.scramble (sectorNumber d b 0) 6144 .plain

/-- A block after its erase: FREE at the tail of its die's free list, or WORN; a LOG block stays LOG
(R11, R17). -/
def State.blockErased (s : State) (d b : Nat) (ok : Bool) : State :=
  if (s.block d b).state = .log then s
  else if ok then
    (s.updateBlock d b fun _ => { state := .free, live := 0, pending := 0 }).pushFree d b
  else s.setBlockState d b .worn

/-- The append position becomes 0 once the erases of the LOG blocks have ended (R17). -/
def State.clearAppend (s : State) : State := s.setCatalogue { s.catalogue with appendPos := 0 }

/-- One erase of the RUNNING WIPE has ended (R17, R169). -/
def State.wipeProgress (s : State) (sender worn left logLeft : Nat) (isLog ok : Bool) : State :=
  let worn' := worn + (if ok then 0 else 1)
  let log' := if isLog then logLeft - 1 else logLeft
  let s1 := if isLog && log' == 0 then s.clearAppend else s
  if left ≤ 1 then ((s1.endItem).queueNotice sender (.wiped worn')).nextItem
  else s1.setHead (.wipe sender worn' (left - 1) log')

/-- The RUNNING item is told of an erase result on die `d` (R103, R163, R169). -/
def State.eraseTold (s : State) (d : Nat) (isLog ok : Bool) : State :=
  match s.installer.work with
  | .wipe sender worn left logLeft :: _ => s.wipeProgress sender worn left logLeft isLog ok
  | .install i :: _ =>
    if i.phase = .waitingBlock ∧ i.die = d then s.enterProgramming i else s
  | _ => s

/-- An erase ends (R102, R103). -/
def State.eraseResult (s : State) (d b : Nat) (ok : Bool) : State :=
  let isLog := (s.block d b).state == .log
  (((s.setFront d b 0).eraseFlash d b ok).blockErased d b ok).eraseTold d isLog ok

/-- A long operation on a die ends: its result is reported, and the die becomes IDLE (R101, R103, R106,
log entry 12). -/
def State.longOpResult (s : State) (d : Nat) (op : LongOp) (ok : Bool) : State :=
  match op with
  | .program p => (s.programResult d p ok).becomeIdle d
  | .erase b => (s.eraseResult d b ok).becomeIdle d

/-! ### Programs that their front turned away (R102) -/

/-- The failures of the programs that their front turned away are handed on, `n` at most; a station state
that can be reached has fewer, since only the RUNNING item has a program (R102, log entry 16). -/
def State.settleFronts : Nat → State → State
  | 0, s => s.setMedia { s.media with frontFailed := [] }
  | n + 1, s =>
    match s.media.frontFailed with
    | [] => s
    | (d, p) :: rest =>
      State.settleFronts n ((s.setMedia { s.media with frontFailed := rest }).handOn d p false)

/-- The failures of the programs that their front turned away are handed on (R102). -/
def State.settleFront (s : State) : State := State.settleFronts 8 s

/-! ### Admission (R158, R160, R167) -/

/-- An admitted item joins the tail of the work list, and becomes RUNNING if it is alone and the installer
is free (R158). -/
def State.joinWork (s : State) (w : WorkItem) : State :=
  let s1 := s.setInstaller { s.installer with work := s.installer.work ++ [w] }
  if s.installer.work.isEmpty then s1.nextItem else s1

end Sys2Proof.Machine
end

