-- ==== Sys2Proof/Machine/Port.lean ====
section
/-! DEFINITION. The shared operations of the cue port, the claim unit and the delivery engine (spec 07, 08
and 11): receiving a frame, offering one, its outcome, the watches decided late, and the postings; and what
closes a step. -/

namespace Sys2Proof.Machine

/-! ### Receiving a frame (R111, R118 to R120) -/

/-- The port is RECEIVING (R111). -/
def BusCondition.isReceiving : BusCondition → Bool
  | .receiving _ => true
  | .seeking | .idle | .skipping => false

/-- The port assembles a frame that other stations send, whatever the kind it was found to have (R118). -/
def State.assembling (s : State) : Bool := s.port.bus.isReceiving && s.port.sending.isNone

/-- The last bit of another station's frame has passed (R111). -/
def State.endFrame (s : State) : State := s.setPort { s.port with bus := .skipping, rival := none }

/-! ### Bid entries and watches (R125, R126, R133, R138, R140) -/

/-- The bid list changed. -/
def State.setBids (s : State) (x : List Bid) : State := s.setClaims { s.claims with bids := x }

/-- The watch list changed. -/
def State.setWatches (s : State) (x : List Watch) : State := s.setClaims { s.claims with watches := x }

/-- The bid entry for a tag (R125). -/
def State.bid? (s : State) (tag : Nat) : Option Bid := s.claims.bids.find? (·.tag == tag)

/-- The watch for a tag (R126). -/
def State.watch? (s : State) (tag : Nat) : Option Watch := s.claims.watches.find? (·.tag == tag)

/-- The bid entry for a tag leaves the list, and its region use is released (R9). -/
def State.dropBid (s : State) (tag : Nat) : State :=
  match s.bid? tag with
  | none => s
  | some b => (s.setBids (s.claims.bids.filter (·.tag != tag))).releaseUse b.region

/-- The bid list is emptied, every entry's use released (R140). -/
def State.dropBids (s : State) : State :=
  (s.setBids []).releaseUses (s.claims.bids.map (·.region))

/-- A bid entry changed. -/
def State.updateBid (s : State) (tag : Nat) (f : Bid → Bid) : State :=
  s.setBids (updateFirst (·.tag == tag) f s.claims.bids)

/-- The watch for a tag leaves the list. -/
def State.dropWatch (s : State) (tag : Nat) : State :=
  s.setWatches (s.claims.watches.filter (·.tag != tag))

/-- A CLAIM for a tag marks its watch heard (R137). -/
def State.hear (s : State) (tag : Nat) : State :=
  s.setWatches (s.claims.watches.map fun w => if w.tag = tag then { w with heard := true } else w)

/-- A watch is decided: DECLINED with NONE-CLAIMED goes out unless it heard a CLAIM (R138). -/
def State.decideWatch (s : State) (w : Watch) : State :=
  let s1 := s.dropWatch w.tag
  if w.heard then s1 else s1.queueNotice w.requester (.declined w.tag .noneClaimed w.region)

/-- The watches whose window passed while a CLAIM was being received are decided at its end (R138). -/
def State.settleDue (s : State) : State :=
  (s.claims.watches.filter (·.due)).foldl State.decideWatch s

/-- A frame other than a CLAIM reaches the end of its check word at time `t`: watches fallen due are decided, and the
block that takes the frame acts by `act` if the addressee filter lets it pass (R118, R120, R138, log entry 22). -/
def State.receive (s : State) (t : Nat) (h : Header) (act : State → State) : State :=
  let s1 := s.atTime t
  if s1.assembling then
    let s2 := s1.endFrame.settleDue
    if addressed s2.station.number h then act s2 else s2
  else s1

/-- The port once its own frame stops before its end: with none that contends, the port finds the frame cut short (R116
to R118, log entry 13). No event says whether a contender known from earlier in the frame still drives: it is taken to
go on, at whatever bit the station stops, even past the arbitration span (R115, log entry 29: the model's choice). -/
def Port.stop (p : Port) : Port :=
  { bus := match p.rival with
      | some r => .receiving r.kind
      | none => p.bus
    sending := none }

/-- The station's own CLAIM stops before its end. With a contender's frame of another kind taken to go on, watches
fallen due wait for no CLAIM, and are decided at once and not at the FRAME_CUT_SHORT (R138, log entry 29: the model's
choice). -/
def State.stopClaim (s : State) : State :=
  let s1 := s.setPort s.port.stop
  if s1.port.bus = .receiving 1 then s1 else s1.settleDue

/-- The claim unit is told that an offered CLAIM was lost or met a bit error: the entry returns to WAITING,
and leaves if its window has closed (R133). -/
def State.claimReturned (s : State) (tag : Nat) : State :=
  match s.bid? tag with
  | none => s
  | some b =>
    match b.window with
    | .opened => s.updateBid tag fun b => { b with offer := .waiting }
    | .closed => s.dropBid tag

/-! ### Offering a frame (R114, R131, R179) -/

/-- The CLAIM frame of a bid entry (R131, layout tables). -/
def claimFrame (number bid tag : Nat) : Frame :=
  { kind := 1#4, key := .ofNat 12 bid, sender := .ofNat 4 number, addressee := 31#5
    payload := bytesBE 2 tag }

/-- The ready entry with the lowest bid, the earlier in the list on equal bids (R114). -/
def State.offerBid? (s : State) : Option Bid :=
  (s.claims.bids.filter s.bidReady).foldl (fun best b =>
    match best with
    | none => some b
    | some c => if s.bidForId b.region < s.bidForId c.region then some b else some c) none

/-- The cycles that one bit-time of 100 ns holds whole (R110, R114). -/
def bitCycles : Nat := 4

/-- A chosen frame may begin at `now`: on an IDLE bus, or within one bit-time of the first transition of other
stations' frame, to contend with it (R114). -/
def Port.mayBegin (p : Port) (now : Nat) : Bool :=
  p.sending.isNone &&
  (match p.bus, p.rival with
    | .idle, _ => true
    | .receiving _, some r => now ≤ r.since + bitCycles
    | .receiving _, none | .seeking, _ | .skipping, _ => false)

/-- The port with its own frame of kind `kind` begun (R114). -/
def Port.begun (p : Port) (kind : Nat) (frame : Sending) : Port :=
  { p with
    bus := .receiving (match p.rival with
      | some r => min r.kind kind
      | none => kind)
    sending := some frame }

/-- The CLAIM of a bid entry begins: the entry is SENDING (R131). -/
def State.beginClaim (s : State) (b : Bid) : State :=
  (s.updateBid b.tag fun b => { b with offer := .sending }).setPort
    (s.port.begun 1 (.claim b.tag (claimFrame s.station.number (s.bidForId b.region) b.tag)))

/-- The NOTICE of the queue's head begins (R179). -/
def State.beginNotice (s : State) (n : Notice) : State :=
  (s.setNotices { s.notices with drops := 0 }).setPort
    (s.port.begun 8 (.notice (n.frame s.station.number s.notices.loss)))

/-- The offer choice: where a frame may begin, the ready CLAIM with the lowest bid begins, else the head NOTICE
(R114). -/
def State.offer (s : State) : State :=
  if s.port.mayBegin s.clock then
    match s.offerBid?, s.notices.queue with
    | some b, _ => s.beginClaim b
    | none, n :: _ => s.beginNotice n
    | none, [] => s
  else s

/-- The READY drive is recomputed (R52). -/
def State.recomputeReady (s : State) : State :=
  s.setTimebase { s.timebase with readyLow := s.readyWanted }

/-- What closes a step: failures of programs turned away are handed on, READY is recomputed, and a frame
that has become pending is offered where one may begin (R52, R102, R114, log entries 16 and 17). -/
def State.finish (s : State) : State := ((s.settleFront).recomputeReady).offer

/-! ### Postings (R175, R176) -/

/-- The byte address of a segment's ring slot (R175). -/
def Configuration.ringAddress (c : Configuration) (tag ring : Nat) : Nat :=
  c.base + (tag * c.ringLength + ring % c.ringLength) * 6144

/-- With no posting under way, the head of the delivery queue leaves it and its posting begins (R175). -/
def State.startPosting (s : State) : State :=
  match s.delivery.posting, s.delivery.queue, s.station.config with
  | none, e :: rest, some c =>
      s.setDelivery { s.delivery with
        queue := rest
        posting := some { seg := e, address := c.ringAddress e.tag e.ring, discarded := false } }
  | _, _, _ => s

/-- A segment joins the tail of the delivery queue (R175). -/
def State.joinDelivery (s : State) (e : Delivery) : State :=
  (s.setDelivery { s.delivery with queue := s.delivery.queue ++ [e] }).startPosting

end Sys2Proof.Machine
end

