-- ==== Sys2Proof/Machine/BusCommands.lean ====
section
/-! DEFINITION. The commands of the cue port and the notice queue (spec 07 and 11): the bus's conditions, the
outcomes of the station's own frames, and frames that have no effect. -/

namespace Sys2Proof.Machine

/-- BUS_IDLE (R110, R111, R114): twelve silent bit-times, and the offer choice. -/
def execBusIdle (t : Nat) (s : State) : Host.Outcome State Fault Refusal :=
  let s1 := s.atTime t
  match s1.port.bus with
  | .seeking | .skipping => .next (s1.setPort { s1.port with bus := .idle, rival := none }).finish
  | .idle | .receiving _ => .next s1

/-- The port once another station's frame begins at an instant: an IDLE bus takes it, and one on which a frame has
begun takes it as a contender's (R111, R114, R115). -/
def Port.frameBegun (p : Port) (kind at_ : Nat) : Port :=
  match p.bus, p.rival with
  | .idle, _ => { p with bus := .receiving kind, rival := some { kind := kind, since := at_ } }
  | .receiving k, some r =>
      { p with bus := .receiving (min k kind), rival := some { r with kind := min r.kind kind } }
  | .receiving k, none =>
      if p.sending.isSome then
        { p with bus := .receiving (min k kind), rival := some { kind := kind, since := at_ } }
      else p
  | .seeking, _ | .skipping, _ => p

/-- FRAME_BEGINS (R111, R114, R118): another station's frame begins, on the IDLE bus or in contention. -/
def execFrameBegins (t : Nat) (kind : BitVec 4) (s : State) : Host.Outcome State Fault Refusal :=
  let s1 := s.atTime t
  .next (s1.setPort (s1.port.frameBegun kind.toNat s1.clock))

/-- ARBITRATION_LOST (R115, R117, R133, R179): the frame stays with its owner, and the winning frame, of kind
`kind`, is being received. A watch that has fallen due waits for the winner if it is a CLAIM (R138). -/
def execArbitrationLost (t : Nat) (kind : BitVec 4) (s : State) : Host.Outcome State Fault Refusal :=
  let s1 := s.atTime t
  let s2 := s1.setPort { bus := .receiving kind.toNat, sending := none }
  match s1.port.sending with
  | some (.claim tag _) =>
    let s3 := s2.claimReturned tag
    .next (if kind = 1#4 then s3 else s3.settleDue)
  | some (.notice _) => .next (s2.setNotices s2.notices.foldAddendum)
  | none => .next s1

/-- The queue after a bit error in the head's frame (R179). -/
def NoticeQueue.bitError (q : NoticeQueue) : NoticeQueue :=
  let q1 := q.foldAddendum
  if 4 ≤ q1.offerCount + 1 then { q1.dropHead with loss := raiseLoss q1.loss }
  else { q1 with offerCount := q1.offerCount + 1 }

/-- BIT_ERROR (R116 to R118, R133, R179): the station stops driving, and its receiver goes on with a contender's
frame or finds the frame cut short (log entry 13); that a contender still drives is log entry 29, the model's choice. -/
def execBitError (t : Nat) (s : State) : Host.Outcome State Fault Refusal :=
  let s1 := s.atTime t
  match s1.port.sending with
  | some (.claim tag _) => .next ((s1.claimReturned tag).stopClaim)
  | some (.notice _) => .next ((s1.setPort s1.port.stop).setNotices s1.notices.bitError)
  | none => .next s1

/-- FRAME_CUT_SHORT (R118, R138): the port goes to SKIPPING. -/
def execFrameCutShort (t : Nat) (s : State) : Host.Outcome State Fault Refusal :=
  let s1 := s.atTime t
  .next (if s1.assembling then s1.endFrame.settleDue else s1)

/-- FRAME_DISCARDED (R113, R119, R120, R138): a frame that fails a check or the addressee filter has no
effect. A frame that passes them all is not discarded, and is no matter of this command. -/
def execFrameDiscarded (t : Nat) (frame : Frame) (check : BitVec 16) (s : State) :
    Host.Outcome State Fault Refusal :=
  let s1 := s.atTime t
  .next (if s1.assembling && !frame.accepted s1.station.number check then s1.endFrame.settleDue else s1)

/-- NOTICE (R120): a NOTICE from another station has no effect. -/
def execNotice (t : Nat) (h : Header) (_payload : List Byte) (s : State) :
    Host.Outcome State Fault Refusal :=
  .next (s.receive t h fun s => s)

/-- The queue once the head's frame is sent (R179). -/
def NoticeQueue.sent (q : NoticeQueue) : NoticeQueue :=
  let q1 := { q with loss := min 15 q.drops, drops := 0 }
  match q1.addendum, q1.queue with
  | some add, head :: rest =>
      { q1 with queue := { head with body := add } :: rest, offerCount := 0, addendum := none }
  | _, _ => q1.dropHead

/-- NOTICE_SENT (R117, R120, R179): the head leaves the queue, or its addendum takes its place. -/
def execNoticeSent (t : Nat) (s : State) : Host.Outcome State Fault Refusal :=
  let s1 := s.atTime t
  match s1.port.sending with
  | some (.notice _) =>
    .next ((s1.setPort { bus := .skipping, sending := none }).setNotices s1.notices.sent)
  | some (.claim _ _) | none => .next s1

end Sys2Proof.Machine
end

