-- ==== Sys2Proof/Machine/Voices.lean ====
section
/-! DEFINITION. The voice table's shared operations (spec 02): retirement, ends, creation at a claim win;
and the tick event of each voice (spec 04). -/

namespace Sys2Proof.Machine

/-! ### Retirement (R32 to R38) -/

/-- The segments of the voices in `tags` are discarded at the stage they have reached (R33): a queued read
and a delivery entry leave their queue and their buffers are freed, a read under way and a posting are
marked. The queues are emptied first and the buffers freed then, so that a mass retirement leaves no read
of a retired voice to be started (R108, log entry 11). -/
def State.discardSegments (s : State) (tags : List Nat) : State :=
  let gone := fun (r : ReadRequest) => tags.contains r.tag
  let touched := dieNumbers.filter fun d => (s.die d).reads.any gone
  let kept := (s.media.dies.map fun die => (die.reads.filter fun r => gone r && r.kept).length).sum
  let waiting := (s.delivery.queue.filter fun e => tags.contains e.tag).length
  let mark := fun (a : ActiveRead) => if gone a.req then { a with discarded := true } else a
  let s1 := s.setMedia { s.media with
    dies := s.media.dies.map fun die =>
      { die with reads := die.reads.filter fun r => !gone r, state := die.state.mapRead mark } }
  let s2 := s1.setDelivery { s1.delivery with
    queue := s1.delivery.queue.filter fun e => !tags.contains e.tag
    posting := s1.delivery.posting.map fun p =>
      if tags.contains p.seg.tag then { p with discarded := true } else p }
  touched.foldl State.readsChanged (s2.freeBuffers (kept + waiting))

/-- One voice's record becomes IDLE with its uses released and its notices closed; RETIRED is queued for
every reason but HALTED (R32). -/
def State.retireRecord (s : State) (reason : RetireReason) (v : Voice) : State :=
  let s1 := ((s.setVoices (s.voices.filter (·.tag != v.tag))).releaseUses v.uses).closeNotices v.tag
  if reason = .halted then s1 else s1.queueNotice v.requester (.retired v.tag reason v.floorP)

/-- One voice retires (R32, R33). -/
def State.retire (s : State) (tag : Nat) (reason : RetireReason) : State :=
  match s.voice? tag with
  | none => s
  | some v => (s.discardSegments [tag]).retireRecord reason v

/-- The voices in ascending order of tag (R37). -/
def State.voicesByTag (s : State) : List Voice :=
  s.voices.foldr (insertOrdered fun a b => a.tag ≤ b.tag) []

/-- Every in-use voice retires (R36, R37). -/
def State.retireAll (s : State) (reason : RetireReason) : State :=
  s.voicesByTag.foldl (fun s v => s.retireRecord reason v)
    (s.discardSegments (s.voices.map (·.tag)))

/-! ### Ends (R24, R25, R147) -/

/-- A FADE on a voice whose end is absent fixes its end and empties its follow slot (R147). -/
def State.fixFade (s : State) (v : Voice) (length : Nat) : State :=
  let e : VoiceEnd := { frame := v.floorP + length, cause := .fade }
  let s1 := s.updateVoice v.tag fun v => { v with fin := some e, follow := none }
  let s2 := s1.queueNotice v.requester (.endpoint v.tag e.frame e.cause)
  let s3 := match v.follow with
    | some f => s2.releaseUse f.region
    | none => s2
  s3.completeIfLimit v.tag

/-- A CUT or FADE is applied to a voice; `refuseTo` is told of a FADE that finds the end present (R25,
R146 to R148). -/
def State.applyEnd (s : State) (v : Voice) (mode : CutOrFade) (refuseTo : Nat) : State :=
  match mode with
  | .cut => s.retire v.tag .cut
  | .fade length =>
    if v.fin.isSome then s.refuse refuseTo 3 .state v.tag else s.fixFade v length

/-- A pending end whose at-tick now equals or has passed is applied and cleared (R25). -/
def State.applyPendingEnd (s : State) (tag : Nat) : State :=
  match s.voice? tag with
  | none => s
  | some v =>
    match v.pendingEnd with
    | none => s
    | some e =>
      if e.atTick ≤ s.timebase.tick then
        (s.updateVoice tag fun v => { v with pendingEnd := none }).applyEnd v e.mode v.requester
      else s

/-! ### Creation (R27, R28, R61) -/

/-- The state and position of a record created at tick `now` from a bid entry (R27, R61). -/
def Bid.startState (b : Bid) (now : Nat) : VoiceState × Nat :=
  match b.mode with
  | .immediate => (.running, min slackCap (now - b.captured) * b.rate)
  | .atTick start =>
    if start ≤ now then (.running, min slackCap (now - start) * b.rate) else (.scheduled start, 0)
  | .armed => (.armed, 0)

/-- The created record, its dry tick computed (R28, R64). -/
def Bid.create (b : Bid) (record now : Nat) (hasLoop : Bool) : Voice :=
  let v : Voice :=
    { record := record, tag := b.tag, state := (b.startState now).1, requester := b.requester
      region := b.region, s0 := b.start, p := (b.startState now).2, r := b.rate, target := b.rate, step := 0
      loopActive := b.loopRequest && hasLoop, loopRequest := b.loopRequest, loopReleased := false
      cursor := some (b.start / 1024), n := 0, d := 0, inFlight := none, fill := .filling
      dryFrame := none, fin := none, pendingEnd := none, follow := none, dry := none }
  v.withDry now

/-- With no IDLE record the steal victim retires STOLEN (R27, R30). -/
def State.steal (s : State) : State :=
  match s.idleRecord?, s.stealVictim? with
  | none, some v => s.retire v.tag .stolen
  | _, _ => s

/-- The voice table creates the record of a won claim, and its first read may be issued (R27, R28, R77).
A win always finds a record (R31); with none, no voice is created (log entry 14). -/
def State.createVoice (s : State) (b : Bid) : State :=
  let s1 := s.steal
  match s1.idleRecord? with
  | some record =>
    let hasLoop := ((s1.region? b.region).bind (·.loop)).isSome
    (s1.setVoices (s1.voices ++ [b.create record s1.timebase.tick hasLoop])).testEligible b.tag
  | none => s1.releaseUse b.region

/-! ### The tick event of one voice (R57 to R59) -/

/-- The rate after one glide step (R57). -/
def Voice.glided (v : Voice) : Nat :=
  if v.r < v.target then min (v.r + v.step) v.target
  else if v.target < v.r then max (v.r - v.step) v.target
  else v.r

/-- Steps 1 and 2 of a RUNNING voice's tick event: advance, then glide (R58). -/
def Voice.advanced (v : Voice) : Voice := { v with p := v.p + v.r, r := v.glided }

/-- The glide reaches its target at this tick event (R57). -/
def Voice.reachesTarget (v : Voice) : Bool := v.r != v.target && v.glided == v.target

/-- The position at which a voice retires LIMIT (R58, R60). -/
def limitFrame : Nat := 4294901760

/-- The tests after steps 1 to 6 of a RUNNING voice's tick event: a gain of room, then the dry tick when
the glide reached its target (R58, R63). `before` is the record as the tick found it. -/
def State.afterTick (s : State) (before : Voice) : State :=
  let s1 := match s.voice? before.tag with
    | some v => if before.consumed < v.consumed then s.testEligible before.tag else s
    | none => s
  if before.reachesTarget then s1.recomputeDry before.tag else s1

/-- A RUNNING voice's tick event (R58). -/
def State.tickRunning (s : State) (before : Voice) : State :=
  let v := before.advanced
  let s1 := s.updateVoice v.tag Voice.advanced
  if limitFrame ≤ v.floorP then s1.retire v.tag .limit
  else if v.fin.any (fun e => e.frame ≤ v.floorP) then s1.retire v.tag .done
  else
    let s2 := if v.fill = .filling && v.atDryPoint then s1.dryEvent v else s1
    (s2.applyPendingEnd v.tag).afterTick before

/-- A SCHEDULED voice starts once its start tick is reached or passed (R21, R59). -/
def State.startScheduled (s : State) (v : Voice) (start : Nat) : State :=
  if start ≤ s.timebase.tick then
    (s.updateVoice v.tag fun v => { v with state := .running, p := 0 }).recomputeDry v.tag
  else s

/-- One voice's tick event (R58, R59). -/
def State.tickVoice (s : State) (tag : Nat) : State :=
  match s.voice? tag with
  | none => s
  | some v =>
    match v.state with
    | .running => s.tickRunning v
    | .scheduled start => (s.startScheduled v start).applyPendingEnd tag
    | .armed => s.applyPendingEnd tag

end Sys2Proof.Machine
end

