-- ==== Sys2Proof/Machine/ClaimCommands.lean ====
section
/-! DEFINITION. The commands of the claim unit (spec 08): a claim won, a CLAIM heard, a NOTE, and the two
windows. -/

namespace Sys2Proof.Machine

/-- The effect of a won claim: the record is created, the entry leaves the list with its use passed on, and
a watch for the tag is marked heard (R132). Watches fallen due are decided after that, so a DECLINED of theirs
follows the notices of a steal (R138, log entry 22: the model's choice). -/
def State.claimWonBy (s : State) (b : Bid) : State :=
  ((((s.setBids (s.claims.bids.filter (·.tag != b.tag))).createVoice b).hear b.tag).settleDue).finish

/-- CLAIM_WON (R27 to R31, R117, R120, R132, R138). -/
def execClaimWon (t : Nat) (s : State) : Host.Outcome State Fault Refusal :=
  let s1 := s.atTime t
  match s1.port.sending with
  | some (.claim tag _) =>
    let s2 := s1.setPort { bus := .skipping, sending := none }
    match s2.bid? tag with
    | some b => .next (s2.claimWonBy b)
    | none => .next s2
  | some (.notice _) | none => .next s1

/-- The effect of another station's CLAIM for a tag: the entry is withdrawn, an owned voice yields, a watch
is marked heard (R134, R136, R137). Watches fallen due are decided after that, so a DECLINED of theirs follows the
RETIRED notice of the voice that yields (R138, log entry 22: the model's choice). -/
def State.claimHeard (s : State) (tag : Nat) : State :=
  ((((s.dropBid tag).retire tag .yielded).hear tag).settleDue).finish

/-- CLAIM (R120, R134, R136, R137, R138): taken whatever its addressee, and acted on in CONFIGURED (R172).
It is another station's frame whatever its sender field (log entry 21). -/
def execClaim (t : Nat) (_h : Header) (tagField : BitVec 16) (s : State) :
    Host.Outcome State Fault Refusal :=
  let s1 := s.atTime t
  if s1.assembling then
    if s1.station.state = .configured then .next (s1.endFrame.claimHeard (tagOf tagField))
    else .next s1.endFrame.settleDue
  else .next s1

/-- The fields of a NOTE as the claim unit takes them (R122, R125, R127). -/
structure NoteFields where
  tag         : Nat
  region      : Nat
  start       : Nat
  mode        : StartMode
  rate        : Nat
  loopRequest : Bool
  requester   : Nat
  deriving DecidableEq, Repr, Inhabited

/-- A watch for a tag is started or replaced; with 16 watches for other tags none is started (R137). -/
def State.startWatch (s : State) (n : NoteFields) : State :=
  let s1 := s.dropWatch n.tag
  if s1.claims.watches.length < 16 then
    s1.setWatches (s1.claims.watches ++ [
      { tag := n.tag, region := n.region, requester := n.requester
        expiry := s.clock + windowCycles, heard := false, due := false }])
  else s1

/-- Step 3 of a NOTE: the home-holder test (R137). -/
def State.homeWatch (s : State) (n : NoteFields) : State :=
  match s.region? n.region with
  | some r =>
    match r.role with
    | .home =>
      if n.start < r.frames then s.startWatch n
      else (s.dropWatch n.tag).queueNotice n.requester (.declined n.tag .range n.region)
    | .replica => s.dropWatch n.tag
  | none => s.dropWatch n.tag

/-- The conditions of a bid (R128). -/
def State.canBid (s : State) (n : NoteFields) : Bool :=
  s.delivery.link == .up &&
  (match s.region? n.region with
    | some r => r.state == .live && n.start < r.frames
    | none => false) &&
  s.canCreate && s.claims.bids.length < 16

/-- The bid entry of a NOTE (R125, R128). -/
def NoteFields.bid (n : NoteFields) (tick clock : Nat) : Bid :=
  { tag := n.tag, region := n.region, start := n.start, mode := n.mode, captured := tick
    rate := n.rate, loopRequest := n.loopRequest, requester := n.requester
    expiry := clock + windowCycles, window := .opened, offer := .waiting }

/-- Step 4 of a NOTE: the bid test (R128). -/
def State.makeBid (s : State) (n : NoteFields) : State :=
  if s.canBid n then
    (s.setBids (s.claims.bids ++ [n.bid s.timebase.tick s.clock])).addUse n.region
  else s

/-- The four steps of a NOTE taken in CONFIGURED (R127, R129). -/
def State.noteTaken (s : State) (n : NoteFields) : State :=
  ((((s.retire n.tag .superseded).dropBid n.tag).homeWatch n).makeBid n).finish

/-- NOTE (R127 to R129, R137). -/
def execNote (t : Nat) (h : Header) (region : BitVec 24) (offset : BitVec 32) (tick : BitVec 48)
    (rate : BitVec 24) (flags : BitVec 8) (s : State) : Host.Outcome State Fault Refusal :=
  .next (s.receive t h fun s =>
    match startModeOf flags tick with
    | some mode =>
      if s.station.state = .configured then
        s.noteTaken { tag := h.key.toNat, region := region.toNat, start := roundSegment offset.toNat
                      mode := mode, rate := clampRate rate.toNat, loopRequest := loopEnableOf flags
                      requester := h.sender.toNat }
      else s
    | none => s)

/-- BID_WINDOW_EXPIRY (R135). -/
def execBidWindowExpiry (tag : BitVec 12) (s : State) : Host.Outcome State Fault Refusal :=
  match s.bid? tag.toNat with
  | none => .next s
  | some b =>
    let s1 := s.atTime b.expiry
    match b.offer with
    | .waiting => .next (s1.dropBid tag.toNat)
    | .sending => .next (s1.updateBid tag.toNat fun b => { b with window := .closed })

/-- A watch is left to be decided at the end of the CLAIM being received (R138). -/
def State.deferWatch (s : State) (tag : Nat) : State :=
  s.setWatches (updateFirst (·.tag == tag) (fun w => { w with due := true }) s.claims.watches)

/-- WATCH_WINDOW_EXPIRY (R138). -/
def execWatchWindowExpiry (tag : BitVec 12) (s : State) : Host.Outcome State Fault Refusal :=
  match s.watch? tag.toNat with
  | none => .next s
  | some w =>
    let s1 := s.atTime w.expiry
    if s1.port.bus = .receiving 1 then .next (s1.deferWatch tag.toNat)
    else .next (s1.decideWatch w).finish

end Sys2Proof.Machine
end

