-- ==== Sys2Proof/Machine/LibraryCommands.lean ====
section
/-! DEFINITION. PROBE and the admissions of the installer (spec 10). -/

namespace Sys2Proof.Machine

/-- The effect of a PROBE taken outside STARTING (R170). -/
def State.probeTaken (s : State) (region sender : Nat) : State :=
  match s.region? region with
  | some r => s.queueNotice sender (.holds region r.role r.state (s.bidFor r))
  | none => s

/-- PROBE (R130, R170): ignored in STARTING. -/
def execProbe (t : Nat) (h : Header) (region : BitVec 24) (s : State) :
    Host.Outcome State Fault Refusal :=
  .next (s.receive t h fun s =>
    match s.station.state with
    | .starting => s
    | .unconfigured | .configured => s.probeTaken region.toNat h.sender.toNat)

/-- The fields of an INSTALL as its admission tests them (R160). -/
structure InstallFields where
  sender    : Nat
  region    : Nat
  format    : Nat
  frames    : Nat
  loopStart : Nat
  loopEnd   : Nat
  source    : Nat
  deriving DecidableEq, Repr, Inhabited

/-- The page count P of an INSTALL (R160). -/
def InstallFields.pages (i : InstallFields) : Nat := pagesOf (Format.ofByte i.format) i.frames

/-- A loop is present and breaks R3 (R160 test 5). -/
def InstallFields.badLoop (i : InstallFields) : Bool :=
  match loopOf i.format i.loopStart i.loopEnd with
  | some l => !loopValid l (segmentsOf i.frames)
  | none => false

/-- The first failing admission test of an INSTALL (R159, R160). -/
def State.installRefusal (s : State) (i : InstallFields) : Option Reason :=
  if s.installer.busy then some .busy
  else if s.delivery.link ≠ .up then some .linkDown
  else if 1048575 < i.region ∨ i.frames < 1 then some .range
  else if 7864320 < i.frames then some .tooLarge
  else if s.idTaken i.region then some .exists_
  else if i.badLoop then some .badLoop
  else if s.catalogue.logFull then some .logFull
  else if 8192 < s.catalogue.regions.length + s.catalogue.pendingInstalls.length + 1 then some .noSpace
  else if s.availablePages s.bestDie < (i.pages : Int) then some .noSpace
  else none

/-- The work item of an admitted INSTALL (R158, R160, R161). -/
def InstallFields.item (i : InstallFields) (die : Nat) : InstallItem :=
  { sender := i.sender, region := i.region, format := i.format, frames := i.frames
    loopStart := i.loopStart, loopEnd := i.loopEnd, source := i.source, die := die
    reserved := i.pages, q := 0, extents := [], phase := .waiting }

/-- The admission of an INSTALL (R160, R161). -/
def State.admitInstall (s : State) (i : InstallFields) : State :=
  (s.setCatalogue { s.catalogue with
    pendingInstalls := s.catalogue.pendingInstalls ++ [i.region]
    owed := s.catalogue.owed + 1 }).joinWork (.install (i.item s.bestDie))

/-- The effect of an INSTALL taken outside STARTING (R159, R160). -/
def State.installTaken (s : State) (i : InstallFields) : State :=
  (match s.installRefusal i with
    | some reason => s.refuse i.sender 10 reason i.region
    | none => s.admitInstall i).finish

/-- INSTALL (R159 to R162): ignored in STARTING. -/
def execInstall (t : Nat) (h : Header) (region : BitVec 24) (format : BitVec 8)
    (frames loopStart loopEnd : BitVec 24) (source : BitVec 64) (s : State) :
    Host.Outcome State Fault Refusal :=
  .next (s.receive t h fun s =>
    match s.station.state with
    | .starting => s
    | .unconfigured | .configured =>
      s.installTaken { sender := h.sender.toNat, region := region.toNat, format := format.toNat
                       frames := frames.toNat, loopStart := loopStart.toNat, loopEnd := loopEnd.toNat
                       source := source.toNat })

/-- The first failing admission test of a RECLAIM (R159, R167). -/
def State.reclaimRefusal (s : State) (region : Nat) : Option Reason :=
  if s.installer.busy then some .busy
  else
    match s.region? region with
    | none => some .absent
    | some r =>
      if r.inUse ≠ 0 then some .inUse
      else if s.catalogue.logFull then some .logFull
      else none

/-- The admission of a RECLAIM: the region becomes DEPARTING (R167). -/
def State.admitReclaim (s : State) (region sender : Nat) : State :=
  let s1 := s.updateRegion region fun r => { r with state := .departing }
  (s1.setCatalogue { s1.catalogue with owed := s1.catalogue.owed + 1 }).joinWork
    (.reclaim sender region false)

/-- The effect of a RECLAIM taken outside STARTING (R159, R167). -/
def State.reclaimTaken (s : State) (region sender : Nat) : State :=
  (match s.reclaimRefusal region with
    | some reason => s.refuse sender 11 reason region
    | none => s.admitReclaim region sender).finish

/-- RECLAIM (R159, R167, R168): ignored in STARTING. -/
def execReclaim (t : Nat) (h : Header) (region : BitVec 24) (s : State) :
    Host.Outcome State Fault Refusal :=
  .next (s.receive t h fun s =>
    match s.station.state with
    | .starting => s
    | .unconfigured | .configured => s.reclaimTaken region.toNat h.sender.toNat)

/-- A WIPE finds an item, a voice or a bid entry (R159, R169). -/
def State.wipeBusy (s : State) : Bool :=
  !s.installer.work.isEmpty || !s.voices.isEmpty || !s.claims.bids.isEmpty

/-- The catalogue at the start of a WIPE: no region, nothing owed or pending (R17, R169). -/
def Catalogue.emptied (c : Catalogue) : Catalogue :=
  { c with regions := [], pendingInstalls := [], owed := 0 }

/-- A block awaiting the erase of a WIPE: ERASING with no page counted; a LOG block stays LOG (R17, R169). -/
def Block.wiping (b : Block) : Block :=
  { state := if b.state = .log then .log else .erasing, live := 0, pending := 0 }

/-- A block that has no erase of its own yet (R169). -/
def Block.needsErase (b : Block) : Bool := b.state != .queued && b.state != .erasing

/-- One die under a WIPE: its free list empties, its blocks are ERASING, and erases are appended for the
blocks that have none (R169). -/
def State.wipeDie (s : State) (d : Nat) : State :=
  let blocks := (s.dieBlocks d).numbers Block.needsErase
  (s.updateDieBlocks d fun t => { blocks := t.blocks.map Block.wiping, free := [] }).joinErases d blocks

/-- The admission of a WIPE, which runs at once: 16,384 erases, eight of them of LOG blocks (R169). -/
def State.admitWipe (s : State) (sender : Nat) : State :=
  let s1 := s.setCatalogue s.catalogue.emptied
  dieNumbers.foldl State.wipeDie
    (s1.setInstaller { s1.installer with work := [.wipe sender 0 16384 8] })

/-- The effect of a WIPE taken outside STARTING (R159, R169). -/
def State.wipeTaken (s : State) (sender : Nat) : State :=
  (if s.wipeBusy then s.refuse sender 13 .busy 0 else s.admitWipe sender).finish

/-- WIPE (R17, R159, R169): ignored in STARTING. -/
def execWipe (t : Nat) (h : Header) (s : State) : Host.Outcome State Fault Refusal :=
  .next (s.receive t h fun s =>
    match s.station.state with
    | .starting => s
    | .unconfigured | .configured => s.wipeTaken h.sender.toNat)

end Sys2Proof.Machine
end

