-- ==== Sys2Proof/Machine/LinkCommands.lean ====
section
/-! DEFINITION. The commands of the delivery link (spec 11): the end of a posting, the link's state, and the
install read. -/

namespace Sys2Proof.Machine

/-- The end of a posting: its buffer is freed, and its voice takes the delivery completion unless the segment
is discarded; then the next posting begins (R80, R175, R176). -/
def State.postingEnded (s : State) (p : Posting) : State :=
  let s1 := (s.setDelivery { s.delivery with posting := none }).freeBuffer
  let s2 := if p.discarded then s1 else s1.deliveryCompletion p.seg.tag p.seg.ring
  s2.startPosting

/-- POSTING_END (R80, R175, R176). -/
def execPostingEnd (t : Nat) (s : State) : Host.Outcome State Fault Refusal :=
  let s1 := s.atTime t
  match s1.delivery.posting with
  | some p => .next (s1.postingEnded p).finish
  | none => .next s1

/-- LINK_UP (R174). -/
def execLinkUp (t : Nat) (s : State) : Host.Outcome State Fault Refusal :=
  let s1 := s.atTime t
  .next (s1.setDelivery { s1.delivery with link := .up })

/-- A CLAIM on the bus is abandoned with its entry: the station stops driving (R117, R118, R140). -/
def State.abandonClaim (s : State) : State :=
  match s.port.sending with
  | some (.claim _ _) => s.stopClaim
  | some (.notice _) | none => s

/-- A page program of the RUNNING INSTALL is under way on its die (R166). -/
def State.pageUnderWay (s : State) : Bool :=
  s.media.dies.any fun die =>
    match die.state.longOp? with
    | some (.program p) => p.purpose == .page
    | some (.erase _) | none => false

/-- The log program of the RUNNING INSTALL has started on die 0 (R164, R166). -/
def State.logUnderWay (s : State) : Bool :=
  match (s.die 0).state.longOp? with
  | some (.program p) => p.purpose != .page
  | some (.erase _) | none => false

/-- The RUNNING INSTALL at a link loss: it fails with LINK-DOWN, unless its log program has started. A page
program under way keeps the page buffer (R166, R174). -/
def State.linkLostInstall (s : State) : State :=
  match s.installer.work with
  | .install i :: _ =>
    let fail := (s.setInstaller { s.installer with held := s.pageUnderWay }).installFails i .linkDown
    match i.phase with
    | .waiting => s
    | .reading | .programming | .waitingBlock => fail
    | .appending => if s.logUnderWay then s else fail
  | _ => s

/-- The effect of the link going DOWN (R140, R166, R174, log entry 11). -/
def State.linkLost (s : State) : State :=
  let freed := s.delivery.queue.length + (if s.delivery.posting.isSome then 1 else 0)
  let s1 := s.setDelivery { link := .down, queue := [], posting := none, installRead := none }
  let s2 := ((s1.retireAll .link).freeBuffers freed).dropBids.abandonClaim
  ((s2.settleFront).linkLostInstall).finish

/-- LINK_DOWN (R37, R140, R166, R174): with the link DOWN already it has no effect. -/
def execLinkDown (t : Nat) (s : State) : Host.Outcome State Fault Refusal :=
  let s1 := s.atTime t
  match s1.delivery.link with
  | .up => .next s1.linkLost
  | .down => .next s1

/-! ### The install read (R162, R177) -/

/-- The page buffer after a read of `count` bytes: the bytes that returned, zero frames up to the end of the
last segment (R162, log entry 20). -/
def InstallItem.page (i : InstallItem) (count : Nat) (bytes : List Byte) : List Byte :=
  let got := bytes.take count
  got ++ List.replicate (i.programSectors * 512 - got.length) 0#8

/-- The install read ends (R177). -/
def State.endRead (s : State) : State := s.setDelivery { s.delivery with installRead := none }

/-- The read of page q has ended in success: the buffer holds the page and the item enters PROGRAMMING
(R162, R163). -/
def State.pageRead (s : State) (i : InstallItem) (count : Nat) (bytes : List Byte) : State :=
  ((s.setInstaller { s.installer with pageBuffer := i.page count bytes }).enterProgramming i).finish

/-- INSTALL_READ_DONE (R162, R163, R177). -/
def execInstallReadDone (t : Nat) (bytes : List Byte) (s : State) : Host.Outcome State Fault Refusal :=
  let s1 := s.atTime t
  match s1.delivery.installRead, s1.installer.work with
  | some r, .install i :: _ => .next (s1.endRead.pageRead i r.bytes bytes)
  | _, _ => .next s1

/-- INSTALL_READ_ERROR (R162, R165, R177). -/
def execInstallReadError (t : Nat) (s : State) : Host.Outcome State Fault Refusal :=
  let s1 := s.atTime t
  match s1.delivery.installRead, s1.installer.work with
  | some _, .install i :: _ => .next ((s1.endRead.installFails i .linkRead).finish)
  | _, _ => .next s1

/-- INSTALL_READ_TIMEOUT (R162, R165, R177): 50 ms after the first request. -/
def execInstallReadTimeout (s : State) : Host.Outcome State Fault Refusal :=
  match s.delivery.installRead, s.installer.work with
  | some r, .install i :: _ =>
    .next ((((s.atTime (r.since + readTimeoutCycles)).endRead).installFails i .linkRead).finish)
  | _, _ => .next s

end Sys2Proof.Machine
end

