-- ==== Sys2Proof/Machine/MediaCommands.lean ====
section
/-! DEFINITION. The commands of the media array (spec 06) and of the start-up scan (spec 01). -/

namespace Sys2Proof.Machine

/-- LOG_SECTOR_READ_END (R15, R16, R100, R172): the sector that the scan reads on die 0. -/
def execLogSectorReadEnd (t : Nat) (uncorrectable : Bool) (s : State) :
    Host.Outcome State Fault Refusal :=
  let s1 := s.atTime t
  match (s1.die 0).state, s1.catalogue.scan with
  | .logRead _, some x => .next (s1.logSectorRead x uncorrectable).finish
  | _, _ => .next s1

/-! ### Segment reads (R97 to R99) -/

/-- The number of uncorrectable sectors among those of a read (R97). -/
def ReadRequest.badCount (r : ReadRequest) (bad : BitVec 12) : Nat :=
  ((List.range r.sectors).filter fun i => bad.getLsbD i).length

/-- The bytes of a segment read, uncorrectable sectors set to zero (R97, R99). -/
def State.readData (s : State) (d : Nat) (r : ReadRequest) (bad : BitVec 12) : List Byte :=
  (List.range r.sectors).flatMap fun i =>
    if bad.getLsbD i then List.replicate 512 0#8
    else s.media.flash.sector (sectorNumber d r.block (r.page * 48 + r.sector + i))

/-- The delivery queue entry of a read (R97, R175). -/
def State.readEntry (s : State) (d : Nat) (r : ReadRequest) (bad : BitVec 12) : Delivery :=
  { tag := r.tag, ring := r.ring, frameSize := r.frameSize, data := s.readData d r bad }

/-- A read is worth its single re-read (R97). -/
def ReadRequest.retried (r : ReadRequest) (slack : Nat) : Bool := r.attempt == .first && 1024 < slack

/-- The result of a voice's segment read (R97 to R99). -/
def State.readResult (s : State) (d : Nat) (r : ReadRequest) (v : Voice) (bad : BitVec 12) : State :=
  let dry := v.dry.getD 0
  if r.badCount bad = 0 then s.joinDelivery (s.readEntry d r bad)
  else if r.retried (currentSlack s.timebase.tick dry) then
    s.joinReads d { r with attempt := .reRead, kept := true, dry := dry }
  else
    (s.queueNotice v.requester (.media r.tag r.region (r.badCount bad))).joinDelivery
      (s.readEntry d r bad)

/-- The result of a segment read, by its voice: dropped with its buffer freed if the voice has retired
meanwhile (R33, R97). -/
def State.readOutcome (s : State) (d : Nat) (a : ActiveRead) (bad : BitVec 12) : State :=
  match a.discarded, s.voice? a.req.tag with
  | false, some v => s.readResult d a.req v bad
  | _, _ => s.freeBuffer

/-- A die state after its read: IDLE, or SUSPENDED again (R97). -/
def DieState.afterRead : DieState → DieState
  | .suspendedRead op _ => .suspended op
  | .read _ => .idle
  | x => x

/-- A die's read ends and it makes its next decision (R94, R97, R107, log entry 12). -/
def State.readEnded (s : State) (d : Nat) : State :=
  (s.setDieState d (s.die d).state.afterRead).readsChanged d

/-- SEGMENT_READ_END (R33, R97 to R99, R107). -/
def execSegmentReadEnd (t : Nat) (die : Nat) (bad : BitVec 12) (s : State) :
    Host.Outcome State Fault Refusal :=
  let s1 := s.atTime t
  match (s1.die die).state.activeRead? with
  | some a => .next (((s1.readOutcome die a bad).readEnded die).finish)
  | none => .next s1

/-! ### Long operations (R101 to R107) -/

/-- PROGRAM_COMPLETE (R101, R102). -/
def execProgramComplete (t : Nat) (die : Nat) (ok : Bool) (s : State) :
    Host.Outcome State Fault Refusal :=
  let s1 := s.atTime t
  match (s1.die die).state with
  | .busy (.program p) => .next (s1.longOpResult die (.program p) ok).finish
  | _ => .next s1

/-- ERASE_COMPLETE (R102, R103). -/
def execEraseComplete (t : Nat) (die : Nat) (ok : Bool) (s : State) :
    Host.Outcome State Fault Refusal :=
  let s1 := s.atTime t
  match (s1.die die).state with
  | .busy (.erase b) => .next (s1.longOpResult die (.erase b) ok).finish
  | _ => .next s1

/-- SUSPEND_REPORTED (R106): the die is SUSPENDED and decides, or its operation had completed. -/
def execSuspendReported (t : Nat) (die : Nat) (report : SuspendReport) (s : State) :
    Host.Outcome State Fault Refusal :=
  let s1 := s.atTime t
  match (s1.die die).state, report with
  | .suspendPending op, .suspended =>
    .next (((s1.setDieState die (.suspended op)).serviceDecision die).finish)
  | .suspendPending op, .completed ok => .next (s1.longOpResult die op ok).finish
  | _, _ => .next s1

/-- RESUME_HOLD_OFF_EXPIRY (R105): the suspend test 250 us after the die's last resume. -/
def execResumeHoldOffExpiry (die : Nat) (s : State) : Host.Outcome State Fault Refusal :=
  match (s.die die).state, (s.die die).lastResume with
  | .busy _, some at_ => .next (((s.atTime (at_ + holdOffCycles)).suspendTest die).finish)
  | _, _ => .next s

end Sys2Proof.Machine
end

