-- ==== Sys2Proof/Machine/Ticks.lean ====
section
/-! DEFINITION. The timebase's shared operations (spec 03): the tick event, the divider, qualification and
loss of the word clock, and the load of a DOWNBEAT event. -/

namespace Sys2Proof.Machine

/-- The session rate in force (R39). -/
def State.rate? (s : State) : Option SessionRate := s.station.config.map (·.rate)

/-! ### The tick event (R46) -/

/-- The tick counter after a tick: from 2^48 - 1 it passes to 0 (R46). -/
def nextTick (tick : Nat) : Nat := (tick + 1) % tickModulus

/-- At a wrap of the counter every held dry tick is recomputed with now = 0 (R67). -/
def State.recomputeHeld (s : State) : State :=
  (s.setVoices (s.voices.map fun v =>
    if v.dry.isSome then v.withDry s.timebase.tick else v)).syncReads

/-- The drive-tick test: the station begins to pull DOWNBEAT low (R48). -/
def Timebase.driveTest (b : Timebase) (clock : Nat) : Timebase :=
  if b.drive = some b.tick then { b with drive := none, driving := some clock } else b

/-- Every die in PROGRAM or ERASE makes its suspend test (R105). -/
def State.suspendTests (s : State) : State := dieNumbers.foldl State.suspendTest s

/-- A tick event: the counter advances, the voices take the tick in the order that `order` gives, and the
drive-tick test and the suspend tests follow (R46, log entry 10). At a wrap no held dry tick is shifted before the
voices take the tick, and all are recomputed after it (R67, log entry 26: the model's choice). -/
def State.tickEvent (s : State) (order : List (BitVec 12)) : State :=
  let s1 := s.setTimebase { s.timebase with tick := nextTick s.timebase.tick }
  let s2 := (tickOrder order s1.voices).foldl State.tickVoice s1
  let s3 := if s1.timebase.tick = 0 then s2.recomputeHeld else s2
  (s3.setTimebase (s3.timebase.driveTest s3.clock)).suspendTests

/-! ### FALLBACK (R41, R42, R44) -/

/-- The divider's phase cleared at an instant (R41). -/
def Timebase.clearPhase (b : Timebase) (at_ : Nat) : Timebase :=
  { b with dividerStart := at_, accumulator := 0, owedTick := false }

/-- Entry to FALLBACK at an instant (R41, R42, R44). -/
def Timebase.enterFallback (b : Timebase) (at_ : Nat) : Timebase :=
  { (b.clearPhase at_) with source := .fallback, qual := 0, prevEdge := none, reference := none
                            lastDivider := none }

/-- The instant at which the current divider period ends (R41). -/
def Timebase.dividerDue (b : Timebase) (rate : SessionRate) : Nat :=
  b.dividerStart + (rate.dividerPeriod b.accumulator).1

/-- The instant of the divider's next tick: that of the owed tick, or the end of the current period (R41, R51).
An owed tick arrived with the load that began the period. -/
def Timebase.tickDue (b : Timebase) (rate : SessionRate) : Nat :=
  if b.owedTick then b.dividerStart else b.dividerDue rate

/-- The timebase at the divider's tick: the period has ended (R41), or the owed tick is taken and the period goes
on (R51, log entry 25). -/
def Timebase.dividerTicked (b : Timebase) (rate : SessionRate) : Timebase :=
  if b.owedTick then { b with lastDivider := some b.dividerStart, owedTick := false }
  else { b with dividerStart := b.dividerDue rate, accumulator := (rate.dividerPeriod b.accumulator).2
                lastDivider := some (b.dividerDue rate) }

/-- The qualification count after an edge at `t` (R42). -/
def Timebase.qualAfter (b : Timebase) (rate : SessionRate) (t : Nat) : Nat :=
  match b.prevEdge with
  | none => 0
  | some e => if rate.inTolerance (t - e) then b.qual + 1 else 0

/-- The 256th edge is itself a tick: the divider's last tick was at least a half period before it (R42, log
entry 15). -/
def Timebase.edgeTicks (b : Timebase) (rate : SessionRate) (t : Nat) : Bool :=
  match b.lastDivider with
  | none => true
  | some e => e + rate.halfPeriod ≤ t

/-- A CLOCK notice, to all stations (R45). -/
def State.reportClock (s : State) (locked : Bool) : State :=
  s.queueNotice 31 (.clock locked s.timebase.tick)

/-- The 256th consecutive in-tolerance edge: the source becomes EXTERNAL (R42). -/
def State.lock (s : State) (rate : SessionRate) (t : Nat) (order : List (BitVec 12)) : State :=
  let s1 := s.setTimebase { s.timebase with
    source := .external, qual := 256, prevEdge := some t, reference := some t, standIn := 0
    owedTick := false }
  (if s.timebase.edgeTicks rate t then s1.tickEvent order else s1).reportClock true

/-- A filtered edge in FALLBACK (R42). -/
def State.fallbackEdge (s : State) (rate : SessionRate) (t : Nat) (order : List (BitVec 12)) : State :=
  let count := s.timebase.qualAfter rate t
  if count < 256 then s.setTimebase { s.timebase with qual := count, prevEdge := some t }
  else s.lock rate t order

/-! ### EXTERNAL (R43, R44) -/

/-- A filtered edge in EXTERNAL: a tick if its period from the reference instant is in range, else ignored
(R43). -/
def State.externalEdge (s : State) (rate : SessionRate) (t : Nat) (order : List (BitVec 12)) : State :=
  match s.timebase.reference with
  | none => s
  | some e =>
    if rate.inTolerance (t - e) then
      (s.setTimebase { s.timebase with reference := some t, standIn := 0 }).tickEvent order
    else s

/-- The instant at which the next stand-in tick falls due: the first cycle past the top of the accepted
range (R43). -/
def standInDue (rate : SessionRate) (reference : Nat) : Nat := reference + rate.accepted.2 + 1

/-- The loss of the word clock at the fourth consecutive stand-in tick (R44). -/
def State.loseClock (s : State) (at_ : Nat) : State :=
  (s.setTimebase (s.timebase.enterFallback at_)).reportClock false

/-- A stand-in tick at an instant (R43, R44). -/
def State.standIn (s : State) (at_ : Nat) (order : List (BitVec 12)) : State :=
  let s1 := (s.setTimebase { s.timebase with
    reference := some at_, standIn := s.timebase.standIn + 1 }).tickEvent order
  if 4 ≤ s1.timebase.standIn then s1.loseClock at_ else s1

/-! ### The DOWNBEAT event (R50, R67) -/

/-- A voice under a load: its dry tick shifted, then recomputed if it is SCHEDULED (R67). -/
def Voice.loaded (v : Voice) (old load : Nat) : Voice :=
  match v.dry with
  | none => v
  | some dry =>
    let w := { v with dry := some (min (tickModulus - 1) (load + currentSlack old dry)) }
    match v.state with
    | .scheduled _ => w.withDry load
    | .armed | .running => w

/-- A divider tick arrives at an instant and has not been taken (R51). -/
def Timebase.tickArrives (b : Timebase) (rate? : Option SessionRate) (at_ : Nat) : Bool :=
  b.source == .fallback && (b.owedTick || rate?.any fun rate => b.dividerDue rate == at_)

/-- The timebase under a load at an instant: the counter, the divider's phase and the drive tick (R50). A divider
tick that arrives with the event and is taken after it stays owed (R51, log entry 25). -/
def Timebase.loadApplied (b : Timebase) (rate? : Option SessionRate) (load at_ : Nat) : Timebase :=
  { (b.clearPhase at_) with
    owedTick := b.tickArrives rate? at_
    tick := load, load := none
    drive := b.drive.filter fun d => decide (load < d) }

/-- Step 1 of a DOWNBEAT event: a pending load is applied (R50, R67). -/
def State.applyLoad (s : State) : State :=
  match s.timebase.load with
  | none => s
  | some load =>
    (s.setTimebase (s.timebase.loadApplied s.rate? load s.clock)).setVoices
      (s.voices.map fun v => v.loaded s.timebase.tick load)

/-- An ARMED voice started at tick `now` (R22). -/
def Voice.started (v : Voice) (now : Nat) : Voice :=
  match v.state with
  | .armed => { v with state := .running, p := 0 }.withDry now
  | .scheduled _ | .running => v

/-- Step 2 of a DOWNBEAT event: every ARMED voice becomes RUNNING (R22, R50). -/
def State.startArmed (s : State) : State :=
  s.setVoices (s.voices.map fun v => v.started s.timebase.tick)

/-- A DOWNBEAT event in CONFIGURED (R50). The read queues take the new dry ticks, and the dies decide over them, once,
after step 2 and not between the steps (log entry 28: the model's choice). -/
def State.downbeat (s : State) : State := ((s.applyLoad).startArmed).syncReads

end Sys2Proof.Machine
end

