-- ==== Sys2Proof/Machine/StationCommands.lean ====
section
/-! DEFINITION. The commands of station setup: power-on reset and CONFIGURE (spec 11). -/

namespace Sys2Proof.Machine

/-- What an abandoned long operation makes of its sectors: those of a log append hold its record, or are erased or
damaged (R15, R104). -/
def LongOp.abandonedCause : LongOp → UnknownCause
  | .program { purpose := .log record, .. } => .abandoned record
  | .program { purpose := .page, .. } | .erase _ => .plain

/-- A program or erase under way or suspended on a die is abandoned: its sectors become unknown (R104). -/
def State.abandonLongOp (s : State) (d : Nat) : State :=
  match (s.die d).state.longOp? with
  | some op => s.scramble (op.sectors d).1 (op.sectors d).2 op.abandonedCause
  | none => s

/-- POWER_ON_RESET (R15, R18, R40, R53, R89, R104, R109, R111, R172): everything but the flash array takes
its reset value; the station number is read from the straps. -/
def execPowerOnReset (straps : BitVec 4) (s : State) : Host.Outcome State Fault Refusal :=
  let s1 := dieNumbers.foldl State.abandonLongOp s
  .next ((State.resetOver straps.toNat s1.media.flash s1.stamp).setPending s.pending)

/-- The configuration that a CONFIGURE's fields give; none where a field is out of range (R173 tests 2
to 5). -/
def configurationOf (rateCode : BitVec 8) (base : BitVec 64) (ringLength primeDepth : BitVec 8) :
    Option Configuration :=
  let r := ringLength.toNat
  match SessionRate.ofCode rateCode.toNat with
  | none => none
  | some rate =>
    if (r = 4 ∨ r = 8 ∨ r = 16 ∨ r = 32) ∧ 1 ≤ primeDepth.toNat ∧ primeDepth.toNat ≤ r ∧
        base.toNat % 4096 = 0 ∧ base.toNat + 4096 * r * 6144 ≤ 2 ^ 64 then
      some { rate := rate, base := base.toNat, ringLength := r, primeDepth := primeDepth.toNat }
    else none

/-- The timebase at a taken CONFIGURE (R53): a DOWNBEAT drive under way completes, and the line is as it
is. -/
def Timebase.configured (b : Timebase) (at_ : Nat) : Timebase :=
  { (b.enterFallback at_) with tick := 0, standIn := 0, load := none, drive := none, readyLow := false }

/-- A taken CONFIGURE (R173). -/
def State.configureTaken (s : State) (c : Configuration) : State :=
  ((s.setTimebase (s.timebase.configured s.clock)).setWatches []).setStation
    { s.station with state := .configured, config := some c }

/-- A CONFIGURE outside STARTING: its tests, in order, and its effect (R173). -/
def State.configureTested (s : State) (sender : Nat) (c : Option Configuration) : State :=
  if !s.voices.isEmpty || !s.claims.bids.isEmpty then s.refuse sender 12 .busy 0
  else
    match c with
    | none => s.refuse sender 12 .badConfig 0
    | some c => s.configureTaken c

/-- CONFIGURE (R53, R173): ignored in STARTING. -/
def execConfigure (t : Nat) (h : Header) (rateCode : BitVec 8) (base : BitVec 64)
    (ringLength primeDepth : BitVec 8) (s : State) : Host.Outcome State Fault Refusal :=
  .next (s.receive t h fun s =>
    match s.station.state with
    | .starting => s
    | .unconfigured | .configured =>
      s.configureTested h.sender.toNat (configurationOf rateCode base ringLength primeDepth))

end Sys2Proof.Machine
end

