-- ==== Sys2Proof/Machine/TimebaseCommands.lean ====
section
/-! DEFINITION. The commands of the timebase and the shared lines (spec 03). -/

namespace Sys2Proof.Machine

/-- What a filtered edge does, by the clock source (R39, R42, R43). -/
def State.edge (s : State) (rate : SessionRate) (t : Nat) (order : List (BitVec 12)) : State :=
  match s.timebase.source with
  | .stopped => s
  | .fallback => s.fallbackEdge rate t order
  | .external => s.externalEdge rate t order

/-- FILTERED_EDGE (R39, R42, R43, R45). The period is measured from the edge's own time `t`. -/
def execFilteredEdge (t : Nat) (order : List (BitVec 12)) (s : State) :
    Host.Outcome State Fault Refusal :=
  let s1 := s.atTime t
  match s1.rate? with
  | some rate => .next (s1.edge rate t order).finish
  | none => .next s1

/-- DIVIDER_TICK (R41, R46, R51): in FALLBACK the divider's current period ends, or the tick that a load has left
owed is taken. -/
def execDividerTick (order : List (BitVec 12)) (s : State) : Host.Outcome State Fault Refusal :=
  match s.timebase.source, s.rate? with
  | .fallback, some rate =>
    let s1 := s.atTime (s.timebase.tickDue rate)
    .next ((s1.setTimebase (s.timebase.dividerTicked rate)).tickEvent order).finish
  | _, _ => .next s

/-- STAND_IN_TICK (R43, R44): in EXTERNAL the accepted range has passed with no edge taken. -/
def execStandInTick (order : List (BitVec 12)) (s : State) : Host.Outcome State Fault Refusal :=
  match s.timebase.source, s.rate?, s.timebase.reference with
  | .external, some rate, some e =>
    .next (((s.atTime (standInDue rate e)).standIn (standInDue rate e) order).finish)
  | _, _, _ => .next s

/-- DOWNBEAT_DRIVE_END (R48): the station releases the line 4 us after its drive began. -/
def execDownbeatDriveEnd (s : State) : Host.Outcome State Fault Refusal :=
  match s.timebase.driving with
  | some start =>
    .next ((s.atTime (start + driveCycles)).setTimebase { s.timebase with driving := none })
  | none => .next s

/-- DOWNBEAT_EVENT (R22, R50, R67): one event for each low pulse; it acts in CONFIGURED. -/
def execDownbeatEvent (t : Nat) (s : State) : Host.Outcome State Fault Refusal :=
  let s1 := s.atTime t
  if s1.timebase.pulseTaken then .next s1
  else
    let s2 := s1.setTimebase { s1.timebase with pulseTaken := true }
    if s2.station.state = .configured then .next s2.downbeat.finish else .next s2

/-- DOWNBEAT_LINE_RISE (R50): the line may fall again. -/
def execDownbeatLineRise (t : Nat) (s : State) : Host.Outcome State Fault Refusal :=
  let s1 := s.atTime t
  .next (s1.setTimebase { s1.timebase with pulseTaken := false })

/-- The pending load that a TIMEBASE leaves (R48): a load value counts in a frame to all stations. -/
def Timebase.withLoad (b : Timebase) (h : Header) (load : Option Nat) : Timebase :=
  match load with
  | some x => if h.addressee = 31#5 then { b with load := some x } else b
  | none => b

/-- The drive tick that a TIMEBASE leaves (R48): a drive tick counts in a frame to this station alone, and
is dropped when the counter has reached it. -/
def Timebase.withDrive (b : Timebase) (h : Header) (drive : Option Nat) : Timebase :=
  match drive with
  | some x => if h.addressee ≠ 31#5 ∧ b.tick < x then { b with drive := some x } else b
  | none => b

/-- The effect of a taken TIMEBASE (R48). -/
def State.timebaseTaken (s : State) (h : Header) (load drive : Option Nat) : State :=
  if s.station.state = .configured then
    s.setTimebase ((s.timebase.withLoad h load).withDrive h drive)
  else s

/-- TIMEBASE (R48). -/
def execTimebase (t : Nat) (h : Header) (flags : BitVec 8) (load drive : BitVec 48) (s : State) :
    Host.Outcome State Fault Refusal :=
  .next (s.receive t h fun s => s.timebaseTaken h (loadOf flags load) (driveOf flags drive))

end Sys2Proof.Machine
end

