-- ==== Sys2Proof/Machine/VoiceCommands.lean ====
section
/-! DEFINITION. The requests for a voice and HALT (spec 09). -/

namespace Sys2Proof.Machine

/-- A request for a tag acts on the owned voice, or on the pending entry, or has no effect (R141). -/
def State.request (s : State) (tag : Nat) (onVoice : Voice → State) (onEntry : Bid → State) : State :=
  match s.voice? tag, s.bid? tag with
  | some v, _ => onVoice v
  | none, some b => onEntry b
  | none, none => s

/-- The position fields after a RATE (R56). -/
def Voice.rated (v : Voice) (target step : Nat) : Voice :=
  { v with target := target, step := step, r := if step = 0 then target else v.r }

/-- The effect of a RATE (R56, R139, R143): the record's position fields, or the entry's initial rate. -/
def State.rateTaken (s : State) (tag target step : Nat) : State :=
  (s.request tag
    (fun v => (s.updateVoice v.tag (·.rated target step)).recomputeDry v.tag)
    (fun b => s.updateBid b.tag fun b => { b with rate := target })).finish

/-- RATE (R55, R56, R139, R143). -/
def execRate (t : Nat) (h : Header) (target : BitVec 24) (step : BitVec 16) (s : State) :
    Host.Outcome State Fault Refusal :=
  .next (s.receive t h fun s => s.rateTaken h.key.toNat (clampRate target.toNat) step.toNat)

/-- The record after a LOOP-EXIT (R71, R149). -/
def Voice.loopExited (v : Voice) : Voice :=
  if v.loopActive then { v with loopActive := false, loopReleased := true } else v

/-- A CUT or FADE at the owner: at once, or held as the pending end (R145, R150). -/
def State.endOrHold (s : State) (v : Voice) (mode : CutOrFade) (atTick : Option Nat) (sender : Nat) :
    State :=
  match atTick with
  | some a =>
    if s.timebase.tick < a then
      s.updateVoice v.tag fun v => { v with pendingEnd := some { mode := mode, atTick := a } }
    else s.applyEnd v mode sender
  | none => s.applyEnd v mode sender

/-- The effect of an END on an owned voice (R145 to R150). -/
def State.endVoice (s : State) (v : Voice) (mode : EndMode) (atTick : Option Nat) (sender : Nat) :
    State :=
  match mode with
  | .loopExit => s.updateVoice v.tag Voice.loopExited
  | .cut => s.endOrHold v .cut atTick sender
  | .fade length => s.endOrHold v (.fade length) atTick sender

/-- The effect of an END (R139, R145). -/
def State.endTaken (s : State) (tag : Nat) (mode : EndMode) (atTick : Option Nat) (sender : Nat) :
    State :=
  (s.request tag (fun v => s.endVoice v mode atTick sender) (fun b => s.dropBid b.tag)).finish

/-- END (R25, R139, R141, R145 to R150); an unlisted mode has no effect (R122). -/
def execEndRequest (t : Nat) (h : Header) (flags : BitVec 8) (fade : BitVec 24) (atTick : BitVec 48)
    (s : State) : Host.Outcome State Fault Refusal :=
  .next (s.receive t h fun s =>
    match endModeOf flags fade with
    | some mode => s.endTaken h.key.toNat mode (atTickOf flags atTick) h.sender.toNat
    | none => s)

/-- The first failing test of a FOLLOW (R151). -/
def State.followRefusal (s : State) (v : Voice) (region start : Nat) : Option Reason :=
  if v.fin.isSome || v.cursor.isNone then some .late
  else if v.follow.isSome then some .slotFull
  else
    match s.region? region with
    | some r =>
      if r.state ≠ .live then some .notHeld
      else if (s.region? v.region).map (·.format) ≠ some r.format then some .format
      else if r.frames ≤ start then some .range
      else none
    | none => some .notHeld

/-- The effect of a FOLLOW on an owned voice (R142, R151, R152). -/
def State.followTaken (s : State) (v : Voice) (region start sender : Nat) : State :=
  match s.followRefusal v region start with
  | some reason => s.refuse sender 5 reason v.tag
  | none =>
    (s.updateVoice v.tag fun v =>
      { v with follow := some { region := region, offset := start } }).addUse region

/-- FOLLOW (R139, R142, R151, R152). -/
def execFollow (t : Nat) (h : Header) (region : BitVec 24) (offset : BitVec 32) (s : State) :
    Host.Outcome State Fault Refusal :=
  .next (s.receive t h fun s =>
    s.request h.key.toNat
      (fun v => s.followTaken v region.toNat (roundSegment offset.toNat) h.sender.toNat)
      (fun _ => s))

/-- The effect of an UNFOLLOW on an owned voice (R153). -/
def State.unfollowTaken (s : State) (v : Voice) : State :=
  match v.follow with
  | some f => (s.updateVoice v.tag fun v => { v with follow := none }).releaseUse f.region
  | none => s

/-- UNFOLLOW (R139, R153). -/
def execUnfollow (t : Nat) (h : Header) (s : State) : Host.Outcome State Fault Refusal :=
  .next (s.receive t h fun s => s.request h.key.toNat s.unfollowTaken (fun _ => s))

/-- The pending load and the drive tick are cleared (R49). -/
def State.clearTimebase (s : State) : State :=
  s.setTimebase { s.timebase with load := none, drive := none }

/-- The effect of a taken HALT (R36, R49, R126, R140, R156). -/
def State.haltTaken (s : State) (sender : Nat) : State :=
  (((((s.retireAll .halted).dropBids).setWatches []).clearTimebase).queueNotice sender
    (.halted s.voices.length)).finish

/-- HALT (R36, R155, R156): ignored in STARTING. -/
def execHalt (t : Nat) (h : Header) (s : State) : Host.Outcome State Fault Refusal :=
  .next (s.receive t h fun s =>
    match s.station.state with
    | .starting => s
    | .unconfigured | .configured => s.haltTaken h.sender.toNat)

end Sys2Proof.Machine
end

