-- ==== Sys2Proof/Machine/Dispatch.lean ====
section
/-! DEFINITION. The dispatch of the commands: one arm each, a direct call of the command's meaning. -/

namespace Sys2Proof.Machine

/-- A command's effect on everything but the queue of waiting commands. -/
def exec (i : Instr) (s : State) : Host.Outcome State Fault Refusal :=
  match i with
  | .powerOnReset straps => Sys2Proof.Machine.execPowerOnReset straps s
  | .logSectorReadEnd t uncorrectable => Sys2Proof.Machine.execLogSectorReadEnd t uncorrectable s
  | .filteredEdge t order => Sys2Proof.Machine.execFilteredEdge t order s
  | .dividerTick order => Sys2Proof.Machine.execDividerTick order s
  | .standInTick order => Sys2Proof.Machine.execStandInTick order s
  | .downbeatDriveEnd => Sys2Proof.Machine.execDownbeatDriveEnd s
  | .downbeatEvent t => Sys2Proof.Machine.execDownbeatEvent t s
  | .busIdle t => Sys2Proof.Machine.execBusIdle t s
  | .frameBegins t kind => Sys2Proof.Machine.execFrameBegins t kind s
  | .arbitrationLost t kind => Sys2Proof.Machine.execArbitrationLost t kind s
  | .bitError t => Sys2Proof.Machine.execBitError t s
  | .frameCutShort t => Sys2Proof.Machine.execFrameCutShort t s
  | .frameDiscarded t frame check => Sys2Proof.Machine.execFrameDiscarded t frame check s
  | .claimWon t => Sys2Proof.Machine.execClaimWon t s
  | .noticeSent t => Sys2Proof.Machine.execNoticeSent t s
  | .claim t h tagField => Sys2Proof.Machine.execClaim t h tagField s
  | .note t h region offset tick rate flags => Sys2Proof.Machine.execNote t h region offset tick rate flags s
  | .endRequest t h flags fade atTick => Sys2Proof.Machine.execEndRequest t h flags fade atTick s
  | .rate t h target step => Sys2Proof.Machine.execRate t h target step s
  | .follow t h region offset => Sys2Proof.Machine.execFollow t h region offset s
  | .unfollow t h => Sys2Proof.Machine.execUnfollow t h s
  | .halt t h => Sys2Proof.Machine.execHalt t h s
  | .timebase t h flags load drive => Sys2Proof.Machine.execTimebase t h flags load drive s
  | .notice t h payload => Sys2Proof.Machine.execNotice t h payload s
  | .probe t h region => Sys2Proof.Machine.execProbe t h region s
  | .install t h region format frames loopStart loopEnd source => Sys2Proof.Machine.execInstall t h region format frames loopStart loopEnd source s
  | .reclaim t h region => Sys2Proof.Machine.execReclaim t h region s
  | .wipe t h => Sys2Proof.Machine.execWipe t h s
  | .configure t h rateCode base ringLength primeDepth => Sys2Proof.Machine.execConfigure t h rateCode base ringLength primeDepth s
  | .bidWindowExpiry tag => Sys2Proof.Machine.execBidWindowExpiry tag s
  | .watchWindowExpiry tag => Sys2Proof.Machine.execWatchWindowExpiry tag s
  | .segmentReadEnd t die bad => Sys2Proof.Machine.execSegmentReadEnd t die bad s
  | .programComplete t die ok => Sys2Proof.Machine.execProgramComplete t die ok s
  | .eraseComplete t die ok => Sys2Proof.Machine.execEraseComplete t die ok s
  | .suspendReported t die report => Sys2Proof.Machine.execSuspendReported t die report s
  | .resumeHoldOffExpiry die => Sys2Proof.Machine.execResumeHoldOffExpiry die s
  | .postingEnd t => Sys2Proof.Machine.execPostingEnd t s
  | .linkUp t => Sys2Proof.Machine.execLinkUp t s
  | .linkDown t => Sys2Proof.Machine.execLinkDown t s
  | .installReadDone t bytes => Sys2Proof.Machine.execInstallReadDone t bytes s
  | .installReadError t => Sys2Proof.Machine.execInstallReadError t s
  | .installReadTimeout => Sys2Proof.Machine.execInstallReadTimeout s
  | .downbeatLineRise t => Sys2Proof.Machine.execDownbeatLineRise t s

end Sys2Proof.Machine
end

