-- ==== Sys2Proof/Machine/Step.lean ====
section
/-! DEFINITION. The step of the station: the command at the front of the queue is carried out. -/

namespace Sys2Proof.Machine

/-- The command that a table word spells is put at the front of the queue; a word that spells none leaves
the state as it is (log entry 4). -/
def State.withFetchWord (s : State) (nbits w : Nat) : State :=
  match decodeTableWord nbits w with
  | some i => s.setPending (i :: s.pending)
  | none => s

/-- One step: the front command leaves the queue and takes effect; with no command waiting the station idles
(log entry 3). -/
def step (s : State) : Host.Outcome State Fault Refusal :=
  match s.pending with
  | [] => .next s
  | i :: rest => exec i (s.setPending rest)

end Sys2Proof.Machine
end

