-- ==== Sys2Proof/Safety.lean ====
section
/-! DEFINITION. What a safe state is: the laws that the spec says hold at every moment. Each is a property of
one state; the statements about them say that every step keeps them. -/

namespace Sys2Proof.Machine

/-! ### Voices -/

/-- A rate lies between 4,096 and 524,288 (R55). -/
def rateLawful (x : Nat) : Prop := 4096 ≤ x ∧ x ≤ 524288

/-- Every rate and target rate the station holds is lawful (R55). -/
def State.ratesLawful (s : State) : Prop :=
  (∀ v ∈ s.voices, rateLawful v.r ∧ rateLawful v.target) ∧ ∀ b ∈ s.claims.bids, rateLawful b.rate

/-- d = n with nothing in flight, and d = n - 1 with segment n - 1 in flight (R70). -/
def Voice.indicesLawful (v : Voice) : Prop :=
  match v.inFlight with
  | none => v.d = v.n
  | some j => v.n = j + 1 ∧ v.d = j

/-- FILLING and LATE voices hold a dry tick, a LATE one has a segment in flight, a COMPLETE one has neither
(R23, R64, R81, R83). -/
def Voice.fillLawful (v : Voice) : Prop :=
  match v.fill with
  | .filling => v.dry.isSome
  | .late => v.dry.isSome ∧ v.inFlight.isSome
  | .complete => v.dry = none ∧ v.inFlight = none

/-- Every voice's ring indices and fill status agree (R70, R81, R83). -/
def State.fillsLawful (s : State) : Prop := ∀ v ∈ s.voices, v.indicesLawful ∧ v.fillLawful

/-- A voice with its end present has an empty follow slot; a cursor at rest and a COMPLETE fill mean an end
present (R23, R75, R148). -/
def Voice.endLawful (v : Voice) : Prop :=
  (v.fin.isSome → v.follow = none) ∧ (v.cursor = none → v.fin.isSome) ∧
    (v.fill = .complete → v.fin.isSome)

/-- Every voice's end, cursor and follow slot agree (R23, R75, R148). -/
def State.endsLawful (s : State) : Prop := ∀ v ∈ s.voices, v.endLawful

/-- At most 512 in-use records, each with a number of its own below 512, and no two with one tag; no two bid
entries with one tag, and none for a tag that a record carries (R18, R125, R127). -/
def State.tagsLawful (s : State) : Prop :=
  (s.voices.map (·.tag)).Nodup ∧ (s.voices.map (·.record)).Nodup ∧ (∀ v ∈ s.voices, v.record < 512) ∧
    (s.claims.bids.map (·.tag)).Nodup ∧ ∀ v ∈ s.voices, ∀ b ∈ s.claims.bids, v.tag ≠ b.tag

/-! ### Queues and lists -/

/-- The capacities of the bid list, the watch list, the notice queue, its two counts and the work list (R125,
R126, R158, R178, R179). -/
def State.withinCapacity (s : State) : Prop :=
  s.claims.bids.length ≤ 16 ∧ s.claims.watches.length ≤ 16 ∧ s.notices.queue.length ≤ 32 ∧
    s.notices.loss ≤ 15 ∧ s.notices.offerCount ≤ 4 ∧ s.installer.work.length ≤ 4

/-! ### Segment buffers -/

/-- The buffers a die's work holds: one for the read it performs, one for each read kept for a re-read
(R95). -/
def Die.buffers (die : Die) : Nat :=
  (if die.state.activeRead?.isSome then 1 else 0) + (die.reads.filter (·.kept)).length

/-- The buffers in use: on the dies, in the delivery queue, and posting (R95). -/
def State.buffersInUse (s : State) : Nat :=
  (s.media.dies.map Die.buffers).sum + s.delivery.queue.length +
    (if s.delivery.posting.isSome then 1 else 0)

/-- Every one of the 24 buffers is free or in use (R95). -/
def State.buffersLawful (s : State) : Prop := s.media.freeBuffers + s.buffersInUse = 24

/-! ### Lines, bus and flash -/

/-- READY is pulled low exactly while the station is CONFIGURED with an ARMED voice unprimed (R52). -/
def State.readyLawful (s : State) : Prop := s.timebase.readyLow = s.readyWanted

/-- The station drives the bus only while a frame is on it, other stations' frame is known only then, and a SENDING
entry's CLAIM is the frame driven (R114, R117, R125). -/
def State.portLawful (s : State) : Prop :=
  (s.port.sending.isSome → ∃ kind, s.port.bus = .receiving kind) ∧
    (s.port.rival.isSome → ∃ kind, s.port.bus = .receiving kind) ∧
    (∀ b ∈ s.claims.bids, b.offer = .sending → ∃ f, s.port.sending = some (.claim b.tag f)) ∧
    (s.claims.bids.map (·.tag)).Nodup

/-- The flash array's cell list has its canonical form: addresses rising, no erased byte listed. -/
def State.flashLawful (s : State) : Prop := Memory.wf s.media.flash.cells

/-- Each read queue is in ascending dry tick, equal dry ticks by the lower tag (R92). -/
def State.readsLawful (s : State) : Prop :=
  ∀ die ∈ s.media.dies, die.reads.Pairwise fun a b => a.dry < b.dry ∨ (a.dry = b.dry ∧ a.tag ≤ b.tag)

/-- No failure of a program turned away waits to be handed on (R102). -/
def State.settled (s : State) : Prop := s.media.frontFailed = []

/-! ### Regions and their uses -/

/-- The uses of a region id: the bid entries, the current regions of in-use records and the held follow slots that name
it (R9). -/
def State.usesOf (s : State) (id : Nat) : Nat :=
  s.claims.bids.countP (·.region == id) + s.voices.countP (·.region == id) +
    s.voices.countP (·.follow.any (·.region == id))

/-- The region an INSTALL item names; none for another item. -/
def WorkItem.installs? : WorkItem → Option Nat
  | .install i => some i.region
  | .reclaim .. | .wipe .. => none

/-- A work item that waits behind the head: no INSTALL of it has begun and no RECLAIM of it is RUNNING (R158). -/
def WorkItem.waits : WorkItem → Bool
  | .install i => i.phase == .waiting && i.extents.isEmpty
  | .reclaim _ _ running => !running
  | .wipe .. => true

/-- The in-use count of each region is the number of its uses, and every use names a region of the table (R6, R9). What
that rests on: ids in the table and under install are distinct and the pending ones are those of the work list (R6,
R7), a DEPARTING region has no use, and the region of a RUNNING RECLAIM is DEPARTING (R8, R168), only the head of the
work list has begun (R158), and while the station is STARTING, as it is throughout the scan, it holds no voice, entry or
item (R15, R172). -/
structure State.usesLawful (s : State) : Prop where
  counted   : ∀ r ∈ s.catalogue.regions, r.inUse = s.usesOf r.id
  named     : ∀ id, 0 < s.usesOf id → (s.region? id).isSome
  distinct  : (s.installer.work.filterMap WorkItem.installs? ++ s.catalogue.regions.map (·.id)).Nodup
  pending   : s.catalogue.pendingInstalls = s.installer.work.filterMap WorkItem.installs?
  departing : ∀ r ∈ s.catalogue.regions, r.state = .departing → r.inUse = 0
  removal   : ∀ sender id, s.installer.work.head? = some (.reclaim sender id true) →
    ∃ r ∈ s.catalogue.regions, r.id = id ∧ r.state = .departing
  waiting   : ∀ w ∈ s.installer.work.tail, w.waits
  scanning  : s.catalogue.scan.isSome → s.station.state = .starting
  starting  : s.station.state = .starting → s.voices = [] ∧ s.claims.bids = [] ∧ s.installer.work = []

/-! ### Blocks and their pages -/

/-- The extents of the head INSTALL item, for which pages have been programmed and no region is in the table yet (R163);
none with another head. -/
def State.runningExtents (s : State) : List Extent :=
  match s.installer.work.head? with
  | some (.install i) => i.extents
  | some (.reclaim ..) | some (.wipe ..) | none => []

/-- The head of the work list is an INSTALL item in the given phase. -/
def State.headIn (s : State) (phase : InstallPhase) : Prop :=
  ∃ i, s.installer.work.head? = some (.install i) ∧ i.phase = phase

/-- The block table lists record `k` for block `b` of die `d` (R10). -/
def State.lists (s : State) (d b : Nat) (k : Block) : Prop := (s.dieBlocks d).blocks[b]? = some k

/-- The block an erase names; none for a program. -/
def LongOp.erases? : LongOp → Option Nat
  | .erase b => some b
  | .program _ => none

/-- The program of a page of a region; none for a log append or an erase. -/
def LongOp.page? : LongOp → Option Program
  | .program p => if p.purpose = .page then some p else none
  | .erase _ => none

/-- The long operations of a die: under way or suspended, and waiting. -/
def Die.ops (die : Die) : List LongOp := die.state.longOp?.toList ++ die.longOps

/-- The erases that a die holds of blocks other than LOG ones. -/
def State.erasesOn (s : State) (d : Nat) : List Nat :=
  ((s.die d).ops.filterMap LongOp.erases?).filter fun b => (s.block d b).state != .log

/-- The running install programs its page in an OPEN block of its die by `p`, on die `d` (R163). -/
def State.installsBy (s : State) (d : Nat) (p : Program) : Prop :=
  ∃ i next, s.installer.work.head? = some (.install i) ∧ i.phase = .programming ∧ i.die = d ∧
    (s.block d p.block).state = .opened next

/-- The live page count of each block that is no LOG block is the number of its pages that lie in extents of regions of
the table, once the scan has ended; the pending page count is that of the running install's pages (R10, R12). What that
rests on: a QUEUED or ERASING block has no page counted, each erase is of one such block and of no other's, free blocks
are FREE and stand on the list once (R10, R11), an IDLE die holds no long operation (R94), a page program is the one of
the running install, or that of an ended one, which holds the page buffer and is under way (R163, R166), an install
read belongs to an install in READING (R162), and while the station is STARTING no die holds a long operation (R16). -/
structure State.pagesLawful (s : State) : Prop where
  live     : s.station.state ≠ .starting → ∀ d b k, d < 8 → s.lists d b k → k.state ≠ .log →
    k.live = pagesIn (s.catalogue.regions.flatMap (·.extents)) d b
  pending  : ∀ d b k, s.lists d b k → k.state ≠ .log → k.pending = pagesIn s.runningExtents d b
  dead     : ∀ d b k, s.lists d b k → k.state = .queued ∨ k.state = .erasing →
    k.live = 0 ∧ k.pending = 0
  erases   : ∀ d, (s.erasesOn d).Nodup ∧
    ∀ b ∈ s.erasesOn d, (s.block d b).state = .queued ∨ (s.block d b).state = .erasing
  free     : ∀ d, (s.dieBlocks d).free.Nodup ∧ ∀ b ∈ (s.dieBlocks d).free, (s.block d b).state = .free
  idle     : ∀ die ∈ s.media.dies, die.state = .idle → die.longOps = []
  onePage  : (s.media.dies.flatMap fun die => die.ops.filterMap LongOp.page?).length ≤ 1
  queued   : ∀ d, ∀ p ∈ (s.die d).longOps.filterMap LongOp.page?, s.installsBy d p
  underWay : ∀ d p, ((s.die d).state.longOp?.bind LongOp.page?) = some p → s.installsBy d p ∨
    s.installer.held = true ∧
      ((s.block d p.block).state = .erasing ∨ ∃ next, (s.block d p.block).state = .opened next)
  held     : s.installer.held = true → ∀ i, s.installer.work.head? = some (.install i) → i.phase = .waiting
  reading  : s.delivery.installRead.isSome → s.headIn .reading
  starting : s.station.state = .starting → s.installer.held = false ∧ ∀ die ∈ s.media.dies, die.ops = []

/-- A run of the station is safe while each law holds. -/
structure State.Safe (s : State) : Prop where
  rates    : s.ratesLawful
  fills    : s.fillsLawful
  ends     : s.endsLawful
  tags     : s.tagsLawful
  capacity : s.withinCapacity
  buffers  : s.buffersLawful
  ready    : s.readyLawful
  port     : s.portLawful
  flash    : s.flashLawful
  reads    : s.readsLawful
  settled  : s.settled
  uses     : s.usesLawful
  pages    : s.pagesLawful

/-! ### Vocabulary of the statements -/

/-- The port is receiving a frame that other stations send, of whatever kind, and no watch has fallen due (R118,
R138). -/
def State.receiving (s : State) : Prop :=
  (∃ kind, s.port.bus = .receiving kind) ∧ s.port.sending = none ∧ ∀ w ∈ s.claims.watches, w.due = false

/-- The port is receiving a frame that the addressee filter lets pass (R118, R120). -/
def State.takes (s : State) (h : Header) : Prop :=
  s.receiving ∧ (h.addressee.toNat = s.station.number ∨ h.addressee = 31#5)

/-- The station once a frame that it was receiving has ended at time `t` (R111). -/
def State.frameEnded (s : State) (t : Nat) : State :=
  { s with clock := max s.clock t, port := { bus := .skipping, sending := none } }

/-- The command makes a tick event: the divider's tick in FALLBACK, a stand-in tick or an edge in range in EXTERNAL,
or the locking edge in FALLBACK that is a tick (R41 to R43, R46). -/
def State.ticksBy (s : State) (rate : SessionRate) : Instr → Prop
  | .dividerTick _ => s.timebase.source = .fallback
  | .standInTick _ => s.timebase.source = .external ∧ s.timebase.reference.isSome
  | .filteredEdge t _ =>
    (s.timebase.source = .external ∧ ∃ e, s.timebase.reference = some e ∧
      rate.accepted.1 ≤ t - e ∧ t - e ≤ rate.accepted.2) ∨
    (s.timebase.source = .fallback ∧ 255 ≤ s.timebase.qual ∧
      (∃ e, s.timebase.prevEdge = some e ∧ rate.accepted.1 ≤ t - e ∧ t - e ≤ rate.accepted.2) ∧
      ∀ e, s.timebase.lastDivider = some e → e + rate.halfPeriod ≤ t)
  | _ => False

/-- The command by which a long operation under way on die `d` ends at time `t` with a result: its completion, or the
report that it had completed before the suspend took hold (R101, R103, R106). -/
def State.opEnds (s : State) (t d : Nat) (op : LongOp) (ok : Bool) (c : Instr) : Prop :=
  ((s.die d).state = .busy op ∧ c = match op with
    | .program _ => .programComplete t d ok
    | .erase _ => .eraseComplete t d ok) ∨
  ((s.die d).state = .suspendPending op ∧ c = .suspendReported t d (.completed ok))

/-- From `s` to `u`, in which no notice leaves the queue, notice `n` has joined the queue, or has been dropped from a
full one with the loss count raised (R178). -/
def State.told (s u : State) (n : Notice) : Prop :=
  n ∈ u.notices.queue.drop s.notices.queue.length ∨
    (32 ≤ u.notices.queue.length ∧ min 15 (s.notices.loss + 1) ≤ u.notices.loss)

/-- A report of one kind and tag merged into an earlier one: an UNDERRUN keeps its gap start and adds lengths and
counts, a MEDIA keeps its region id and adds sectors (R178). -/
def NoticeBody.mergesTo : NoticeBody → NoticeBody → NoticeBody → Prop
  | .underrun tag start length count, .underrun tag' _ length' count', m =>
      tag' = tag ∧ m = .underrun tag start (length + length') (count + count')
  | .media tag region sectors, .media tag' _ sectors', m =>
      tag' = tag ∧ m = .media tag region (sectors + sectors')
  | _, _, _ => False

/-- The in-use count of a region, if the region is in the table (R9). -/
def State.uses? (s : State) (id : Nat) : Option Nat := (s.region? id).map (·.inUse)

/-- From `s` to `u` an UNDERRUN of voice `v` is reported; with no open UNDERRUN for its tag in the queue the report is a
notice of its own (R86, R178). -/
def State.toldUnderrun (s u : State) (v : Voice) (gapStart gapLength count : Nat) : Prop :=
  (∀ n ∈ s.notices.queue, n.isOpen → n.body.mergeKey ≠ some (false, v.tag)) →
    s.told u { addressee := v.requester, body := .underrun v.tag gapStart gapLength count, isOpen := true }

/-- From `s` to `u` the cursor of voice `v`, on segment `k` of region `r` with ring segment `n` put in flight or passed
over, makes the advance that `w` shows (R72). It wraps at the end of an active loop, goes to the next segment, stitches
into the held follow region with STITCH sent (R74), or comes to rest at the region end, with an absent end fixed and
ENDPOINT sent (R75). -/
def State.cursorAdvances (s u : State) (v w : Voice) : Prop :=
  ∀ k r segments (wraps : Prop), v.cursor = some k → s.region? v.region = some r →
    segments = (r.frames + 1023) / 1024 →
    (wraps ↔ v.loopActive = true ∧ ∃ l, r.loop = some l ∧ k + 1 = l.stop / 1024) →
    (wraps → ∀ l, r.loop = some l → w.cursor = some (l.start / 1024)) ∧
    (¬wraps → k + 1 < segments → w.cursor = some (k + 1)) ∧
    (wraps ∨ k + 1 < segments →
      w.region = v.region ∧ w.follow = v.follow ∧ w.loopActive = v.loopActive ∧ w.fin = v.fin) ∧
    (¬wraps → segments ≤ k + 1 → ∀ f, v.follow = some f →
      w.region = f.region ∧ w.cursor = some (f.offset / 1024) ∧ w.follow = none ∧ w.fin = v.fin ∧
      (w.loopActive = true ↔ v.loopRequest = true ∧ v.loopReleased = false ∧
        ∃ x l, s.region? f.region = some x ∧ x.loop = some l) ∧
      u.uses? v.region = (s.uses? v.region).map (· - 1) ∧
      s.told u { addressee := v.requester, isOpen := false
                 body := .stitch v.tag f.region (v.s0 + 1024 * (v.n + 1)) }) ∧
    (¬wraps → segments ≤ k + 1 → v.follow = none → w.region = v.region ∧ w.cursor = none ∧
      (v.fin.isSome → w.fin = v.fin) ∧
      (v.fin = none → ∀ e : VoiceEnd,
        e = { frame := v.s0 + 1024 * v.n + (r.frames - 1024 * (segments - 1))
              cause := if v.loopReleased then .loopExit else .regionEnd } →
        w.fin = some e ∧
        s.told u { addressee := v.requester, body := .endpoint v.tag e.frame e.cause, isOpen := false }))

/-- From `s` to `u` voice `v`, with nothing in flight and its position at frame `floorP`, has skipped and become `w`
(R84 to R86). It has passed over the ring segments up to the one that holds frame `floorP` + 4, or to the region's last;
the gap from `gapStart` is reported; then its fill is COMPLETE, or it is FILLING and may have issued a segment. With no
loop active the cursor has gone on by as many segments, and past the last one it has stitched (R74) or come to rest
(R75). -/
def State.skips (s u : State) (v w : Voice) (floorP gapStart count : Nat) : Prop :=
  ∀ target, target = (floorP + 4 - v.s0) / 1024 →
    w.fill ≠ .late ∧ w.dryFrame = none ∧
    (w.n = w.d ∧ w.inFlight = none ∨ w.n = w.d + 1 ∧ w.inFlight = some w.d) ∧
    v.d < w.d ∧ w.d ≤ target + 1 ∧ (w.cursor ≠ none → w.d = target + 1) ∧
    s.toldUnderrun u v gapStart (v.s0 + 1024 * w.d - gapStart) count ∧
    ∀ k r segments last, v.cursor = some k → s.region? v.region = some r → v.loopActive = false →
      segments = (r.frames + 1023) / 1024 → k < segments → last = k + (target + 1 - v.d) →
      (last + 1 < segments → w.region = v.region ∧ w.d = target + 1 ∧
        w.cursor = some (last + (w.n - w.d))) ∧
      (segments ≤ last → v.follow = none →
        w.region = v.region ∧ w.cursor = none ∧ w.d = v.d + (segments - k) ∧ w.fill = .complete ∧ w.dry = none ∧
        (v.fin.isSome → w.fin = v.fin) ∧
        (v.fin = none → ∀ e : VoiceEnd,
          e = { frame := v.s0 + 1024 * (w.d - 1) + (r.frames - 1024 * (segments - 1))
                cause := if v.loopReleased then .loopExit else .regionEnd } →
          w.fin = some e ∧
          s.told u { addressee := v.requester, body := .endpoint v.tag e.frame e.cause, isOpen := false })) ∧
      (segments ≤ last → ∀ f, v.follow = some f → w.region = f.region ∧ w.follow = none ∧
        s.told u { addressee := v.requester, isOpen := false
                   body := .stitch v.tag f.region (v.s0 + 1024 * (v.d + (segments - k))) })

/-- Die `x`, with no long operation waiting, has ended its read with `queue` as its read queue and `free` buffers free;
`w` and `free'` are what its next decision at tick `now` leaves (R94, R98, R107). It performs the head, from SUSPENDED
only one due within 8,192 ticks: with the head's own kept buffer, a free one, or the one kept nearest the tail of the
queue; with no buffer to be had it waits. From SUSPENDED with no such head it resumes. -/
def Die.decides (x w : Die) (queue : List ReadRequest) (free free' now clock : Nat) : Prop :=
  ∀ (rest : DieState) (reading : ActiveRead → DieState) (a : ActiveRead),
    (x.state = .read a ∧ rest = .idle ∧ reading = .read ∨
      ∃ op, x.state = .suspendedRead op a ∧ rest = .suspended op ∧ reading = .suspendedRead op) →
    (∀ op, rest = .suspended op → (∀ h, queue.head? = some h → 8192 < h.dry - now) →
      w = { x with state := .busy op, lastResume := some clock, reads := queue } ∧ free' = free) ∧
    (rest = .idle → queue = [] → w = { x with state := .idle, reads := [] } ∧ free' = free) ∧
    ∀ h tail, queue = h :: tail → rest = .idle ∨ h.dry - now ≤ 8192 →
      (h.kept = true →
        w = { x with state := reading { req := h, discarded := false }, reads := tail } ∧ free' = free) ∧
      (h.kept = false → 0 < free →
        w = { x with state := reading { req := h, discarded := false }, reads := tail } ∧ free' = free - 1) ∧
      (h.kept = false → free = 0 → ∀ before k after, tail = before ++ k :: after → k.kept = true →
        (∀ y ∈ after, y.kept = false) → free' = 0 ∧
        w = { x with state := reading { req := h, discarded := false }
                     reads := before ++ { k with kept := false } :: after }) ∧
      (h.kept = false → free = 0 → (∀ y ∈ tail, y.kept = false) →
        w = { x with state := rest, reads := queue } ∧ free' = 0)

/-- Log sector `n` reads as erased (R15, R100): every byte is, and neither a failed log program has passed it over nor,
where its contents are unknown, is it reported uncorrectable (log entry 27). -/
def Flash.readsErased (f : Flash) (n : Nat) (bad : Bool) : Prop :=
  (∀ i, i < 512 → f.read (n * 512 + i) = 0xFF#8) ∧ f.cause? n ≠ some .passedOver ∧
    (bad = true → f.cause? n = none)

/-- The record that the scan finds in log sector `n`, which does not read as erased (R15): none in an uncorrectable one
or in one passed over, and that of the append or none where a reset abandoned an append (log entry 27). -/
def Flash.recordAt (f : Flash) (n : Nat) (bad : Bool) : LogRecord :=
  match bad, f.cause? n with
  | true, _ => .other
  | false, some .passedOver => .other
  | false, some (.abandoned record) => if f.sector n = record then parseRecord record else .other
  | false, some .plain | false, none => parseRecord (f.sector n)

/-- The region table takes a log record (R15): an INSTALL record with fields in range, of a new id, with its pages free
and room in the table, or a VOID record of an id in the table. -/
def State.takesRecord (s : State) : LogRecord → Bool
  | .install r => r.valid && (s.region? r.id).isNone && !s.overlapsTable r &&
      decide (s.catalogue.regions.length < 8192)
  | .void id => (s.region? id).isSome
  | .other => false

/-- The region table after a log record (R15). -/
def State.replayed (s : State) (record : LogRecord) : List Region :=
  if s.takesRecord record then
    match record with
    | .install r => s.catalogue.regions ++ [r]
    | .void id => s.catalogue.regions.filter (fun r => r.id != id)
    | .other => s.catalogue.regions
  else s.catalogue.regions

end Sys2Proof.Machine
end

