-- ==== Sys2Proof/Certificates/Slice0/Obligations.lean ====
section
/-! DEFINITION. The statements for the provers. Each says what a command of the station does, or a law that
every step keeps. `exec c s = .next t` reads: command `c`, carried out in state `s`, leaves state `t`. Where a
statement ends in `.finish`, the step closes as the statements about READY and the offer choice say. -/

open Sys2Proof Sys2Proof.Machine

/-! ### The machine -/

/-- A step carries out the command at the front of the queue, on the state with the queue's rest; with no
command waiting it changes nothing (log entry 3: the model's choice). -/
def Obligations.StepTakesFrontCommand : Prop :=
  (∀ (s : State) (c : Instr) (rest : List Instr), s.pending = c :: rest →
    step s = exec c { s with pending := rest }) ∧
  ∀ s : State, s.pending = [] → step s = .next s

/-- Every command is carried out in every state and answers a next state, and the queue of waiting commands is left
as it is. Both are the model's choice: a command that cannot arise in the present state answers that state with
another clock at most (log entry 2), and only the step takes commands from the queue (log entry 4). -/
def Obligations.EveryCommandCompletes : Prop :=
  ∀ (c : Instr) (s : State), ∃ t, exec c s = .next t ∧ t.pending = s.pending

/-- What the other commands leave alone: only POWER_ON_RESET, CONFIGURE and LOG_SECTOR_READ_END change station
setup (R172, R173); only POWER_ON_RESET and the ends of long operations change the flash (R101, R103, R104);
only POWER_ON_RESET and the two link commands change the link's state (R174); only the commands listed last
change the voice table, and only the timebase's own commands, CONFIGURE, HALT and POWER_ON_RESET change more of
the timebase than the READY drive (R46 to R53). -/
def Obligations.CommandsStayInTheirBlocks : Prop :=
  ∀ (c : Instr) (s t : State), exec c s = .next t →
    (match c with
      | .powerOnReset _ | .logSectorReadEnd .. | .configure .. => True
      | _ => t.station = s.station) ∧
    (match c with
      | .powerOnReset _ | .programComplete .. | .eraseComplete .. | .suspendReported .. => True
      | _ => t.media.flash = s.media.flash) ∧
    (match c with
      | .powerOnReset _ | .linkUp _ | .linkDown _ => True
      | _ => t.delivery.link = s.delivery.link) ∧
    (match c with
      | .powerOnReset _ | .filteredEdge .. | .dividerTick _ | .standInTick _ | .downbeatDriveEnd
      | .downbeatEvent _ | .downbeatLineRise _ | .timebase .. | .configure .. | .halt .. => True
      | _ => t.timebase = { s.timebase with readyLow := t.timebase.readyLow }) ∧
    (match c with
      | .powerOnReset _ | .filteredEdge .. | .dividerTick _ | .standInTick _ | .downbeatEvent _
      | .claimWon _ | .claim .. | .note .. | .endRequest .. | .rate .. | .follow .. | .unfollow ..
      | .halt .. | .postingEnd _ | .linkDown _ => True
      | _ => t.voices = s.voices)

/-- What power-on reset leaves, block by block (R15, R18, R53, R89, R95, R111, R125, R126, R158, R172, R174,
R175, R178). Die 0 performs the scan's first log sector read (log entry 6). -/
def Obligations.ResetLeavesTheStationStarting : Prop :=
  State.reset.station.state = .starting ∧ State.reset.station.config = none ∧
  State.reset.port = { bus := .seeking, sending := none } ∧
  State.reset.claims = { bids := [], watches := [] } ∧ State.reset.voices = [] ∧
  (State.reset.timebase.source = .stopped ∧ State.reset.timebase.tick = 0 ∧
    State.reset.timebase.qual = 0 ∧ State.reset.timebase.prevEdge = none ∧
    State.reset.timebase.standIn = 0 ∧ State.reset.timebase.load = none ∧
    State.reset.timebase.drive = none ∧ State.reset.timebase.driving = none ∧
    State.reset.timebase.owedTick = false ∧
    State.reset.timebase.readyLow = false) ∧
  (State.reset.media.freeBuffers = 24 ∧ State.reset.media.dies.length = 8 ∧
    (∀ d, 0 < d → d < 8 → State.reset.die d = { state := .idle, lastResume := none, reads := []
                                                longOps := [] }) ∧
    State.reset.die 0 = { state := .logRead 0, lastResume := none, reads := [], longOps := [] }) ∧
  (State.reset.catalogue.regions = [] ∧ State.reset.catalogue.owed = 0 ∧
    State.reset.catalogue.pendingInstalls = [] ∧
    State.reset.catalogue.scan = some { sector := 0, skipped := 0 } ∧
    (∀ d, (State.reset.dieBlocks d).free = []) ∧
    (∀ b, b < 8 → State.reset.block 0 b = { state := .log, live := 0, pending := 0 }) ∧
    (∀ d b, d < 8 → b < 2048 → ¬(d = 0 ∧ b < 8) →
      State.reset.block d b = { state := .unset, live := 0, pending := 0 })) ∧
  State.reset.installer.work = [] ∧
  State.reset.delivery = { link := .down, queue := [], posting := none, installRead := none } ∧
  State.reset.notices.queue = [] ∧ State.reset.notices.loss = 0

/-- POWER_ON_RESET (R104, R111, R172): with no long operation under way or suspended, everything but the flash array
takes its reset value, and the station number is read from the straps; with one, the sectors of that operation read
as unknown bytes and every other byte as before, and the sector of a log append keeps the mark of its record (R15). The
model's stamp and queue are kept. The model's choices: what the reset clears that the spec gives no value (log entry 9),
unknown bytes as free values (7), and the mark (27). -/
def Obligations.PowerOnResetKeepsTheFlash : Prop :=
  ∀ (s : State) (straps : BitVec 4),
    ((∀ d, d < 8 → (s.die d).state.longOp? = none) →
      exec (.powerOnReset straps) s = .next { State.reset with
        station := { state := .starting, number := straps.toNat, config := none }
        media := { State.reset.media with flash := s.media.flash }
        stamp := s.stamp, pending := s.pending }) ∧
    ∀ (d : Nat) (op : LongOp), d < 8 → (s.die d).state.longOp? = some op →
      (∀ e, e < 8 → e ≠ d → (s.die e).state.longOp? = none) →
      ∃ t, exec (.powerOnReset straps) s = .next t ∧ t.station.state = .starting ∧
        (∀ p record, op = .program p → p.purpose = .log record → 0 < p.count →
          t.media.flash.cause? (op.sectors d).1 = some (.abandoned record)) ∧
        ∀ a, t.media.flash.read a =
          if (op.sectors d).1 ≤ a / 512 ∧ a / 512 < (op.sectors d).1 + (op.sectors d).2
          then Config.freeByte s.stamp a else s.media.flash.read a

/-! ### Timebase -/

/-- FILTERED_EDGE (R39, R42, R43). In STOPPED it is not measured. In FALLBACK the first edge becomes the previous
edge, an in-tolerance period raises the count, any other clears it, and at 256 the source becomes EXTERNAL; the
256th edge is a tick when the divider's last tick was at least a half period before it. In EXTERNAL an edge in range
of the reference instant is a tick and the new reference, and one below the range is ignored. The lock queues a
CLOCK notice LOCKED to all stations with the counter's value after it (R45). The half-period test and the edge's own
time are log entries 1 and 15. -/
def Obligations.EdgesQualifyLockAndTick : Prop :=
  (∀ (s : State) (t : Nat) (order : List (BitVec 12)), s.timebase.source = .stopped →
    ∃ u, exec (.filteredEdge t order) s = .next u ∧ u.voices = s.voices ∧ u.station = s.station ∧
      u.timebase = { s.timebase with readyLow := u.timebase.readyLow }) ∧
  ∀ (s : State) (t : Nat) (order : List (BitVec 12)) (c : Configuration), s.station.config = some c →
    (s.timebase.source = .fallback → ∀ count,
      count = (match s.timebase.prevEdge with
        | none => 0
        | some e => if c.rate.accepted.1 ≤ t - e ∧ t - e ≤ c.rate.accepted.2 then s.timebase.qual + 1
            else 0) →
      (count < 256 → exec (.filteredEdge t order) s = .next (State.finish { s with
        clock := max s.clock t
        timebase := { s.timebase with qual := count, prevEdge := some t } })) ∧
      (256 ≤ count → ∃ u, exec (.filteredEdge t order) s = .next u ∧ u.station = s.station ∧
        u.clock = max s.clock t ∧ u.claims.watches = s.claims.watches ∧
        s.told u { addressee := 31, body := .clock true u.timebase.tick, isOpen := false } ∧
        u.timebase.source = .external ∧ u.timebase.reference = some t ∧ u.timebase.standIn = 0 ∧
        u.timebase.load = s.timebase.load ∧ u.timebase.tick =
          match s.timebase.lastDivider with
          | some e => if e + c.rate.halfPeriod ≤ t then (s.timebase.tick + 1) % 2 ^ 48 else s.timebase.tick
          | none => (s.timebase.tick + 1) % 2 ^ 48)) ∧
    (s.timebase.source = .external → ∀ e, s.timebase.reference = some e →
      (c.rate.accepted.1 ≤ t - e → t - e ≤ c.rate.accepted.2 →
        ∃ u, exec (.filteredEdge t order) s = .next u ∧ u.station = s.station ∧
          u.clock = max s.clock t ∧ u.claims.watches = s.claims.watches ∧
          u.timebase.source = .external ∧ u.timebase.reference = some t ∧ u.timebase.standIn = 0 ∧
          u.timebase.load = s.timebase.load ∧ u.timebase.tick = (s.timebase.tick + 1) % 2 ^ 48) ∧
      (t - e < c.rate.accepted.1 →
        exec (.filteredEdge t order) s = .next (State.finish { s with clock := max s.clock t })))

/-- DIVIDER_TICK in FALLBACK (R41, R46, R48, R51): the period is long when the accumulator, having gained the step,
reaches 147; the counter advances by one and passes from 2^48 - 1 to 0; a drive begins when the counter equals the
drive tick. A tick that a load has left owed is taken at the instant of that load, and the period goes on (log entry
25: the model's mark). The event carries no time of its own: its instant is the divider's (log entry 1). -/
def Obligations.DividerTicksFollowThePeriods : Prop :=
  ∀ (s : State) (order : List (BitVec 12)) (c : Configuration),
    s.station.config = some c → s.timebase.source = .fallback →
    ∀ sum len due tick, sum = s.timebase.accumulator + c.rate.accumulatorStep →
    len = (if 147 ≤ sum then c.rate.shortPeriod + 1 else c.rate.shortPeriod) →
    due = (if s.timebase.owedTick then s.timebase.dividerStart else s.timebase.dividerStart + len) →
    tick = (s.timebase.tick + 1) % 2 ^ 48 →
    ∃ u, exec (.dividerTick order) s = .next u ∧ u.station = s.station ∧
      u.claims.watches = s.claims.watches ∧ u.clock = max s.clock due ∧
      u.timebase = { s.timebase with
        dividerStart := due
        accumulator := if s.timebase.owedTick then s.timebase.accumulator
          else if 147 ≤ sum then sum - 147 else sum
        lastDivider := some due
        owedTick := false
        tick := tick
        drive := if s.timebase.drive = some tick then none else s.timebase.drive
        driving := if s.timebase.drive = some tick then some u.clock else s.timebase.driving
        readyLow := u.timebase.readyLow }

/-- STAND_IN_TICK in EXTERNAL (R43, R44): due at the first cycle past the top of the accepted range; it becomes the
reference instant and raises the stand-in count, and the fourth returns the source to FALLBACK with the divider's phase
cleared at that instant, and queues a CLOCK notice LOST to all stations (R45). Its instant is the spec's own (log entry
1). -/
def Obligations.FourthStandInTickLosesTheClock : Prop :=
  ∀ (s : State) (e : Nat) (order : List (BitVec 12)) (c : Configuration),
    s.station.config = some c → s.timebase.source = .external → s.timebase.reference = some e →
    ∃ u, exec (.standInTick order) s = .next u ∧ u.station = s.station ∧
      u.clock = max s.clock (e + c.rate.accepted.2 + 1) ∧
      u.timebase.tick = (s.timebase.tick + 1) % 2 ^ 48 ∧
      u.timebase.standIn = s.timebase.standIn + 1 ∧
      (s.timebase.standIn < 3 → u.timebase.source = .external ∧
        u.timebase.reference = some (e + c.rate.accepted.2 + 1)) ∧
      (3 ≤ s.timebase.standIn → u.timebase.source = .fallback ∧ u.timebase.qual = 0 ∧
        u.timebase.prevEdge = none ∧ u.timebase.accumulator = 0 ∧
        u.timebase.dividerStart = e + c.rate.accepted.2 + 1 ∧
        s.told u { addressee := 31, body := .clock false u.timebase.tick, isOpen := false })

/-- A tick event of a RUNNING voice (R25, R32, R57, R58, R60), made by the divider, a stand-in tick or an edge: the voice
retires at the position limit, at its end, or by a pending CUT whose at-tick is reached, with RETIRED sent for the first
of these and the frame it has reached. Otherwise one record of its tag is still in use, its position has grown by the
rate it had, and its rate has moved one glide step toward the target, never past it. A FILLING voice that has reached
its dry point (R82) goes LATE with an UNDERRUN report while a segment is in flight, and skips at once with none; a LATE
or COMPLETE one stays so. It holds for every order of the voices (log entry 10). -/
def Obligations.TickAdvancesRunningVoices : Prop :=
  ∀ (s : State) (i : Instr) (c : Configuration) (v : Voice) (p r : Nat) (limit done cut : Prop),
    s.station.config = some c → s.ticksBy c.rate i → s.tagsLawful →
    v ∈ s.voices → v.state = .running → p = v.p + v.r →
    r = (if v.r < v.target then min (v.r + v.step) v.target
      else if v.target < v.r then max (v.r - v.step) v.target else v.r) →
    (limit ↔ 4294901760 ≤ p / 65536) → (done ↔ ∃ e, v.fin = some e ∧ e.frame ≤ p / 65536) →
    (cut ↔ ∃ a, v.pendingEnd = some { mode := .cut, atTick := a } ∧ a ≤ (s.timebase.tick + 1) % 2 ^ 48) →
    ∃ u, exec i s = .next u ∧
      (limit ∨ done ∨ cut → (∀ w ∈ u.voices, w.tag ≠ v.tag) ∧
        ∀ reason, (limit → reason = .limit) → (¬limit → done → reason = .done) →
          (¬limit → ¬done → reason = .cut) →
          s.told u { addressee := v.requester, body := .retired v.tag reason (p / 65536), isOpen := false }) ∧
      (¬(limit ∨ done ∨ cut) → ∃ w, u.voices.filter (fun x => x.tag == v.tag) = [w] ∧
        w.state = .running ∧ w.p = p ∧ w.r = r ∧ w.target = v.target ∧ w.step = v.step ∧
        w.record = v.record ∧ w.requester = v.requester ∧ w.s0 = v.s0 ∧
        (v.fill = .filling → p / 65536 + 4 < v.s0 + 1024 * v.d → w.fill ≠ .late) ∧
        (v.fill = .filling → v.s0 + 1024 * v.d ≤ p / 65536 + 4 →
          (v.inFlight.isSome → w.fill = .late ∧ w.dryFrame = some (v.s0 + 1024 * v.d) ∧ w.n = v.n ∧ w.d = v.d ∧
            w.inFlight = v.inFlight ∧ w.cursor = v.cursor ∧ s.toldUnderrun u v (v.s0 + 1024 * v.d) 0 1) ∧
          (v.inFlight = none → v.n = v.d → v.cursor.isSome →
            s.skips u v w (p / 65536) (v.s0 + 1024 * v.d) 1)) ∧
        (v.fill = .late → v.inFlight.isSome → w.fill = .late ∧ w.dryFrame = v.dryFrame ∧ w.n = v.n ∧ w.d = v.d) ∧
        (v.fill = .complete → w.fill = .complete ∧ w.n = v.n ∧ w.d = v.d))

/-- The tick event of SCHEDULED and ARMED voices, and of a pending end (R21, R25, R59, R147, R148), made by the
divider, a stand-in tick or an edge. A SCHEDULED voice starts with p = 0 once the counter equals or has passed its
start tick, and is not advanced; an ARMED one stays as it is; both stay in use unless a pending CUT is due. A pending
end still to come is held. One whose at-tick the counter equals or has passed is cleared: a CUT retires the voice, one
that is not RUNNING with RETIRED at frame 0 (R32); a
FADE on a voice without an end fixes E at the position after the tick plus the length, empties the follow slot and
queues ENDPOINT, unless a skip at this tick fixed an end first; a FADE on one with its end present leaves it and
queues REFUSED with STATE to the requester. It holds for every order of the voices (log entry 10). -/
def Obligations.TicksStartVoicesAndApplyEnds : Prop :=
  ∀ (s : State) (i : Instr) (c : Configuration) (v : Voice) (tick : Nat),
    s.station.config = some c → s.ticksBy c.rate i → s.tagsLawful →
    v ∈ s.voices → tick = (s.timebase.tick + 1) % 2 ^ 48 →
    ∃ u, exec i s = .next u ∧
      (v.state ≠ .running → (∀ a, v.pendingEnd = some { mode := .cut, atTick := a } → tick < a) →
        ∃ w ∈ u.voices, w.tag = v.tag) ∧
      (∀ a, v.pendingEnd = some { mode := .cut, atTick := a } → a ≤ tick → (∀ w ∈ u.voices, w.tag ≠ v.tag) ∧
        (v.state ≠ .running → v.p = 0 →
          s.told u { addressee := v.requester, body := .retired v.tag .cut 0, isOpen := false })) ∧
      ∀ w ∈ u.voices, w.tag = v.tag →
        (∀ start, v.state = .scheduled start →
          (start ≤ tick → w.state = .running ∧ w.p = 0 ∧ w.r = v.r) ∧
          (tick < start → w.state = .scheduled start ∧ w.p = v.p ∧ w.r = v.r)) ∧
        (v.state = .armed → w.state = .armed ∧ w.p = v.p ∧ w.r = v.r) ∧
        (∀ e, v.pendingEnd = some e →
          (tick < e.atTick → w.pendingEnd = some e) ∧ (e.atTick ≤ tick → w.pendingEnd = none)) ∧
        ∀ length a, v.pendingEnd = some { mode := .fade length, atTick := a } → a ≤ tick →
          (v.fin.isSome → w.fin = v.fin ∧
            s.told u { addressee := v.requester, body := .refused 3 .state v.tag, isOpen := false }) ∧
          (v.fin = none → w.fin.isSome) ∧
          (v.fin = none → (v.state = .running → v.fill = .filling → v.inFlight = none →
              w.p / 65536 + 4 < v.firstMissing) →
            w.fin = some { frame := w.p / 65536 + length, cause := .fade } ∧ w.follow = none ∧
            s.told u { addressee := v.requester, isOpen := false
                       body := .endpoint v.tag (w.p / 65536 + length) .fade })

/-- Five events that move one field: LINK_UP (R174), DOWNBEAT_LINE_RISE (R50) and DOWNBEAT_DRIVE_END, 4 us after
the drive began (R48); BUS_IDLE and FRAME_BEGINS (R111, R114), where twelve silent bit-times take SEEKING and
SKIPPING to IDLE, with the offer choice, and a frame's first transition takes IDLE to RECEIVING, or joins a contention
under way. The model's choices: the frames of a contention are kept as one rival with the first transition's time and
the lowest kind, and the port is RECEIVING the lowest kind on the bus (log entry 13); a BUS_IDLE outside SEEKING and
SKIPPING, and a FRAME_BEGINS with no contention to join, change the clock alone (log entry 2); 4 us are 197 whole
cycles (log entry 1). -/
def Obligations.LineLinkAndBusEvents : Prop :=
  (∀ (s : State) (start : Nat), s.timebase.driving = some start →
    exec .downbeatDriveEnd s = .next { s with
      clock := max s.clock (start + 197), timebase := { s.timebase with driving := none } }) ∧
  ∀ (s : State) (t : Nat) (kind : BitVec 4),
    exec (.linkUp t) s = .next { s with
      clock := max s.clock t, delivery := { s.delivery with link := .up } } ∧
    exec (.downbeatLineRise t) s = .next { s with
      clock := max s.clock t, timebase := { s.timebase with pulseTaken := false } } ∧
    (s.port.bus = .seeking ∨ s.port.bus = .skipping →
      exec (.busIdle t) s = .next (State.finish { s with
        clock := max s.clock t, port := { s.port with bus := .idle, rival := none } })) ∧
    (s.port.bus = .idle ∨ (∃ k, s.port.bus = .receiving k) →
      exec (.busIdle t) s = .next { s with clock := max s.clock t }) ∧
    (s.port.bus = .idle → exec (.frameBegins t kind) s = .next { s with
      clock := max s.clock t
      port := { s.port with bus := .receiving kind.toNat
                            rival := some { kind := kind.toNat, since := max s.clock t } } }) ∧
    (∀ k, s.port.bus = .receiving k → s.port.rival = none → s.port.sending.isSome →
      exec (.frameBegins t kind) s = .next { s with
        clock := max s.clock t
        port := { s.port with bus := .receiving (min k kind.toNat)
                              rival := some { kind := kind.toNat, since := max s.clock t } } }) ∧
    (∀ k r, s.port.bus = .receiving k → s.port.rival = some r →
      exec (.frameBegins t kind) s = .next { s with
        clock := max s.clock t
        port := { s.port with bus := .receiving (min k kind.toNat)
                              rival := some { r with kind := min r.kind kind.toNat } } }) ∧
    (s.port.bus = .seeking ∨ s.port.bus = .skipping ∨
        ((∃ k, s.port.bus = .receiving k) ∧ s.port.rival = none ∧ s.port.sending = none) →
      exec (.frameBegins t kind) s = .next { s with clock := max s.clock t })

/-- DOWNBEAT_EVENT (R22, R50, R67). In CONFIGURED, at the first event of a low pulse, a pending load sets the counter,
clears the divider's phase, shifts each held dry tick so that its current slack is kept, recomputes those of SCHEDULED
voices, and drops a drive tick it reaches; then every ARMED voice is RUNNING with p = 0. A divider tick that arrives at
the instant of the load is still to be taken after it (R51): the mark for it is the model's own (log entry 25).
Elsewhere, or while the line has not risen since the last event, nothing is applied or started. -/
def Obligations.DownbeatAppliesLoadAndStartsVoices : Prop :=
  (∀ (s : State) (t : Nat), s.station.state = .configured → s.timebase.pulseTaken = false →
    ∃ u, exec (.downbeatEvent t) s = .next u ∧ u.clock = max s.clock t ∧ u.station = s.station ∧
      u.claims.watches = s.claims.watches ∧ u.timebase.pulseTaken = true ∧
      u.timebase.source = s.timebase.source ∧ u.timebase.load = none ∧
      (s.timebase.load = none → u.timebase.tick = s.timebase.tick ∧
        u.timebase.dividerStart = s.timebase.dividerStart ∧
        u.timebase.accumulator = s.timebase.accumulator ∧ u.timebase.drive = s.timebase.drive ∧
        u.timebase.owedTick = s.timebase.owedTick) ∧
      (∀ load, s.timebase.load = some load → u.timebase.tick = load ∧
        u.timebase.dividerStart = max s.clock t ∧ u.timebase.accumulator = 0 ∧
        (∀ c, s.station.config = some c → (u.timebase.owedTick = true ↔ s.timebase.source = .fallback ∧
          (s.timebase.owedTick = true ∨ s.timebase.dividerDue c.rate = max s.clock t))) ∧
        ∀ d, u.timebase.drive = some d ↔ s.timebase.drive = some d ∧ load < d) ∧
      u.voices = s.voices.map fun v =>
        let now := u.timebase.tick
        let w := match s.timebase.load, v.dry with
          | some load, some dry => { v with
              dry := some (min (2 ^ 48 - 1) (load + (dry - s.timebase.tick))) }
          | _, _ => v
        match v.state with
        | .running => w
        | .scheduled _ => if s.timebase.load.isSome ∧ v.dry.isSome then w.withDry now else w
        | .armed => { w with state := .running, p := 0 }.withDry now) ∧
  ∀ (s : State) (t : Nat), s.station.state ≠ .configured ∨ s.timebase.pulseTaken = true →
    exec (.downbeatEvent t) s = .next { s with
      clock := max s.clock t, timebase := { s.timebase with pulseTaken := true } }

/-- TIMEBASE (R48): in CONFIGURED a load value counts in a frame to all stations, a drive tick in a frame to
this station alone and only when it is after the counter; otherwise the frame is ignored whole. -/
def Obligations.TimebaseFrameSetsLoadOrDrive : Prop :=
  ∀ (s : State) (t : Nat) (h : Header) (flags : BitVec 8) (load drive : BitVec 48), s.takes h →
    exec (.timebase t h flags load drive) s = .next { s.frameEnded t with
      timebase :=
        if s.station.state ≠ .configured then s.timebase
        else if h.addressee = 31#5 then
          if flags.getLsbD 0 then { s.timebase with load := some load.toNat } else s.timebase
        else if flags.getLsbD 1 ∧ s.timebase.tick < drive.toNat then
          { s.timebase with drive := some drive.toNat }
        else s.timebase }

/-! ### Cue bus -/

/-- The offer choice (R114, R130, R131): of the entries that are WAITING with their window OPEN, while an IDLE record
or a steal victim exists, the one with the lowest bid, the earlier on equal bids, is sent as a CLAIM to all stations
and is SENDING; with none the head notice is sent; with neither, nothing. It is made at an idle, and where a frame
becomes pending. A choice within one bit-time of the first transition of another station's frame begins and contends
with it; a later one does not begin. The model's choices: the choice is made once, when the step closes (`finish`), and
a bid is priced from the state there (log entry 17); beginning a frame makes the port RECEIVING at once (log entry 13);
one bit-time is four whole cycles (log entry 2). -/
def Obligations.OfferChoosesTheLowestBid : Prop :=
  (∀ (s : State) (t : Nat), s.port.sending = none → s.port.bus = .skipping → s.settled →
    ∃ u, exec (.busIdle t) s = .next u ∧ u.voices = s.voices ∧ u.media = s.media ∧
      u.catalogue = s.catalogue ∧ u.notices.queue = s.notices.queue ∧ u.notices.loss = s.notices.loss ∧
      ((∃ b before after, s.claims.bids = before ++ b :: after ∧ s.bidReady b ∧
          (∀ c ∈ before, s.bidReady c → s.bidForId b.region < s.bidForId c.region) ∧
          (∀ c ∈ after, s.bidReady c → s.bidForId b.region ≤ s.bidForId c.region) ∧
          u.port = { bus := .receiving 1, sending := some (.claim b.tag
            { kind := 1#4, key := BitVec.ofNat 12 (s.bidForId b.region)
              sender := BitVec.ofNat 4 s.station.number, addressee := 31#5
              payload := [BitVec.ofNat 8 (b.tag / 256), BitVec.ofNat 8 b.tag] }) } ∧
          ((s.claims.bids.map (·.tag)).Nodup → u.claims.bids = before ++ { b with offer := .sending } :: after)) ∨
        ((∀ c ∈ s.claims.bids, ¬ s.bidReady c) ∧ u.claims = s.claims ∧
          match s.notices.queue with
          | n :: _ => u.port = { bus := .receiving 8
                                 sending := some (.notice (n.frame s.station.number s.notices.loss)) }
          | [] => u.port = { bus := .idle, sending := none }))) ∧
  ∀ (s : State) (k : Nat) (r : Rival), s.port.sending = none → s.port.bus = .receiving k →
    s.port.rival = some r → s.settled →
    (r.since + 4 < s.clock → s.finish.port = s.port ∧ s.finish.claims = s.claims) ∧
    (s.clock ≤ r.since + 4 →
      (∀ b, s.offerBid? = some b → s.finish.port = {
        bus := .receiving (min r.kind 1), rival := some r
        sending := some (.claim b.tag (claimFrame s.station.number (s.bidForId b.region) b.tag)) }) ∧
      (∀ n rest, s.offerBid? = none → s.notices.queue = n :: rest → s.finish.port = {
        bus := .receiving (min r.kind 8), rival := some r
        sending := some (.notice (n.frame s.station.number s.notices.loss)) }) ∧
      (s.offerBid? = none → s.notices.queue = [] → s.finish.port = s.port))

/-- FRAME_CUT_SHORT, FRAME_DISCARDED of a frame that fails a check or the filter, and NOTICE (R118 to R120):
with no watch fallen due, the frame ends and nothing else changes. -/
def Obligations.UnreceivedFramesHaveNoEffect : Prop :=
  ∀ (s : State) (t : Nat), s.receiving →
    exec (.frameCutShort t) s = .next (s.frameEnded t) ∧
    (∀ (f : Frame) (check : BitVec 16), f.accepted s.station.number check = false →
      exec (.frameDiscarded t f check) s = .next (s.frameEnded t)) ∧
    ∀ (h : Header) (payload : List Byte), exec (.notice t h payload) s = .next (s.frameEnded t)

/-- Frames turned away: one of any kind but CLAIM whose addressee is neither this station's number nor 31 (R120),
and in STARTING a HALT, NOTE, TIMEBASE, PROBE, INSTALL, RECLAIM, CONFIGURE or WIPE (R48, R127, R155, R159, R170,
R173), end without effect and queue no notice. -/
def Obligations.FramesTurnedAwayHaveNoEffect : Prop :=
  ∀ (s : State) (t k : Nat) (h : Header), s.receiving →
    (h.addressee.toNat ≠ s.station.number ∧ h.addressee ≠ 31#5 ∨
      s.station.state = .starting ∧ k ∈ [0, 2, 7, 9, 10, 11, 12, 13]) →
    (k = 0 → exec (.halt t h) s = .next (s.frameEnded t)) ∧
    (k = 2 → ∀ region offset tick rate flags,
      exec (.note t h region offset tick rate flags) s = .next (s.frameEnded t)) ∧
    (k = 3 → ∀ flags fade atTick, exec (.endRequest t h flags fade atTick) s = .next (s.frameEnded t)) ∧
    (k = 4 → ∀ target step, exec (.rate t h target step) s = .next (s.frameEnded t)) ∧
    (k = 5 → ∀ region offset, exec (.follow t h region offset) s = .next (s.frameEnded t)) ∧
    (k = 6 → exec (.unfollow t h) s = .next (s.frameEnded t)) ∧
    (k = 7 → ∀ flags load drive, exec (.timebase t h flags load drive) s = .next (s.frameEnded t)) ∧
    (k = 9 → ∀ region, exec (.probe t h region) s = .next (s.frameEnded t)) ∧
    (k = 10 → ∀ region format frames loopStart loopEnd source,
      exec (.install t h region format frames loopStart loopEnd source) s = .next (s.frameEnded t)) ∧
    (k = 11 → ∀ region, exec (.reclaim t h region) s = .next (s.frameEnded t)) ∧
    (k = 12 → ∀ rateCode base ringLength primeDepth,
      exec (.configure t h rateCode base ringLength primeDepth) s = .next (s.frameEnded t)) ∧
    (k = 13 → exec (.wipe t h) s = .next (s.frameEnded t))

/-- ARBITRATION_LOST and BIT_ERROR of a CLAIM (R115, R116, R118, R133): an entry whose window is OPEN returns to
WAITING in its place; one whose window has CLOSED leaves the list and its region use is released. After a bit error
the port is RECEIVING the frame of a contender that goes on, or waits for FRAME_CUT_SHORT (log entry 13). That a
contender known from earlier in the frame goes on, at whatever bit the station stops, is the model's choice (log entry
29). -/
def Obligations.LostClaimsReturnToWaiting : Prop :=
  ∀ (s : State) (t : Nat) (kind : BitVec 4) (b : Bid) (f : Frame) (c : Instr),
    s.port.sending = some (.claim b.tag f) → b ∈ s.claims.bids → (s.claims.bids.map (·.tag)).Nodup →
    c = .arbitrationLost t kind ∨ c = .bitError t →
    ∃ u, exec c s = .next u ∧ u.clock = max s.clock t ∧
      (c = .arbitrationLost t kind → u.port = { bus := .receiving kind.toNat, sending := none }) ∧
      (c = .bitError t → s.port.rival = none → u.port = { bus := s.port.bus, sending := none }) ∧
      (∀ r, c = .bitError t → s.port.rival = some r → u.port = { bus := .receiving r.kind, sending := none }) ∧
      u.voices = s.voices ∧ u.media = s.media ∧ u.station = s.station ∧ u.timebase = s.timebase ∧
      (b.window = .opened → u.catalogue = s.catalogue ∧
        u.claims.bids = s.claims.bids.map fun c => if c.tag = b.tag then { c with offer := .waiting } else c) ∧
      (b.window = .closed → u.claims.bids = s.claims.bids.filter (fun c => c.tag != b.tag) ∧
        u.uses? b.region = (s.uses? b.region).map (· - 1))

/-- ARBITRATION_LOST, BIT_ERROR and NOTICE_SENT of the head notice (R115 to R117, R179): a loss keeps the head
and its offer count; a bit error raises the count and drops the head at the fourth, with the loss count
raised; a sent head leaves, or its addendum takes its place, and the loss count becomes the drops since its
frame began. After a bit error the port is RECEIVING the frame of a contender that goes on, or waits for
FRAME_CUT_SHORT (log entry 13). That a contender known from earlier in the frame goes on, at whatever bit the station
stops, is the model's choice (log entry 29). -/
def Obligations.NoticeOutcomesMoveTheQueue : Prop :=
  ∀ (s : State) (t : Nat) (kind : BitVec 4) (f : Frame) (head : Notice) (rest : List Notice),
    s.port.sending = some (.notice f) → s.notices.queue = head :: rest →
    ∀ folded : Notice, folded = (match s.notices.addendum with
      | some add => { head with body := head.body.merge add }
      | none => head) →
    exec (.arbitrationLost t kind) s = .next { s with
      clock := max s.clock t, port := { bus := .receiving kind.toNat, sending := none }
      notices := { s.notices with queue := folded :: rest, addendum := none } } ∧
    exec (.bitError t) s = .next { s with
      clock := max s.clock t
      port := { bus := (match s.port.rival with
          | some r => .receiving r.kind
          | none => s.port.bus)
                sending := none }
      notices := if s.notices.offerCount < 3 then
          { s.notices with queue := folded :: rest, addendum := none
                           offerCount := s.notices.offerCount + 1 }
        else { s.notices with queue := rest, addendum := none, offerCount := 0
                              loss := min 15 (s.notices.loss + 1) } } ∧
    exec (.noticeSent t) s = .next { s with
      clock := max s.clock t, port := { bus := .skipping, sending := none }
      notices := { s.notices with
        queue := match s.notices.addendum with
          | some add => { head with body := add } :: rest
          | none => rest
        loss := min 15 s.notices.drops, drops := 0, offerCount := 0, addendum := none } }

/-- How a report joins the notice queue (R178, R179). One that finds no open notice of its kind and tag takes the tail
while fewer than 32 notices wait, open if it is UNDERRUN or MEDIA, and with 32 it is dropped and the loss count rises
by one, up to 15. One that finds an open notice merges into the first: an UNDERRUN keeps the gap start and adds gap
lengths and counts, a MEDIA keeps the region id and adds sectors. While the head's frame is on the bus, a report that
the head would take goes into its addendum. -/
def Obligations.NoticesJoinMergeOrDrop : Prop :=
  ∀ (s : State) (addressee : Nat) (body : NoticeBody),
    ((∀ n ∈ s.notices.queue, n.isOpen → body.mergeKey.isSome → n.body.mergeKey ≠ body.mergeKey) →
      (s.notices.queue.length < 32 →
        s.queueNotice addressee body = { s with notices := { s.notices with
          queue := s.notices.queue ++
            [{ addressee := addressee, body := body, isOpen := body.mergeKey.isSome }] } }) ∧
      (32 ≤ s.notices.queue.length →
        s.queueNotice addressee body = { s with notices := { s.notices with
          loss := min 15 (s.notices.loss + 1), drops := s.notices.drops + 1 } })) ∧
    ∀ before n after, s.notices.queue = before ++ n :: after → n.isOpen → body.mergeKey.isSome →
      n.body.mergeKey = body.mergeKey → (∀ m ∈ before, m.isOpen → m.body.mergeKey ≠ body.mergeKey) →
      (before ≠ [] ∨ (∀ f, s.port.sending ≠ some (.notice f)) →
        ∃ merged, n.body.mergesTo body merged ∧ s.queueNotice addressee body = { s with notices := {
          s.notices with queue := before ++ { n with body := merged } :: after } }) ∧
      (∀ f, before = [] → s.port.sending = some (.notice f) →
        (s.notices.addendum = none → s.queueNotice addressee body =
          { s with notices := { s.notices with addendum := some body } }) ∧
        ∀ add, s.notices.addendum = some add → add.mergeKey = body.mergeKey →
          ∃ merged, add.mergesTo body merged ∧ s.queueNotice addressee body =
            { s with notices := { s.notices with addendum := some merged } })

/-- The frame's bits say the frame (R112, R118, R119): assembling the bits of a frame with a payload of at most 24
bytes gives every field back, with its check word; and every NOTICE the station forms is such a frame, with its
kind's rank as key and the payload length of its kind (R179). -/
def Obligations.FramesAssembleToWhatWasSent : Prop :=
  (∀ f : Frame, f.wellFormed = true → Frame.parse f.bits = some (f, f.check)) ∧
  ∀ (n : Notice) (number loss : Nat),
    (n.frame number loss).kind = 8#4 ∧ (n.frame number loss).key.toNat = n.body.rank ∧
    payloadLength 8 n.body.rank = some (n.frame number loss).payload.length ∧
    (n.frame number loss).wellFormed = true

/-- A NOTE as a console adapter lays it out (layout tables, R112): received by a station it names, its bits are
the NOTE command with every field as sent. -/
def Obligations.NoteFramesReachTheClaimUnit : Prop :=
  ∀ (t own : Nat) (key : BitVec 12) (sender : BitVec 4) (addressee : BitVec 5) (region : BitVec 24)
    (offset : BitVec 32) (tick : BitVec 48) (rate : BitVec 24) (flags : BitVec 8),
    addressee.toNat = own ∨ addressee = 31#5 →
    receive t own (Frame.bits { kind := 2#4, key := key, sender := sender, addressee := addressee
                                payload := bytesBE 3 region.toNat ++ bytesBE 4 offset.toNat ++
                                  bytesBE 6 tick.toNat ++ bytesBE 3 rate.toNat ++ bytesBE 1 flags.toNat }) =
      .note t { key := key, sender := sender, addressee := addressee } region offset tick rate flags

/-- A log record says its region (R13, R15, layout tables): the start-up scan reads from an INSTALL record the
region that was installed, and from a VOID record its id. -/
def Obligations.LogRecordsReadBackAsWritten : Prop :=
  (∀ i : InstallItem, i.region < 2 ^ 24 → i.format < 2 ^ 8 → i.frames < 2 ^ 24 → i.loopStart < 2 ^ 24 →
    i.loopEnd < 2 ^ 24 → i.extents.length ≤ 16 →
    (∀ e ∈ i.extents, e.die < 2 ^ 8 ∧ e.block < 2 ^ 16 ∧ e.first < 2 ^ 8 ∧ e.count < 2 ^ 8) →
    i.logRecord.length = 512 ∧
      parseRecord i.logRecord =
        .install (regionOf i.region i.format i.frames i.loopStart i.loopEnd i.extents)) ∧
  ∀ id, id < 2 ^ 24 → (voidRecord id).length = 512 ∧ parseRecord (voidRecord id) = .void id

/-! ### Claims -/

/-- CLAIM_WON (R27 to R30, R61, R132): the entry leaves the bid list and a record carries its tag with the fields
of the entry, on the entry's region, its state by the start mode and the counter. The loop is active when the entry
asks for it and the region has one. The fill cursor stands at the start offset's segment, or past it by one step of
R72 once the first read is issued. The record is the lowest IDLE one; with none, the steal victim retires first, with
RETIRED STOLEN sent at the frame it has reached and its uses released, and its record is used. No other voice goes. The
entry's use passes to the record with no change to the count, and a watch for the tag is marked heard (R9, R137); a
watch fallen due is decided and gone (log entry 22). -/
def Obligations.WonClaimCreatesTheVoice : Prop :=
  ∀ (s : State) (t : Nat) (b : Bid) (f : Frame), s.port.sending = some (.claim b.tag f) →
    s.bid? b.tag = some b → s.tagsLawful →
    ∀ (record : Nat) (victim : Option Voice),
      (s.idleRecord? = some record ∧ victim = none ∨
        ∃ v, s.idleRecord? = none ∧ s.stealVictim? = some v ∧ victim = some v ∧ record = v.record) →
      ∃ u, exec (.claimWon t) s = .next u ∧
        u.claims.bids = s.claims.bids.filter (fun c => c.tag != b.tag) ∧
        u.station = s.station ∧ u.timebase.tick = s.timebase.tick ∧
        u.port = { bus := .skipping, sending := none } ∧
        u.claims.watches = (s.claims.watches.filter fun w => !s.claims.watches.any fun x => x.due && x.tag == w.tag).map
          (fun w => if w.tag = b.tag then { w with heard := true } else w) ∧
        (∀ id, u.uses? id = (s.uses? id).map (· - ((victim.map (·.uses.count id)).getD 0))) ∧
        (∀ v, victim = some v → s.told u
          { addressee := v.requester, body := .retired v.tag .stolen (v.p / 65536), isOpen := false }) ∧
        (∀ v ∈ s.voices, some v.tag ≠ victim.map (·.tag) → v ∈ u.voices) ∧
        (∀ w ∈ u.voices, w.tag = b.tag ∨ w ∈ s.voices ∧ some w.tag ≠ victim.map (·.tag)) ∧
        ∃ v ∈ u.voices, v.tag = b.tag ∧ v.record = record ∧ v.requester = b.requester ∧ v.s0 = b.start ∧
          v.r = b.rate ∧ v.target = b.rate ∧ v.step = 0 ∧ v.loopRequest = b.loopRequest ∧
          v.loopReleased = false ∧ v.d = 0 ∧ v.pendingEnd = none ∧ v.follow = none ∧ v.region = b.region ∧
          v.loopActive = (b.loopRequest && ((s.region? b.region).bind (·.loop)).isSome) ∧
          (v.n = 0 → v.inFlight = none ∧ v.cursor = some (b.start / 1024)) ∧
          (v.n ≠ 0 → v.n = 1 ∧ v.inFlight = some 0) ∧
          (∀ r, s.region? b.region = some r →
            ((r.locate (b.start / 1024)).isSome → 0 < s.ringLength → v.n = 1) ∧
            ∀ next, next = (if b.start / 1024 + 1 < (r.frames + 1023) / 1024 then some (b.start / 1024 + 1)
              else none) → v.n = 1 →
              (v.loopActive = false → v.cursor = next) ∧
              ∀ l, r.loop = some l → v.loopActive = true →
                v.cursor = if b.start / 1024 + 1 = l.stop / 1024 then some (l.start / 1024) else next) ∧
          (b.mode = .immediate → v.state = .running ∧
            v.p = min 16777215 (s.timebase.tick - b.captured) * b.rate) ∧
          (∀ start, b.mode = .atTick start → start ≤ s.timebase.tick → v.state = .running ∧
            v.p = min 16777215 (s.timebase.tick - start) * b.rate) ∧
          (∀ start, b.mode = .atTick start → s.timebase.tick < start →
            v.state = .scheduled start ∧ v.p = 0) ∧
          (b.mode = .armed → v.state = .armed ∧ v.p = 0)

/-- CLAIM from another station (R9, R32, R134, R136, R137, R172): in CONFIGURED its tag's bid entry is withdrawn with its
region use released, a voice of that tag retires with RETIRED YIELDED sent and its uses released, a watch for it is
marked heard, and no other voice, entry, watch or use goes. In STARTING and UNCONFIGURED it has no effect. The command
is another station's frame whatever its sender field says (log entry 21). -/
def Obligations.HeardClaimWithdrawsAndYields : Prop :=
  ∀ (s : State) (t tag : Nat) (h : Header) (tagField : BitVec 16),
    s.receiving → tag = tagField.toNat % 4096 →
    (s.station.state ≠ .configured → exec (.claim t h tagField) s = .next (s.frameEnded t)) ∧
    (s.station.state = .configured → ∃ u, exec (.claim t h tagField) s = .next u ∧
      u.claims.bids = s.claims.bids.filter (fun b => b.tag != tag) ∧
      u.voices = s.voices.filter (fun v => v.tag != tag) ∧
      (∀ v, s.voice? tag = some v → s.told u
        { addressee := v.requester, body := .retired tag .yielded (v.p / 65536), isOpen := false }) ∧
      (∀ b id, s.bid? tag = some b → s.voice? tag = none →
        u.uses? id = (s.uses? id).map fun k => if id = b.region then k - 1 else k) ∧
      (∀ v id, s.bid? tag = none → s.voice? tag = some v → u.uses? id = (s.uses? id).map (· - v.uses.count id)) ∧
      (∀ id, s.bid? tag = none → s.voice? tag = none → u.uses? id = s.uses? id) ∧
      u.claims.watches = s.claims.watches.map
        (fun w => if w.tag = tag then { w with heard := true } else w))

/-- NOTE (R32, R122, R127 to R129). Outside CONFIGURED, or with start mode 3, it has no effect. In CONFIGURED, steps 1, 2
and 4: a voice or entry of its tag is gone, the voice with RETIRED SUPERSEDED sent, and when the link
is UP, the region LIVE with the rounded offset inside it, a record free or stealable and the list not full, an
entry for it stands at the tail, WAITING and OPEN for 2,000 us, with the tick captured and the rate clamped. -/
def Obligations.NoteMakesABidEntry : Prop :=
  ∀ (s : State) (t : Nat) (h : Header) (region : BitVec 24) (offset : BitVec 32) (tick : BitVec 48)
    (rate : BitVec 24) (flags : BitVec 8), s.takes h →
    (s.station.state ≠ .configured ∨ flags.toNat % 4 = 3 →
      exec (.note t h region offset tick rate flags) s = .next (s.frameEnded t)) ∧
    ∀ (mode : StartMode) (kept : List Bid),
    s.station.state = .configured → startModeOf flags tick = some mode →
    kept = s.claims.bids.filter (fun b => b.tag != h.key.toNat) →
    ∃ u, exec (.note t h region offset tick rate flags) s = .next u ∧
      u.station = s.station ∧ u.port = { bus := .skipping, sending := none } ∧
      u.voices = s.voices.filter (fun v => v.tag != h.key.toNat) ∧
      (∀ v, s.voice? h.key.toNat = some v → s.told u
        { addressee := v.requester, body := .retired v.tag .superseded (v.p / 65536), isOpen := false }) ∧
      u.claims.bids =
        if s.delivery.link = .up ∧ (∃ r, s.region? region.toNat = some r ∧ r.state = .live ∧
            offset.toNat / 1024 * 1024 < r.frames) ∧ kept.length < 16 ∧ u.canCreate then
          kept ++ [{ tag := h.key.toNat, region := region.toNat, start := offset.toNat / 1024 * 1024
                     mode := mode, captured := s.timebase.tick
                     rate := min 524288 (max 4096 rate.toNat), loopRequest := flags.getLsbD 2
                     requester := h.sender.toNat, expiry := max s.clock t + 98304
                     window := .opened, offer := .waiting }]
        else kept

/-- NOTE, step 3 (R137): a HOME holder watches for the tag for 2,000 us, or queues DECLINED with RANGE for an offset
out of range; any other station drops a watch held for the tag. -/
def Obligations.NoteStartsTheHomeWatch : Prop :=
  ∀ (s : State) (t : Nat) (h : Header) (region : BitVec 24) (offset : BitVec 32) (tick : BitVec 48)
    (rate : BitVec 24) (flags : BitVec 8) (mode : StartMode) (kept : List Watch),
    s.takes h → s.station.state = .configured → startModeOf flags tick = some mode →
    kept = s.claims.watches.filter (fun w => w.tag != h.key.toNat) →
    ∃ u, exec (.note t h region offset tick rate flags) s = .next u ∧
      (u.claims.watches =
        if (∃ r, s.region? region.toNat = some r ∧ r.role = .home ∧
            offset.toNat / 1024 * 1024 < r.frames) ∧ kept.length < 16 then
          kept ++ [{ tag := h.key.toNat, region := region.toNat, requester := h.sender.toNat
                     expiry := max s.clock t + 98304, heard := false, due := false }]
        else kept) ∧
      ∀ r, s.region? region.toNat = some r → r.role = .home → r.frames ≤ offset.toNat / 1024 * 1024 →
        s.told u { addressee := h.sender.toNat, isOpen := false
                   body := .declined h.key.toNat .range region.toNat }

/-- BID_WINDOW_EXPIRY (R135): a WAITING entry leaves the list with its region use released; a SENDING one stays
with its window CLOSED. -/
def Obligations.BidWindowsClose : Prop :=
  ∀ (s : State) (tag : BitVec 12) (b : Bid), s.bid? tag.toNat = some b →
    ∃ u, exec (.bidWindowExpiry tag) s = .next u ∧ u.clock = max s.clock b.expiry ∧
      u.voices = s.voices ∧ u.port = s.port ∧ u.media = s.media ∧ u.notices = s.notices ∧
      (b.offer = .waiting → u.claims.bids = s.claims.bids.filter (fun c => c.tag != tag.toNat) ∧
        u.uses? b.region = (s.uses? b.region).map (· - 1)) ∧
      (b.offer = .sending → u.catalogue = s.catalogue ∧ u.bid? tag.toNat = some { b with window := .closed })

/-- WATCH_WINDOW_EXPIRY (R138): the watch is removed, and DECLINED with NONE-CLAIMED goes to its requester unless it
heard a CLAIM, whatever the bus does; while a CLAIM is being received the watch is kept to be decided at the frame's
end, where FRAME_CUT_SHORT decides it as it stands. On an IDLE bus with nothing else pending the DECLINED is offered
at once (R114). The mark of a watch that waits for a frame's end is the model's own (log entry 22). -/
def Obligations.WatchesDeclineUnclaimedNotes : Prop :=
  ∀ (s : State) (t : Nat) (tag : BitVec 12) (w : Watch), s.watch? tag.toNat = some w →
    ∀ declined : Notice, declined = { addressee := w.requester, isOpen := false
                                      body := .declined w.tag .noneClaimed w.region } →
    (s.port.bus = .receiving 1 → ∃ u, exec (.watchWindowExpiry tag) s = .next u ∧
      u.watch? tag.toNat = some { w with due := true } ∧ u.notices = s.notices ∧ u.voices = s.voices) ∧
    (s.port.bus ≠ .receiving 1 → s.settled → s.notices.queue.length < 32 →
      ∃ u, exec (.watchWindowExpiry tag) s = .next u ∧ u.voices = s.voices ∧
        u.clock = max s.clock w.expiry ∧ u.station = s.station ∧
        u.claims.watches = s.claims.watches.filter (fun x => x.tag != tag.toNat) ∧
        u.notices.queue = s.notices.queue ++ (if w.heard then [] else [declined]) ∧
        (s.port.bus ≠ .idle → s.port.rival = none → u.port = s.port) ∧
        (s.port.bus = .idle → s.port.sending = none → s.port.rival = none → s.notices.queue = [] →
          s.claims.bids = [] → u.port = if w.heard then s.port else
            { bus := .receiving 8
              sending := some (.notice (declined.frame s.station.number s.notices.loss)) })) ∧
    ((∃ k, s.port.bus = .receiving k) → s.port.sending = none → w.due = true → s.claims.watches = [w] →
      s.notices.queue.length < 32 →
      exec (.frameCutShort t) s = .next { s.frameEnded t with
        claims := { s.claims with watches := [] }
        notices := { s.notices with queue := s.notices.queue ++ if w.heard then [] else [declined] } })

/-! ### Requests for a voice -/

/-- RATE (R55, R56, R139, R141): the owner's record takes the clamped target and the step, and with step 0 its
rate becomes the target at once; a pending entry's initial rate becomes the target; a station with neither
does nothing. -/
def Obligations.RateSetsThePositionFields : Prop :=
  ∀ (s : State) (t goal : Nat) (h : Header) (target : BitVec 24) (step : BitVec 16), s.takes h →
    goal = min 524288 (max 4096 target.toNat) →
    (∀ v, s.voice? h.key.toNat = some v → ∃ u w, exec (.rate t h target step) s = .next u ∧
      u.claims = s.claims ∧ u.station = s.station ∧ u.voice? h.key.toNat = some w ∧
      w = { v with target := goal, step := step.toNat, r := if step = 0#16 then goal else v.r, dry := w.dry } ∧
      (v.fill = .complete → w.dry = v.dry) ∧ (v.fill ≠ .complete → w.dry = some (w.dryTick s.timebase.tick)) ∧
      ∀ tag, tag ≠ h.key.toNat → u.voice? tag = s.voice? tag) ∧
    (∀ b, s.voice? h.key.toNat = none → s.bid? h.key.toNat = some b → ∃ u,
      exec (.rate t h target step) s = .next u ∧ u.voices = s.voices ∧
      u.bid? h.key.toNat = some { b with rate := goal }) ∧
    (s.voice? h.key.toNat = none → s.bid? h.key.toNat = none →
      exec (.rate t h target step) s = .next (State.finish (s.frameEnded t)))

/-- END (R32, R139, R145 to R150): CUT at once retires the voice with RETIRED CUT sent; FADE at once on a voice without
an end fixes E at the play position plus the clamped length, empties the follow slot and sends ENDPOINT; FADE on one
with an end is refused STATE and leaves the voice; an at-tick still to come makes the pending end; LOOP-EXIT releases
an active loop; a pending entry is removed by any mode, its region use released; mode 3 has no effect, nor has any mode
at a station that holds neither a record nor an entry for the tag (R141), here with READY as the voices have it. -/
def Obligations.EndActsByItsMode : Prop :=
  ∀ (s : State) (t : Nat) (h : Header) (flags : BitVec 8) (fade : BitVec 24) (atTick : BitVec 48),
    s.takes h →
    (flags.toNat % 4 = 3 → exec (.endRequest t h flags fade atTick) s = .next (s.frameEnded t)) ∧
    (∀ v, s.voice? h.key.toNat = some v → flags.toNat % 4 ≠ 3 →
      ∃ u, exec (.endRequest t h flags fade atTick) s = .next u ∧ u.claims = s.claims ∧
        u.station = s.station ∧ (∀ tag, tag ≠ h.key.toNat → u.voice? tag = s.voice? tag) ∧
        (flags.toNat % 4 = 2 → u.voice? h.key.toNat = some { v with
          loopActive := false, loopReleased := v.loopReleased || v.loopActive }) ∧
        (flags.toNat % 4 < 2 → flags.getLsbD 2 = true → s.timebase.tick < atTick.toNat →
          u.voice? h.key.toNat = some { v with pendingEnd := some {
            atTick := atTick.toNat
            mode := if flags.toNat % 4 = 0 then .cut else .fade (min 1048575 fade.toNat) } }) ∧
        (flags.toNat % 4 = 0 → flags.getLsbD 2 = false ∨ atTick.toNat ≤ s.timebase.tick →
          u.voices = s.voices.filter (fun w => w.tag != h.key.toNat) ∧
          s.told u { addressee := v.requester, body := .retired v.tag .cut (v.p / 65536), isOpen := false }) ∧
        (flags.toNat % 4 = 1 → flags.getLsbD 2 = false ∨ atTick.toNat ≤ s.timebase.tick →
          (v.fin.isSome → s.settled → s.notices.queue.length < 32 → u.voices = s.voices ∧
            u.notices.queue = s.notices.queue ++
              [{ addressee := h.sender.toNat, body := .refused 3 .state h.key.toNat, isOpen := false }]) ∧
          (v.fin = none → ∃ w, u.voice? h.key.toNat = some w ∧ w.follow = none ∧
            w.fin = some { frame := v.p / 65536 + min 1048575 fade.toNat, cause := .fade } ∧
            s.told u { addressee := v.requester, isOpen := false
                       body := .endpoint v.tag (v.p / 65536 + min 1048575 fade.toNat) .fade }))) ∧
    (∀ b, s.voice? h.key.toNat = none → s.bid? h.key.toNat = some b → flags.toNat % 4 ≠ 3 →
      ∃ u, exec (.endRequest t h flags fade atTick) s = .next u ∧ u.voices = s.voices ∧
        u.claims.bids = s.claims.bids.filter (fun c => c.tag != h.key.toNat) ∧
        ∀ id, u.uses? id = (s.uses? id).map fun k => if id = b.region then k - 1 else k) ∧
    (s.voice? h.key.toNat = none → s.bid? h.key.toNat = none → s.settled → s.readyLawful →
      exec (.endRequest t h flags fade atTick) s = .next (s.frameEnded t))

/-- FOLLOW (R142, R151, R152): the five tests in order, each refused with its reason and the voice left as it
was; when they all pass the slot is held and the region has one use more. A station that holds no record for the tag,
be it one with a bid entry for it, is left as it is and queues no notice (R139, R141). -/
def Obligations.FollowIsTestedInOrder : Prop :=
  (∀ (s : State) (t : Nat) (h : Header) (region : BitVec 24) (offset : BitVec 32), s.takes h →
    s.voice? h.key.toNat = none → exec (.follow t h region offset) s = .next (s.frameEnded t)) ∧
  ∀ (s : State) (t start : Nat) (h : Header) (region : BitVec 24) (offset : BitVec 32) (v : Voice),
    s.takes h → s.voice? h.key.toNat = some v → start = offset.toNat / 1024 * 1024 →
    ∀ reason : Option Reason,
      reason = (if v.fin.isSome ∨ v.cursor = none then some .late
        else if v.follow.isSome then some .slotFull
        else match s.region? region.toNat with
          | none => some .notHeld
          | some r =>
            if r.state ≠ .live then some .notHeld
            else if (s.region? v.region).map (·.format) ≠ some r.format then some .format
            else if ¬ start < r.frames then some .range else none) →
    match reason with
    | some why => exec (.follow t h region offset) s =
        .next ((s.frameEnded t).queueNotice h.sender.toNat (.refused 5 why h.key.toNat))
    | none => ∃ u, exec (.follow t h region offset) s = .next u ∧ u.notices = s.notices ∧
        u.media = s.media ∧ u.claims = s.claims ∧
        u.voice? h.key.toNat = some { v with follow := some { region := region.toNat, offset := start } } ∧
        u.uses? region.toNat = (s.uses? region.toNat).map (· + 1)

/-- UNFOLLOW (R153): a held slot empties and the follow region has one use fewer; an empty slot, or a station
that holds no record for the tag, is left as it is. No notice is queued in any case. -/
def Obligations.UnfollowEmptiesTheSlot : Prop :=
  ∀ (s : State) (t : Nat) (h : Header), s.takes h →
    (∀ v f, s.voice? h.key.toNat = some v → v.follow = some f →
      ∃ u, exec (.unfollow t h) s = .next u ∧ u.notices = s.notices ∧ u.claims = s.claims ∧
        u.media = s.media ∧ u.voice? h.key.toNat = some { v with follow := none } ∧
        u.uses? f.region = (s.uses? f.region).map (· - 1)) ∧
    ((∀ v, s.voice? h.key.toNat = some v → v.follow = none) →
      exec (.unfollow t h) s = .next (s.frameEnded t))

/-- HALT (R36, R49, R140, R155, R156): outside STARTING it empties the voice table, the bid list and the watch
list, clears the pending load and the drive tick, leaves the tick counter, the clock source, the station and its
configuration, and sends HALTED with the number of voices retired and no RETIRED; in STARTING it is ignored. -/
def Obligations.HaltEmptiesTheStation : Prop :=
  ∀ (s : State) (t : Nat) (h : Header), s.takes h →
    (s.station.state = .starting → exec (.halt t h) s = .next (s.frameEnded t)) ∧
    (s.station.state ≠ .starting → ∃ u, exec (.halt t h) s = .next u ∧
      u.voices = [] ∧ u.claims = { bids := [], watches := [] } ∧ u.station = s.station ∧
      s.told u { addressee := h.sender.toNat, body := .halted s.voices.length, isOpen := false } ∧
      (∀ n ∈ u.notices.queue.drop s.notices.queue.length, ∀ tag reason frame,
        n.body ≠ .retired tag reason frame) ∧
      u.timebase = { s.timebase with load := none, drive := none, readyLow := false } ∧
      u.port = { bus := .skipping, sending := none } ∧ u.media.flash = s.media.flash)

/-! ### Library -/

/-- PROBE (R170): outside STARTING a station that holds the region answers HOLDS with its role, state and bid;
otherwise nothing is queued. -/
def Obligations.ProbeAnswersForHeldRegions : Prop :=
  ∀ (s : State) (t : Nat) (h : Header) (region : BitVec 24), s.takes h →
    exec (.probe t h region) s = .next
      (match s.station.state, s.region? region.toNat with
        | .starting, _ => s.frameEnded t
        | _, none => s.frameEnded t
        | _, some r => (s.frameEnded t).queueNotice h.sender.toNat (.holds region.toNat r.role r.state
            (2048 * (if s.idleRecord? = none then 1 else 0) +
              min 2047 (8 * (s.die r.die).reads.length +
                256 * (if (s.die r.die).state.longOp?.isSome then 1 else 0) + s.voices.length / 2))))

/-- INSTALL outside STARTING (R159, R160, R161): the first failing test refuses the frame with its reason, and
only a notice is queued; an admitted one owes a log record, takes its id and the die with the most available
pages, the lower number on equal figures, and joins the work list. Alone there with the page buffer free it reads
page 0 at once; behind another item, or with the page buffer held, it waits. -/
def Obligations.InstallIsTestedInOrder : Prop :=
  ∀ (s : State) (t : Nat) (h : Header) (region : BitVec 24) (format : BitVec 8)
    (frames loopStart loopEnd : BitVec 24) (source : BitVec 64) (segments pages : Nat),
    s.takes h → s.station.state ≠ .starting →
    segments = (frames.toNat + 1023) / 1024 →
    pages = pagesOf (Format.ofByte format.toNat) frames.toNat →
    ∀ reason : Option Reason,
      reason = (if 4 ≤ s.installer.work.length ∨ s.installer.wiping then some .busy
        else if s.delivery.link = .down then some .linkDown
        else if 1048575 < region.toNat ∨ frames.toNat = 0 then some .range
        else if 7864320 < frames.toNat then some .tooLarge
        else if (s.region? region.toNat).isSome ∨ region.toNat ∈ s.catalogue.pendingInstalls then
          some .exists_
        else if format.getLsbD 2 = true ∧ ¬(loopStart.toNat % 1024 = 0 ∧ loopEnd.toNat % 1024 = 0 ∧
            loopStart.toNat < loopEnd.toNat ∧ loopEnd.toNat ≤ 1024 * segments) then some .badLoop
        else if 49152 ≤ s.catalogue.appendPos + s.catalogue.owed then some .logFull
        else if 8192 < s.catalogue.regions.length + s.catalogue.pendingInstalls.length + 1 then some .noSpace
        else if ∀ d ∈ List.range 8, s.availablePages d < (pages : Int) then some .noSpace else none) →
    match reason with
    | some why => exec (.install t h region format frames loopStart loopEnd source) s =
        .next (State.finish ((s.frameEnded t).queueNotice h.sender.toNat (.refused 10 why region.toNat)))
    | none => ∃ u d, exec (.install t h region format frames loopStart loopEnd source) s = .next u ∧
        u.voices = s.voices ∧ u.claims = s.claims ∧
        d < 8 ∧ (pages : Int) ≤ s.availablePages d ∧ (∀ e, e < 8 → s.availablePages e ≤ s.availablePages d) ∧
        (∀ e, e < d → s.availablePages e < s.availablePages d) ∧
        (s.settled → u.catalogue = { s.catalogue with
          owed := s.catalogue.owed + 1
          pendingInstalls := s.catalogue.pendingInstalls ++ [region.toNat] }) ∧
        (s.settled → ∀ phase : InstallPhase,
          (s.installer.work ≠ [] ∨ s.installer.held = true → phase = .waiting) →
          (s.installer.work = [] → s.installer.held = false → phase = .reading) →
          u.installer.work = s.installer.work ++ [.install {
            sender := h.sender.toNat, region := region.toNat, format := format.toNat
            frames := frames.toNat, loopStart := loopStart.toNat, loopEnd := loopEnd.toNat
            source := source.toNat, die := d, reserved := pages, q := 0, extents := []
            phase := phase }]) ∧
        (s.settled → s.installer.work ≠ [] ∨ s.installer.held = true →
          u.delivery.installRead = s.delivery.installRead) ∧
        (s.settled → s.installer.work = [] → s.installer.held = false →
          u.delivery.installRead = some
            { address := source.toNat, since := max s.clock t
              bytes := min 24576 (frames.toNat * (Format.ofByte format.toNat).frameSize) })

/-- RECLAIM outside STARTING (R159, R167, R168): the first failing test refuses the frame with its reason; an
admitted one makes its region DEPARTING, owes a log record and joins the work list, and alone there it runs and
places its VOID record's program, here with die 0 at work. -/
def Obligations.ReclaimIsTestedInOrder : Prop :=
  ∀ (s : State) (t : Nat) (h : Header) (region : BitVec 24), s.takes h → s.station.state ≠ .starting →
    ∀ reason : Option Reason,
      reason = (if 4 ≤ s.installer.work.length ∨ s.installer.wiping then some .busy
        else match s.region? region.toNat with
          | none => some .absent
          | some r =>
            if r.inUse ≠ 0 then some .inUse
            else if 49152 ≤ s.catalogue.appendPos + s.catalogue.owed then some .logFull else none) →
    match reason with
    | some why => exec (.reclaim t h region) s =
        .next (State.finish ((s.frameEnded t).queueNotice h.sender.toNat (.refused 11 why region.toNat)))
    | none => ∃ u, exec (.reclaim t h region) s = .next u ∧ u.voices = s.voices ∧ u.claims = s.claims ∧
        (s.settled → s.installer.work ≠ [] ∨ s.installer.held = false ∧ (s.die 0).state ≠ .idle →
          (u.region? region.toNat).map (·.state) = some .departing ∧
          u.catalogue.owed = s.catalogue.owed + 1 ∧
          u.installer.work = s.installer.work ++
            [.reclaim h.sender.toNat region.toNat s.installer.work.isEmpty] ∧
          (s.installer.work = [] → (u.die 0).longOps = (s.die 0).longOps ++ [.program
            { block := s.catalogue.appendPos / 6144, page := s.catalogue.appendPos % 6144 / 48
              first := s.catalogue.appendPos % 48, count := 1, purpose := .log (voidRecord region.toNat) }]))

/-- WIPE outside STARTING (R17, R159, R169): refused BUSY when the work list, the voice table or the bid list is
not empty; otherwise the region table and the free lists empty, every block but the LOG ones is ERASING, an erase of
each block that had none yet joins its die's long-op queue in ascending order, the first begins on a die that is IDLE
with no read waiting, and the item runs with 16,384 erases to end. Each erase that ends lowers that number, a failed
one raises the worn count, the last one of a LOG block sets the append position to 0, and the last of all ends the
item with WIPED to its sender. The numbers of erases still to end are the model's own (log entry 23). -/
def Obligations.WipeEmptiesTheCatalogue : Prop :=
  (∀ (s : State) (t : Nat) (h : Header), s.takes h → s.station.state ≠ .starting →
    (¬(s.installer.work = [] ∧ s.voices = [] ∧ s.claims.bids = []) →
      exec (.wipe t h) s =
        .next (State.finish ((s.frameEnded t).queueNotice h.sender.toNat (.refused 13 .busy 0)))) ∧
    (s.installer.work = [] ∧ s.voices = [] ∧ s.claims.bids = [] → s.settled →
      (∀ die ∈ s.media.dies, ∀ op ∈ die.longOps, op.isProgram = false) →
      ∃ u, exec (.wipe t h) s = .next u ∧ u.catalogue.regions = [] ∧ u.catalogue.owed = 0 ∧
        u.catalogue.pendingInstalls = [] ∧ u.catalogue.appendPos = s.catalogue.appendPos ∧
        u.installer.work = [.wipe h.sender.toNat 0 16384 8] ∧
        (∀ d, d < 8 → (u.dieBlocks d).free = [] ∧
          (u.dieBlocks d).blocks = (s.dieBlocks d).blocks.map fun b =>
            { state := if b.state = .log then .log else .erasing, live := 0, pending := 0 }) ∧
        ∀ d ops, d < 8 → d < s.media.dies.length →
          ops = (s.die d).longOps ++ ((List.range (s.dieBlocks d).blocks.length).filter fun b =>
            (s.block d b).state ≠ .queued ∧ (s.block d b).state ≠ .erasing).map LongOp.erase →
          ((s.die d).state ≠ .idle → u.die d = { s.die d with longOps := ops }) ∧
          (∀ op rest, (s.die d).state = .idle → (s.die d).reads = [] → (s.die d).longOps = [] →
            ops = op :: rest → u.die d = { s.die d with state := .busy op, longOps := rest }))) ∧
  ∀ (s : State) (t d b sender worn left logLeft : Nat) (ok : Bool) (c : Instr),
    s.opEnds t d (.erase b) ok c → s.installer.work = [.wipe sender worn left logLeft] → s.settled →
    (∀ die ∈ s.media.dies, ∀ op ∈ die.longOps, op.isProgram = false) →
    ∀ worn', worn' = worn + (if ok then 0 else 1) →
    ∃ u, exec c s = .next u ∧
      u.catalogue.appendPos = (if (s.block d b).state = .log ∧ logLeft ≤ 1 then 0 else s.catalogue.appendPos) ∧
      (1 < left → u.installer.work = [.wipe sender worn' (left - 1)
        (if (s.block d b).state = .log then logLeft - 1 else logLeft)]) ∧
      (left ≤ 1 → u.installer.work = [] ∧
        s.told u { addressee := sender, body := .wiped worn', isOpen := false })

/-- CONFIGURE (R53, R173): ignored in STARTING; else BUSY with a voice or a bid entry; BAD-CONFIG with a value out
of range; otherwise the four values are in force, the counter is 0 in FALLBACK with the divider at the event's
instant, the load, the drive tick and the watches are gone, and the station is CONFIGURED. The reference instant and
the divider's last tick are absent then by the model's choice (log entry 9), and no tick is owed (25). -/
def Obligations.ConfigureSetsTheSession : Prop :=
  ∀ (s : State) (t : Nat) (h : Header) (rateCode : BitVec 8) (base : BitVec 64)
    (ringLength primeDepth : BitVec 8) (good : Prop), s.takes h →
    (good ↔ rateCode.toNat ≤ 5 ∧ ringLength.toNat ∈ [4, 8, 16, 32] ∧ 1 ≤ primeDepth.toNat ∧
      primeDepth.toNat ≤ ringLength.toNat ∧ base.toNat % 4096 = 0 ∧
      base.toNat + 4096 * ringLength.toNat * 6144 ≤ 2 ^ 64) →
    (s.station.state = .starting →
      exec (.configure t h rateCode base ringLength primeDepth) s = .next (s.frameEnded t)) ∧
    (s.station.state ≠ .starting → ¬(s.voices = [] ∧ s.claims.bids = []) →
      exec (.configure t h rateCode base ringLength primeDepth) s =
        .next ((s.frameEnded t).queueNotice h.sender.toNat (.refused 12 .busy 0))) ∧
    (s.station.state ≠ .starting → s.voices = [] ∧ s.claims.bids = [] → ¬good →
      exec (.configure t h rateCode base ringLength primeDepth) s =
        .next ((s.frameEnded t).queueNotice h.sender.toNat (.refused 12 .badConfig 0))) ∧
    (s.station.state ≠ .starting → s.voices = [] ∧ s.claims.bids = [] → good → ∃ c : Configuration,
      SessionRate.ofCode rateCode.toNat = some c.rate ∧ c.base = base.toNat ∧
      c.ringLength = ringLength.toNat ∧ c.primeDepth = primeDepth.toNat ∧
      exec (.configure t h rateCode base ringLength primeDepth) s = .next { s.frameEnded t with
        station := { s.station with state := .configured, config := some c }
        claims := { s.claims with watches := [] }
        timebase := { s.timebase with
          source := .fallback, qual := 0, prevEdge := none, reference := none, standIn := 0
          dividerStart := max s.clock t, accumulator := 0, lastDivider := none, owedTick := false, tick := 0
          load := none, drive := none, readyLow := false } })

/-- LOG_SECTOR_READ_END at an erased sector, or at the last of the log's 49,152, which is classified first (R15, R16,
R172): the scan ends, the append position is the erased sector's number, or 49,152, PRESENT is sent to all stations with
the number of regions, the skipped count and the append position, no free list has a block, blocks with live pages are
FULL, the others but the LOG ones are QUEUED or their erase has begun, and the station is UNCONFIGURED. The program
front of a LOG block is the append position's place in it, from 0 to 6,144, and that of every other block 6,144 (R102).
What the scan finds in a sector of unknown contents is log entry 27. -/
def Obligations.ErasedSectorEndsTheScan : Prop :=
  ∀ (s : State) (t n skipped pos : Nat) (bad : Bool) (x : Scan) (record : LogRecord) (regions : List Region),
    (s.die 0).state = .logRead n → s.catalogue.scan = some x → s.settled →
    (∀ die ∈ s.media.dies, die.longOps = []) →
    (s.media.flash.readsErased x.sector bad ∧ pos = x.sector ∧ regions = s.catalogue.regions ∧ skipped = x.skipped ∨
      ¬s.media.flash.readsErased x.sector bad ∧ x.sector + 1 = 49152 ∧ pos = 49152 ∧
        record = s.media.flash.recordAt x.sector bad ∧ regions = s.replayed record ∧
        skipped = x.skipped + if s.takesRecord record then 0 else 1) →
    ∃ u, exec (.logSectorReadEnd t bad) s = .next u ∧ u.station = { s.station with state := .unconfigured } ∧
      u.catalogue.scan = none ∧ u.catalogue.appendPos = pos ∧
      u.catalogue.regions = regions ∧ u.media.flash = s.media.flash ∧
      s.told u { addressee := 31, body := .present regions.length skipped pos, isOpen := false } ∧
      (∀ d b, d < 8 → b < 2048 → (u.media.fronts.getD d [])[b]? = some
        (if d = 0 ∧ b < 8 then min 6144 (pos - 6144 * b) else 6144)) ∧
      ∀ d b, d < 8 → b < (s.dieBlocks d).blocks.length → (u.dieBlocks d).free = [] ∧
        ((s.block d b).state = .log → u.block d b = s.block d b) ∧
        ((s.block d b).state ≠ .log →
          ((0 < pagesIn (regions.flatMap (·.extents)) d b →
            u.block d b = { state := .full, pending := 0
                            live := pagesIn (regions.flatMap (·.extents)) d b }) ∧
          (pagesIn (regions.flatMap (·.extents)) d b = 0 →
            (u.block d b).state = .queued ∨ (u.block d b).state = .erasing)))

/-- LOG_SECTOR_READ_END at a sector that is not erased and not the last (R15): a valid INSTALL record whose id is
new and whose pages are free joins the table; a VOID record removes its region; every other result raises the
skipped count, a sector passed over by a failed log program among them. The scan goes on with the next sector. A region
id above 1,048,575 is no field in range (log entry 19); what the scan finds in a sector of unknown contents is log entry
27. -/
def Obligations.ScanReplaysTheLog : Prop :=
  ∀ (s : State) (t n : Nat) (bad : Bool) (x : Scan) (record : LogRecord),
    (s.die 0).state = .logRead n → s.catalogue.scan = some x → x.sector + 1 < 49152 → s.settled →
    ¬s.media.flash.readsErased x.sector bad → record = s.media.flash.recordAt x.sector bad →
    ∃ u, exec (.logSectorReadEnd t bad) s = .next u ∧ u.station = s.station ∧ u.voices = s.voices ∧
      u.media.flash = s.media.flash ∧ u.die 0 = { s.die 0 with state := .logRead (x.sector + 1) } ∧
      u.catalogue.scan = some { sector := x.sector + 1
                                skipped := x.skipped + if s.takesRecord record then 0 else 1 } ∧
      u.catalogue.blockTable = s.catalogue.blockTable ∧ u.catalogue.regions = s.replayed record ∧
      (s.media.flash.cause? x.sector = some .passedOver →
        u.catalogue.regions = s.catalogue.regions ∧
        u.catalogue.scan = some { sector := x.sector + 1, skipped := x.skipped + 1 })

/-! ### Media array and link -/

/-- PROGRAM_COMPLETE, ERASE_COMPLETE, and SUSPEND_REPORTED of an operation that had completed (R11, R101 to R103,
R106, R163). The program front is the sector after the run, or 0 after an erase; in success the run holds the
program's data, or reads as erased, in failure its bytes are unknown; every byte outside the run is as before, and so
are the voices. An erased block is FREE at the tail of the free list, or WORN, and a LOG block stays LOG. A page that
succeeds takes its block to the next page, or to FULL, with one pending page more, and the install reads its next page
or, after the last, appends its log record; a page that fails leaves the block WORN and fails the install with
PROGRAM. An install that waits for a block opens the erased one and programs its page 0, and fails with NO-SPACE when
the erase failed and no other is to come. Unknown bytes are free values (log entry 7). -/
def Obligations.LongOpsWriteTheFlash : Prop :=
  (∀ (s : State) (t d first b : Nat) (ok : Bool) (c : Instr), d < s.media.fronts.length →
    b < (s.media.fronts.getD d []).length →
    (∀ p : Program, s.opEnds t d (.program p) ok c → p.block = b →
      first = sectorNumber d b (p.page * 48 + p.first) → (s.programData p).length = p.count * 512 →
      ∃ u, exec c s = .next u ∧ u.voices = s.voices ∧ u.station = s.station ∧
        u.claims.watches = s.claims.watches ∧ u.clock = max s.clock t ∧
        (u.media.fronts.getD d []).getD b 0 = p.page * 48 + p.first + p.count ∧
        ∀ a, u.media.flash.read a =
          if first * 512 ≤ a ∧ a < (first + p.count) * 512 then
            if ok then (s.programData p).getD (a - first * 512) 0xFF#8 else Config.freeByte s.stamp a
          else s.media.flash.read a) ∧
    (s.opEnds t d (.erase b) ok c → first = sectorNumber d b 0 →
      ∃ u, exec c s = .next u ∧ u.voices = s.voices ∧ u.station = s.station ∧
        u.claims.watches = s.claims.watches ∧ u.clock = max s.clock t ∧
        (u.media.fronts.getD d []).getD b 0 = 0 ∧
        ∀ a, u.media.flash.read a =
          if first * 512 ≤ a ∧ a < (first + 6144) * 512 then
            if ok then 0xFF#8 else Config.freeByte s.stamp a
          else s.media.flash.read a)) ∧
  ∀ (s : State) (t d b : Nat) (ok : Bool) (c : Instr), s.settled → d < s.media.dies.length →
    d < s.catalogue.blockTable.length → b < (s.dieBlocks d).blocks.length →
    (∀ die ∈ s.media.dies, ∀ op ∈ die.longOps, op.isProgram = false) →
    (s.opEnds t d (.erase b) ok c → (∀ i, .install i ∈ s.installer.work → i.phase ≠ .waitingBlock) →
      (s.installer.wiping = true → s.installer.work.length = 1) →
      ∃ u, exec c s = .next u ∧
        ((s.block d b).state = .log → u.block d b = s.block d b ∧ (u.dieBlocks d).free = (s.dieBlocks d).free) ∧
        ((s.block d b).state ≠ .log → ok = true → u.block d b = { state := .free, live := 0, pending := 0 } ∧
          (u.dieBlocks d).free = (s.dieBlocks d).free ++ [b]) ∧
        ((s.block d b).state ≠ .log → ok = false → u.block d b = { s.block d b with state := .worn } ∧
          (u.dieBlocks d).free = (s.dieBlocks d).free)) ∧
    (∀ i rest, s.opEnds t d (.erase b) ok c → s.installer.work = .install i :: rest → i.phase = .waitingBlock →
      i.die = d → (s.block d b).state ≠ .log → (s.dieBlocks d).openBlock? = none → (s.dieBlocks d).free = [] →
      (ok = true → ∃ u, exec c s = .next u ∧ u.block d b = { state := .opened 0, live := 0, pending := 0 } ∧
        (u.dieBlocks d).free = [] ∧ u.installer.work = .install { i with phase := .programming } :: rest ∧
        ∃ op, op = LongOp.program { block := b, page := 0, first := 0, count := i.programSectors
                                    purpose := .page } ∧
          (op ∈ (u.die d).longOps ∨ (u.die d).state = .busy op)) ∧
      (ok = false → rest = [] →
        (∀ k, k ≠ b → (s.block d k).state ≠ .queued ∧ (s.block d k).state ≠ .erasing) →
        ∃ u, exec c s = .next u ∧ (u.block d b).state = .worn ∧ u.installer.work = [] ∧
          s.told u { addressee := i.sender, body := .installFailed i.region .noSpace, isOpen := false })) ∧
    ∀ p i rest, s.opEnds t d (.program p) ok c → p.purpose = .page → p.block = b →
      s.installer.work = .install i :: rest → i.phase = .programming → i.die = d →
      (∀ next, ok = true → (s.block d b).state = .opened next → ∀ pos, pos = s.catalogue.appendPos →
        ∀ k : Block, k = { state := if 127 ≤ next then .full else .opened (next + 1)
                           live := (s.block d b).live, pending := (s.block d b).pending + 1 } →
        (i.q + 1 < i.pages → ∃ u, exec c s = .next u ∧ u.block d b = k ∧
          u.installer.work = .install { i.programmed b p.page with phase := .reading } :: rest ∧
          u.delivery.installRead = some
            { address := i.source + 24576 * (i.q + 1), since := max s.clock t
              bytes := min 24576 (i.frames * (Format.ofByte i.format).frameSize - 24576 * (i.q + 1)) }) ∧
        (i.pages ≤ i.q + 1 → (s.fronts 0).getD (pos / 6144) 0 ≤ pos % 6144 → d ≠ 0 ∨ b ≠ pos / 6144 →
          ∃ u, exec c s = .next u ∧ u.block d b = k ∧
            u.installer.work = .install { i.programmed b p.page with phase := .appending } :: rest ∧
            ∃ op, op = LongOp.program { block := pos / 6144, page := pos % 6144 / 48, first := pos % 48, count := 1
                                        purpose := .log (i.programmed b p.page).logRecord } ∧
              (op ∈ (u.die 0).longOps ∨ (u.die 0).state = .busy op))) ∧
      (ok = false → rest = [] → ∃ u, exec c s = .next u ∧
        u.block d b = { state := if (s.block d b).state = .erasing then .erasing else .worn
                        live := (s.block d b).live, pending := 0 } ∧
        u.installer.work = [] ∧ u.catalogue.owed = s.catalogue.owed - 1 ∧
        u.catalogue.pendingInstalls = s.catalogue.pendingInstalls.erase i.region ∧
        s.told u { addressee := i.sender, body := .installFailed i.region .program, isOpen := false })

/-- The end of a log record's program, its item alone in the work list (R12 to R14, R106, R164, R165, R168). The append
position moves on and one record fewer is owed, whatever the result. An INSTALL record in success puts the region into
the table, LIVE with in-use count 0, moves its pages from pending to live in the blocks its extents name, makes FULL
blocks with neither QUEUED, and sends INSTALLED; in failure the install fails with LOG, and the scan will skip the sector
passed over, whatever its read reports (R15, log entry 27). A VOID record in
success takes the region out of the table and its pages out of the live counts, FULL blocks left with no live and no
pending page become QUEUED, and RECLAIMED is sent; in failure the region is LIVE again and the RECLAIM is refused with
LOG. -/
def Obligations.LogAppendInstallsTheRegion : Prop :=
  ∀ (s : State) (t d : Nat) (p : Program) (record : List Byte) (ok : Bool) (c : Instr),
    s.opEnds t d (.program p) ok c → p.purpose = .log record → s.settled →
    (∀ die ∈ s.media.dies, ∀ op ∈ die.longOps, op.isProgram = false) →
    (ok = false → 0 < p.count → ∃ u, exec c s = .next u ∧
      ∀ n bad, n = sectorNumber d p.block (p.page * 48 + p.first) →
        ¬u.media.flash.readsErased n bad ∧ u.media.flash.recordAt n bad = .other) ∧
    (∀ i, s.installer.work = [.install i] → i.phase = .appending → ∃ u, exec c s = .next u ∧
      u.catalogue.appendPos = s.catalogue.appendPos + 1 ∧ u.catalogue.owed = s.catalogue.owed - 1 ∧
      u.catalogue.pendingInstalls = s.catalogue.pendingInstalls.erase i.region ∧
      u.installer.work = [] ∧
      (ok = true → u.catalogue.regions = s.catalogue.regions ++
          [regionOf i.region i.format i.frames i.loopStart i.loopEnd i.extents] ∧
        (∀ e b live pending, e < 8 → b < (s.dieBlocks e).blocks.length →
          live = (s.block e b).live + pagesIn i.extents e b →
          pending = (s.block e b).pending - pagesIn i.extents e b →
          ((s.block e b).state = .full ∧ live = 0 ∧ pending = 0 →
            (u.block e b).live = 0 ∧ (u.block e b).pending = 0 ∧
              ((u.block e b).state = .queued ∨ (u.block e b).state = .erasing)) ∧
          (¬((s.block e b).state = .full ∧ live = 0 ∧ pending = 0) → (s.block e b).state ≠ .queued →
            u.block e b = { s.block e b with live := live, pending := pending })) ∧
        (s.notices.queue.length < 32 → u.notices.queue = s.notices.queue ++
          [{ addressee := i.sender, body := .installed i.region, isOpen := false }])) ∧
      (ok = false → u.catalogue.regions = s.catalogue.regions ∧
        s.told u { addressee := i.sender, body := .installFailed i.region .log, isOpen := false })) ∧
    ∀ sender region r, s.installer.work = [.reclaim sender region true] → s.region? region = some r →
      ∃ u, exec c s = .next u ∧
        u.catalogue.appendPos = s.catalogue.appendPos + 1 ∧ u.catalogue.owed = s.catalogue.owed - 1 ∧
        u.installer.work = [] ∧
        (ok = true → u.catalogue.regions = s.catalogue.regions.filter (fun x => x.id != region) ∧
          s.told u { addressee := sender, body := .reclaimed region, isOpen := false } ∧
          ∀ e b live, e < 8 → (s.block e b).state = .full →
            live = (s.block e b).live - pagesIn r.extents e b →
            (live = 0 ∧ (s.block e b).pending = 0 → (u.block e b).live = 0 ∧
              ((u.block e b).state = .queued ∨ (u.block e b).state = .erasing)) ∧
            (¬(live = 0 ∧ (s.block e b).pending = 0) → u.block e b = { s.block e b with live := live })) ∧
        (ok = false → u.region? region = some { r with state := .live } ∧
          s.told u { addressee := sender, body := .refused 11 .log region, isOpen := false })

/-- SEGMENT_READ_END (R33, R97 to R99, R175). Of a voice that is still in use: a good segment goes to delivery; a first
reading with uncorrectable sectors and slack above 1,024 joins its die's read queue again, its buffer kept, in its place
by dry tick, and no queue of delivery; otherwise MEDIA is queued and the segment goes to delivery. Every byte of its bad
sectors is 00h there, and every other byte the flash's. It joins the tail behind a posting under way, and with none its
own posting begins at once, at its ring slot's address. The read of a voice that has retired meanwhile, here with no
read waiting anywhere, is dropped and its buffer freed. The die then makes its next decision, over the queue as it now
stands (`Die.decides`); that the result is handed on before it is log entry 12. -/
def Obligations.SegmentReadsAreDeliveredOrReRead : Prop :=
  (∀ (s : State) (t d : Nat) (bad : BitVec 12) (a : ActiveRead), (s.die d).state.activeRead? = some a →
    a.discarded = true ∨ s.voice? a.req.tag = none → s.settled →
    (∀ die ∈ s.media.dies, die.reads = [] ∧ die.longOps = []) →
    ∃ u, exec (.segmentReadEnd t d bad) s = .next u ∧ u.voices = s.voices ∧ u.delivery = s.delivery ∧
      u.catalogue = s.catalogue ∧ u.notices.queue = s.notices.queue ∧ u.notices.loss = s.notices.loss ∧
      u.media = { s.media with
        freeBuffers := s.media.freeBuffers + 1
        dies := s.media.dies.set d (match (s.die d).state with
          | .suspendedRead op _ => { s.die d with state := .busy op, lastResume := some (max s.clock t) }
          | _ => { s.die d with state := .idle }) }) ∧
  ∀ (s : State) (t d : Nat) (bad : BitVec 12) (r : ReadRequest) (v : Voice) (badCount slack : Nat) (e : Delivery),
    (s.die d).state.activeRead? = some { req := r, discarded := false } → s.voice? r.tag = some v →
    s.settled → (∀ die ∈ s.media.dies, die.longOps = []) →
    e.tag = r.tag → e.ring = r.ring → e.frameSize = r.frameSize → e.data.length = r.sectors * 512 →
    (∀ i j, i < r.sectors → j < 512 → e.data[i * 512 + j]? = some
      (if bad.getLsbD i then 0x00#8
        else s.media.flash.read (sectorNumber d r.block (r.page * 48 + r.sector + i) * 512 + j))) →
    badCount = ((List.range r.sectors).filter (fun i => bad.getLsbD i)).length →
    slack = v.dry.getD 0 - s.timebase.tick →
    ∃ u, exec (.segmentReadEnd t d bad) s = .next u ∧ u.voices = s.voices ∧ u.station = s.station ∧
      u.catalogue = s.catalogue ∧ u.media.flash = s.media.flash ∧
      (badCount = 0 ∨ r.attempt = .reRead ∨ slack ≤ 1024 →
        (s.delivery.posting.isSome →
          u.delivery = { s.delivery with queue := s.delivery.queue ++ [e] }) ∧
        ∀ c, s.station.config = some c → s.delivery.posting = none → s.delivery.queue = [] →
          u.delivery = { s.delivery with posting := some {
            seg := e, discarded := false
            address := c.base + (r.tag * c.ringLength + r.ring % c.ringLength) * 6144 } }) ∧
      (badCount = 0 ∨ r.attempt = .reRead ∨ slack ≤ 1024 → ∃ w free,
        u.media = { s.media with dies := s.media.dies.set d w, freeBuffers := free } ∧
        (s.die d).decides w (s.die d).reads s.media.freeBuffers free s.timebase.tick (max s.clock t)) ∧
      (badCount = 0 → u.notices.queue = s.notices.queue) ∧
      (badCount ≠ 0 → r.attempt = .reRead ∨ slack ≤ 1024 → s.notices.queue = [] → u.notices.queue =
        [{ addressee := v.requester, body := .media r.tag r.region badCount, isOpen := true }]) ∧
      (badCount ≠ 0 → r.attempt = .first → 1024 < slack →
        u.delivery = s.delivery ∧ u.notices.queue = s.notices.queue ∧
        ∀ (q : ReadRequest) (before after : List ReadRequest),
          q = { r with attempt := .reRead, kept := true, dry := v.dry.getD 0 } →
          (s.die d).reads = before ++ after →
          (∀ x ∈ before, x.dry < q.dry ∨ x.dry = q.dry ∧ x.tag ≤ q.tag) →
          (∀ x ∈ after, q.dry < x.dry ∨ q.dry = x.dry ∧ q.tag < x.tag) → ∃ w free,
          u.media = { s.media with dies := s.media.dies.set d w, freeBuffers := free } ∧
          (s.die d).decides w (before ++ q :: after) s.media.freeBuffers free s.timebase.tick (max s.clock t))

/-- SUSPEND_REPORTED and RESUME_HOLD_OFF_EXPIRY (R94, R105 to R107): a suspended operation with no urgent read in its
queue resumes at once, with the resume time noted; an urgent head, due within 8,192 ticks, is read with the operation
suspended when it keeps a buffer or one is free, and with none to be had the die stays SUSPENDED; an erase that had
completed leaves the die IDLE with no resume time; 250 us after the last resume a head due within 2,048 ticks asks for
a suspend. -/
def Obligations.SuspendedDiesResume : Prop :=
  ∀ (s : State) (t d at_ : Nat) (op : LongOp), d < s.media.dies.length → s.settled →
    ((s.die d).state = .suspendPending op → (s.die d).headWithin s.timebase.tick 8192 = false →
      ∃ u, exec (.suspendReported t d .suspended) s = .next u ∧ u.voices = s.voices ∧
        u.station = s.station ∧ u.catalogue = s.catalogue ∧
        u.media = { s.media with
          dies := s.media.dies.set d { s.die d with state := .busy op, lastResume := some (max s.clock t) } }) ∧
    (∀ r rest, (s.die d).state = .suspendPending op → (s.die d).reads = r :: rest →
      r.dry - s.timebase.tick ≤ 8192 →
      ∃ u, exec (.suspendReported t d .suspended) s = .next u ∧ u.voices = s.voices ∧
        u.station = s.station ∧ u.catalogue = s.catalogue ∧
        (r.kept = true ∨ 0 < s.media.freeBuffers → u.media = { s.media with
          dies := s.media.dies.set d { s.die d with
            state := .suspendedRead op { req := r, discarded := false }, reads := rest }
          freeBuffers := if r.kept then s.media.freeBuffers else s.media.freeBuffers - 1 }) ∧
        (s.media.freeBuffers = 0 → (∀ x ∈ r :: rest, x.kept = false) → u.media = { s.media with
          dies := s.media.dies.set d { s.die d with state := .suspended op } })) ∧
    (∀ b ok, (s.die d).state = .suspendPending (.erase b) → (s.die d).reads = [] → (s.die d).longOps = [] →
      s.installer.work = [] →
      ∃ u, exec (.suspendReported t d (.completed ok)) s = .next u ∧ u.voices = s.voices ∧
        u.station = s.station ∧ u.media.freeBuffers = s.media.freeBuffers ∧
        u.media.dies = s.media.dies.set d { state := .idle, lastResume := none, reads := [], longOps := [] }) ∧
    ((s.die d).state = .busy op → (s.die d).lastResume = some at_ →
      ∃ u, exec (.resumeHoldOffExpiry d) s = .next u ∧ u.voices = s.voices ∧ u.station = s.station ∧
        u.catalogue = s.catalogue ∧ u.clock = max s.clock (at_ + 12288) ∧
        u.media = { s.media with
          dies := s.media.dies.set d (if (s.die d).headWithin s.timebase.tick 2048
            then { s.die d with state := .suspendPending op } else s.die d) })

/-- POSTING_END (R72 to R75, R80 to R86, R175, R176): a discarded segment leaves no completion; the completion of a
voice's in-flight segment raises d and takes the segment out of flight, and at the fill limit the fill is COMPLETE with
no dry tick. A FILLING voice, or a LATE one that has its next frames now, is FILLING with its next segment issued or not,
and an issue advances the cursor, with its stitch and its region end. A LATE voice whose position has passed the new
dry point skips, and the gap from its dry frame is reported. Then the head of the delivery queue begins its posting, at
the address of its ring slot. -/
def Obligations.PostingsCompleteDeliveries : Prop :=
  ∀ (s : State) (t : Nat) (p : Posting), s.delivery.posting = some p →
    ∃ u, exec (.postingEnd t) s = .next u ∧ u.station = s.station ∧
      (p.discarded = true → u.voices = s.voices) ∧
      (∀ v, p.discarded = false → s.voice? p.seg.tag = some v → v.inFlight = some p.seg.ring →
        (v.fillLimit = true → u.voice? p.seg.tag = some { v with
          d := v.d + 1, inFlight := none, fill := .complete, dry := none, dryFrame := none }) ∧
        (v.fillLimit = false → v.fill = .filling ∨ v.fill = .late ∧ v.p / 65536 + 4 < v.s0 + 1024 * (v.d + 1) →
          ∃ w, u.voice? p.seg.tag = some w ∧ w.d = v.d + 1 ∧
          w.fill = .filling ∧ w.dryFrame = none ∧ w.p = v.p ∧ w.r = v.r ∧
          (∀ k r, v.cursor = some k → s.region? v.region = some r → (r.locate k).isSome →
            v.n < v.consumed + s.ringLength → w.n = v.n + 1) ∧
          (w.inFlight = none ∧ w.n = v.n ∧ w.cursor = v.cursor ∧ w.region = v.region ∧ w.fin = v.fin ∨
            w.inFlight = some v.n ∧ w.n = v.n + 1 ∧ s.cursorAdvances u v w)) ∧
        (v.fillLimit = false → v.fill = .late → v.s0 + 1024 * (v.d + 1) ≤ v.p / 65536 + 4 → v.n = v.d + 1 →
          ∃ w, u.voice? p.seg.tag = some w ∧ w.p = v.p ∧ w.r = v.r ∧
            ∀ gapStart, v.dryFrame = some gapStart →
              s.skips u { v with d := v.d + 1, inFlight := none } w (v.p / 65536) gapStart 0)) ∧
      (∀ e rest c, s.delivery.queue = e :: rest → s.station.config = some c →
        u.delivery.queue = rest ∧ u.delivery.posting = some {
          seg := e, discarded := false
          address := c.base + (e.tag * c.ringLength + e.ring % c.ringLength) * 6144 }) ∧
      (u.delivery.posting = none → u.delivery.queue = [] ∨ s.station.config = none)

/-- LINK_DOWN with the link UP (R32, R37, R140, R165, R166, R174): the posting, the delivery queue and the install read
are gone, every voice has retired with RETIRED LINK sent, the bid list is empty with no CLAIM on the bus, and the
timebase, the configuration and the watches are kept, but that one which waits for the end of an abandoned CLAIM may be
decided (log entry 29). A RUNNING INSTALL fails with LINK-DOWN, unless its log record's program is under way: then it
runs on. With the link DOWN the command changes nothing but the clock. The order of its parts is log entry 11. -/
def Obligations.LinkLossRetiresEveryVoice : Prop :=
  ∀ (s : State) (t : Nat),
    (s.delivery.link = .down → exec (.linkDown t) s = .next { s with clock := max s.clock t }) ∧
    (s.delivery.link = .up → ∃ u, exec (.linkDown t) s = .next u ∧ u.clock = max s.clock t ∧
      u.delivery = { link := .down, queue := [], posting := none, installRead := none } ∧
      u.voices = [] ∧ u.claims.bids = [] ∧ u.station = s.station ∧
      (∀ v ∈ s.voices, s.told u
        { addressee := v.requester, body := .retired v.tag .link (v.p / 65536), isOpen := false }) ∧
      u.timebase = { s.timebase with readyLow := false } ∧
      (∀ tag f, u.port.sending ≠ some (.claim tag f)) ∧
      ((∀ w ∈ s.claims.watches, w.due = false) → u.claims.watches = s.claims.watches) ∧
      (s.settled → (∀ die ∈ s.media.dies, die.state = .idle → ∀ op ∈ die.longOps, op.isProgram = false) →
        ∀ (i : InstallItem) (rest : List WorkItem) (appending : Prop),
          s.installer.work = .install i :: rest → i.phase ≠ .waiting →
          (appending ↔ i.phase = .appending ∧ ∃ p record,
            (s.die 0).state.longOp? = some (.program p) ∧ p.purpose = .log record) →
          (appending → u.installer.work = s.installer.work ∧
            u.catalogue.pendingInstalls = s.catalogue.pendingInstalls) ∧
          (¬appending →
            s.told u { addressee := i.sender, body := .installFailed i.region .linkDown, isOpen := false } ∧
            (rest = [] → u.installer.work = [] ∧ u.catalogue.owed = s.catalogue.owed - 1 ∧
              u.catalogue.pendingInstalls = s.catalogue.pendingInstalls.erase i.region))))

/-- INSTALL_READ_DONE, INSTALL_READ_ERROR and INSTALL_READ_TIMEOUT (R11, R162, R163, R165, R177): a page read in full
is in the page buffer, padded with zero frames, and its program waits for the die's OPEN block, here with the die at
work; with no OPEN block the head of the die's free list is opened and page 0 programmed; with none free the item waits
for a block while an erase is to come on the die, and fails with NO-SPACE otherwise; an error or 50 ms without success
ends the read, and the install, alone in the work list, fails with LINK-READ. A list of bytes shorter than the read is
padded (log entry 20). -/
def Obligations.InstallReadsEndInAPageOrAFailure : Prop :=
  ∀ (s : State) (r : InstallRead) (i : InstallItem), s.delivery.installRead = some r →
    s.installer.work = [.install i] → s.settled →
    (∀ die ∈ s.media.dies, ∀ op ∈ die.longOps, op.isProgram = false) →
    (∀ (t : Nat) (bytes : List Byte), (s.dieBlocks i.die).openBlock? = none →
      ∃ u, exec (.installReadDone t bytes) s = .next u ∧ u.delivery.installRead = none ∧
        u.voices = s.voices ∧ u.installer.pageBuffer = i.page r.bytes bytes ∧
        (∀ b rest, (s.dieBlocks i.die).free = b :: rest → b < (s.dieBlocks i.die).blocks.length →
          (s.die i.die).state ≠ .idle →
          u.block i.die b = { s.block i.die b with state := .opened 0 } ∧ (u.dieBlocks i.die).free = rest ∧
          u.installer.work = [.install { i with phase := .programming }] ∧
          u.die i.die = { s.die i.die with longOps := (s.die i.die).longOps ++
            [.program { block := b, page := 0, first := 0, count := i.programSectors, purpose := .page }] }) ∧
        ((s.dieBlocks i.die).free = [] →
          ((∃ k ∈ (s.dieBlocks i.die).blocks, k.state = .queued ∨ k.state = .erasing) →
            u.installer.work = [.install { i with phase := .waitingBlock }] ∧ u.catalogue = s.catalogue ∧
            u.media = s.media) ∧
          ((∀ k ∈ (s.dieBlocks i.die).blocks, k.state ≠ .queued ∧ k.state ≠ .erasing) →
            u.installer.work = [] ∧ u.catalogue.owed = s.catalogue.owed - 1 ∧
            u.catalogue.pendingInstalls = s.catalogue.pendingInstalls.erase i.region ∧
            s.told u { addressee := i.sender, body := .installFailed i.region .noSpace, isOpen := false }))) ∧
    (∀ (t b next : Nat) (bytes : List Byte), (s.dieBlocks i.die).openBlock? = some (b, next) →
      (s.die i.die).state ≠ .idle →
      ∃ u, exec (.installReadDone t bytes) s = .next u ∧ u.delivery.installRead = none ∧
        u.voices = s.voices ∧ u.catalogue = s.catalogue ∧
        u.installer.pageBuffer = i.page r.bytes bytes ∧
        u.installer.work = [.install { i with phase := .programming }] ∧
        u.die i.die = { s.die i.die with longOps := (s.die i.die).longOps ++
          [.program { block := b, page := next, first := 0, count := i.programSectors
                      purpose := .page }] }) ∧
    ∀ (c : Instr) (t : Nat), c = .installReadError t ∨ c = .installReadTimeout →
      ∃ u, exec c s = .next u ∧ u.delivery.installRead = none ∧ u.installer.work = [] ∧
        u.voices = s.voices ∧ u.catalogue.owed = s.catalogue.owed - 1 ∧
        u.catalogue.pendingInstalls = s.catalogue.pendingInstalls.erase i.region ∧
        u.catalogue.regions = s.catalogue.regions ∧
        (s.notices.queue.length < 32 → u.notices.queue = s.notices.queue ++
          [{ addressee := i.sender, body := .installFailed i.region .linkRead, isOpen := false }]) ∧
        ∀ d b, (u.block d b).pending = 0

/-! ### Counts, prices and deadlines -/

/-- The consumed count (R62) is the number of ring segments j below n for which the whole-frame position has
reached s0 + 1,024(j + 1) + 4, which is min(n, X) in closed form; it is 0 at p = 0, and it does not fall while
p and n do not. -/
def Obligations.ConsumedCountsPassedSegments : Prop :=
  (∀ v : Voice, v.consumed =
    ((List.range v.n).filter fun j => decide (v.s0 + 1024 * (j + 1) + 4 ≤ v.p / 65536)).length) ∧
  (∀ v : Voice, v.consumed =
    min v.n (if v.s0 + 4 ≤ v.p / 65536 then (v.p / 65536 - 4 - v.s0) / 1024 else 0)) ∧
  (∀ v : Voice, v.p = 0 → v.consumed = 0) ∧
  ∀ v w : Voice, w.s0 = v.s0 → v.p ≤ w.p → v.n ≤ w.n → v.consumed ≤ w.consumed

/-- The steal victim (R29) is an in-use voice whose end is present, no other such voice has a smaller remaining
length E - floor(p), and none with as much a lower tag; there is none only when no voice has its end
present. -/
def Obligations.VictimIsClosestToItsEnd : Prop :=
  ∀ s : State,
    (∀ v, s.stealVictim? = some v → v ∈ s.voices ∧ ∃ e, v.fin = some e ∧
      ∀ w ∈ s.voices, ∀ e', w.fin = some e' →
        (e.frame : Int) - (v.p / 65536 : Nat) < (e'.frame : Int) - (w.p / 65536 : Nat) ∨
        ((e.frame : Int) - (v.p / 65536 : Nat) = (e'.frame : Int) - (w.p / 65536 : Nat) ∧ v.tag ≤ w.tag)) ∧
    (s.stealVictim? = none → ∀ v ∈ s.voices, v.fin = none)

/-- The slack bounds the run to the dry point (R64, R65): a RUNNING voice advanced by fewer ticks than the slack that
a dry tick is computed from has not reached its dry point. -/
def Obligations.SlackBoundsTheRunToTheDryPoint : Prop :=
  ∀ (v : Voice) (now k : Nat), v.state = .running →
    k < v.slack now → (Voice.advanced^[k] v).floorP + 4 < v.firstMissing

/-! ### Laws that every step keeps -/

/-- Three laws, each kept by itself: every rate and target rate stays between 4,096 and 524,288 rate units (R55); the
bid list, the watch list, the notice queue, its counts and the work list stay within their capacities (R125, R126, R158,
R178, R179); every read queue stays in ascending dry tick, equal dry ticks by the lower tag (R92). -/
def Obligations.StepsKeepRangesAndOrders : Prop :=
  ∀ s t : State, step s = .next t →
    (s.ratesLawful → t.ratesLawful) ∧ (s.withinCapacity → t.withinCapacity) ∧ (s.readsLawful → t.readsLawful)

/-- Every in-use record keeps its laws. At every moment d = n with nothing in flight, and d = n - 1 with segment
n - 1 in flight (R70); FILLING and LATE voices hold a dry tick, LATE ones a segment in flight, COMPLETE ones
neither (R23, R81, R83). A voice with its end present has an empty follow slot, and a cursor at rest or a
COMPLETE fill means an end present (R23, R75, R148). -/
def Obligations.StepsKeepVoiceRecordsLawful : Prop :=
  ∀ s t : State, step s = .next t →
    (s.fillsLawful → t.fillsLawful) ∧ (s.endsLawful → t.endsLawful)

/-- At most one in-use record and one bid entry for each tag, never both, and record numbers below 512, each
used once (R18, R125, R127). -/
def Obligations.StepsKeepTagsApart : Prop :=
  ∀ s t : State, s.tagsLawful → step s = .next t → t.tagsLawful

/-- The in-use count of each region is the number of bid entries, current regions of in-use records and held follow
slots that name it, and each of those names a region of the table (R6, R9), in every state in which each tag has one
holder. The law holds together with what it rests on: distinct ids in the table and under install, no use of a
DEPARTING region (R7, R8), a RUNNING RECLAIM with its region DEPARTING (R168), one item of the work list begun, and no
voice, entry or item in STARTING (R15, R172). -/
def Obligations.StepsKeepUsesCounted : Prop :=
  ∀ s t : State, s.tagsLawful → s.usesLawful → step s = .next t → t.usesLawful

/-- Once the scan has ended, the live page count of every block but the LOG ones is the number of its pages that lie in
extents of regions of the table, and the pending page count that of the running install's pages (R10, R12). The law
holds together with what it rests on: QUEUED and ERASING blocks without pages, one erase for each such block, free lists
of FREE blocks (R11), no IDLE die with a long operation (R94), and at most one page program, the running install's into
its OPEN block or an ended one's that holds the page buffer (R163, R166). -/
def Obligations.StepsKeepPagesCounted : Prop :=
  ∀ s t : State, s.settled → s.usesLawful → s.pagesLawful → step s = .next t → t.pagesLawful

/-- Each of the 24 segment buffers is free, or holds a segment being read, kept for its re-read, waiting for
delivery, or posting (R95). -/
def Obligations.StepsKeepBuffersAccounted : Prop :=
  ∀ s t : State, s.buffersLawful → step s = .next t → t.buffersLawful

/-- READY is low exactly while the station is CONFIGURED with an ARMED voice unprimed (R52). -/
def Obligations.StepsKeepReady : Prop :=
  ∀ s t : State, s.readyLawful → step s = .next t → t.readyLawful

/-- The station drives the bus and knows of other stations' frame only while a frame is on it, and an entry is SENDING
only while its CLAIM is the frame driven (R114, R117, R125). -/
def Obligations.StepsKeepThePort : Prop :=
  ∀ s t : State, s.portLawful → step s = .next t → t.portLawful

/-- The flash array's cell list keeps its canonical form, and no failure of a program turned away (R102) is left in
the model's own field at the end of a step: that it is handed on when the step closes, at most eight at a time, after
which the field is cleared, is log entry 16, the model's choice. -/
def Obligations.StepsKeepTheFlash : Prop :=
  ∀ s t : State, s.flashLawful → s.settled → step s = .next t → t.flashLawful ∧ t.settled

/-- The station right after reset is safe: every law above holds. -/
def Obligations.ResetIsSafe : Prop := State.reset.Safe
end

