-- ==== Sys2Proof/Laws/State.lean ====
section
/-! SUPPORT. One lemma per field of State per named update of State.lean: a field other than the updated one
is as before, the updated one holds the new value. -/

namespace Sys2Proof.Machine

@[simp] theorem State.setClock_clock (s : State) (x : Nat) : (s.setClock x).clock = x := rfl
@[simp] theorem State.setClock_station (s : State) (x : Nat) : (s.setClock x).station = s.station := rfl
@[simp] theorem State.setClock_port (s : State) (x : Nat) : (s.setClock x).port = s.port := rfl
@[simp] theorem State.setClock_claims (s : State) (x : Nat) : (s.setClock x).claims = s.claims := rfl
@[simp] theorem State.setClock_voices (s : State) (x : Nat) : (s.setClock x).voices = s.voices := rfl
@[simp] theorem State.setClock_timebase (s : State) (x : Nat) : (s.setClock x).timebase = s.timebase := rfl
@[simp] theorem State.setClock_media (s : State) (x : Nat) : (s.setClock x).media = s.media := rfl
@[simp] theorem State.setClock_catalogue (s : State) (x : Nat) : (s.setClock x).catalogue = s.catalogue := rfl
@[simp] theorem State.setClock_installer (s : State) (x : Nat) : (s.setClock x).installer = s.installer := rfl
@[simp] theorem State.setClock_delivery (s : State) (x : Nat) : (s.setClock x).delivery = s.delivery := rfl
@[simp] theorem State.setClock_notices (s : State) (x : Nat) : (s.setClock x).notices = s.notices := rfl
@[simp] theorem State.setClock_stamp (s : State) (x : Nat) : (s.setClock x).stamp = s.stamp := rfl
@[simp] theorem State.setClock_pending (s : State) (x : Nat) : (s.setClock x).pending = s.pending := rfl
@[simp] theorem State.setClock_same (s : State) : s.setClock s.clock = s := rfl
@[simp] theorem State.setClock_setClock (s : State) (x y : Nat) : (s.setClock x).setClock y = s.setClock y := rfl

@[simp] theorem State.setStation_clock (s : State) (x : Station) : (s.setStation x).clock = s.clock := rfl
@[simp] theorem State.setStation_station (s : State) (x : Station) : (s.setStation x).station = x := rfl
@[simp] theorem State.setStation_port (s : State) (x : Station) : (s.setStation x).port = s.port := rfl
@[simp] theorem State.setStation_claims (s : State) (x : Station) : (s.setStation x).claims = s.claims := rfl
@[simp] theorem State.setStation_voices (s : State) (x : Station) : (s.setStation x).voices = s.voices := rfl
@[simp] theorem State.setStation_timebase (s : State) (x : Station) : (s.setStation x).timebase = s.timebase := rfl
@[simp] theorem State.setStation_media (s : State) (x : Station) : (s.setStation x).media = s.media := rfl
@[simp] theorem State.setStation_catalogue (s : State) (x : Station) : (s.setStation x).catalogue = s.catalogue := rfl
@[simp] theorem State.setStation_installer (s : State) (x : Station) : (s.setStation x).installer = s.installer := rfl
@[simp] theorem State.setStation_delivery (s : State) (x : Station) : (s.setStation x).delivery = s.delivery := rfl
@[simp] theorem State.setStation_notices (s : State) (x : Station) : (s.setStation x).notices = s.notices := rfl
@[simp] theorem State.setStation_stamp (s : State) (x : Station) : (s.setStation x).stamp = s.stamp := rfl
@[simp] theorem State.setStation_pending (s : State) (x : Station) : (s.setStation x).pending = s.pending := rfl
@[simp] theorem State.setStation_same (s : State) : s.setStation s.station = s := rfl
@[simp] theorem State.setStation_setStation (s : State) (x y : Station) : (s.setStation x).setStation y = s.setStation y := rfl

@[simp] theorem State.setPort_clock (s : State) (x : Port) : (s.setPort x).clock = s.clock := rfl
@[simp] theorem State.setPort_station (s : State) (x : Port) : (s.setPort x).station = s.station := rfl
@[simp] theorem State.setPort_port (s : State) (x : Port) : (s.setPort x).port = x := rfl
@[simp] theorem State.setPort_claims (s : State) (x : Port) : (s.setPort x).claims = s.claims := rfl
@[simp] theorem State.setPort_voices (s : State) (x : Port) : (s.setPort x).voices = s.voices := rfl
@[simp] theorem State.setPort_timebase (s : State) (x : Port) : (s.setPort x).timebase = s.timebase := rfl
@[simp] theorem State.setPort_media (s : State) (x : Port) : (s.setPort x).media = s.media := rfl
@[simp] theorem State.setPort_catalogue (s : State) (x : Port) : (s.setPort x).catalogue = s.catalogue := rfl
@[simp] theorem State.setPort_installer (s : State) (x : Port) : (s.setPort x).installer = s.installer := rfl
@[simp] theorem State.setPort_delivery (s : State) (x : Port) : (s.setPort x).delivery = s.delivery := rfl
@[simp] theorem State.setPort_notices (s : State) (x : Port) : (s.setPort x).notices = s.notices := rfl
@[simp] theorem State.setPort_stamp (s : State) (x : Port) : (s.setPort x).stamp = s.stamp := rfl
@[simp] theorem State.setPort_pending (s : State) (x : Port) : (s.setPort x).pending = s.pending := rfl
@[simp] theorem State.setPort_same (s : State) : s.setPort s.port = s := rfl
@[simp] theorem State.setPort_setPort (s : State) (x y : Port) : (s.setPort x).setPort y = s.setPort y := rfl

@[simp] theorem State.setClaims_clock (s : State) (x : ClaimUnit) : (s.setClaims x).clock = s.clock := rfl
@[simp] theorem State.setClaims_station (s : State) (x : ClaimUnit) : (s.setClaims x).station = s.station := rfl
@[simp] theorem State.setClaims_port (s : State) (x : ClaimUnit) : (s.setClaims x).port = s.port := rfl
@[simp] theorem State.setClaims_claims (s : State) (x : ClaimUnit) : (s.setClaims x).claims = x := rfl
@[simp] theorem State.setClaims_voices (s : State) (x : ClaimUnit) : (s.setClaims x).voices = s.voices := rfl
@[simp] theorem State.setClaims_timebase (s : State) (x : ClaimUnit) : (s.setClaims x).timebase = s.timebase := rfl
@[simp] theorem State.setClaims_media (s : State) (x : ClaimUnit) : (s.setClaims x).media = s.media := rfl
@[simp] theorem State.setClaims_catalogue (s : State) (x : ClaimUnit) : (s.setClaims x).catalogue = s.catalogue := rfl
@[simp] theorem State.setClaims_installer (s : State) (x : ClaimUnit) : (s.setClaims x).installer = s.installer := rfl
@[simp] theorem State.setClaims_delivery (s : State) (x : ClaimUnit) : (s.setClaims x).delivery = s.delivery := rfl
@[simp] theorem State.setClaims_notices (s : State) (x : ClaimUnit) : (s.setClaims x).notices = s.notices := rfl
@[simp] theorem State.setClaims_stamp (s : State) (x : ClaimUnit) : (s.setClaims x).stamp = s.stamp := rfl
@[simp] theorem State.setClaims_pending (s : State) (x : ClaimUnit) : (s.setClaims x).pending = s.pending := rfl
@[simp] theorem State.setClaims_same (s : State) : s.setClaims s.claims = s := rfl
@[simp] theorem State.setClaims_setClaims (s : State) (x y : ClaimUnit) : (s.setClaims x).setClaims y = s.setClaims y := rfl

@[simp] theorem State.setVoices_clock (s : State) (x : List Voice) : (s.setVoices x).clock = s.clock := rfl
@[simp] theorem State.setVoices_station (s : State) (x : List Voice) : (s.setVoices x).station = s.station := rfl
@[simp] theorem State.setVoices_port (s : State) (x : List Voice) : (s.setVoices x).port = s.port := rfl
@[simp] theorem State.setVoices_claims (s : State) (x : List Voice) : (s.setVoices x).claims = s.claims := rfl
@[simp] theorem State.setVoices_voices (s : State) (x : List Voice) : (s.setVoices x).voices = x := rfl
@[simp] theorem State.setVoices_timebase (s : State) (x : List Voice) : (s.setVoices x).timebase = s.timebase := rfl
@[simp] theorem State.setVoices_media (s : State) (x : List Voice) : (s.setVoices x).media = s.media := rfl
@[simp] theorem State.setVoices_catalogue (s : State) (x : List Voice) : (s.setVoices x).catalogue = s.catalogue := rfl
@[simp] theorem State.setVoices_installer (s : State) (x : List Voice) : (s.setVoices x).installer = s.installer := rfl
@[simp] theorem State.setVoices_delivery (s : State) (x : List Voice) : (s.setVoices x).delivery = s.delivery := rfl
@[simp] theorem State.setVoices_notices (s : State) (x : List Voice) : (s.setVoices x).notices = s.notices := rfl
@[simp] theorem State.setVoices_stamp (s : State) (x : List Voice) : (s.setVoices x).stamp = s.stamp := rfl
@[simp] theorem State.setVoices_pending (s : State) (x : List Voice) : (s.setVoices x).pending = s.pending := rfl
@[simp] theorem State.setVoices_same (s : State) : s.setVoices s.voices = s := rfl
@[simp] theorem State.setVoices_setVoices (s : State) (x y : List Voice) : (s.setVoices x).setVoices y = s.setVoices y := rfl

@[simp] theorem State.setTimebase_clock (s : State) (x : Timebase) : (s.setTimebase x).clock = s.clock := rfl
@[simp] theorem State.setTimebase_station (s : State) (x : Timebase) : (s.setTimebase x).station = s.station := rfl
@[simp] theorem State.setTimebase_port (s : State) (x : Timebase) : (s.setTimebase x).port = s.port := rfl
@[simp] theorem State.setTimebase_claims (s : State) (x : Timebase) : (s.setTimebase x).claims = s.claims := rfl
@[simp] theorem State.setTimebase_voices (s : State) (x : Timebase) : (s.setTimebase x).voices = s.voices := rfl
@[simp] theorem State.setTimebase_timebase (s : State) (x : Timebase) : (s.setTimebase x).timebase = x := rfl
@[simp] theorem State.setTimebase_media (s : State) (x : Timebase) : (s.setTimebase x).media = s.media := rfl
@[simp] theorem State.setTimebase_catalogue (s : State) (x : Timebase) : (s.setTimebase x).catalogue = s.catalogue := rfl
@[simp] theorem State.setTimebase_installer (s : State) (x : Timebase) : (s.setTimebase x).installer = s.installer := rfl
@[simp] theorem State.setTimebase_delivery (s : State) (x : Timebase) : (s.setTimebase x).delivery = s.delivery := rfl
@[simp] theorem State.setTimebase_notices (s : State) (x : Timebase) : (s.setTimebase x).notices = s.notices := rfl
@[simp] theorem State.setTimebase_stamp (s : State) (x : Timebase) : (s.setTimebase x).stamp = s.stamp := rfl
@[simp] theorem State.setTimebase_pending (s : State) (x : Timebase) : (s.setTimebase x).pending = s.pending := rfl
@[simp] theorem State.setTimebase_same (s : State) : s.setTimebase s.timebase = s := rfl
@[simp] theorem State.setTimebase_setTimebase (s : State) (x y : Timebase) : (s.setTimebase x).setTimebase y = s.setTimebase y := rfl

@[simp] theorem State.setMedia_clock (s : State) (x : Media) : (s.setMedia x).clock = s.clock := rfl
@[simp] theorem State.setMedia_station (s : State) (x : Media) : (s.setMedia x).station = s.station := rfl
@[simp] theorem State.setMedia_port (s : State) (x : Media) : (s.setMedia x).port = s.port := rfl
@[simp] theorem State.setMedia_claims (s : State) (x : Media) : (s.setMedia x).claims = s.claims := rfl
@[simp] theorem State.setMedia_voices (s : State) (x : Media) : (s.setMedia x).voices = s.voices := rfl
@[simp] theorem State.setMedia_timebase (s : State) (x : Media) : (s.setMedia x).timebase = s.timebase := rfl
@[simp] theorem State.setMedia_media (s : State) (x : Media) : (s.setMedia x).media = x := rfl
@[simp] theorem State.setMedia_catalogue (s : State) (x : Media) : (s.setMedia x).catalogue = s.catalogue := rfl
@[simp] theorem State.setMedia_installer (s : State) (x : Media) : (s.setMedia x).installer = s.installer := rfl
@[simp] theorem State.setMedia_delivery (s : State) (x : Media) : (s.setMedia x).delivery = s.delivery := rfl
@[simp] theorem State.setMedia_notices (s : State) (x : Media) : (s.setMedia x).notices = s.notices := rfl
@[simp] theorem State.setMedia_stamp (s : State) (x : Media) : (s.setMedia x).stamp = s.stamp := rfl
@[simp] theorem State.setMedia_pending (s : State) (x : Media) : (s.setMedia x).pending = s.pending := rfl
@[simp] theorem State.setMedia_same (s : State) : s.setMedia s.media = s := rfl
@[simp] theorem State.setMedia_setMedia (s : State) (x y : Media) : (s.setMedia x).setMedia y = s.setMedia y := rfl

@[simp] theorem State.setCatalogue_clock (s : State) (x : Catalogue) : (s.setCatalogue x).clock = s.clock := rfl
@[simp] theorem State.setCatalogue_station (s : State) (x : Catalogue) : (s.setCatalogue x).station = s.station := rfl
@[simp] theorem State.setCatalogue_port (s : State) (x : Catalogue) : (s.setCatalogue x).port = s.port := rfl
@[simp] theorem State.setCatalogue_claims (s : State) (x : Catalogue) : (s.setCatalogue x).claims = s.claims := rfl
@[simp] theorem State.setCatalogue_voices (s : State) (x : Catalogue) : (s.setCatalogue x).voices = s.voices := rfl
@[simp] theorem State.setCatalogue_timebase (s : State) (x : Catalogue) : (s.setCatalogue x).timebase = s.timebase := rfl
@[simp] theorem State.setCatalogue_media (s : State) (x : Catalogue) : (s.setCatalogue x).media = s.media := rfl
@[simp] theorem State.setCatalogue_catalogue (s : State) (x : Catalogue) : (s.setCatalogue x).catalogue = x := rfl
@[simp] theorem State.setCatalogue_installer (s : State) (x : Catalogue) : (s.setCatalogue x).installer = s.installer := rfl
@[simp] theorem State.setCatalogue_delivery (s : State) (x : Catalogue) : (s.setCatalogue x).delivery = s.delivery := rfl
@[simp] theorem State.setCatalogue_notices (s : State) (x : Catalogue) : (s.setCatalogue x).notices = s.notices := rfl
@[simp] theorem State.setCatalogue_stamp (s : State) (x : Catalogue) : (s.setCatalogue x).stamp = s.stamp := rfl
@[simp] theorem State.setCatalogue_pending (s : State) (x : Catalogue) : (s.setCatalogue x).pending = s.pending := rfl
@[simp] theorem State.setCatalogue_same (s : State) : s.setCatalogue s.catalogue = s := rfl
@[simp] theorem State.setCatalogue_setCatalogue (s : State) (x y : Catalogue) : (s.setCatalogue x).setCatalogue y = s.setCatalogue y := rfl

@[simp] theorem State.setInstaller_clock (s : State) (x : Installer) : (s.setInstaller x).clock = s.clock := rfl
@[simp] theorem State.setInstaller_station (s : State) (x : Installer) : (s.setInstaller x).station = s.station := rfl
@[simp] theorem State.setInstaller_port (s : State) (x : Installer) : (s.setInstaller x).port = s.port := rfl
@[simp] theorem State.setInstaller_claims (s : State) (x : Installer) : (s.setInstaller x).claims = s.claims := rfl
@[simp] theorem State.setInstaller_voices (s : State) (x : Installer) : (s.setInstaller x).voices = s.voices := rfl
@[simp] theorem State.setInstaller_timebase (s : State) (x : Installer) : (s.setInstaller x).timebase = s.timebase := rfl
@[simp] theorem State.setInstaller_media (s : State) (x : Installer) : (s.setInstaller x).media = s.media := rfl
@[simp] theorem State.setInstaller_catalogue (s : State) (x : Installer) : (s.setInstaller x).catalogue = s.catalogue := rfl
@[simp] theorem State.setInstaller_installer (s : State) (x : Installer) : (s.setInstaller x).installer = x := rfl
@[simp] theorem State.setInstaller_delivery (s : State) (x : Installer) : (s.setInstaller x).delivery = s.delivery := rfl
@[simp] theorem State.setInstaller_notices (s : State) (x : Installer) : (s.setInstaller x).notices = s.notices := rfl
@[simp] theorem State.setInstaller_stamp (s : State) (x : Installer) : (s.setInstaller x).stamp = s.stamp := rfl
@[simp] theorem State.setInstaller_pending (s : State) (x : Installer) : (s.setInstaller x).pending = s.pending := rfl
@[simp] theorem State.setInstaller_same (s : State) : s.setInstaller s.installer = s := rfl
@[simp] theorem State.setInstaller_setInstaller (s : State) (x y : Installer) : (s.setInstaller x).setInstaller y = s.setInstaller y := rfl

@[simp] theorem State.setDelivery_clock (s : State) (x : DeliveryEngine) : (s.setDelivery x).clock = s.clock := rfl
@[simp] theorem State.setDelivery_station (s : State) (x : DeliveryEngine) : (s.setDelivery x).station = s.station := rfl
@[simp] theorem State.setDelivery_port (s : State) (x : DeliveryEngine) : (s.setDelivery x).port = s.port := rfl
@[simp] theorem State.setDelivery_claims (s : State) (x : DeliveryEngine) : (s.setDelivery x).claims = s.claims := rfl
@[simp] theorem State.setDelivery_voices (s : State) (x : DeliveryEngine) : (s.setDelivery x).voices = s.voices := rfl
@[simp] theorem State.setDelivery_timebase (s : State) (x : DeliveryEngine) : (s.setDelivery x).timebase = s.timebase := rfl
@[simp] theorem State.setDelivery_media (s : State) (x : DeliveryEngine) : (s.setDelivery x).media = s.media := rfl
@[simp] theorem State.setDelivery_catalogue (s : State) (x : DeliveryEngine) : (s.setDelivery x).catalogue = s.catalogue := rfl
@[simp] theorem State.setDelivery_installer (s : State) (x : DeliveryEngine) : (s.setDelivery x).installer = s.installer := rfl
@[simp] theorem State.setDelivery_delivery (s : State) (x : DeliveryEngine) : (s.setDelivery x).delivery = x := rfl
@[simp] theorem State.setDelivery_notices (s : State) (x : DeliveryEngine) : (s.setDelivery x).notices = s.notices := rfl
@[simp] theorem State.setDelivery_stamp (s : State) (x : DeliveryEngine) : (s.setDelivery x).stamp = s.stamp := rfl
@[simp] theorem State.setDelivery_pending (s : State) (x : DeliveryEngine) : (s.setDelivery x).pending = s.pending := rfl
@[simp] theorem State.setDelivery_same (s : State) : s.setDelivery s.delivery = s := rfl
@[simp] theorem State.setDelivery_setDelivery (s : State) (x y : DeliveryEngine) : (s.setDelivery x).setDelivery y = s.setDelivery y := rfl

@[simp] theorem State.setNotices_clock (s : State) (x : NoticeQueue) : (s.setNotices x).clock = s.clock := rfl
@[simp] theorem State.setNotices_station (s : State) (x : NoticeQueue) : (s.setNotices x).station = s.station := rfl
@[simp] theorem State.setNotices_port (s : State) (x : NoticeQueue) : (s.setNotices x).port = s.port := rfl
@[simp] theorem State.setNotices_claims (s : State) (x : NoticeQueue) : (s.setNotices x).claims = s.claims := rfl
@[simp] theorem State.setNotices_voices (s : State) (x : NoticeQueue) : (s.setNotices x).voices = s.voices := rfl
@[simp] theorem State.setNotices_timebase (s : State) (x : NoticeQueue) : (s.setNotices x).timebase = s.timebase := rfl
@[simp] theorem State.setNotices_media (s : State) (x : NoticeQueue) : (s.setNotices x).media = s.media := rfl
@[simp] theorem State.setNotices_catalogue (s : State) (x : NoticeQueue) : (s.setNotices x).catalogue = s.catalogue := rfl
@[simp] theorem State.setNotices_installer (s : State) (x : NoticeQueue) : (s.setNotices x).installer = s.installer := rfl
@[simp] theorem State.setNotices_delivery (s : State) (x : NoticeQueue) : (s.setNotices x).delivery = s.delivery := rfl
@[simp] theorem State.setNotices_notices (s : State) (x : NoticeQueue) : (s.setNotices x).notices = x := rfl
@[simp] theorem State.setNotices_stamp (s : State) (x : NoticeQueue) : (s.setNotices x).stamp = s.stamp := rfl
@[simp] theorem State.setNotices_pending (s : State) (x : NoticeQueue) : (s.setNotices x).pending = s.pending := rfl
@[simp] theorem State.setNotices_same (s : State) : s.setNotices s.notices = s := rfl
@[simp] theorem State.setNotices_setNotices (s : State) (x y : NoticeQueue) : (s.setNotices x).setNotices y = s.setNotices y := rfl

@[simp] theorem State.setStamp_clock (s : State) (x : Nat) : (s.setStamp x).clock = s.clock := rfl
@[simp] theorem State.setStamp_station (s : State) (x : Nat) : (s.setStamp x).station = s.station := rfl
@[simp] theorem State.setStamp_port (s : State) (x : Nat) : (s.setStamp x).port = s.port := rfl
@[simp] theorem State.setStamp_claims (s : State) (x : Nat) : (s.setStamp x).claims = s.claims := rfl
@[simp] theorem State.setStamp_voices (s : State) (x : Nat) : (s.setStamp x).voices = s.voices := rfl
@[simp] theorem State.setStamp_timebase (s : State) (x : Nat) : (s.setStamp x).timebase = s.timebase := rfl
@[simp] theorem State.setStamp_media (s : State) (x : Nat) : (s.setStamp x).media = s.media := rfl
@[simp] theorem State.setStamp_catalogue (s : State) (x : Nat) : (s.setStamp x).catalogue = s.catalogue := rfl
@[simp] theorem State.setStamp_installer (s : State) (x : Nat) : (s.setStamp x).installer = s.installer := rfl
@[simp] theorem State.setStamp_delivery (s : State) (x : Nat) : (s.setStamp x).delivery = s.delivery := rfl
@[simp] theorem State.setStamp_notices (s : State) (x : Nat) : (s.setStamp x).notices = s.notices := rfl
@[simp] theorem State.setStamp_stamp (s : State) (x : Nat) : (s.setStamp x).stamp = x := rfl
@[simp] theorem State.setStamp_pending (s : State) (x : Nat) : (s.setStamp x).pending = s.pending := rfl
@[simp] theorem State.setStamp_same (s : State) : s.setStamp s.stamp = s := rfl
@[simp] theorem State.setStamp_setStamp (s : State) (x y : Nat) : (s.setStamp x).setStamp y = s.setStamp y := rfl

@[simp] theorem State.setPending_clock (s : State) (x : List Instr) : (s.setPending x).clock = s.clock := rfl
@[simp] theorem State.setPending_station (s : State) (x : List Instr) : (s.setPending x).station = s.station := rfl
@[simp] theorem State.setPending_port (s : State) (x : List Instr) : (s.setPending x).port = s.port := rfl
@[simp] theorem State.setPending_claims (s : State) (x : List Instr) : (s.setPending x).claims = s.claims := rfl
@[simp] theorem State.setPending_voices (s : State) (x : List Instr) : (s.setPending x).voices = s.voices := rfl
@[simp] theorem State.setPending_timebase (s : State) (x : List Instr) : (s.setPending x).timebase = s.timebase := rfl
@[simp] theorem State.setPending_media (s : State) (x : List Instr) : (s.setPending x).media = s.media := rfl
@[simp] theorem State.setPending_catalogue (s : State) (x : List Instr) : (s.setPending x).catalogue = s.catalogue := rfl
@[simp] theorem State.setPending_installer (s : State) (x : List Instr) : (s.setPending x).installer = s.installer := rfl
@[simp] theorem State.setPending_delivery (s : State) (x : List Instr) : (s.setPending x).delivery = s.delivery := rfl
@[simp] theorem State.setPending_notices (s : State) (x : List Instr) : (s.setPending x).notices = s.notices := rfl
@[simp] theorem State.setPending_stamp (s : State) (x : List Instr) : (s.setPending x).stamp = s.stamp := rfl
@[simp] theorem State.setPending_pending (s : State) (x : List Instr) : (s.setPending x).pending = x := rfl
@[simp] theorem State.setPending_same (s : State) : s.setPending s.pending = s := rfl
@[simp] theorem State.setPending_setPending (s : State) (x y : List Instr) : (s.setPending x).setPending y = s.setPending y := rfl

/-! ### The clock -/

@[simp] theorem State.atTime_clock (s : State) (t : Nat) : (s.atTime t).clock = max s.clock t := rfl
@[simp] theorem State.atTime_station (s : State) (t : Nat) : (s.atTime t).station = s.station := rfl
@[simp] theorem State.atTime_port (s : State) (t : Nat) : (s.atTime t).port = s.port := rfl
@[simp] theorem State.atTime_claims (s : State) (t : Nat) : (s.atTime t).claims = s.claims := rfl
@[simp] theorem State.atTime_voices (s : State) (t : Nat) : (s.atTime t).voices = s.voices := rfl
@[simp] theorem State.atTime_timebase (s : State) (t : Nat) : (s.atTime t).timebase = s.timebase := rfl
@[simp] theorem State.atTime_media (s : State) (t : Nat) : (s.atTime t).media = s.media := rfl
@[simp] theorem State.atTime_catalogue (s : State) (t : Nat) : (s.atTime t).catalogue = s.catalogue := rfl
@[simp] theorem State.atTime_installer (s : State) (t : Nat) : (s.atTime t).installer = s.installer := rfl
@[simp] theorem State.atTime_delivery (s : State) (t : Nat) : (s.atTime t).delivery = s.delivery := rfl
@[simp] theorem State.atTime_notices (s : State) (t : Nat) : (s.atTime t).notices = s.notices := rfl
@[simp] theorem State.atTime_stamp (s : State) (t : Nat) : (s.atTime t).stamp = s.stamp := rfl
@[simp] theorem State.atTime_pending (s : State) (t : Nat) : (s.atTime t).pending = s.pending := rfl

end Sys2Proof.Machine
end

