-- ==== Sys2Proof/Laws/Frames.lean ====
section
/-! SUPPORT. What each shared operation leaves unchanged. Three relations say which fields of State an
operation may touch, and one lemma for each operation says that it stays within one of them. -/

namespace Sys2Proof.Machine

/-- `t` follows `s` by what the dies and the block table do among themselves: only the media controller and the catalogue change. -/
structure MediaStep (s t : State) : Prop where
  clock : t.clock = s.clock
  station : t.station = s.station
  port : t.port = s.port
  claims : t.claims = s.claims
  voices : t.voices = s.voices
  timebase : t.timebase = s.timebase
  installer : t.installer = s.installer
  delivery : t.delivery = s.delivery
  notices : t.notices = s.notices
  stamp : t.stamp = s.stamp
  pending : t.pending = s.pending

theorem MediaStep.refl (s : State) : MediaStep s s := ⟨rfl, rfl, rfl, rfl, rfl, rfl, rfl, rfl, rfl, rfl, rfl⟩

theorem MediaStep.trans {s t u : State} (a : MediaStep s t) (b : MediaStep t u) : MediaStep s u :=
  ⟨b.clock.trans a.clock,
    b.station.trans a.station,
    b.port.trans a.port,
    b.claims.trans a.claims,
    b.voices.trans a.voices,
    b.timebase.trans a.timebase,
    b.installer.trans a.installer,
    b.delivery.trans a.delivery,
    b.notices.trans a.notices,
    b.stamp.trans a.stamp,
    b.pending.trans a.pending⟩

theorem MediaStep.foldl {α : Type} (f : State → α → State) (h : ∀ s a, MediaStep s (f s a)) (l : List α) :
    ∀ s, MediaStep s (l.foldl f s) := by
  induction l with
  | nil => exact MediaStep.refl
  | cons a l ih => exact fun s => (h s a).trans (ih (f s a))

theorem MediaStep.setMedia (s : State) (x : Media) : MediaStep s (s.setMedia x) := ⟨rfl, rfl, rfl, rfl, rfl, rfl, rfl, rfl, rfl, rfl, rfl⟩
theorem MediaStep.setCatalogue (s : State) (x : Catalogue) : MediaStep s (s.setCatalogue x) := ⟨rfl, rfl, rfl, rfl, rfl, rfl, rfl, rfl, rfl, rfl, rfl⟩

/-- `t` follows `s` by what the voices' fill, ends and retirements do: only the voice table, the media controller, the catalogue, the notice queue and the delivery engine change. -/
structure VoiceStep (s t : State) : Prop where
  clock : t.clock = s.clock
  station : t.station = s.station
  port : t.port = s.port
  claims : t.claims = s.claims
  timebase : t.timebase = s.timebase
  installer : t.installer = s.installer
  stamp : t.stamp = s.stamp
  pending : t.pending = s.pending

theorem VoiceStep.refl (s : State) : VoiceStep s s := ⟨rfl, rfl, rfl, rfl, rfl, rfl, rfl, rfl⟩

theorem VoiceStep.trans {s t u : State} (a : VoiceStep s t) (b : VoiceStep t u) : VoiceStep s u :=
  ⟨b.clock.trans a.clock,
    b.station.trans a.station,
    b.port.trans a.port,
    b.claims.trans a.claims,
    b.timebase.trans a.timebase,
    b.installer.trans a.installer,
    b.stamp.trans a.stamp,
    b.pending.trans a.pending⟩

theorem VoiceStep.foldl {α : Type} (f : State → α → State) (h : ∀ s a, VoiceStep s (f s a)) (l : List α) :
    ∀ s, VoiceStep s (l.foldl f s) := by
  induction l with
  | nil => exact VoiceStep.refl
  | cons a l ih => exact fun s => (h s a).trans (ih (f s a))

theorem VoiceStep.setVoices (s : State) (x : List Voice) : VoiceStep s (s.setVoices x) := ⟨rfl, rfl, rfl, rfl, rfl, rfl, rfl, rfl⟩
theorem VoiceStep.setMedia (s : State) (x : Media) : VoiceStep s (s.setMedia x) := ⟨rfl, rfl, rfl, rfl, rfl, rfl, rfl, rfl⟩
theorem VoiceStep.setCatalogue (s : State) (x : Catalogue) : VoiceStep s (s.setCatalogue x) := ⟨rfl, rfl, rfl, rfl, rfl, rfl, rfl, rfl⟩
theorem VoiceStep.setNotices (s : State) (x : NoticeQueue) : VoiceStep s (s.setNotices x) := ⟨rfl, rfl, rfl, rfl, rfl, rfl, rfl, rfl⟩
theorem VoiceStep.setDelivery (s : State) (x : DeliveryEngine) : VoiceStep s (s.setDelivery x) := ⟨rfl, rfl, rfl, rfl, rfl, rfl, rfl, rfl⟩

/-- `t` follows `s` by what the installer's work does: only the media controller, the catalogue, the installer, the notice queue, the delivery engine and the stamp change. -/
structure InstallStep (s t : State) : Prop where
  clock : t.clock = s.clock
  station : t.station = s.station
  port : t.port = s.port
  claims : t.claims = s.claims
  voices : t.voices = s.voices
  timebase : t.timebase = s.timebase
  pending : t.pending = s.pending

theorem InstallStep.refl (s : State) : InstallStep s s := ⟨rfl, rfl, rfl, rfl, rfl, rfl, rfl⟩

theorem InstallStep.trans {s t u : State} (a : InstallStep s t) (b : InstallStep t u) : InstallStep s u :=
  ⟨b.clock.trans a.clock,
    b.station.trans a.station,
    b.port.trans a.port,
    b.claims.trans a.claims,
    b.voices.trans a.voices,
    b.timebase.trans a.timebase,
    b.pending.trans a.pending⟩

theorem InstallStep.foldl {α : Type} (f : State → α → State) (h : ∀ s a, InstallStep s (f s a)) (l : List α) :
    ∀ s, InstallStep s (l.foldl f s) := by
  induction l with
  | nil => exact InstallStep.refl
  | cons a l ih => exact fun s => (h s a).trans (ih (f s a))

theorem InstallStep.setMedia (s : State) (x : Media) : InstallStep s (s.setMedia x) := ⟨rfl, rfl, rfl, rfl, rfl, rfl, rfl⟩
theorem InstallStep.setCatalogue (s : State) (x : Catalogue) : InstallStep s (s.setCatalogue x) := ⟨rfl, rfl, rfl, rfl, rfl, rfl, rfl⟩
theorem InstallStep.setInstaller (s : State) (x : Installer) : InstallStep s (s.setInstaller x) := ⟨rfl, rfl, rfl, rfl, rfl, rfl, rfl⟩
theorem InstallStep.setNotices (s : State) (x : NoticeQueue) : InstallStep s (s.setNotices x) := ⟨rfl, rfl, rfl, rfl, rfl, rfl, rfl⟩
theorem InstallStep.setDelivery (s : State) (x : DeliveryEngine) : InstallStep s (s.setDelivery x) := ⟨rfl, rfl, rfl, rfl, rfl, rfl, rfl⟩
theorem InstallStep.setStamp (s : State) (x : Nat) : InstallStep s (s.setStamp x) := ⟨rfl, rfl, rfl, rfl, rfl, rfl, rfl⟩

theorem MediaStep.voiceStep {s t : State} (h : MediaStep s t) : VoiceStep s t :=
  ⟨h.clock, h.station, h.port, h.claims, h.timebase, h.installer, h.stamp, h.pending⟩

theorem MediaStep.installStep {s t : State} (h : MediaStep s t) : InstallStep s t :=
  ⟨h.clock, h.station, h.port, h.claims, h.voices, h.timebase, h.pending⟩

/-! ### Media controller and catalogue -/

theorem State.updateDie_step (s : State) (d : Nat) (f : Die → Die) : MediaStep s (s.updateDie d f) :=
  MediaStep.setMedia s _

theorem State.setDieState_step (s : State) (d : Nat) (x : DieState) : MediaStep s (s.setDieState d x) :=
  MediaStep.setMedia s _

theorem State.updateDieBlocks_step (s : State) (d : Nat) (f : DieBlocks → DieBlocks) :
    MediaStep s (s.updateDieBlocks d f) := MediaStep.setCatalogue s _

theorem State.updateBlock_step (s : State) (d b : Nat) (f : Block → Block) :
    MediaStep s (s.updateBlock d b f) := MediaStep.setCatalogue s _

theorem State.setBlockState_step (s : State) (d b : Nat) (x : BlockState) :
    MediaStep s (s.setBlockState d b x) := MediaStep.setCatalogue s _

theorem State.pushFree_step (s : State) (d b : Nat) : MediaStep s (s.pushFree d b) :=
  MediaStep.setCatalogue s _

theorem State.updateRegion_step (s : State) (id : Nat) (f : Region → Region) :
    MediaStep s (s.updateRegion id f) := MediaStep.setCatalogue s _

theorem State.addUse_step (s : State) (id : Nat) : MediaStep s (s.addUse id) :=
  MediaStep.setCatalogue s _

theorem State.releaseUse_step (s : State) (id : Nat) : MediaStep s (s.releaseUse id) :=
  MediaStep.setCatalogue s _

theorem State.releaseUses_step (s : State) (ids : List Nat) : MediaStep s (s.releaseUses ids) :=
  MediaStep.foldl _ State.releaseUse_step ids s

theorem State.setFlash_step (s : State) (f : Flash) : MediaStep s (s.setFlash f) :=
  MediaStep.setMedia s _

theorem State.joinReads_step (s : State) (d : Nat) (r : ReadRequest) : MediaStep s (s.joinReads d r) :=
  MediaStep.setMedia s _

theorem State.beginRead_step (s t : State) (d : Nat) (h : s.beginRead? d = some t) : MediaStep s t := by
  rw [State.beginRead?, Option.map_eq_some_iff] at h
  obtain ⟨x, -, rfl⟩ := h
  exact MediaStep.setMedia s _

theorem State.beginRead_getD_step (s : State) (d : Nat) : MediaStep s ((s.beginRead? d).getD s) := by
  rcases h : s.beginRead? d with _ | t
  · exact MediaStep.refl s
  · exact State.beginRead_step s t d h

theorem State.markStarted_step (s : State) (d : Nat) (op : LongOp) : MediaStep s (s.markStarted d op) := by
  cases op with
  | program p => exact MediaStep.refl s
  | erase b => exact State.updateBlock_step s d b _

theorem State.takeLongOp_step (s : State) (d : Nat) : MediaStep s (s.takeLongOp d).1 := by
  rw [State.takeLongOp]
  split
  · exact (MediaStep.setMedia s _).trans (State.updateDie_step _ d _)
  · exact ((MediaStep.setMedia s _).trans (State.updateDie_step _ d _)).trans
      (State.markStarted_step _ d _)

theorem State.idleChoice_step (s : State) (d : Nat) : MediaStep s (s.idleChoice d) := by
  rw [State.idleChoice]
  split
  · dsimp only
    split
    · rename_i s1 h1
      split at h1
      · exact State.beginRead_step s s1 d h1
      · cases h1
    · split
      · exact State.takeLongOp_step s d
      · exact (State.takeLongOp_step s d).trans (State.beginRead_getD_step _ d)
  · exact MediaStep.refl s

theorem State.serviceDecision_step (s : State) (d : Nat) : MediaStep s (s.serviceDecision d) := by
  rw [State.serviceDecision]
  split
  · split
    · exact State.beginRead_getD_step s d
    · exact State.updateDie_step s d _
  all_goals exact MediaStep.refl s

theorem State.suspendTest_step (s : State) (d : Nat) : MediaStep s (s.suspendTest d) := by
  rw [State.suspendTest]
  split
  · split
    · exact State.setDieState_step s d _
    · exact MediaStep.refl s
  all_goals exact MediaStep.refl s

theorem State.readsChanged_step (s : State) (d : Nat) : MediaStep s (s.readsChanged d) := by
  rw [State.readsChanged]
  split
  · exact State.idleChoice_step s d
  · exact State.suspendTest_step s d
  · exact State.serviceDecision_step s d
  all_goals exact MediaStep.refl s

theorem State.joinLongOp_step (s : State) (d : Nat) (op : LongOp) : MediaStep s (s.joinLongOp d op) :=
  (State.updateDie_step s d _).trans (State.idleChoice_step _ d)

theorem State.freeBuffer_step (s : State) : MediaStep s s.freeBuffer := by
  rw [State.freeBuffer]
  try dsimp only
  split
  · exact (MediaStep.setMedia s _).trans (State.beginRead_getD_step _ _)
  · exact MediaStep.setMedia s _

theorem State.freeBuffers_step (n : Nat) : ∀ s : State, MediaStep s (s.freeBuffers n) := by
  induction n with
  | zero => exact MediaStep.refl
  | succ n ih => exact fun s => (State.freeBuffer_step s).trans (ih _)

theorem State.syncReads_step (s : State) : MediaStep s s.syncReads := by
  refine MediaStep.foldl _ (fun s d => ?_) _ s
  try dsimp only
  split
  · exact (State.updateDie_step s d _).trans (State.readsChanged_step _ d)
  · exact MediaStep.refl s

theorem State.becomeIdle_step (s : State) (d : Nat) : MediaStep s (s.becomeIdle d) :=
  (State.updateDie_step s d _).trans (State.idleChoice_step _ d)

theorem State.suspendTests_step (s : State) : MediaStep s s.suspendTests :=
  MediaStep.foldl _ State.suspendTest_step _ s

theorem State.makeLive_step (s : State) (extents : List Extent) : MediaStep s (s.makeLive extents) :=
  MediaStep.foldl _ (fun _ _ => MediaStep.setCatalogue _ _) extents s

theorem State.loseLive_step (s : State) (extents : List Extent) : MediaStep s (s.loseLive extents) :=
  MediaStep.foldl _ (fun _ _ => MediaStep.setCatalogue _ _) extents s

theorem State.clearPending_step (s : State) : MediaStep s s.clearPending := MediaStep.setCatalogue s _

theorem State.joinErases_step (s : State) (d : Nat) (blocks : List Nat) :
    MediaStep s (s.joinErases d blocks) := by
  rw [State.joinErases]
  split
  · exact MediaStep.refl s
  · exact (State.updateDie_step s d _).trans (State.idleChoice_step _ d)

theorem State.queueDeadOn_step (s : State) (d : Nat) : MediaStep s (s.queueDeadOn d) :=
  (State.updateDieBlocks_step s d _).trans (State.joinErases_step _ d _)

theorem State.queueDead_step (s : State) : MediaStep s s.queueDead :=
  MediaStep.foldl _ State.queueDeadOn_step _ s

theorem State.appendRecord_step (s : State) (record : List Byte) : MediaStep s (s.appendRecord record) :=
  State.joinLongOp_step s 0 _

theorem State.queueErasesOn_step (s : State) (d : Nat) : MediaStep s (s.queueErasesOn d) :=
  State.joinErases_step s d _

theorem State.readEnded_step (s : State) (d : Nat) : MediaStep s (s.readEnded d) :=
  (State.setDieState_step s d _).trans (State.readsChanged_step _ d)

theorem State.wipeDie_step (s : State) (d : Nat) : MediaStep s (s.wipeDie d) :=
  (State.updateDieBlocks_step s d _).trans (State.joinErases_step _ d _)

/-! ### Voices -/

theorem State.updateVoice_step (s : State) (tag : Nat) (f : Voice → Voice) :
    VoiceStep s (s.updateVoice tag f) := VoiceStep.setVoices s _

theorem State.queueNotice_voiceStep (s : State) (addressee : Nat) (body : NoticeBody) :
    VoiceStep s (s.queueNotice addressee body) := VoiceStep.setNotices s _

theorem State.refuse_voiceStep (s : State) (sender kind : Nat) (reason : Reason) (subject : Nat) :
    VoiceStep s (s.refuse sender kind reason subject) := VoiceStep.setNotices s _

theorem State.closeNotices_step (s : State) (tag : Nat) : VoiceStep s (s.closeNotices tag) :=
  VoiceStep.setNotices s _

theorem State.recomputeDry_step (s : State) (tag : Nat) : VoiceStep s (s.recomputeDry tag) :=
  (State.updateVoice_step s tag _).trans (State.syncReads_step _).voiceStep

theorem State.stitch_step (s : State) (v : Voice) (f : FollowSlot) : VoiceStep s (s.stitch v f) :=
  ((State.updateVoice_step s v.tag _).trans (State.releaseUse_step _ _).voiceStep).trans
    (State.queueNotice_voiceStep _ _ _)

theorem State.regionEnd_step (s : State) (v : Voice) (r : Region) : VoiceStep s (s.regionEnd v r) := by
  rw [State.regionEnd]
  try dsimp only
  split
  · exact State.updateVoice_step s v.tag _
  · exact ((State.updateVoice_step s v.tag _).trans (State.updateVoice_step _ v.tag _)).trans
      (State.queueNotice_voiceStep _ _ _)

theorem State.advanceCursor_step (s : State) (tag : Nat) : VoiceStep s (s.advanceCursor tag) := by
  rw [State.advanceCursor]
  split
  · exact VoiceStep.refl s
  · split
    · split
      · exact State.updateVoice_step s tag _
      · split
        · exact State.updateVoice_step s tag _
        · split
          · exact State.stitch_step s _ _
          · exact State.regionEnd_step s _ _
    · exact VoiceStep.refl s

theorem State.issue_step (s : State) (v : Voice) : VoiceStep s (s.issue v) := by
  rw [State.issue]
  split
  · split
    · exact ((((State.joinReads_step s _ _).voiceStep).trans (State.updateVoice_step _ v.tag _)).trans
        (State.advanceCursor_step _ v.tag)).trans (State.readsChanged_step _ _).voiceStep
    · exact VoiceStep.refl s
  · exact VoiceStep.refl s

theorem State.testEligible_step (s : State) (tag : Nat) : VoiceStep s (s.testEligible tag) := by
  rw [State.testEligible]
  split
  · split
    · exact State.issue_step s _
    · exact VoiceStep.refl s
  · exact VoiceStep.refl s

theorem State.completeIfLimit_step (s : State) (tag : Nat) : VoiceStep s (s.completeIfLimit tag) := by
  rw [State.completeIfLimit]
  split
  · split
    · exact State.updateVoice_step s tag _
    · exact VoiceStep.refl s
  · exact VoiceStep.refl s

theorem State.passOver_step (tag n : Nat) : ∀ s : State, VoiceStep s (s.passOver tag n) := by
  induction n with
  | zero => exact VoiceStep.refl
  | succ n ih =>
    intro s
    rw [State.passOver]
    split
    · split
      · exact VoiceStep.refl s
      · exact ((State.updateVoice_step s tag _).trans (State.advanceCursor_step _ tag)).trans (ih _)
    · exact VoiceStep.refl s

theorem State.skip_step (s : State) (tag gapStart count : Nat) : VoiceStep s (s.skip tag gapStart count) := by
  rw [State.skip]
  split
  · exact VoiceStep.refl s
  · dsimp only
    split
    · exact State.passOver_step tag _ s
    · split
      · exact ((State.passOver_step tag _ s).trans (State.queueNotice_voiceStep _ _ _)).trans
          (State.updateVoice_step _ tag _)
      · exact ((((State.passOver_step tag _ s).trans (State.queueNotice_voiceStep _ _ _)).trans
          (State.updateVoice_step _ tag _)).trans (State.recomputeDry_step _ tag)).trans
          (State.testEligible_step _ tag)

theorem State.dryEvent_step (s : State) (v : Voice) : VoiceStep s (s.dryEvent v) := by
  rw [State.dryEvent]
  try dsimp only
  split
  · exact State.skip_step s _ _ _
  · exact (State.updateVoice_step s v.tag _).trans (State.queueNotice_voiceStep _ _ _)

theorem State.deliveryCompletion_step (s : State) (tag ring : Nat) :
    VoiceStep s (s.deliveryCompletion tag ring) := by
  rw [State.deliveryCompletion]
  split
  · exact VoiceStep.refl s
  · split
    · dsimp only
      split
      · exact (State.updateVoice_step s tag _).trans (State.updateVoice_step _ tag _)
      · split
        · exact (State.updateVoice_step s tag _).trans (State.skip_step _ _ _ _)
        · exact (((State.updateVoice_step s tag _).trans (State.updateVoice_step _ tag _)).trans
            (State.recomputeDry_step _ tag)).trans (State.testEligible_step _ tag)
    · exact VoiceStep.refl s

theorem State.discardSegments_step (s : State) (tags : List Nat) : VoiceStep s (s.discardSegments tags) :=
  (((VoiceStep.setMedia s _).trans (VoiceStep.setDelivery _ _)).trans
    (State.freeBuffers_step _ _).voiceStep).trans
    (MediaStep.foldl _ State.readsChanged_step _ _).voiceStep

theorem State.retireRecord_step (s : State) (reason : RetireReason) (v : Voice) :
    VoiceStep s (s.retireRecord reason v) := by
  have h := ((VoiceStep.setVoices s (s.voices.filter (·.tag != v.tag))).trans
    (State.releaseUses_step _ v.uses).voiceStep).trans (State.closeNotices_step _ v.tag)
  rw [State.retireRecord]
  try dsimp only
  split
  · exact h
  · exact h.trans (State.queueNotice_voiceStep _ _ _)

theorem State.retire_step (s : State) (tag : Nat) (reason : RetireReason) :
    VoiceStep s (s.retire tag reason) := by
  rw [State.retire]
  split
  · exact VoiceStep.refl s
  · exact (State.discardSegments_step s _).trans (State.retireRecord_step _ _ _)

theorem State.retireAll_step (s : State) (reason : RetireReason) : VoiceStep s (s.retireAll reason) :=
  (State.discardSegments_step s _).trans
    (VoiceStep.foldl _ (fun s v => State.retireRecord_step s reason v) _ _)

theorem State.fixFade_step (s : State) (v : Voice) (length : Nat) : VoiceStep s (s.fixFade v length) := by
  rw [State.fixFade]
  try dsimp only
  have h := (State.updateVoice_step s v.tag fun v' =>
    { v' with fin := some { frame := v.floorP + length, cause := .fade }, follow := none }).trans
    (State.queueNotice_voiceStep _ v.requester (.endpoint v.tag (v.floorP + length) .fade))
  split
  · exact (h.trans (State.releaseUse_step _ _).voiceStep).trans (State.completeIfLimit_step _ _)
  · exact h.trans (State.completeIfLimit_step _ _)

theorem State.applyEnd_step (s : State) (v : Voice) (mode : CutOrFade) (to_ : Nat) :
    VoiceStep s (s.applyEnd v mode to_) := by
  unfold State.applyEnd
  split
  · exact State.retire_step s _ _
  · split
    · exact State.refuse_voiceStep s _ _ _ _
    · exact State.fixFade_step s _ _

theorem State.applyPendingEnd_step (s : State) (tag : Nat) : VoiceStep s (s.applyPendingEnd tag) := by
  rw [State.applyPendingEnd]
  split
  · exact VoiceStep.refl s
  · split
    · exact VoiceStep.refl s
    · split
      · exact (State.updateVoice_step s tag _).trans (State.applyEnd_step _ _ _ _)
      · exact VoiceStep.refl s

theorem State.steal_step (s : State) : VoiceStep s s.steal := by
  unfold State.steal
  generalize s.idleRecord? = a, s.stealVictim? = b
  split
  · exact State.retire_step s _ _
  · exact VoiceStep.refl s

theorem State.createVoice_step (s : State) (b : Bid) : VoiceStep s (s.createVoice b) := by
  unfold State.createVoice
  have h := State.steal_step s
  generalize s.steal = u at h
  try dsimp only
  generalize u.idleRecord? = a
  split
  · exact (h.trans (VoiceStep.setVoices u _)).trans (State.testEligible_step _ _)
  · exact h.trans (State.releaseUse_step u _).voiceStep

theorem State.afterTick_step (s : State) (v : Voice) : VoiceStep s (s.afterTick v) := by
  rw [State.afterTick]
  try dsimp only
  have h : VoiceStep s (match s.voice? v.tag with
    | some w => if v.consumed < w.consumed then s.testEligible v.tag else s
    | none => s) := by
    split
    · split
      · exact State.testEligible_step s _
      · exact VoiceStep.refl s
    · exact VoiceStep.refl s
  split
  · exact h.trans (State.recomputeDry_step _ _)
  · exact h

theorem State.tickRunning_step (s : State) (v : Voice) : VoiceStep s (s.tickRunning v) := by
  rw [State.tickRunning]
  try dsimp only
  have h := State.updateVoice_step s v.advanced.tag Voice.advanced
  split
  · exact h.trans (State.retire_step _ _ _)
  · split
    · exact h.trans (State.retire_step _ _ _)
    · refine VoiceStep.trans (VoiceStep.trans ?_ (State.applyPendingEnd_step _ _))
        (State.afterTick_step _ _)
      split
      · exact h.trans (State.dryEvent_step _ _)
      · exact h

theorem State.startScheduled_step (s : State) (v : Voice) (start : Nat) :
    VoiceStep s (s.startScheduled v start) := by
  rw [State.startScheduled]
  split
  · exact (State.updateVoice_step s _ _).trans (State.recomputeDry_step _ _)
  · exact VoiceStep.refl s

theorem State.tickVoice_step (s : State) (tag : Nat) : VoiceStep s (s.tickVoice tag) := by
  rw [State.tickVoice]
  split
  · exact VoiceStep.refl s
  · split
    · exact State.tickRunning_step s _
    · exact (State.startScheduled_step s _ _).trans (State.applyPendingEnd_step _ _)
    · exact State.applyPendingEnd_step s _

theorem State.recomputeHeld_step (s : State) : VoiceStep s s.recomputeHeld :=
  (VoiceStep.setVoices s _).trans (State.syncReads_step _).voiceStep

theorem State.startPosting_voiceStep (s : State) : VoiceStep s s.startPosting := by
  rw [State.startPosting]
  split
  · exact VoiceStep.setDelivery s _
  · exact VoiceStep.refl s

theorem State.joinDelivery_step (s : State) (e : Delivery) : VoiceStep s (s.joinDelivery e) :=
  (VoiceStep.setDelivery s _).trans (State.startPosting_voiceStep _)

theorem State.postingEnded_step (s : State) (p : Posting) : VoiceStep s (s.postingEnded p) := by
  rw [State.postingEnded]
  try dsimp only
  refine VoiceStep.trans ?_ (State.startPosting_voiceStep _)
  have h := (VoiceStep.setDelivery s { s.delivery with posting := none }).trans
    (State.freeBuffer_step _).voiceStep
  split
  · exact h
  · exact h.trans (State.deliveryCompletion_step _ _ _)

theorem State.readResult_step (s : State) (d : Nat) (r : ReadRequest) (v : Voice) (bad : BitVec 12) :
    VoiceStep s (s.readResult d r v bad) := by
  rw [State.readResult]
  try dsimp only
  split
  · exact State.joinDelivery_step s _
  · split
    · exact (State.joinReads_step s _ _).voiceStep
    · exact (State.queueNotice_voiceStep s _ _).trans (State.joinDelivery_step _ _)

theorem State.readOutcome_step (s : State) (d : Nat) (a : ActiveRead) (bad : BitVec 12) :
    VoiceStep s (s.readOutcome d a bad) := by
  rw [State.readOutcome]
  split
  · exact State.readResult_step s _ _ _ _
  · exact (State.freeBuffer_step s).voiceStep

/-! ### The installer -/

theorem State.queueNotice_installStep (s : State) (addressee : Nat) (body : NoticeBody) :
    InstallStep s (s.queueNotice addressee body) := InstallStep.setNotices s _

theorem State.refuse_installStep (s : State) (sender kind : Nat) (reason : Reason) (subject : Nat) :
    InstallStep s (s.refuse sender kind reason subject) := InstallStep.setNotices s _

theorem State.scramble_step (s : State) (first count : Nat) (cause : UnknownCause) :
    InstallStep s (s.scramble first count cause) :=
  (InstallStep.setMedia s _).trans (InstallStep.setStamp _ _)

theorem State.setHead_step (s : State) (w : WorkItem) : InstallStep s (s.setHead w) :=
  InstallStep.setInstaller s _

theorem State.endItem_step (s : State) : InstallStep s s.endItem := InstallStep.setInstaller s _

theorem State.lowerOwed_step (s : State) : InstallStep s s.lowerOwed := InstallStep.setCatalogue s _

theorem State.dropPending_step (s : State) (id : Nat) : InstallStep s (s.dropPending id) :=
  InstallStep.setCatalogue s _

theorem State.startReading_step (s : State) (i : InstallItem) : InstallStep s (s.startReading i) :=
  (State.setHead_step s _).trans (InstallStep.setDelivery _ _)

theorem State.withdrawPrograms_step (s : State) : InstallStep s s.withdrawPrograms :=
  InstallStep.setMedia s _

theorem State.failInstall_step (s : State) (i : InstallItem) (reason : Reason) :
    InstallStep s (s.failInstall i reason) :=
  (((((((State.clearPending_step s).trans (State.queueDead_step _)).installStep).trans
    (State.endItem_step _)).trans (State.dropPending_step _ _)).trans (State.lowerOwed_step _)).trans
    (State.withdrawPrograms_step _)).trans (State.queueNotice_installStep _ _ _)

theorem State.endReclaim_step (s : State) : InstallStep s s.endReclaim :=
  (State.endItem_step s).trans (State.lowerOwed_step _)

theorem State.runReclaim_step (s : State) (sender region : Nat) :
    InstallStep s (s.runReclaim sender region) :=
  ((State.setHead_step s _).trans (State.updateRegion_step _ _ _).installStep).trans
    (State.appendRecord_step _ _).installStep

theorem State.startNext_step (n : Nat) : ∀ s : State, InstallStep s (State.startNext n s) := by
  induction n with
  | zero => exact InstallStep.refl
  | succ n ih =>
    intro s
    rw [State.startNext]
    split
    · exact InstallStep.refl s
    · split
      · split
        · split
          · exact State.startReading_step s _
          · exact (State.failInstall_step s _ _).trans (ih _)
        · exact InstallStep.refl s
      · split
        · exact ((State.endReclaim_step s).trans (State.refuse_installStep _ _ _ _ _)).trans (ih _)
        · split
          · exact ((State.endReclaim_step s).trans (State.refuse_installStep _ _ _ _ _)).trans (ih _)
          · exact State.runReclaim_step s _ _
      all_goals exact InstallStep.refl s

theorem State.nextItem_step (s : State) : InstallStep s s.nextItem := State.startNext_step 4 s

theorem State.installFails_step (s : State) (i : InstallItem) (reason : Reason) :
    InstallStep s (s.installFails i reason) :=
  (State.failInstall_step s i reason).trans (State.nextItem_step _)

theorem State.openBlock_step (s : State) (d b : Nat) : InstallStep s (s.openBlock d b) :=
  ((State.updateDieBlocks_step s d _).trans (State.setBlockState_step _ d b _)).installStep

theorem State.placeProgram_step (s : State) (i : InstallItem) (b page : Nat) :
    InstallStep s (s.placeProgram i b page) :=
  (State.setHead_step s _).trans (State.joinLongOp_step _ _ _).installStep

theorem State.enterProgramming_step (s : State) (i : InstallItem) : InstallStep s (s.enterProgramming i) := by
  rw [State.enterProgramming]
  try dsimp only
  split
  · exact State.placeProgram_step s _ _ _
  · exact (State.openBlock_step s _ _).trans (State.placeProgram_step _ _ _ _)
  · split
    · exact State.setHead_step s _
    · exact State.installFails_step s _ _

theorem State.pageProgrammed_step (s : State) (i : InstallItem) (p : Program) :
    InstallStep s (s.pageProgrammed i p) := by
  rw [State.pageProgrammed]
  try dsimp only
  have h := (State.updateBlock_step s i.die p.block fun b => b.pageUsed.addPending).installStep
  split
  · exact h.trans (State.startReading_step _ _)
  · exact (h.trans (State.setHead_step _ _)).trans (State.appendRecord_step _ _).installStep

theorem State.orphanResult_step (s : State) (d : Nat) (p : Program) (ok : Bool) :
    InstallStep s (s.orphanResult d p ok) := by
  rw [State.orphanResult]
  try dsimp only
  refine InstallStep.trans (InstallStep.trans ?_ (InstallStep.setInstaller _ _)) (State.nextItem_step _)
  split
  · exact ((State.updateBlock_step s d _ _).trans (State.queueDeadOn_step _ d)).installStep
  · exact (State.updateBlock_step s d _ _).installStep

theorem State.pageResult_step (s : State) (d : Nat) (p : Program) (ok : Bool) :
    InstallStep s (s.pageResult d p ok) := by
  rw [State.pageResult]
  split
  · split
    · split
      · exact State.pageProgrammed_step s _ _
      · exact (State.updateBlock_step s d _ _).installStep.trans (State.installFails_step _ _ _)
    · exact State.orphanResult_step s _ _ _
  · exact State.orphanResult_step s _ _ _

theorem State.advanceAppend_step (s : State) : InstallStep s s.advanceAppend :=
  InstallStep.setCatalogue s _

theorem State.installComplete_step (s : State) (i : InstallItem) : InstallStep s (s.installComplete i) :=
  (((((((InstallStep.setCatalogue s _).trans (State.makeLive_step _ _).installStep).trans
    (State.queueDead_step _).installStep).trans (State.dropPending_step _ _)).trans
    (State.lowerOwed_step _)).trans (State.queueNotice_installStep _ _ _)).trans
    (State.endItem_step _)).trans (State.nextItem_step _)

theorem State.voidComplete_step (s : State) (sender region : Nat) :
    InstallStep s (s.voidComplete sender region) :=
  (((((InstallStep.setCatalogue s _).trans (State.loseLive_step _ _).installStep).trans
    (State.queueDead_step _).installStep).trans (State.endReclaim_step _)).trans
    (State.queueNotice_installStep _ _ _)).trans (State.nextItem_step _)

theorem State.voidFailed_step (s : State) (sender region : Nat) :
    InstallStep s (s.voidFailed sender region) :=
  (((State.updateRegion_step s _ _).installStep.trans (State.endReclaim_step _)).trans
    (State.refuse_installStep _ _ _ _ _)).trans (State.nextItem_step _)

theorem State.logResult_step (s : State) (ok : Bool) : InstallStep s (s.logResult ok) := by
  rw [State.logResult]
  try dsimp only
  have h := State.advanceAppend_step s
  split
  · split
    · split
      · exact h.trans (State.installComplete_step _ _)
      · exact h.trans (State.installFails_step _ _ _)
    · exact h
  · split
    · exact h.trans (State.voidComplete_step _ _ _)
    · exact h.trans (State.voidFailed_step _ _ _)
  · exact h

theorem State.handOn_step (s : State) (d : Nat) (p : Program) (ok : Bool) :
    InstallStep s (s.handOn d p ok) := by
  rw [State.handOn]
  split
  · exact State.pageResult_step s _ _ _
  · exact State.logResult_step s _

theorem State.setFront_step (s : State) (d b value : Nat) : InstallStep s (s.setFront d b value) :=
  InstallStep.setMedia s _

theorem State.programFlash_step (s : State) (d : Nat) (p : Program) (ok : Bool) :
    InstallStep s (s.programFlash d p ok) := by
  unfold State.programFlash
  try dsimp only
  split
  · exact InstallStep.setMedia _ _
  · exact State.scramble_step _ _ _ _

theorem State.eraseFlash_step (s : State) (d b : Nat) (ok : Bool) :
    InstallStep s (s.eraseFlash d b ok) := by
  unfold State.eraseFlash
  split
  · exact InstallStep.setMedia _ _
  · exact State.scramble_step _ _ _ _

theorem State.programResult_step (s : State) (d : Nat) (p : Program) (ok : Bool) :
    InstallStep s (s.programResult d p ok) :=
  ((State.setFront_step s _ _ _).trans (State.programFlash_step _ _ _ _)).trans (State.handOn_step _ _ _ _)

theorem State.blockErased_step (s : State) (d b : Nat) (ok : Bool) :
    InstallStep s (s.blockErased d b ok) := by
  rw [State.blockErased]
  split
  · exact InstallStep.refl s
  · split
    · exact ((State.updateBlock_step s d b _).trans (State.pushFree_step _ d b)).installStep
    · exact (State.setBlockState_step s d b _).installStep

theorem State.wipeProgress_step (s : State) (sender worn left logLeft : Nat) (isLog ok : Bool) :
    InstallStep s (s.wipeProgress sender worn left logLeft isLog ok) := by
  unfold State.wipeProgress
  have h : ∀ b : Bool, InstallStep s (if b = true then s.clearAppend else s) := fun b => by
    cases b
    · exact InstallStep.refl s
    · exact InstallStep.setCatalogue s _
  try dsimp only
  split
  · exact (((h _).trans (State.endItem_step _)).trans (State.queueNotice_installStep _ _ _)).trans
      (State.nextItem_step _)
  · exact (h _).trans (State.setHead_step _ _)

theorem State.eraseTold_step (s : State) (d : Nat) (isLog ok : Bool) :
    InstallStep s (s.eraseTold d isLog ok) := by
  rw [State.eraseTold]
  split
  · exact State.wipeProgress_step s _ _ _ _ _ _
  · split
    · exact State.enterProgramming_step s _
    · exact InstallStep.refl s
  · exact InstallStep.refl s

theorem State.eraseResult_step (s : State) (d b : Nat) (ok : Bool) : InstallStep s (s.eraseResult d b ok) :=
  (((State.setFront_step s _ _ _).trans (State.eraseFlash_step _ _ _ _)).trans
    (State.blockErased_step _ _ _ _)).trans (State.eraseTold_step _ _ _ _)

theorem State.longOpResult_step (s : State) (d : Nat) (op : LongOp) (ok : Bool) :
    InstallStep s (s.longOpResult d op ok) := by
  cases op with
  | program p => exact (State.programResult_step s d p ok).trans (State.becomeIdle_step _ d).installStep
  | erase b => exact (State.eraseResult_step s d b ok).trans (State.becomeIdle_step _ d).installStep

theorem State.settleFronts_step (n : Nat) : ∀ s : State, InstallStep s (State.settleFronts n s) := by
  induction n with
  | zero => exact fun s => InstallStep.setMedia s _
  | succ n ih =>
    intro s
    rw [State.settleFronts]
    split
    · exact InstallStep.refl s
    · exact ((InstallStep.setMedia s _).trans (State.handOn_step _ _ _ _)).trans (ih _)

theorem State.settleFront_step (s : State) : InstallStep s s.settleFront := State.settleFronts_step 8 s

theorem State.joinWork_step (s : State) (w : WorkItem) : InstallStep s (s.joinWork w) := by
  rw [State.joinWork]
  try dsimp only
  split
  · exact (InstallStep.setInstaller s _).trans (State.nextItem_step _)
  · exact InstallStep.setInstaller s _

theorem State.admitWipe_step (s : State) (sender : Nat) : InstallStep s (s.admitWipe sender) :=
  ((InstallStep.setCatalogue s _).trans (InstallStep.setInstaller _ _)).trans
    (MediaStep.foldl _ State.wipeDie_step _ _).installStep

end Sys2Proof.Machine
end

