-- ==== Sys2Proof/Laws/Finish.lean ====
section
/-! SUPPORT. What closes a step: the READY drive, the offer choice, and what `finish` leaves unchanged. -/

namespace Sys2Proof.Machine

/-! ### READY -/

/-- READY depends on the station's configuration and its voices alone (R52). -/
theorem State.readyWanted_congr {s t : State} (h1 : t.station = s.station) (h2 : t.voices = s.voices) :
    t.readyWanted = s.readyWanted := by
  unfold State.readyWanted
  rw [h1, h2]

@[simp] theorem State.recomputeReady_clock (s : State) : s.recomputeReady.clock = s.clock := rfl
@[simp] theorem State.recomputeReady_station (s : State) : s.recomputeReady.station = s.station := rfl
@[simp] theorem State.recomputeReady_port (s : State) : s.recomputeReady.port = s.port := rfl
@[simp] theorem State.recomputeReady_claims (s : State) : s.recomputeReady.claims = s.claims := rfl
@[simp] theorem State.recomputeReady_voices (s : State) : s.recomputeReady.voices = s.voices := rfl
@[simp] theorem State.recomputeReady_timebase (s : State) :
    s.recomputeReady.timebase = { s.timebase with readyLow := s.readyWanted } := rfl
@[simp] theorem State.recomputeReady_media (s : State) : s.recomputeReady.media = s.media := rfl
@[simp] theorem State.recomputeReady_catalogue (s : State) :
    s.recomputeReady.catalogue = s.catalogue := rfl
@[simp] theorem State.recomputeReady_installer (s : State) :
    s.recomputeReady.installer = s.installer := rfl
@[simp] theorem State.recomputeReady_delivery (s : State) : s.recomputeReady.delivery = s.delivery := rfl
@[simp] theorem State.recomputeReady_notices (s : State) : s.recomputeReady.notices = s.notices := rfl
@[simp] theorem State.recomputeReady_stamp (s : State) : s.recomputeReady.stamp = s.stamp := rfl
@[simp] theorem State.recomputeReady_pending (s : State) : s.recomputeReady.pending = s.pending := rfl

/-- With READY as it should be, recomputing it changes nothing. -/
theorem State.recomputeReady_eq (s : State) (h : s.readyLawful) : s.recomputeReady = s := by
  unfold State.recomputeReady
  rw [← h]
  rfl

/-! ### The offer -/

/-- `t` follows `s` by an offer: only the port, the bid entries' offer states and the drop count of the
notice queue may change. -/
structure OfferStep (s t : State) : Prop where
  clock     : t.clock = s.clock
  station   : t.station = s.station
  watches   : t.claims.watches = s.claims.watches
  bids      : t.claims.bids.map (·.tag) = s.claims.bids.map (·.tag)
  voices    : t.voices = s.voices
  timebase  : t.timebase = s.timebase
  media     : t.media = s.media
  catalogue : t.catalogue = s.catalogue
  installer : t.installer = s.installer
  delivery  : t.delivery = s.delivery
  queue     : t.notices.queue = s.notices.queue
  loss      : t.notices.loss = s.notices.loss
  count     : t.notices.offerCount = s.notices.offerCount
  addendum  : t.notices.addendum = s.notices.addendum
  stamp     : t.stamp = s.stamp
  pending   : t.pending = s.pending

theorem updateFirst_map {α β : Type} (p : α → Bool) (f : α → α) (g : α → β) (h : ∀ x, g (f x) = g x)
    (l : List α) : (updateFirst p f l).map g = l.map g := by
  induction l with
  | nil => rfl
  | cons x xs ih =>
    rw [updateFirst]
    split <;> simp [h, ih]

theorem State.beginClaim_step (s : State) (b : Bid) : OfferStep s (s.beginClaim b) :=
  ⟨rfl, rfl, rfl, updateFirst_map (fun c : Bid => c.tag == b.tag) (fun c => { c with offer := .sending })
    (·.tag) (fun _ => rfl) s.claims.bids, rfl, rfl, rfl, rfl, rfl, rfl, rfl, rfl, rfl, rfl, rfl, rfl⟩

theorem State.beginNotice_step (s : State) (n : Notice) : OfferStep s (s.beginNotice n) :=
  ⟨rfl, rfl, rfl, rfl, rfl, rfl, rfl, rfl, rfl, rfl, rfl, rfl, rfl, rfl, rfl, rfl⟩

theorem State.offer_step (s : State) : OfferStep s s.offer := by
  have r : OfferStep s s :=
    ⟨rfl, rfl, rfl, rfl, rfl, rfl, rfl, rfl, rfl, rfl, rfl, rfl, rfl, rfl, rfl, rfl⟩
  unfold State.offer
  split
  · split
    · exact State.beginClaim_step s _
    · exact State.beginNotice_step s _
    · exact r
  · exact r

/-- No frame begins while the station sends one (R114). -/
theorem Port.mayBegin_sending (p : Port) (now : Nat) (h : p.sending.isSome) : p.mayBegin now = false := by
  obtain ⟨f, hf⟩ := Option.isSome_iff_exists.1 h
  simp [Port.mayBegin, hf]

/-- No frame begins on a bus that is not IDLE and on which no other station has begun one (R114). -/
theorem Port.mayBegin_alone (p : Port) (now : Nat) (h : p.bus ≠ .idle) (hr : p.rival = none) :
    p.mayBegin now = false := by
  unfold Port.mayBegin
  rw [hr]
  cases hb : p.bus <;> simp_all

/-- No frame begins in SKIPPING (R114). -/
theorem Port.mayBegin_skipping (p : Port) (now : Nat) (h : p.bus = .skipping) : p.mayBegin now = false := by
  simp [Port.mayBegin, h]

/-- Nothing is offered where no frame may begin (R114). -/
theorem State.offer_busy (s : State) (h : s.port.mayBegin s.clock = false) : s.offer = s := by
  unfold State.offer
  rw [if_neg (by simp [h])]

/-! ### The end of a step -/

theorem State.settleFronts_nil (n : Nat) (s : State) (h : s.media.frontFailed = []) :
    State.settleFronts n s = s := by
  cases n with
  | zero =>
    unfold State.settleFronts
    rw [← h]
    rfl
  | succ n =>
    unfold State.settleFronts
    rw [h]

/-- With no program turned away, a step closes with the READY drive and the offer. -/
theorem State.finish_settled (s : State) (h : s.media.frontFailed = []) :
    s.finish = s.recomputeReady.offer := by
  unfold State.finish State.settleFront
  rw [State.settleFronts_nil 8 s h]

/-- With no program turned away and no place for a frame, a step closes with the READY drive alone. -/
theorem State.finish_busy (s : State) (h : s.media.frontFailed = []) (hb : s.port.mayBegin s.clock = false) :
    s.finish = s.recomputeReady := by
  rw [State.finish_settled s h]
  exact State.offer_busy _ hb

@[simp] theorem State.finish_clock (s : State) : s.finish.clock = s.clock :=
  (State.offer_step _).clock.trans (State.settleFront_step s).clock
@[simp] theorem State.finish_station (s : State) : s.finish.station = s.station :=
  (State.offer_step _).station.trans (State.settleFront_step s).station
@[simp] theorem State.finish_voices (s : State) : s.finish.voices = s.voices :=
  (State.offer_step _).voices.trans (State.settleFront_step s).voices
@[simp] theorem State.finish_pending (s : State) : s.finish.pending = s.pending :=
  (State.offer_step _).pending.trans (State.settleFront_step s).pending
@[simp] theorem State.finish_watches (s : State) : s.finish.claims.watches = s.claims.watches :=
  (State.offer_step _).watches.trans (congrArg ClaimUnit.watches (State.settleFront_step s).claims)
@[simp] theorem State.finish_bidTags (s : State) :
    s.finish.claims.bids.map (·.tag) = s.claims.bids.map (·.tag) :=
  (State.offer_step _).bids.trans
    (congrArg (fun c => c.bids.map (·.tag)) (State.settleFront_step s).claims)

@[simp] theorem State.finish_timebase (s : State) :
    s.finish.timebase = { s.timebase with readyLow := s.readyWanted } := by
  have h := State.settleFront_step s
  rw [State.finish, (State.offer_step _).timebase, State.recomputeReady_timebase,
    h.timebase, State.readyWanted_congr h.station h.voices]

/-- After `finish` READY is as it should be (R52). -/
theorem State.finish_ready (s : State) : s.finish.readyLawful := by
  unfold State.readyLawful
  rw [State.finish_timebase, State.readyWanted_congr (State.finish_station s) (State.finish_voices s)]

end Sys2Proof.Machine
end

