-- ==== Sys2Proof/Laws/Port.lean ====
section
/-! SUPPORT. What the cue port's, the claim unit's and the delivery engine's shared operations answer: receiving
a frame, the lists keyed by a tag, and a notice that joins its queue. -/

namespace Sys2Proof.Machine

/-! ### The state a received frame leaves -/

@[simp] theorem State.frameEnded_clock (s : State) (t : Nat) : (s.frameEnded t).clock = max s.clock t := rfl
@[simp] theorem State.frameEnded_station (s : State) (t : Nat) : (s.frameEnded t).station = s.station := rfl
@[simp] theorem State.frameEnded_port (s : State) (t : Nat) :
    (s.frameEnded t).port = { bus := .skipping, sending := none } := rfl
@[simp] theorem State.frameEnded_claims (s : State) (t : Nat) : (s.frameEnded t).claims = s.claims := rfl
@[simp] theorem State.frameEnded_voices (s : State) (t : Nat) : (s.frameEnded t).voices = s.voices := rfl
@[simp] theorem State.frameEnded_timebase (s : State) (t : Nat) :
    (s.frameEnded t).timebase = s.timebase := rfl
@[simp] theorem State.frameEnded_media (s : State) (t : Nat) : (s.frameEnded t).media = s.media := rfl
@[simp] theorem State.frameEnded_catalogue (s : State) (t : Nat) :
    (s.frameEnded t).catalogue = s.catalogue := rfl
@[simp] theorem State.frameEnded_installer (s : State) (t : Nat) :
    (s.frameEnded t).installer = s.installer := rfl
@[simp] theorem State.frameEnded_delivery (s : State) (t : Nat) :
    (s.frameEnded t).delivery = s.delivery := rfl
@[simp] theorem State.frameEnded_notices (s : State) (t : Nat) : (s.frameEnded t).notices = s.notices := rfl
@[simp] theorem State.frameEnded_stamp (s : State) (t : Nat) : (s.frameEnded t).stamp = s.stamp := rfl
@[simp] theorem State.frameEnded_pending (s : State) (t : Nat) : (s.frameEnded t).pending = s.pending := rfl
@[simp] theorem State.frameEnded_voice? (s : State) (t tag : Nat) :
    (s.frameEnded t).voice? tag = s.voice? tag := rfl
@[simp] theorem State.frameEnded_bid? (s : State) (t tag : Nat) :
    (s.frameEnded t).bid? tag = s.bid? tag := rfl
@[simp] theorem State.frameEnded_region? (s : State) (t id : Nat) :
    (s.frameEnded t).region? id = s.region? id := rfl

/-! ### Lists keyed by a field -/

/-- What is found at a key after its first element there is changed. -/
theorem find_updateFirst {α : Type} (key : α → Nat) (k : Nat) (f : α → α) (hf : ∀ x, key (f x) = key x)
    (l : List α) :
    (updateFirst (fun x => key x == k) f l).find? (fun x => key x == k) =
      (l.find? (fun x => key x == k)).map f := by
  induction l with
  | nil => rfl
  | cons x xs ih =>
    by_cases h : key x = k
    · simp [updateFirst, h, hf]
    · simp [updateFirst, h, ih]

/-- What is found at another key is as before. -/
theorem find_updateFirst_other {α : Type} (key : α → Nat) (k j : Nat) (f : α → α)
    (hf : ∀ x, key (f x) = key x) (hj : j ≠ k) (l : List α) :
    (updateFirst (fun x => key x == k) f l).find? (fun x => key x == j) =
      l.find? (fun x => key x == j) := by
  induction l with
  | nil => rfl
  | cons x xs ih =>
    by_cases h : key x = k
    · have h2 : ¬ key x = j := fun e => hj (e.symm.trans h)
      simp [updateFirst, h, hf, hj.symm]
    · by_cases h3 : key x = j
      · simp [updateFirst, h3, hj]
      · simp [updateFirst, h, h3, ih]

/-- With keys that differ, the first element at a key is the only one, so changing it is a map. -/
theorem updateFirst_eq_map {α : Type} (key : α → Nat) (k : Nat) (f : α → α) (l : List α)
    (h : (l.map key).Nodup) :
    updateFirst (fun x => key x == k) f l = l.map fun x => if key x = k then f x else x := by
  induction l with
  | nil => rfl
  | cons x xs ih =>
    simp only [List.map_cons, List.nodup_cons, List.mem_map, not_exists, not_and] at h
    by_cases hx : key x = k
    · have hrest : xs.map (fun y => if key y = k then f y else y) = xs := by
        conv_rhs => rw [← List.map_id xs]
        apply List.map_congr_left
        intro y hy
        have := h.1 y hy
        rw [if_neg (fun e => this (e.trans hx.symm))]
        rfl
      simp [updateFirst, hx, hrest]
    · simp [updateFirst, hx, ih h.2]

/-- An element of the changed list is an element of the old one, or the change of one. -/
theorem mem_updateFirst {α : Type} (p : α → Bool) (f : α → α) (l : List α) (x : α)
    (h : x ∈ updateFirst p f l) : x ∈ l ∨ ∃ y ∈ l, p y = true ∧ x = f y := by
  induction l with
  | nil => exact absurd h (by simp [updateFirst])
  | cons y ys ih =>
    by_cases hp : p y = true
    · simp only [updateFirst, hp, if_true, List.mem_cons] at h ⊢
      rcases h with h | h
      · exact .inr ⟨y, .inl rfl, hp, h⟩
      · exact .inl (.inr h)
    · simp only [updateFirst, hp, if_false, Bool.false_eq_true, List.mem_cons] at h ⊢
      rcases h with h | h
      · exact .inl (.inl h)
      · rcases ih h with h | ⟨z, hz, h1, h2⟩
        · exact .inl (.inr h)
        · exact .inr ⟨z, .inr hz, h1, h2⟩

/-- Changing one element keeps the number of elements. -/
@[simp] theorem length_updateFirst {α : Type} (p : α → Bool) (f : α → α) (l : List α) :
    (updateFirst p f l).length = l.length := by
  induction l with
  | nil => rfl
  | cons x xs ih => by_cases h : p x = true <;> simp [updateFirst, h, ih]

/-- One use fewer, or more: a region is found as before, with its in-use count changed. -/
theorem State.region_updateRegion (s : State) (id j : Nat) (f : Region → Region)
    (hf : ∀ r, (f r).id = r.id) :
    (s.updateRegion id f).region? j = (s.region? j).map fun r => if j = id then f r else r := by
  by_cases h : j = id
  · subst h
    have := find_updateFirst (·.id) j f hf s.catalogue.regions
    simpa [State.updateRegion, State.region?] using this
  · have := find_updateFirst_other (·.id) id j f hf h s.catalogue.regions
    simpa [State.updateRegion, State.region?, h] using this

/-- One use fewer of a region (R9). -/
theorem State.releaseUse_uses (s : State) (id j : Nat) :
    (s.releaseUse id).uses? j = (s.uses? j).map fun n => if j = id then n - 1 else n := by
  unfold State.uses? State.releaseUse
  rw [State.region_updateRegion s id j (fun r => { r with inUse := r.inUse - 1 }) fun _ => rfl]
  cases s.region? j with
  | none => rfl
  | some r => by_cases h : j = id <;> simp [h]

/-- One use more of a region (R9). -/
theorem State.addUse_uses (s : State) (id j : Nat) :
    (s.addUse id).uses? j = (s.uses? j).map fun n => if j = id then n + 1 else n := by
  unfold State.uses? State.addUse
  rw [State.region_updateRegion s id j (fun r => { r with inUse := r.inUse + 1 }) fun _ => rfl]
  cases s.region? j with
  | none => rfl
  | some r => by_cases h : j = id <;> simp [h]

/-- The voice a tag names after a change at one tag. -/
theorem State.voice_updateVoice (s : State) (tag j : Nat) (f : Voice → Voice)
    (hf : ∀ v, (f v).tag = v.tag) :
    (s.updateVoice tag f).voice? j = (s.voice? j).map fun v => if j = tag then f v else v := by
  by_cases h : j = tag
  · subst h
    have := find_updateFirst (·.tag) j f hf s.voices
    simpa [State.updateVoice, State.voice?] using this
  · have := find_updateFirst_other (·.tag) tag j f hf h s.voices
    simpa [State.updateVoice, State.voice?, h] using this

/-! ### Notices -/

/-- A notice of another kind than UNDERRUN and MEDIA joins the tail while there is room (R178). -/
theorem State.queueNotice_room (s : State) (addressee : Nat) (body : NoticeBody)
    (hk : body.mergeKey = none) (hl : s.notices.queue.length < 32) :
    (s.queueNotice addressee body).notices.queue =
      s.notices.queue ++ [{ addressee := addressee, body := body, isOpen := false }] := by
  have h1 : ∀ n : Notice, n.takes body = false := fun n => by simp [Notice.takes, hk]
  unfold State.queueNotice NoticeQueue.report
  cases hq : s.notices.queue with
  | nil => simp [NoticeQueue.join, hq, hk]
  | cons x xs =>
    rw [hq] at hl
    simp only [List.length_cons] at hl
    simp [NoticeQueue.join, hq, hk, h1, hl]

/-! ### Watches -/

/-- `t` follows `s` by the decision of watches: only the watch list and the notice queue change (R138). -/
structure WatchStep (s t : State) : Prop where
  clock     : t.clock = s.clock
  station   : t.station = s.station
  port      : t.port = s.port
  bids      : t.claims.bids = s.claims.bids
  voices    : t.voices = s.voices
  timebase  : t.timebase = s.timebase
  media     : t.media = s.media
  catalogue : t.catalogue = s.catalogue
  installer : t.installer = s.installer
  delivery  : t.delivery = s.delivery
  stamp     : t.stamp = s.stamp
  pending   : t.pending = s.pending

theorem WatchStep.refl (s : State) : WatchStep s s :=
  ⟨rfl, rfl, rfl, rfl, rfl, rfl, rfl, rfl, rfl, rfl, rfl, rfl⟩

theorem WatchStep.trans {s t u : State} (a : WatchStep s t) (b : WatchStep t u) : WatchStep s u :=
  ⟨b.clock.trans a.clock, b.station.trans a.station, b.port.trans a.port, b.bids.trans a.bids,
    b.voices.trans a.voices, b.timebase.trans a.timebase, b.media.trans a.media,
    b.catalogue.trans a.catalogue, b.installer.trans a.installer, b.delivery.trans a.delivery,
    b.stamp.trans a.stamp, b.pending.trans a.pending⟩

theorem State.decideWatch_step (s : State) (w : Watch) : WatchStep s (s.decideWatch w) := by
  unfold State.decideWatch
  dsimp only
  split <;> exact ⟨rfl, rfl, rfl, rfl, rfl, rfl, rfl, rfl, rfl, rfl, rfl, rfl⟩

theorem State.settleDue_step (s : State) : WatchStep s s.settleDue := by
  unfold State.settleDue
  generalize List.filter _ _ = l
  induction l generalizing s with
  | nil => exact WatchStep.refl s
  | cons w l ih => exact (s.decideWatch_step w).trans (ih _)

/-- With no watch fallen due there is nothing to decide. -/
theorem State.settleDue_none (s : State) (h : ∀ w ∈ s.claims.watches, w.due = false) : s.settleDue = s := by
  have : s.claims.watches.filter (·.due) = [] := by
    rw [List.filter_eq_nil_iff]
    intro w hw
    simp [h w hw]
  simp [State.settleDue, this]

/-- The bid entries after one leaves: those of other tags (R133, R135). -/
theorem State.dropBid_bids (s : State) (tag : Nat) :
    (s.dropBid tag).claims.bids = s.claims.bids.filter (·.tag != tag) := by
  unfold State.dropBid
  split
  · rename_i h
    symm
    rw [List.filter_eq_self]
    intro b hb
    have := List.find?_eq_none.1 h b hb
    simpa using this
  · rw [(State.releaseUse_step _ _).claims]
    rfl

/-- What the removal of a bid entry leaves alone. -/
theorem State.dropBid_step (s : State) (tag : Nat) :
    (s.dropBid tag).clock = s.clock ∧ (s.dropBid tag).station = s.station ∧ (s.dropBid tag).port = s.port ∧
      (s.dropBid tag).claims.watches = s.claims.watches ∧ (s.dropBid tag).voices = s.voices ∧
      (s.dropBid tag).timebase = s.timebase ∧ (s.dropBid tag).media = s.media ∧
      (s.dropBid tag).installer = s.installer ∧ (s.dropBid tag).delivery = s.delivery ∧
      (s.dropBid tag).notices = s.notices ∧ (s.dropBid tag).stamp = s.stamp ∧
      (s.dropBid tag).pending = s.pending := by
  unfold State.dropBid
  split
  · exact ⟨rfl, rfl, rfl, rfl, rfl, rfl, rfl, rfl, rfl, rfl, rfl, rfl⟩
  · exact ⟨rfl, rfl, rfl, rfl, rfl, rfl, rfl, rfl, rfl, rfl, rfl, rfl⟩

/-! ### Frames of the station's own -/

@[simp] theorem Port.stop_sending (p : Port) : p.stop.sending = none := rfl
@[simp] theorem Port.stop_rival (p : Port) : p.stop.rival = none := rfl
@[simp] theorem Port.begun_sending (p : Port) (kind : Nat) (frame : Sending) :
    (p.begun kind frame).sending = some frame := rfl
@[simp] theorem Port.begun_rival (p : Port) (kind : Nat) (frame : Sending) :
    (p.begun kind frame).rival = p.rival := rfl

/-- A CLAIM that stops before its end leaves the port as `Port.stop` says, and decides watches at most. -/
theorem State.stopClaim_step (s : State) : WatchStep (s.setPort s.port.stop) s.stopClaim := by
  unfold State.stopClaim
  dsimp only
  split
  · exact WatchStep.refl _
  · exact State.settleDue_step _

/-! ### Receiving -/

/-- A port that receives assembles the frame. -/
theorem State.receiving_assembling (s : State) (t : Nat) (h : s.receiving) : (s.atTime t).assembling = true := by
  obtain ⟨⟨k, hk⟩, hs, -⟩ := h
  simp [State.assembling, BusCondition.isReceiving, hk, hs]

/-- The end of a received frame, with no watch fallen due. -/
theorem State.receiving_endFrame (s : State) (t : Nat) (h : s.receiving) :
    (s.atTime t).endFrame.settleDue = s.frameEnded t := by
  obtain ⟨⟨k, hk⟩, hs, hw⟩ := h
  rw [State.settleDue_none _ (by simpa [State.endFrame] using hw)]
  simp [State.endFrame, State.frameEnded, State.atTime, State.setClock, State.setPort, hs]

/-- A frame that the port takes is acted on in the state its end leaves. -/
theorem State.receive_takes (s : State) (t : Nat) (h : Header) (act : State → State)
    (ht : s.takes h) : s.receive t h act = act (s.frameEnded t) := by
  obtain ⟨hr, ha⟩ := ht
  have h2 : addressed (s.frameEnded t).station.number h = true := by
    rcases ha with ha | ha <;> simp [addressed, ha]
  unfold State.receive
  rw [if_pos (s.receiving_assembling t hr), s.receiving_endFrame t hr, if_pos h2]

/-- A frame for another station ends without effect. -/
theorem State.receive_elsewhere (s : State) (t : Nat) (h : Header) (act : State → State) (hr : s.receiving)
    (h1 : h.addressee.toNat ≠ s.station.number) (h2 : h.addressee ≠ 31#5) :
    s.receive t h act = s.frameEnded t := by
  have h3 : h.addressee.toNat ≠ 31 := fun x => h2 (BitVec.eq_of_toNat_eq x)
  have h4 : addressed (s.frameEnded t).station.number h = false := by simp [addressed, h1, h3]
  unfold State.receive
  rw [if_pos (s.receiving_assembling t hr), s.receiving_endFrame t hr, if_neg (by rw [h4]; exact Bool.false_ne_true)]

end Sys2Proof.Machine
end

