-- ==== Sys2Proof/Laws/Voices.lean ====
section
/-! SUPPORT. What the fill scheduler does to the voice table: it changes one voice at a time, and none of the
fields that the position unit and the voice table own. -/

namespace Sys2Proof.Machine

/-- The fields that no fill operation changes. -/
structure Voice.SameCore (v w : Voice) : Prop where
  record       : w.record = v.record
  tag          : w.tag = v.tag
  state        : w.state = v.state
  requester    : w.requester = v.requester
  s0           : w.s0 = v.s0
  p            : w.p = v.p
  r            : w.r = v.r
  target       : w.target = v.target
  step         : w.step = v.step
  loopRequest  : w.loopRequest = v.loopRequest
  loopReleased : w.loopReleased = v.loopReleased
  pendingEnd   : w.pendingEnd = v.pendingEnd

theorem Voice.SameCore.refl (v : Voice) : v.SameCore v :=
  ⟨rfl, rfl, rfl, rfl, rfl, rfl, rfl, rfl, rfl, rfl, rfl, rfl⟩

theorem Voice.SameCore.trans {u v w : Voice} (a : u.SameCore v) (b : v.SameCore w) : u.SameCore w :=
  ⟨b.record.trans a.record, b.tag.trans a.tag, b.state.trans a.state, b.requester.trans a.requester,
    b.s0.trans a.s0, b.p.trans a.p, b.r.trans a.r, b.target.trans a.target, b.step.trans a.step,
    b.loopRequest.trans a.loopRequest, b.loopReleased.trans a.loopReleased, b.pendingEnd.trans a.pendingEnd⟩

/-- `w` follows `v` by fill operations on the voice of tag `g`. -/
def fillRel (g : Nat) (v w : Voice) : Prop := v.SameCore w ∧ (v.tag ≠ g → w = v)

/-- `t` follows `s` by fill operations on the voice of tag `g`: record by record, every voice is in its place
with its core fields, and those of other tags are as they were. -/
def FillStep (g : Nat) (s t : State) : Prop := List.Forall₂ (fillRel g) s.voices t.voices

theorem fillRel.refl (g : Nat) (v : Voice) : fillRel g v v := ⟨Voice.SameCore.refl v, fun _ => rfl⟩

theorem FillStep.of_voices {g : Nat} {s t : State} (h : t.voices = s.voices) : FillStep g s t := by
  unfold FillStep
  rw [h]
  exact List.forall₂_same.2 fun v _ => fillRel.refl g v

theorem FillStep.refl (g : Nat) (s : State) : FillStep g s s := FillStep.of_voices rfl

theorem fillRel.trans {g : Nat} {u v w : Voice} (a : fillRel g u v) (b : fillRel g v w) : fillRel g u w :=
  ⟨a.1.trans b.1, fun h => by rw [b.2 (a.1.tag ▸ h), a.2 h]⟩

theorem forall₂_trans {α : Type} {R : α → α → Prop} (hR : ∀ x y z, R x y → R y z → R x z) :
    ∀ {l m n : List α}, List.Forall₂ R l m → List.Forall₂ R m n → List.Forall₂ R l n
  | _, _, _, .nil, .nil => .nil
  | _, _, _, .cons a as, .cons b bs => .cons (hR _ _ _ a b) (forall₂_trans hR as bs)

theorem FillStep.trans {g : Nat} {s t u : State} (a : FillStep g s t) (b : FillStep g t u) :
    FillStep g s u := forall₂_trans (R := fillRel g) (fun _ _ _ x y => fillRel.trans x y) a b

theorem FillStep.left {g : Nat} {s s' t : State} (h : s'.voices = s.voices) (a : FillStep g s' t) :
    FillStep g s t := by
  unfold FillStep at *
  rwa [← h]

theorem FillStep.right {g : Nat} {s t t' : State} (a : FillStep g s t) (h : t'.voices = t.voices) :
    FillStep g s t' := by
  unfold FillStep at *
  rwa [h]

/-- The record of a tag changed in fields that are not of the core. -/
theorem State.updateVoice_fill (s : State) (g : Nat) (f : Voice → Voice) (hf : ∀ v : Voice, v.SameCore (f v)) :
    FillStep g s (s.updateVoice g f) := by
  show List.Forall₂ (fillRel g) s.voices (updateFirst (·.tag == g) f s.voices)
  induction s.voices with
  | nil => exact .nil
  | cons x xs ih =>
    rw [updateFirst]
    split
    · rename_i h
      have h : x.tag = g := by simpa using h
      exact .cons ⟨hf x, fun e => absurd h e⟩ (List.forall₂_same.2 fun v _ => fillRel.refl g v)
    · exact .cons (fillRel.refl g x) ih

/-- The same, for a state with the voices that such a change leaves. -/
theorem FillStep.update {g : Nat} {s t : State} (f : Voice → Voice)
    (h : t.voices = (s.updateVoice g f).voices) (hf : ∀ v : Voice, v.SameCore (f v)) : FillStep g s t :=
  (s.updateVoice_fill g f hf).right h

/-- The voice a tag names, before and after. -/
theorem FillStep.voice? {g : Nat} {s t : State} (h : FillStep g s t) (tag : Nat) :
    (s.voice? tag = none ∧ t.voice? tag = none) ∨
      ∃ v w, s.voice? tag = some v ∧ t.voice? tag = some w ∧ fillRel g v w := by
  unfold State.voice?
  unfold FillStep at h
  generalize s.voices = l at h ⊢
  generalize t.voices = m at h ⊢
  induction h with
  | nil => exact .inl ⟨rfl, rfl⟩
  | @cons v w vs ws hvw _ ih =>
    by_cases e : v.tag = tag
    · refine .inr ⟨v, w, ?_, ?_, hvw⟩
      · simp [e]
      · simp [hvw.1.tag, e]
    · have e2 : ¬ w.tag = tag := by rw [hvw.1.tag]; exact e
      simpa [e, e2] using ih

/-- The tags of the voices, in order, are as they were. -/
theorem FillStep.tags {g : Nat} {s t : State} (h : FillStep g s t) :
    t.voices.map (·.tag) = s.voices.map (·.tag) := by
  unfold FillStep at h
  generalize s.voices = l at h ⊢
  generalize t.voices = m at h ⊢
  induction h with
  | nil => rfl
  | cons hvw _ ih => simp [hvw.1.tag, ih]

/-- Every voice after is a voice before, with its core fields. -/
theorem FillStep.mem {g : Nat} {s t : State} (h : FillStep g s t) (w : Voice) (hw : w ∈ t.voices) :
    ∃ v ∈ s.voices, fillRel g v w := by
  unfold FillStep at h
  generalize s.voices = l at h ⊢
  generalize t.voices = m at h hw
  induction h with
  | nil => exact absurd hw (by simp)
  | @cons a b as bs hab _ ih =>
    rcases List.mem_cons.1 hw with rfl | hw
    · exact ⟨a, by simp, hab⟩
    · obtain ⟨v, hv, hr⟩ := ih hw
      exact ⟨v, by simp [hv], hr⟩

/-- Every voice before is a voice after, with its core fields. -/
theorem FillStep.mem' {g : Nat} {s t : State} (h : FillStep g s t) (v : Voice) (hv : v ∈ s.voices) :
    ∃ w ∈ t.voices, fillRel g v w := by
  unfold FillStep at h
  generalize s.voices = l at h hv
  generalize t.voices = m at h ⊢
  induction h with
  | nil => exact absurd hv (by simp)
  | @cons a b as bs hab _ ih =>
    rcases List.mem_cons.1 hv with rfl | hv
    · exact ⟨b, by simp, hab⟩
    · obtain ⟨w, hw, hr⟩ := ih hv
      exact ⟨w, by simp [hw], hr⟩

/-! ### The fill operations -/

theorem Voice.withDry_core (v : Voice) (now : Nat) : v.SameCore (v.withDry now) := by
  unfold Voice.withDry
  split <;> exact ⟨rfl, rfl, rfl, rfl, rfl, rfl, rfl, rfl, rfl, rfl, rfl, rfl⟩

@[simp] theorem State.syncReads_voices (s : State) : s.syncReads.voices = s.voices := (State.syncReads_step s).voices
@[simp] theorem State.queueNotice_voices (s : State) (addressee : Nat) (body : NoticeBody) :
    (s.queueNotice addressee body).voices = s.voices := rfl
@[simp] theorem State.releaseUse_voices (s : State) (id : Nat) : (s.releaseUse id).voices = s.voices :=
  (State.releaseUse_step s id).voices
@[simp] theorem State.readsChanged_voices (s : State) (d : Nat) : (s.readsChanged d).voices = s.voices :=
  (State.readsChanged_step s d).voices
@[simp] theorem State.joinReads_voices (s : State) (d : Nat) (r : ReadRequest) :
    (s.joinReads d r).voices = s.voices := (State.joinReads_step s d r).voices

theorem State.recomputeDry_fill (s : State) (g : Nat) : FillStep g s (s.recomputeDry g) :=
  (s.updateVoice_fill g _ fun v => v.withDry_core _).right (State.syncReads_voices _)

theorem State.advanceCursor_fill (s : State) (g : Nat) : FillStep g s (s.advanceCursor g) := by
  unfold State.advanceCursor
  split
  · exact FillStep.refl g s
  · rename_i v hv
    have htag : v.tag = g := by
      have := List.find?_some hv
      simpa using this
    split
    · split
      · exact s.updateVoice_fill g _ fun v => ⟨rfl, rfl, rfl, rfl, rfl, rfl, rfl, rfl, rfl, rfl, rfl, rfl⟩
      · split
        · exact s.updateVoice_fill g _ fun v => ⟨rfl, rfl, rfl, rfl, rfl, rfl, rfl, rfl, rfl, rfl, rfl, rfl⟩
        · split
          · rename_i f _
            unfold State.stitch
            rw [htag]
            exact FillStep.update (·.stitched f ((s.region? f.region).bind (·.loop)).isSome) (by simp)
              fun v =>
              ⟨rfl, rfl, rfl, rfl, rfl, rfl, rfl, rfl, rfl, rfl, rfl, rfl⟩
          · rename_i r _ _ _ _ _ _ _
            unfold State.regionEnd
            rw [htag]
            have h1 := s.updateVoice_fill g (fun v => { v with cursor := none })
              fun v => ⟨rfl, rfl, rfl, rfl, rfl, rfl, rfl, rfl, rfl, rfl, rfl, rfl⟩
            dsimp only
            split
            · exact h1
            · exact h1.trans (FillStep.update (fun w => { w with fin := some (v.regionEnd r) }) (by simp)
                fun v =>
                ⟨rfl, rfl, rfl, rfl, rfl, rfl, rfl, rfl, rfl, rfl, rfl, rfl⟩)
    · exact FillStep.refl g s

theorem State.issue_fill (s : State) (v : Voice) : FillStep v.tag s (s.issue v) := by
  unfold State.issue
  split
  · split
    · refine (FillStep.trans ?_ (State.advanceCursor_fill _ v.tag)).right (State.readsChanged_voices _ _)
      rename_i r _ _ _ loc _
      refine FillStep.left (s' := s.joinReads r.die (v.request r loc)) (State.joinReads_voices _ _ _) ?_
      exact State.updateVoice_fill _ v.tag Voice.issued fun v =>
        ⟨rfl, rfl, rfl, rfl, rfl, rfl, rfl, rfl, rfl, rfl, rfl, rfl⟩
    · exact FillStep.refl _ s
  · exact FillStep.refl _ s

theorem State.voice_tag {s : State} {g : Nat} {v : Voice} (h : s.voice? g = some v) : v.tag = g := by
  have := List.find?_some h
  simpa using this

theorem State.voice_mem {s : State} {g : Nat} {v : Voice} (h : s.voice? g = some v) : v ∈ s.voices :=
  List.mem_of_find?_eq_some h

theorem State.testEligible_fill (s : State) (g : Nat) : FillStep g s (s.testEligible g) := by
  unfold State.testEligible
  split
  · rename_i v hv
    have ht := State.voice_tag hv
    split
    · exact ht ▸ s.issue_fill v
    · exact FillStep.refl g s
  · exact FillStep.refl g s

theorem State.completed_fill (s : State) (g : Nat) : FillStep g s (s.updateVoice g Voice.completed) :=
  s.updateVoice_fill g Voice.completed fun _ =>
    ⟨rfl, rfl, rfl, rfl, rfl, rfl, rfl, rfl, rfl, rfl, rfl, rfl⟩

theorem State.refilled_fill (s : State) (g : Nat) :
    FillStep g s (s.updateVoice g fun v => { v with fill := .filling, dryFrame := none }) :=
  s.updateVoice_fill g _ fun _ => ⟨rfl, rfl, rfl, rfl, rfl, rfl, rfl, rfl, rfl, rfl, rfl, rfl⟩

theorem State.wentLate_fill (s : State) (g gapStart : Nat) :
    FillStep g s (s.updateVoice g fun v => { v with fill := .late, dryFrame := some gapStart }) :=
  s.updateVoice_fill g _ fun _ => ⟨rfl, rfl, rfl, rfl, rfl, rfl, rfl, rfl, rfl, rfl, rfl, rfl⟩

theorem State.delivered_fill (s : State) (g : Nat) : FillStep g s (s.updateVoice g Voice.delivered) :=
  s.updateVoice_fill g Voice.delivered fun _ =>
    ⟨rfl, rfl, rfl, rfl, rfl, rfl, rfl, rfl, rfl, rfl, rfl, rfl⟩

theorem State.completeIfLimit_fill (s : State) (g : Nat) : FillStep g s (s.completeIfLimit g) := by
  unfold State.completeIfLimit
  split
  · split
    · exact s.updateVoice_fill g _ fun v => ⟨rfl, rfl, rfl, rfl, rfl, rfl, rfl, rfl, rfl, rfl, rfl, rfl⟩
    · exact FillStep.refl g s
  · exact FillStep.refl g s

theorem State.passOver_fill (g n : Nat) : ∀ s : State, FillStep g s (s.passOver g n) := by
  induction n with
  | zero => exact FillStep.refl g
  | succ n ih =>
    intro s
    rw [State.passOver]
    split
    · split
      · exact FillStep.refl g s
      · refine FillStep.trans (FillStep.trans ?_ (State.advanceCursor_fill _ g)) (ih _)
        exact s.updateVoice_fill g _ fun v => ⟨rfl, rfl, rfl, rfl, rfl, rfl, rfl, rfl, rfl, rfl, rfl, rfl⟩
    · exact FillStep.refl g s

theorem State.skip_fill (s : State) (g gapStart count : Nat) : FillStep g s (s.skip g gapStart count) := by
  unfold State.skip
  split
  · exact FillStep.refl g s
  · rename_i v hv
    have h1 := State.passOver_fill g v.skipCount s
    dsimp only
    split
    · exact h1
    · have h2 : ∀ (w : Voice) (len : Nat),
          FillStep g s ((s.passOver g v.skipCount).reportUnderrun w gapStart len count) := fun _ _ =>
        h1.right (State.queueNotice_voices _ _ _)
      split
      · exact (h2 _ _).trans (State.completed_fill _ g)
      · exact (((h2 _ _).trans (State.refilled_fill _ g)).trans (State.recomputeDry_fill _ g)).trans
          (State.testEligible_fill _ g)

theorem State.dryEvent_fill (s : State) (v : Voice) : FillStep v.tag s (s.dryEvent v) := by
  unfold State.dryEvent
  dsimp only
  split
  · exact s.skip_fill v.tag _ _
  · exact (s.wentLate_fill v.tag v.firstMissing).right (State.queueNotice_voices _ _ _)

theorem State.deliveryCompletion_fill (s : State) (g ring : Nat) :
    FillStep g s (s.deliveryCompletion g ring) := by
  unfold State.deliveryCompletion
  split
  · exact FillStep.refl g s
  · split
    · have h1 := s.delivered_fill g
      dsimp only
      split
      · exact h1.trans (State.completed_fill _ g)
      · split
        · exact h1.trans (State.skip_fill _ g _ _)
        · exact ((h1.trans (State.refilled_fill _ g)).trans (State.recomputeDry_fill _ g)).trans
            (State.testEligible_fill _ g)
    · exact FillStep.refl g s

/-! ### Retirement -/

/-- A retirement removes the voices of its tag and no other (R32). -/
theorem State.retire_voices (s : State) (g : Nat) (reason : RetireReason) :
    (s.retire g reason).voices = s.voices.filter (·.tag != g) := by
  unfold State.retire
  split
  · rename_i h
    symm
    rw [List.filter_eq_self]
    intro v hv
    have := List.find?_eq_none.1 h v hv
    simpa using this
  · rename_i v hv
    have ht := State.voice_tag hv
    have hd : (s.discardSegments [g]).voices = s.voices := by
      unfold State.discardSegments
      exact (MediaStep.foldl _ State.readsChanged_step _ _).voices.trans (State.freeBuffers_step _ _).voices
    unfold State.retireRecord
    dsimp only
    have hr : ∀ s' : State, ∀ ids, (s'.releaseUses ids).voices = s'.voices := fun s' ids =>
      (State.releaseUses_step s' ids).voices
    split <;> simp [State.closeNotices, hr, hd, ht]

end Sys2Proof.Machine
end

