-- ==== Sys2Proof/Laws/Ticks.lean ====
section
/-! SUPPORT. What a tick event does to the voice table: each voice takes its own tick event, and only that. -/

namespace Sys2Proof.Machine

/-- `w` is voice `v` after its own tick event with the counter at `tick`, where it has not retired (R57 to
R59). -/
structure TickRel (tick : Nat) (v w : Voice) : Prop where
  tag       : w.tag = v.tag
  record    : w.record = v.record
  requester : w.requester = v.requester
  s0        : w.s0 = v.s0
  target    : w.target = v.target
  step      : w.step = v.step
  running   : v.state = .running → w.state = .running ∧ w.p = v.p + v.r ∧ w.r = v.glided ∧
    v.advanced.floorP < limitFrame ∧ ∀ e, v.fin = some e → v.advanced.floorP < e.frame
  scheduled : ∀ start, v.state = .scheduled start → w.r = v.r ∧
    (start ≤ tick → w.state = .running ∧ w.p = 0) ∧ (tick < start → w.state = .scheduled start ∧ w.p = v.p)
  armed     : v.state = .armed → w.state = .armed ∧ w.p = v.p ∧ w.r = v.r
  pending   : ∀ e, v.pendingEnd = some e →
    (tick < e.atTick → w.pendingEnd = some e) ∧ (e.atTick ≤ tick → w.pendingEnd = none ∧ e.mode ≠ .cut)

/-- The voices of `t` of other tags than `g` are voices of `s`, and those of tag `g` follow one of `s` by
`R`. -/
def OwnStep (g : Nat) (R : Voice → Voice → Prop) (s t : State) : Prop :=
  (∀ w ∈ t.voices, w.tag ≠ g → w ∈ s.voices) ∧
    (∀ w ∈ t.voices, w.tag = g → ∃ v ∈ s.voices, v.tag = g ∧ R v w) ∧
    (t.voices.map (·.tag)).Sublist (s.voices.map (·.tag))

theorem OwnStep.trans {g : Nat} {R R' R'' : Voice → Voice → Prop} {s t u : State} (a : OwnStep g R s t)
    (b : OwnStep g R' t u) (h : ∀ x ∈ s.voices, x.tag = g → ∀ y z, R x y → R' y z → R'' x z) :
    OwnStep g R'' s u := by
  refine ⟨fun w hw ht => a.1 w (b.1 w hw ht) ht, fun w hw ht => ?_, b.2.2.trans a.2.2⟩
  obtain ⟨v, hv, htv, hr⟩ := b.2.1 w hw ht
  obtain ⟨x, hx, htx, hr'⟩ := a.2.1 v hv htv
  exact ⟨x, hx, htx, h x hx htx v w hr' hr⟩

theorem OwnStep.weaken {g : Nat} {R R' : Voice → Voice → Prop} {s t : State} (a : OwnStep g R s t)
    (h : ∀ x ∈ s.voices, x.tag = g → ∀ y, R x y → R' x y) : OwnStep g R' s t :=
  ⟨a.1, fun w hw ht => by
    obtain ⟨v, hv, htv, hr⟩ := a.2.1 w hw ht
    exact ⟨v, hv, htv, h v hv htv w hr⟩, a.2.2⟩

theorem OwnStep.right {g : Nat} {R : Voice → Voice → Prop} {s t t' : State} (a : OwnStep g R s t)
    (h : t'.voices = t.voices) : OwnStep g R s t' := by
  unfold OwnStep at *
  rwa [h]

/-- The tags stay apart. -/
theorem OwnStep.nodup {g : Nat} {R : Voice → Voice → Prop} {s t : State} (a : OwnStep g R s t)
    (h : (s.voices.map (·.tag)).Nodup) : (t.voices.map (·.tag)).Nodup := a.2.2.nodup h

theorem FillStep.own {g : Nat} {s t : State} (h : FillStep g s t) : OwnStep g Voice.SameCore s t := by
  refine ⟨fun w hw ht => ?_, fun w hw ht => ?_, by rw [h.tags]⟩
  · obtain ⟨v, hv, hr⟩ := h.mem w hw
    rw [hr.2 (by rw [← hr.1.tag]; exact ht)]
    exact hv
  · obtain ⟨v, hv, hr⟩ := h.mem w hw
    exact ⟨v, hv, by rw [← hr.1.tag]; exact ht, hr.1⟩

/-- A retirement leaves no voice of its tag. -/
theorem State.retire_own (s : State) (g : Nat) (reason : RetireReason) (R : Voice → Voice → Prop) :
    OwnStep g R s (s.retire g reason) := by
  refine ⟨fun w hw _ => ?_, fun w hw ht => ?_, ?_⟩
  · rw [State.retire_voices] at hw
    exact List.mem_of_mem_filter hw
  · rw [State.retire_voices] at hw
    exact absurd ht (by simpa using (List.mem_filter.1 hw).2)
  · rw [State.retire_voices]
    exact List.filter_sublist.map _

/-- With tags that differ, a change at a tag is a change of its one voice. -/
theorem State.updateVoice_own (s : State) (g : Nat) (f : Voice → Voice) (hf : ∀ v, (f v).tag = v.tag)
    (hn : (s.voices.map (·.tag)).Nodup) : OwnStep g (fun v w => w = f v) s (s.updateVoice g f) := by
  have hv : (s.updateVoice g f).voices = s.voices.map fun x => if x.tag = g then f x else x :=
    updateFirst_eq_map Voice.tag g f s.voices hn
  refine ⟨fun w hw ht => ?_, fun w hw ht => ?_, ?_⟩
  · rw [hv] at hw
    obtain ⟨x, hx, rfl⟩ := List.mem_map.1 hw
    by_cases e : x.tag = g
    · rw [if_pos e, hf] at ht
      exact absurd e ht
    · rw [if_neg e]
      exact hx
  · rw [hv] at hw
    obtain ⟨x, hx, rfl⟩ := List.mem_map.1 hw
    by_cases e : x.tag = g
    · exact ⟨x, hx, e, by rw [if_pos e]⟩
    · rw [if_neg e] at ht
      exact absurd ht e
  · rw [hv, List.map_map]
    have : ((·.tag) ∘ fun x : Voice => if x.tag = g then f x else x) = fun x : Voice => x.tag := by
      funext x
      by_cases e : x.tag = g <;> simp [e, hf]
    rw [this]

/-- The one voice of a tag, where tags differ. -/
theorem State.voice_unique {s : State} {g : Nat} {v w : Voice} (hn : (s.voices.map (·.tag)).Nodup)
    (h : s.voice? g = some v) (hw : w ∈ s.voices) (ht : w.tag = g) : w = v := by
  have hv := State.voice_mem h
  have htv := State.voice_tag h
  exact List.inj_on_of_nodup_map hn hw hv (ht.trans htv.symm)

/-! ### Pending ends and the tick event of one voice -/

/-- What the application of a pending end leaves of its voice. -/
structure PendingRel (tick : Nat) (v w : Voice) : Prop where
  core    : v.record = w.record ∧ w.tag = v.tag ∧ w.state = v.state ∧ w.requester = v.requester ∧
    w.s0 = v.s0 ∧ w.p = v.p ∧ w.r = v.r ∧ w.target = v.target ∧ w.step = v.step
  pending : ∀ e, v.pendingEnd = some e →
    (tick < e.atTick → w.pendingEnd = some e) ∧ (e.atTick ≤ tick → w.pendingEnd = none ∧ e.mode ≠ .cut)
  none    : v.pendingEnd = none → w.pendingEnd = none

theorem Voice.SameCore.pendingRel {tick : Nat} {v w : Voice} (h : v.SameCore w)
    (hp : ∀ e, v.pendingEnd = some e → tick < e.atTick) : PendingRel tick v w :=
  ⟨⟨h.record.symm, h.tag, h.state, h.requester, h.s0, h.p, h.r, h.target, h.step⟩,
    fun e he => ⟨fun _ => by rw [h.pendingEnd, he], fun x => absurd (hp e he) (by omega)⟩,
    fun he => by rw [h.pendingEnd, he]⟩

theorem State.fixFade_fill (s : State) (v : Voice) (length : Nat) : FillStep v.tag s (s.fixFade v length) := by
  unfold State.fixFade
  have h1 := s.updateVoice_fill v.tag
    (fun w => { w with fin := some { frame := v.floorP + length, cause := .fade }, follow := none })
    fun _ => ⟨rfl, rfl, rfl, rfl, rfl, rfl, rfl, rfl, rfl, rfl, rfl, rfl⟩
  dsimp only
  split
  · exact (h1.right (by simp)).trans (State.completeIfLimit_fill _ v.tag)
  · exact (h1.right (State.queueNotice_voices _ _ _)).trans (State.completeIfLimit_fill _ v.tag)

theorem State.applyEnd_own (s : State) (v : Voice) (mode : CutOrFade) (to_ : Nat) :
    OwnStep v.tag (fun x y => x.SameCore y ∧ mode ≠ .cut) s (s.applyEnd v mode to_) := by
  unfold State.applyEnd
  cases mode with
  | cut => exact State.retire_own s v.tag .cut _
  | fade length =>
    dsimp only
    split
    · exact ((FillStep.refl v.tag s).own.right (State.queueNotice_voices _ _ _)).weaken
        fun x _ _ y h => ⟨h, by simp⟩
    · exact (State.fixFade_fill s v length).own.weaken fun x _ _ y h => ⟨h, by simp⟩

theorem State.voice_none {s : State} {g : Nat} {v : Voice} (h : s.voice? g = none) (hv : v ∈ s.voices) :
    v.tag ≠ g := by
  have := List.find?_eq_none.1 h v hv
  simpa using this

theorem State.applyPendingEnd_own (s : State) (g : Nat) (hn : (s.voices.map (·.tag)).Nodup) :
    OwnStep g (PendingRel s.timebase.tick) s (s.applyPendingEnd g) := by
  unfold State.applyPendingEnd
  split
  · rename_i h
    exact (FillStep.refl g s).own.weaken fun x hx ht y hxy => absurd ht (State.voice_none h hx)
  · rename_i v hv
    have htv := State.voice_tag hv
    split
    · rename_i hp
      refine (FillStep.refl g s).own.weaken fun x hx ht y hxy => hxy.pendingRel fun e he => ?_
      rw [State.voice_unique hn hv hx ht, hp] at he
      cases he
    · rename_i e hp
      split
      · rename_i hle
        have h1 := s.updateVoice_own g (fun v => { v with pendingEnd := none }) (fun _ => rfl) hn
        have h2 := State.applyEnd_own (s.updateVoice g fun v => { v with pendingEnd := none }) v e.mode
          v.requester
        rw [htv] at h2
        refine h1.trans h2 fun x hx ht y z hy hz => ?_
        rw [State.voice_unique hn hv hx ht] at hy ⊢
        subst hy
        exact ⟨⟨hz.1.record.symm, hz.1.tag, hz.1.state, hz.1.requester, hz.1.s0, hz.1.p, hz.1.r,
          hz.1.target, hz.1.step⟩,
          fun e' he => by
            rw [hp] at he
            cases he
            exact ⟨fun h => absurd hle (by omega), fun _ => ⟨hz.1.pendingEnd, hz.2⟩⟩,
          fun _ => hz.1.pendingEnd⟩
      · rename_i hle
        refine (FillStep.refl g s).own.weaken fun x hx ht y hxy => hxy.pendingRel fun e' he => ?_
        rw [State.voice_unique hn hv hx ht, hp] at he
        cases he
        omega

theorem State.afterTick_fill (s : State) (v : Voice) : FillStep v.tag s (s.afterTick v) := by
  unfold State.afterTick
  have h1 : FillStep v.tag s (match s.voice? v.tag with
      | some w => if v.consumed < w.consumed then s.testEligible v.tag else s
      | none => s) := by
    split
    · split
      · exact State.testEligible_fill s v.tag
      · exact FillStep.refl v.tag s
    · exact FillStep.refl v.tag s
  dsimp only
  split
  · exact h1.trans (State.recomputeDry_fill _ v.tag)
  · exact h1

theorem State.tickRunning_own (s : State) (v : Voice) (hv : s.voice? v.tag = some v)
    (hr : v.state = .running) (hn : (s.voices.map (·.tag)).Nodup) :
    OwnStep v.tag (TickRel s.timebase.tick) s (s.tickRunning v) := by
  have h1 := s.updateVoice_own v.tag Voice.advanced (fun _ => rfl) hn
  have htick : (s.updateVoice v.tag Voice.advanced).timebase.tick = s.timebase.tick := rfl
  unfold State.tickRunning
  dsimp only
  have hat : v.advanced.tag = v.tag := rfl
  rw [hat]
  split
  · exact h1.trans (State.retire_own _ v.tag .limit (fun _ _ => False)) fun _ _ _ _ _ _ h => h.elim
  · rename_i hlim
    split
    · exact h1.trans (State.retire_own _ v.tag .done (fun _ _ => False)) fun _ _ _ _ _ _ h => h.elim
    · rename_i hend
      have h2 : FillStep v.tag (s.updateVoice v.tag Voice.advanced)
          (if v.advanced.fill = .filling && v.advanced.atDryPoint then
            (s.updateVoice v.tag Voice.advanced).dryEvent v.advanced
          else s.updateVoice v.tag Voice.advanced) := by
        split
        · exact State.dryEvent_fill _ v.advanced
        · exact FillStep.refl _ _
      generalize hs2 : (if v.advanced.fill = .filling && v.advanced.atDryPoint then
            (s.updateVoice v.tag Voice.advanced).dryEvent v.advanced
          else s.updateVoice v.tag Voice.advanced) = s2 at h2 ⊢
      have ht2 : s2.timebase.tick = s.timebase.tick := by
        rw [← hs2]
        split
        · rw [(State.dryEvent_step _ _).timebase]
          rfl
        · rfl
      have hn1 := h1.nodup hn
      have hn2 := h2.own.nodup hn1
      have h3 := State.applyPendingEnd_own s2 v.tag hn2
      rw [ht2] at h3
      have h4 := (State.afterTick_fill (s2.applyPendingEnd v.tag) v).own
      refine ((h1.trans h2.own (R'' := fun x y => x.advanced.SameCore y) fun x _ _ y z hy hz => hy ▸ hz).trans h3
        (R'' := fun x y => ∃ w, x.advanced.SameCore w ∧ PendingRel s.timebase.tick w y)
        fun x _ _ y z hy hz => ⟨y, hy, hz⟩).trans h4 fun x hx ht y z hy hz => ?_
      obtain ⟨w, hw, hwy⟩ := hy
      obtain rfl : x = v := State.voice_unique hn hv hx ht
      obtain ⟨c1, c2, c3, c4, c5, c6, c7, c8, c9⟩ := hwy.core
      refine ⟨?_, ?_, ?_, ?_, ?_, ?_, fun _ => ⟨?_, ?_, ?_, ?_, ?_⟩, fun start hst => ?_, fun hst => ?_,
        fun e he => ?_⟩
      · rw [hz.tag, c2, hw.tag]; rfl
      · rw [hz.record, ← c1, hw.record]; rfl
      · rw [hz.requester, c4, hw.requester]; rfl
      · rw [hz.s0, c5, hw.s0]; rfl
      · rw [hz.target, c8, hw.target]; rfl
      · rw [hz.step, c9, hw.step]; rfl
      · rw [hz.state, c3, hw.state]; exact hr
      · rw [hz.p, c6, hw.p]; rfl
      · rw [hz.r, c7, hw.r]; rfl
      · omega
      · intro e he
        have he' : x.advanced.fin = some e := he
        rw [he'] at hend
        simpa using hend
      · rw [hr] at hst; cases hst
      · rw [hr] at hst; cases hst
      · have := hwy.pending e (by rw [hw.pendingEnd]; exact he)
        rw [hz.pendingEnd]
        exact this

theorem State.tickVoice_own (s : State) (g : Nat) (hn : (s.voices.map (·.tag)).Nodup) :
    OwnStep g (TickRel s.timebase.tick) s (s.tickVoice g) := by
  unfold State.tickVoice
  split
  · rename_i h
    exact (FillStep.refl g s).own.weaken fun x hx ht y hxy => absurd ht (State.voice_none h hx)
  · rename_i v hv
    obtain rfl : v.tag = g := State.voice_tag hv
    split
    · rename_i hr
      exact State.tickRunning_own s v hv hr hn
    · rename_i start hst
      unfold State.startScheduled
      split
      · rename_i hle
        have h1 := s.updateVoice_own v.tag (fun v => { v with state := .running, p := 0 }) (fun _ => rfl) hn
        have h2 := (State.recomputeDry_fill
          (s.updateVoice v.tag fun v => { v with state := .running, p := 0 }) v.tag).own
        have h3 := State.applyPendingEnd_own _ v.tag (h2.nodup (h1.nodup hn))
        have ht : ((s.updateVoice v.tag fun v => { v with state := .running, p := 0 }).recomputeDry
            v.tag).timebase.tick = s.timebase.tick := by
          rw [(State.recomputeDry_step _ _).timebase]
          rfl
        rw [ht] at h3
        refine (h1.trans h2 (R'' := fun x y =>
          ({ x with state := .running, p := 0 } : Voice).SameCore y) fun x _ _ y z hy hz => hy ▸ hz).trans h3
          fun x hx htx y z hw hwy => ?_
        obtain rfl : x = v := State.voice_unique hn hv hx htx
        obtain ⟨c1, c2, c3, c4, c5, c6, c7, c8, c9⟩ := hwy.core
        refine ⟨?_, ?_, ?_, ?_, ?_, ?_, fun hr => ?_, fun st hst' => ⟨?_, fun _ => ⟨?_, ?_⟩, fun hlt => ?_⟩,
          fun hr => ?_, fun e he => ?_⟩
        · rw [c2, hw.tag]
        · rw [← c1, hw.record]
        · rw [c4, hw.requester]
        · rw [c5, hw.s0]
        · rw [c8, hw.target]
        · rw [c9, hw.step]
        · rw [hst] at hr; cases hr
        · rw [c7, hw.r]
        · rw [c3, hw.state]
        · rw [c6, hw.p]
        · rw [hst] at hst'; cases hst'; omega
        · rw [hst] at hr; cases hr
        · exact hwy.pending e (by rw [hw.pendingEnd]; exact he)
      · rename_i hle
        refine (State.applyPendingEnd_own s v.tag hn).weaken fun x hx htx y hwy => ?_
        obtain rfl : x = v := State.voice_unique hn hv hx htx
        obtain ⟨c1, c2, c3, c4, c5, c6, c7, c8, c9⟩ := hwy.core
        refine ⟨c2, c1.symm, c4, c5, c8, c9, fun hr => ?_, fun st hst' => ⟨c7, fun hlt => ?_, fun _ => ⟨?_, c6⟩⟩,
          fun hr => ?_, hwy.pending⟩
        · rw [hst] at hr; cases hr
        · rw [hst] at hst'; cases hst'; omega
        · rw [c3]; exact hst'
        · rw [hst] at hr; cases hr
    · rename_i hst
      refine (State.applyPendingEnd_own s v.tag hn).weaken fun x hx htx y hwy => ?_
      obtain rfl : x = v := State.voice_unique hn hv hx htx
      obtain ⟨c1, c2, c3, c4, c5, c6, c7, c8, c9⟩ := hwy.core
      refine ⟨c2, c1.symm, c4, c5, c8, c9, fun hr => ?_, fun st hst' => ?_, fun _ => ⟨?_, c6, c7⟩, hwy.pending⟩
      · rw [hst] at hr; cases hr
      · rw [hst] at hst'; cases hst'
      · rw [c3]; exact hst

/-! ### All voices -/

/-- Every voice takes the tick event once: what stands after the events of the voices that `tags` names. -/
theorem State.tickVoices (tags : List Nat) : ∀ s : State, (s.voices.map (·.tag)).Nodup → tags.Nodup →
    (∀ w ∈ (tags.foldl State.tickVoice s).voices,
      (w.tag ∉ tags → w ∈ s.voices) ∧
        (w.tag ∈ tags → ∃ v ∈ s.voices, v.tag = w.tag ∧ TickRel s.timebase.tick v w)) ∧
      ((tags.foldl State.tickVoice s).voices.map (·.tag)).Sublist (s.voices.map (·.tag)) := by
  induction tags with
  | nil => exact fun s _ _ => ⟨fun w hw => ⟨fun _ => hw, fun h => absurd h (by simp)⟩, List.Sublist.refl _⟩
  | cons g tags ih =>
    intro s hn ht
    rw [List.nodup_cons] at ht
    have hg := State.tickVoice_own s g hn
    have htick : (s.tickVoice g).timebase.tick = s.timebase.tick := by rw [(State.tickVoice_step s g).timebase]
    obtain ⟨h1, h2⟩ := ih (s.tickVoice g) (hg.nodup hn) ht.2
    rw [List.foldl_cons]
    refine ⟨fun w hw => ⟨fun hni => ?_, fun hi => ?_⟩, h2.trans hg.2.2⟩
    · rw [List.mem_cons, not_or] at hni
      exact hg.1 w ((h1 w hw).1 hni.2) hni.1
    · rcases List.mem_cons.1 hi with rfl | hi'
      · obtain ⟨v, hv, htv, hr⟩ := hg.2.1 w ((h1 w hw).1 ht.1) rfl
        exact ⟨v, hv, htv, hr⟩
      · obtain ⟨v, hv, htv, hr⟩ := (h1 w hw).2 hi'
        rw [htick] at hr
        have hne : v.tag ≠ g := by
          rw [htv]
          exact fun e => ht.1 (e ▸ hi')
        exact ⟨v, hg.1 v hv hne, htv, hr⟩

/-! ### The tick event -/

/-- The order of a tick event names each voice once. -/
theorem tickOrder_nodup (order : List (BitVec 12)) (vs : List Voice) (h : (vs.map (·.tag)).Nodup) :
    (tickOrder order vs).Nodup := by
  unfold tickOrder
  rw [List.nodup_append]
  refine ⟨List.nodup_dedup _, h.filter _, ?_⟩
  intro a ha b hb e
  rw [List.mem_filter] at hb
  subst e
  simp [ha] at hb

/-- The order of a tick event names every voice. -/
theorem tickOrder_mem (order : List (BitVec 12)) (vs : List Voice) (v : Voice) (h : v ∈ vs) :
    v.tag ∈ tickOrder order vs := by
  unfold tickOrder
  by_cases e : v.tag ∈ (order.map (·.toNat)).dedup
  · exact List.mem_append_left _ e
  · apply List.mem_append_right
    rw [List.mem_filter]
    exact ⟨List.mem_map_of_mem h, by simpa using e⟩

/-- What a tick event leaves of a voice, where it has not retired (R46, R57 to R59). -/
theorem State.tickEvent_voice (s : State) (order : List (BitVec 12)) (hn : (s.voices.map (·.tag)).Nodup)
    (v : Voice) (hv : v ∈ s.voices) (w : Voice) (hw : w ∈ (s.tickEvent order).voices) (ht : w.tag = v.tag) :
    ∃ x, TickRel (nextTick s.timebase.tick) v x ∧ x.SameCore w := by
  unfold State.tickEvent at hw
  dsimp only at hw
  rw [(State.suspendTests_step _).voices, State.setTimebase_voices] at hw
  generalize hs : s.setTimebase { s.timebase with tick := nextTick s.timebase.tick } = s1 at hw
  have e1 : s1.voices = s.voices := by rw [← hs]; rfl
  have e2 : s1.timebase.tick = nextTick s.timebase.tick := by rw [← hs]; rfl
  have hn1 : (s1.voices.map (·.tag)).Nodup := by rw [e1]; exact hn
  obtain ⟨h1, -⟩ := State.tickVoices (tickOrder order s1.voices) s1 hn1 (tickOrder_nodup _ _ hn1)
  have key : ∀ x ∈ ((tickOrder order s1.voices).foldl State.tickVoice s1).voices, x.tag = v.tag →
      TickRel (nextTick s.timebase.tick) v x := by
    intro x hx htx
    have hm : x.tag ∈ tickOrder order s1.voices := by
      rw [htx, e1]
      exact tickOrder_mem _ _ v hv
    obtain ⟨v', hv', ht', hr⟩ := (h1 x hx).2 hm
    rw [e1] at hv'
    have : v' = v := List.inj_on_of_nodup_map hn hv' hv (ht'.trans htx)
    rwa [this, e2] at hr
  split at hw
  · unfold State.recomputeHeld at hw
    rw [State.syncReads_voices, State.setVoices_voices, List.mem_map] at hw
    obtain ⟨x, hx, rfl⟩ := hw
    have hc : ∀ now, x.SameCore (if x.dry.isSome then x.withDry now else x) := by
      intro now
      split
      · exact Voice.withDry_core _ _
      · exact Voice.SameCore.refl _
    exact ⟨x, key x hx (by rw [← ht, (hc _).tag]), hc _⟩
  · exact ⟨w, key w hw ht, Voice.SameCore.refl _⟩

/-- What a tick event leaves of the timebase and of the blocks it does not touch (R46, R48). -/
theorem State.tickEvent_timebase (s : State) (order : List (BitVec 12)) :
    (s.tickEvent order).timebase =
        { s.timebase with tick := nextTick s.timebase.tick }.driveTest s.clock ∧
      (s.tickEvent order).clock = s.clock ∧ (s.tickEvent order).station = s.station ∧
      (s.tickEvent order).claims = s.claims ∧ (s.tickEvent order).port = s.port := by
  unfold State.tickEvent
  dsimp only
  generalize hs : s.setTimebase { s.timebase with tick := nextTick s.timebase.tick } = s1
  have e1 : VoiceStep s1 ((tickOrder order s1.voices).foldl State.tickVoice s1) :=
    VoiceStep.foldl State.tickVoice State.tickVoice_step _ s1
  generalize (tickOrder order s1.voices).foldl State.tickVoice s1 = s2 at e1 ⊢
  have e2 : VoiceStep s1 (if s1.timebase.tick = 0 then s2.recomputeHeld else s2) := by
    split
    · exact e1.trans (State.recomputeHeld_step _)
    · exact e1
  generalize (if s1.timebase.tick = 0 then s2.recomputeHeld else s2) = s3 at e2 ⊢
  have e4 := State.suspendTests_step (s3.setTimebase (s3.timebase.driveTest s3.clock))
  refine ⟨?_, ?_, ?_, ?_, ?_⟩
  · rw [e4.timebase, State.setTimebase_timebase, e2.timebase, e2.clock, ← hs]
    rfl
  · rw [e4.clock, State.setTimebase_clock, e2.clock, ← hs]
    rfl
  · rw [e4.station, State.setTimebase_station, e2.station, ← hs]
    rfl
  · rw [e4.claims, State.setTimebase_claims, e2.claims, ← hs]
    rfl
  · rw [e4.port, State.setTimebase_port, e2.port, ← hs]
    rfl

/-! ### The divider -/

@[simp] theorem Timebase.dividerTicked_owedTick (b : Timebase) (rate : SessionRate) :
    (b.dividerTicked rate).owedTick = false := by
  unfold Timebase.dividerTicked
  split
  · rfl
  · simpa using ‹¬b.owedTick = true›

/-- The divider's last tick is the one it makes, at the instant at which it was due. -/
@[simp] theorem Timebase.dividerTicked_lastDivider (b : Timebase) (rate : SessionRate) :
    (b.dividerTicked rate).lastDivider = some (b.tickDue rate) := by
  unfold Timebase.dividerTicked Timebase.tickDue
  split <;> rfl

/-- The divider's phase stands at its tick. -/
@[simp] theorem Timebase.dividerTicked_dividerStart (b : Timebase) (rate : SessionRate) :
    (b.dividerTicked rate).dividerStart = b.tickDue rate := by
  unfold Timebase.dividerTicked Timebase.tickDue
  split <;> rfl

@[simp] theorem Timebase.dividerTicked_tick (b : Timebase) (rate : SessionRate) :
    (b.dividerTicked rate).tick = b.tick := by
  unfold Timebase.dividerTicked
  split <;> rfl

/-! ### Which voices stay -/

/-- A voice retires at a tick event with the counter at `tick`: at the limit, at its end, or by a pending CUT (R25,
R58, R60). -/
def Voice.leavesAt (v : Voice) (tick : Nat) : Prop :=
  (v.state = .running ∧ (limitFrame ≤ v.advanced.floorP ∨ ∃ e, v.fin = some e ∧ e.frame ≤ v.advanced.floorP)) ∨
    ∃ a, v.pendingEnd = some { mode := .cut, atTick := a } ∧ a ≤ tick

/-- Changing one voice at a tag that it keeps leaves the tags, in order, as they were. -/
theorem State.updateVoice_tags (s : State) (g : Nat) (f : Voice → Voice) (hf : ∀ v, (f v).tag = v.tag) :
    (s.updateVoice g f).voices.map (·.tag) = s.voices.map (·.tag) := by
  show (updateFirst (·.tag == g) f s.voices).map (·.tag) = _
  induction s.voices with
  | nil => rfl
  | cons x xs ih => by_cases h : x.tag = g <;> simp [updateFirst, h, hf, ih]

/-- The tags after a retirement. -/
theorem State.retire_tags (s : State) (g : Nat) (reason : RetireReason) :
    (s.retire g reason).voices.map (·.tag) = (s.voices.map (·.tag)).filter (· != g) := by
  rw [State.retire_voices, List.filter_map]
  rfl

/-- Only tag `g` may go from `s` to `t`, and it stays where `stays` holds. -/
def TagStep (g : Nat) (stays : Prop) (s t : State) : Prop :=
  t.voices.map (·.tag) = s.voices.map (·.tag) ∨
    (¬stays ∧ t.voices.map (·.tag) = (s.voices.map (·.tag)).filter (· != g))

theorem TagStep.after {g : Nat} {stays : Prop} {s t u : State} (a : TagStep g stays s t)
    (h : u.voices.map (·.tag) = t.voices.map (·.tag)) : TagStep g stays s u := by
  unfold TagStep at *
  rwa [h]

theorem TagStep.before {g : Nat} {stays : Prop} {s t u : State} (a : TagStep g stays t u)
    (h : t.voices.map (·.tag) = s.voices.map (·.tag)) : TagStep g stays s u := by
  unfold TagStep at *
  rwa [← h]

/-- A pending end removes its voice only as a CUT that is due (R25). -/
theorem State.applyPendingEnd_tagStep (s : State) (g : Nat) (stays : Prop)
    (h : stays → ∀ v a, s.voice? g = some v → v.pendingEnd = some { mode := .cut, atTick := a } →
      s.timebase.tick < a) : TagStep g stays s (s.applyPendingEnd g) := by
  unfold State.applyPendingEnd
  split
  · exact .inl rfl
  · rename_i v hv
    obtain rfl : v.tag = g := State.voice_tag hv
    split
    · exact .inl rfl
    · rename_i e he
      split
      · rename_i hle
        have h1 := s.updateVoice_tags v.tag (fun v => { v with pendingEnd := none }) fun _ => rfl
        unfold State.applyEnd
        cases hm : e.mode with
        | cut =>
          refine .inr ⟨fun hs => ?_, ?_⟩
          · have := h hs v e.atTick hv (by rw [he, ← hm])
            omega
          · rw [State.retire_tags, h1]
        | fade length =>
          dsimp only
          split
          · exact .inl h1
          · exact .inl ((State.fixFade_fill _ v length).tags.trans h1)
      · exact .inl rfl

/-- A voice's tick event removes it only where it leaves (R58). -/
theorem State.tickVoice_tagStep (s : State) (g : Nat) :
    TagStep g (∀ v, s.voice? g = some v → ¬v.leavesAt s.timebase.tick) s (s.tickVoice g) := by
  unfold State.tickVoice
  split
  · exact .inl rfl
  · rename_i v hv
    obtain rfl : v.tag = g := State.voice_tag hv
    have pend : ∀ (t : State) (f : Voice → Voice), FillStep v.tag (s.updateVoice v.tag f) t →
        (∀ v, (f v).tag = v.tag ∧ (f v).pendingEnd = v.pendingEnd) → t.timebase.tick = s.timebase.tick →
        TagStep v.tag (∀ w, s.voice? v.tag = some w → ¬w.leavesAt s.timebase.tick) s (t.applyPendingEnd v.tag) := by
      intro t f ht hf htick
      refine (State.applyPendingEnd_tagStep t v.tag _ fun hs w a hw hp => ?_).before
        (ht.tags.trans (s.updateVoice_tags v.tag f fun v => (hf v).1))
      by_contra hc
      apply hs v hv
      refine .inr ⟨a, ?_, by rw [htick] at hc; omega⟩
      rcases ht.voice? v.tag with ⟨_, h2⟩ | ⟨x, y, h1, h2, hr⟩
      · rw [h2] at hw; cases hw
      · rw [h2] at hw
        cases hw
        rw [State.voice_updateVoice s v.tag v.tag f fun v => (hf v).1, hv] at h1
        simp only [Option.map_some, if_true, Option.some.injEq] at h1
        rw [← hp, hr.1.pendingEnd, ← h1, (hf v).2]
    split
    · rename_i hr
      unfold State.tickRunning
      dsimp only
      have hat : v.advanced.tag = v.tag := rfl
      have h1 := s.updateVoice_tags v.tag Voice.advanced fun _ => rfl
      rw [hat]
      split
      · rename_i hl
        exact .inr ⟨fun hs => hs v hv (.inl ⟨hr, .inl hl⟩), by rw [State.retire_tags, h1]⟩
      · split
        · rename_i he
          refine .inr ⟨fun hs => hs v hv (.inl ⟨hr, .inr ?_⟩), by rw [State.retire_tags, h1]⟩
          have : v.advanced.fin = v.fin := rfl
          rw [this, Option.any_eq_true] at he
          obtain ⟨e, he, hle⟩ := he
          exact ⟨e, he, by simpa using hle⟩
        · refine TagStep.after ?_ (State.afterTick_fill _ v).tags
          apply pend _ Voice.advanced _ (fun _ => ⟨rfl, rfl⟩)
          · split
            · rw [(State.dryEvent_step _ _).timebase]; rfl
            · rfl
          · split
            · exact State.dryEvent_fill _ v.advanced
            · exact FillStep.refl _ _
    · rename_i start hst
      unfold State.startScheduled
      split
      · apply pend _ (fun v => { v with state := .running, p := 0 }) (State.recomputeDry_fill _ v.tag)
          (fun _ => ⟨rfl, rfl⟩)
        rw [(State.recomputeDry_step _ _).timebase]; rfl
      · refine State.applyPendingEnd_tagStep s v.tag _ fun hs w a hw hp => ?_
        by_contra hc
        exact hs w hw (.inr ⟨a, hp, by omega⟩)
    · refine State.applyPendingEnd_tagStep s v.tag _ fun hs w a hw hp => ?_
      by_contra hc
      exact hs w hw (.inr ⟨a, hp, by omega⟩)

/-- Over the tick events of several voices, one that does not leave stays in use. -/
theorem State.tickVoices_stay (tags : List Nat) : ∀ (s : State) (v : Voice), (s.voices.map (·.tag)).Nodup →
    tags.Nodup → v ∈ s.voices → ¬v.leavesAt s.timebase.tick →
    v.tag ∈ (tags.foldl State.tickVoice s).voices.map (·.tag) := by
  induction tags with
  | nil => exact fun s v _ _ hv _ => List.mem_map_of_mem hv
  | cons g tags ih =>
    intro s v hn ht hv hl
    rw [List.nodup_cons] at ht
    have hg := State.tickVoice_own s g hn
    have htick : (s.tickVoice g).timebase.tick = s.timebase.tick := by rw [(State.tickVoice_step s g).timebase]
    have hmem : v.tag ∈ (s.tickVoice g).voices.map (·.tag) := by
      have hm : v.tag ∈ s.voices.map (·.tag) := List.mem_map_of_mem hv
      rcases State.tickVoice_tagStep s g with h | ⟨hs, h⟩
      · rwa [h]
      · rw [h, List.mem_filter]
        refine ⟨hm, ?_⟩
        by_contra hc
        have he : v.tag = g := by simpa using hc
        apply hs
        intro x hx
        have : v = x := State.voice_unique hn hx hv he
        rwa [← this]
    rw [List.foldl_cons]
    obtain ⟨w, hw, htw⟩ := List.mem_map.1 hmem
    by_cases he : v.tag = g
    · -- its own event has passed: the later ones are of other tags
      have : ∀ l : List Nat, ∀ t : State, v.tag ∉ l → v.tag ∈ t.voices.map (·.tag) →
          v.tag ∈ (l.foldl State.tickVoice t).voices.map (·.tag) := by
        intro l
        induction l with
        | nil => exact fun t _ h => h
        | cons k l ihl =>
          intro t hk h
          rw [List.mem_cons, not_or] at hk
          rw [List.foldl_cons]
          refine ihl _ hk.2 ?_
          rcases State.tickVoice_tagStep t k with e | ⟨-, e⟩
          · rwa [e]
          · rw [e, List.mem_filter]
            exact ⟨h, by simpa using hk.1⟩
      exact this tags _ (he ▸ ht.1) hmem
    · have hws : w ∈ s.voices := hg.1 w hw (htw ▸ he)
      have : w = v := List.inj_on_of_nodup_map hn hws hv htw
      subst this
      exact ih _ w (hg.nodup hn) ht.2 hw (by rw [htick]; exact hl)

/-- After a tick event a voice that does not leave is still in use (R46, R58). -/
theorem State.tickEvent_stay (s : State) (order : List (BitVec 12)) (hn : (s.voices.map (·.tag)).Nodup)
    (v : Voice) (hv : v ∈ s.voices) (hl : ¬v.leavesAt (nextTick s.timebase.tick)) :
    ∃ w ∈ (s.tickEvent order).voices, w.tag = v.tag := by
  rw [← List.mem_map (f := fun w : Voice => w.tag)]
  unfold State.tickEvent
  dsimp only
  rw [(State.suspendTests_step _).voices, State.setTimebase_voices]
  generalize hs : s.setTimebase { s.timebase with tick := nextTick s.timebase.tick } = s1
  have e1 : s1.voices = s.voices := by rw [← hs]; rfl
  have e2 : s1.timebase.tick = nextTick s.timebase.tick := by rw [← hs]; rfl
  have hn1 : (s1.voices.map (·.tag)).Nodup := by rw [e1]; exact hn
  have key := State.tickVoices_stay (tickOrder order s1.voices) s1 v hn1 (tickOrder_nodup _ _ hn1) (by rw [e1]; exact hv)
    (by rw [e2]; exact hl)
  split
  · unfold State.recomputeHeld
    rw [State.syncReads_voices, State.setVoices_voices, List.map_map]
    have hc : ((fun w : Voice => w.tag) ∘ fun x : Voice => if x.dry.isSome = true then
        x.withDry ((tickOrder order s1.voices).foldl State.tickVoice s1).timebase.tick else x) = fun x => x.tag := by
      funext x
      simp only [Function.comp]
      split
      · exact (Voice.withDry_core _ _).tag
      · rfl
    rw [hc]
    exact key
  · exact key

/-- A stand-in tick leaves the voices that its tick event leaves; the loss of the clock touches none (R44). -/
theorem State.standIn_voices (s : State) (at_ : Nat) (order : List (BitVec 12)) :
    (s.standIn at_ order).voices = ((s.setTimebase { s.timebase with
      reference := some at_, standIn := s.timebase.standIn + 1 }).tickEvent order).voices := by
  have hl : ∀ x : State, (x.loseClock at_).voices = x.voices := fun _ => rfl
  unfold State.standIn
  dsimp only
  split
  · rw [hl]
  · rfl

/-- A command that makes a tick event leaves the voices that the event leaves, whatever source made the tick. -/
theorem State.ticksBy_exec (s : State) (i : Instr) (c : Configuration) (hc : s.station.config = some c)
    (h : s.ticksBy c.rate i) :
    ∃ (s' : State) (order : List (BitVec 12)) (u : State), exec i s = .next u ∧
      u.voices = (s'.tickEvent order).voices ∧ s'.voices = s.voices ∧ s'.timebase.tick = s.timebase.tick := by
  have hr : ∀ t, (s.atTime t).rate? = some c.rate := fun t => by simp [State.rate?, hc]
  cases i with
  | dividerTick order =>
    refine ⟨(s.atTime (s.timebase.tickDue c.rate)).setTimebase (s.timebase.dividerTicked c.rate), order, _, ?_,
      State.finish_voices _, rfl, ?_⟩
    · simp [exec, execDividerTick, show s.timebase.source = .fallback from h, show s.rate? = some c.rate from hr 0]
    · rw [State.setTimebase_timebase, Timebase.dividerTicked_tick]
  | standInTick order =>
    obtain ⟨hs, hr2⟩ := h
    obtain ⟨e, he⟩ := Option.isSome_iff_exists.1 hr2
    refine ⟨(s.atTime (standInDue c.rate e)).setTimebase { (s.atTime (standInDue c.rate e)).timebase with
        reference := some (standInDue c.rate e)
        standIn := (s.atTime (standInDue c.rate e)).timebase.standIn + 1 }, order,
      ((s.atTime (standInDue c.rate e)).standIn (standInDue c.rate e) order).finish, ?_,
      (State.finish_voices _).trans (State.standIn_voices _ _ _), rfl, rfl⟩
    · simp only [exec, execStandInTick, hs, show s.rate? = some c.rate from hr 0, he]
  | filteredEdge t order =>
    have hx : exec (.filteredEdge t order) s = .next ((s.atTime t).edge c.rate t order).finish := by
      simp only [exec, execFilteredEdge, hr t]
    rcases h with ⟨hs, e, he, h1, h2⟩ | ⟨hs, hq, ⟨e, he, h1, h2⟩, hl⟩
    · refine ⟨(s.atTime t).setTimebase { s.timebase with reference := some t, standIn := 0 }, order, _, hx, ?_, rfl, rfl⟩
      rw [State.finish_voices]
      simp [State.edge, hs, State.externalEdge, he, SessionRate.inTolerance, h1, h2]
    · refine ⟨(s.atTime t).setTimebase { s.timebase with
        source := .external, qual := 256, prevEdge := some t, reference := some t, standIn := 0
        owedTick := false }, order, _, hx, ?_, rfl, rfl⟩
      have hk : s.timebase.edgeTicks c.rate t = true := by
        unfold Timebase.edgeTicks
        split
        · rfl
        · rename_i e' he'
          simpa using hl e' he'
      have hc : ¬ s.timebase.qual + 1 < 256 := by omega
      rw [State.finish_voices]
      simp [State.edge, hs, State.fallbackEdge, Timebase.qualAfter, he, SessionRate.inTolerance, h1, h2, hc,
        State.lock, hk, State.reportClock, State.queueNotice]
  | _ => exact h.elim

end Sys2Proof.Machine
end

