-- ==== Sys2Proof/Laws/Dies.lean ====
section
/-! SUPPORT. What the dies do when they choose their work: reads and long operations begin, are suspended and
resume, and of everything else only a QUEUED block whose erase begins becomes ERASING. -/

namespace Sys2Proof.Machine

/-- `t` follows `s` by the choices of the dies: the flash, the program fronts, the region table, the log's
figures and the free lists are as they were, and a block has at most gone from QUEUED to ERASING (R11). -/
structure DieStep (s t : State) : Prop where
  media      : MediaStep s t
  flash      : t.media.flash = s.media.flash
  fronts     : t.media.fronts = s.media.fronts
  count      : t.media.dies.length = s.media.dies.length
  regions    : t.catalogue.regions = s.catalogue.regions
  appendPos  : t.catalogue.appendPos = s.catalogue.appendPos
  owed       : t.catalogue.owed = s.catalogue.owed
  installs   : t.catalogue.pendingInstalls = s.catalogue.pendingInstalls
  scan       : t.catalogue.scan = s.catalogue.scan
  free       : ∀ d, (t.dieBlocks d).free = (s.dieBlocks d).free
  length     : ∀ d, (t.dieBlocks d).blocks.length = (s.dieBlocks d).blocks.length
  blocks     : ∀ d b, t.block d b = s.block d b ∨ t.block d b = (s.block d b).startErase

theorem DieStep.refl (s : State) : DieStep s s :=
  ⟨MediaStep.refl s, rfl, rfl, rfl, rfl, rfl, rfl, rfl, rfl, fun _ => rfl, fun _ => rfl, fun _ _ => .inl rfl⟩

@[simp] theorem Block.startErase_startErase (b : Block) : b.startErase.startErase = b.startErase := by
  unfold Block.startErase
  split
  · rfl
  · rfl

theorem DieStep.trans {s t u : State} (a : DieStep s t) (b : DieStep t u) : DieStep s u := by
  refine ⟨a.media.trans b.media, b.flash.trans a.flash, b.fronts.trans a.fronts, b.count.trans a.count,
    b.regions.trans a.regions, b.appendPos.trans a.appendPos, b.owed.trans a.owed,
    b.installs.trans a.installs, b.scan.trans a.scan, fun d => (b.free d).trans (a.free d),
    fun d => (b.length d).trans (a.length d), fun d k => ?_⟩
  rcases b.blocks d k with h | h <;> rcases a.blocks d k with h' | h' <;> rw [h, h']
  · exact .inl rfl
  · exact .inr rfl
  · exact .inr rfl
  · exact .inr (Block.startErase_startErase _)

theorem DieStep.foldl {α : Type} (f : State → α → State) (h : ∀ s a, DieStep s (f s a)) (l : List α) :
    ∀ s, DieStep s (l.foldl f s) := by
  induction l with
  | nil => exact DieStep.refl
  | cons a l ih => exact fun s => (h s a).trans (ih (f s a))

/-- A change of the media controller that keeps the flash, the fronts and the number of dies. -/
theorem DieStep.setMedia (s : State) (x : Media) (h1 : x.flash = s.media.flash)
    (h2 : x.fronts = s.media.fronts) (h3 : x.dies.length = s.media.dies.length) :
    DieStep s (s.setMedia x) :=
  ⟨MediaStep.setMedia s x, h1, h2, h3, rfl, rfl, rfl, rfl, rfl, fun _ => rfl, fun _ => rfl, fun _ _ => .inl rfl⟩

/-- A change of the list of programs turned away. -/
theorem DieStep.frontFailed (s : State) (l : List (Nat × Program)) :
    DieStep s (s.setMedia { s.media with frontFailed := l }) := DieStep.setMedia s _ rfl rfl rfl

/-- A change of the number of free buffers. -/
theorem DieStep.freeBuffers (s : State) (n : Nat) :
    DieStep s (s.setMedia { s.media with freeBuffers := n }) := DieStep.setMedia s _ rfl rfl rfl

theorem State.updateDie_die (s : State) (d : Nat) (f : Die → Die) : DieStep s (s.updateDie d f) :=
  DieStep.setMedia s _ rfl rfl (by simp)

/-- A block read after one block of the table has changed. -/
theorem State.block_updateBlock (s : State) (d b : Nat) (f : Block → Block) (d' b' : Nat) :
    (s.updateBlock d b f).block d' b' = s.block d' b' ∨
      d' = d ∧ b' = b ∧ (s.updateBlock d b f).block d' b' = f (s.block d' b') := by
  unfold State.block State.dieBlocks State.updateBlock State.updateDieBlocks
  simp only [State.setCatalogue_catalogue, List.getD_eq_getElem?_getD, List.getElem?_modify]
  by_cases hd : d = d'
  · subst hd
    cases ht : s.catalogue.blockTable[d]? with
    | none => left; simp
    | some x =>
      simp only [if_true, Option.map_eq_map, Option.map_some, Option.getD_some, List.getElem?_modify]
      by_cases hb : b = b'
      · subst hb
        cases hx : x.blocks[b]? with
        | none => left; simp
        | some k => right; simp
      · left
        simp [hb]
  · left
    simp [hd]

theorem State.updateBlock_free (s : State) (d b : Nat) (f : Block → Block) (d' : Nat) :
    ((s.updateBlock d b f).dieBlocks d').free = (s.dieBlocks d').free ∧
      ((s.updateBlock d b f).dieBlocks d').blocks.length = (s.dieBlocks d').blocks.length := by
  unfold State.dieBlocks State.updateBlock State.updateDieBlocks
  simp only [State.setCatalogue_catalogue, List.getD_eq_getElem?_getD, List.getElem?_modify]
  by_cases hd : d = d'
  · subst hd
    cases ht : s.catalogue.blockTable[d]? <;> simp
  · simp [hd]

theorem State.markStarted_die (s : State) (d : Nat) (op : LongOp) : DieStep s (s.markStarted d op) := by
  cases op with
  | program p => exact DieStep.refl s
  | erase b =>
    exact ⟨State.updateBlock_step s d b _, rfl, rfl, rfl, rfl, rfl, rfl, rfl, rfl,
      fun d' => (State.updateBlock_free s d b _ d').1, fun d' => (State.updateBlock_free s d b _ d').2,
      fun d' b' => (State.block_updateBlock s d b _ d' b').imp id fun h => h.2.2⟩

theorem State.joinReads_die (s : State) (d : Nat) (r : ReadRequest) : DieStep s (s.joinReads d r) :=
  State.updateDie_die s d _

theorem State.beginRead_die (s t : State) (d : Nat) (h : s.beginRead? d = some t) : DieStep s t := by
  rw [State.beginRead?, Option.map_eq_some_iff] at h
  obtain ⟨x, -, rfl⟩ := h
  exact DieStep.setMedia s _ rfl rfl (by simp)

theorem State.beginRead_getD_die (s : State) (d : Nat) : DieStep s ((s.beginRead? d).getD s) := by
  rcases h : s.beginRead? d with _ | t
  · exact DieStep.refl s
  · exact State.beginRead_die s t d h

theorem State.takeLongOp_die (s : State) (d : Nat) : DieStep s (s.takeLongOp d).1 := by
  rw [State.takeLongOp]
  split
  · exact (DieStep.frontFailed s _).trans (State.updateDie_die _ d _)
  · exact ((DieStep.frontFailed s _).trans (State.updateDie_die _ d _)).trans
      (State.markStarted_die _ d _)

theorem State.idleChoice_die (s : State) (d : Nat) : DieStep s (s.idleChoice d) := by
  rw [State.idleChoice]
  split
  · dsimp only
    split
    · rename_i s1 h1
      split at h1
      · exact State.beginRead_die s s1 d h1
      · cases h1
    · split
      · exact State.takeLongOp_die s d
      · exact (State.takeLongOp_die s d).trans (State.beginRead_getD_die _ d)
  · exact DieStep.refl s

theorem State.serviceDecision_die (s : State) (d : Nat) : DieStep s (s.serviceDecision d) := by
  rw [State.serviceDecision]
  split
  · split
    · exact State.beginRead_getD_die s d
    · exact State.updateDie_die s d _
  all_goals exact DieStep.refl s

theorem State.suspendTest_die (s : State) (d : Nat) : DieStep s (s.suspendTest d) := by
  rw [State.suspendTest]
  split
  · split
    · exact State.updateDie_die s d _
    · exact DieStep.refl s
  all_goals exact DieStep.refl s

theorem State.readsChanged_die (s : State) (d : Nat) : DieStep s (s.readsChanged d) := by
  rw [State.readsChanged]
  split
  · exact State.idleChoice_die s d
  · exact State.suspendTest_die s d
  · exact State.serviceDecision_die s d
  all_goals exact DieStep.refl s

theorem State.joinLongOp_die (s : State) (d : Nat) (op : LongOp) : DieStep s (s.joinLongOp d op) :=
  (State.updateDie_die s d _).trans (State.idleChoice_die _ d)

theorem State.freeBuffer_die (s : State) : DieStep s s.freeBuffer := by
  rw [State.freeBuffer]
  split
  · exact (DieStep.freeBuffers s _).trans (State.beginRead_getD_die _ _)
  · exact DieStep.setMedia s _ rfl rfl rfl

theorem State.freeBuffers_die (n : Nat) : ∀ s : State, DieStep s (s.freeBuffers n) := by
  induction n with
  | zero => exact DieStep.refl
  | succ n ih => exact fun s => (State.freeBuffer_die s).trans (ih _)

theorem State.syncReads_die (s : State) : DieStep s s.syncReads := by
  refine DieStep.foldl _ (fun s d => ?_) _ s
  dsimp only
  split
  · exact (State.updateDie_die s d _).trans (State.readsChanged_die _ d)
  · exact DieStep.refl s

theorem State.becomeIdle_die (s : State) (d : Nat) : DieStep s (s.becomeIdle d) :=
  (State.updateDie_die s d _).trans (State.idleChoice_die _ d)

theorem State.suspendTests_die (s : State) : DieStep s s.suspendTests :=
  DieStep.foldl _ State.suspendTest_die _ s

theorem State.joinErases_die (s : State) (d : Nat) (blocks : List Nat) : DieStep s (s.joinErases d blocks) := by
  rw [State.joinErases]
  split
  · exact DieStep.refl s
  · exact (State.updateDie_die s d _).trans (State.idleChoice_die _ d)

theorem State.appendRecord_die (s : State) (record : List Byte) : DieStep s (s.appendRecord record) :=
  State.joinLongOp_die s 0 _

theorem State.readEnded_die (s : State) (d : Nat) : DieStep s (s.readEnded d) :=
  (State.updateDie_die s d _).trans (State.readsChanged_die _ d)

/-! ### Programs that their front turns away -/

/-- With no program in the long-op queue none is turned away (R102). -/
theorem splitRefused_none (fronts : List Nat) (ops : List LongOp) (h : ∀ op ∈ ops, op.isProgram = false) :
    splitRefused fronts ops = ([], ops) := by
  cases ops with
  | nil => rfl
  | cons op rest =>
    cases op with
    | program p => exact absurd (h (.program p) (by simp)) (by simp [LongOp.isProgram])
    | erase b => rfl

/-- No long-op queue holds a program. -/
def NoPrograms (s : State) : Prop := ∀ die ∈ s.media.dies, ∀ op ∈ die.longOps, op.isProgram = false

/-- With no program waiting, the dies' choices turn none away, and none waits after (R102). -/
def CalmStep (s t : State) : Prop := NoPrograms s → t.media.frontFailed = s.media.frontFailed ∧ NoPrograms t

theorem CalmStep.refl (s : State) : CalmStep s s := fun h => ⟨rfl, h⟩

theorem CalmStep.trans {s t u : State} (a : CalmStep s t) (b : CalmStep t u) : CalmStep s u := fun h =>
  ⟨(b (a h).2).1.trans (a h).1, (b (a h).2).2⟩

theorem CalmStep.foldl {α : Type} (f : State → α → State) (h : ∀ s a, CalmStep s (f s a)) (l : List α) :
    ∀ s, CalmStep s (l.foldl f s) := by
  induction l with
  | nil => exact CalmStep.refl
  | cons a l ih => exact fun s => (h s a).trans (ih (f s a))

theorem NoPrograms.die {s : State} (h : NoPrograms s) (d : Nat) :
    ∀ op ∈ (s.die d).longOps, op.isProgram = false := by
  unfold State.die
  rw [List.getD_eq_getElem?_getD]
  cases hd : s.media.dies[d]? with
  | none => simp [Die.reset]
  | some die => exact h die (List.mem_of_getElem? hd)

/-- A change of one die that brings no program. -/
theorem State.updateDie_calm (s : State) (d : Nat) (f : Die → Die)
    (hf : ∀ die, (∀ op ∈ die.longOps, op.isProgram = false) → ∀ op ∈ (f die).longOps, op.isProgram = false) :
    CalmStep s (s.updateDie d f) := by
  refine fun h => ⟨rfl, fun die hd => ?_⟩
  have hd : die ∈ s.media.dies.modify d f := hd
  obtain ⟨i, hi⟩ := List.mem_iff_getElem?.1 hd
  rw [List.getElem?_modify] at hi
  cases hx : s.media.dies[i]? with
  | none => simp [hx] at hi
  | some x =>
    rw [hx] at hi
    have hm := h x (List.mem_of_getElem? hx)
    by_cases e : d = i
    · simp [e] at hi
      subst hi
      exact hf x hm
    · simp [e] at hi
      subst hi
      exact hm

theorem State.beginRead_calm (s t : State) (d : Nat) (h : s.beginRead? d = some t) : CalmStep s t := by
  rw [State.beginRead?, Option.map_eq_some_iff] at h
  obtain ⟨x, hx, rfl⟩ := h
  refine fun hn => ⟨rfl, fun die hd => ?_⟩
  have hd : die ∈ s.media.dies.set d x.1 := hd
  rcases List.mem_or_eq_of_mem_set hd with hd | rfl
  · exact hn die hd
  · have hl : x.1.longOps = (s.die d).longOps := by
      unfold Die.begin? at hx
      split at hx
      · cases hx
      · rw [Option.map_eq_some_iff] at hx
        obtain ⟨y, -, rfl⟩ := hx
        rfl
    rw [hl]
    exact hn.die d

theorem State.beginRead_getD_calm (s : State) (d : Nat) : CalmStep s ((s.beginRead? d).getD s) := by
  rcases h : s.beginRead? d with _ | t
  · exact CalmStep.refl s
  · exact State.beginRead_calm s t d h

theorem State.markStarted_calm (s : State) (d : Nat) (op : LongOp) : CalmStep s (s.markStarted d op) := by
  cases op with
  | program p => exact CalmStep.refl s
  | erase b => exact fun h => ⟨rfl, h⟩

theorem State.takeLongOp_calm (s : State) (d : Nat) : CalmStep s (s.takeLongOp d).1 := by
  intro h
  have hs := splitRefused_none (s.fronts d) (s.die d).longOps (h.die d)
  rw [State.takeLongOp, hs]
  have h0 : CalmStep s (s.setMedia { s.media with
      frontFailed := s.media.frontFailed ++ ([] : List Program).map (fun p => (d, p)) }) := fun h => by
    simp only [List.map_nil, List.append_nil]
    exact ⟨rfl, h⟩
  split
  · exact (h0.trans (State.updateDie_calm _ d _ fun die _ op hop => absurd hop (by simp))) h
  · rename_i op rest he
    have he : (s.die d).longOps = op :: rest := he
    have hr : ∀ o ∈ rest, o.isProgram = false := fun o ho => h.die d o (by rw [he]; simp [ho])
    exact ((h0.trans (State.updateDie_calm _ d (fun die => { die with state := .busy op, longOps := rest })
      fun die _ => hr)).trans (State.markStarted_calm _ d op)) h

theorem State.idleChoice_calm (s : State) (d : Nat) : CalmStep s (s.idleChoice d) := by
  rw [State.idleChoice]
  split
  · dsimp only
    split
    · rename_i s1 h1
      split at h1
      · exact State.beginRead_calm s s1 d h1
      · cases h1
    · split
      · exact State.takeLongOp_calm s d
      · exact (State.takeLongOp_calm s d).trans (State.beginRead_getD_calm _ d)
  · exact CalmStep.refl s

theorem State.serviceDecision_calm (s : State) (d : Nat) : CalmStep s (s.serviceDecision d) := by
  rw [State.serviceDecision]
  split
  · split
    · exact State.beginRead_getD_calm s d
    · exact State.updateDie_calm s d _ fun _ h => h
  all_goals exact CalmStep.refl s

theorem State.suspendTest_calm (s : State) (d : Nat) : CalmStep s (s.suspendTest d) := by
  rw [State.suspendTest]
  split
  · split
    · exact State.updateDie_calm s d _ fun _ h => h
    · exact CalmStep.refl s
  all_goals exact CalmStep.refl s

theorem State.readsChanged_calm (s : State) (d : Nat) : CalmStep s (s.readsChanged d) := by
  rw [State.readsChanged]
  split
  · exact State.idleChoice_calm s d
  · exact State.suspendTest_calm s d
  · exact State.serviceDecision_calm s d
  all_goals exact CalmStep.refl s

theorem State.freeBuffer_calm (s : State) : CalmStep s s.freeBuffer := by
  have h0 : CalmStep s (s.setMedia { s.media with freeBuffers := s.media.freeBuffers + 1 }) :=
    fun h => ⟨rfl, h⟩
  rw [State.freeBuffer]
  split
  · exact h0.trans (State.beginRead_getD_calm _ _)
  · exact h0

theorem State.becomeIdle_calm (s : State) (d : Nat) : CalmStep s (s.becomeIdle d) :=
  (State.updateDie_calm s d (fun die => { die with state := .idle, lastResume := none }) fun _ h => h).trans (State.idleChoice_calm _ d)

theorem State.joinErases_calm (s : State) (d : Nat) (blocks : List Nat) :
    CalmStep s (s.joinErases d blocks) := by
  rw [State.joinErases]
  split
  · exact CalmStep.refl s
  · refine (State.updateDie_calm s d _ fun die h op hop => ?_).trans (State.idleChoice_calm _ d)
    rcases List.mem_append.1 hop with hop | hop
    · exact h op hop
    · obtain ⟨b, -, rfl⟩ := List.mem_map.1 hop
      rfl

theorem State.readEnded_calm (s : State) (d : Nat) : CalmStep s (s.readEnded d) :=
  (State.updateDie_calm s d (fun die => { die with state := (s.die d).state.afterRead }) fun _ h => h).trans (State.readsChanged_calm _ d)

theorem State.queueDeadOn_calm (s : State) (d : Nat) : CalmStep s (s.queueDeadOn d) := by
  refine CalmStep.trans (t := s.updateDieBlocks d _) (fun h => ⟨rfl, h⟩) (State.joinErases_calm _ d _)

theorem State.queueDead_calm (s : State) : CalmStep s s.queueDead :=
  CalmStep.foldl _ State.queueDeadOn_calm _ s

theorem State.queueErasesOn_calm (s : State) (d : Nat) : CalmStep s (s.queueErasesOn d) :=
  State.joinErases_calm s d _

theorem State.wipeDie_calm (s : State) (d : Nat) : CalmStep s (s.wipeDie d) := by
  refine CalmStep.trans (t := s.updateDieBlocks d _) (fun h => ⟨rfl, h⟩) (State.joinErases_calm _ d _)

/-! ### The region table under retirements -/

/-- A region but for its in-use count. -/
def Region.unused (r : Region) : Region := { r with inUse := 0 }

theorem State.releaseUse_region (s : State) (id j : Nat) :
    ((s.releaseUse id).region? j).map Region.unused = (s.region? j).map Region.unused := by
  unfold State.releaseUse
  rw [State.region_updateRegion s id j (fun r => { r with inUse := r.inUse - 1 }) fun _ => rfl]
  cases s.region? j with
  | none => rfl
  | some r => by_cases h : j = id <;> simp [h, Region.unused]

theorem State.releaseUses_region (ids : List Nat) (j : Nat) : ∀ s : State,
    ((s.releaseUses ids).region? j).map Region.unused = (s.region? j).map Region.unused := by
  induction ids with
  | nil => exact fun _ => rfl
  | cons id ids ih => exact fun s => (ih (s.releaseUse id)).trans (State.releaseUse_region s id j)

/-- The dies' part of a discard leaves the region table, the flash and the fronts (R33). -/
theorem State.discardSegments_regions (s : State) (tags : List Nat) :
    (s.discardSegments tags).catalogue.regions = s.catalogue.regions ∧
      (s.discardSegments tags).media.flash = s.media.flash := by
  unfold State.discardSegments
  dsimp only
  have a := fun (l : List Nat) (x : State) => DieStep.foldl State.readsChanged State.readsChanged_die l x
  have b := fun (n : Nat) (x : State) => State.freeBuffers_die n x
  exact ⟨(a _ _).regions.trans (b _ _).regions, (a _ _).flash.trans (b _ _).flash⟩

/-- A retirement changes no region but for its in-use count (R9, R32). -/
theorem State.retire_region (s : State) (g : Nat) (reason : RetireReason) (j : Nat) :
    ((s.retire g reason).region? j).map Region.unused = (s.region? j).map Region.unused := by
  unfold State.retire
  split
  · rfl
  · rename_i v _
    have hd : ∀ j, (s.discardSegments [g]).region? j = s.region? j := fun j => by
      unfold State.region?
      rw [(State.discardSegments_regions s [g]).1]
    have key : ((((s.discardSegments [g]).setVoices
        ((s.discardSegments [g]).voices.filter (·.tag != v.tag))).releaseUses v.uses).region? j).map
          Region.unused = (s.region? j).map Region.unused := by
      rw [State.releaseUses_region]
      exact congrArg _ (hd j)
    unfold State.retireRecord
    dsimp only
    split
    · exact key
    · exact key

theorem State.dropBid_region (s : State) (tag j : Nat) :
    ((s.dropBid tag).region? j).map Region.unused = (s.region? j).map Region.unused := by
  unfold State.dropBid
  split
  · rfl
  · exact State.releaseUse_region _ _ _

end Sys2Proof.Machine
end

