-- ==== Sys2Proof/Laws/Counts.lean ====
section
/-! SUPPORT. The counts of region uses and of block pages: what a change of a voice table, a bid list or a block does
to them. -/

namespace Sys2Proof.Machine

/-! ### Uses of a region (R9) -/

/-- The uses depend on the bid list and the voice table alone. -/
theorem State.usesOf_congr {s t : State} (hb : t.claims.bids = s.claims.bids) (hv : t.voices = s.voices) (id : Nat) :
    t.usesOf id = s.usesOf id := by
  unfold State.usesOf; rw [hb, hv]

@[simp] theorem State.usesOf_setMedia (s : State) (x : Media) (id : Nat) : (s.setMedia x).usesOf id = s.usesOf id := rfl
@[simp] theorem State.usesOf_setCatalogue (s : State) (x : Catalogue) (id : Nat) :
    (s.setCatalogue x).usesOf id = s.usesOf id := rfl
@[simp] theorem State.usesOf_setTimebase (s : State) (x : Timebase) (id : Nat) :
    (s.setTimebase x).usesOf id = s.usesOf id := rfl
@[simp] theorem State.usesOf_setInstaller (s : State) (x : Installer) (id : Nat) :
    (s.setInstaller x).usesOf id = s.usesOf id := rfl
@[simp] theorem State.usesOf_setDelivery (s : State) (x : DeliveryEngine) (id : Nat) :
    (s.setDelivery x).usesOf id = s.usesOf id := rfl
@[simp] theorem State.usesOf_setNotices (s : State) (x : NoticeQueue) (id : Nat) :
    (s.setNotices x).usesOf id = s.usesOf id := rfl
@[simp] theorem State.usesOf_setPort (s : State) (x : Port) (id : Nat) : (s.setPort x).usesOf id = s.usesOf id := rfl
@[simp] theorem State.usesOf_setStation (s : State) (x : Station) (id : Nat) :
    (s.setStation x).usesOf id = s.usesOf id := rfl
@[simp] theorem State.usesOf_setWatches (s : State) (x : List Watch) (id : Nat) :
    (s.setWatches x).usesOf id = s.usesOf id := rfl

/-- The uses one voice holds of a region: its current region and its held follow slot (R9). -/
theorem Voice.uses_count (v : Voice) (id : Nat) :
    v.uses.count id = (if v.region == id then 1 else 0) + if v.follow.any (·.region == id) then 1 else 0 := by
  unfold Voice.uses
  cases v.follow with
  | none => simp [List.count_cons]
  | some f => simp [List.count_cons, Nat.add_comm]

/-- The uses by the voice table alone are the sum over its records. -/
theorem uses_voices (l : List Voice) (id : Nat) :
    l.countP (·.region == id) + l.countP (·.follow.any (·.region == id)) = (l.map (·.uses.count id)).sum := by
  induction l with
  | nil => rfl
  | cons v l ih =>
    rw [List.map_cons, List.sum_cons, ← ih, Voice.uses_count, List.countP_cons, List.countP_cons]
    omega

/-- With tags distinct, the entry of one key counts for itself and the rest of the list for the others. -/
theorem sum_filter_key {α : Type} (key f : α → Nat) (l : List α) (x : α) (h : (l.map key).Nodup) (hx : x ∈ l) :
    (l.map f).sum = ((l.filter (key · != key x)).map f).sum + f x := by
  induction l with
  | nil => cases hx
  | cons y l ih =>
    rw [List.map_cons, List.nodup_cons] at h
    rcases List.mem_cons.mp hx with rfl | hx
    · have : l.filter (key · != key x) = l := List.filter_eq_self.mpr fun z hz => by
        have : key z ≠ key x := fun e => h.1 (e ▸ List.mem_map_of_mem hz)
        simpa using this
      rw [List.filter_cons_of_neg (by simp), this, List.map_cons, List.sum_cons, Nat.add_comm]
    · have : key y ≠ key x := fun e => h.1 (e ▸ List.mem_map_of_mem hx)
      rw [List.filter_cons_of_pos (by simpa using this), List.map_cons, List.map_cons, List.sum_cons, List.sum_cons,
        ih h.2 hx, Nat.add_assoc]

/-- A voice that leaves a table with distinct tags takes its uses with it (R32). -/
theorem State.usesOf_without (s : State) (v : Voice) (id : Nat) (h : (s.voices.map (·.tag)).Nodup)
    (hv : v ∈ s.voices) :
    s.usesOf id = (s.setVoices (s.voices.filter (·.tag != v.tag))).usesOf id + v.uses.count id := by
  have e := sum_filter_key Voice.tag (·.uses.count id) s.voices v h hv
  rw [← uses_voices, ← uses_voices] at e
  unfold State.usesOf
  show _ = s.claims.bids.countP _ + (s.voices.filter _).countP _ + (s.voices.filter _).countP _ + _
  omega

/-- A bid entry that leaves a list with distinct tags takes its use with it (R9). -/
theorem State.usesOf_withoutBid (s : State) (b : Bid) (id : Nat) (h : (s.claims.bids.map (·.tag)).Nodup)
    (hb : b ∈ s.claims.bids) :
    s.usesOf id = (s.setBids (s.claims.bids.filter (·.tag != b.tag))).usesOf id + if b.region == id then 1 else 0 := by
  have c : ∀ l : List Bid, l.countP (·.region == id) = (l.map fun b => if b.region == id then 1 else 0).sum := by
    intro l
    induction l with
    | nil => rfl
    | cons x l ih => rw [List.countP_cons, List.map_cons, List.sum_cons, ih, Nat.add_comm]
  have e := sum_filter_key Bid.tag (fun b => if b.region == id then 1 else 0) s.claims.bids b h hb
  rw [← c, ← c] at e
  unfold State.usesOf
  show _ = (s.claims.bids.filter _).countP _ + s.voices.countP _ + s.voices.countP _ + _
  omega

/-- Each release of a list lowers its region's count by one (R9). -/
theorem State.releaseUses_uses (l : List Nat) : ∀ (s : State) (id : Nat),
    (s.releaseUses l).uses? id = (s.uses? id).map (· - l.count id) := by
  induction l with
  | nil => intro s id; cases h : s.uses? id <;> simp [State.releaseUses, h]
  | cons x l ih =>
    intro s id
    show ((s.releaseUse x).releaseUses l).uses? id = _
    rw [ih, State.releaseUse_uses, Option.map_map, List.count_cons]
    congr 1
    funext n
    by_cases h : id = x
    · subst h; simp; omega
    · simp [h, Ne.symm h]

/-! ### Block records (R10) -/

/-- A listed record is the one the block table is read at. -/
theorem State.lists_block {s : State} {d b : Nat} {k : Block} (h : s.lists d b k) : s.block d b = k := by
  unfold State.block
  rw [List.getD_eq_getElem?_getD, show (s.dieBlocks d).blocks[b]? = some k from h, Option.getD_some]

/-- What holds of every record of the table holds of each listed one. -/
theorem State.lists_all (s : State) (p : Nat → Nat → Block → Bool)
    (h : (s.catalogue.blockTable.zipIdx.all fun x => x.1.blocks.zipIdx.all fun y => p x.2 y.2 y.1) = true)
    (d b : Nat) (k : Block) (hk : s.lists d b k) : p d b k = true := by
  unfold State.lists State.dieBlocks at hk
  rw [List.getD_eq_getElem?_getD] at hk
  cases ht : s.catalogue.blockTable[d]? with
  | none => rw [ht] at hk; simp at hk
  | some t =>
    rw [ht, Option.getD_some] at hk
    have h1 := List.all_eq_true.mp h (t, d) (by rw [List.mem_zipIdx_iff_getElem?]; exact ht)
    exact List.all_eq_true.mp h1 (k, b) (by rw [List.mem_zipIdx_iff_getElem?]; exact hk)

/-! ### The head of a read queue and its buffer (R94, R98, R107) -/

/-- No request of a queue keeps a buffer, so none can be taken. -/
theorem takeLastKept_none {l : List ReadRequest} (h : ∀ r ∈ l, r.kept = false) : takeLastKept l = none := by
  induction l with
  | nil => rfl
  | cons r l ih =>
    simp only [takeLastKept, ih fun x hx => h x (List.mem_cons_of_mem _ hx), h r List.mem_cons_self]
    rfl

/-- The request nearest the tail that keeps a buffer gives it up. -/
theorem takeLastKept_last (before after : List ReadRequest) (k : ReadRequest) (hk : k.kept = true)
    (h : ∀ r ∈ after, r.kept = false) :
    takeLastKept (before ++ k :: after) = some (before ++ { k with kept := false } :: after) := by
  induction before with
  | nil => simp [takeLastKept, takeLastKept_none h, hk]
  | cons r l ih => simp [takeLastKept, ih]

end Sys2Proof.Machine
end

