-- ==== Sys2Proof/Laws/Memory.lean ====
section
/-! SUPPORT. The flash array's cell list: every operation keeps its canonical form, and what a byte reads as
after a write or an erase. -/

namespace Sys2Proof.Machine

theorem Memory.wf_nil : Memory.wf [] := ⟨List.Pairwise.nil, by simp⟩

theorem Memory.wf_filter (m : List Host.Cell) (p : Host.Cell → Bool) (h : Memory.wf m) :
    Memory.wf (m.filter p) :=
  ⟨h.1.filter _, fun c hc => h.2 c (List.mem_of_mem_filter hc)⟩

theorem Memory.mem_run (a : Nat) (bytes : List Byte) (c : Host.Cell) :
    c ∈ Memory.run a bytes → a ≤ c.1 ∧ c.1 < a + bytes.length ∧ c.2 ≠ erasedByte := by
  simp only [Memory.run, List.mem_map, List.mem_filter, Prod.exists]
  rintro ⟨b, i, ⟨hm, hb⟩, rfl⟩
  have := List.mem_zipIdx hm
  exact ⟨this.1, this.2.1, by simpa using hb⟩

theorem Memory.zipIdx_sorted (bytes : List Byte) (a : Nat) :
    (bytes.zipIdx a).Pairwise (fun x y => x.2 < y.2) := by
  induction bytes generalizing a with
  | nil => simp
  | cons b bs ih =>
    rw [List.zipIdx_cons, List.pairwise_cons]
    exact ⟨fun x hx => by have := List.mem_zipIdx hx; simp only; omega, ih _⟩

theorem Memory.run_wf (a : Nat) (bytes : List Byte) : Memory.wf (Memory.run a bytes) := by
  refine ⟨?_, fun c hc => (Memory.mem_run a bytes c hc).2.2⟩
  rw [Memory.run, List.pairwise_map]
  exact (Memory.zipIdx_sorted bytes a).filter _

/-- Writing keeps the canonical form. -/
theorem Memory.write_wf (m : List Host.Cell) (a : Nat) (bytes : List Byte) (h : Memory.wf m) :
    Memory.wf (Memory.write m a bytes) := by
  have h1 := Memory.wf_filter m (fun c => decide (c.1 < a)) h
  have h2 := Memory.run_wf a bytes
  have h3 := Memory.wf_filter m (fun c => decide (a + bytes.length ≤ c.1)) h
  refine ⟨?_, ?_⟩
  · simp only [Memory.write]
    rw [List.pairwise_append, List.pairwise_append]
    refine ⟨⟨h1.1, h2.1, ?_⟩, h3.1, ?_⟩
    · intro x hx y hy
      have := Memory.mem_run a bytes y hy
      simp only [List.mem_filter, decide_eq_true_eq] at hx
      omega
    · intro x hx y hy
      simp only [List.mem_append, List.mem_filter, decide_eq_true_eq] at hx hy
      rcases hx with hx | hx
      · omega
      · have := Memory.mem_run a bytes x hx
        omega
  · intro c hc
    simp only [Memory.write, List.mem_append] at hc
    rcases hc with (hc | hc) | hc
    · exact h1.2 c hc
    · exact h2.2 c hc
    · exact h3.2 c hc

/-- Erasing keeps the canonical form. -/
theorem Memory.erase_wf (m : List Host.Cell) (a len : Nat) (h : Memory.wf m) :
    Memory.wf (Memory.erase m a len) := Memory.wf_filter m _ h

/-! ### Reading -/

theorem Memory.find_append (p : Host.Cell → Bool) (l m : List Host.Cell)
    (h : ∀ c ∈ l, p c = false) : (l ++ m).find? p = m.find? p := by
  rw [List.find?_append, List.find?_eq_none.2 (by simpa using h)]; rfl

theorem Memory.find_filter (m : List Host.Cell) (p q : Host.Cell → Bool)
    (h : ∀ c, p c = true → q c = true) : (m.filter q).find? p = m.find? p := by
  induction m with
  | nil => rfl
  | cons c cs ih =>
    by_cases hp : p c = true
    · simp [h c hp, hp]
    · by_cases hq : q c = true <;> simp [hq, hp, ih]

theorem Memory.find_run (a : Nat) (bytes : List Byte) (i : Nat) (hi : i < bytes.length) :
    ((Memory.run a bytes).find? (fun c => c.1 == a + i)).map (·.2) =
      if bytes[i] = erasedByte then none else some bytes[i] := by
  induction bytes generalizing a i with
  | nil => simp at hi
  | cons b bs ih =>
    have hrun : Memory.run a (b :: bs) =
        (if b = erasedByte then [] else [(a, b)]) ++ Memory.run (a + 1) bs := by
      by_cases hb : b = erasedByte <;> simp [Memory.run, List.zipIdx_cons, hb]
    rw [hrun]
    cases i with
    | zero =>
      by_cases hb : b = erasedByte
      · rw [if_pos hb]
        have hnone : (Memory.run (a + 1) bs).find? (fun c => c.1 == a + 0) = none := by
          rw [List.find?_eq_none]
          intro c hc
          have := Memory.mem_run _ _ _ hc
          simp only [beq_iff_eq]
          omega
        rw [List.nil_append, hnone]
        simp [hb]
      · simp [hb]
    | succ j =>
      have hj : j < bs.length := by simpa using hi
      have := ih (a + 1) j hj
      have hskip : (((if b = erasedByte then [] else [(a, b)]) ++ Memory.run (a + 1) bs).find?
          (fun c => c.1 == a + (j + 1))) =
          (Memory.run (a + 1) bs).find? (fun c => c.1 == a + 1 + j) := by
        rw [Memory.find_append]
        · congr 1; funext c; congr 1; omega
        · intro c hc
          by_cases hb : b = erasedByte
          · simp [hb] at hc
          · simp only [hb, if_false, List.mem_singleton] at hc
            subst hc
            simp
      rw [hskip, this]
      simp

/-- A byte inside a write reads as it was written. -/
theorem Memory.read_write_inside (m : List Host.Cell) (a : Nat) (bytes : List Byte) (i : Nat)
    (hi : i < bytes.length) : Memory.read (Memory.write m a bytes) (a + i) = bytes[i] := by
  have hlow : ∀ c ∈ m.filter (fun c => decide (c.1 < a)), (fun c : Host.Cell => c.1 == a + i) c = false := by
    intro c hc
    simp only [List.mem_filter, decide_eq_true_eq] at hc
    simp only [beq_eq_false_iff_ne]
    omega
  have hhigh : (m.filter (fun c => decide (a + bytes.length ≤ c.1))).find?
      (fun c => c.1 == a + i) = none := by
    rw [List.find?_eq_none]
    intro c hc
    simp only [List.mem_filter, decide_eq_true_eq] at hc
    simp only [beq_iff_eq]
    omega
  rw [Memory.read, Memory.write, List.append_assoc, Memory.find_append _ _ _ hlow, List.find?_append]
  have hr := Memory.find_run a bytes i hi
  rcases hf : (Memory.run a bytes).find? (fun c => c.1 == a + i) with _ | c
  · rw [hf] at hr
    by_cases hb : bytes[i] = erasedByte
    · rw [hf, hhigh]; simp [hb]
    · simp [hb] at hr
  · rw [hf] at hr
    by_cases hb : bytes[i] = erasedByte
    · simp [hb] at hr
    · simp only [Option.map_some, hb, if_false, Option.some.injEq] at hr
      rw [hf]; simp [hr]

/-- A byte outside a write reads as before. -/
theorem Memory.read_write_outside (m : List Host.Cell) (a : Nat) (bytes : List Byte) (x : Nat)
    (hx : x < a ∨ a + bytes.length ≤ x) :
    Memory.read (Memory.write m a bytes) x = Memory.read m x := by
  have hrun : (Memory.run a bytes).find? (fun c => c.1 == x) = none := by
    rw [List.find?_eq_none]
    intro c hc
    have := Memory.mem_run a bytes c hc
    simp only [beq_iff_eq]
    omega
  rw [Memory.read, Memory.read, Memory.write, List.append_assoc, List.find?_append,
    List.find?_append, hrun]
  rcases hx with hx | hx
  · rw [Memory.find_filter m (fun c => c.1 == x) (fun c => decide (c.1 < a))]
    · have : (m.filter (fun c => decide (a + bytes.length ≤ c.1))).find? (fun c => c.1 == x) = none := by
        rw [List.find?_eq_none]
        intro c hc
        simp only [List.mem_filter, decide_eq_true_eq] at hc
        simp only [beq_iff_eq]
        omega
      simp [this]
    · intro c hc
      simp only [beq_iff_eq] at hc
      simpa [hc] using hx
  · rw [Memory.find_filter m (fun c => c.1 == x) (fun c => decide (a + bytes.length ≤ c.1))]
    · have : (m.filter (fun c => decide (c.1 < a))).find? (fun c => c.1 == x) = none := by
        rw [List.find?_eq_none]
        intro c hc
        simp only [List.mem_filter, decide_eq_true_eq] at hc
        simp only [beq_iff_eq]
        omega
      simp [this]
    · intro c hc
      simp only [beq_iff_eq] at hc
      simpa [hc] using hx

/-- A byte outside an erase reads as before. -/
theorem Memory.read_erase_outside (m : List Host.Cell) (a len x : Nat) (hx : x < a ∨ a + len ≤ x) :
    Memory.read (Memory.erase m a len) x = Memory.read m x := by
  rw [Memory.read, Memory.read, Memory.erase, Memory.find_filter]
  intro c hc
  simp only [beq_iff_eq] at hc
  simpa [hc] using hx

/-- A byte inside an erase reads as erased. -/
theorem Memory.read_erase_inside (m : List Host.Cell) (a len x : Nat) (h1 : a ≤ x) (h2 : x < a + len) :
    Memory.read (Memory.erase m a len) x = erasedByte := by
  have : (Memory.erase m a len).find? (fun c => c.1 == x) = none := by
    rw [List.find?_eq_none]
    intro c hc
    simp only [Memory.erase, List.mem_filter, Bool.or_eq_true, decide_eq_true_eq] at hc
    simp only [beq_iff_eq]
    omega
  rw [Memory.read, this]; rfl

/-! ### The flash array -/

@[simp] theorem Flash.program_cells (f : Flash) (first count : Nat) (bytes : List Byte) :
    (f.program first count bytes).cells =
      Memory.write f.cells (first * 512) (bytes.take (count * 512)) := rfl

@[simp] theorem Flash.erase_cells (f : Flash) (first count : Nat) :
    (f.erase first count).cells = Memory.erase f.cells (first * 512) (count * 512) := rfl

@[simp] theorem Flash.scramble_cells (f : Flash) (first count stamp : Nat) (cause : UnknownCause) :
    (f.scramble first count stamp cause).cells = Memory.erase f.cells (first * 512) (count * 512) := rfl

/-- A program keeps the canonical form. -/
theorem Flash.program_wf (f : Flash) (first count : Nat) (bytes : List Byte) (h : Memory.wf f.cells) :
    Memory.wf (f.program first count bytes).cells := Memory.write_wf _ _ _ h

/-- An erase keeps the canonical form. -/
theorem Flash.erase_wf (f : Flash) (first count : Nat) (h : Memory.wf f.cells) :
    Memory.wf (f.erase first count).cells := Memory.erase_wf _ _ _ h

/-- Contents becoming unknown keeps the canonical form. -/
theorem Flash.scramble_wf (f : Flash) (first count stamp : Nat) (cause : UnknownCause) (h : Memory.wf f.cells) :
    Memory.wf (f.scramble first count stamp cause).cells := Memory.erase_wf _ _ _ h

/-- What is left of an unknown run covers the run's sectors outside those taken away, and no others. -/
theorem UnknownRun.minus_covers (u : UnknownRun) (first count sector : Nat) :
    (u.minus first count).any (·.covers sector) =
      (u.covers sector && !(decide (first ≤ sector) && decide (sector < first + count))) := by
  rw [Bool.eq_iff_iff]
  simp only [UnknownRun.minus, UnknownRun.covers, List.any_append, Bool.or_eq_true, Bool.and_eq_true,
    decide_eq_true_eq, Bool.not_eq_true', Bool.and_eq_false_iff, decide_eq_false_iff_not]
  split <;> split <;> simp <;> omega

@[simp] theorem Flash.cause_erased (n : Nat) : Flash.erased.cause? n = none := rfl

/-- A sector whose program or erase failed or was abandoned has the cause it was given. -/
theorem Flash.cause_scramble (f : Flash) (first count stamp n : Nat) (cause : UnknownCause)
    (h : first ≤ n ∧ n < first + count) : (f.scramble first count stamp cause).cause? n = some cause := by
  simp [Flash.cause?, Flash.scramble, UnknownRun.covers, h]

/-- Reset's flash array has the canonical form. -/
theorem State.reset_flash_wf : Memory.wf State.reset.media.flash.cells := Memory.wf_nil

end Sys2Proof.Machine
end

