-- ==== Sys2Proof/Laws/Notices.lean ====
section
/-! SUPPORT. How the notice queue grows within a step (R178): no notice leaves it, one that takes no merge keeps its
place and its fields, and a report of such a kind is told. -/

namespace Sys2Proof.Machine

/-- From `s` to `t` no notice has left the queue, and those that take no merge stand where they stood. -/
structure NoticeStep (s t : State) : Prop where
  length : s.notices.queue.length ≤ t.notices.queue.length
  kept   : ∀ (k : Nat) (n : Notice), s.notices.queue[k]? = some n → n.body.mergeKey = none →
    t.notices.queue[k]? = some n
  loss   : min 15 s.notices.loss ≤ t.notices.loss

/-- A change of other fields. -/
theorem NoticeStep.of_eq {s t : State} (h : t.notices = s.notices) : NoticeStep s t :=
  ⟨by rw [h], fun k n hk _ => by rwa [h], by rw [h]; exact Nat.min_le_right _ _⟩

theorem NoticeStep.refl (s : State) : NoticeStep s s := .of_eq rfl

theorem NoticeStep.trans {s t u : State} (a : NoticeStep s t) (b : NoticeStep t u) : NoticeStep s u :=
  ⟨a.length.trans b.length, fun k n h hm => b.kept k n (a.kept k n h hm) hm, by
    have := a.loss; have := b.loss; omega⟩

/-- A change at the first element that passes leaves the elements that do not pass. -/
theorem getElem_updateFirst {α : Type} (p : α → Bool) (f : α → α) (l : List α) (k : Nat) (x : α) (hx : p x = false)
    (h : l[k]? = some x) : (updateFirst p f l)[k]? = some x := by
  induction l generalizing k with
  | nil => simp at h
  | cons y ys ih =>
    unfold updateFirst
    cases k with
    | zero =>
      simp only [List.getElem?_cons_zero, Option.some.injEq] at h
      subst h
      simp [hx]
    | succ k =>
      simp only [List.getElem?_cons_succ] at h
      split
      · simpa using h
      · simpa using ih k h

theorem NoticeQueue.join_cases (q : NoticeQueue) (n : Notice) :
    (q.queue.length < 32 ∧ q.join n = { q with queue := q.queue ++ [n] }) ∨
      (32 ≤ q.queue.length ∧ q.join n = { q with loss := min 15 (q.loss + 1), drops := q.drops + 1 }) := by
  unfold NoticeQueue.join raiseLoss
  split
  · exact .inl ⟨‹_›, rfl⟩
  · exact .inr ⟨Nat.le_of_not_lt ‹_›, rfl⟩

theorem Notice.takes_none (m : Notice) (body : NoticeBody) (h : m.body.mergeKey = none) : m.takes body = false := by
  unfold Notice.takes
  cases hb : body.mergeKey <;> simp [h]

/-- A report joins, merges or is dropped. -/
theorem State.queueNotice_noticeStep (s : State) (addressee : Nat) (body : NoticeBody) :
    NoticeStep s (s.queueNotice addressee body) := by
  unfold State.queueNotice
  generalize ({ addressee := addressee, body := body, isOpen := body.mergeKey.isSome } : Notice) = n
  have join : NoticeStep s (s.setNotices (s.notices.join n)) := by
    rcases s.notices.join_cases n with ⟨-, h⟩ | ⟨-, h⟩
    · refine ⟨by simp [h], fun k m hk _ => ?_, by simp [h]⟩
      have hl := (List.getElem?_eq_some_iff.1 hk).1
      simpa [h, List.getElem?_append, hl] using hk
    · exact ⟨by simp [h], fun k m hk _ => by simpa [h] using hk, by simp only [State.setNotices_notices, h]; omega⟩
  unfold NoticeQueue.report
  split
  · exact join
  · rename_i head rest hq
    split
    · rename_i ht
      split
      · exact ⟨Nat.le_refl _, fun k m hk _ => hk, Nat.min_le_right _ _⟩
      · refine ⟨by simp [hq], fun k m hk hm => ?_, by simp⟩
        rw [hq] at hk
        cases k with
        | zero =>
          simp only [List.getElem?_cons_zero, Option.some.injEq] at hk
          subst hk
          rw [Notice.takes_none _ _ hm] at ht
          cases ht
        | succ k => simpa using hk
    · split
      · refine ⟨by simp [hq], fun k m hk hm => ?_, by simp⟩
        rw [hq] at hk
        cases k with
        | zero => simpa using hk
        | succ k =>
          simp only [List.getElem?_cons_succ] at hk
          simpa using getElem_updateFirst _ _ _ k m (Notice.takes_none _ _ hm) hk
      · exact join

/-- The closing of a voice's notices changes only those that take merges (R178). -/
theorem State.closeNotices_noticeStep (s : State) (tag : Nat) : NoticeStep s (s.closeNotices tag) := by
  refine ⟨by simp [State.closeNotices], fun k n hk hm => ?_, by simp [State.closeNotices]⟩
  simp [State.closeNotices, hk, Notice.closeFor, hm]

/-- A report of a kind that takes no merge joins the tail of the queue, or is dropped from a full one and counted: it is
told, whatever grows before and after it in the step. -/
theorem State.told_queueNotice {s t u : State} (addressee : Nat) (body : NoticeBody) (hm : body.mergeKey = none)
    (a : NoticeStep s t) (b : NoticeStep (t.queueNotice addressee body) u) :
    s.told u { addressee := addressee, body := body, isOpen := false } := by
  have hq : t.queueNotice addressee body = t.setNotices (t.notices.join
      { addressee := addressee, body := body, isOpen := false }) := by
    have hn : ∀ m : Notice, m.takes body = false := fun m => by simp [Notice.takes, hm]
    unfold State.queueNotice NoticeQueue.report
    split <;> simp [hn, hm]
  rcases t.notices.join_cases { addressee := addressee, body := body, isOpen := false } with ⟨-, h⟩ | ⟨hl, h⟩
  · refine .inl ?_
    have hk := b.kept t.notices.queue.length { addressee := addressee, body := body, isOpen := false }
      (by simp [hq, h]) hm
    rw [List.mem_drop_iff_getElem]
    obtain ⟨hlt, he⟩ := List.getElem?_eq_some_iff.1 hk
    exact ⟨t.notices.queue.length - s.notices.queue.length, by have := a.length; omega, by
      have := a.length
      simp only [Nat.add_sub_cancel' this]
      exact he⟩
  · refine .inr ⟨?_, ?_⟩
    · have := b.length
      simp only [hq, h, State.setNotices_notices] at this
      omega
    · have h1 := b.loss
      have h2 := a.loss
      simp only [hq, h, State.setNotices_notices] at h1
      omega

/-- RETIRED is told at a retirement for every reason but HALTED, with the frame the voice has reached (R32). -/
theorem State.told_retireRecord {s t u : State} (reason : RetireReason) (v : Voice) (hr : reason ≠ .halted)
    (a : NoticeStep s t) (b : NoticeStep (t.retireRecord reason v) u) :
    s.told u { addressee := v.requester, body := .retired v.tag reason v.floorP, isOpen := false } := by
  have uses : ∀ (l : List Nat) (x : State), (x.releaseUses l).notices = x.notices := fun l => by
    induction l with
    | nil => exact fun x => rfl
    | cons r l ih => exact fun x => (ih (x.releaseUse r)).trans rfl
  unfold State.retireRecord at b
  rw [if_neg hr] at b
  refine State.told_queueNotice _ _ rfl (a.trans ?_) b
  refine NoticeStep.trans (.of_eq ?_) (State.closeNotices_noticeStep _ _)
  exact (uses _ _).trans rfl

end Sys2Proof.Machine
end

