-- ==== Sys2Proof/Laws/Scan.lean ====
section
/-! SUPPORT. What the start-up scan finds in a log sector, and what it does with it (R15, R100). -/

namespace Sys2Proof.Machine

/-- The scan finds no record exactly where the sector reads as erased, and else the record that the sector yields. -/
theorem Flash.logRecord_eq (f : Flash) (n : Nat) (bad : Bool) :
    (f.readsErased n bad → f.logRecord? n bad = none) ∧
      (¬f.readsErased n bad → f.logRecord? n bad = some (f.recordAt n bad)) := by
  have he : (f.sector n).all (· == erasedByte) = true ↔ ∀ i, i < 512 → f.read (n * 512 + i) = 0xFF#8 := by
    simp [Flash.sector, erasedByte]
  unfold Flash.readsErased Flash.logRecord? Flash.recordAt
  rw [← he]
  dsimp only
  clear he
  cases bad <;> rcases f.cause? n with _ | (_ | _ | record) <;>
    cases (f.sector n).all (· == erasedByte) <;> simp

/-- A classified record leaves the table and the scan as the spec's table of results says (R15). -/
theorem State.classify_eq (s : State) (x : Scan) (record : LogRecord) :
    s.classify x record = s.setCatalogue { s.catalogue with
      regions := s.replayed record
      scan := some { sector := x.sector + 1, skipped := x.skipped + if s.takesRecord record then 0 else 1 } } := by
  cases record with
  | install r =>
    unfold State.classify State.replayed State.takesRecord Catalogue.scanned
    dsimp only
    split <;> simp
  | void id =>
    unfold State.classify State.replayed State.takesRecord Catalogue.scanned
    dsimp only
    split <;> simp
  | other => rfl

end Sys2Proof.Machine
end

