-- ==== Sys2Proof/Tests/Slice0.lean ====
section
/-! SUPPORT. Tests: what WellFormed refuses, figures and worked examples of the spec, and for every statement with
hypotheses a state and operands that meet them (`witness_` and the statement's name). Expected figures are the
spec's own, named in each test's comment. -/

namespace Sys2Proof.Tests

set_option Elab.async false

open Sys2Proof Sys2Proof.Machine

/-! ### Small states -/

/-- The state a command leaves. -/
def after (i : Instr) (s : State) : State :=
  match exec i s with
  | .next t => t
  | .fault _ => s
  | .refused _ => s

/-- A header: key, sender, addressee. -/
def hd (key sender addressee : Nat) : Header := ⟨.ofNat 12 key, .ofNat 4 sender, .ofNat 5 addressee⟩

/-- Region 9,310: 1 channel, 16-bit, 20,000 frames (20 segments, 2 pages), a loop, HOME, on die 1. -/
def home : Region :=
  { id := 9310, format := ⟨false, false⟩, frames := 20000, loop := some ⟨4096, 8192⟩, role := .home
    extents := [⟨1, 1, 0, 2⟩], state := .live, inUse := 0 }

/-- Region 9,311: as long as a page, no loop. -/
def second : Region := { home with id := 9311, frames := 3000, loop := none, extents := [⟨1, 1, 2, 1⟩] }

/-- One die's blocks: a LOG block on die 0 alone, an OPEN block, a QUEUED one. -/
def blocksOf (d : Nat) : DieBlocks :=
  { blocks := [if d = 0 then ⟨.log, 0, 0⟩ else ⟨.worn, 0, 0⟩, ⟨.opened 3, 3, 0⟩, ⟨.queued, 0, 0⟩], free := [] }

/-- A small station: number 3, CONFIGURED at 48,000 Hz with R = 8 and prime depth 3, tick 1,000, link UP. -/
def base : State :=
  { clock := 50000
    station := { state := .configured, number := 3, config := some ⟨.hz48000, 65536, 8, 3⟩ }
    port := { bus := .skipping, sending := none }
    claims := { bids := [], watches := [] }
    voices := []
    timebase := { Timebase.reset with source := .fallback, tick := 1000, dividerStart := 49000 }
    media := { dies := List.replicate 8 Die.reset, freeBuffers := 24
               fronts := List.replicate 8 [0, 144, 0], flash := Flash.erased, frontFailed := [] }
    catalogue := { regions := [home, second], blockTable := (List.range 8).map blocksOf, appendPos := 2
                   owed := 0, pendingInstalls := [], scan := none }
    installer := { work := [], pageBuffer := [], held := false }
    delivery := { link := .up, queue := [], posting := none, installRead := none }
    notices := { queue := [], loss := 0, offerCount := 0, addendum := none, drops := 0 }
    stamp := 0
    pending := [] }

/-- The port receives another station's frame of kind `kind`. -/
def rx (kind : Nat) (s : State) : State := { s with port := { bus := .receiving kind, sending := none } }

theorem rx_receiving (kind : Nat) (s : State) (h : s.claims.watches = []) : (rx kind s).receiving :=
  ⟨⟨kind, rfl⟩, rfl, fun w hw => by rw [show (rx kind s).claims.watches = [] from h] at hw; cases hw⟩

/-- A RUNNING voice of region 9,310 with 8 segments delivered. -/
def vc (record tag : Nat) : Voice :=
  { record := record, tag := tag, state := .running, requester := 15, region := 9310, s0 := 0, p := 0, r := 65536
    target := 65536, step := 0, loopActive := true, loopRequest := true, loopReleased := false
    cursor := some 8, n := 8, d := 8, inFlight := none, fill := .filling, dryFrame := none, fin := none
    pendingEnd := none, follow := none, dry := some 9188 }

/-- The station with one voice, of tag 7. -/
def withVoice (v : Voice) (s : State := base) : State := { s with voices := [v] }

/-- A bid entry for region 9,310. -/
def bid (tag : Nat) : Bid :=
  { tag := tag, region := 9310, start := 1024, mode := .immediate, captured := 990, rate := 65536
    loopRequest := false, requester := 15, expiry := 60000, window := .opened, offer := .waiting }

/-- The station with one entry. -/
def withBid (b : Bid) (s : State := base) : State := { s with claims := { s.claims with bids := [b] } }

/-- The station sending the CLAIM of its entry for tag 9. -/
def sendingClaim (b : Bid) : State :=
  { withBid b with port := { bus := .receiving 1, sending := some (.claim 9 (claimFrame 3 0 9)) } }

/-- A notice. -/
def note (body : NoticeBody) : Notice := { addressee := 15, body := body, isOpen := body.mergeKey.isSome }

/-- The station with notices. -/
def withNotices (l : List Notice) (s : State := base) : State := { s with notices := { s.notices with queue := l } }

/-- A watch. -/
def wt (heard due : Bool) : Watch :=
  { tag := 9, region := 9310, requester := 15, expiry := 60000, heard := heard, due := due }

/-- A read request of tag 7. -/
def rq (tag dry : Nat) : ReadRequest :=
  { tag := tag, ring := 8, region := 9310, block := 1, page := 0, sector := 32, sectors := 4, frameSize := 2
    dry := dry, attempt := .first, kept := false }

/-- The station with one die's record replaced. -/
def withDie (d : Nat) (x : Die) (s : State := base) : State :=
  { s with media := { s.media with dies := s.media.dies.set d x } }

/-- An INSTALL item on die 2. -/
def item (phase : InstallPhase) : InstallItem :=
  { sender := 15, region := 60, format := 0, frames := 10000, loopStart := 0, loopEnd := 0, source := 4096, die := 2
    reserved := 1, q := 0, extents := [⟨2, 1, 3, 1⟩], phase := phase }

/-- The station with a work list. -/
def withWork (l : List WorkItem) (s : State := base) : State :=
  { s with installer := { s.installer with work := l } }

/-! ### What WellFormed refuses -/

theorem test_wf_order_edge : (Instr.filteredEdge 0 [1, 1]).wellFormed = false := by decide
theorem test_wf_order_divider : (Instr.dividerTick [1, 2, 1]).wellFormed = false := by decide
theorem test_wf_order_standIn : (Instr.standInTick [0, 0]).wellFormed = false := by decide
theorem test_wf_discarded_payload :
    (Instr.frameDiscarded 0 ⟨0, 0, 0, 0, List.replicate 25 0⟩ 0).wellFormed = false := by decide
theorem test_wf_notice_payload : (Instr.notice 0 (hd 0 0 0) (List.replicate 25 0)).wellFormed = false := by decide
theorem test_wf_read_die : (Instr.segmentReadEnd 0 8 0).wellFormed = false := by decide
theorem test_wf_program_die : (Instr.programComplete 0 8 true).wellFormed = false := by decide
theorem test_wf_erase_die : (Instr.eraseComplete 0 9 true).wellFormed = false := by decide
theorem test_wf_suspend_die : (Instr.suspendReported 0 8 .suspended).wellFormed = false := by decide
theorem test_wf_holdoff_die : (Instr.resumeHoldOffExpiry 8).wellFormed = false := by decide
theorem test_wf_read_bytes :
    (Instr.installReadDone 0 (List.replicate 24577 0)).wellFormed = false := by decide +kernel
theorem test_wf_good : (Instr.segmentReadEnd 0 7 0xFFF#12).wellFormed = true ∧
    (Instr.filteredEdge 0 [1, 2]).wellFormed = true := by decide

/-! ### Frames -/

/-- The CRC that R113 describes gives 29B1h for the ASCII digits 1 to 9 (its published check value). -/
theorem test_crc :
    crc16 ([0x31, 0x32, 0x33, 0x34, 0x35, 0x36, 0x37, 0x38, 0x39].flatMap (bitsBE 8)) = 0x29B1#16 := by
  decide +kernel

/-- Spec 07, three offers at one idle: the arbitration values. -/
theorem test_arbitration : (claimFrame 3 446 2210).arbitration = 72675 ∧
    (claimFrame 7 156 2210).arbitration = 68039 ∧
    ((note (.underrun 0 0 0 0)).frame 9 0).arbitration = 524297 := by decide +kernel

/-- Spec 07: a CLAIM takes 62 bit-times, its first 20 bits those of the example, and its bits are read back. -/
theorem test_claim_bits : (claimFrame 7 156 2210).bits.length = 62 ∧
    natOfBits ((claimFrame 7 156 2210).bits.take 20) = 0b00010000100111000111 ∧
    receive 5 3 (claimFrame 7 156 2210).bits = .claim 5 (hd 156 7 31) 2210#16 := by decide +kernel

/-- R119, R120: a wrong check word, a kind 14 and another station's frame reach no block. -/
theorem test_discards :
    Frame.accepted 3 ⟨6, 7, 15, 3, []⟩ 0 = false ∧
    Frame.accepted 3 ⟨14, 7, 15, 3, []⟩ (Frame.check ⟨14, 7, 15, 3, []⟩) = false ∧
    Frame.accepted 3 ⟨6, 7, 15, 4, []⟩ (Frame.check ⟨6, 7, 15, 4, []⟩) = false ∧
    Frame.accepted 3 ⟨6, 7, 15, 3, []⟩ (Frame.check ⟨6, 7, 15, 3, []⟩) = true := by decide +kernel

/-! ### Regions and the catalogue -/

/-- Region 41,007 of spec 01. -/
def r41007 : Region :=
  { id := 41007, format := ⟨true, false⟩, frames := 100000, loop := none, role := .home
    extents := [⟨5, 300, 120, 8⟩, ⟨5, 412, 0, 9⟩], state := .live, inUse := 0 }

/-- Spec 01, locating segments: segments 0, 47, 50 and 97. -/
theorem test_locate : r41007.segments = 98 ∧ pagesOf r41007.format 100000 = 17 ∧
    r41007.locate 0 = some (300, 120, 0) ∧ r41007.locate 47 = some (300, 127, 40) ∧
    r41007.locate 50 = some (412, 0, 16) ∧ r41007.locate 97 = some (412, 8, 8) ∧
    r41007.valid = true := by decide +kernel

/-- The layout tables: an INSTALL record of the item, read back as its region. -/
theorem test_log_record : ((item .appending).logRecord.take 20) =
      [0x1C, 0, 0, 60, 0, 0, 0x27, 0x10, 0, 0, 0, 0, 0, 0, 1, 2, 0, 1, 3, 1] ∧
    parseRecord (item .appending).logRecord =
      .install (regionOf 60 0 10000 0 0 [⟨2, 1, 3, 1⟩]) := by decide +kernel

/-! ### Positions, slack and the divider -/

/-- The gliding voice of spec 04. -/
def gliding : Voice :=
  { vc 0 7 with s0 := 8192, n := 3, d := 3, p := 622592000, r := 98304, target := 131072, step := 8192 }

/-- Spec 04, slack of a gliding voice. -/
theorem test_slack : gliding.slack 1000000 = 880 ∧ gliding.dryTick 1000000 = 1000880 ∧ gliding.consumed = 1 ∧
    gliding.hasRoom 8 = true ∧ (Voice.advanced^[4] gliding).p = 623034368 ∧
    (Voice.advanced^[4] gliding).dryTick 1000004 = 1000880 := by decide +kernel

/-- Spec 04, a scheduled voice under a forward load: 508,140, shifted to 511,140, then 509,140. -/
theorem test_load_scheduled :
    let v := { vc 0 7 with state := .scheduled 502000, s0 := 4096, n := 2, d := 2 }
    v.dryTick 500000 = 508140 ∧
      ({ v with dry := some 508140 }.loaded 500000 503000).dry = some 509140 := by decide +kernel

/-- Spec 03, a bar start: voice 301 keeps slack 0 under the load and takes 3,582 at the start. -/
theorem test_bar_start :
    let v := { vc 0 301 with state := .armed, s0 := 4096, n := 3, d := 3, r := 131072, target := 131072
                             dry := some 5004012 }
    (v.loaded 5005110 0).dry = some 0 ∧ ((v.loaded 5005110 0).started 0).dry = some 3582 := by decide +kernel

/-- R41: at 44,100 Hz 147 periods are 163,840 reference cycles, and the accumulator is back at 0. -/
theorem test_divider :
    (Nat.iterate (fun x : Nat × Nat => (x.1 + (SessionRate.hz44100.dividerPeriod x.2).1,
      (SessionRate.hz44100.dividerPeriod x.2).2)) 147 (0, 0)) = (163840, 0) := by decide +kernel

/-- Spec 02, a late start: p = 3,600,000, k = 7. -/
theorem test_late_start :
    let b := { bid 205 with start := 7168, captured := 1200000, rate := 40000, loopRequest := true }
    (b.create 0 1200090 true).p = 3600000 ∧ (b.create 0 1200090 true).cursor = some 7 ∧
      (b.create 0 1200090 true).state = .running ∧ (b.create 0 1200090 true).loopActive = true := by
  decide +kernel

/-- The four candidates of spec 02, a steal. -/
def dying (record tag frame floorP : Nat) : Voice :=
  { vc record tag with p := floorP * 65536, fin := some ⟨frame, .fade⟩ }

/-- Spec 02, a steal: tag 17 is the victim. -/
theorem test_victim : (State.stealVictim? { base with voices := [dying 0 902 40960 40460, dying 1 1377 300000 211000,
    { dying 2 260 600 0 with state := .armed }, dying 3 17 120000 119500, vc 4 3] }).map
      Voice.tag = some 17 := by decide +kernel

/-! ### One command each -/

/-- R39: at 48,000 Hz the accepted range is 1,014 to 1,034; 1,013 is ignored. -/
theorem test_edges :
    let s := { base with timebase := { base.timebase with source := .external, reference := some 50000 } }
    (after (.filteredEdge 51014 []) s).timebase.tick = 1001 ∧
    (after (.filteredEdge 51034 []) s).timebase.tick = 1001 ∧
    (after (.filteredEdge 51013 []) s).timebase.tick = 1000 := by decide +kernel

/-- Spec 03, a word clock interrupted: four stand-in ticks from reference 0, then a divider tick at 5,164. -/
theorem test_clock_lost :
    let s := { base with clock := 0, timebase := { base.timebase with
                 source := .external, reference := some 0, tick := 900000 } }
    let u := Nat.iterate (after (.standInTick [])) 4 s
    u.clock = 4140 ∧ u.timebase.source = .fallback ∧ u.timebase.tick = 900004 ∧
      u.notices.queue.map (·.body) = [.clock false 900004] ∧
      (after (.dividerTick []) u).clock = 5164 := by decide +kernel

/-- R46: the counter passes from 2^48 - 1 to 0. -/
theorem test_tick_wraps : (after (.dividerTick [])
    { base with timebase := { base.timebase with tick := 2 ^ 48 - 1 } }).timebase.tick = 0 := by decide +kernel

/-- R51: a load and a divider tick that arrive together at 50,024, in either order: 500 or 501, p = 0 or r. -/
theorem test_load_and_tick :
    let s := { withVoice { vc 0 7 with state := .armed } with
      clock := 50024, timebase := { base.timebase with load := some 500 } }
    let loadFirst := after (.dividerTick []) (after (.downbeatEvent 50024) s)
    let tickFirst := after (.downbeatEvent 50024) (after (.dividerTick []) { s with
      timebase := { s.timebase with dividerStart := 49000 } })
    (loadFirst.timebase.tick, loadFirst.voices.map (·.p), loadFirst.clock) = (501, [65536], 50024) ∧
      (tickFirst.timebase.tick, tickFirst.voices.map (·.p)) = (500, [0]) ∧
      (after (.dividerTick []) loadFirst).clock = 51048 := by decide +kernel

/-- Spec 04, running dry and a pending cut on one tick: an UNDERRUN, then RETIRED CUT at 10,236. -/
theorem test_dry_and_cut :
    let v := { vc 0 7 with d := 10, n := 10, cursor := some 10, p := 10233 * 65536, r := 196608, target := 196608
                           fin := some ⟨10300, .fade⟩, pendingEnd := some ⟨.cut, 70002⟩, loopActive := false }
    let s := { withVoice v with timebase := { base.timebase with tick := 70001 } }
    (after (.dividerTick []) s).voices = [] ∧
      ((after (.dividerTick []) s).notices.queue.map (·.body)).getLast? = some (.retired 7 .cut 10236) ∧
      ((after (.dividerTick []) s).notices.queue.map (·.body.rank)) = [0, 4] := by decide +kernel

/-- R99 and spec 06: a re-read's one bad sector is zeroed and reported; a good sector is kept. -/
theorem test_bad_sector :
    let s := withDie 1 { Die.reset with state := .read ⟨{ rq 7 1100 with attempt := .reRead }, false⟩ }
      { withVoice { vc 0 7 with n := 9, inFlight := some 8 } with
        media := { base.media with freeBuffers := 23 } }
    let u := after (.segmentReadEnd 60000 1 4#12) s
    u.notices.queue.map (·.body) = [.media 7 9310 1] ∧ u.delivery.queue = [] ∧
      (u.delivery.posting.map fun p => (p.address, p.seg.data.length, p.seg.data[1024]?, p.seg.data[0]?)) =
        some (65536 + 7 * 8 * 6144, 2048, some 0#8, some 0xFF#8) := by decide +kernel

/-- Spec 05, the skip at a late delivery: n and d become 7, gap 5,120 and 2,048, segment 7 issued. -/
theorem test_skip :
    let v := { vc 0 410 with r := 524288, target := 524288, cursor := some 6, n := 6, d := 5, p := 6198 * 65536
                             inFlight := some 5, fill := .late, dryFrame := some 5120, loopActive := false }
    let s := { withVoice v with delivery := { base.delivery with posting := some ⟨⟨410, 5, 2, []⟩, 0, false⟩ }
                                media := { base.media with freeBuffers := 23 } }
    let u := after (.postingEnd 60000) s
    (u.voices.map fun w => (w.n, w.d, w.inFlight, w.dry)) = [(8, 7, some 7, some 1120)] ∧
      (u.notices.queue.map (·.body)) = [.underrun 410 5120 2048 0] := by decide +kernel

/-- R145: CUT at once retires the voice with its final frame. -/
theorem test_end_cut :
    (after (.endRequest 60000 (hd 7 15 3) 0 0 0)
      (rx 3 (withVoice { vc 0 7 with p := 500 * 65536 + 9 }))).notices.queue.map (·.body) =
        [.retired 7 .cut 500] := by decide +kernel

/-- R114: a notice queued 4 cycles after another station's first transition contends; one cycle later it waits. -/
theorem test_contention :
    let s := { base with port := { bus := .idle, sending := none }, clock := 70000 }
    let at_ := fun t => after (.linkDown t) (after (.frameBegins 70000 2) (withVoice (vc 0 7) s))
    (at_ 70004).port.sending.isSome = true ∧ (at_ 70004).port.bus = .receiving 2 ∧
      (at_ 70005).port = { bus := .receiving 2, sending := none, rival := some ⟨2, 70000⟩ } := by decide +kernel

/-- R118: after a bit error of the station's CLAIM a contender's HALT goes on, and is taken. -/
theorem test_contender_goes_on :
    let s := after (.bitError 60001) (after (.frameBegins 60000 0) (sendingClaim { bid 9 with offer := .sending }))
    s.port = { bus := .receiving 0, sending := none } ∧
      (after (.halt 60100 (hd 0 15 31)) s).claims.bids = [] ∧
      (after (.halt 60100 (hd 0 15 31)) (after (.bitError 60001)
        (sendingClaim { bid 9 with offer := .sending }))).port.bus = .skipping := by decide +kernel

/-- R55, R56: target 0 becomes 4,096, and step 0 sets the rate at once. -/
theorem test_rate_clamps :
    ((after (.rate 60000 (hd 7 15 3) 0 0) (rx 4 (withVoice (vc 0 7)))).voices.map fun v => (v.r, v.target)) =
      [(4096, 4096)] := by decide +kernel

/-- R151: a FOLLOW for an absent region is refused NOT-HELD, an offset past the end RANGE. -/
theorem test_follow_refusals :
    (after (.follow 60000 (hd 7 15 3) 5 0) (rx 5 (withVoice (vc 0 7)))).notices.queue.map (·.body) =
      [.refused 5 .notHeld 7] ∧
    (after (.follow 60000 (hd 7 15 3) 9311 3072) (rx 5 (withVoice (vc 0 7)))).notices.queue.map (·.body) =
      [.refused 5 .range 7] := by decide +kernel

/-- R127 to R129: a NOTE makes an entry for a rounded offset and starts the home watch. -/
theorem test_note :
    let u := after (.note 60000 (hd 9 15 31) 9310 8000 0 40000 4) (rx 2 base)
    (u.claims.bids.map fun b => (b.tag, b.start, b.captured, b.expiry, b.loopRequest)) =
        [(9, 7168, 1000, 158304, true)] ∧
      (u.claims.watches.map fun w => (w.tag, w.expiry)) = [(9, 158304)] ∧
      u.uses? 9310 = some 1 := by decide +kernel

/-- R170, R130: PROBE answers with 8Q + 256B + floor(A / 2). -/
theorem test_probe :
    (after (.probe 60000 (hd 0 15 31) 9310)
      (rx 9 (withDie 1 { Die.reset with state := .busy (.erase 2), reads := [rq 7 9000] }
        { base with voices := [vc 0 7, vc 1 8] }))).notices.queue.map (·.body) =
      [.holds 9310 .home .live 265] := by decide +kernel

/-- R160: the tests' order: a taken id before a bad loop; a loop end off a segment is BAD-LOOP. -/
theorem test_install_refusals :
    (after (.install 60000 (hd 0 15 3) 9310 4 5000 1 2 0) (rx 10 base)).notices.queue.map (·.body) =
      [.refused 10 .exists_ 9310] ∧
    (after (.install 60000 (hd 0 15 3) 61 4 5000 0 5000 0) (rx 10 base)).notices.queue.map (·.body) =
      [.refused 10 .badLoop 61] := by decide +kernel

/-- R160 to R162: an admitted INSTALL reads page 0; loop end 5,120 covers 5 segments of 5,000 frames. -/
theorem test_install_admitted :
    let u := after (.install 60000 (hd 0 15 3) 61 4 5000 0 5120 4096) (rx 10 base)
    u.catalogue.owed = 1 ∧ u.catalogue.pendingInstalls = [61] ∧
      u.delivery.installRead = some ⟨10000, 4096, 60000⟩ := by decide +kernel

/-- R173: ring length 5 is BAD-CONFIG; a good CONFIGURE starts the divider at its instant. -/
theorem test_configure :
    (after (.configure 60000 (hd 0 15 3) 1 4096 5 1) (rx 12 base)).notices.queue.map (·.body) =
      [.refused 12 .badConfig 0] ∧
    (after (.configure 60000 (hd 0 15 3) 1 4096 4 4) (rx 12 base)).timebase.dividerStart = 60000 := by
  decide +kernel

/-- R178, R179 and spec 11, a full queue: the 33rd notice is dropped; the sent head leaves loss 1. -/
theorem test_notice_drop :
    let s := { withNotices (List.replicate 32 (note (.installed 1))) with
               port := { bus := .receiving 8, sending := some (.notice ((note (.installed 1)).frame 3 2)) } }
    let u := s.queueNotice 15 (.reclaimed 5)
    u.notices.queue.length = 32 ∧ u.notices.loss = 1 ∧
      (after (.noticeSent 60000) u).notices.loss = 1 ∧
      (after (.noticeSent 60000) u).notices.queue.length = 31 := by decide +kernel

/-- R101, R164: the log program's bytes stand at log sector 2, and the region is in the table. -/
theorem test_log_program :
    let s := withDie 0 { Die.reset with
        state := .busy (.program ⟨0, 0, 2, 1, .log (item .appending).logRecord⟩) }
      (withWork [.install (item .appending)])
    let u := after (.programComplete 60000 0 true) s
    (u.region? 60).isSome = true ∧ u.catalogue.appendPos = 3 ∧ u.media.flash.read 1024 = 0x1C#8 ∧
      (u.block 2 1).live = 4 := by decide +kernel

/-! ### The statements' hypotheses can be met -/

theorem witness_StepTakesFrontCommand :
    { base with pending := [.linkUp 5] }.pending = .linkUp 5 :: [] ∧ base.pending = [] := ⟨rfl, rfl⟩

theorem witness_CommandsStayInTheirBlocks :
    exec (.linkUp 60000) base = .next (after (.linkUp 60000) base) := rfl

/-- No operation under way, an erase on die 2, and a log append on die 0. -/
theorem witness_PowerOnResetKeepsTheFlash :
    (∀ d, d < 8 → (base.die d).state.longOp? = none) ∧
    (let s := withDie 2 { Die.reset with state := .busy (.erase 1) }
     (s.die 2).state.longOp? = some (.erase 1) ∧
      ∀ e, e < 8 → e ≠ 2 → (s.die e).state.longOp? = none) ∧
    (let p : Program := ⟨0, 0, 2, 1, .log [1]⟩
     let s := withDie 0 { Die.reset with state := .busy (.program p) }
     (s.die 0).state.longOp? = some (.program p) ∧ 0 < p.count ∧
      ∀ e, e < 8 → e ≠ 0 → (s.die e).state.longOp? = none) := by decide +kernel

/-- 48,000 Hz: count 11 of 256, the 256th edge, and EXTERNAL at both ends of the range and below it. -/
theorem witness_EdgesQualifyLockAndTick :
    { base with timebase := Timebase.reset }.timebase.source = .stopped ∧
    base.station.config = some ⟨.hz48000, 65536, 8, 3⟩ ∧ base.timebase.source = .fallback ∧
    (∀ q : Nat, { base with timebase := { base.timebase with
      qual := q, prevEdge := some 50000 } }.timebase.prevEdge = some 50000) ∧
    1014 ≤ 51014 - 50000 ∧ 51034 - 50000 ≤ 1034 ∧ 10 + 1 < 256 ∧ 256 ≤ 255 + 1 ∧ 51013 - 50000 < 1014 ∧
    SessionRate.hz48000.accepted = (1014, 1034) ∧
    { base with timebase := { base.timebase with source := .external
                                                 reference := some 50000 } }.timebase.reference = some 50000 := by
  refine ⟨rfl, rfl, rfl, fun _ => rfl, ?_⟩; decide

/-- A tick at the end of a period, and an owed one. -/
theorem witness_DividerTicksFollowThePeriods :
    base.station.config = some ⟨.hz48000, 65536, 8, 3⟩ ∧ base.timebase.source = .fallback ∧
    base.timebase.owedTick = false ∧ { base.timebase with owedTick := true }.source = .fallback :=
  ⟨rfl, rfl, rfl, rfl⟩

/-- Stand-in counts 2 (stays) and 3 (loses). -/
theorem witness_FourthStandInTickLosesTheClock :
    let s := fun n : Nat => { base with timebase := { base.timebase with
      source := .external, reference := some 50000, standIn := n } }
    (s 2).station.config = some ⟨.hz48000, 65536, 8, 3⟩ ∧ (s 2).timebase.source = .external ∧
      (s 2).timebase.reference = some 50000 ∧ (s 2).timebase.standIn < 3 ∧ 3 ≤ (s 3).timebase.standIn := by
  decide

/-- A divider tick, a stand-in tick, an edge in EXTERNAL and a locking edge; a voice in the middle, one that reaches its
end, one that reaches the limit, and one with a CUT due at tick 1,001; a voice at its dry point (frame 8,188 of 8,192
delivered) with a segment in flight and without, and one frame before it. -/
theorem witness_TickAdvancesRunningVoices :
    let ext := { base with timebase := { base.timebase with source := .external, reference := some 50000 } }
    let lock := { base with timebase := { base.timebase with qual := 255, prevEdge := some 50000 } }
    (base.station.config = some ⟨.hz48000, 65536, 8, 3⟩ ∧ base.ticksBy .hz48000 (.dividerTick []) ∧
      ext.ticksBy .hz48000 (.standInTick []) ∧ ext.ticksBy .hz48000 (.filteredEdge 51014 []) ∧
      lock.ticksBy .hz48000 (.filteredEdge 51034 [])) ∧
    (withVoice (vc 0 7)).tagsLawful ∧ vc 0 7 ∈ (withVoice (vc 0 7)).voices ∧ (vc 0 7).state = .running ∧
    (∃ e, (dying 0 7 100 99).fin = some e ∧ e.frame ≤ ((dying 0 7 100 99).p + (dying 0 7 100 99).r) / 65536) ∧
    4294901760 ≤ ((dying 0 7 100 4294901759).p + 65536) / 65536 ∧ 1001 ≤ (base.timebase.tick + 1) % 2 ^ 48 ∧
    (let v := { vc 0 7 with p := 8187 * 65536 }
     v.fill = .filling ∧ v.s0 + 1024 * v.d ≤ (v.p + v.r) / 65536 + 4 ∧ v.inFlight = none ∧ v.n = v.d ∧
      v.cursor.isSome ∧ { v with n := 9, inFlight := some 8 }.inFlight.isSome ∧
      (8186 * 65536 + v.r) / 65536 + 4 < v.s0 + 1024 * v.d ∧ home.frames = 20000 ∧ 8 < (home.frames + 1023) / 1024) ∧
    (∀ n ∈ base.notices.queue, n.isOpen → n.body.mergeKey ≠ some (false, 7)) := by
  refine ⟨⟨rfl, rfl, ⟨rfl, rfl⟩, .inl ⟨rfl, 50000, rfl, by decide⟩, .inr ⟨rfl, by decide, ⟨50000, rfl, by decide⟩,
    fun e h => by cases h⟩⟩, ?_, by decide, rfl, ⟨⟨100, .fade⟩, rfl, by decide⟩, by decide, by decide, by decide,
    fun n h => by cases h⟩
  unfold State.tagsLawful; decide

/-- Start ticks 1,001 and 1,002, an ARMED voice, and pending ends at 1,001 and 1,002, at tick 1,001; a FADE with an end
and without; a voice that does not run dry at the tick. -/
theorem witness_TicksStartVoicesAndApplyEnds :
    (∀ x e, (withVoice { vc 0 7 with state := x, pendingEnd := e }).tagsLawful) ∧
    (base.timebase.tick + 1) % 2 ^ 48 = 1001 ∧ 1001 ≤ 1001 ∧ 1001 < 1002 ∧
    base.station.config = some ⟨.hz48000, 65536, 8, 3⟩ ∧ base.ticksBy .hz48000 (.dividerTick []) ∧
    (∀ a, (none : Option PendingEnd) = some { mode := .cut, atTick := a } → 1001 < a) ∧
    (vc 0 7).fin = none ∧ (dying 0 7 100 9).fin.isSome ∧ 1 + 4 < (vc 0 7).firstMissing ∧
    { vc 0 7 with state := .armed }.state ≠ .running ∧ { vc 0 7 with state := .armed }.p = 0 := by
  refine ⟨fun x e => ?_, by decide, by decide, by decide, rfl, rfl, (fun a h => by cases h), rfl, rfl, by decide,
    (fun h => by cases h), rfl⟩
  simp [State.tagsLawful, withVoice, base, vc]

theorem witness_LineLinkAndBusEvents :
    { base with timebase := { base.timebase with driving := some 5 } }.timebase.driving = some 5 ∧
    base.port.bus = .skipping ∧ State.reset.port.bus = .seeking ∧
    ((rx 2 base).port.bus = .receiving 2 ∧ (rx 2 base).port.rival = none ∧ (rx 2 base).port.sending = none) ∧
    { base with port := { bus := .idle, sending := none } }.port.bus = .idle ∧
    ((sendingClaim (bid 9)).port.bus = .receiving 1 ∧ (sendingClaim (bid 9)).port.rival = none ∧
      (sendingClaim (bid 9)).port.sending.isSome) ∧
    (after (.frameBegins 60000 0) (sendingClaim (bid 9))).port.rival = some ⟨0, 60000⟩ :=
  ⟨rfl, rfl, rfl, ⟨rfl, rfl, rfl⟩, rfl, ⟨rfl, rfl, rfl⟩, rfl⟩

/-- With and without a load; a divider tick due at 50,024, the instant of the event. -/
theorem witness_DownbeatAppliesLoadAndStartsVoices :
    base.station.state = .configured ∧ base.timebase.pulseTaken = false ∧ base.timebase.load = none ∧
    { base with timebase := { base.timebase with load := some 0 } }.timebase.load = some 0 ∧
    base.timebase.dividerDue .hz48000 = max base.clock 50024 ∧
    State.reset.station.state ≠ .configured ∧
    { base with timebase := { base.timebase with pulseTaken := true } }.timebase.pulseTaken = true := by
  refine ⟨rfl, rfl, rfl, rfl, by decide, ?_, rfl⟩; exact fun h => by cases h

theorem witness_TimebaseFrameSetsLoadOrDrive :
    (rx 7 base).takes (hd 0 15 31) ∧ (rx 7 base).takes (hd 0 15 3) := ⟨⟨rx_receiving _ _ rfl, .inr rfl⟩, ⟨rx_receiving _ _ rfl, .inl rfl⟩⟩

/-- An idle with a ready entry and with one that is not ready; a contention at both ends of one bit-time. -/
theorem witness_OfferChoosesTheLowestBid :
    (withBid (bid 9)).port.sending = none ∧ (withBid (bid 9)).port.bus = .skipping ∧ (withBid (bid 9)).settled ∧
    (withBid (bid 9)).bidReady (bid 9) = true ∧ (withBid { bid 9 with window := .closed }).bidReady
      { bid 9 with window := .closed } = false ∧
    (let s := { withBid (bid 9) with port := { bus := .receiving 2, sending := none, rival := some ⟨2, 49996⟩ } }
     s.port.sending = none ∧ s.settled ∧ s.clock ≤ 49996 + 4 ∧ 49995 + 4 < s.clock ∧ s.offerBid? = some (bid 9)) ∧
    (withNotices [note (.installed 1)]).offerBid? = none :=
  ⟨rfl, rfl, rfl, by decide +kernel, by decide +kernel, ⟨rfl, rfl, by decide, by decide, by decide +kernel⟩,
    by decide +kernel⟩

theorem witness_UnreceivedFramesHaveNoEffect :
    (rx 8 base).receiving ∧ Frame.accepted 3 ⟨6, 7, 15, 3, []⟩ 0 = false :=
  ⟨rx_receiving _ _ rfl, by decide +kernel⟩

/-- Another station's number, and a station in STARTING. -/
theorem witness_FramesTurnedAwayHaveNoEffect :
    (rx 6 base).receiving ∧
    (hd 7 15 4).addressee.toNat ≠ base.station.number ∧ (hd 7 15 4).addressee ≠ 31#5 ∧
    (rx 2 State.reset).receiving ∧ (rx 2 State.reset).station.state = .starting ∧ 2 ∈ [0, 2, 7, 9, 10, 11, 12, 13] :=
  ⟨rx_receiving _ _ rfl, by decide, by decide, rx_receiving _ _ rfl, rfl, by decide⟩

/-- An entry whose window is OPEN, and one whose window has CLOSED; alone on the bus, and with a contender. -/
theorem witness_LostClaimsReturnToWaiting :
    (∀ w : Window,
      (sendingClaim { bid 9 with window := w, offer := .sending }).port.sending =
        some (.claim (bid 9).tag (claimFrame 3 0 9)) ∧
      { bid 9 with window := w, offer := .sending } ∈
        (sendingClaim { bid 9 with window := w, offer := .sending }).claims.bids ∧
      ((sendingClaim { bid 9 with window := w, offer := .sending }).claims.bids.map (·.tag)).Nodup) ∧
    (sendingClaim (bid 9)).port.rival = none ∧
    (after (.frameBegins 60000 0) (sendingClaim (bid 9))).port.rival = some ⟨0, 60000⟩ := by
  refine ⟨fun w => ?_, rfl, rfl⟩; simp [sendingClaim, withBid, bid]

theorem witness_NoticeOutcomesMoveTheQueue :
    let s := { withNotices [note (.installed 1)] with
               port := { bus := .receiving 8, sending := some (.notice ((note (.installed 1)).frame 3 0)) } }
    s.port.sending = some (.notice ((note (.installed 1)).frame 3 0)) ∧
      s.notices.queue = [note (.installed 1)] := ⟨rfl, rfl⟩

/-- 31 notices, 32 notices, a queue with no open notice; an open UNDERRUN behind another notice, and one whose frame is
on the bus, with and without an addendum. -/
theorem witness_NoticesJoinMergeOrDrop :
    (∀ n ∈ List.replicate 32 (note (.installed 1)), n.isOpen = true → False) ∧
    (withNotices (List.replicate 31 (note (.installed 1)))).notices.queue.length < 32 ∧
    32 ≤ (withNotices (List.replicate 32 (note (.installed 1)))).notices.queue.length ∧
    (note (.underrun 7 0 5 1)).isOpen = true ∧ (NoticeBody.underrun 7 9 9 1).mergeKey.isSome = true ∧
    (note (.underrun 7 0 5 1)).body.mergeKey = (NoticeBody.underrun 7 9 9 1).mergeKey ∧
    (withNotices [note (.installed 1), note (.underrun 7 0 5 1)]).notices.queue =
      [note (.installed 1)] ++ note (.underrun 7 0 5 1) :: [] ∧
    (∀ m ∈ [note (.installed 1)], m.isOpen = true → m.body.mergeKey ≠ (NoticeBody.underrun 7 9 9 1).mergeKey) ∧
    (let s := { withNotices [note (.underrun 7 0 5 1)] with
                port := { bus := .receiving 8, sending := some (.notice ((note (.underrun 7 0 5 1)).frame 3 0)) } }
     s.notices.queue = [] ++ note (.underrun 7 0 5 1) :: [] ∧ s.port.sending.isSome = true ∧ s.notices.addendum = none ∧
      { s.notices with addendum := some (NoticeBody.underrun 7 1 1 1) }.addendum.map NoticeBody.mergeKey =
        some (NoticeBody.underrun 7 9 9 1).mergeKey) := by decide

theorem witness_FramesAssembleToWhatWasSent :
    Frame.wellFormed ⟨15, 4095, 15, 31, List.replicate 24 0xFF⟩ = true ∧ Frame.wellFormed ⟨0, 0, 0, 0, []⟩ = true := by
  decide

theorem witness_NoteFramesReachTheClaimUnit : (hd 0 0 3).addressee.toNat = 3 ∧ (hd 0 0 31).addressee = 31#5 := by
  decide

/-- The greatest value of every field, with 16 extents. -/
theorem witness_LogRecordsReadBackAsWritten :
    let e : Extent := ⟨255, 65535, 255, 255⟩
    let i := { item .appending with region := 2 ^ 24 - 1, format := 255, frames := 2 ^ 24 - 1
                                    loopStart := 2 ^ 24 - 1, loopEnd := 2 ^ 24 - 1
                                    extents := List.replicate 16 e }
    i.region < 2 ^ 24 ∧ i.format < 2 ^ 8 ∧ i.frames < 2 ^ 24 ∧ i.loopStart < 2 ^ 24 ∧ i.loopEnd < 2 ^ 24 ∧
      i.extents.length ≤ 16 ∧
      ∀ e ∈ i.extents, e.die < 2 ^ 8 ∧ e.block < 2 ^ 16 ∧ e.first < 2 ^ 8 ∧ e.count < 2 ^ 8 := by decide +kernel

/-- A table of 512 records, of which tag 17's alone has an end. -/
def full : State :=
  { sendingClaim { bid 1000 with offer := .sending } with
    voices := (List.range 512).map fun i => if i = 17 then dying 17 17 120000 119500 else vc i i
    port := { bus := .receiving 1, sending := some (.claim 1000 (claimFrame 3 0 1000)) } }

theorem full_field (f : Voice → Nat) (h : ∀ i, f (if i = 17 then dying 17 17 120000 119500 else vc i i) = i) :
    full.voices.map f = List.range 512 := by
  simp only [full, List.map_map]
  rw [show f ∘ (fun i => if i = 17 then dying 17 17 120000 119500 else vc i i) = id from funext h, List.map_id]

theorem full_tags : full.voices.map (·.tag) = List.range 512 := full_field _ fun i => by
  by_cases h : i = 17 <;> simp [h, dying, vc]

theorem full_records : full.voices.map (·.record) = List.range 512 := full_field _ fun i => by
  by_cases h : i = 17 <;> simp [h, dying, vc]

theorem full_tagsLawful : full.tagsLawful := by
  refine ⟨full_tags ▸ List.nodup_range, full_records ▸ List.nodup_range, fun v hv => ?_, by decide, fun v hv b hb => ?_⟩
  · have := List.mem_map_of_mem (f := (·.record)) hv
    rw [full_records] at this; exact List.mem_range.mp this
  · have := List.mem_map_of_mem (f := (·.tag)) hv
    rw [full_tags, List.mem_range] at this
    simp only [full, sendingClaim, withBid, List.mem_singleton] at hb
    subst hb; simp only [bid]; omega

/-- A win with record 0 free, and one with no free record and a steal victim. -/
theorem witness_WonClaimCreatesTheVoice :
    ((sendingClaim (bid 9)).port.sending = some (.claim 9 (claimFrame 3 0 9)) ∧
      (sendingClaim (bid 9)).bid? 9 = some (bid 9) ∧ (sendingClaim (bid 9)).tagsLawful ∧
      (sendingClaim (bid 9)).idleRecord? = some 0) ∧
    (full.port.sending = some (.claim 1000 (claimFrame 3 0 1000)) ∧ (full.bid? 1000).isSome ∧ full.tagsLawful ∧
      full.idleRecord? = none ∧ full.stealVictim?.map (·.tag) = some 17) := by
  refine ⟨⟨rfl, by decide +kernel, ?_, by decide +kernel⟩, rfl, by decide +kernel, full_tagsLawful, ?_, by decide +kernel⟩
  · unfold State.tagsLawful; decide
  · unfold State.idleRecord?
    rw [List.find?_eq_none]
    intro i hi h
    rw [List.all_eq_true] at h
    rw [← full_records] at hi
    obtain ⟨v, hv, rfl⟩ := List.mem_map.mp hi
    simpa using h v hv

theorem witness_HeardClaimWithdrawsAndYields :
    (rx 1 (withVoice (vc 0 7))).receiving ∧ (rx 1 (withVoice (vc 0 7))).station.state = .configured ∧
    (rx 1 (withVoice (vc 0 7))).voice? 7 = some (vc 0 7) ∧ (rx 1 (withVoice (vc 0 7))).bid? 7 = none ∧
    (rx 1 (withBid (bid 7))).receiving ∧ (rx 1 (withBid (bid 7))).bid? 7 = some (bid 7) ∧
    (rx 1 (withBid (bid 7))).voice? 7 = none ∧ (rx 1 base).bid? 7 = none ∧ (rx 1 base).voice? 7 = none ∧
    (rx 1 { base with station := { base.station with state := .unconfigured } }).receiving :=
  ⟨rx_receiving _ _ rfl, rfl, rfl, rfl, rx_receiving _ _ rfl, rfl, rfl, rfl, rfl, rx_receiving _ _ rfl⟩

/-- Start modes 0 to 3, for a tag with a voice; a station that is UNCONFIGURED. -/
theorem witness_NoteMakesABidEntry :
    (rx 2 (withVoice (vc 0 9))).takes (hd 9 15 31) ∧ (rx 2 (withVoice (vc 0 9))).station.state = .configured ∧
    (rx 2 (withVoice (vc 0 9))).voice? 9 = some (vc 0 9) ∧
    startModeOf 0 5 = some .immediate ∧ startModeOf 5 5 = some (.atTick 5) ∧ startModeOf 2 5 = some .armed ∧
    (7#8).toNat % 4 = 3 ∧
    (let s := rx 2 { base with station := { base.station with state := .unconfigured } }
     s.takes (hd 9 15 31) ∧ s.station.state ≠ .configured) :=
  ⟨⟨rx_receiving _ _ rfl, .inr rfl⟩, rfl, rfl, rfl, rfl, rfl, rfl, ⟨rx_receiving _ _ rfl, .inr rfl⟩, fun h => by cases h⟩

/-- An offset in range, and one past the 20,000 frames of the HOME region. -/
theorem witness_NoteStartsTheHomeWatch :
    (rx 2 base).takes (hd 9 15 3) ∧ (rx 2 base).station.state = .configured ∧
    startModeOf 0 5 = some .immediate ∧ (rx 2 base).region? 9310 = some home ∧ home.role = .home ∧
    home.frames ≤ (20480#32).toNat / 1024 * 1024 :=
  ⟨⟨rx_receiving _ _ rfl, .inl rfl⟩, rfl, rfl, rfl, rfl, by decide⟩

theorem witness_BidWindowsClose : ∀ o : Offer,
    (withBid { bid 9 with offer := o }).bid? (9#12).toNat = some { bid 9 with offer := o } := by
  intro o; simp [withBid, State.bid?, bid]

/-- While a CLAIM is received, while a NOTE is received, at a CLAIM cut short, and on an IDLE bus. -/
theorem witness_WatchesDeclineUnclaimedNotes :
    (∀ k due,
      let s := rx k { base with claims := { bids := [], watches := [wt false due] } }
      s.watch? (9#12).toNat = some (wt false due) ∧ s.port.bus = .receiving k ∧ s.port.sending = none ∧
        s.port.rival = none ∧ s.settled ∧ s.notices.queue.length < 32 ∧ s.claims.watches = [wt false due]) ∧
    ∀ heard,
      let s := { base with claims := { bids := [], watches := [wt heard false] }
                           port := { bus := .idle, sending := none } }
      s.watch? (9#12).toNat = some (wt heard false) ∧ s.port.bus ≠ .receiving 1 ∧ s.port.bus = .idle ∧
        s.port.sending = none ∧ s.port.rival = none ∧ s.notices.queue = [] ∧ s.claims.bids = [] ∧ s.settled := by
  constructor
  · intro k due; simp [rx, State.watch?, wt, State.settled, base]
  · intro heard; simp [State.watch?, wt, State.settled, base]

/-- An owned voice, a pending entry, and neither. -/
theorem witness_RateSetsThePositionFields :
    (rx 4 base).takes (hd 7 15 3) ∧ (rx 4 (withVoice (vc 0 7))).voice? 7 = some (vc 0 7) ∧
    ((rx 4 (withBid (bid 7))).voice? 7 = none ∧ (rx 4 (withBid (bid 7))).bid? 7 = some (bid 7)) ∧
    (rx 4 base).voice? 7 = none ∧ (rx 4 base).bid? 7 = none := ⟨⟨rx_receiving _ _ rfl, .inl rfl⟩, rfl, ⟨rfl, rfl⟩, rfl, rfl⟩

/-- Every mode, with and without an at-tick; a FADE with and without an end; a pending entry. -/
theorem witness_EndActsByItsMode :
    (rx 3 base).takes (hd 7 15 3) ∧ (rx 3 (withVoice (vc 0 7))).voice? 7 = some (vc 0 7) ∧ (vc 0 7).fin = none ∧
    (rx 3 (withVoice (dying 0 7 100 9))).voice? 7 = some (dying 0 7 100 9) ∧ (dying 0 7 100 9).fin.isSome ∧
    (rx 3 base).settled ∧ (rx 3 base).notices.queue.length < 32 ∧
    ((3#8).toNat % 4 = 3 ∧ (2#8).toNat % 4 = 2 ∧ (5#8).toNat % 4 = 1 ∧ (5#8).getLsbD 2 = true ∧
      (0#8).getLsbD 2 = false ∧ base.timebase.tick < (1001#48).toNat ∧ (1000#48).toNat ≤ base.timebase.tick) ∧
    (rx 3 (withBid (bid 7))).voice? 7 = none ∧ (rx 3 (withBid (bid 7))).bid? 7 = some (bid 7) ∧
    ((rx 3 base).voice? 7 = none ∧ (rx 3 base).bid? 7 = none ∧ (rx 3 base).readyLawful) :=
  ⟨⟨rx_receiving _ _ rfl, .inl rfl⟩, rfl, rfl, rfl, rfl, rfl, by decide, by decide, rfl, rfl, rfl, rfl, rfl⟩

/-- An owned voice, and a station with a bid entry alone. -/
theorem witness_FollowIsTestedInOrder :
    ((rx 5 (withBid (bid 7))).takes (hd 7 15 3) ∧ (rx 5 (withBid (bid 7))).voice? 7 = none) ∧
    (rx 5 (withVoice (vc 0 7))).takes (hd 7 15 3) ∧ (rx 5 (withVoice (vc 0 7))).voice? 7 = some (vc 0 7) ∧
    (rx 5 (withVoice (vc 0 7))).followRefusal (vc 0 7) 9311 2048 = none :=
  ⟨⟨⟨rx_receiving _ _ rfl, .inl rfl⟩, rfl⟩, ⟨rx_receiving _ _ rfl, .inl rfl⟩, rfl, by decide +kernel⟩

theorem witness_UnfollowEmptiesTheSlot :
    (rx 6 base).takes (hd 7 15 3) ∧
    (rx 6 (withVoice { vc 0 7 with follow := some ⟨9311, 0⟩ })).voice? 7 =
      some { vc 0 7 with follow := some ⟨9311, 0⟩ } ∧
    (∀ v, (rx 6 base).voice? 7 = some v → v.follow = none) := ⟨⟨rx_receiving _ _ rfl, .inl rfl⟩, rfl, fun v h => by cases h⟩

theorem witness_HaltEmptiesTheStation :
    (rx 0 base).takes (hd 0 15 31) ∧ (rx 0 base).station.state ≠ .starting ∧
    (rx 0 State.reset).takes (hd 0 15 31) ∧ (rx 0 State.reset).station.state = .starting :=
  ⟨⟨rx_receiving _ _ rfl, .inr rfl⟩, (fun h => by cases h), ⟨rx_receiving _ _ rfl, .inr rfl⟩, rfl⟩

theorem witness_ProbeAnswersForHeldRegions : (rx 9 base).takes (hd 0 15 31) := ⟨rx_receiving _ _ rfl, .inr rfl⟩

/-- Admitted alone, admitted behind another item, admitted with the page buffer held, and refused. -/
theorem witness_InstallIsTestedInOrder :
    (rx 10 base).takes (hd 0 15 3) ∧ (rx 10 base).station.state ≠ .starting ∧ (rx 10 base).settled ∧
    (rx 10 base).installer.work = [] ∧ (rx 10 base).installer.held = false ∧
    (rx 10 base).installRefusal ⟨15, 61, 4, 5000, 0, 5120, 4096⟩ = none ∧
    (rx 10 (withWork [.install (item .reading)])).installRefusal ⟨15, 61, 4, 5000, 0, 5120, 4096⟩ = none ∧
    (rx 10 { base with installer := { base.installer with held := true } }).installRefusal
      ⟨15, 61, 4, 5000, 0, 5120, 4096⟩ = none ∧
    (rx 10 base).installRefusal ⟨15, 61, 4, 5000, 0, 5000, 4096⟩ = some .badLoop :=
  ⟨⟨rx_receiving _ _ rfl, .inl rfl⟩, (fun h => by cases h), rfl, rfl, rfl, by decide +kernel, by decide +kernel,
    by decide +kernel, by decide +kernel⟩

theorem witness_ReclaimIsTestedInOrder :
    let s := rx 11 (withDie 0 { Die.reset with state := .busy (.erase 2) })
    s.takes (hd 0 15 3) ∧ s.station.state ≠ .starting ∧ s.settled ∧ s.installer.held = false ∧
    (s.die 0).state ≠ .idle ∧ s.reclaimRefusal 9310 = none ∧ s.reclaimRefusal 5 = some .absent :=
  ⟨⟨rx_receiving _ _ rfl, .inl rfl⟩, (fun h => by cases h), rfl, rfl, by decide +kernel, by decide +kernel, by decide +kernel⟩

/-- Refused and admitted; a die that is IDLE and one that is not; an erase of the WIPE that ends, with two left and with
one, on a LOG block and on another. -/
theorem witness_WipeEmptiesTheCatalogue :
    (let s := rx 13 (withDie 2 { Die.reset with state := .busy (.erase 2) })
     s.takes (hd 0 15 3) ∧ s.station.state ≠ .starting ∧ s.installer.work = [] ∧ s.voices = [] ∧ s.claims.bids = [] ∧
      s.settled ∧ (∀ die ∈ s.media.dies, ∀ op ∈ die.longOps, op.isProgram = false) ∧ (s.die 2).state ≠ .idle ∧
      (s.die 1).state = .idle ∧ (s.die 1).reads = [] ∧ (s.die 1).longOps = [] ∧
      (List.range (s.dieBlocks 1).blocks.length).filter (fun b =>
        (s.block 1 b).state ≠ .queued ∧ (s.block 1 b).state ≠ .erasing) = [0, 1]) ∧
    ¬(withVoice (vc 0 7)).voices = [] ∧
    ∀ b left, b < 2 →
      let s := withDie 0 { Die.reset with state := .busy (.erase b) } (withWork [.wipe 15 0 left 1])
      s.opEnds 60000 0 (.erase b) true (.eraseComplete 60000 0 true) ∧ s.installer.work = [.wipe 15 0 left 1] ∧
        s.settled ∧ ∀ die ∈ s.media.dies, ∀ op ∈ die.longOps, op.isProgram = false := by
  refine ⟨⟨⟨rx_receiving _ _ rfl, .inl rfl⟩, (fun h => by cases h), rfl, rfl, rfl, rfl, by decide +kernel,
    by decide +kernel, by decide +kernel, by decide +kernel, by decide +kernel, by decide +kernel⟩, by decide,
    fun b left _ => ⟨.inl ⟨rfl, rfl⟩, rfl, rfl, ?_⟩⟩
  simp [withDie, withWork, base, Die.reset, List.replicate]

/-- The last ring area that fits below 2^64, and one that does not. -/
theorem witness_ConfigureSetsTheSession :
    (rx 12 State.reset).takes (hd 0 15 31) ∧ (rx 12 State.reset).station.state = .starting ∧
    (rx 12 base).takes (hd 0 15 3) ∧ (rx 12 base).station.state ≠ .starting ∧ (rx 12 base).voices = [] ∧
    (rx 12 base).claims.bids = [] ∧ ¬(withVoice (vc 0 7)).voices = [] ∧
    (configurationOf 5 (.ofNat 64 (2 ^ 64 - 4096 * 4 * 6144)) 4 4).isSome = true ∧
    configurationOf 5 (.ofNat 64 (2 ^ 64 - 4096 * 4 * 6144 + 4096)) 4 4 = none :=
  ⟨⟨rx_receiving _ _ rfl, .inr rfl⟩, rfl, ⟨rx_receiving _ _ rfl, .inl rfl⟩, (fun h => by cases h), rfl, rfl, by decide, by decide +kernel, by decide +kernel⟩

/-- The scan at log sector `n` over a flash whose sector 0 holds bytes of no log record. -/
def scanning (n : Nat) : State :=
  withDie 0 { Die.reset with state := .logRead n }
    { base with
      station := { state := .starting, number := 3, config := none }
      catalogue := { base.catalogue with scan := some ⟨n, 0⟩ }
      media := { base.media with flash := { cells := [(0, 0#8), (5, 1#8)], unknown := [] } } }

/-- The scan at log sector `n`, which a failed log program has passed over. -/
def scanningPassed (n : Nat) : State :=
  { scanning n with media := { (scanning n).media with flash := Flash.erased.scramble n 1 0 .passedOver } }

theorem passed_notErased (n : Nat) (bad : Bool) : ¬(scanningPassed n).media.flash.readsErased n bad := fun h =>
  h.2.1 (by simp [scanningPassed, Flash.cause?, Flash.scramble, UnknownRun.covers])

/-- An erased sector, and the log's last sector, passed over. -/
theorem witness_ErasedSectorEndsTheScan :
    (((scanning 1).die 0).state = .logRead 1 ∧ (scanning 1).catalogue.scan = some ⟨1, 0⟩ ∧
      (scanning 1).media.flash.readsErased 1 true ∧ (scanning 1).settled ∧
      ∀ die ∈ (scanning 1).media.dies, die.longOps = []) ∧
    (((scanningPassed 49151).die 0).state = .logRead 49151 ∧
      (scanningPassed 49151).catalogue.scan = some ⟨49151, 0⟩ ∧ 49151 + 1 = 49152 ∧
      ¬(scanningPassed 49151).media.flash.readsErased 49151 false ∧ (scanningPassed 49151).settled ∧
      ∀ die ∈ (scanningPassed 49151).media.dies, die.longOps = []) :=
  ⟨⟨rfl, rfl, ⟨by decide +kernel, by decide +kernel, by decide +kernel⟩, rfl, by decide +kernel⟩,
    rfl, rfl, rfl, passed_notErased _ _, rfl, by decide +kernel⟩

/-- A sector that holds no record, and one passed over. -/
theorem witness_ScanReplaysTheLog :
    (((scanning 0).die 0).state = .logRead 0 ∧ (scanning 0).catalogue.scan = some ⟨0, 0⟩ ∧ 0 + 1 < 49152 ∧
      (scanning 0).settled ∧ ¬(scanning 0).media.flash.readsErased 0 false ∧
      (scanning 0).media.flash.recordAt 0 false = .other) ∧
    ((scanningPassed 3).catalogue.scan = some ⟨3, 0⟩ ∧ ((scanningPassed 3).die 0).state = .logRead 3 ∧
      ¬(scanningPassed 3).media.flash.readsErased 3 false ∧
      (scanningPassed 3).media.flash.cause? 3 = some .passedOver) := by
  refine ⟨⟨rfl, rfl, by decide, rfl, fun h => ?_, by decide +kernel⟩, rfl, rfl, passed_notErased _ _, by decide +kernel⟩
  exact absurd (h.1 0 (by decide)) (by decide +kernel)

/-- R15: a log sector passed over is skipped, and one whose append a reset abandoned is skipped when it reads
uncorrectable. -/
theorem test_passed_over : ∀ bad, (Flash.erased.scramble 3 1 0 .passedOver).logRecord? 3 bad = some .other := by
  intro bad
  have h : (Flash.erased.scramble 3 1 0 .passedOver).cause? 3 = some .passedOver := rfl
  simp [Flash.logRecord?, h]

theorem test_abandoned (record : List Byte) :
    (Flash.erased.scramble 3 1 0 (.abandoned record)).logRecord? 3 true = some .other := by
  have h : (Flash.erased.scramble 3 1 0 (.abandoned record)).cause? 3 = some (.abandoned record) := rfl
  simp [Flash.logRecord?, h]

/-- Die 2 at work on an operation on a block, with a work list; its blocks are `blocks`. -/
def atWork (op : LongOp) (work : List WorkItem) (blocks : List Block := (blocksOf 2).blocks) : State :=
  withDie 2 { Die.reset with state := .busy op }
    { withWork work with
      catalogue := { base.catalogue with blockTable := List.replicate 3 { blocks := blocks, free := [] } }
      installer := { work := work, pageBuffer := List.replicate 2048 7#8, held := false } }

/-- What the second part of LongOpsWriteTheFlash asks of every state. -/
def atWorkLawful (s : State) (b : Nat) : Bool :=
  s.media.frontFailed.isEmpty && 2 < s.media.dies.length && 2 < s.catalogue.blockTable.length &&
    b < (s.dieBlocks 2).blocks.length && s.media.dies.all fun die => die.longOps.all fun op => !op.isProgram

/-- A page of four sectors. -/
def pageProgram : Program := ⟨1, 3, 0, 4, .page⟩

/-- An install of `frames` frames in PROGRAMMING. -/
def installOf (frames : Nat) : InstallItem := { item .programming with frames := frames }

/-- A program of four sectors and an erase, by a completion and by a suspend report; an erase alone; an install that
waits for a block (the erase succeeds, or fails with no other block); a page that is not the last, the last one, and one
that fails. -/
theorem witness_LongOpsWriteTheFlash :
    (let s := atWork (.program pageProgram) []
     2 < s.media.fronts.length ∧ 1 < (s.media.fronts.getD 2 []).length ∧
      (s.programData pageProgram).length = pageProgram.count * 512) ∧
    (∀ op work blocks, ((atWork op work blocks).die 2).state = .busy op) ∧
    (∀ ok, (withDie 2 { Die.reset with state := .suspendPending (.erase 1) }).opEnds 60000 2 (.erase 1) ok
      (.suspendReported 60000 2 (.completed ok))) ∧
    (atWorkLawful (atWork (.erase 2) []) 2 = true ∧ (atWork (.erase 2) []).installer.wiping = false) ∧
    (let s := atWork (.erase 2) [.install (item .waitingBlock)] [Block.log, Block.log, ⟨.erasing, 0, 0⟩]
     atWorkLawful s 2 = true ∧ (item .waitingBlock).die = 2 ∧ (s.block 2 2).state ≠ .log ∧
      (s.dieBlocks 2).openBlock? = none ∧ (s.dieBlocks 2).free = [] ∧
      ∀ k, k < 2 → (s.block 2 k).state ≠ .queued ∧ (s.block 2 k).state ≠ .erasing) ∧
    (let s := atWork (.program pageProgram) [.install (installOf 12289)]
     atWorkLawful s 1 = true ∧ (installOf 12289).die = 2 ∧ (s.block 2 1).state = .opened 3 ∧
      (installOf 12289).q + 1 < (installOf 12289).pages) ∧
    (let s := atWork (.program pageProgram) [.install (installOf 12288)]
     atWorkLawful s 1 = true ∧ (s.block 2 1).state = .opened 3 ∧ (installOf 12288).pages ≤ (installOf 12288).q + 1 ∧
      (s.fronts 0).getD (s.catalogue.appendPos / 6144) 0 ≤ s.catalogue.appendPos % 6144) := by
  refine ⟨by decide +kernel, fun _ _ _ => rfl, fun ok => .inr ⟨rfl, rfl⟩, by decide +kernel, by decide +kernel,
    by decide +kernel, by decide +kernel⟩

/-- An INSTALL record and a VOID record, in success and in failure; a block with the install's page pending, and a FULL
one with none; region 9,310 has the live pages of a FULL block. -/
theorem witness_LogAppendInstallsTheRegion :
    let record := (item .appending).logRecord
    let p : Program := ⟨0, 0, 2, 1, .log record⟩
    let s := fun l => withDie 0 { Die.reset with state := .busy (.program p) } (withWork l)
    (∀ l ok, (s l).opEnds 60000 0 (.program p) ok (.programComplete 60000 0 ok) ∧ (s l).settled) ∧
      (s [.install (item .appending)]).notices.queue.length < 32 ∧ 0 < p.count ∧
      (1 < ((s []).dieBlocks 2).blocks.length ∧ ((s []).block 2 1).state ≠ .queued ∧
        ¬((s []).block 2 1).state = .full ∧ pagesIn (item .appending).extents 2 1 = 1) ∧
      (∀ die ∈ (s []).media.dies, ∀ op ∈ die.longOps, op.isProgram = false) ∧
      (s [.reclaim 15 9310 true]).region? 9310 = some home ∧
      (let u := { s [.reclaim 15 9310 true] with catalogue := { base.catalogue with
          blockTable := List.replicate 2 { blocks := [⟨.log, 0, 0⟩, ⟨.full, 2, 0⟩], free := [] } } }
       (u.block 1 1).state = .full ∧ (u.block 1 1).live - pagesIn home.extents 1 1 = 0) :=
  ⟨fun l ok => ⟨.inl ⟨rfl, rfl⟩, rfl⟩, by decide, by decide, by decide +kernel, by decide +kernel, rfl, by decide +kernel⟩

/-- A read of tag 7 under way on die 1, with a posting under way; its voice's dry tick is `dry`. -/
def reading (dry : Nat) (attempt : Attempt) : State :=
  withDie 1 { Die.reset with state := .read ⟨{ rq 7 dry with attempt := attempt }, false⟩ }
    { withVoice { vc 0 7 with n := 9, inFlight := some 8, dry := some dry } with
      delivery := { base.delivery with posting := some ⟨⟨5, 0, 2, []⟩, 0, true⟩ }
      media := { base.media with freeBuffers := 22 } }

/-- The same with another voice's read waiting. -/
def readingBehind (dry : Nat) : State :=
  let s := reading 2025 .first
  { s with media := { s.media with dies := s.media.dies.modify 1 fun x => { x with reads := [rq 8 dry] } } }

/-- R94, R98: with no buffer free the read at the head, due earlier, takes the buffer that the re-read keeps. -/
theorem test_reread_gives_its_buffer :
    let s := readingBehind 900
    let u := after (.segmentReadEnd 60000 1 8#12) { s with media := { s.media with freeBuffers := 0 } }
    u.die 1 = { Die.reset with state := .read ⟨rq 8 900, false⟩
                               reads := [{ rq 7 2025 with attempt := .reRead }] } ∧ u.media.freeBuffers = 0 := by
  decide +kernel

/-- R99: the bytes of any read, whichever of its sectors are bad, make a delivery. -/
theorem delivered_exists (s : State) (d : Nat) (r : ReadRequest) (bad : BitVec 12) :
    ∃ e : Delivery, e.tag = r.tag ∧ e.ring = r.ring ∧ e.frameSize = r.frameSize ∧
      e.data.length = r.sectors * 512 ∧ ∀ i j, i < r.sectors → j < 512 → e.data[i * 512 + j]? = some
        (if bad.getLsbD i then 0x00#8
          else s.media.flash.read (sectorNumber d r.block (r.page * 48 + r.sector + i) * 512 + j)) := by
  refine ⟨⟨r.tag, r.ring, r.frameSize, (List.range (r.sectors * 512)).map fun x =>
    if bad.getLsbD (x / 512) then 0x00#8
    else s.media.flash.read (sectorNumber d r.block (r.page * 48 + r.sector + x / 512) * 512 + x % 512)⟩,
    rfl, rfl, rfl, by simp, fun i j hi hj => ?_⟩
  have h1 : (i * 512 + j) / 512 = i := by omega
  have h2 : (i * 512 + j) % 512 = j := by omega
  simp only [List.getElem?_map, List.getElem?_range (show i * 512 + j < r.sectors * 512 by omega), Option.map_some,
    h1, h2]

/-- Slack 1,024 and 1,025 at tick 1,000; first reading and re-read; no bad sector and one; no posting under way; the
voice retired, and its read marked. -/
theorem witness_SegmentReadsAreDeliveredOrReRead :
    (∀ dry attempt, ((reading dry attempt).die 1).state.activeRead? =
        some { req := { rq 7 dry with attempt := attempt }, discarded := false } ∧
      ((reading dry attempt).voice? 7).isSome ∧ (reading dry attempt).delivery.posting.isSome ∧
      (reading dry attempt).settled ∧ ((reading dry attempt).voice? 7).bind (·.dry) = some dry) ∧
    (∀ die ∈ (reading 2024 .first).media.dies, die.longOps = []) ∧
    2024 - base.timebase.tick ≤ 1024 ∧ 1024 < 2025 - base.timebase.tick ∧ (rq 7 0).badCount 0 = 0 ∧
    (rq 7 0).badCount 8 ≠ 0 ∧
    (∀ dry attempt bad, ∃ e : Delivery, e.tag = 7 ∧ e.ring = 8 ∧ e.frameSize = 2 ∧ e.data.length = 4 * 512 ∧
      ∀ i j, i < 4 → j < 512 → e.data[i * 512 + j]? = some (if BitVec.getLsbD (w := 12) bad i then 0x00#8
        else (reading dry attempt).media.flash.read (sectorNumber 1 1 (0 * 48 + 32 + i) * 512 + j))) ∧
    ((reading 2025 .first).die 1).reads = [] ++ [] ∧
    (let s := readingBehind 900
     (s.die 1).reads = [rq 8 900] ++ [] ∧ (rq 8 900).dry < 2025 ∧ s.media.freeBuffers = 22) ∧
    (let s := { reading 2024 .first with delivery := base.delivery }
     s.delivery.posting = none ∧ s.delivery.queue = [] ∧ s.station.config = some ⟨.hz48000, 65536, 8, 3⟩) ∧
    { reading 2024 .first with voices := [] }.voice? 7 = none ∧
    (∀ x, let s := withDie 1 { Die.reset with state := .suspendedRead (.erase 1) ⟨rq 7 0, x⟩ }
     (s.die 1).state.activeRead? = some ⟨rq 7 0, x⟩ ∧ s.settled ∧
      ∀ die ∈ s.media.dies, die.reads = [] ∧ die.longOps = []) :=
  ⟨fun _ _ => ⟨rfl, rfl, rfl, rfl, rfl⟩, by decide +kernel, by decide, by decide, by decide, by decide,
    fun dry attempt bad => delivered_exists _ 1 (rq 7 dry) bad, rfl, ⟨rfl, by decide, rfl⟩, ⟨rfl, rfl, rfl⟩, rfl,
    fun x => ⟨rfl, rfl, by simp [withDie, base, Die.reset, List.replicate]⟩⟩

/-- A SUSPEND-PENDING die with a distant head and one with an urgent head at tick 9,192 (with a buffer and without), one
whose erase had completed, and a busy die that has resumed. -/
theorem witness_SuspendedDiesResume :
    let s := fun reads => withDie 4 { Die.reset with state := .suspendPending (.erase 1), reads := reads }
    let t := withDie 4 { Die.reset with state := .busy (.erase 1), lastResume := some 40000 }
    (∀ reads, (s reads).settled ∧ ((s reads).die 4).state = .suspendPending (.erase 1)) ∧
      4 < (s []).media.dies.length ∧ ((s [rq 7 9193]).die 4).headWithin base.timebase.tick 8192 = false ∧
      ((s [rq 7 9192]).die 4).reads = rq 7 9192 :: [] ∧ 9192 - base.timebase.tick ≤ 8192 ∧
      0 < (s [rq 7 9192]).media.freeBuffers ∧ (∀ x ∈ [rq 7 9192], x.kept = false) ∧
      (s []).installer.work = [] ∧ ((s []).die 4).longOps = [] ∧
      t.settled ∧ (t.die 4).state = .busy (.erase 1) ∧ (t.die 4).lastResume = some 40000 :=
  ⟨fun _ => ⟨rfl, rfl⟩, by decide, by decide +kernel, rfl, by decide, by decide, by decide, rfl, rfl, rfl, rfl, rfl⟩

/-- A discarded posting, one of a voice at its fill limit, one of a FILLING voice, and two of a LATE voice, one frame
before the new dry point (frame 9,212 of 9,216 delivered) and at it; a delivery queue with a head. -/
theorem witness_PostingsCompleteDeliveries :
    let at_ := fun (discarded : Bool) (v : Voice) => { withVoice v with
      delivery := { base.delivery with posting := some ⟨⟨7, 8, 2, []⟩, 0, discarded⟩ } }
    let v := { vc 0 7 with n := 9, inFlight := some 8 }
    let w := { v with cursor := none, fin := some ⟨9000, .regionEnd⟩ }
    (at_ true v).delivery.posting = some ⟨⟨7, 8, 2, []⟩, 0, true⟩ ∧ (at_ false v).voice? 7 = some v ∧
      v.inFlight = some 8 ∧ v.fillLimit = false ∧ v.fill = .filling ∧ (at_ false w).voice? 7 = some w ∧
      w.inFlight = some 8 ∧ w.fillLimit = true ∧
      (∀ f, let x := { v with fill := .late, dryFrame := some 8192, p := f * 65536 }
       (at_ false x).voice? 7 = some x ∧ x.fill = .late ∧ x.n = x.d + 1) ∧
      9211 + 4 < v.s0 + 1024 * (v.d + 1) ∧ v.s0 + 1024 * (v.d + 1) ≤ 9212 + 4 ∧
      base.station.config = some ⟨.hz48000, 65536, 8, 3⟩ ∧
      { base.delivery with queue := [⟨9, 1, 2, []⟩] }.queue = ⟨9, 1, 2, []⟩ :: [] :=
  ⟨rfl, rfl, rfl, by decide +kernel, rfl, rfl, rfl, by decide +kernel, fun _ => ⟨rfl, rfl, rfl⟩, by decide, by decide,
    rfl, rfl⟩

/-- The link DOWN and UP; a RUNNING INSTALL that reads, and one whose log record's program is under way. -/
theorem witness_LinkLossRetiresEveryVoice :
    State.reset.delivery.link = .down ∧ (withVoice (vc 0 7)).delivery.link = .up ∧
    (let s := withWork [.install (item .reading)]
     s.settled ∧ s.delivery.link = .up ∧ s.installer.work = .install (item .reading) :: [] ∧
      (item .reading).phase ≠ .waiting ∧ (∀ w ∈ s.claims.watches, w.due = false) ∧
      ∀ die ∈ s.media.dies, die.state = .idle → ∀ op ∈ die.longOps, op.isProgram = false) ∧
    (let s := withDie 0 { Die.reset with state := .busy (.program ⟨0, 0, 2, 1, .log []⟩) }
       (withWork [.install (item .appending)])
     (item .appending).phase = .appending ∧ (s.die 0).state.longOp? = some (.program ⟨0, 0, 2, 1, .log []⟩)) := by
  refine ⟨rfl, rfl, ⟨rfl, rfl, rfl, (fun h => by cases h), (fun w h => by cases h), by decide +kernel⟩, rfl, rfl⟩

/-- An OPEN block; a free one; none free with an erase to come, and with none. -/
theorem witness_InstallReadsEndInAPageOrAFailure :
    let t := fun (blocks : List Block) (free : List Nat) => { base with catalogue := { base.catalogue with
      blockTable := List.replicate 3 { blocks := blocks, free := free } } }
    ((t [⟨.free, 0, 0⟩] [0]).dieBlocks 2).openBlock? = none ∧
      ((t [⟨.free, 0, 0⟩] [0]).dieBlocks 2).free = 0 :: [] ∧ 0 < ((t [⟨.free, 0, 0⟩] [0]).dieBlocks 2).blocks.length ∧
      (∃ k ∈ ((t [⟨.queued, 0, 0⟩] []).dieBlocks 2).blocks, k.state = .queued ∨ k.state = .erasing) ∧
      ((t [⟨.queued, 0, 0⟩] []).dieBlocks 2).openBlock? = none ∧ ((t [⟨.worn, 0, 0⟩] []).dieBlocks 2).free = [] ∧
      (∀ k ∈ ((t [⟨.worn, 0, 0⟩] []).dieBlocks 2).blocks, k.state ≠ .queued ∧ k.state ≠ .erasing) ∧
    let s := withDie 2 { Die.reset with state := .busy (.erase 2) }
      { withWork [.install (item .reading)] with
        delivery := { base.delivery with installRead := some ⟨20000, 4096, 50000⟩ } }
    s.delivery.installRead = some ⟨20000, 4096, 50000⟩ ∧ s.installer.work = [.install (item .reading)] ∧ s.settled ∧
      (∀ die ∈ s.media.dies, ∀ op ∈ die.longOps, op.isProgram = false) ∧
      (s.dieBlocks 2).openBlock? = some (1, 3) ∧ (s.die 2).state ≠ .idle ∧ s.notices.queue.length < 32 :=
  ⟨by decide +kernel, by decide +kernel, by decide +kernel, by decide +kernel, by decide +kernel, by decide +kernel,
    by decide +kernel, rfl, rfl, rfl, by decide +kernel, by decide +kernel, by decide +kernel, by decide⟩

/-- Consumed counts at the two sides of 1,028, at p = 0, and in order. -/
theorem witness_ConsumedCountsPassedSegments :
    ({ vc 0 7 with p := 1027 * 65536 }).consumed = 0 ∧ ({ vc 0 7 with p := 1028 * 65536 }).consumed = 1 ∧
    (vc 0 7).p = 0 ∧ (vc 0 8).s0 = (vc 0 7).s0 ∧ (vc 0 7).n ≤ (vc 0 8).n := by decide +kernel

theorem witness_VictimIsClosestToItsEnd :
    (withVoice (dying 0 7 100 9)).stealVictim? = some (dying 0 7 100 9) ∧
    (withVoice (vc 0 7)).stealVictim? = none := by decide +kernel

/-- Slack 880: the last k is 879. -/
theorem witness_SlackBoundsTheRunToTheDryPoint :
    gliding.state = .running ∧ 879 < gliding.slack 1000000 := by decide +kernel

/-- A state with a voice of each kind, an entry on the bus, a read, a re-read and a posting, in which every law
holds, and a command to be carried out. -/
def busy : State :=
  { base with
    voices := [{ vc 0 7 with n := 9, inFlight := some 8 },
      { vc 1 8 with state := .armed, n := 1, d := 0, inFlight := some 0, fill := .late },
      { dying 2 10 9000 100 with cursor := none, fill := .complete, dry := none }]
    claims := { bids := [{ bid 9 with offer := .sending }], watches := [wt false false] }
    port := { bus := .receiving 1, sending := some (.claim 9 (claimFrame 3 0 9)) }
    timebase := { base.timebase with readyLow := true }
    media := { base.media with
      freeBuffers := 21
      dies := (base.media.dies.set 1 { Die.reset with
        state := .read ⟨rq 7 9188, false⟩
        reads := [rq 8 9000, { rq 8 9000 with attempt := .reRead, kept := true }] }) }
    delivery := { base.delivery with posting := some ⟨⟨5, 0, 2, []⟩, 0, true⟩ }
    notices := { base.notices with queue := [note (.installed 1)] }
    pending := [.dividerTick []] }

theorem busy_step : step busy = .next (after (.dividerTick []) { busy with pending := [] }) := rfl

theorem witness_StepsKeepRangesAndOrders : busy.ratesLawful ∧ busy.withinCapacity ∧ busy.readsLawful := by
  unfold State.ratesLawful rateLawful State.withinCapacity State.readsLawful
  exact ⟨by decide, by decide, by decide +kernel⟩

theorem witness_StepsKeepVoiceRecordsLawful : busy.fillsLawful ∧ busy.endsLawful := by
  simp [State.fillsLawful, State.endsLawful, busy, Voice.indicesLawful, Voice.fillLawful, Voice.endLawful, vc, dying]

theorem witness_StepsKeepTagsApart : busy.tagsLawful := by unfold State.tagsLawful; decide

/-- Two uses of region 9,310 and one of 9,311; an install on die 2 whose second page is being programmed in the OPEN
block 1, and an erase of block 2 behind it. -/
def counted : State :=
  { base with
    voices := [{ vc 0 7 with follow := some ⟨9311, 0⟩ }]
    claims := { bids := [bid 9], watches := [] }
    installer := { work := [.install (item .programming), .reclaim 15 5 false], pageBuffer := [], held := false }
    media := { base.media with dies := (base.media.dies.set 2 { Die.reset with
      state := .busy (.program ⟨1, 4, 0, 4, .page⟩), longOps := [.erase 2] }) }
    catalogue := { base.catalogue with
      regions := [{ home with inUse := 2 }, { second with inUse := 1 }]
      pendingInstalls := [60]
      blockTable := (List.range 8).map fun d => { blocksOf d with blocks := [⟨.worn, 0, 0⟩,
        ⟨.opened 4, if d = 1 then 3 else 0, if d = 2 then 1 else 0⟩, ⟨.queued, 0, 0⟩] } } }

theorem counted_die (d : Nat) : d = 2 ∨ counted.die d = Die.reset := by
  rcases Nat.lt_or_ge d 8 with h | h
  · interval_cases d <;> first | exact .inl rfl | exact .inr rfl
  · right
    unfold State.die
    rw [List.getD_eq_default]
    exact h

theorem counted_blocks (d : Nat) : counted.dieBlocks d = { blocks := [], free := [] } ∨ d < 8 := by
  rcases Nat.lt_or_ge d 8 with h | h
  · exact .inr h
  · left
    unfold State.dieBlocks
    rw [List.getD_eq_default]
    exact h

theorem witness_StepsKeepUsesCounted : counted.tagsLawful ∧ counted.usesLawful ∧
    (∃ r ∈ counted.catalogue.regions, r.inUse = 2) := by
  refine ⟨by unfold State.tagsLawful; decide, ⟨by decide +kernel, fun id h => ?_, by decide, by decide, by decide,
    (fun _ _ h => by cases h), by decide, by decide, by decide⟩, by decide⟩
  have : id = 9310 ∨ id = 9311 := by
    by_contra hn
    rw [not_or] at hn
    have h1 : (9310 == id) = false := by simpa using Ne.symm hn.1
    have h2 : (9311 == id) = false := by simpa using Ne.symm hn.2
    simp [State.usesOf, counted, bid, vc, h1, h2] at h
  rcases this with rfl | rfl <;> decide

theorem witness_StepsKeepPagesCounted : counted.settled ∧ counted.usesLawful ∧ counted.pagesLawful ∧
    (counted.block 1 1).live = 3 ∧ (counted.block 2 1).pending = 1 := by
  refine ⟨rfl, witness_StepsKeepUsesCounted.2.1, ?_, rfl, rfl⟩
  have all := State.lists_all counted (fun d b k => (k.state == .log ||
    (k.live == pagesIn (counted.catalogue.regions.flatMap (·.extents)) d b &&
      k.pending == pagesIn counted.runningExtents d b)) &&
      (!(k.state == .queued || k.state == .erasing) || (k.live == 0 && k.pending == 0))) (by decide +kernel)
  refine ⟨fun _ d b k _ h hl => ?_, fun d b k h hl => ?_, fun d b k h hq => ?_, fun d => ?_, fun d => ?_,
    by decide +kernel, by decide +kernel, fun d p hp => ?_, fun d p hp => ?_, (fun h => by cases h),
    (fun h => by cases h), (fun h => by cases h)⟩
  · have := all d b k h; simp [hl] at this; exact this.1.1
  · have := all d b k h; simp [hl] at this; exact this.1.2
  · have := all d b k h; rcases hq with hq | hq <;> simp [hq] at this <;> exact ⟨this.2.1, this.2.2⟩
  · rcases counted_die d with rfl | hd
    · decide +kernel
    · simp [State.erasesOn, hd, Die.ops, Die.reset, DieState.longOp?]
  · rcases counted_blocks d with hd | hd
    · simp [hd]
    · interval_cases d <;> decide +kernel
  · rcases counted_die d with rfl | hd
    · cases (show (counted.die 2).longOps.filterMap LongOp.page? = [] from rfl) ▸ hp
    · simp [hd, Die.reset] at hp
  · rcases counted_die d with rfl | hd
    · cases hp; exact .inl ⟨item .programming, 4, rfl, rfl, rfl, rfl⟩
    · simp [hd, Die.reset, DieState.longOp?] at hp

theorem witness_StepsKeepBuffersAccounted : busy.buffersLawful := by unfold State.buffersLawful; decide +kernel

theorem witness_StepsKeepReady : busy.readyLawful := by unfold State.readyLawful; decide +kernel

theorem witness_StepsKeepThePort : busy.portLawful := by
  simp [State.portLawful, busy, bid]

theorem witness_StepsKeepTheFlash : (scanning 0).flashLawful ∧ (scanning 0).settled := by
  refine ⟨?_, rfl⟩; unfold State.flashLawful Memory.wf; decide +kernel

end Sys2Proof.Tests
end

