-- ==== Sys2Proof/Proofs/Victim.lean ====
section
/-! SUPPORT. The steal victim (R29) as the least voice with its end present, by remaining length and then tag. -/

namespace Sys2Proof.Machine

/-- What R29 compares of a voice: its remaining length, then its tag; a voice with no end present comes last. -/
def Voice.stealKey (v : Voice) : WithTop (Int ×ₗ Nat) :=
  match v.remaining with
  | some left => ↑(toLex (left, v.tag))
  | none => ⊤

theorem Voice.stealKey_of_fin {v : Voice} {e : VoiceEnd} (he : v.fin = some e) :
    v.stealKey = ↑(toLex ((e.frame : Int) - (v.p / 65536 : Nat), v.tag)) := by
  simp [Voice.stealKey, Voice.remaining, Voice.floorP, he]

/-- The model's preference is the strict order of the keys. -/
theorem victimBefore_iff (v w : Voice) : victimBefore v w = true ↔ v.stealKey < w.stealKey := by
  unfold victimBefore Voice.stealKey
  cases v.remaining with
  | none => simp
  | some a =>
    cases w.remaining with
    | none => simp [WithTop.coe_lt_top]
    | some b => simp [WithTop.coe_lt_coe, Prod.Lex.toLex_lt_toLex]

/-- The fold of R29 is the library's least element by key, over the voices with their end present. -/
theorem State.stealVictim?_eq_argmin (s : State) :
    s.stealVictim? = (s.voices.filter (·.fin.isSome)).argmin Voice.stealKey := by
  unfold State.stealVictim? List.argmin
  rw [List.foldl_filter]
  refine List.foldl_ext _ _ _ fun best v _ => ?_
  cases best with
  | none => rfl
  | some w =>
    cases hfin : v.fin with
    | none => simp [victimBefore, Voice.remaining, hfin]
    | some e => simp [List.argAux, victimBefore_iff]

/-- Settles O49: the victim is the least voice by key among those with their end present, and the order of the keys
is R29's. -/
theorem victimIsClosestToItsEnd : Obligations.VictimIsClosestToItsEnd := by
  intro s
  rw [State.stealVictim?_eq_argmin]
  refine ⟨fun v hv => ?_, fun hnone w hw => ?_⟩
  · obtain ⟨hmem, hfin⟩ := List.mem_filter.1 (List.argmin_mem hv)
    obtain ⟨e, he⟩ := Option.isSome_iff_exists.1 hfin
    refine ⟨hmem, e, he, fun w hw e' he' => ?_⟩
    have hle : v.stealKey ≤ w.stealKey :=
      List.le_of_mem_argmin (List.mem_filter.2 ⟨hw, by simp [he']⟩) hv
    rwa [Voice.stealKey_of_fin he, Voice.stealKey_of_fin he', WithTop.coe_le_coe, Prod.Lex.toLex_le_toLex] at hle
  · simpa using List.filter_eq_nil_iff.1 (List.argmin_eq_none.1 hnone) w hw

end Sys2Proof.Machine
end

