-- ==== Sys2Proof/Proofs/Ready.lean ====
section
/-! SUPPORT. Every step keeps READY low exactly while it is wanted (R52). A command that can change what READY
depends on recomputes it as the step closes (`State.finish_ready`); every other command leaves alone the line, the
station's configuration and what the voices' priming depends on. -/

namespace Sys2Proof.Machine

/-! ### Updates that READY does not depend on -/

/-- READY depends on the station's configuration, the voices and the line alone. -/
theorem State.readyLawful_congr {s t : State} (hs : t.station = s.station) (hv : t.voices = s.voices)
    (hb : t.timebase.readyLow = s.timebase.readyLow) : t.readyLawful ↔ s.readyLawful := by
  unfold State.readyLawful
  rw [hb, State.readyWanted_congr hs hv]

@[simp] theorem State.atTime_ready (s : State) (t : Nat) : (s.atTime t).readyLawful ↔ s.readyLawful := Iff.rfl
@[simp] theorem State.setPending_ready (s : State) (x : List Instr) :
    (s.setPending x).readyLawful ↔ s.readyLawful := Iff.rfl
@[simp] theorem State.setPort_ready (s : State) (x : Port) : (s.setPort x).readyLawful ↔ s.readyLawful := Iff.rfl
@[simp] theorem State.setNotices_ready (s : State) (x : NoticeQueue) :
    (s.setNotices x).readyLawful ↔ s.readyLawful := Iff.rfl
theorem State.setTimebase_ready (s : State) (x : Timebase) (h : x.readyLow = s.timebase.readyLow) :
    (s.setTimebase x).readyLawful ↔ s.readyLawful := State.readyLawful_congr rfl rfl h
@[simp] theorem State.endFrame_ready (s : State) : s.endFrame.readyLawful ↔ s.readyLawful := Iff.rfl
@[simp] theorem State.queueNotice_ready (s : State) (a : Nat) (body : NoticeBody) :
    (s.queueNotice a body).readyLawful ↔ s.readyLawful := Iff.rfl
@[simp] theorem State.refuse_ready (s : State) (sender kind : Nat) (reason : Reason) (subject : Nat) :
    (s.refuse sender kind reason subject).readyLawful ↔ s.readyLawful := Iff.rfl
@[simp] theorem State.updateBid_ready (s : State) (tag : Nat) (f : Bid → Bid) :
    (s.updateBid tag f).readyLawful ↔ s.readyLawful := Iff.rfl
@[simp] theorem State.deferWatch_ready (s : State) (tag : Nat) :
    (s.deferWatch tag).readyLawful ↔ s.readyLawful := Iff.rfl

theorem MediaStep.ready {s t : State} (m : MediaStep s t) : t.readyLawful ↔ s.readyLawful :=
  State.readyLawful_congr m.station m.voices (congrArg Timebase.readyLow m.timebase)

theorem WatchStep.ready {s t : State} (w : WatchStep s t) : t.readyLawful ↔ s.readyLawful :=
  State.readyLawful_congr w.station w.voices (congrArg Timebase.readyLow w.timebase)

@[simp] theorem State.addUse_ready (s : State) (id : Nat) : (s.addUse id).readyLawful ↔ s.readyLawful :=
  (s.addUse_step id).ready
@[simp] theorem State.releaseUse_ready (s : State) (id : Nat) :
    (s.releaseUse id).readyLawful ↔ s.readyLawful := (s.releaseUse_step id).ready
@[simp] theorem State.settleDue_ready (s : State) : s.settleDue.readyLawful ↔ s.readyLawful :=
  s.settleDue_step.ready
@[simp] theorem State.stopClaim_ready (s : State) : s.stopClaim.readyLawful ↔ s.readyLawful :=
  s.stopClaim_step.ready

@[simp] theorem State.dropBid_ready (s : State) (tag : Nat) :
    (s.dropBid tag).readyLawful ↔ s.readyLawful := by
  obtain ⟨-, hstation, -, -, hvoices, htimebase, -⟩ := s.dropBid_step tag
  exact State.readyLawful_congr hstation hvoices (congrArg Timebase.readyLow htimebase)

/-- A CLAIM that comes back changes the bid list alone (R133). -/
@[simp] theorem State.claimReturned_ready (s : State) (tag : Nat) :
    (s.claimReturned tag).readyLawful ↔ s.readyLawful := by
  unfold State.claimReturned
  split
  · rfl
  · split <;> simp

/-- A voice is ARMED and primed as before when its state, fill status and delivered count are (R52). -/
theorem State.updateVoice_ready {s : State} (hs : s.readyLawful) (tag : Nat) (f : Voice → Voice)
    (hstate : ∀ v, (f v).state = v.state) (hfill : ∀ v, (f v).fill = v.fill) (hd : ∀ v, (f v).d = v.d) :
    (s.updateVoice tag f).readyLawful := by
  have hany (depth : Nat) :
      (s.updateVoice tag f).voices.any (fun v => v.state == .armed && !v.primed depth) =
        s.voices.any fun v => v.state == .armed && !v.primed depth := by
    have hmap := updateFirst_map (·.tag == tag) f (fun v => v.state == .armed && !v.primed depth)
      (fun v => by simp only [Voice.primed, hstate, hfill, hd]) s.voices
    simpa [State.updateVoice, List.any_map] using congrArg (List.any · id) hmap
  have hwanted : (s.updateVoice tag f).readyWanted = s.readyWanted := by
    unfold State.readyWanted
    simp only [hany]
    rfl
  unfold State.readyLawful
  rw [hwanted]
  exact hs

/-! ### Frames received -/

/-- A received frame keeps READY as it should be when its effect does. -/
theorem State.receive_ready {s : State} (hs : s.readyLawful) (t : Nat) (h : Header) {act : State → State}
    (hact : ∀ u : State, u.readyLawful → (act u).readyLawful) : (s.receive t h act).readyLawful := by
  unfold State.receive
  dsimp only
  split
  · have hend : (s.atTime t).endFrame.settleDue.readyLawful := by simpa using hs
    split
    · exact hact _ hend
    · exact hend
  · exact hs

/-- A request's effect is that on the voice, on the entry, or none (R141). -/
theorem State.request_ready {s : State} (hs : s.readyLawful) (tag : Nat) {onVoice : Voice → State}
    {onEntry : Bid → State} (hv : ∀ v, (onVoice v).readyLawful) (hb : ∀ b, (onEntry b).readyLawful) :
    (s.request tag onVoice onEntry).readyLawful := by
  unfold State.request
  split
  · exact hv _
  · exact hb _
  · exact hs

/-- The follow slot has no part in priming (R151, R152). -/
theorem State.followTaken_ready {s : State} (hs : s.readyLawful) (v : Voice) (region start sender : Nat) :
    (s.followTaken v region start sender).readyLawful := by
  unfold State.followTaken
  split
  · simpa using hs
  · rw [State.addUse_ready]
    exact State.updateVoice_ready hs v.tag _ (fun _ => rfl) (fun _ => rfl) fun _ => rfl

theorem State.unfollowTaken_ready {s : State} (hs : s.readyLawful) (v : Voice) :
    (s.unfollowTaken v).readyLawful := by
  unfold State.unfollowTaken
  split
  · rw [State.releaseUse_ready]
    exact State.updateVoice_ready hs v.tag _ (fun _ => rfl) (fun _ => rfl) fun _ => rfl
  · exact hs

/-- A TIMEBASE leaves the line alone (R48). -/
theorem State.timebaseTaken_ready {s : State} (hs : s.readyLawful) (h : Header) (load drive : Option Nat) :
    (s.timebaseTaken h load drive).readyLawful := by
  have hload : (s.timebase.withLoad h load).readyLow = s.timebase.readyLow := by
    unfold Timebase.withLoad
    split
    · split <;> rfl
    · rfl
  have hdrive (b : Timebase) : (b.withDrive h drive).readyLow = b.readyLow := by
    unfold Timebase.withDrive
    split
    · split <;> rfl
    · rfl
  unfold State.timebaseTaken
  split
  · exact (State.setTimebase_ready s _ ((hdrive _).trans hload)).2 hs
  · exact hs

/-- With no voice in use READY is not wanted. -/
theorem State.readyWanted_of_no_voices {s : State} (h : s.voices = []) : s.readyWanted = false := by
  unfold State.readyWanted
  split <;> simp [h]

/-- A taken CONFIGURE releases READY, which no voice then wants (R53). -/
theorem State.configureTaken_ready {s : State} (h : s.voices = []) (c : Configuration) :
    (s.configureTaken c).readyLawful :=
  (State.readyWanted_of_no_voices (s := s.configureTaken c) h).symm

/-- A CONFIGURE is taken with no voice in use alone (R173). -/
theorem State.configureTested_ready {s : State} (hs : s.readyLawful) (sender : Nat) (c : Option Configuration) :
    (s.configureTested sender c).readyLawful := by
  unfold State.configureTested
  split
  · exact hs
  next hidle =>
    have hvoices : s.voices = [] := by simp_all
    split
    · exact hs
    · exact State.configureTaken_ready hvoices _

/-- A PROBE queues a notice at most (R170). -/
theorem State.probeTaken_ready {s : State} (hs : s.readyLawful) (region sender : Nat) :
    (s.probeTaken region sender).readyLawful := by
  unfold State.probeTaken
  split <;> simpa using hs

/-- A request that is ignored in STARTING keeps READY as it should be when its effect does (R155, R159, R170, R173). -/
theorem readyLawful_unless_starting {s : State} (hs : s.readyLawful) {u : State} (hu : u.readyLawful) :
    (match s.station.state with
      | .starting => s
      | .unconfigured | .configured => u).readyLawful := by
  split
  · exact hs
  · exact hu
  · exact hu

/-! ### Commands -/

/-- If the outcome is a next state, READY there is as it should be (R52). -/
def ReadyAfter (o : Host.Outcome State Fault Refusal) : Prop := ∀ t, o = .next t → t.readyLawful

@[simp] theorem readyAfter_next (t : State) : ReadyAfter (.next t) ↔ t.readyLawful := by
  simp [ReadyAfter]

/-- After a power-on reset no voice is in use and READY is released (R53). -/
theorem execPowerOnReset_ready (straps : BitVec 4) (s : State) : ReadyAfter (execPowerOnReset straps s) :=
  (readyAfter_next _).2 rfl

theorem execArbitrationLost_ready {s : State} (hs : s.readyLawful) (t : Nat) (kind : BitVec 4) :
    ReadyAfter (execArbitrationLost t kind s) := by
  unfold execArbitrationLost
  dsimp only
  split
  · split <;> simpa using hs
  · simpa using hs
  · simpa using hs

theorem execFrameCutShort_ready {s : State} (hs : s.readyLawful) (t : Nat) :
    ReadyAfter (execFrameCutShort t s) := by
  unfold execFrameCutShort
  dsimp only
  split <;> simpa using hs

theorem execFrameDiscarded_ready {s : State} (hs : s.readyLawful) (t : Nat) (frame : Frame) (check : BitVec 16) :
    ReadyAfter (execFrameDiscarded t frame check s) := by
  unfold execFrameDiscarded
  dsimp only
  split <;> simpa using hs

theorem execClaimWon_ready {s : State} (hs : s.readyLawful) (t : Nat) : ReadyAfter (execClaimWon t s) := by
  unfold execClaimWon
  dsimp only
  split
  · split
    · exact (readyAfter_next _).2 (State.finish_ready _)
    · simpa using hs
  · simpa using hs
  · simpa using hs

theorem execClaim_ready {s : State} (hs : s.readyLawful) (t : Nat) (h : Header) (tagField : BitVec 16) :
    ReadyAfter (execClaim t h tagField s) := by
  unfold execClaim
  dsimp only
  split
  · split
    · exact (readyAfter_next _).2 (State.finish_ready _)
    · simpa using hs
  · simpa using hs

theorem execNote_ready {s : State} (hs : s.readyLawful) (t : Nat) (h : Header) (region : BitVec 24)
    (offset : BitVec 32) (tick : BitVec 48) (rate : BitVec 24) (flags : BitVec 8) :
    ReadyAfter (execNote t h region offset tick rate flags s) := by
  refine (readyAfter_next _).2 (State.receive_ready hs t h fun u hu => ?_)
  split
  · split
    · exact State.finish_ready _
    · exact hu
  · exact hu

theorem execEndRequest_ready {s : State} (hs : s.readyLawful) (t : Nat) (h : Header) (flags : BitVec 8)
    (fade : BitVec 24) (atTick : BitVec 48) : ReadyAfter (execEndRequest t h flags fade atTick s) := by
  refine (readyAfter_next _).2 (State.receive_ready hs t h fun u hu => ?_)
  split
  · exact State.finish_ready _
  · exact hu

/-- Out of CONFIGURED a DOWNBEAT counts its pulse alone (R50). -/
theorem execDownbeatEvent_ready {s : State} (hs : s.readyLawful) (t : Nat) :
    ReadyAfter (execDownbeatEvent t s) := by
  unfold execDownbeatEvent
  dsimp only
  split
  · simpa using hs
  · split
    · exact (readyAfter_next _).2 (State.finish_ready _)
    · exact (readyAfter_next _).2 hs

theorem execBidWindowExpiry_ready {s : State} (hs : s.readyLawful) (tag : BitVec 12) :
    ReadyAfter (execBidWindowExpiry tag s) := by
  unfold execBidWindowExpiry
  split
  · simpa using hs
  · split <;> simpa using hs

theorem execWatchWindowExpiry_ready {s : State} (hs : s.readyLawful) (tag : BitVec 12) :
    ReadyAfter (execWatchWindowExpiry tag s) := by
  unfold execWatchWindowExpiry
  split
  · simpa using hs
  · dsimp only
    split
    · simpa using hs
    · exact (readyAfter_next _).2 (State.finish_ready _)

/-- Every command keeps READY as it should be: it closes with READY recomputed, or touches nothing that READY
depends on, or leaves no voice in use. -/
theorem exec_ready {s : State} (hs : s.readyLawful) (i : Instr) : ReadyAfter (exec i s) := by
  cases i
  case powerOnReset => exact execPowerOnReset_ready _ s
  case arbitrationLost => exact execArbitrationLost_ready hs _ _
  case frameCutShort => exact execFrameCutShort_ready hs _
  case frameDiscarded => exact execFrameDiscarded_ready hs _ _ _
  case claimWon => exact execClaimWon_ready hs _
  case claim h _ => exact execClaim_ready hs _ h _
  case note => exact execNote_ready hs _ _ _ _ _ _ _
  case endRequest => exact execEndRequest_ready hs _ _ _ _ _
  case downbeatEvent => exact execDownbeatEvent_ready hs _
  case bidWindowExpiry => exact execBidWindowExpiry_ready hs _
  case watchWindowExpiry => exact execWatchWindowExpiry_ready hs _
  case rate =>
    exact (readyAfter_next _).2 (State.receive_ready hs _ _ fun _ _ => State.finish_ready _)
  case follow =>
    exact (readyAfter_next _).2 (State.receive_ready hs _ _ fun _ hu =>
      State.request_ready hu _ (fun v => State.followTaken_ready hu v _ _ _) fun _ => hu)
  case unfollow =>
    exact (readyAfter_next _).2 (State.receive_ready hs _ _ fun _ hu =>
      State.request_ready hu _ (State.unfollowTaken_ready hu) fun _ => hu)
  case timebase =>
    exact (readyAfter_next _).2 (State.receive_ready hs _ _ fun _ hu => State.timebaseTaken_ready hu _ _ _)
  case notice => exact (readyAfter_next _).2 (State.receive_ready hs _ _ fun _ hu => hu)
  case probe =>
    exact (readyAfter_next _).2 (State.receive_ready hs _ _ fun _ hu =>
      readyLawful_unless_starting hu (State.probeTaken_ready hu _ _))
  case configure =>
    exact (readyAfter_next _).2 (State.receive_ready hs _ _ fun _ hu =>
      readyLawful_unless_starting hu (State.configureTested_ready hu _ _))
  case halt | install | reclaim | wipe =>
    exact (readyAfter_next _).2 (State.receive_ready hs _ _ fun _ hu =>
      readyLawful_unless_starting hu (State.finish_ready _))
  case frameBegins | linkUp | downbeatLineRise => exact (readyAfter_next _).2 hs
  case downbeatDriveEnd =>
    dsimp only [exec, execDownbeatDriveEnd]
    split <;> exact (readyAfter_next _).2 hs
  case bitError | noticeSent =>
    dsimp only [exec, execBitError, execNoticeSent]
    split <;> simpa using hs
  -- These close with READY recomputed, or move the clock at most.
  case logSectorReadEnd | filteredEdge | dividerTick | standInTick | busIdle | segmentReadEnd | programComplete
      | eraseComplete | suspendReported | resumeHoldOffExpiry | postingEnd | linkDown | installReadDone
      | installReadError | installReadTimeout =>
    dsimp only [exec, execLogSectorReadEnd, execFilteredEdge, execDividerTick, execStandInTick, execBusIdle,
      execSegmentReadEnd, execProgramComplete, execEraseComplete, execSuspendReported, execResumeHoldOffExpiry,
      execPostingEnd, execLinkDown, execInstallReadDone, execInstallReadError, execInstallReadTimeout]
    split <;> simp [State.finish_ready, State.linkLost, State.pageRead, hs]

/-- Settles O57, command by command: the front command leaves the queue, which READY does not depend on. -/
theorem stepsKeepReady : Obligations.StepsKeepReady := by
  intro s t hs
  unfold step
  split
  · rintro ⟨⟩
    exact hs
  · exact exec_ready ((State.setPending_ready s _).2 hs) _ t

end Sys2Proof.Machine
end

