-- ==== Sys2Proof/Proofs/Consumed.lean ====
section
/-! SUPPORT. The consumed count (R62) as the number of segments passed by the margin. -/

namespace Sys2Proof.Machine

/-- The closed form counts the segments below n that the position has passed by the margin, and no other (R62). -/
theorem lt_consumedAt_iff (n s0 floorP j : Nat) :
    j < consumedAt n s0 floorP ↔ j < n ∧ s0 + 1024 * (j + 1) + 4 ≤ floorP := by
  unfold consumedAt
  split <;> omega

theorem consumedAt_le (n s0 floorP : Nat) : consumedAt n s0 floorP ≤ n := Nat.min_le_left _ _

/-- The passed segments are those below the consumed count, so there are as many as it says (R62). -/
theorem length_filter_passed (n s0 floorP : Nat) :
    ((List.range n).filter fun j => decide (s0 + 1024 * (j + 1) + 4 ≤ floorP)).length = consumedAt n s0 floorP := by
  have hpassed : (List.range n).filter (fun j => decide (s0 + 1024 * (j + 1) + 4 ≤ floorP)) =
      (List.range n).filter (fun j => decide (j < consumedAt n s0 floorP)) :=
    List.filter_congr fun j hj => by simp [lt_consumedAt_iff, List.mem_range.1 hj]
  rw [hpassed, ← List.Ico.zero_bot, List.Ico.filter_lt, List.Ico.length, Nat.sub_zero,
    Nat.min_eq_right (consumedAt_le n s0 floorP)]

/-- The start position has passed no segment (R54, R62). -/
theorem consumedAt_zero (n s0 : Nat) : consumedAt n s0 0 = 0 :=
  Nat.eq_zero_of_not_pos fun hpos => by simpa using ((lt_consumedAt_iff n s0 0 0).1 hpos).2

/-- A segment passed stays passed while the position and n do not fall (R62). -/
theorem consumedAt_mono {n m s0 f g : Nat} (hf : f ≤ g) (hn : n ≤ m) : consumedAt n s0 f ≤ consumedAt m s0 g := by
  refine le_of_forall_lt fun j hj => ?_
  obtain ⟨hjn, hjf⟩ := (lt_consumedAt_iff n s0 f j).1 hj
  exact (lt_consumedAt_iff m s0 g j).2 ⟨hjn.trans_le hn, hjf.trans hf⟩

/-- Settles O48, by which segments lie below the closed form (`lt_consumedAt_iff`). -/
theorem consumedCountsPassedSegments : Obligations.ConsumedCountsPassedSegments := by
  refine ⟨fun v => (length_filter_passed v.n v.s0 v.floorP).symm, fun v => rfl, fun v hp => ?_,
    fun v w hs hp hn => ?_⟩
  · simp [Voice.consumed, Voice.floorP, hp, consumedAt_zero]
  · unfold Voice.consumed
    rw [hs]
    exact consumedAt_mono (Nat.div_le_div_right hp) hn

end Sys2Proof.Machine
end

