-- ==== Sys2Proof/Proofs/Rate.lean ====
section
/-! SUPPORT. What a RATE answers (R55, R56, R139, R141): a request's three cases, the dry tick computed afresh, and
what closes a step in which no frame may begin. -/

namespace Sys2Proof.Machine

/-! ### The dry tick computed afresh -/

/-- The dry tick is the one field that is computed afresh (R64). -/
theorem Voice.withDry_eq (v : Voice) (now : Nat) : v.withDry now = { v with dry := (v.withDry now).dry } := by
  unfold Voice.withDry
  split <;> rfl

/-- A COMPLETE voice's dry tick is left as it is (R64, R81). -/
theorem Voice.withDry_dry_of_complete {v : Voice} (h : v.fill = .complete) (now : Nat) :
    (v.withDry now).dry = v.dry := by
  simp [Voice.withDry, h]

/-- Any other voice's dry tick is that of its record, which the dry tick itself has no part in (R64). -/
theorem Voice.withDry_dry_of_not_complete {v : Voice} (h : v.fill ≠ .complete) (now : Nat) :
    (v.withDry now).dry = some ((v.withDry now).dryTick now) := by
  have hdry : (v.withDry now).dry = some (v.dryTick now) := by simp [Voice.withDry, h]
  rw [hdry, Voice.withDry_eq]
  rfl

/-- The voice a tag names after one voice's dry tick is computed afresh (R64, R68). -/
theorem State.voice_recomputeDry (s : State) (tag j : Nat) :
    (s.recomputeDry tag).voice? j =
      (s.voice? j).map fun v => if j = tag then v.withDry s.timebase.tick else v := by
  have hsync : (s.recomputeDry tag).voice? j = (s.updateVoice tag (·.withDry s.timebase.tick)).voice? j := by
    unfold State.voice? State.recomputeDry
    rw [State.syncReads_voices]
  rw [hsync, State.voice_updateVoice s tag j _ fun v => (v.withDry_core _).tag]

/-! ### Bid entries -/

theorem State.bid_tag {s : State} {tag : Nat} {b : Bid} (h : s.bid? tag = some b) : b.tag = tag := by
  simpa using List.find?_some h

/-- The bid entry for a tag after it is changed. -/
theorem State.bid_updateBid (s : State) (tag : Nat) (f : Bid → Bid) (hf : ∀ b, (f b).tag = b.tag) :
    (s.updateBid tag f).bid? tag = (s.bid? tag).map f :=
  find_updateFirst Bid.tag tag f hf s.claims.bids

/-! ### The end of a step -/

/-- The voice a tag names is found in the voice table, which closing a step leaves as it was. -/
@[simp] theorem State.voice_finish (s : State) (tag : Nat) : s.finish.voice? tag = s.voice? tag := by
  unfold State.voice?
  rw [State.finish_voices]

/-- Where no frame may begin, a step closes with the claim unit as it was (R114). -/
theorem State.finish_claims_of_skipping (s : State) (h : s.port.bus = .skipping) :
    s.finish.claims = s.claims := by
  have hfront := s.settleFront_step
  have hbusy : s.settleFront.recomputeReady.port.mayBegin s.settleFront.recomputeReady.clock = false :=
    Port.mayBegin_skipping _ _ (by rw [State.recomputeReady_port, hfront.port, h])
  rw [State.finish, State.offer_busy _ hbusy, State.recomputeReady_claims, hfront.claims]

/-- Where no frame may begin, closing a step leaves the bid entries as they were (R114). -/
theorem State.bid_finish_of_skipping (s : State) (h : s.port.bus = .skipping) (tag : Nat) :
    s.finish.bid? tag = s.bid? tag := by
  unfold State.bid?
  rw [s.finish_claims_of_skipping h]

/-! ### The effect of a RATE -/

/-- The effect of a RATE on the record that carries its tag (R56, R139). -/
theorem State.rateTaken_of_voice {s : State} {tag : Nat} {v : Voice} (hv : s.voice? tag = some v)
    (target step : Nat) :
    s.rateTaken tag target step = ((s.updateVoice tag (·.rated target step)).recomputeDry tag).finish := by
  simp only [State.rateTaken, State.request, hv, State.voice_tag hv]

/-- The effect of a RATE on a pending entry (R139). -/
theorem State.rateTaken_of_bid {s : State} {tag : Nat} {b : Bid} (hv : s.voice? tag = none)
    (hb : s.bid? tag = some b) (target step : Nat) :
    s.rateTaken tag target step = (s.updateBid tag fun b => { b with rate := target }).finish := by
  simp only [State.rateTaken, State.request, hv, hb, State.bid_tag hb]

/-- A RATE for a tag that the station holds neither a record nor an entry for (R141). -/
theorem State.rateTaken_of_neither {s : State} {tag : Nat} (hv : s.voice? tag = none) (hb : s.bid? tag = none)
    (target step : Nat) : s.rateTaken tag target step = s.finish := by
  simp only [State.rateTaken, State.request, hv, hb]

/-- Until the step closes, a RATE for an in-use record stays within what the operations on voices may change. -/
theorem State.rate_voiceStep (s : State) (tag target step : Nat) :
    VoiceStep s ((s.updateVoice tag (·.rated target step)).recomputeDry tag) :=
  (s.updateVoice_step tag _).trans (State.recomputeDry_step _ tag)

/-- The voice a tag names after a RATE for an in-use record (R56, R64). -/
theorem State.voice_rateTaken {s : State} {tag : Nat} {v : Voice} (hv : s.voice? tag = some v)
    (target step j : Nat) :
    (s.rateTaken tag target step).voice? j =
      (s.voice? j).map fun w => if j = tag then (w.rated target step).withDry s.timebase.tick else w := by
  rw [State.rateTaken_of_voice hv, State.voice_finish, State.voice_recomputeDry,
    State.voice_updateVoice s tag j (·.rated target step) fun _ => rfl, Option.map_map]
  congr 1
  funext w
  by_cases hj : j = tag <;> simp [hj, State.updateVoice]

/-- The pending entry after a RATE, once the frame has ended (R139). -/
theorem State.bid_rateTaken {s : State} {tag : Nat} {b : Bid} (hport : s.port.bus = .skipping)
    (hv : s.voice? tag = none) (hb : s.bid? tag = some b) (target step : Nat) :
    (s.rateTaken tag target step).bid? tag = some { b with rate := target } := by
  rw [State.rateTaken_of_bid hv hb, State.bid_finish_of_skipping _ (by exact hport),
    State.bid_updateBid s tag (fun b => { b with rate := target }) fun _ => rfl, hb]
  rfl

/-- A RATE that the station takes acts in the state the frame's end leaves (R118, R120). -/
theorem execRate_takes {s : State} {h : Header} (ht : s.takes h) (t : Nat) (target : BitVec 24)
    (step : BitVec 16) :
    exec (.rate t h target step) s =
      .next ((s.frameEnded t).rateTaken h.key.toNat (clampRate target.toNat) step.toNat) :=
  congrArg Host.Outcome.next (s.receive_takes t h _ ht)

/-- Settles O29, by who holds the tag: a record, a pending entry, or neither. -/
theorem rateSetsThePositionFields : Obligations.RateSetsThePositionFields := by
  intro s t goal h target step ht hgoal
  obtain rfl : goal = clampRate target.toNat := hgoal
  have hexec := execRate_takes ht t target step
  refine ⟨fun v hv => ?record, fun b hv hb => ?entry, fun hv hb => ?neither⟩
  case record =>
    have hv' : (s.frameEnded t).voice? h.key.toNat = some v := hv
    have hvoice := State.voice_rateTaken hv' (clampRate target.toNat) step.toNat
    have hstep := (s.frameEnded t).rate_voiceStep h.key.toNat (clampRate target.toNat) step.toNat
    refine ⟨_, (v.rated (clampRate target.toNat) step.toNat).withDry s.timebase.tick, hexec, ?_, ?_, ?_, ?_,
      ?_, ?_, ?_⟩
    · rw [State.rateTaken_of_voice hv', State.finish_claims_of_skipping _ (by rw [hstep.port]; rfl),
        hstep.claims, State.frameEnded_claims]
    · rw [State.rateTaken_of_voice hv', State.finish_station, hstep.station, State.frameEnded_station]
    · simp [hvoice, hv]
    · rw [Voice.withDry_eq]
      have hzero : step.toNat = 0 ↔ step = 0#16 := by simp [BitVec.toNat_eq]
      simp [Voice.rated, hzero]
    · exact fun hfill => Voice.withDry_dry_of_complete (v := v.rated _ _) hfill _
    · exact fun hfill => Voice.withDry_dry_of_not_complete (v := v.rated _ _) hfill _
    · intro tag htag
      simp [hvoice, htag]
  case entry =>
    have hb' : (s.frameEnded t).bid? h.key.toNat = some b := hb
    refine ⟨_, hexec, ?_, State.bid_rateTaken (s := s.frameEnded t) rfl hv hb' _ _⟩
    rw [State.rateTaken_of_bid (s := s.frameEnded t) hv hb']
    exact State.finish_voices _
  case neither => rw [hexec, State.rateTaken_of_neither (s := s.frameEnded t) hv hb]

end Sys2Proof.Machine
end

