-- ==== Sys2Proof/Proofs/Follow.lean ====
section
/-! SUPPORT. What a FOLLOW and an UNFOLLOW answer (R139, R141, R142, R151 to R153): the order of the tests, and the
follow slot as the one field of the voice that changes, with one use of the region more or fewer. -/

namespace Sys2Proof.Machine

/-! ### Requests for a tag -/

/-- A request acts on the record that carries its tag, be there a bid entry as well (R139). -/
theorem State.request_of_voice {s : State} {tag : Nat} {v : Voice} (hv : s.voice? tag = some v)
    (onVoice : Voice → State) (onEntry : Bid → State) : s.request tag onVoice onEntry = onVoice v := by
  simp only [State.request, hv]

/-- A request without effect on a bid entry leaves a station that holds no record for its tag as it is (R141). -/
theorem State.request_of_no_voice {s : State} {tag : Nat} (hv : s.voice? tag = none) (onVoice : Voice → State) :
    s.request tag onVoice (fun _ => s) = s := by
  unfold State.request
  rw [hv]
  cases s.bid? tag <;> rfl

/-! ### The follow slot -/

/-- The follow slot of the voice of a tag, written or emptied (R26). -/
def State.setFollow (s : State) (tag : Nat) (slot : Option FollowSlot) : State :=
  s.updateVoice tag fun v => { v with follow := slot }

/-- The voice whose slot is set differs in its slot alone. -/
theorem State.voice_setFollow {s : State} {tag : Nat} {v : Voice} (hv : s.voice? tag = some v)
    (slot : Option FollowSlot) : (s.setFollow tag slot).voice? tag = some { v with follow := slot } := by
  simp [State.setFollow, State.voice_updateVoice s tag tag (fun v => { v with follow := slot }) fun _ => rfl, hv]

@[simp] theorem State.setFollow_uses (s : State) (tag : Nat) (slot : Option FollowSlot) (id : Nat) :
    (s.setFollow tag slot).uses? id = s.uses? id := rfl
@[simp] theorem State.frameEnded_uses (s : State) (t id : Nat) : (s.frameEnded t).uses? id = s.uses? id := rfl

/-- What the media controller and the catalogue do among themselves leaves each tag its voice. -/
theorem MediaStep.voice {s t : State} (m : MediaStep s t) (tag : Nat) : t.voice? tag = s.voice? tag := by
  unfold State.voice?
  rw [m.voices]

/-! ### The tests of a FOLLOW -/

/-- With no region of the id named, the tests of the region come to NOT-HELD (R151). -/
theorem State.followRefusal_of_no_region {s : State} {region : Nat} (hr : s.region? region = none) (v : Voice)
    (start : Nat) :
    s.followRefusal v region start =
      if v.fin.isSome ∨ v.cursor = none then some .late
      else if v.follow.isSome then some .slotFull
      else some .notHeld := by
  simp only [State.followRefusal, hr, Bool.or_eq_true, Option.isNone_iff_eq_none]

/-- With a region of the id named, its state, its format and its length are tested in turn (R151). -/
theorem State.followRefusal_of_region {s : State} {region : Nat} {r : Region} (hr : s.region? region = some r)
    (v : Voice) (start : Nat) :
    s.followRefusal v region start =
      if v.fin.isSome ∨ v.cursor = none then some .late
      else if v.follow.isSome then some .slotFull
      else if r.state ≠ .live then some .notHeld
      else if (s.region? v.region).map (·.format) ≠ some r.format then some .format
      else if ¬ start < r.frames then some .range else none := by
  simp only [State.followRefusal, hr, Bool.or_eq_true, Option.isNone_iff_eq_none, not_lt]

/-! ### The effects -/

/-- A FOLLOW that fails a test queues its REFUSED and does nothing else (R142, R151). -/
theorem State.followTaken_of_refusal {s : State} {v : Voice} {region start : Nat} {why : Reason}
    (h : s.followRefusal v region start = some why) (sender : Nat) :
    s.followTaken v region start sender = s.queueNotice sender (.refused 5 why v.tag) := by
  simp only [State.followTaken, h, State.refuse]

/-- A FOLLOW that passes the tests holds the slot and a use of the region (R152). -/
theorem State.followTaken_of_pass {s : State} {v : Voice} {region start : Nat}
    (h : s.followRefusal v region start = none) (sender : Nat) :
    s.followTaken v region start sender =
      (s.setFollow v.tag (some { region := region, offset := start })).addUse region := by
  simp only [State.followTaken, h, State.setFollow]

/-- An UNFOLLOW empties a held slot and releases its use (R153). -/
theorem State.unfollowTaken_of_held {v : Voice} {f : FollowSlot} (h : v.follow = some f) (s : State) :
    s.unfollowTaken v = (s.setFollow v.tag none).releaseUse f.region := by
  simp only [State.unfollowTaken, h, State.setFollow]

/-- An UNFOLLOW on an empty slot has no effect (R153). -/
theorem State.unfollowTaken_of_empty {v : Voice} (h : v.follow = none) (s : State) : s.unfollowTaken v = s := by
  simp only [State.unfollowTaken, h]

/-! ### The frames -/

/-- A FOLLOW that the station takes acts on the record of its tag in the state the frame's end leaves (R139). -/
theorem execFollow_of_voice {s : State} {h : Header} {v : Voice} (ht : s.takes h)
    (hv : s.voice? h.key.toNat = some v) (t : Nat) (region : BitVec 24) (offset : BitVec 32) :
    exec (.follow t h region offset) s =
      .next ((s.frameEnded t).followTaken v region.toNat (roundSegment offset.toNat) h.sender.toNat) :=
  congrArg Host.Outcome.next <| (s.receive_takes t h _ ht).trans <|
    State.request_of_voice (s := s.frameEnded t) hv _ _

/-- A FOLLOW at a station that holds no record for its tag (R139, R141). -/
theorem execFollow_of_no_voice {s : State} {h : Header} (ht : s.takes h) (hv : s.voice? h.key.toNat = none)
    (t : Nat) (region : BitVec 24) (offset : BitVec 32) :
    exec (.follow t h region offset) s = .next (s.frameEnded t) :=
  congrArg Host.Outcome.next <| (s.receive_takes t h _ ht).trans <|
    State.request_of_no_voice (s := s.frameEnded t) hv _

/-- An UNFOLLOW that the station takes acts on the record of its tag in the state the frame's end leaves (R139). -/
theorem execUnfollow_of_voice {s : State} {h : Header} {v : Voice} (ht : s.takes h)
    (hv : s.voice? h.key.toNat = some v) (t : Nat) :
    exec (.unfollow t h) s = .next ((s.frameEnded t).unfollowTaken v) :=
  congrArg Host.Outcome.next <| (s.receive_takes t h _ ht).trans <|
    State.request_of_voice (s := s.frameEnded t) hv _ _

/-- An UNFOLLOW at a station that holds no record for its tag (R139, R141). -/
theorem execUnfollow_of_no_voice {s : State} {h : Header} (ht : s.takes h) (hv : s.voice? h.key.toNat = none)
    (t : Nat) : exec (.unfollow t h) s = .next (s.frameEnded t) :=
  congrArg Host.Outcome.next <| (s.receive_takes t h _ ht).trans <|
    State.request_of_no_voice (s := s.frameEnded t) hv _

/-- Settles O31: the statement's chain of tests is the model's first refusal, on which the FOLLOW turns. -/
theorem followIsTestedInOrder : Obligations.FollowIsTestedInOrder := by
  refine ⟨fun s t h region offset ht hv => execFollow_of_no_voice ht hv t region offset, ?_⟩
  intro s t start h region offset v ht hv hstart reason hreason
  obtain rfl : start = roundSegment offset.toNat := hstart
  have htests : (s.frameEnded t).followRefusal v region.toNat (roundSegment offset.toNat) = reason := by
    cases hr : s.region? region.toNat with
    | none => rw [hreason, State.followRefusal_of_no_region (s := s.frameEnded t) hr, hr]
    | some r => rw [hreason, State.followRefusal_of_region (s := s.frameEnded t) hr, hr]; rfl
  have hexec := execFollow_of_voice ht hv t region offset
  cases reason with
  | some why => rwa [State.followTaken_of_refusal htests, State.voice_tag hv] at hexec
  | none =>
    rw [State.followTaken_of_pass htests, State.voice_tag hv] at hexec
    refine ⟨_, hexec, rfl, rfl, rfl, ?slot, ?uses⟩
    case slot =>
      rw [(State.addUse_step _ _).voice]
      exact State.voice_setFollow (s := s.frameEnded t) hv _
    case uses => simp [State.addUse_uses]

/-- Settles O32, by whether the station holds a record for the tag and, if so, its slot. -/
theorem unfollowEmptiesTheSlot : Obligations.UnfollowEmptiesTheSlot := by
  intro s t h ht
  refine ⟨fun v f hv hf => ?held, fun hempty => ?otherwise⟩
  case held =>
    have hexec := execUnfollow_of_voice ht hv t
    rw [State.unfollowTaken_of_held hf, State.voice_tag hv] at hexec
    refine ⟨_, hexec, rfl, rfl, rfl, ?slot, ?uses⟩
    case slot =>
      rw [(State.releaseUse_step _ _).voice]
      exact State.voice_setFollow (s := s.frameEnded t) hv _
    case uses => simp [State.releaseUse_uses]
  case otherwise =>
    cases hv : s.voice? h.key.toNat with
    | none => exact execUnfollow_of_no_voice ht hv t
    | some v => rw [execUnfollow_of_voice ht hv, State.unfollowTaken_of_empty (hempty v hv)]

end Sys2Proof.Machine
end

