-- ==== Sys2Proof/Proofs/Probe.lean ====
section
/-! SUPPORT. What a PROBE is answered with (R170): the record of the region it names, and the bid value that a CLAIM for
that region would carry (R91, R130). -/

namespace Sys2Proof.Machine

/-! ### The bid value -/

/-- The bid value, from the waiting reads and the long operation of the region's die and the records in use (R91,
R130). -/
theorem State.bidFor_eq (s : State) (r : Region) :
    s.bidFor r = 2048 * (if s.idleRecord? = none then 1 else 0) +
      min 2047 (8 * (s.die r.die).reads.length +
        256 * (if (s.die r.die).state.longOp?.isSome then 1 else 0) + s.voices.length / 2) := by
  have hidle : (if s.idleRecord?.isSome then 0 else 1) = if s.idleRecord? = none then 1 else 0 := by
    cases s.idleRecord? <;> rfl
  simp only [State.bidFor, Die.queued, Die.longBusy, hidle]

/-- The end of a frame changes no die and no voice record, and so no bid value. -/
@[simp] theorem State.frameEnded_bidFor (s : State) (t : Nat) (r : Region) :
    (s.frameEnded t).bidFor r = s.bidFor r := rfl

/-! ### The answer -/

/-- A PROBE of a region in the table is answered with its role, its state and its bid value (R170). -/
theorem State.probeTaken_of_region {s : State} {region : Nat} {r : Region} (hr : s.region? region = some r)
    (sender : Nat) :
    s.probeTaken region sender = s.queueNotice sender (.holds region r.role r.state (s.bidFor r)) := by
  simp only [State.probeTaken, hr]

/-- A PROBE of an id with no record in the table, as of a pending install, is not answered (R170). -/
theorem State.probeTaken_of_no_region {s : State} {region : Nat} (hr : s.region? region = none) (sender : Nat) :
    s.probeTaken region sender = s := by
  simp only [State.probeTaken, hr]

/-! ### The frame -/

/-- In STARTING the frame of a PROBE ends without effect (R170). -/
theorem execProbe_of_starting {s : State} {h : Header} (ht : s.takes h) (hst : s.station.state = .starting)
    (t : Nat) (region : BitVec 24) : exec (.probe t h region) s = .next (s.frameEnded t) :=
  congrArg Host.Outcome.next <| (s.receive_takes t h _ ht).trans <| by
    simp only [State.frameEnded_station, hst]

/-- Outside STARTING a PROBE that the station takes acts in the state the frame's end leaves (R118, R170). -/
theorem execProbe_of_started {s : State} {h : Header} (ht : s.takes h) (hst : s.station.state ≠ .starting)
    (t : Nat) (region : BitVec 24) :
    exec (.probe t h region) s = .next ((s.frameEnded t).probeTaken region.toNat h.sender.toNat) :=
  congrArg Host.Outcome.next <| (s.receive_takes t h _ ht).trans <| by
    cases hs : s.station.state with
    | starting => exact absurd hs hst
    | unconfigured | configured => simp only [State.frameEnded_station, hs]

/-- Settles O34: outside STARTING the answer turns on whether the region table holds the id, and the bid value is
that of the state before the frame's end. -/
theorem probeAnswersForHeldRegions : Obligations.ProbeAnswersForHeldRegions := by
  intro s t h region ht
  by_cases hst : s.station.state = .starting
  case pos => rw [execProbe_of_starting ht hst, hst]
  case neg =>
    rw [execProbe_of_started ht hst]
    cases hr : s.region? region.toNat with
    | none =>
      rw [State.probeTaken_of_no_region (s := s.frameEnded t) hr]
      cases s.station.state <;> rfl
    | some r =>
      rw [State.probeTaken_of_region (s := s.frameEnded t) hr, State.frameEnded_bidFor, State.bidFor_eq]
      cases hs : s.station.state with
      | starting => exact absurd hs hst
      | unconfigured | configured => rfl

end Sys2Proof.Machine
end

