-- ==== Sys2Proof/Proofs/Steady.lean ====
section
/-! SUPPORT. What the dies' decisions keep: the flash array, the link's state, the number of segment buffers that are
free or in use (R95), and the order of each read queue (R92). -/

namespace Sys2Proof.Machine

/-! ### The order of a read queue -/

/-- One read stands before another: its dry tick is less, or equal with the lower tag (R92). -/
def ReadRequest.before (a b : ReadRequest) : Prop := a.dry < b.dry ∨ (a.dry = b.dry ∧ a.tag ≤ b.tag)

theorem ReadRequest.before_trans {a b c : ReadRequest} (h : a.before b) (k : b.before c) : a.before c := by
  unfold ReadRequest.before at *
  omega

theorem ReadRequest.before_of_le {a b : ReadRequest} (h : a.le b = true) : a.before b := by
  simp only [ReadRequest.le, Bool.or_eq_true, Bool.and_eq_true, decide_eq_true_eq, beq_iff_eq] at h
  unfold ReadRequest.before
  omega

theorem ReadRequest.before_of_not_le {a b : ReadRequest} (h : ¬a.le b = true) : b.before a := by
  simp only [ReadRequest.le, Bool.or_eq_true, Bool.and_eq_true, decide_eq_true_eq, beq_iff_eq] at h
  unfold ReadRequest.before
  omega

theorem insertOrdered_perm {α : Type} (le : α → α → Bool) (x : α) (l : List α) :
    (insertOrdered le x l).Perm (x :: l) := by
  induction l with
  | nil => exact .refl _
  | cons y ys ih =>
    rw [insertOrdered]
    split
    · exact (ih.cons y).trans (.swap x y ys)
    · exact .refl _

theorem placeRead_perm (r : ReadRequest) (l : List ReadRequest) : (placeRead r l).Perm (r :: l) :=
  insertOrdered_perm _ r l

/-- A read that takes its place leaves the queue in order (R92). -/
theorem placeRead_pairwise (r : ReadRequest) {l : List ReadRequest} (h : l.Pairwise ReadRequest.before) :
    (placeRead r l).Pairwise ReadRequest.before := by
  unfold placeRead
  induction h with
  | nil => exact List.pairwise_singleton _ _
  | @cons y ys hy hys ih =>
    rw [insertOrdered]
    split
    next hle =>
      refine List.pairwise_cons.2 ⟨fun z hz => ?_, ih⟩
      rcases List.mem_cons.1 ((insertOrdered_perm _ r ys).mem_iff.1 hz) with rfl | hz
      · exact ReadRequest.before_of_le hle
      · exact hy z hz
    next hle =>
      have hry := ReadRequest.before_of_not_le hle
      refine List.pairwise_cons.2 ⟨fun z hz => ?_, List.pairwise_cons.2 ⟨hy, hys⟩⟩
      rcases List.mem_cons.1 hz with rfl | hz
      · exact hry
      · exact ReadRequest.before_trans hry (hy z hz)

/-- The reads that keep a buffer (R98). -/
def keptReads (l : List ReadRequest) : Nat := (l.filter (·.kept)).length

theorem keptReads_cons (r : ReadRequest) (l : List ReadRequest) :
    keptReads (r :: l) = (if r.kept then 1 else 0) + keptReads l := by
  unfold keptReads
  cases h : r.kept <;> simp [h, Nat.add_comm]

theorem keptReads_perm {l m : List ReadRequest} (h : l.Perm m) : keptReads l = keptReads m :=
  (h.filter _).length_eq

theorem keptReads_placeRead (r : ReadRequest) (l : List ReadRequest) :
    keptReads (placeRead r l) = (if r.kept then 1 else 0) + keptReads l := by
  rw [keptReads_perm (placeRead_perm r l), keptReads_cons]

/-- Reads that take other dry ticks keep their buffers, and are in order (R68). -/
theorem reorderReads_spec (moved : Nat → Option Nat) (reads : List ReadRequest) :
    (reorderReads moved reads).Pairwise ReadRequest.before ∧ keptReads (reorderReads moved reads) = keptReads reads := by
  have h : ∀ (l acc : List ReadRequest), acc.Pairwise ReadRequest.before →
      (l.foldl (fun acc r => placeRead (match moved r.tag with
        | some dry => { r with dry := dry }
        | none => r) acc) acc).Pairwise ReadRequest.before ∧
      keptReads (l.foldl (fun acc r => placeRead (match moved r.tag with
        | some dry => { r with dry := dry }
        | none => r) acc) acc) = keptReads l + keptReads acc := by
    intro l
    induction l with
    | nil => exact fun acc ha => ⟨ha, by simp [keptReads]⟩
    | cons r rs ih =>
      intro acc ha
      obtain ⟨h1, h2⟩ := ih _ (placeRead_pairwise (match moved r.tag with
        | some dry => { r with dry := dry }
        | none => r) ha)
      refine ⟨h1, h2.trans ?_⟩
      rw [keptReads_placeRead, keptReads_cons]
      cases moved r.tag <;> dsimp only <;> omega
  exact h reads [] List.Pairwise.nil

/-- A kept buffer given up leaves the order and one buffer fewer in the queue (R98). -/
theorem takeLastKept_spec {l m : List ReadRequest} (h : takeLastKept l = some m) :
    keptReads l = keptReads m + 1 ∧ l.map (fun r => (r.dry, r.tag)) = m.map fun r => (r.dry, r.tag) := by
  induction l generalizing m with
  | nil => cases h
  | cons r rs ih =>
    rw [takeLastKept] at h
    split at h
    next rs' hrs =>
      cases h
      obtain ⟨h1, h2⟩ := ih hrs
      exact ⟨by rw [keptReads_cons, keptReads_cons, h1]; omega, by simp [h2]⟩
    next hrs =>
      split at h
      next hk =>
        cases h
        exact ⟨by simp [keptReads_cons, hk]; omega, rfl⟩
      next => cases h

theorem pairwise_of_keys {l m : List ReadRequest}
    (h : l.map (fun r => (r.dry, r.tag)) = m.map fun r => (r.dry, r.tag)) (hl : l.Pairwise ReadRequest.before) :
    m.Pairwise ReadRequest.before := by
  have key (n : List ReadRequest) : n.Pairwise ReadRequest.before ↔
      (n.map fun r => (r.dry, r.tag)).Pairwise fun a b => a.1 < b.1 ∨ (a.1 = b.1 ∧ a.2 ≤ b.2) := by
    rw [List.pairwise_map]
    rfl
  exact (key m).2 (h ▸ (key l).1 hl)

/-- The head of a queue with its buffer: the buffers stay accounted for, and the rest is in order (R94, R98). -/
theorem takeHead_spec {free free' : Nat} {l rest : List ReadRequest} {r : ReadRequest}
    (h : takeHead free l = some (r, rest, free')) :
    free' + (1 + keptReads rest) = free + keptReads l ∧
      (l.Pairwise ReadRequest.before → rest.Pairwise ReadRequest.before) := by
  cases l with
  | nil => cases h
  | cons x xs =>
    rw [takeHead] at h
    split at h
    next hk =>
      cases h
      exact ⟨by simp [keptReads_cons, hk], fun hp => (List.pairwise_cons.1 hp).2⟩
    next hk =>
      split at h
      next hf =>
        cases h
        exact ⟨by simp [keptReads_cons, hk]; omega, fun hp => (List.pairwise_cons.1 hp).2⟩
      next hf =>
        cases ht : takeLastKept xs with
        | none => simp [ht] at h
        | some m =>
          simp only [ht, Option.map_some, Option.some.injEq, Prod.mk.injEq] at h
          obtain ⟨rfl, rfl, rfl⟩ := h
          obtain ⟨h1, h2⟩ := takeLastKept_spec ht
          exact ⟨by simp [keptReads_cons, hk]; omega, fun hp => pairwise_of_keys h2 (List.pairwise_cons.1 hp).2⟩

/-! ### Buffers -/

theorem Die.buffers_eq (die : Die) :
    die.buffers = die.state.activeRead?.isSome.toNat + keptReads die.reads := by
  unfold Die.buffers keptReads
  cases die.state.activeRead?.isSome <;> rfl

/-- The buffers that are free or in use (R95). -/
def State.bufferTotal (s : State) : Nat := s.media.freeBuffers + s.buffersInUse

/-- The buffers that wait for delivery or are posting (R95). -/
def DeliveryEngine.buffers (x : DeliveryEngine) : Nat := x.queue.length + x.posting.isSome.toNat

theorem State.bufferTotal_eq (s : State) :
    s.bufferTotal = s.media.freeBuffers + ((s.media.dies.map Die.buffers).sum + s.delivery.buffers) := by
  unfold State.bufferTotal State.buffersInUse DeliveryEngine.buffers
  cases s.delivery.posting.isSome <;> simp [Nat.add_assoc]

/-- A sum over a list with one element replaced. -/
theorem sum_map_set {α : Type} (f : α → Nat) (x : α) : ∀ (l : List α) (i : Nat) (h : i < l.length),
    ((l.set i x).map f).sum + f l[i] = (l.map f).sum + f x
  | y :: ys, 0, _ => by simp; omega
  | y :: ys, i + 1, h => by
    have := sum_map_set f x ys i (by simpa using h)
    simp only [List.set_cons_succ, List.map_cons, List.sum_cons, List.getElem_cons_succ]
    omega

theorem sum_map_modify {α : Type} (f : α → Nat) (g : α → α) (h : ∀ x, f (g x) = f x) (l : List α) (i : Nat) :
    ((l.modify i g).map f).sum = (l.map f).sum := by
  induction l generalizing i with
  | nil => simp
  | cons x xs ih => cases i <;> simp [h, ih]

theorem mem_modify {α : Type} {l : List α} {i : Nat} {g : α → α} {x : α} (h : x ∈ l.modify i g) :
    x ∈ l ∨ ∃ y ∈ l, x = g y := by
  induction l generalizing i with
  | nil => simp at h
  | cons y ys ih =>
    cases i with
    | zero =>
      rw [List.modify_zero_cons, List.mem_cons] at h
      rcases h with rfl | h
      · exact .inr ⟨y, by simp, rfl⟩
      · exact .inl (by simp [h])
    | succ i =>
      rw [List.modify_succ_cons, List.mem_cons] at h
      rcases h with rfl | h
      · exact .inl (by simp)
      · rcases ih h with h | ⟨z, hz, rfl⟩
        · exact .inl (by simp [h])
        · exact .inr ⟨z, by simp [hz], rfl⟩

/-! ### What a decision keeps -/

/-- From `s` to `t` the flash array, the link's state and the order of the read queues are kept, and `gain` buffers more
are free or in use. -/
structure Steady (gain : Nat) (s t : State) : Prop where
  flash   : t.media.flash = s.media.flash
  link    : t.delivery.link = s.delivery.link
  buffers : t.bufferTotal = s.bufferTotal + gain
  reads   : s.readsLawful → t.readsLawful

theorem Steady.refl (s : State) : Steady 0 s s := ⟨rfl, rfl, rfl, id⟩

theorem Steady.trans {m n : Nat} {s t u : State} (a : Steady m s t) (b : Steady n t u) : Steady (m + n) s u :=
  ⟨b.flash.trans a.flash, b.link.trans a.link, by rw [b.buffers, a.buffers, Nat.add_assoc], b.reads ∘ a.reads⟩

theorem Steady.foldl {α : Type} (f : State → α → State) (h : ∀ s a, Steady 0 s (f s a)) (l : List α) :
    ∀ s, Steady 0 s (l.foldl f s) := by
  induction l with
  | nil => exact Steady.refl
  | cons a as ih => exact fun s => (h s a).trans (ih _)

/-- A change outside the media controller and the delivery engine. -/
theorem Steady.of_eq {s t : State} (hm : t.media = s.media) (hd : t.delivery = s.delivery) : Steady 0 s t := by
  refine ⟨by rw [hm], by rw [hd], ?_, fun h => by rw [State.readsLawful, hm]; exact h⟩
  simp only [State.bufferTotal_eq, hm, hd, Nat.add_zero]

theorem Steady.after {n : Nat} {s t u : State} (a : Steady n s t) (hm : u.media = t.media)
    (hd : u.delivery = t.delivery) : Steady n s u := a.trans (.of_eq hm hd)

theorem Steady.setTimebase {n : Nat} {s t : State} (a : Steady n s t) (x : Timebase) : Steady n s (t.setTimebase x) :=
  a.after rfl rfl

theorem Steady.setVoices {n : Nat} {s t : State} (a : Steady n s t) (x : List Voice) : Steady n s (t.setVoices x) :=
  a.after rfl rfl

theorem Steady.setClaims {n : Nat} {s t : State} (a : Steady n s t) (x : ClaimUnit) : Steady n s (t.setClaims x) :=
  a.after rfl rfl

theorem Steady.setInstaller {n : Nat} {s t : State} (a : Steady n s t) (x : Installer) :
    Steady n s (t.setInstaller x) := a.after rfl rfl

theorem Steady.setStation {n : Nat} {s t : State} (a : Steady n s t) (x : Station) : Steady n s (t.setStation x) :=
  a.after rfl rfl

theorem Steady.setPort {n : Nat} {s t : State} (a : Steady n s t) (x : Port) : Steady n s (t.setPort x) :=
  a.after rfl rfl

theorem Steady.setNotices {n : Nat} {s t : State} (a : Steady n s t) (x : NoticeQueue) : Steady n s (t.setNotices x) :=
  a.after rfl rfl

theorem Steady.notice {n : Nat} {s t : State} (a : Steady n s t) (addressee : Nat) (body : NoticeBody) :
    Steady n s (t.queueNotice addressee body) := a.after rfl rfl

theorem Steady.setCatalogue (s : State) (x : Catalogue) : Steady 0 s (s.setCatalogue x) := .of_eq rfl rfl

theorem State.releaseUse_steady (s : State) (id : Nat) : Steady 0 s (s.releaseUse id) := .setCatalogue s _

theorem State.releaseUses_steady (ids : List Nat) (s : State) : Steady 0 s (s.releaseUses ids) :=
  Steady.foldl _ State.releaseUse_steady ids s

theorem Steady.setMedia (s : State) (x : Media) (hflash : x.flash = s.media.flash)
    (hfree : x.freeBuffers = s.media.freeBuffers) (hdies : x.dies = s.media.dies) : Steady 0 s (s.setMedia x) := by
  refine ⟨hflash, rfl, ?_, fun h => ?_⟩
  · simp only [State.bufferTotal_eq, State.setMedia_media, State.setMedia_delivery, hfree, hdies,
      Nat.add_zero]
  · rw [State.readsLawful, State.setMedia_media, hdies]
    exact h

/-- A change of one die that keeps its buffers and its queue's order. -/
theorem State.updateDie_steady (s : State) (d : Nat) (f : Die → Die) (hb : ∀ die, (f die).buffers = die.buffers)
    (hr : ∀ die, die.reads.Pairwise ReadRequest.before → (f die).reads.Pairwise ReadRequest.before) :
    Steady 0 s (s.updateDie d f) := by
  refine ⟨rfl, rfl, ?_, fun h die hd => ?_⟩
  · simp only [State.bufferTotal_eq, State.updateDie, State.setMedia_media, State.setMedia_delivery,
      sum_map_modify _ f hb, Nat.add_zero]
  · rcases mem_modify hd with hd | ⟨x, hx, rfl⟩
    · exact h die hd
    · exact hr x (h x hx)

theorem State.longOps_steady (s : State) (d : Nat) (f : List LongOp → List LongOp) :
    Steady 0 s (s.updateDie d fun die => { die with longOps := f die.longOps }) :=
  s.updateDie_steady d _ (fun _ => rfl) fun _ h => h

theorem State.die_eq_getElem {s : State} {d : Nat} (h : d < s.media.dies.length) : s.die d = s.media.dies[d] := by
  simp [State.die, List.getD_eq_getElem?_getD, h]

theorem State.die_eq_reset {s : State} {d : Nat} (h : ¬d < s.media.dies.length) : s.die d = Die.reset := by
  simp [State.die, List.getD_eq_getElem?_getD, List.getElem?_eq_none (by omega : s.media.dies.length ≤ d)]

/-- The die records with one replaced. -/
theorem Steady.setDie (s : State) (d : Nat) (x : Die) (free : Nat) (hd : d < s.media.dies.length)
    (hb : free + x.buffers = s.media.freeBuffers + (s.die d).buffers)
    (hr : (s.die d).reads.Pairwise ReadRequest.before → x.reads.Pairwise ReadRequest.before) :
    Steady 0 s (s.setMedia { s.media with dies := s.media.dies.set d x, freeBuffers := free }) := by
  rw [State.die_eq_getElem hd] at hb hr
  refine ⟨rfl, rfl, ?_, fun h die hdie => ?_⟩
  · have hsum := sum_map_set Die.buffers x s.media.dies d hd
    simp only [State.bufferTotal_eq, State.setMedia_media, State.setMedia_delivery]
    omega
  · rcases List.mem_or_eq_of_mem_set hdie with hdie | rfl
    · exact h die hdie
    · exact hr (h _ (List.getElem_mem hd))

theorem State.updateDie_eq_set {s : State} {d : Nat} (f : Die → Die) (hd : d < s.media.dies.length) :
    s.updateDie d f = s.setMedia { s.media with
      dies := s.media.dies.set d (f (s.die d)), freeBuffers := s.media.freeBuffers } := by
  have hset : s.media.dies.modify d f = s.media.dies.set d (f (s.die d)) := by
    rw [State.die_eq_getElem hd, List.modify_eq_set_getElem?]
    simp [hd]
  rw [State.updateDie, hset]

/-- The buffers once a die is changed. -/
theorem State.bufferTotal_updateDie {s : State} {d : Nat} (f : Die → Die) (hd : d < s.media.dies.length) :
    (s.updateDie d f).bufferTotal + (s.die d).buffers = s.bufferTotal + (f (s.die d)).buffers := by
  have hsum := sum_map_set Die.buffers (f (s.die d)) s.media.dies d hd
  rw [← State.die_eq_getElem hd] at hsum
  rw [State.updateDie_eq_set f hd, State.bufferTotal_eq, State.bufferTotal_eq]
  simp only [State.setMedia_media, State.setMedia_delivery]
  omega

theorem State.updateDie_reads {s : State} {d : Nat} {f : Die → Die} (hr : ∀ die,
    die.reads.Pairwise ReadRequest.before → (f die).reads.Pairwise ReadRequest.before) (h : s.readsLawful) :
    (s.updateDie d f).readsLawful := by
  intro die hdie
  rcases mem_modify hdie with hdie | ⟨x, hx, rfl⟩
  · exact h die hdie
  · exact hr x (h x hx)

theorem Die.begin_spec {die die' : Die} {free free' : Nat} (h : die.begin? free = some (die', free')) :
    free' + die'.buffers = free + die.buffers ∧
      (die.reads.Pairwise ReadRequest.before → die'.reads.Pairwise ReadRequest.before) ∧ die.reads ≠ [] := by
  unfold Die.begin? at h
  split at h
  · cases h
  next r rest free'' ht =>
    obtain ⟨hfree, hpair⟩ := takeHead_spec ht
    have hne : die.reads ≠ [] := fun h0 => by rw [h0] at ht; cases ht
    have key : ∀ x, die.state.reading? { req := r, discarded := false } = some x →
        die.state.activeRead?.isSome = false ∧ x.activeRead?.isSome = true := by
      intro x hx
      unfold DieState.reading? at hx
      split at hx <;> cases hx <;> simp_all [DieState.activeRead?]
    cases hx : die.state.reading? { req := r, discarded := false } with
    | none => simp [hx] at h
    | some x =>
      obtain ⟨h1, h2⟩ := key x hx
      simp only [hx, Option.map_some, Option.some.injEq, Prod.mk.injEq] at h
      obtain ⟨rfl, rfl⟩ := h
      refine ⟨?_, hpair, hne⟩
      simp only [Die.buffers_eq, h1, h2, Bool.toNat_true, Bool.toNat_false]
      omega

theorem State.beginRead_steady {s t : State} {d : Nat} (h : s.beginRead? d = some t) : Steady 0 s t := by
  unfold State.beginRead? at h
  cases hx : (s.die d).begin? s.media.freeBuffers with
  | none => simp [hx] at h
  | some x =>
    obtain ⟨hb, hr, hne⟩ := Die.begin_spec (die' := x.1) (free' := x.2) hx
    have hd : d < s.media.dies.length := by
      by_contra hd
      rw [State.die_eq_reset hd] at hne
      exact hne rfl
    simp only [hx, Option.map_some, Option.some.injEq] at h
    subst h
    exact Steady.setDie s d x.1 x.2 hd hb hr

theorem State.beginRead_getD_steady (s : State) (d : Nat) : Steady 0 s ((s.beginRead? d).getD s) := by
  cases h : s.beginRead? d with
  | none => exact Steady.refl s
  | some t => exact State.beginRead_steady h

theorem State.markStarted_steady (s : State) (d : Nat) (op : LongOp) : Steady 0 s (s.markStarted d op) := by
  cases op
  · exact Steady.refl s
  · exact Steady.setCatalogue s _

/-- A die that performs no read takes another state without one. -/
theorem State.setDieState_steady (s : State) (d : Nat) (f : Die → Die)
    (hreads : ∀ die, (f die).reads = die.reads)
    (hs : (s.die d).state.activeRead?.isSome = (f (s.die d)).state.activeRead?.isSome) :
    Steady 0 s (s.updateDie d f) := by
  refine ⟨rfl, rfl, ?_, State.updateDie_reads fun die h => by rwa [hreads]⟩
  by_cases hd : d < s.media.dies.length
  · have h := State.bufferTotal_updateDie f hd
    rw [Die.buffers_eq, Die.buffers_eq, hreads, hs] at h
    omega
  · rw [State.updateDie, List.modify_eq_self (by omega)]
    rfl

theorem State.takeLongOp_steady (s : State) (d : Nat) (h : (s.die d).state = .idle) :
    Steady 0 s (s.takeLongOp d).1 := by
  have h1 (l : List (Nat × Program)) : Steady 0 s (s.setMedia { s.media with frontFailed := l }) :=
    Steady.setMedia s _ rfl rfl rfl
  unfold State.takeLongOp
  dsimp only
  split
  · exact (h1 _).trans (State.longOps_steady _ d fun _ => [])
  next op rest _ =>
    exact ((h1 _).trans (State.setDieState_steady _ d (fun die => { die with state := .busy op, longOps := rest })
      (fun _ => rfl) (by
        change (s.die d).state.activeRead?.isSome = _
        rw [h]; rfl))).trans (State.markStarted_steady _ d op)

theorem State.idleChoice_steady (s : State) (d : Nat) : Steady 0 s (s.idleChoice d) := by
  unfold State.idleChoice
  split
  next hidle =>
    dsimp only
    split
    next s1 hs1 =>
      split at hs1
      · exact State.beginRead_steady hs1
      · cases hs1
    next =>
      have h1 := State.takeLongOp_steady s d hidle
      split
      · exact h1
      · exact h1.trans (State.beginRead_getD_steady _ d)
  next => exact Steady.refl s

theorem State.serviceDecision_steady (s : State) (d : Nat) : Steady 0 s (s.serviceDecision d) := by
  unfold State.serviceDecision
  split
  next op hop =>
    split
    · exact State.beginRead_getD_steady s d
    · exact State.setDieState_steady s d (fun die => { die with state := .busy op, lastResume := some s.clock })
        (fun _ => rfl) (by rw [hop]; rfl)
  all_goals exact Steady.refl s

theorem State.suspendTest_steady (s : State) (d : Nat) : Steady 0 s (s.suspendTest d) := by
  unfold State.suspendTest
  split
  next op hop =>
    split
    · exact State.setDieState_steady s d (fun die => { die with state := .suspendPending op })
        (fun _ => rfl) (by rw [hop]; rfl)
    · exact Steady.refl s
  all_goals exact Steady.refl s

theorem State.readsChanged_steady (s : State) (d : Nat) : Steady 0 s (s.readsChanged d) := by
  unfold State.readsChanged
  split
  · exact s.idleChoice_steady d
  · exact s.suspendTest_steady d
  · exact s.serviceDecision_steady d
  all_goals exact Steady.refl s

/-- A read without a buffer joins a queue (R92). -/
theorem State.joinReads_steady (s : State) (d : Nat) (r : ReadRequest) (h : r.kept = false) :
    Steady 0 s (s.joinReads d r) :=
  s.updateDie_steady d _ (fun die => by simp [Die.buffers_eq, keptReads_placeRead, h])
    fun _ hp => placeRead_pairwise r hp

theorem State.freeBuffer_steady (s : State) : Steady 1 s s.freeBuffer := by
  have h1 : Steady 1 s (s.setMedia { s.media with freeBuffers := s.media.freeBuffers + 1 }) := by
    refine ⟨rfl, rfl, ?_, id⟩
    simp only [State.bufferTotal_eq, State.setMedia_media, State.setMedia_delivery]
    omega
  unfold State.freeBuffer
  dsimp only
  split
  · exact h1.trans (State.beginRead_getD_steady _ _)
  · exact h1

theorem State.freeBuffers_steady (n : Nat) : ∀ s : State, Steady n s (s.freeBuffers n) := by
  induction n with
  | zero => exact Steady.refl
  | succ n ih =>
    intro s
    have h := s.freeBuffer_steady.trans (ih s.freeBuffer)
    rwa [Nat.add_comm] at h

theorem State.syncReads_steady (s : State) : Steady 0 s s.syncReads := by
  refine Steady.foldl _ (fun s d => ?_) _ s
  dsimp only
  split
  · obtain ⟨hp, hk⟩ := reorderReads_spec (fun tag => (s.voice? tag).bind (·.dry)) (s.die d).reads
    have h1 : Steady 0 s (s.updateDie d fun die =>
        { die with reads := reorderReads (fun tag => (s.voice? tag).bind (·.dry)) (s.die d).reads }) := by
      refine ⟨rfl, rfl, ?_, State.updateDie_reads fun _ _ => hp⟩
      by_cases hd : d < s.media.dies.length
      · have h := State.bufferTotal_updateDie (fun die =>
          { die with reads := reorderReads (fun tag => (s.voice? tag).bind (·.dry)) (s.die d).reads }) hd
        rw [Die.buffers_eq, Die.buffers_eq, hk] at h
        dsimp only at h
        omega
      · rw [State.updateDie, List.modify_eq_self (by omega)]
        rfl
    exact h1.trans (State.readsChanged_steady _ d)
  · exact Steady.refl s

theorem State.suspendTests_steady (s : State) : Steady 0 s s.suspendTests :=
  Steady.foldl _ State.suspendTest_steady _ s

theorem State.joinErases_steady (s : State) (d : Nat) (blocks : List Nat) : Steady 0 s (s.joinErases d blocks) := by
  unfold State.joinErases
  split
  · exact Steady.refl s
  · exact (s.longOps_steady d (· ++ blocks.map LongOp.erase)).trans (State.idleChoice_steady _ d)

theorem State.queueErasesOn_steady (s : State) (d : Nat) : Steady 0 s (s.queueErasesOn d) := s.joinErases_steady d _

theorem State.wipeDie_steady (s : State) (d : Nat) : Steady 0 s (s.wipeDie d) :=
  (Steady.setCatalogue s _).trans (State.joinErases_steady _ d _)

/-- A die that performs no read becomes IDLE (R101, R106). -/
theorem State.becomeIdle_steady (s : State) (d : Nat) (h : (s.die d).state.activeRead?.isSome = false) :
    Steady 0 s (s.becomeIdle d) :=
  (s.setDieState_steady d (fun die => { die with state := .idle, lastResume := none }) (fun _ => rfl)
    (by rw [h]; rfl)).trans (State.idleChoice_steady _ d)

/-! ### Retirement -/

theorem sum_map_add {α : Type} (f g : α → Nat) (l : List α) :
    (l.map fun x => f x + g x).sum = (l.map f).sum + (l.map g).sum := by
  induction l with
  | nil => rfl
  | cons x xs ih => simp only [List.map_cons, List.sum_cons, ih]; omega

theorem filter_length_split {α : Type} (p : α → Bool) (l : List α) :
    (l.filter fun x => !p x).length + (l.filter p).length = l.length := by
  induction l with
  | nil => rfl
  | cons x xs ih => cases h : p x <;> simp [h] <;> omega

theorem DieState.mapRead_active (f : ActiveRead → ActiveRead) (x : DieState) :
    (x.mapRead f).activeRead?.isSome = x.activeRead?.isSome := by
  cases x <;> rfl

theorem keptReads_split (p : ReadRequest → Bool) (l : List ReadRequest) :
    keptReads (l.filter fun r => !p r) + (l.filter fun r => p r && r.kept).length = keptReads l := by
  induction l with
  | nil => rfl
  | cons r rs ih =>
    rw [keptReads_cons]
    cases hp : p r <;> cases hk : r.kept <;> simp [hp, hk, keptReads_cons] <;> omega

/-- A read of a voice in `tags`. -/
def ReadRequest.of (tags : List Nat) (r : ReadRequest) : Bool := tags.contains r.tag

/-- A performed read of a voice in `tags` is marked (R33). -/
def ActiveRead.discard (tags : List Nat) (a : ActiveRead) : ActiveRead :=
  if a.req.of tags then { a with discarded := true } else a

/-- A die without the waiting reads of the voices in `tags`, its performed read marked (R33). -/
def Die.discard (tags : List Nat) (die : Die) : Die :=
  { die with reads := die.reads.filter fun r => !r.of tags, state := die.state.mapRead (·.discard tags) }

/-- The delivery engine without the segments of the voices in `tags`, the posting marked (R33). -/
def DeliveryEngine.discard (tags : List Nat) (x : DeliveryEngine) : DeliveryEngine :=
  { x with queue := x.queue.filter fun e => !tags.contains e.tag
           posting := x.posting.map fun p => if tags.contains p.seg.tag then { p with discarded := true } else p }

/-- The buffers of the segments that leave the queues (R33). -/
def State.discardCount (s : State) (tags : List Nat) : Nat :=
  (s.media.dies.map fun die => (die.reads.filter fun r => r.of tags && r.kept).length).sum +
    (s.delivery.queue.filter fun e => tags.contains e.tag).length

/-- The station once the queues have lost the segments of the voices in `tags`, their buffers not yet freed (R108). -/
def State.discarded (s : State) (tags : List Nat) : State :=
  (s.setMedia { s.media with dies := s.media.dies.map (·.discard tags) }).setDelivery (s.delivery.discard tags)

theorem State.discardSegments_eq (s : State) (tags : List Nat) :
    s.discardSegments tags = (dieNumbers.filter fun d => (s.die d).reads.any (·.of tags)).foldl State.readsChanged
      ((s.discarded tags).freeBuffers (s.discardCount tags)) := rfl

/-- The segments of retired voices give their buffers up, each once (R33). -/
theorem State.discardSegments_steady (s : State) (tags : List Nat) : Steady 0 s (s.discardSegments tags) := by
  have h1 : (s.discarded tags).bufferTotal + s.discardCount tags = s.bufferTotal := by
    have hdies : ((s.media.dies.map (·.discard tags)).map Die.buffers).sum +
        (s.media.dies.map fun die => (die.reads.filter fun r => r.of tags && r.kept).length).sum =
          (s.media.dies.map Die.buffers).sum := by
      rw [List.map_map, ← sum_map_add]
      congr 1
      refine List.map_congr_left fun die _ => ?_
      simp only [Function.comp, Die.discard, Die.buffers_eq, DieState.mapRead_active, Nat.add_assoc, keptReads_split]
    have hqueue := filter_length_split (fun e : Delivery => tags.contains e.tag) s.delivery.queue
    simp only [State.bufferTotal_eq, State.discarded, State.discardCount, DeliveryEngine.buffers,
      DeliveryEngine.discard, State.setMedia_media, State.setDelivery_media, State.setDelivery_delivery,
      Option.isSome_map]
    omega
  have h2 := State.freeBuffers_steady (s.discardCount tags) (s.discarded tags)
  rw [State.discardSegments_eq]
  refine Steady.trans (m := 0) (n := 0) ⟨h2.flash, h2.link, h2.buffers.trans h1, fun h => h2.reads ?_⟩
    (Steady.foldl _ State.readsChanged_steady _ _)
  intro die hd
  obtain ⟨x, hx, rfl⟩ := List.mem_map.1 hd
  exact (h x hx).filter _

end Sys2Proof.Machine
end

