-- ==== Sys2Proof/Proofs/Reports.lean ====
section
/-! SUPPORT. What the reports of one step do to the notice queue (R178): a notice of another voice stays as it is, one
that the reports may merge into keeps its kind and tag, and the queue and the loss count stay within their bounds. -/

namespace Sys2Proof.Machine

/-- From `s` to `t` the notice queue has taken reports, those of kinds that merge only for voices that `G` names, and
open notices of such voices may have closed. -/
structure Reported (G : Nat → Prop) (s t : State) : Prop where
  length  : s.notices.queue.length ≤ t.notices.queue.length
  kept    : ∀ (k : Nat) (n : Notice), s.notices.queue[k]? = some n →
    (∀ key, n.body.mergeKey = some key → ¬G key.2) → t.notices.queue[k]? = some n
  keys    : ∀ (k : Nat) (n : Notice), t.notices.queue[k]? = some n →
    (∃ m, s.notices.queue[k]? = some m ∧ n.body.mergeKey = m.body.mergeKey ∧ (n.isOpen → m.isOpen)) ∨
      ∀ key, n.body.mergeKey = some key → G key.2
  loss    : min 15 s.notices.loss ≤ t.notices.loss
  cap     : s.notices.queue.length ≤ 32 → t.notices.queue.length ≤ 32
  lossCap : s.notices.loss ≤ 15 → t.notices.loss ≤ 15
  count   : t.notices.offerCount = s.notices.offerCount

theorem Reported.of_eq {G : Nat → Prop} {s t : State} (h : t.notices = s.notices) : Reported G s t := by
  refine ⟨by rw [h], fun k n hk _ => by rwa [h], fun k n hk => .inl ⟨n, by rwa [h] at hk, rfl, id⟩, ?_, ?_, ?_, ?_⟩
  all_goals rw [h]
  · exact Nat.min_le_right _ _
  · exact id
  · exact id

theorem Reported.refl {G : Nat → Prop} (s : State) : Reported G s s := .of_eq rfl

theorem Reported.trans {G : Nat → Prop} {s t u : State} (a : Reported G s t) (b : Reported G t u) :
    Reported G s u := by
  refine ⟨a.length.trans b.length, fun k n h hm => b.kept k n (a.kept k n h hm) hm, fun k n h => ?_, ?_,
    b.cap ∘ a.cap, b.lossCap ∘ a.lossCap, b.count.trans a.count⟩
  · rcases b.keys k n h with ⟨m, hm, hkey, hopen⟩ | h
    · rcases a.keys k m hm with ⟨l, hl, hkey', hopen'⟩ | h'
      · exact .inl ⟨l, hl, hkey.trans hkey', hopen' ∘ hopen⟩
      · exact .inr (hkey ▸ h')
    · exact .inr h
  · have := a.loss; have := b.loss; omega

theorem Reported.mono {G G' : Nat → Prop} {s t : State} (a : Reported G s t) (h : ∀ g, G g → G' g) :
    Reported G' s t :=
  ⟨a.length, fun k n hk hn => a.kept k n hk fun key hkey hg => hn key hkey (h _ hg),
    fun k n hk => (a.keys k n hk).imp id fun hn key hkey => h _ (hn key hkey), a.loss, a.cap, a.lossCap, a.count⟩

theorem Reported.foldl {α : Type} {G : Nat → Prop} (f : State → α → State) (h : ∀ s a, Reported G s (f s a))
    (l : List α) : ∀ s, Reported G s (l.foldl f s) := by
  induction l with
  | nil => exact Reported.refl
  | cons a as ih => exact fun s => (h s a).trans (ih _)

theorem Reported.noticeStep {G : Nat → Prop} {s t : State} (a : Reported G s t) : NoticeStep s t :=
  ⟨a.length, fun k n hk hm => a.kept k n hk (by simp [hm]), a.loss⟩

@[simp] theorem NoticeBody.mergeKey_merge (a b : NoticeBody) : (a.merge b).mergeKey = a.mergeKey := by
  cases a <;> cases b <;> rfl

theorem Notice.takes_key {n : Notice} {body : NoticeBody} (h : n.takes body = true) :
    ∃ key, n.body.mergeKey = some key ∧ body.mergeKey = some key := by
  simp only [Notice.takes, Bool.and_eq_true, beq_iff_eq] at h
  obtain ⟨⟨-, hb⟩, hk⟩ := h
  obtain ⟨key, hkey⟩ := Option.isSome_iff_exists.1 hb
  exact ⟨key, hk.trans hkey, hkey⟩

/-- At each place of a list with its first passing element changed stands what stood there, or the change of an element
that passes. -/
theorem getElem_of_updateFirst {α : Type} {p : α → Bool} {f : α → α} {l : List α} {k : Nat} {x : α}
    (h : (updateFirst p f l)[k]? = some x) : l[k]? = some x ∨ ∃ y, l[k]? = some y ∧ p y = true ∧ x = f y := by
  induction l generalizing k with
  | nil => simp [updateFirst] at h
  | cons y ys ih =>
    rw [updateFirst] at h
    cases k with
    | zero =>
      split at h
      next hp => exact .inr ⟨y, rfl, hp, by simpa using h.symm⟩
      next => exact .inl (by simpa using h)
    | succ k =>
      split at h
      · exact .inl (by simpa using h)
      · simpa using ih (by simpa using h)

/-- A report of a voice that `G` names joins, merges or is dropped. -/
theorem State.queueNotice_reported {G : Nat → Prop} (s : State) (addressee : Nat) (body : NoticeBody)
    (hG : ∀ key, body.mergeKey = some key → G key.2) : Reported G s (s.queueNotice addressee body) := by
  have base := s.queueNotice_noticeStep addressee body
  unfold State.queueNotice at base ⊢
  generalize hn : ({ addressee := addressee, body := body, isOpen := body.mergeKey.isSome } : Notice) = n at base ⊢
  have hbody : n.body = body := by rw [← hn]
  have join : Reported G s (s.setNotices (s.notices.join n)) := by
    rcases s.notices.join_cases n with ⟨hlt, h⟩ | ⟨hge, h⟩
    · refine ⟨by simp [h], fun k m hk _ => ?_, fun k m hk => ?_, by simp [h], fun _ => by simp [h]; omega,
        fun hl => by simpa [h] using hl, by simp [h]⟩
      · have hl := (List.getElem?_eq_some_iff.1 hk).1
        simpa [h, List.getElem?_append, hl] using hk
      · rw [State.setNotices_notices, h, List.getElem?_append] at hk
        split at hk
        · exact .inl ⟨m, hk, rfl, id⟩
        · rw [List.getElem?_singleton] at hk
          split at hk
          · cases hk
            rw [hbody]
            exact .inr hG
          · cases hk
    · refine ⟨by simp [h], fun k m hk _ => by simpa [h] using hk, fun k m hk => .inl ⟨m, by simpa [h] using hk, rfl, id⟩,
        by simp only [State.setNotices_notices, h]; omega, fun hl => by simpa [h] using hl,
        fun _ => by simp only [State.setNotices_notices, h]; omega, by simp [h]⟩
  have merged (m : Notice) (hm : m.takes n.body = true) : ∃ key, m.body.mergeKey = some key ∧ G key.2 := by
    obtain ⟨key, h1, h2⟩ := Notice.takes_key hm
    exact ⟨key, h1, hG key (hbody ▸ h2)⟩
  unfold NoticeQueue.report at base ⊢
  split
  · exact join
  next head rest hq =>
    split
    next ht =>
      obtain ⟨key, hkey, hg⟩ := merged head ht
      split
      · exact ⟨Nat.le_refl _, fun k m hk _ => hk, fun k m hk => .inl ⟨m, hk, rfl, id⟩, Nat.min_le_right _ _, id, id,
          rfl⟩
      · refine ⟨by simp [hq], fun k m hk hm => ?_, fun k m hk => ?_, by simp, by simp [hq], by simp, rfl⟩
        · rw [hq] at hk
          cases k with
          | zero =>
            simp only [List.getElem?_cons_zero, Option.some.injEq] at hk
            subst hk
            exact absurd hg (hm key hkey)
          | succ k => simpa using hk
        · rw [hq]
          cases k with
          | zero =>
            simp only [State.setNotices_notices, List.getElem?_cons_zero, Option.some.injEq] at hk
            subst hk
            exact .inl ⟨head, rfl, by simp, id⟩
          | succ k => exact .inl ⟨m, by simpa using hk, rfl, id⟩
    next =>
      split
      · refine ⟨by simp [hq], fun k m hk hm => ?_, fun k m hk => ?_, by simp, by simp [hq], by simp, rfl⟩
        · rw [hq] at hk
          cases k with
          | zero => simpa using hk
          | succ k =>
            simp only [List.getElem?_cons_succ] at hk
            have hno : m.takes n.body = false := by
              by_contra ht
              obtain ⟨key, hkey, hg⟩ := merged m (by simpa using ht)
              exact hm key hkey hg
            simpa using getElem_updateFirst _ _ _ k m hno hk
        · rw [hq]
          cases k with
          | zero => exact .inl ⟨m, by simpa using hk, rfl, id⟩
          | succ k =>
            simp only [State.setNotices_notices, List.getElem?_cons_succ] at hk ⊢
            rcases getElem_of_updateFirst hk with hk | ⟨y, hy, -, rfl⟩
            · exact .inl ⟨m, hk, rfl, id⟩
            · exact .inl ⟨y, hy, by simp, id⟩
      · exact join

/-- A report of a kind that takes no merge. -/
theorem State.queueNotice_plain {G : Nat → Prop} (s : State) (addressee : Nat) (body : NoticeBody)
    (h : body.mergeKey = none) : Reported G s (s.queueNotice addressee body) :=
  s.queueNotice_reported addressee body (by simp [h])

theorem State.closeNotices_reported (s : State) (g : Nat) : Reported (· = g) s (s.closeNotices g) := by
  have hkey (n : Notice) : (n.closeFor g).body = n.body ∧ ((n.closeFor g).isOpen → n.isOpen) := by
    unfold Notice.closeFor
    split
    · exact ⟨rfl, fun h => by cases h⟩
    · exact ⟨rfl, id⟩
  refine ⟨by simp [State.closeNotices], fun k n hk hm => ?_, fun k n hk => ?_, by simp [State.closeNotices],
    by simp [State.closeNotices], by simp [State.closeNotices], rfl⟩
  · have : n.closeFor g = n := by
      unfold Notice.closeFor
      refine if_neg fun h => ?_
      obtain ⟨key, hk, rfl⟩ := Option.map_eq_some_iff.1 h
      exact hm key hk rfl
    simp [State.closeNotices, hk, this]
  · simp only [State.closeNotices, State.setNotices_notices, List.getElem?_map, Option.map_eq_some_iff] at hk
    obtain ⟨m, hm, rfl⟩ := hk
    exact .inl ⟨m, hm, by rw [(hkey m).1], (hkey m).2⟩

/-- An UNDERRUN that finds none of its voice open in the queue is told as a notice of its own, whatever other voices
report before and after it in the step (R86, R178). -/
theorem State.toldUnderrun_of_reported {G : Nat → Prop} {s t u : State} {v w : Voice} {gapStart gapLength count : Nat}
    (hG : ¬G v.tag) (htag : w.tag = v.tag) (hreq : w.requester = v.requester) (a : Reported G s t)
    (b : Reported G (t.reportUnderrun w gapStart gapLength count) u) :
    s.toldUnderrun u v gapStart gapLength count := by
  intro hnone
  have hopen : ∀ n ∈ t.notices.queue, n.takes (.underrun v.tag gapStart gapLength count) = false := by
    intro n hn
    by_contra ht
    have hio : n.isOpen = true := by
      simp only [Notice.takes, Bool.not_eq_false, Bool.and_eq_true] at ht
      exact ht.1.1
    obtain ⟨key, hkey, hb⟩ := Notice.takes_key (by simpa using ht)
    cases hb
    obtain ⟨k, hk⟩ := List.getElem?_of_mem hn
    rcases a.keys k n hk with ⟨m, hm, hkeys, hop⟩ | hn
    · exact hnone m (List.mem_of_getElem? hm) (hop hio) (hkeys ▸ hkey)
    · exact hG (hn _ hkey)
  have hjoin : (t.reportUnderrun w gapStart gapLength count).notices = t.notices.join
      { addressee := v.requester, body := .underrun v.tag gapStart gapLength count, isOpen := true } := by
    unfold State.reportUnderrun State.queueNotice NoticeQueue.report
    rw [htag, hreq, State.setNotices_notices]
    split
    · rfl
    next head rest hq =>
      rw [hq] at hopen
      have hrest : (rest.any fun n => n.takes (.underrun v.tag gapStart gapLength count)) = false := by
        simpa using fun n hn => hopen n (List.mem_cons_of_mem _ hn)
      rw [if_neg (by simp [hopen head (List.mem_cons_self ..)]), if_neg (by simp [hrest])]
      rfl
  rcases t.notices.join_cases { addressee := v.requester, body := .underrun v.tag gapStart gapLength count, isOpen := true }
    with ⟨-, h⟩ | ⟨hl, h⟩
  · have hk := b.kept t.notices.queue.length _ (by rw [hjoin, h]; simp; rfl)
      fun key hkey => by cases hkey; exact hG
    refine .inl (List.mem_drop_iff_getElem.2 ?_)
    obtain ⟨hlt, he⟩ := List.getElem?_eq_some_iff.1 hk
    have hle := a.length
    exact ⟨t.notices.queue.length - s.notices.queue.length, by omega, by simp only [Nat.add_sub_cancel' hle]; exact he⟩
  · have h1 := b.length
    have h2 := b.loss
    have h3 := a.loss
    rw [hjoin, h] at h1 h2
    exact .inr ⟨hl.trans h1, by dsimp only at h2; omega⟩

end Sys2Proof.Machine
end

