-- ==== Sys2Proof/Proofs/Fills.lean ====
section
/-! SUPPORT. The fill scheduler as functions of one voice record (R71 to R86): each operation on the voice of a tag
changes the first record that carries the tag, by a function of that record, of the region table less its in-use counts,
of the ring length and of the tick counter, and no other record. -/

namespace Sys2Proof.Machine

/-! ### One record of a keyed list -/

/-- With nothing at the key the list is left as it is. -/
theorem updateFirst_of_find_none {α : Type} {p : α → Bool} {f : α → α} {l : List α} (h : l.find? p = none) :
    updateFirst p f l = l := by
  induction l with
  | nil => rfl
  | cons x xs ih =>
    rw [List.find?_cons] at h
    split at h
    · cases h
    · rename_i hp
      rw [updateFirst, if_neg (by simp [hp]), ih h]

/-- Only what the change makes of the element found matters. -/
theorem updateFirst_congr {α : Type} {p : α → Bool} {f g : α → α} {l : List α}
    (h : ∀ x, l.find? p = some x → f x = g x) : updateFirst p f l = updateFirst p g l := by
  induction l with
  | nil => rfl
  | cons x xs ih =>
    rw [updateFirst, updateFirst]
    split
    · rw [h x (by simp [*])]
    · rw [ih fun y hy => h y (by simp [*])]

/-- Two changes of the element found are one. -/
theorem updateFirst_updateFirst {α : Type} {p : α → Bool} {f g : α → α} {l : List α}
    (h : ∀ x, l.find? p = some x → p (f x) = true) :
    updateFirst p g (updateFirst p f l) = updateFirst p (g ∘ f) l := by
  induction l with
  | nil => rfl
  | cons x xs ih =>
    by_cases hx : p x = true
    · simp [updateFirst, hx, h x (by simp [hx])]
    · simp [updateFirst, hx, ih fun y hy => h y (by simp [hx, hy])]

/-- The element changed is found if it still passes. -/
theorem updateFirst_find {α : Type} {p : α → Bool} {l : List α} {x y : α} (hy : p y = true) (h : l.find? p = some x) :
    (updateFirst p (fun _ => y) l).find? p = some y := by
  induction l with
  | nil => cases h
  | cons z zs ih =>
    rw [updateFirst]
    split
    · simp [hy]
    next hz => simp_all

/-- A field that the change of the element found leaves alone. -/
theorem updateFirst_map_found {α β : Type} {p : α → Bool} (key : α → β) {l : List α} {x y : α} (h : l.find? p = some x)
    (hk : key y = key x) : (updateFirst p (fun _ => y) l).map key = l.map key := by
  induction l with
  | nil => cases h
  | cons z zs ih =>
    rw [updateFirst]
    split
    · simp_all
    · simp_all

theorem updateFirst_id {α : Type} {p : α → Bool} {f : α → α} {l : List α}
    (h : ∀ x, l.find? p = some x → f x = x) : updateFirst p f l = l := by
  induction l with
  | nil => rfl
  | cons x xs ih =>
    rw [updateFirst]
    split
    · rw [h x (by simp [*])]
    · rw [ih fun y hy => h y (by simp [*])]

theorem filter_updateFirst {α : Type} {p q : α → Bool} {f : α → α} {l : List α}
    (h : ∀ x, l.find? p = some x → q x = false ∧ q (f x) = false) : (updateFirst p f l).filter q = l.filter q := by
  induction l with
  | nil => rfl
  | cons x xs ih =>
    by_cases hx : p x = true
    · obtain ⟨h1, h2⟩ := h x (by simp [hx])
      simp [updateFirst, hx, h1, h2]
    · simp [updateFirst, hx, List.filter_cons, ih fun y hy => h y (by simp [hx, hy])]

/-- A sum over a list with the element found changed. -/
theorem sum_updateFirst {α : Type} (c : α → Nat) (p : α → Bool) (f : α → α) {l : List α} {x : α}
    (h : l.find? p = some x) : ((updateFirst p f l).map c).sum + c x = (l.map c).sum + c (f x) := by
  induction l with
  | nil => cases h
  | cons y ys ih =>
    rw [List.find?_cons] at h
    rw [updateFirst]
    split at h
    next hy =>
      cases h
      simp only [hy, if_true, List.map_cons, List.sum_cons]
      omega
    next hy =>
      have := ih h
      simp only [hy, Bool.false_eq_true, if_false, List.map_cons, List.sum_cons]
      omega

/-- The voice table once the first record of tag `g` has become what `o` makes of it, or the records of the tag have
left. -/
def voicesAfter (g : Nat) (o : Voice → Option Voice) (l : List Voice) : List Voice :=
  match l.find? (·.tag == g) with
  | none => l
  | some v =>
    match o v with
    | some w => updateFirst (·.tag == g) (fun _ => w) l
    | none => l.filter (·.tag != g)

theorem voicesAfter_of_none {g : Nat} {o : Voice → Option Voice} {l : List Voice}
    (h : l.find? (·.tag == g) = none) : voicesAfter g o l = l := by
  simp only [voicesAfter, h]

theorem voicesAfter_of_leaves {g : Nat} {o : Voice → Option Voice} {l : List Voice} {v : Voice}
    (h : l.find? (·.tag == g) = some v) (ho : o v = none) : voicesAfter g o l = l.filter (·.tag != g) := by
  simp only [voicesAfter, h, ho]

theorem voicesAfter_of_stays {g : Nat} {o : Voice → Option Voice} {l : List Voice} {v w : Voice}
    (h : l.find? (·.tag == g) = some v) (ho : o v = some w) :
    voicesAfter g o l = updateFirst (·.tag == g) (fun _ => w) l := by
  simp only [voicesAfter, h, ho]

theorem voicesAfter_congr {g : Nat} {o o' : Voice → Option Voice} {l : List Voice}
    (h : ∀ v, l.find? (·.tag == g) = some v → o v = o' v) : voicesAfter g o l = voicesAfter g o' l := by
  unfold voicesAfter
  split
  · rfl
  next v hv => rw [h v hv]

theorem voicesAfter_update (g : Nat) (f : Voice → Voice) (l : List Voice) :
    voicesAfter g (fun v => some (f v)) l = updateFirst (·.tag == g) f l := by
  unfold voicesAfter
  split
  next h => exact (updateFirst_of_find_none h).symm
  next v hv => exact updateFirst_congr fun x hx => by rw [hv] at hx; cases hx; rfl

theorem find_tag {l : List Voice} {g : Nat} {v : Voice} (h : l.find? (·.tag == g) = some v) : v.tag = g := by
  have := List.find?_some h
  simpa using this

theorem find_filter_tag (l : List Voice) (g : Nat) : (l.filter (·.tag != g)).find? (·.tag == g) = none := by
  rw [List.find?_eq_none]
  intro x hx
  have := (List.mem_filter.1 hx).2
  simpa using this

theorem find_voicesAfter {g : Nat} {o : Voice → Option Voice} {l : List Voice}
    (ht : ∀ v w, o v = some w → w.tag = v.tag) :
    (voicesAfter g o l).find? (·.tag == g) = (l.find? (·.tag == g)).bind o := by
  cases h : l.find? (·.tag == g) with
  | none => rw [voicesAfter_of_none h, h]; rfl
  | some v =>
    cases ho : o v with
    | none => rw [voicesAfter_of_leaves h ho, find_filter_tag, Option.bind_some, ho]
    | some w =>
      have hw : (w.tag == g) = true := by simp [ht v w ho, find_tag h]
      rw [voicesAfter_of_stays h ho, updateFirst_find (p := fun x : Voice => x.tag == g) hw h, Option.bind_some, ho]

theorem voicesAfter_trans {g : Nat} {o o' : Voice → Option Voice} {l : List Voice}
    (ht : ∀ v w, o v = some w → w.tag = v.tag) :
    voicesAfter g o' (voicesAfter g o l) = voicesAfter g (fun v => (o v).bind o') l := by
  have hfind := find_voicesAfter (g := g) (l := l) ht
  cases h : l.find? (·.tag == g) with
  | none =>
    rw [h] at hfind
    rw [voicesAfter_of_none hfind, voicesAfter_of_none h, voicesAfter_of_none h]
  | some v =>
    rw [h, Option.bind_some] at hfind
    cases ho : o v with
    | none =>
      rw [ho] at hfind
      rw [voicesAfter_of_none hfind, voicesAfter_of_leaves h ho,
        voicesAfter_of_leaves (o := fun v => (o v).bind o') h (by rw [ho]; rfl)]
    | some w =>
      rw [ho] at hfind
      have hw : (w.tag == g) = true := by simp [ht v w ho, find_tag h]
      cases ho' : o' w with
      | none =>
        rw [voicesAfter_of_leaves hfind ho', voicesAfter_of_stays h ho,
          voicesAfter_of_leaves (o := fun v => (o v).bind o') h (by rw [ho]; exact ho')]
        refine filter_updateFirst fun x hx => ?_
        simp [find_tag hx, find_tag hfind]
      | some x =>
        rw [voicesAfter_of_stays hfind ho', voicesAfter_of_stays h ho,
          voicesAfter_of_stays (o := fun v => (o v).bind o') h (by rw [ho]; exact ho'),
          updateFirst_updateFirst (p := fun x : Voice => x.tag == g) fun _ _ => hw]
        rfl

theorem voicesAfter_tags {g : Nat} {o : Voice → Option Voice} {l : List Voice}
    (ht : ∀ v w, o v = some w → w.tag = v.tag) :
    ((voicesAfter g o l).map (·.tag)).Sublist (l.map (·.tag)) := by
  cases h : l.find? (·.tag == g) with
  | none => rw [voicesAfter_of_none h]
  | some v =>
    cases ho : o v with
    | none => rw [voicesAfter_of_leaves h ho]; exact List.filter_sublist.map _
    | some w =>
      rw [voicesAfter_of_stays h ho, updateFirst_map_found (·.tag) h (ht v w ho)]

@[simp] theorem voicesAfter_some (g : Nat) (l : List Voice) : voicesAfter g some l = l :=
  (voicesAfter_update g id l).trans (updateFirst_id fun _ _ => rfl)

/-- With tags distinct every record of tag `g` is the one found. -/
theorem voicesAfter_filterMap {g : Nat} {o : Voice → Option Voice} {l : List Voice} (h : (l.map (·.tag)).Nodup) :
    voicesAfter g o l = l.filterMap fun v => if v.tag = g then o v else some v := by
  have others (l : List Voice) (hl : ∀ v ∈ l, v.tag ≠ g) :
      (l.filterMap fun v => if v.tag = g then o v else some v) = l := by
    induction l with
    | nil => rfl
    | cons v vs ih =>
      rw [List.filterMap_cons, if_neg (hl v (by simp))]
      dsimp only
      rw [ih fun x hx => hl x (by simp [hx])]
  induction l with
  | nil => rfl
  | cons v vs ih =>
    rw [List.map_cons, List.nodup_cons] at h
    by_cases hv : v.tag = g
    · have hvs : ∀ x ∈ vs, x.tag ≠ g := fun x hx hx' => h.1 (List.mem_map.2 ⟨x, hx, hx'.trans hv.symm⟩)
      rw [List.filterMap_cons, if_pos hv, others vs hvs]
      have hf : (v :: vs).find? (·.tag == g) = some v := by simp [hv]
      cases ho : o v with
      | none =>
        rw [voicesAfter_of_leaves hf ho, List.filter_cons_of_neg (by simp [hv])]
        exact List.filter_eq_self.2 fun x hx => by simpa using hvs x hx
      | some w =>
        rw [voicesAfter_of_stays hf ho, updateFirst, if_pos (by simp [hv])]
    · rw [List.filterMap_cons, if_neg hv, ← ih h.2]
      have hf : (v :: vs).find? (·.tag == g) = vs.find? (·.tag == g) := by simp [hv]
      unfold voicesAfter
      rw [hf]
      split
      · rfl
      · split
        · rw [updateFirst, if_neg (by simpa using hv)]
        · rw [List.filter_cons_of_pos (by simpa using hv)]

/-! ### The region table as the fill scheduler reads it -/

/-- The region of an id, less its in-use count. -/
def State.look (s : State) (id : Nat) : Option Region := (s.region? id).map Region.unused

/-- From `s` to `t` the region table is as it was but for in-use counts. -/
def SameTable (s t : State) : Prop := t.catalogue.regions.map Region.unused = s.catalogue.regions.map Region.unused

theorem SameTable.look {s t : State} (h : SameTable s t) : t.look = s.look := by
  have key (u : State) (id : Nat) : u.look id = (u.catalogue.regions.map Region.unused).find? (·.id == id) := by
    rw [List.find?_map]
    rfl
  funext id
  rw [key, key, h]

theorem SameTable.of_eq {s t : State} (h : t.catalogue.regions = s.catalogue.regions) : SameTable s t := by
  unfold SameTable
  rw [h]

theorem State.releaseUse_table (s : State) (id : Nat) : SameTable s (s.releaseUse id) :=
  updateFirst_map _ (fun r : Region => { r with inUse := r.inUse - 1 }) Region.unused (fun _ => rfl) _

theorem State.releaseUses_table (ids : List Nat) : ∀ s : State, SameTable s (s.releaseUses ids) := by
  induction ids with
  | nil => exact fun s => .of_eq rfl
  | cons id ids ih => exact fun s => (ih (s.releaseUse id)).trans (s.releaseUse_table id)

theorem State.look_of_region {s : State} {id : Nat} {r : Region} (h : s.region? id = some r) :
    s.look id = some r.unused := by
  simp [State.look, h]

theorem State.look_of_no_region {s : State} {id : Nat} (h : s.region? id = none) : s.look id = none := by
  simp [State.look, h]

/-! ### The functions -/

/-- The record once its cursor has advanced (R72 to R75). -/
def Voice.advance (look : Nat → Option Region) (v : Voice) : Voice :=
  match v.cursor, look v.region with
  | some k, some r =>
    match v.wrapTo r k with
    | some k' => { v with cursor := some k' }
    | none =>
      if k + 1 < r.segments then { v with cursor := some (k + 1) }
      else
        match v.follow with
        | some f => v.stitched f ((look f.region).bind (·.loop)).isSome
        | none => { v with cursor := none, fin := some (v.fin.getD (v.regionEnd r)) }
  | _, _ => v

/-- The record once its next segment is issued, if it is eligible (R77, R78). -/
def Voice.tested (look : Nat → Option Region) (ring : Nat) (v : Voice) : Voice :=
  if v.eligible ring && (v.cursor.any fun k => (look v.region).any fun r => (r.locate k).isSome) then
    v.issued.advance look
  else v

/-- The record once a skip has passed over at most `count` ring segments (R85). -/
def Voice.passed (look : Nat → Option Region) : Nat → Voice → Voice
  | 0, v => v
  | count + 1, v => if v.cursor.isNone then v else (v.passedOver.advance look).passed look count

/-- The record FILLING again, its dry tick computed and its eligibility tested (R80, R86). -/
def Voice.refilled (look : Nat → Option Region) (ring now : Nat) (v : Voice) : Voice :=
  (({ v with fill := .filling, dryFrame := none } : Voice).withDry now).tested look ring

/-- The record after a skip (R84 to R86). -/
def Voice.skipped (look : Nat → Option Region) (ring now : Nat) (v : Voice) : Voice :=
  if (v.passed look v.skipCount).fillLimit then (v.passed look v.skipCount).completed
  else (v.passed look v.skipCount).refilled look ring now

/-- The record after its dry event (R82). -/
def Voice.dried (look : Nat → Option Region) (ring now : Nat) (v : Voice) : Voice :=
  if v.inFlight.isNone then v.skipped look ring now
  else { v with fill := .late, dryFrame := some v.firstMissing }

/-- The record after the delivery completion of its in-flight segment (R80, R81, R83). -/
def Voice.deliverySettled (look : Nat → Option Region) (ring now : Nat) (v : Voice) : Voice :=
  if v.delivered.fillLimit then v.delivered.completed
  else if v.delivered.fill = .late && v.delivered.atDryPoint then v.delivered.skipped look ring now
  else v.delivered.refilled look ring now

/-- The record after a delivery completion for ring segment `ring` (R80). -/
def Voice.completion (look : Nat → Option Region) (length now ring : Nat) (v : Voice) : Voice :=
  if v.inFlight = some ring then v.deliverySettled look length now else v

/-- The record COMPLETE if its fill limit is reached with nothing in flight (R81). -/
def Voice.limited (v : Voice) : Voice := if v.fillLimit && v.inFlight.isNone then v.completed else v

/-- The record with its end fixed by a FADE (R147). -/
def Voice.faded (e : VoiceEnd) (v : Voice) : Voice :=
  ({ v with fin := some e, follow := none } : Voice).limited

/-- The record after the tests that follow a tick event that found it as `before` (R57, R58, R63). -/
def Voice.ticksTested (look : Nat → Option Region) (ring now : Nat) (v before : Voice) : Voice :=
  let w := if before.consumed < v.consumed then v.tested look ring else v
  if before.reachesTarget then w.withDry now else w

/-! ### What they leave alone -/

theorem Voice.advance_core (look : Nat → Option Region) (v : Voice) : v.SameCore (v.advance look) := by
  unfold Voice.advance
  split
  · split
    · exact ⟨rfl, rfl, rfl, rfl, rfl, rfl, rfl, rfl, rfl, rfl, rfl, rfl⟩
    · split
      · exact ⟨rfl, rfl, rfl, rfl, rfl, rfl, rfl, rfl, rfl, rfl, rfl, rfl⟩
      · split <;> exact ⟨rfl, rfl, rfl, rfl, rfl, rfl, rfl, rfl, rfl, rfl, rfl, rfl⟩
  · exact Voice.SameCore.refl v

theorem Voice.issued_core (v : Voice) : v.SameCore v.issued :=
  ⟨rfl, rfl, rfl, rfl, rfl, rfl, rfl, rfl, rfl, rfl, rfl, rfl⟩

theorem Voice.passedOver_core (v : Voice) : v.SameCore v.passedOver :=
  ⟨rfl, rfl, rfl, rfl, rfl, rfl, rfl, rfl, rfl, rfl, rfl, rfl⟩

theorem Voice.completed_core (v : Voice) : v.SameCore v.completed :=
  ⟨rfl, rfl, rfl, rfl, rfl, rfl, rfl, rfl, rfl, rfl, rfl, rfl⟩

theorem Voice.delivered_core (v : Voice) : v.SameCore v.delivered :=
  ⟨rfl, rfl, rfl, rfl, rfl, rfl, rfl, rfl, rfl, rfl, rfl, rfl⟩

theorem Voice.tested_core (look : Nat → Option Region) (ring : Nat) (v : Voice) :
    v.SameCore (v.tested look ring) := by
  unfold Voice.tested
  split
  · exact v.issued_core.trans (Voice.advance_core look _)
  · exact Voice.SameCore.refl v

theorem Voice.passed_core (look : Nat → Option Region) (n : Nat) : ∀ v : Voice, v.SameCore (v.passed look n) := by
  induction n with
  | zero => exact Voice.SameCore.refl
  | succ n ih =>
    intro v
    rw [Voice.passed]
    split
    · exact Voice.SameCore.refl v
    · exact (v.passedOver_core.trans (Voice.advance_core look _)).trans (ih _)

theorem Voice.refilled_core (look : Nat → Option Region) (ring now : Nat) (v : Voice) :
    v.SameCore (v.refilled look ring now) :=
  Voice.SameCore.trans (v := { v with fill := .filling, dryFrame := none })
    ⟨rfl, rfl, rfl, rfl, rfl, rfl, rfl, rfl, rfl, rfl, rfl, rfl⟩
    ((Voice.withDry_core _ now).trans (Voice.tested_core look ring _))

theorem Voice.skipped_core (look : Nat → Option Region) (ring now : Nat) (v : Voice) :
    v.SameCore (v.skipped look ring now) := by
  have h := Voice.passed_core look v.skipCount v
  unfold Voice.skipped
  split
  · exact h.trans (Voice.completed_core _)
  · exact h.trans (Voice.refilled_core look ring now _)

theorem Voice.dried_core (look : Nat → Option Region) (ring now : Nat) (v : Voice) :
    v.SameCore (v.dried look ring now) := by
  unfold Voice.dried
  split
  · exact Voice.skipped_core look ring now v
  · exact ⟨rfl, rfl, rfl, rfl, rfl, rfl, rfl, rfl, rfl, rfl, rfl, rfl⟩

theorem Voice.deliverySettled_core (look : Nat → Option Region) (ring now : Nat) (v : Voice) :
    v.SameCore (v.deliverySettled look ring now) := by
  unfold Voice.deliverySettled
  split
  · exact v.delivered_core.trans (Voice.completed_core _)
  · split
    · exact v.delivered_core.trans (Voice.skipped_core look ring now _)
    · exact v.delivered_core.trans (Voice.refilled_core look ring now _)

theorem Voice.limited_core (v : Voice) : v.SameCore v.limited := by
  unfold Voice.limited
  split
  · exact v.completed_core
  · exact Voice.SameCore.refl v

theorem Voice.faded_core (e : VoiceEnd) (v : Voice) : v.SameCore (v.faded e) :=
  Voice.SameCore.trans (v := { v with fin := some e, follow := none })
    ⟨rfl, rfl, rfl, rfl, rfl, rfl, rfl, rfl, rfl, rfl, rfl, rfl⟩ (Voice.limited_core _)

theorem Voice.ticksTested_core (look : Nat → Option Region) (ring now : Nat) (before v : Voice) :
    v.SameCore (v.ticksTested look ring now before) := by
  have h : v.SameCore (if before.consumed < v.consumed then v.tested look ring else v) := by
    split
    · exact Voice.tested_core look ring v
    · exact Voice.SameCore.refl v
  unfold Voice.ticksTested
  dsimp only
  split
  · exact h.trans (Voice.withDry_core _ now)
  · exact h

/-! ### Uses -/

/-- From `s` to `t`, with tags distinct, no region has more uses, and each in-use count has followed its uses (R9). -/
def UsesKept (s t : State) : Prop :=
  (s.voices.map (·.tag)).Nodup → ∀ id, t.usesOf id ≤ s.usesOf id ∧
    ∀ n, s.uses? id = some (s.usesOf id + n) → t.uses? id = some (t.usesOf id + n)

theorem State.uses_congr {s t : State} (h : t.catalogue.regions = s.catalogue.regions) (id : Nat) :
    t.uses? id = s.uses? id := by
  unfold State.uses? State.region?
  rw [h]

theorem UsesKept.of_eq {s t : State} (hb : t.claims.bids = s.claims.bids) (hv : t.voices = s.voices)
    (hr : t.catalogue.regions = s.catalogue.regions) : UsesKept s t := fun _ id => by
  rw [State.usesOf_congr hb hv, State.uses_congr hr]
  exact ⟨Nat.le_refl _, fun _ h => h⟩

/-! ### The operations -/

/-- From `s` to `t` the first record of tag `g` has become what `o` makes of it, or the records of the tag have left; no
other record has changed, the region table is as it was but for in-use counts, which follow the uses, and every report
of a kind that merges is for a voice that `G` names. -/
structure VoiceTo (G : Nat → Prop) (g : Nat) (o : Voice → Option Voice) (s t : State) : Prop where
  tag     : ∀ v w, o v = some w → w.tag = v.tag
  voices  : t.voices = voicesAfter g o s.voices
  table   : SameTable s t
  step    : VoiceStep s t
  steady  : Steady 0 s t
  notices : Reported G s t
  uses    : UsesKept s t

/-- The record of tag `g` stays in use, as what `f` makes of it. -/
abbrev FillsTo (G : Nat → Prop) (g : Nat) (f : Voice → Voice) (s t : State) : Prop :=
  VoiceTo G g (fun v => some (f v)) s t

theorem VoiceTo.look {G : Nat → Prop} {g : Nat} {o : Voice → Option Voice} {s t : State} (a : VoiceTo G g o s t) :
    t.look = s.look := a.table.look

theorem VoiceTo.trans {G : Nat → Prop} {g : Nat} {o o' : Voice → Option Voice} {s t u : State}
    (a : VoiceTo G g o s t) (b : VoiceTo G g o' t u) : VoiceTo G g (fun v => (o v).bind o') s u := by
  refine ⟨fun v x h => ?_, ?_, b.table.trans a.table, a.step.trans b.step, a.steady.trans b.steady,
    a.notices.trans b.notices, fun hn id => ?_⟩
  · obtain ⟨w, hw, hx⟩ := Option.bind_eq_some_iff.1 h
    exact (b.tag w x hx).trans (a.tag v w hw)
  · rw [b.voices, a.voices, voicesAfter_trans a.tag]
  · have hn' : (t.voices.map (·.tag)).Nodup := by
      rw [a.voices]
      exact (voicesAfter_tags a.tag).nodup hn
    obtain ⟨h1, h2⟩ := a.uses hn id
    obtain ⟨h3, h4⟩ := b.uses hn' id
    exact ⟨h3.trans h1, fun n h => h4 n (h2 n h)⟩

/-- What becomes of the record found is all that counts. -/
theorem VoiceTo.congr {G : Nat → Prop} {g : Nat} {o o' : Voice → Option Voice} {s t : State} (a : VoiceTo G g o s t)
    (h : ∀ v, s.voice? g = some v → o v = o' v) (ht : ∀ v w, o' v = some w → w.tag = v.tag) : VoiceTo G g o' s t :=
  ⟨ht, a.voices.trans (voicesAfter_congr h), a.table, a.step, a.steady, a.notices, a.uses⟩

theorem VoiceTo.voice? {G : Nat → Prop} {g : Nat} {o : Voice → Option Voice} {s t : State} (a : VoiceTo G g o s t) :
    t.voice? g = (s.voice? g).bind o := by
  unfold State.voice?
  rw [a.voices, find_voicesAfter a.tag]

/-- The dies' choices change no voice, no region and no notice. -/
theorem VoiceTo.of_die {G : Nat → Prop} {g : Nat} {s t : State} (h : DieStep s t) (k : Steady 0 s t) :
    VoiceTo G g some s t :=
  ⟨fun v w h => by cases h; rfl, by
    rw [h.media.voices, voicesAfter_some], .of_eq h.regions, h.media.voiceStep, k,
    .of_eq h.media.notices, .of_eq (by rw [h.media.claims]) h.media.voices h.regions⟩

theorem VoiceTo.of_notice {G : Nat → Prop} {g : Nat} {s : State} (addressee : Nat) (body : NoticeBody)
    (hG : ∀ key, body.mergeKey = some key → G key.2) : VoiceTo G g some s (s.queueNotice addressee body) :=
  ⟨fun v w h => by cases h; rfl, by
    rw [State.queueNotice_voices, voicesAfter_some], .of_eq rfl,
    State.queueNotice_voiceStep _ _ _, .of_eq rfl rfl, State.queueNotice_reported _ _ _ hG, .of_eq rfl rfl rfl⟩

theorem VoiceTo.after {G : Nat → Prop} {g : Nat} {o : Voice → Option Voice} {s t u : State} (a : VoiceTo G g o s t)
    (b : VoiceTo G g some t u) : VoiceTo G g o s u :=
  (a.trans b).congr (fun v _ => by cases o v <;> rfl) a.tag

theorem VoiceTo.notice {G : Nat → Prop} {g : Nat} {o : Voice → Option Voice} {s t : State} (a : VoiceTo G g o s t)
    (addressee : Nat) (body : NoticeBody) (hk : body.mergeKey = none) :
    VoiceTo G g o s (t.queueNotice addressee body) :=
  a.after (.of_notice addressee body (by simp [hk]))

theorem VoiceTo.refl {G : Nat → Prop} (g : Nat) (s : State) : VoiceTo G g some s s :=
  .of_die (DieStep.refl s) (Steady.refl s)

theorem FillsTo.refl {G : Nat → Prop} (g : Nat) (s : State) : FillsTo G g id s s := VoiceTo.refl g s

theorem FillsTo.trans {G : Nat → Prop} {g : Nat} {f f' : Voice → Voice} {s t u : State} (a : FillsTo G g f s t)
    (b : FillsTo G g f' t u) : FillsTo G g (f' ∘ f) s u := VoiceTo.trans a b

theorem FillsTo.congr {G : Nat → Prop} {g : Nat} {f f' : Voice → Voice} {s t : State} (a : FillsTo G g f s t)
    (h : ∀ v, s.voice? g = some v → f v = f' v) (ht : ∀ v, (f' v).tag = v.tag) : FillsTo G g f' s t :=
  VoiceTo.congr a (fun v hv => congrArg some (h v hv)) fun v w hw => by cases hw; exact ht v

theorem FillsTo.voice? {G : Nat → Prop} {g : Nat} {f : Voice → Voice} {s t : State} (a : FillsTo G g f s t) :
    t.voice? g = (s.voice? g).map f := by
  rw [VoiceTo.voice? a]
  cases s.voice? g <;> rfl

/-- The uses of the voice table as a sum over its records. -/
theorem State.usesOf_eq (s : State) (id : Nat) :
    s.usesOf id = s.claims.bids.countP (·.region == id) + (s.voices.map (·.uses.count id)).sum := by
  rw [← uses_voices, State.usesOf, Nat.add_assoc]

/-- A change of one record, with the uses that it gives up released. -/
theorem State.updateVoice_release {G : Nat → Prop} {s : State} {g : Nat} {v : Voice} (hv : s.voice? g = some v)
    (f : Voice → Voice) (ids : List Nat) (ht : ∀ v, (f v).tag = v.tag)
    (hu : ∀ id, v.uses.count id = (f v).uses.count id + ids.count id) :
    FillsTo G g f s ((s.updateVoice g f).releaseUses ids) := by
  have hstep := State.releaseUses_step (s.updateVoice g f) ids
  refine ⟨fun v w h => by cases h; exact ht v, by rw [voicesAfter_update, hstep.voices]; rfl,
    (State.releaseUses_table ids _), (State.updateVoice_step s g f).trans hstep.voiceStep, ?_,
    .of_eq hstep.notices, fun _ id => ?_⟩
  · exact (Steady.of_eq (s := s) (t := s.updateVoice g f) rfl rfl).trans (State.releaseUses_steady ids _)
  · have hsum := sum_updateFirst (fun v : Voice => v.uses.count id) (fun v : Voice => v.tag == g) f hv
    have heq := hu id
    have h1 : s.usesOf id = ((s.updateVoice g f).releaseUses ids).usesOf id + ids.count id := by
      rw [State.usesOf_congr (congrArg ClaimUnit.bids hstep.claims) hstep.voices, State.usesOf_eq, State.usesOf_eq]
      change _ = s.claims.bids.countP _ + ((updateFirst (·.tag == g) f s.voices).map _).sum + _
      omega
    refine ⟨by omega, fun n h => ?_⟩
    rw [State.releaseUses_uses, State.uses_congr (s := s) (t := s.updateVoice g f) rfl, h, Option.map_some, h1]
    congr 1
    omega

theorem State.updateVoice_of_none {s : State} {g : Nat} {f : Voice → Voice} (h : s.voice? g = none) :
    s.updateVoice g f = s := by
  unfold State.updateVoice
  rw [updateFirst_of_find_none h]
  rfl

theorem State.updateVoice_fills {G : Nat → Prop} (s : State) (g : Nat) (f : Voice → Voice)
    (ht : ∀ v, (f v).tag = v.tag) (hu : ∀ v, (f v).uses = v.uses) : FillsTo G g f s (s.updateVoice g f) := by
  cases hv : s.voice? g with
  | none =>
    rw [State.updateVoice_of_none hv]
    exact (FillsTo.refl g s).congr (fun v h => by rw [hv] at h; cases h) ht
  | some v => exact State.updateVoice_release hv f [] ht fun id => by simp [hu]

theorem State.recomputeDry_fills {G : Nat → Prop} (s : State) (g : Nat) :
    FillsTo G g (·.withDry s.timebase.tick) s (s.recomputeDry g) :=
  VoiceTo.after (s.updateVoice_fills g _ (fun v => (v.withDry_core _).tag) fun v => by
    unfold Voice.withDry Voice.uses
    split <;> rfl) (.of_die (State.syncReads_die _) (State.syncReads_steady _))

theorem Voice.withDry_uses (v : Voice) (now : Nat) : (v.withDry now).uses = v.uses := by
  unfold Voice.withDry
  split <;> rfl

theorem State.stitch_fills {G : Nat → Prop} (s : State) (v : Voice) (f : FollowSlot)
    (hv : s.voice? v.tag = some v) (hf : v.follow = some f) :
    FillsTo G v.tag (·.stitched f ((s.look f.region).bind (·.loop)).isSome) s (s.stitch v f) := by
  have hloop : (s.look f.region).bind (·.loop) = (s.region? f.region).bind (·.loop) := by
    unfold State.look
    cases s.region? f.region <;> rfl
  have h := State.updateVoice_release (G := G) hv
    (·.stitched f ((s.region? f.region).bind (·.loop)).isSome) [v.region] (fun _ => rfl) fun id => by
      simp only [Voice.uses, Voice.stitched, hf, Option.map_some, Option.map_none, Option.toList_some,
        Option.toList_none, List.count_cons, List.count_nil]
      omega
  rw [hloop]
  exact VoiceTo.notice h _ _ rfl

theorem State.advanceCursor_fills {G : Nat → Prop} (s : State) (g : Nat) :
    FillsTo G g (·.advance s.look) s (s.advanceCursor g) := by
  have ht (v : Voice) : (v.advance s.look).tag = v.tag := (Voice.advance_core _ v).tag
  unfold State.advanceCursor
  split
  next hv => exact (FillsTo.refl g s).congr (fun v h => by rw [hv] at h; cases h) ht
  next v hv =>
    obtain rfl : v.tag = g := State.voice_tag hv
    have found {f : Voice → Voice} {t : State} (h : FillsTo G v.tag f s t) (hf : f v = v.advance s.look) :
        FillsTo G v.tag (·.advance s.look) s t :=
      h.congr (fun w hw => by rw [hv] at hw; cases hw; exact hf) ht
    split
    next k r hk hr =>
      have hl := State.look_of_region hr
      have hw : v.wrapTo r.unused k = v.wrapTo r k := rfl
      have hseg : r.unused.segments = r.segments := rfl
      split
      next k' hk' =>
        exact found (s.updateVoice_fills v.tag _ (fun _ => rfl) fun _ => rfl) (by simp only [Voice.advance, hk, hl, hw, hk'])
      next hnone =>
        split
        next hlt =>
          exact found (s.updateVoice_fills v.tag _ (fun _ => rfl) fun _ => rfl)
            (by simp only [Voice.advance, hk, hl, hw, hnone, hseg, if_pos hlt])
        next hge =>
          split
          next f hf =>
            exact found (s.stitch_fills v f hv hf) (by simp only [Voice.advance, hk, hl, hw, hnone, hseg, if_neg hge, hf])
          next hf =>
            unfold State.regionEnd
            have h1 := s.updateVoice_fills (G := G) v.tag (fun v => { v with cursor := none }) (fun _ => rfl) fun _ => rfl
            dsimp only
            split
            next e he =>
              exact found h1
                (by simp only [Voice.advance, hk, hl, hw, hnone, hseg, if_neg hge, hf, he, Option.getD_some])
            next he =>
              refine found (VoiceTo.notice (h1.trans (State.updateVoice_fills _ v.tag
                (fun w => { w with fin := some (v.regionEnd r) }) (fun _ => rfl) fun _ => rfl)) _ _ rfl) ?_
              simp only [Voice.advance, hk, hl, hw, hnone, hseg, if_neg hge, hf, he, Option.getD_none, Function.comp]
              rfl
    next hno =>
      refine found (FillsTo.refl v.tag s) ?_
      cases hk : v.cursor with
      | none => simp [Voice.advance, hk]
      | some k =>
        cases hr : s.region? v.region with
        | none => simp [Voice.advance, State.look_of_no_region hr]
        | some r => exact (hno k r hk hr).elim

theorem State.testEligible_fills {G : Nat → Prop} (s : State) (g : Nat) :
    FillsTo G g (·.tested s.look s.ringLength) s (s.testEligible g) := by
  have ht (v : Voice) : (v.tested s.look s.ringLength).tag = v.tag := (Voice.tested_core _ _ v).tag
  unfold State.testEligible
  split
  next v hv =>
    obtain rfl : v.tag = g := State.voice_tag hv
    have found {f : Voice → Voice} {t : State} (h : FillsTo G v.tag f s t) (hf : f v = v.tested s.look s.ringLength) :
        FillsTo G v.tag (·.tested s.look s.ringLength) s t :=
      h.congr (fun w hw => by rw [hv] at hw; cases hw; exact hf) ht
    have stays (h : v.eligible s.ringLength = true →
        (v.cursor.any fun k => (s.look v.region).any fun r => (r.locate k).isSome) = false) :
        FillsTo G v.tag (·.tested s.look s.ringLength) s s := by
      refine found (FillsTo.refl v.tag s) ?_
      cases he : v.eligible s.ringLength <;> simp_all [Voice.tested]
    split
    next helig =>
      unfold State.issue
      split
      next k r hk hr =>
        split
        next loc hloc =>
          have h0 : VoiceTo G v.tag some s (s.joinReads r.die (v.request r loc)) :=
            .of_die (State.joinReads_die s _ _) (s.joinReads_steady _ _ rfl)
          have h1 : FillsTo G v.tag Voice.issued s _ :=
            (h0.trans (State.updateVoice_fills _ v.tag Voice.issued (fun _ => rfl) fun _ => rfl))
          have h2 := VoiceTo.after (h1.trans (State.advanceCursor_fills _ v.tag))
            (.of_die (State.readsChanged_die _ r.die) (State.readsChanged_steady _ r.die))
          refine found h2 ?_
          have hl := State.look_of_region hr
          have hloc' : r.unused.locate k = r.locate k := rfl
          simp [Voice.tested, helig, hk, hl, hloc', hloc, h1.look]
        next hloc =>
          refine stays fun _ => ?_
          have hloc' : r.unused.locate k = r.locate k := rfl
          simp [hk, State.look_of_region hr, hloc', hloc]
      next hno =>
        refine stays fun _ => ?_
        cases hk : v.cursor with
        | none => rfl
        | some k =>
          cases hr : s.region? v.region with
          | none => simp [State.look_of_no_region hr]
          | some r => exact (hno k r hk hr).elim
    next helig => exact stays fun h => absurd h helig
  next hv => exact (FillsTo.refl g s).congr (fun v h => by rw [hv] at h; cases h) ht

theorem State.completed_fills {G : Nat → Prop} (s : State) (g : Nat) :
    FillsTo G g Voice.completed s (s.updateVoice g Voice.completed) :=
  s.updateVoice_fills g _ (fun _ => rfl) fun _ => rfl

theorem State.completeIfLimit_fills {G : Nat → Prop} (s : State) (g : Nat) :
    FillsTo G g Voice.limited s (s.completeIfLimit g) := by
  have ht (v : Voice) : v.limited.tag = v.tag := (Voice.limited_core v).tag
  unfold State.completeIfLimit
  split
  next v hv =>
    split
    next hl =>
      exact (s.completed_fills g).congr (fun w hw => by rw [hv] at hw; cases hw; rw [Voice.limited, if_pos hl]) ht
    next hl =>
      exact (FillsTo.refl g s).congr (fun w hw => by rw [hv] at hw; cases hw; rw [Voice.limited, if_neg hl]; rfl) ht
  next hv => exact (FillsTo.refl g s).congr (fun v h => by rw [hv] at h; cases h) ht

theorem State.passOver_fills {G : Nat → Prop} (g n : Nat) :
    ∀ s : State, FillsTo G g (·.passed s.look n) s (s.passOver g n) := by
  induction n with
  | zero => exact fun s => FillsTo.refl g s
  | succ n ih =>
    intro s
    have ht (v : Voice) : (v.passed s.look (n + 1)).tag = v.tag := (Voice.passed_core _ _ v).tag
    rw [State.passOver]
    split
    next v hv =>
      split
      next hc =>
        exact (FillsTo.refl g s).congr (fun w hw => by rw [hv] at hw; cases hw; simp [Voice.passed, hc]) ht
      next hc =>
        have h1 := s.updateVoice_fills (G := G) g Voice.passedOver (fun _ => rfl) fun _ => rfl
        have h2 := h1.trans (State.advanceCursor_fills _ g)
        refine (h2.trans (ih _)).congr (fun w hw => ?_) ht
        rw [hv] at hw
        cases hw
        simp [Voice.passed, hc, h2.look, h1.look]
    next hv => exact (FillsTo.refl g s).congr (fun v h => by rw [hv] at h; cases h) ht

theorem State.ringLength_congr {s t : State} (h : VoiceStep s t) : t.ringLength = s.ringLength := by
  unfold State.ringLength
  rw [h.station]

/-- A voice made FILLING again (R80, R86). -/
theorem State.refill_fills {G : Nat → Prop} (s : State) (g : Nat) :
    FillsTo G g (·.refilled s.look s.ringLength s.timebase.tick) s
      (((s.updateVoice g fun v => { v with fill := .filling, dryFrame := none }).recomputeDry g).testEligible g) := by
  have h1 := s.updateVoice_fills (G := G) g (fun v => { v with fill := .filling, dryFrame := none }) (fun _ => rfl)
    fun _ => rfl
  have h2 := h1.trans (State.recomputeDry_fills _ g)
  refine (h2.trans (State.testEligible_fills _ g)).congr (fun v _ => ?_) fun v => (Voice.refilled_core _ _ _ v).tag
  rw [h2.look, State.ringLength_congr h2.step]
  rfl

theorem State.reportUnderrun_to {G : Nat → Prop} {g : Nat} {o : Voice → Option Voice} {s t : State}
    (h : VoiceTo G g o s t) (v : Voice) (hG : G v.tag) (gapStart gapLength count : Nat) :
    VoiceTo G g o s (t.reportUnderrun v gapStart gapLength count) :=
  h.after (.of_notice _ _ fun key hkey => by cases hkey; exact hG)

theorem State.skip_fills {G : Nat → Prop} (s : State) (g gapStart count : Nat) (hG : G g) :
    FillsTo G g (·.skipped s.look s.ringLength s.timebase.tick) s (s.skip g gapStart count) := by
  have ht (v : Voice) : (v.skipped s.look s.ringLength s.timebase.tick).tag = v.tag := (Voice.skipped_core _ _ _ v).tag
  unfold State.skip
  split
  next hv => exact (FillsTo.refl g s).congr (fun v h => by rw [hv] at h; cases h) ht
  next v hv =>
    obtain rfl : v.tag = g := State.voice_tag hv
    have hp := State.passOver_fills (G := G) v.tag v.skipCount s
    have hw := FillsTo.voice? hp
    rw [hv, Option.map_some] at hw
    dsimp only
    rw [hw]
    dsimp only
    have h2 := State.reportUnderrun_to hp (v.passed s.look v.skipCount)
      (by rw [(Voice.passed_core _ _ v).tag]; exact hG) gapStart
      ((v.passed s.look v.skipCount).s0 + 1024 * (v.passed s.look v.skipCount).n - gapStart) count
    split
    next hl =>
      refine (FillsTo.trans h2 (State.completed_fills _ v.tag)).congr (fun w hw' => ?_) ht
      rw [hv] at hw'
      cases hw'
      simp [Voice.skipped, hl]
    next hl =>
      refine (FillsTo.trans h2 (State.refill_fills _ v.tag)).congr (fun w hw' => ?_) ht
      rw [hv] at hw'
      cases hw'
      simp only [Voice.skipped, hl, Function.comp, h2.look, State.ringLength_congr h2.step, h2.step.timebase]
      rfl

theorem State.dryEvent_fills {G : Nat → Prop} (s : State) (v : Voice) (hv : s.voice? v.tag = some v) (hG : G v.tag) :
    FillsTo G v.tag (·.dried s.look s.ringLength s.timebase.tick) s (s.dryEvent v) := by
  have ht (v : Voice) : (v.dried s.look s.ringLength s.timebase.tick).tag = v.tag := (Voice.dried_core _ _ _ v).tag
  unfold State.dryEvent
  dsimp only
  split
  next hn =>
    exact (s.skip_fills v.tag _ _ hG).congr (fun w hw => by rw [hv] at hw; cases hw; simp [Voice.dried, hn]) ht
  next hn =>
    refine (FillsTo.congr (State.reportUnderrun_to (s.updateVoice_fills v.tag
      (fun w => { w with fill := .late, dryFrame := some v.firstMissing }) (fun _ => rfl) fun _ => rfl) v hG
      v.firstMissing 0 1) (fun w hw => ?_) ht)
    rw [hv] at hw
    cases hw
    simp [Voice.dried, hn]

theorem Voice.completion_core (look : Nat → Option Region) (length now ring : Nat) (v : Voice) :
    v.SameCore (v.completion look length now ring) := by
  unfold Voice.completion
  split
  · exact Voice.deliverySettled_core _ _ _ v
  · exact Voice.SameCore.refl v

theorem State.deliveryCompletion_fills {G : Nat → Prop} (s : State) (g ring : Nat) (hG : G g) :
    FillsTo G g (·.completion s.look s.ringLength s.timebase.tick ring) s (s.deliveryCompletion g ring) := by
  have ht (v : Voice) : (v.completion s.look s.ringLength s.timebase.tick ring).tag = v.tag :=
    (Voice.completion_core _ _ _ _ v).tag
  unfold State.deliveryCompletion
  split
  next hv => exact (FillsTo.refl g s).congr (fun v h => by rw [hv] at h; cases h) ht
  next v hv =>
    have found {f : Voice → Voice} {t : State} (h : FillsTo G g f s t)
        (hf : f v = v.completion s.look s.ringLength s.timebase.tick ring) :
        FillsTo G g (·.completion s.look s.ringLength s.timebase.tick ring) s t :=
      h.congr (fun w hw => by rw [hv] at hw; cases hw; exact hf) ht
    have h1 := s.updateVoice_fills (G := G) g Voice.delivered (fun _ => rfl) fun _ => rfl
    split
    next hi =>
      dsimp only
      split
      next hl =>
        refine found (h1.trans (State.completed_fills _ g)) ?_
        simp [Voice.completion, hi, Voice.deliverySettled, hl]
      next hl =>
        split
        next hd =>
          refine found (h1.trans (State.skip_fills _ g _ _ hG)) ?_
          simp only [Voice.completion, hi, Voice.deliverySettled, hl, hd]
          rfl
        next hd =>
          refine found (h1.trans (State.refill_fills _ g)) ?_
          simp only [Voice.completion, hi, Voice.deliverySettled, hl, hd]
          rfl
    next hi => exact found (FillsTo.refl g s) (by simp [Voice.completion, hi])

theorem State.fixFade_fills {G : Nat → Prop} (s : State) (v : Voice) (length : Nat) (hv : s.voice? v.tag = some v) :
    FillsTo G v.tag (·.faded { frame := v.floorP + length, cause := .fade }) s (s.fixFade v length) := by
  have h1 := State.updateVoice_release (G := G) hv
    (fun w => { w with fin := some { frame := v.floorP + length, cause := .fade }, follow := none })
    (v.follow.map (·.region)).toList (fun _ => rfl) fun id => by
      simp only [Voice.uses, List.count_cons, Option.map_none, Option.toList_none, List.count_nil]
      omega
  have h2 := (VoiceTo.notice h1 v.requester (.endpoint v.tag (v.floorP + length) .fade) rfl)
  refine FillsTo.congr (FillsTo.trans (f' := Voice.limited) (t := match v.follow with
    | some f => ((s.updateVoice v.tag fun w =>
        { w with fin := some { frame := v.floorP + length, cause := .fade }, follow := none }).queueNotice v.requester
          (.endpoint v.tag (v.floorP + length) .fade)).releaseUse f.region
    | none => (s.updateVoice v.tag fun w =>
        { w with fin := some { frame := v.floorP + length, cause := .fade }, follow := none }).queueNotice v.requester
          (.endpoint v.tag (v.floorP + length) .fade)) ?_ (State.completeIfLimit_fills _ v.tag)) (fun _ _ => rfl)
    fun w => (Voice.faded_core _ w).tag
  cases hf : v.follow <;> rw [hf] at h2 <;> exact h2

theorem State.afterTick_fills {G : Nat → Prop} (s : State) (before : Voice) :
    FillsTo G before.tag (·.ticksTested s.look s.ringLength s.timebase.tick before) s (s.afterTick before) := by
  have ht : ∀ v : Voice, (if before.consumed < v.consumed then v.tested s.look s.ringLength else v).tag = v.tag := by
    intro v
    split
    · exact (Voice.tested_core _ _ v).tag
    · rfl
  have h1 : FillsTo G before.tag (fun v => if before.consumed < v.consumed then v.tested s.look s.ringLength else v) s
      (match s.voice? before.tag with
        | some v => if before.consumed < v.consumed then s.testEligible before.tag else s
        | none => s) := by
    split
    next v hv =>
      split
      next hc =>
        exact (s.testEligible_fills before.tag).congr (fun w hw => by rw [hv] at hw; cases hw; rw [if_pos hc]) ht
      next hc =>
        exact (FillsTo.refl before.tag s).congr (fun w hw => by rw [hv] at hw; cases hw; rw [if_neg hc]; rfl) ht
    next hv => exact (FillsTo.refl before.tag s).congr (fun v h => by rw [hv] at h; cases h) ht
  have ht' (v : Voice) : (v.ticksTested s.look s.ringLength s.timebase.tick before).tag = v.tag :=
    (Voice.ticksTested_core _ _ _ _ v).tag
  unfold State.afterTick
  dsimp only
  split
  next hr =>
    refine (h1.trans (State.recomputeDry_fills _ before.tag)).congr (fun v _ => ?_) ht'
    simp only [Voice.ticksTested, hr, Function.comp, h1.step.timebase, if_true]
  next hr => exact h1.congr (fun v _ => by simp only [Voice.ticksTested, hr, Bool.false_eq_true, if_false]) ht'

/-! ### Retirement -/

theorem State.discardSegments_notices (s : State) (tags : List Nat) :
    (s.discardSegments tags).notices = s.notices ∧ (s.discardSegments tags).voices = s.voices ∧
      (s.discardSegments tags).claims = s.claims := by
  rw [State.discardSegments_eq]
  have h := (State.freeBuffers_step (s.discardCount tags) (s.discarded tags)).trans
    (MediaStep.foldl _ State.readsChanged_step (dieNumbers.filter fun d => (s.die d).reads.any (·.of tags)) _)
  exact ⟨h.notices, h.voices, h.claims⟩

@[simp] theorem State.releaseUses_media (ids : List Nat) : ∀ s : State, (s.releaseUses ids).media = s.media := by
  induction ids with
  | nil => exact fun _ => rfl
  | cons id ids ih => exact fun s => ih (s.releaseUse id)

/-- A voice without its record: its uses are released, and its notices are closed (R32). -/
def State.withoutVoice (s : State) (v : Voice) : State :=
  ((s.setVoices (s.voices.filter (·.tag != v.tag))).releaseUses v.uses).closeNotices v.tag

theorem State.retireRecord_eq (s : State) (reason : RetireReason) (v : Voice) :
    s.retireRecord reason v = if reason = .halted then s.withoutVoice v
      else (s.withoutVoice v).queueNotice v.requester (.retired v.tag reason v.floorP) := rfl

theorem State.withoutVoice_step (s : State) (v : Voice) :
    MediaStep (s.setVoices (s.voices.filter (·.tag != v.tag)))
      ((s.setVoices (s.voices.filter (·.tag != v.tag))).releaseUses v.uses) := State.releaseUses_step _ _

theorem State.retireRecord_media (s : State) (reason : RetireReason) (v : Voice) :
    (s.retireRecord reason v).media = s.media ∧ (s.retireRecord reason v).delivery = s.delivery ∧
      (s.retireRecord reason v).claims = s.claims ∧
      (s.retireRecord reason v).voices = s.voices.filter (·.tag != v.tag) ∧
      (s.retireRecord reason v).catalogue =
        ((s.setVoices (s.voices.filter (·.tag != v.tag))).releaseUses v.uses).catalogue := by
  have h := s.withoutVoice_step v
  have hmedia : (s.withoutVoice v).media = s.media := State.releaseUses_media _ _
  rw [State.retireRecord_eq]
  split
  · exact ⟨hmedia, h.delivery, h.claims, h.voices, rfl⟩
  · exact ⟨hmedia, h.delivery, h.claims, h.voices, rfl⟩

theorem State.retireRecord_reported (s : State) (reason : RetireReason) (v : Voice) :
    Reported (· = v.tag) s (s.retireRecord reason v) := by
  have h0 : Reported (· = v.tag) s ((s.setVoices (s.voices.filter (·.tag != v.tag))).releaseUses v.uses) :=
    .of_eq (s.withoutVoice_step v).notices
  have h1 : Reported (· = v.tag) s (s.withoutVoice v) := h0.trans (State.closeNotices_reported _ v.tag)
  rw [State.retireRecord_eq]
  split
  · exact h1
  · exact h1.trans (State.queueNotice_plain _ _ _ rfl)

theorem State.retireRecord_steady (s : State) (reason : RetireReason) (v : Voice) :
    Steady 0 s (s.retireRecord reason v) := by
  obtain ⟨hmedia, hdelivery, -⟩ := s.retireRecord_media reason v
  exact .of_eq hmedia hdelivery

theorem State.retireRecord_table (s : State) (reason : RetireReason) (v : Voice) :
    SameTable s (s.retireRecord reason v) := by
  obtain ⟨-, -, -, -, hcat⟩ := s.retireRecord_media reason v
  unfold SameTable
  rw [hcat]
  exact State.releaseUses_table v.uses _

/-- A voice that retires gives its uses up, with tags distinct the only voice of its tag (R9, R32). -/
theorem State.retireRecord_uses (s : State) (reason : RetireReason) (v : Voice) (hv : v ∈ s.voices) :
    UsesKept s (s.retireRecord reason v) := by
  intro hn id
  obtain ⟨-, -, hclaims, hvoices, hcat⟩ := s.retireRecord_media reason v
  have hcount := s.usesOf_without v id hn hv
  have heq : (s.retireRecord reason v).usesOf id = (s.setVoices (s.voices.filter (·.tag != v.tag))).usesOf id :=
    State.usesOf_congr (s := s.setVoices (s.voices.filter (·.tag != v.tag))) (congrArg ClaimUnit.bids hclaims) hvoices id
  have huses : (s.retireRecord reason v).uses? id = (s.uses? id).map (· - v.uses.count id) := by
    rw [State.uses_congr (congrArg Catalogue.regions hcat), State.releaseUses_uses]
    rfl
  refine ⟨by omega, fun n h => ?_⟩
  rw [huses, h, Option.map_some, heq, hcount]
  congr 1
  omega

/-- The records of the tag have left. -/
theorem State.retire_to {G : Nat → Prop} (s : State) (g : Nat) (reason : RetireReason) (hG : G g) :
    VoiceTo G g (fun _ => none) s (s.retire g reason) := by
  cases hv : s.voice? g with
  | none =>
    have : s.retire g reason = s := by rw [State.retire, hv]
    rw [this]
    exact (VoiceTo.refl g s).congr (fun v h => by rw [hv] at h; cases h) (fun _ _ h => by cases h)
  | some v =>
    obtain rfl : v.tag = g := State.voice_tag hv
    have hret : s.retire v.tag reason = (s.discardSegments [v.tag]).retireRecord reason v := by
      rw [State.retire, hv]
    obtain ⟨hn, hvs, hcl⟩ := s.discardSegments_notices [v.tag]
    obtain ⟨hreg, -⟩ := s.discardSegments_regions [v.tag]
    have hmem : v ∈ (s.discardSegments [v.tag]).voices := hvs ▸ State.voice_mem hv
    refine ⟨fun _ _ h => (by cases h), ?_, ?_, s.retire_step v.tag reason, ?_, ?_, fun hnodup id => ?_⟩
    · rw [s.retire_voices, voicesAfter_of_leaves (o := fun _ => none) hv rfl]
    · rw [hret]
      exact (State.retireRecord_table _ reason v).trans (SameTable.of_eq hreg)
    · rw [hret]
      exact (s.discardSegments_steady [v.tag]).trans (State.retireRecord_steady _ reason v)
    · rw [hret]
      exact (Reported.of_eq hn).trans ((State.retireRecord_reported _ reason v).mono fun g hg => hg ▸ hG)
    · have h := State.retireRecord_uses (s.discardSegments [v.tag]) reason v hmem (by rw [hvs]; exact hnodup) id
      rw [State.usesOf_congr (s := s) (congrArg ClaimUnit.bids hcl) hvs, State.uses_congr (s := s) hreg] at h
      rw [hret]
      exact h

end Sys2Proof.Machine
end

