-- ==== Sys2Proof/Proofs/TickFills.lean ====
section
/-! SUPPORT. The tick event as a function of each voice record (R46, R57 to R59, log entry 10): in whatever order the
voices take it, each becomes what that function makes of it, or leaves. -/

namespace Sys2Proof.Machine

/-! ### The functions -/

/-- The record after the test of its pending end at tick `now`; none once a CUT is applied (R25, R147, R148). -/
def Voice.pended (now : Nat) (v : Voice) : Option Voice :=
  match v.pendingEnd with
  | none => some v
  | some e =>
    if e.atTick ≤ now then
      match e.mode with
      | .cut => none
      | .fade length =>
        let w := { v with pendingEnd := none }
        some (if v.fin.isSome then w else w.faded { frame := v.floorP + length, cause := .fade })
    else some v

/-- A RUNNING record after its advance, its glide and the test of its dry point (R58, R82). -/
def Voice.moved (look : Nat → Option Region) (ring now : Nat) (v : Voice) : Voice :=
  if v.advanced.fill = .filling && v.advanced.atDryPoint then v.advanced.dried look ring now else v.advanced

/-- The RUNNING record retires at the position limit or at its end (R58, R60). -/
def Voice.ends (v : Voice) : Bool :=
  limitFrame ≤ v.advanced.floorP || v.advanced.fin.any fun e => e.frame ≤ v.advanced.floorP

/-- The record after its tick event; none once it has retired (R58, R59). -/
def Voice.ticked (look : Nat → Option Region) (ring now : Nat) (v : Voice) : Option Voice :=
  match v.state with
  | .running =>
    if v.ends then none
    else ((v.moved look ring now).pended now).map (·.ticksTested look ring now v)
  | .scheduled start =>
    (if start ≤ now then ({ v with state := .running, p := 0 } : Voice).withDry now else v).pended now
  | .armed => v.pended now

theorem Voice.pended_tag {now : Nat} {v w : Voice} (h : v.pended now = some w) : w.tag = v.tag := by
  unfold Voice.pended at h
  split at h
  · cases h
    rfl
  next e he =>
    split at h
    · split at h
      · cases h
      next length hm =>
        cases h
        split
        · rfl
        · exact (Voice.faded_core _ _).tag
    · cases h
      rfl

theorem Voice.moved_tag (look : Nat → Option Region) (ring now : Nat) (v : Voice) :
    (v.moved look ring now).tag = v.tag := by
  unfold Voice.moved
  split
  · exact (Voice.dried_core _ _ _ _).tag
  · rfl

theorem Voice.ticked_tag {look : Nat → Option Region} {ring now : Nat} {v w : Voice}
    (h : v.ticked look ring now = some w) : w.tag = v.tag := by
  unfold Voice.ticked at h
  split at h
  · split at h
    · cases h
    · obtain ⟨x, hx, rfl⟩ := Option.map_eq_some_iff.1 h
      rw [(Voice.ticksTested_core _ _ _ _ x).tag, Voice.pended_tag hx, Voice.moved_tag]
  next start hs =>
    rw [Voice.pended_tag h]
    split
    · rw [(Voice.withDry_core _ _).tag]
    · rfl
  · exact Voice.pended_tag h

/-! ### The operations -/

theorem State.refuse_to {G : Nat → Prop} {g : Nat} {o : Voice → Option Voice} {s t : State} (a : VoiceTo G g o s t)
    (sender kind : Nat) (reason : Reason) (subject : Nat) : VoiceTo G g o s (t.refuse sender kind reason subject) :=
  a.notice _ _ rfl

theorem State.applyPendingEnd_to {G : Nat → Prop} (s : State) (g : Nat) (hG : G g) :
    VoiceTo G g (·.pended s.timebase.tick) s (s.applyPendingEnd g) := by
  have ht (v w : Voice) (h : v.pended s.timebase.tick = some w) : w.tag = v.tag := Voice.pended_tag h
  unfold State.applyPendingEnd
  split
  next hv => exact (VoiceTo.refl g s).congr (fun v h => by rw [hv] at h; cases h) ht
  next v hv =>
    obtain rfl : v.tag = g := State.voice_tag hv
    have found {o : Voice → Option Voice} {t : State} (h : VoiceTo G v.tag o s t)
        (ho : o v = v.pended s.timebase.tick) : VoiceTo G v.tag (·.pended s.timebase.tick) s t :=
      h.congr (fun w hw => by rw [hv] at hw; cases hw; exact ho) ht
    split
    next hp => exact found (VoiceTo.refl v.tag s) (by simp [Voice.pended, hp])
    next e hp =>
      split
      next hle =>
        have h1 := s.updateVoice_fills (G := G) v.tag (fun w => { w with pendingEnd := none }) (fun _ => rfl) fun _ => rfl
        have hv1 := FillsTo.voice? h1
        rw [hv, Option.map_some] at hv1
        unfold State.applyEnd
        split
        next hm =>
          exact found (VoiceTo.trans h1 (State.retire_to _ v.tag .cut hG)) (by simp [Voice.pended, hp, hle, hm])
        next length hm =>
          split
          next hfin =>
            exact found (State.refuse_to h1 _ _ _ _) (by simp [Voice.pended, hp, hle, hm, hfin])
          next hfin =>
            -- The fade reads the record as it was, whose position and tag the cleared pending end does not change.
            have h2 : FillsTo G v.tag (·.faded { frame := v.floorP + length, cause := .fade })
                (s.updateVoice v.tag fun w => { w with pendingEnd := none })
                ((s.updateVoice v.tag fun w => { w with pendingEnd := none }).fixFade v length) :=
              State.fixFade_fills (G := G) _ { v with pendingEnd := none } length hv1
            exact found (h1.trans h2) (by simp [Voice.pended, hp, hle, hm, hfin])
      next hle => exact found (VoiceTo.refl v.tag s) (by simp [Voice.pended, hp, hle])

theorem State.startScheduled_fills {G : Nat → Prop} (s : State) (v : Voice) (start : Nat) :
    FillsTo G v.tag (fun w => if start ≤ s.timebase.tick then
      ({ w with state := .running, p := 0 } : Voice).withDry s.timebase.tick else w) s (s.startScheduled v start) := by
  unfold State.startScheduled
  split
  next h =>
    have h1 := s.updateVoice_fills (G := G) v.tag (fun w => { w with state := .running, p := 0 }) (fun _ => rfl)
      fun _ => rfl
    exact h1.trans (State.recomputeDry_fills _ v.tag)
  next h => exact FillsTo.refl v.tag s

theorem State.tickRunning_to {G : Nat → Prop} (s : State) (v : Voice) (hv : s.voice? v.tag = some v)
    (hr : v.state = .running) (hG : G v.tag) :
    VoiceTo G v.tag (·.ticked s.look s.ringLength s.timebase.tick) s (s.tickRunning v) := by
  have ht (x w : Voice) (h : x.ticked s.look s.ringLength s.timebase.tick = some w) : w.tag = x.tag := Voice.ticked_tag h
  have found {o : Voice → Option Voice} {t : State} (h : VoiceTo G v.tag o s t)
      (ho : o v = v.ticked s.look s.ringLength s.timebase.tick) :
      VoiceTo G v.tag (·.ticked s.look s.ringLength s.timebase.tick) s t :=
    h.congr (fun w hw => by rw [hv] at hw; cases hw; exact ho) ht
  have h1 := s.updateVoice_fills (G := G) v.tag Voice.advanced (fun _ => rfl) fun _ => rfl
  have hv1 : (s.updateVoice v.tag Voice.advanced).voice? v.advanced.tag = some v.advanced := by
    have := FillsTo.voice? h1
    rwa [hv, Option.map_some] at this
  unfold State.tickRunning
  dsimp only
  split
  next hl =>
    exact found (VoiceTo.trans h1 (State.retire_to _ v.tag .limit hG)) (by simp [Voice.ticked, hr, Voice.ends, hl])
  next hl =>
    split
    next hd =>
      exact found (VoiceTo.trans h1 (State.retire_to _ v.tag .done hG))
        (by simp only [Voice.ticked, hr, Voice.ends, hd, Bool.or_true, if_true]; rfl)
    next hd =>
      have hends : v.ends = false := by simp only [Voice.ends, hl, hd]; rfl
      have h2 : FillsTo G v.tag (·.moved s.look s.ringLength s.timebase.tick) s
          (if (v.advanced.fill = .filling && v.advanced.atDryPoint) = true then
            (s.updateVoice v.tag Voice.advanced).dryEvent v.advanced
          else s.updateVoice v.tag Voice.advanced) := by
        split
        next hdry =>
          refine (h1.trans (State.dryEvent_fills (G := G) _ v.advanced hv1 hG)).congr (fun w hw => ?_)
            fun w => Voice.moved_tag _ _ _ w
          rw [hv] at hw
          cases hw
          simp only [Voice.moved, if_pos hdry, Function.comp, h1.look]
          rfl
        next hdry =>
          refine h1.congr (fun w hw => ?_) fun w => Voice.moved_tag _ _ _ w
          rw [hv] at hw
          cases hw
          simp only [Voice.moved, if_neg hdry]
      have h3 := VoiceTo.trans h2 (State.applyPendingEnd_to _ v.tag hG)
      refine found (h3.trans (State.afterTick_fills _ v)) ?_
      simp only [Voice.ticked, hr, hends, h3.look, h2.step.timebase, State.ringLength_congr h3.step, h3.step.timebase,
        Option.bind_some, Bool.false_eq_true, if_false]
      exact Option.map_eq_bind.symm

theorem State.tickVoice_to {G : Nat → Prop} (s : State) (g : Nat) (hG : G g) :
    VoiceTo G g (·.ticked s.look s.ringLength s.timebase.tick) s (s.tickVoice g) := by
  have ht (x w : Voice) (h : x.ticked s.look s.ringLength s.timebase.tick = some w) : w.tag = x.tag := Voice.ticked_tag h
  unfold State.tickVoice
  split
  next hv => exact (VoiceTo.refl g s).congr (fun v h => by rw [hv] at h; cases h) ht
  next v hv =>
    obtain rfl : v.tag = g := State.voice_tag hv
    have found {o : Voice → Option Voice} {t : State} (h : VoiceTo G v.tag o s t)
        (ho : o v = v.ticked s.look s.ringLength s.timebase.tick) :
        VoiceTo G v.tag (·.ticked s.look s.ringLength s.timebase.tick) s t :=
      h.congr (fun w hw => by rw [hv] at hw; cases hw; exact ho) ht
    split
    next hr => exact s.tickRunning_to v hv hr hG
    next start hs =>
      have h1 := s.startScheduled_fills (G := G) v start
      refine found (VoiceTo.trans h1 (State.applyPendingEnd_to _ v.tag hG)) ?_
      simp only [Voice.ticked, hs, Option.bind_some, h1.step.timebase]
    next ha => exact found (s.applyPendingEnd_to v.tag hG) (by simp only [Voice.ticked, ha])

/-! ### The tick event -/

/-- What the voices' tick events in turn leave: each voice named has become what its tick event makes of it. -/
theorem State.tickVoices_to (look : Nat → Option Region) (ring now : Nat) (tags : List Nat) :
    ∀ s : State, s.look = look → s.ringLength = ring → s.timebase.tick = now → (s.voices.map (·.tag)).Nodup →
      tags.Nodup → (tags.foldl State.tickVoice s).voices =
        s.voices.filterMap fun v => if v.tag ∈ tags then v.ticked look ring now else some v := by
  induction tags with
  | nil =>
    intro s _ _ _ _ _
    simp
  | cons g tags ih =>
    intro s hl hr ht hn hnodup
    obtain ⟨hg, htags⟩ := List.nodup_cons.1 hnodup
    have h := s.tickVoice_to (G := fun _ => True) g trivial
    have hn' : ((s.tickVoice g).voices.map (·.tag)).Nodup := by
      rw [h.voices]
      exact (voicesAfter_tags h.tag).nodup hn
    rw [List.foldl_cons, ih (s.tickVoice g) (h.look.trans hl) ((State.ringLength_congr h.step).trans hr)
      (by rw [h.step.timebase]; exact ht) hn' htags, h.voices, voicesAfter_filterMap hn, List.filterMap_filterMap,
      hl, hr, ht]
    refine List.filterMap_congr fun v _ => ?_
    by_cases hv : v.tag = g
    · simp only [hv, if_true, List.mem_cons, true_or]
      cases ho : v.ticked look ring now with
      | none => rfl
      | some w =>
        have hw : w.tag = g := (Voice.ticked_tag ho).trans hv
        simp [hw, hg]
    · simp only [hv, if_false, List.mem_cons, false_or, Option.bind_some]

/-- A held dry tick computed afresh at a wrap of the counter (R67). -/
def Voice.heldAt (now : Nat) (v : Voice) : Voice :=
  if now = 0 ∧ v.dry.isSome then v.withDry now else v

/-- After the tick event the voice table holds what the event has made of each voice, in the order in which they stood
(R46). -/
theorem State.tickEvent_voices (s : State) (order : List (BitVec 12)) (hn : (s.voices.map (·.tag)).Nodup) :
    (s.tickEvent order).voices =
      (s.voices.filterMap (·.ticked s.look s.ringLength (nextTick s.timebase.tick))).map
        (·.heldAt (nextTick s.timebase.tick)) := by
  have h := State.tickVoices_to s.look s.ringLength (nextTick s.timebase.tick) (tickOrder order s.voices)
    (s.setTimebase { s.timebase with tick := nextTick s.timebase.tick }) rfl rfl rfl hn (tickOrder_nodup order _ hn)
  have hall : (s.voices.filterMap fun v => if v.tag ∈ tickOrder order s.voices then
      v.ticked s.look s.ringLength (nextTick s.timebase.tick) else some v) =
        s.voices.filterMap (·.ticked s.look s.ringLength (nextTick s.timebase.tick)) :=
    List.filterMap_congr fun v hv => if_pos (tickOrder_mem order _ v hv)
  rw [State.setTimebase_voices, hall] at h
  have htick := (VoiceStep.foldl _ State.tickVoice_step (tickOrder order s.voices)
    (s.setTimebase { s.timebase with tick := nextTick s.timebase.tick })).timebase
  unfold State.tickEvent
  dsimp only
  rw [(State.suspendTests_step _).voices, State.setTimebase_voices, State.setTimebase_voices]
  split
  next h0 =>
    unfold State.recomputeHeld
    rw [State.syncReads_voices, State.setVoices_voices, h, htick]
    refine List.map_congr_left fun v _ => ?_
    simp only [State.setTimebase_timebase] at h0 ⊢
    simp only [Voice.heldAt, h0, true_and]
  next h0 =>
    rw [h]
    refine (List.map_id' _).symm.trans (List.map_congr_left fun v _ => ?_)
    exact (if_neg fun hc => h0 hc.1).symm

end Sys2Proof.Machine
end

