-- ==== Sys2Proof/Proofs/Installs.lean ====
section
/-! SUPPORT. What the installer's operations do (R158 to R169): each is a run of moves, of the media controller and the
catalogue, of the work list, of the install read, and of notices that take no merge. What holds of every move holds of
every operation. -/

namespace Sys2Proof.Machine

/-! ### A die at work -/

/-- From `s` to `t` each die that was not IDLE is in its state. -/
def WorkKept (s t : State) : Prop := ∀ d, (s.die d).state ≠ .idle → (t.die d).state = (s.die d).state

theorem WorkKept.refl (s : State) : WorkKept s s := fun _ _ => rfl

theorem WorkKept.trans {s t u : State} (a : WorkKept s t) (b : WorkKept t u) : WorkKept s u := fun d h => by
  rw [b d (by rw [a d h]; exact h), a d h]

theorem WorkKept.of_eq {s t : State} (h : t.media.dies = s.media.dies) : WorkKept s t := fun d _ => by
  unfold State.die
  rw [h]

theorem WorkKept.foldl {α : Type} (f : State → α → State) (h : ∀ s a, WorkKept s (f s a)) (l : List α) :
    ∀ s, WorkKept s (l.foldl f s) := by
  induction l with
  | nil => exact WorkKept.refl
  | cons a as ih => exact fun s => (h s a).trans (ih _)

/-- A die after a change of one die. -/
theorem State.die_updateDie (s : State) (d e : Nat) (f : Die → Die) :
    (s.updateDie d f).die e = if e = d ∧ d < s.media.dies.length then f (s.die d) else s.die e := by
  simp only [State.die, State.updateDie, State.setMedia_media, List.getD_eq_getElem?_getD, List.getElem?_modify]
  by_cases he : d = e
  · subst he
    by_cases hd : d < s.media.dies.length
    · simp [hd]
    · simp [hd]
  · have he' : ¬e = d := fun h => he h.symm
    simp [he, he']

/-- A die after one die record is replaced. -/
theorem State.die_setDie (s : State) (d e : Nat) (x : Die) (free : Nat) :
    (s.setMedia { s.media with dies := s.media.dies.set d x, freeBuffers := free }).die e =
      if e = d ∧ d < s.media.dies.length then x else s.die e := by
  simp only [State.die, State.setMedia_media, List.getD_eq_getElem?_getD, List.getElem?_set]
  by_cases he : d = e
  · subst he
    by_cases hd : d < s.media.dies.length
    · simp [hd]
    · simp [hd]
  · have he' : ¬e = d := fun h => he h.symm
    simp [he, he']

theorem WorkKept.updateDie {s : State} {d : Nat} {f : Die → Die} (h : (s.die d).state ≠ .idle →
    (f (s.die d)).state = (s.die d).state) : WorkKept s (s.updateDie d f) := fun e he => by
  rw [State.die_updateDie]
  split
  next hd =>
    obtain ⟨rfl, -⟩ := hd
    exact h he
  next => rfl

theorem State.beginRead_die_other {s t : State} {d : Nat} (h : s.beginRead? d = some t) (e : Nat) (he : e ≠ d) :
    t.die e = s.die e := by
  unfold State.beginRead? at h
  cases hx : (s.die d).begin? s.media.freeBuffers with
  | none => simp [hx] at h
  | some x =>
    simp only [hx, Option.map_some, Option.some.injEq] at h
    subst h
    rw [State.die_setDie, if_neg fun hd => he hd.1]

theorem State.markStarted_media (s : State) (d : Nat) (op : LongOp) : (s.markStarted d op).media = s.media := by
  cases op <;> rfl

theorem State.takeLongOp_die_other (s : State) (d e : Nat) (he : e ≠ d) : (s.takeLongOp d).1.die e = s.die e := by
  unfold State.takeLongOp
  dsimp only
  split
  · rw [State.die_updateDie, if_neg fun hd => he hd.1]
    rfl
  · rw [State.die, State.markStarted_media]
    change State.die (State.updateDie _ d _) e = _
    rw [State.die_updateDie, if_neg fun hd => he hd.1]
    rfl

/-- The idle choice of a die leaves the other dies alone (R94). -/
theorem State.idleChoice_die_other (s : State) (d e : Nat) (he : e ≠ d) : (s.idleChoice d).die e = s.die e := by
  unfold State.idleChoice
  split
  · dsimp only
    split
    next s1 hs1 =>
      split at hs1
      · exact State.beginRead_die_other hs1 e he
      · cases hs1
    next =>
      split
      · exact s.takeLongOp_die_other d e he
      · cases h : (s.takeLongOp d).1.beginRead? d with
        | none => exact s.takeLongOp_die_other d e he
        | some t => exact (State.beginRead_die_other h e he).trans (s.takeLongOp_die_other d e he)
  · rfl

/-- Only an IDLE die makes an idle choice (R94). -/
theorem State.idleChoice_of_busy {s : State} {d : Nat} (h : (s.die d).state ≠ .idle) : s.idleChoice d = s := by
  unfold State.idleChoice
  rw [if_neg h]

theorem State.idleChoice_workKept (s : State) (d : Nat) : WorkKept s (s.idleChoice d) := fun e he => by
  by_cases hd : e = d
  · subst hd
    rw [State.idleChoice_of_busy he]
  · rw [s.idleChoice_die_other d e hd]

theorem State.longOps_workKept (s : State) (d : Nat) (f : List LongOp → List LongOp) :
    WorkKept s (s.updateDie d fun die => { die with longOps := f die.longOps }) := .updateDie fun _ => rfl

/-! ### Moves -/

/-- One move of the installer. -/
inductive InstallMove : State → State → Prop
  | media {s t : State} (step : MediaStep s t) (steady : Steady 0 s t) (kept : WorkKept s t) : InstallMove s t
  | work (s : State) (x : Installer) (length : x.work.length ≤ max 1 s.installer.work.length) :
      InstallMove s (s.setInstaller x)
  | read (s : State) (x : Option InstallRead) : InstallMove s (s.setDelivery { s.delivery with installRead := x })
  | notice (s : State) (addressee : Nat) (body : NoticeBody) (plain : body.mergeKey = none)
      (other : ∀ tag reason frame, body ≠ .retired tag reason frame) : InstallMove s (s.queueNotice addressee body)

/-- A run of moves. -/
abbrev Installs : State → State → Prop := Relation.ReflTransGen InstallMove

theorem Installs.media {s t : State} (step : MediaStep s t) (steady : Steady 0 s t) (kept : WorkKept s t) :
    Installs s t := .single (.media step steady kept)

theorem Installs.catalogue (s : State) (x : Catalogue) : Installs s (s.setCatalogue x) :=
  .media (MediaStep.setCatalogue s x) (Steady.setCatalogue s x) (.of_eq rfl)

theorem Installs.foldl {α : Type} (f : State → α → State) (h : ∀ s a, Installs s (f s a)) (l : List α) :
    ∀ s, Installs s (l.foldl f s) := by
  induction l with
  | nil => exact fun _ => .refl
  | cons a as ih => exact fun s => (h s a).trans (ih _)

theorem State.idleChoice_installs (s : State) (d : Nat) : Installs s (s.idleChoice d) :=
  .media (s.idleChoice_step d) (s.idleChoice_steady d) (s.idleChoice_workKept d)

theorem State.longOps_installs (s : State) (d : Nat) (f : List LongOp → List LongOp) :
    Installs s (s.updateDie d fun die => { die with longOps := f die.longOps }) :=
  .media (s.updateDie_step d _) (s.longOps_steady d f) (s.longOps_workKept d f)

theorem State.joinLongOp_installs (s : State) (d : Nat) (op : LongOp) : Installs s (s.joinLongOp d op) :=
  (s.longOps_installs d (· ++ [op])).trans (State.idleChoice_installs _ d)

theorem State.joinErases_installs (s : State) (d : Nat) (blocks : List Nat) : Installs s (s.joinErases d blocks) := by
  unfold State.joinErases
  split
  · exact .refl
  · exact (s.longOps_installs d (· ++ blocks.map LongOp.erase)).trans (State.idleChoice_installs _ d)

theorem State.queueDeadOn_installs (s : State) (d : Nat) : Installs s (s.queueDeadOn d) :=
  (Installs.catalogue s _).trans (State.joinErases_installs _ d _)

theorem State.queueDead_installs (s : State) : Installs s s.queueDead := Installs.foldl _ State.queueDeadOn_installs _ s

theorem State.makeLive_installs (s : State) (extents : List Extent) : Installs s (s.makeLive extents) :=
  Installs.foldl _ (fun s _ => Installs.catalogue s _) extents s

theorem State.loseLive_installs (s : State) (extents : List Extent) : Installs s (s.loseLive extents) :=
  Installs.foldl _ (fun s _ => Installs.catalogue s _) extents s

theorem State.setHead_installs (s : State) (w : WorkItem) : Installs s (s.setHead w) :=
  .single (.work s _ (by simp only [List.length_cons, List.length_tail]; omega))

theorem State.endItem_installs (s : State) : Installs s s.endItem :=
  .single (.work s _ (by simp only [List.length_tail]; omega))

theorem State.released_installs (s : State) : Installs s (s.setInstaller { s.installer with held := false }) :=
  .single (.work s _ (Nat.le_max_right _ _))

theorem State.refuse_installs (s : State) (sender kind : Nat) (reason : Reason) (subject : Nat) :
    Installs s (s.refuse sender kind reason subject) := .single (.notice s _ _ rfl fun _ _ _ h => by cases h)

theorem State.startReading_installs (s : State) (i : InstallItem) : Installs s (s.startReading i) :=
  (s.setHead_installs _).trans (.single (.read _ _))

theorem State.withdrawPrograms_steady (s : State) : Steady 0 s s.withdrawPrograms := by
  refine ⟨rfl, rfl, ?_, fun h die hd => ?_⟩
  · simp only [State.bufferTotal_eq, State.withdrawPrograms, State.setMedia_media, State.setMedia_delivery,
      List.map_map, Nat.add_zero]
    rfl
  · obtain ⟨x, hx, rfl⟩ := List.mem_map.1 hd
    exact h x hx

/-- The dies after a change of each long-op queue. -/
theorem State.die_mapDies (s : State) (f : Die → Die) (hf : f Die.reset = Die.reset) (d : Nat) :
    (s.setMedia { s.media with dies := s.media.dies.map f }).die d = f (s.die d) := by
  simp only [State.die, State.setMedia_media, List.getD_eq_getElem?_getD, List.getElem?_map]
  cases s.media.dies[d]? <;> simp [hf]

theorem State.withdrawPrograms_installs (s : State) : Installs s s.withdrawPrograms :=
  .media (MediaStep.setMedia s _) s.withdrawPrograms_steady fun d _ => (congrArg Die.state
    (s.die_mapDies (fun die => { die with longOps := die.longOps.filter fun op => !op.isProgram }) rfl d)).trans rfl

theorem State.failInstall_installs (s : State) (i : InstallItem) (reason : Reason) :
    Installs s (s.failInstall i reason) :=
  ((((((Installs.catalogue s _).trans (State.queueDead_installs _)).trans (State.endItem_installs _)).trans
    (Installs.catalogue _ _)).trans (Installs.catalogue _ _)).trans (State.withdrawPrograms_installs _)).trans
    (.single (.notice _ _ _ rfl fun _ _ _ h => by cases h))

theorem State.endReclaim_installs (s : State) : Installs s s.endReclaim :=
  (s.endItem_installs).trans (Installs.catalogue _ _)

theorem State.appendRecord_installs (s : State) (record : List Byte) : Installs s (s.appendRecord record) :=
  s.joinLongOp_installs 0 _

theorem State.runReclaim_installs (s : State) (sender region : Nat) : Installs s (s.runReclaim sender region) :=
  ((s.setHead_installs _).trans (Installs.catalogue _ _)).trans (State.appendRecord_installs _ _)

theorem State.startNext_installs (n : Nat) : ∀ s : State, Installs s (State.startNext n s) := by
  induction n with
  | zero => exact fun _ => .refl
  | succ n ih =>
    intro s
    have refused (sender : Nat) (reason : Reason) (region : Nat) :
        Installs s (State.startNext n ((s.endReclaim).refuse sender 11 reason region)) :=
      ((s.endReclaim_installs).trans (State.refuse_installs _ _ _ _ _)).trans (ih _)
    rw [State.startNext]
    split
    · exact .refl
    · split
      · split
        · split
          · exact s.startReading_installs _
          · exact (s.failInstall_installs _ _).trans (ih _)
        · exact .refl
      · split
        · exact refused _ _ _
        · split
          · exact refused _ _ _
          · exact s.runReclaim_installs _ _
      all_goals exact .refl

theorem State.nextItem_installs (s : State) : Installs s s.nextItem := State.startNext_installs 4 s

theorem State.installFails_installs (s : State) (i : InstallItem) (reason : Reason) :
    Installs s (s.installFails i reason) := (s.failInstall_installs i reason).trans (State.nextItem_installs _)

theorem State.openBlock_installs (s : State) (d b : Nat) : Installs s (s.openBlock d b) :=
  (Installs.catalogue s _).trans (Installs.catalogue _ _)

theorem State.placeProgram_installs (s : State) (i : InstallItem) (b page : Nat) :
    Installs s (s.placeProgram i b page) := (s.setHead_installs _).trans (State.joinLongOp_installs _ _ _)

theorem State.enterProgramming_installs (s : State) (i : InstallItem) : Installs s (s.enterProgramming i) := by
  unfold State.enterProgramming
  dsimp only
  split
  · exact s.placeProgram_installs _ _ _
  · exact (s.openBlock_installs _ _).trans (State.placeProgram_installs _ _ _ _)
  · split
    · exact s.setHead_installs _
    · exact s.installFails_installs _ _

theorem State.pageProgrammed_installs (s : State) (i : InstallItem) (p : Program) :
    Installs s (s.pageProgrammed i p) := by
  have h : Installs s (s.updateBlock i.die p.block fun b => b.pageUsed.addPending) := Installs.catalogue s _
  unfold State.pageProgrammed
  dsimp only
  split
  · exact h.trans (State.startReading_installs _ _)
  · exact (h.trans (State.setHead_installs _ _)).trans (State.appendRecord_installs _ _)

theorem State.orphanResult_installs (s : State) (d : Nat) (p : Program) (ok : Bool) :
    Installs s (s.orphanResult d p ok) := by
  have h : Installs s (if ok then (s.updateBlock d p.block Block.pageUsed).queueDeadOn d
      else s.updateBlock d p.block Block.programFailed) := by
    split
    · exact (Installs.catalogue s _).trans (State.queueDeadOn_installs _ d)
    · exact Installs.catalogue s _
  exact (h.trans (State.released_installs _)).trans (State.nextItem_installs _)

theorem State.pageResult_installs (s : State) (d : Nat) (p : Program) (ok : Bool) :
    Installs s (s.pageResult d p ok) := by
  unfold State.pageResult
  split
  · split
    · split
      · exact s.pageProgrammed_installs _ _
      · exact (Installs.catalogue s _).trans (State.installFails_installs _ _ _)
    · exact s.orphanResult_installs _ _ _
  · exact s.orphanResult_installs _ _ _

theorem State.installComplete_installs (s : State) (i : InstallItem) : Installs s (s.installComplete i) :=
  (((((((Installs.catalogue s _).trans (State.makeLive_installs _ _)).trans (State.queueDead_installs _)).trans
    (Installs.catalogue _ _)).trans (Installs.catalogue _ _)).trans
    (.single (.notice _ _ _ rfl fun _ _ _ h => by cases h))).trans (State.endItem_installs _)).trans
    (State.nextItem_installs _)

theorem State.voidComplete_installs (s : State) (sender region : Nat) : Installs s (s.voidComplete sender region) :=
  (((((Installs.catalogue s _).trans (State.loseLive_installs _ _)).trans (State.queueDead_installs _)).trans
    (State.endReclaim_installs _)).trans (.single (.notice _ _ _ rfl fun _ _ _ h => by cases h))).trans
    (State.nextItem_installs _)

theorem State.voidFailed_installs (s : State) (sender region : Nat) : Installs s (s.voidFailed sender region) :=
  (((Installs.catalogue s _).trans (State.endReclaim_installs _)).trans (State.refuse_installs _ _ _ _ _)).trans
    (State.nextItem_installs _)

theorem State.logResult_installs (s : State) (ok : Bool) : Installs s (s.logResult ok) := by
  have h : Installs s s.advanceAppend := Installs.catalogue s _
  unfold State.logResult
  dsimp only
  split
  · split
    · split
      · exact h.trans (State.installComplete_installs _ _)
      · exact h.trans (State.installFails_installs _ _ _)
    · exact h
  · split
    · exact h.trans (State.voidComplete_installs _ _ _)
    · exact h.trans (State.voidFailed_installs _ _ _)
  · exact h

theorem State.handOn_installs (s : State) (d : Nat) (p : Program) (ok : Bool) : Installs s (s.handOn d p ok) := by
  unfold State.handOn
  split
  · exact s.pageResult_installs _ _ _
  · exact s.logResult_installs _

theorem State.frontFailed_installs (s : State) (l : List (Nat × Program)) :
    Installs s (s.setMedia { s.media with frontFailed := l }) :=
  .media (MediaStep.setMedia s _) (Steady.setMedia s _ rfl rfl rfl) (.of_eq rfl)

theorem State.blockErased_installs (s : State) (d b : Nat) (ok : Bool) : Installs s (s.blockErased d b ok) := by
  unfold State.blockErased
  split
  · exact .refl
  · split
    · exact (Installs.catalogue s _).trans (Installs.catalogue _ _)
    · exact Installs.catalogue s _

theorem State.wipeProgress_installs (s : State) (sender worn left logLeft : Nat) (isLog ok : Bool) :
    Installs s (s.wipeProgress sender worn left logLeft isLog ok) := by
  have h (b : Bool) : Installs s (if b then s.clearAppend else s) := by
    split
    · exact Installs.catalogue s _
    · exact .refl
  unfold State.wipeProgress
  dsimp only
  split
  · exact (((h _).trans (State.endItem_installs _)).trans
      (.single (.notice _ _ _ rfl fun _ _ _ h => by cases h))).trans (State.nextItem_installs _)
  · exact (h _).trans (State.setHead_installs _ _)

theorem State.eraseTold_installs (s : State) (d : Nat) (isLog ok : Bool) : Installs s (s.eraseTold d isLog ok) := by
  unfold State.eraseTold
  split
  · exact s.wipeProgress_installs _ _ _ _ _ _
  · split
    · exact s.enterProgramming_installs _
    · exact .refl
  · exact .refl

theorem State.settleFronts_installs (n : Nat) : ∀ s : State, Installs s (State.settleFronts n s) := by
  induction n with
  | zero => exact fun s => s.frontFailed_installs []
  | succ n ih =>
    intro s
    rw [State.settleFronts]
    split
    · exact .refl
    · exact ((s.frontFailed_installs _).trans (State.handOn_installs _ _ _ _)).trans (ih _)

theorem State.settleFront_installs (s : State) : Installs s s.settleFront := State.settleFronts_installs 8 s

/-! ### What every run of moves keeps -/

theorem InstallMove.steady {s t : State} (h : InstallMove s t) : Steady 0 s t := by
  cases h with
  | media _ h _ => exact h
  | work => exact .of_eq rfl rfl
  | read x =>
    refine ⟨rfl, rfl, ?_, id⟩
    rw [State.bufferTotal_eq, State.bufferTotal_eq]
    rfl
  | notice => exact .of_eq rfl rfl

theorem Installs.steady {s t : State} (h : Installs s t) : Steady 0 s t := by
  induction h with
  | refl => exact Steady.refl s
  | tail _ h ih => exact ih.trans h.steady

theorem Installs.workKept {s t : State} (h : Installs s t) : WorkKept s t := by
  induction h with
  | refl => exact WorkKept.refl s
  | tail _ h ih =>
    refine ih.trans ?_
    cases h with
    | media _ _ h => exact h
    | work | read | notice => exact .of_eq rfl

theorem Installs.reported {G : Nat → Prop} {s t : State} (h : Installs s t) : Reported G s t := by
  induction h with
  | refl => exact Reported.refl s
  | tail _ h ih =>
    refine ih.trans ?_
    cases h with
    | media h _ _ => exact .of_eq h.notices
    | work | read => exact .of_eq rfl
    | notice _ _ h _ => exact State.queueNotice_plain _ _ _ h

theorem Installs.workLength {s t : State} (h : Installs s t) :
    t.installer.work.length ≤ max 1 s.installer.work.length := by
  induction h with
  | refl => exact Nat.le_max_right _ _
  | tail _ h ih =>
    cases h with
    | media h _ _ => rw [h.installer]; exact ih
    | work x h => exact h.trans (by omega)
    | read | notice => exact ih

/-- The install read apart, the delivery engine is left alone. -/
theorem Installs.delivery {s t : State} (h : Installs s t) :
    t.delivery = { s.delivery with installRead := t.delivery.installRead } := by
  induction h with
  | refl => rfl
  | tail _ h ih =>
    cases h with
    | media h _ _ => rw [h.delivery]; exact ih
    | work | notice => exact ih
    | read x =>
      rw [State.setDelivery_delivery, ih]

theorem Installs.stamp {s t : State} (h : Installs s t) : t.stamp = s.stamp := by
  induction h with
  | refl => rfl
  | tail _ h ih =>
    cases h with
    | media h _ _ => exact h.stamp.trans ih
    | work | read | notice => exact ih

/-! ### The close of a step -/

theorem State.finish_steady (s : State) : Steady 0 s s.finish :=
  (s.settleFront_installs.steady).after (State.offer_step _).media (State.offer_step _).delivery

theorem State.finish_reported {G : Nat → Prop} (s : State) : Reported G s s.finish := by
  have h : Reported G s s.settleFront.recomputeReady := s.settleFront_installs.reported.trans (.of_eq rfl)
  have k := State.offer_step s.settleFront.recomputeReady
  refine h.trans ⟨by rw [State.finish, k.queue], fun i n hn _ => by rw [State.finish, k.queue]; exact hn,
    fun i n hn => .inl ⟨n, by rwa [State.finish, k.queue] at hn, rfl, id⟩, ?_, ?_, ?_, k.count⟩
  all_goals rw [State.finish]
  · rw [k.loss]
    exact Nat.min_le_right _ _
  · rw [k.queue]
    exact id
  · rw [k.loss]
    exact id

theorem State.finish_delivery (s : State) :
    s.finish.delivery = { s.delivery with installRead := s.finish.delivery.installRead } := by
  rw [State.finish, (State.offer_step _).delivery]
  exact s.settleFront_installs.delivery

end Sys2Proof.Machine
end

