-- ==== Sys2Proof/Proofs/Blocks.lean ====
section
/-! SUPPORT. What each command keeps of the flash array, the link's state, the segment buffers and the order of the read
queues, and which blocks it leaves alone (R92, R95, R101, R174). -/

namespace Sys2Proof.Machine

/-! ### Buffers and queues apart -/

/-- From `s` to `t` the order of the read queues is kept, and as many buffers are free or in use. -/
structure Held (s t : State) : Prop where
  buffers : t.bufferTotal = s.bufferTotal
  reads   : s.readsLawful → t.readsLawful

theorem Steady.held {s t : State} (h : Steady 0 s t) : Held s t := ⟨h.buffers, h.reads⟩

theorem Held.trans {s t u : State} (a : Held s t) (b : Held t u) : Held s u :=
  ⟨b.buffers.trans a.buffers, b.reads ∘ a.reads⟩

/-! ### Voices -/

theorem VoiceTo.foldl_steady (tags : List Nat) (s : State) : Steady 0 s (tags.foldl State.tickVoice s) :=
  Steady.foldl _ (fun s g => (s.tickVoice_to (G := fun _ => True) g trivial).steady) tags s

theorem State.tickEvent_steady (s : State) (order : List (BitVec 12)) : Steady 0 s (s.tickEvent order) := by
  have h1 := (Steady.refl s).setTimebase { s.timebase with tick := nextTick s.timebase.tick }
  have h2 := h1.trans (VoiceTo.foldl_steady (tickOrder order s.voices) _)
  unfold State.tickEvent
  dsimp only
  split
  · exact (((h2.setVoices _).trans (State.syncReads_steady _)).setTimebase _).trans (State.suspendTests_steady _)
  · exact (h2.setTimebase _).trans (State.suspendTests_steady _)

theorem State.standIn_steady (s : State) (at_ : Nat) (order : List (BitVec 12)) : Steady 0 s (s.standIn at_ order) := by
  have h := ((Steady.refl s).setTimebase { s.timebase with
    reference := some at_, standIn := s.timebase.standIn + 1 }).trans (State.tickEvent_steady _ order)
  unfold State.standIn
  dsimp only
  split
  · exact (h.setTimebase _).notice _ _
  · exact h

theorem State.edge_steady (s : State) (rate : SessionRate) (t : Nat) (order : List (BitVec 12)) :
    Steady 0 s (s.edge rate t order) := by
  have ticked (b : Timebase) := ((Steady.refl s).setTimebase b).trans (State.tickEvent_steady _ order)
  unfold State.edge
  split
  · exact Steady.refl s
  · unfold State.fallbackEdge
    dsimp only
    split
    · exact (Steady.refl s).setTimebase _
    · unfold State.lock
      dsimp only
      split
      · exact (ticked _).notice _ _
      · exact ((Steady.refl s).setTimebase _).notice _ _
  · unfold State.externalEdge
    split
    · exact Steady.refl s
    · split
      · exact ticked _
      · exact Steady.refl s

theorem State.applyLoad_steady (s : State) : Steady 0 s s.applyLoad := by
  unfold State.applyLoad
  split
  · exact Steady.refl s
  · exact ((Steady.refl s).setTimebase _).setVoices _

theorem State.downbeat_steady (s : State) : Steady 0 s s.downbeat :=
  ((s.applyLoad_steady).setVoices _).trans (State.syncReads_steady _)

theorem State.retireAll_steady (s : State) (reason : RetireReason) : Steady 0 s (s.retireAll reason) :=
  (s.discardSegments_steady _).trans (Steady.foldl _ (fun s v => s.retireRecord_steady reason v) _ _)

theorem State.retire_steady (s : State) (g : Nat) (reason : RetireReason) : Steady 0 s (s.retire g reason) :=
  (s.retire_to (G := fun _ => True) g reason trivial).steady

theorem State.createVoice_steady (s : State) (b : Bid) : Steady 0 s (s.createVoice b) := by
  have h1 : Steady 0 s s.steal := by
    unfold State.steal
    split
    · exact s.retire_steady _ _
    · exact Steady.refl s
  unfold State.createVoice
  dsimp only
  split
  next record _ =>
    exact (h1.setVoices _).trans
      (State.testEligible_fills (G := fun _ => True) _ b.tag).steady
  next => exact h1.trans (State.releaseUse_steady _ _)

theorem State.applyEnd_steady (s : State) (v : Voice) (mode : CutOrFade) (to_ : Nat) (hv : s.voice? v.tag = some v) :
    Steady 0 s (s.applyEnd v mode to_) := by
  unfold State.applyEnd
  split
  · exact s.retire_steady _ _
  · split
    · exact .of_eq rfl rfl
    · exact (State.fixFade_fills (G := fun _ => True) s v _ hv).steady

theorem State.endVoice_steady (s : State) (v : Voice) (mode : EndMode) (atTick : Option Nat) (sender : Nat)
    (hv : s.voice? v.tag = some v) : Steady 0 s (s.endVoice v mode atTick sender) := by
  have hold (mode : CutOrFade) : Steady 0 s (s.endOrHold v mode atTick sender) := by
    unfold State.endOrHold
    split
    · split
      · exact .of_eq rfl rfl
      · exact s.applyEnd_steady v mode sender hv
    · exact s.applyEnd_steady v mode sender hv
  unfold State.endVoice
  split
  · exact .of_eq rfl rfl
  · exact hold _
  · exact hold _

/-! ### Bid entries and watches -/

theorem State.dropBid_steady (s : State) (tag : Nat) : Steady 0 s (s.dropBid tag) := by
  unfold State.dropBid
  split
  · exact Steady.refl s
  · exact .of_eq rfl rfl

theorem WatchStep.steady {s t : State} (h : WatchStep s t) : Steady 0 s t := .of_eq h.media h.delivery

theorem State.claimReturned_steady (s : State) (tag : Nat) : Steady 0 s (s.claimReturned tag) := by
  unfold State.claimReturned
  split
  · exact Steady.refl s
  · split
    · exact .of_eq rfl rfl
    · exact s.dropBid_steady tag

theorem State.homeWatch_steady (s : State) (n : NoteFields) : Steady 0 s (s.homeWatch n) := by
  unfold State.homeWatch
  split
  · split
    · split
      · unfold State.startWatch
        dsimp only
        split <;> exact .of_eq rfl rfl
      · exact .of_eq rfl rfl
    · exact .of_eq rfl rfl
  · exact .of_eq rfl rfl

theorem State.makeBid_steady (s : State) (n : NoteFields) : Steady 0 s (s.makeBid n) := by
  unfold State.makeBid
  split
  · exact .of_eq rfl rfl
  · exact Steady.refl s

theorem State.dropBids_steady (s : State) : Steady 0 s s.dropBids :=
  ((Steady.refl s).setClaims _).trans (State.releaseUses_steady _ _)

/-! ### Deliveries -/

theorem State.startPosting_steady (s : State) : Steady 0 s s.startPosting := by
  unfold State.startPosting
  split
  next e rest c hp hq hc =>
    refine ⟨rfl, rfl, ?_, id⟩
    have hold : s.delivery.buffers = rest.length + 1 := by rw [DeliveryEngine.buffers, hp, hq]; rfl
    rw [State.bufferTotal_eq, State.bufferTotal_eq, hold]
    rfl
  next => exact Steady.refl s

/-- A segment that joins the delivery queue holds its buffer (R175). -/
theorem State.joinDelivery_steady (s : State) (e : Delivery) : Steady 1 s (s.joinDelivery e) := by
  have h : Steady 1 s (s.setDelivery { s.delivery with queue := s.delivery.queue ++ [e] }) := by
    refine ⟨rfl, rfl, ?_, id⟩
    have hnew : ({ s.delivery with queue := s.delivery.queue ++ [e] } : DeliveryEngine).buffers =
        s.delivery.buffers + 1 := by
      simp only [DeliveryEngine.buffers, List.length_append, List.length_singleton]
      omega
    rw [State.bufferTotal_eq, State.bufferTotal_eq, State.setDelivery_delivery, hnew]
    simp only [State.setDelivery_media]
    omega
  exact h.trans (State.startPosting_steady _)

theorem State.postingEnded_steady (s : State) (p : Posting) (hp : s.delivery.posting = some p) :
    Steady 0 s (s.postingEnded p) := by
  have h0 : (s.setDelivery { s.delivery with posting := none }).bufferTotal + 1 = s.bufferTotal := by
    have hold : s.delivery.buffers = s.delivery.queue.length + 1 := by rw [DeliveryEngine.buffers, hp]; rfl
    rw [State.bufferTotal_eq, State.bufferTotal_eq, hold]
    rfl
  have h1 := State.freeBuffer_steady (s.setDelivery { s.delivery with posting := none })
  have h2 : Steady 0 s (s.setDelivery { s.delivery with posting := none }).freeBuffer :=
    ⟨h1.flash, h1.link, h1.buffers.trans h0, h1.reads⟩
  unfold State.postingEnded
  dsimp only
  refine Steady.trans ?_ (State.startPosting_steady _)
  split
  · exact h2
  · exact h2.trans (State.deliveryCompletion_fills (G := fun _ => True) _ _ _ trivial).steady

/-- Only an IDLE or SUSPENDED die begins a read (R90). -/
theorem State.beginRead_state {s t : State} {d : Nat} (h : s.beginRead? d = some t) :
    (s.die d).state = .idle ∨ ∃ op, (s.die d).state = .suspended op := by
  unfold State.beginRead? Die.begin? at h
  split at h
  · cases h
  next r rest free ht =>
    cases hx : (s.die d).state.reading? { req := r, discarded := false } with
    | none => simp [hx] at h
    | some x =>
      unfold DieState.reading? at hx
      split at hx
      next hs => exact .inl hs
      next op hs => exact .inr ⟨op, hs⟩
      all_goals cases hx

/-- A die that performs a read takes no freed buffer. -/
theorem State.freeBuffer_reading {s : State} {d : Nat} (h : (s.die d).state.activeRead?.isSome) :
    (s.freeBuffer).die d = s.die d := by
  unfold State.freeBuffer
  dsimp only
  split
  next e _ =>
    cases hb : (s.setMedia { s.media with freeBuffers := s.media.freeBuffers + 1 }).beginRead? e with
    | none => rfl
    | some t =>
      refine State.beginRead_die_other hb d fun hd => ?_
      subst hd
      rcases State.beginRead_state hb with hs | ⟨op, hs⟩
      all_goals
        rw [show (s.setMedia { s.media with freeBuffers := s.media.freeBuffers + 1 }).die d = s.die d from rfl] at hs
        rw [hs] at h
        cases h
  next => rfl

theorem State.startPosting_media (s : State) : s.startPosting.media = s.media := by
  unfold State.startPosting
  split <;> rfl

/-- A read that keeps its buffer joins a queue again (R98). -/
theorem State.joinReads_kept (s : State) (d : Nat) (r : ReadRequest) (hk : r.kept = true)
    (hd : d < s.media.dies.length) : Steady 1 s (s.joinReads d r) := by
  have h := State.bufferTotal_updateDie (fun die => { die with reads := placeRead r die.reads }) hd
  rw [Die.buffers_eq, Die.buffers_eq, keptReads_placeRead, if_pos hk] at h
  exact ⟨rfl, rfl, by unfold State.joinReads; dsimp only at h; omega,
    State.updateDie_reads fun _ hp => placeRead_pairwise r hp⟩

/-- The result of a read takes over its buffer, and the die that performed it goes on with it till it ends (R97). -/
theorem State.readOutcome_steady (s : State) (d : Nat) (a : ActiveRead) (bad : BitVec 12)
    (ha : (s.die d).state.activeRead? = some a) :
    Steady 1 s (s.readOutcome d a bad) ∧ ((s.readOutcome d a bad).die d).state = (s.die d).state := by
  have hsome : (s.die d).state.activeRead?.isSome := by rw [ha]; rfl
  have hd : d < s.media.dies.length := by
    by_contra hd
    rw [State.die_eq_reset hd] at ha
    cases ha
  have joined (u : State) (e : Delivery) : ((u.joinDelivery e).die d).state = (u.die d).state := by
    unfold State.joinDelivery State.die
    rw [State.startPosting_media]
    rfl
  unfold State.readOutcome
  split
  next v _ hv =>
    unfold State.readResult
    dsimp only
    split
    · exact ⟨State.joinDelivery_steady s _, joined s _⟩
    · split
      · refine ⟨s.joinReads_kept d _ rfl hd, ?_⟩
        unfold State.joinReads
        rw [State.die_updateDie]
        split
        next he => rfl
        next => rfl
      · exact ⟨((Steady.refl s).notice _ _).trans (State.joinDelivery_steady _ _), joined _ _⟩
  next =>
    exact ⟨s.freeBuffer_steady, congrArg Die.state (State.freeBuffer_reading hsome)⟩

/-- A read that ends gives up the buffer it was performed with (R97). -/
theorem State.readEnded_held {s : State} {d : Nat} (h : (s.die d).state.activeRead?.isSome) :
    (s.readEnded d).bufferTotal + 1 = s.bufferTotal ∧ (s.readsLawful → (s.readEnded d).readsLawful) ∧
      (s.readEnded d).media.flash = s.media.flash ∧ (s.readEnded d).delivery = s.delivery := by
  have hd : d < s.media.dies.length := by
    by_contra hd
    rw [State.die_eq_reset hd] at h
    cases h
  have hnone : ((s.die d).state.afterRead).activeRead?.isSome = false := by
    cases hs : (s.die d).state <;> simp_all [DieState.afterRead, DieState.activeRead?]
  have hk := State.readsChanged_steady (s.setDieState d (s.die d).state.afterRead) d
  have hb := State.bufferTotal_updateDie (fun die => { die with state := (s.die d).state.afterRead }) hd
  rw [Die.buffers_eq, Die.buffers_eq, hnone, h] at hb
  simp only [Bool.toNat_true, Bool.toNat_false] at hb
  refine ⟨?_, fun hr => hk.reads (State.updateDie_reads (fun _ hp => hp) hr), hk.flash,
    (State.readEnded_step s d).delivery⟩
  have := hk.buffers
  unfold State.readEnded State.setDieState at *
  omega

end Sys2Proof.Machine
end

