-- ==== Sys2Proof/Proofs/Effects.lean ====
section
/-! SUPPORT. What a command can do, said once: the state it starts from, which is the station at another time or one
whose frame has ended, and then one effect, with the conditions under which it is taken. Every law of the steps is
proved by cases over these effects. -/

namespace Sys2Proof.Machine

/-- If the outcome is a next state, `P` holds of it. -/
def Leads (o : Host.Outcome State Fault Refusal) (P : State → Prop) : Prop := ∀ t, o = .next t → P t

@[simp] theorem leads_next (t : State) (P : State → Prop) : Leads (.next t) P ↔ P t := by simp [Leads]

theorem Leads.mono {o : Host.Outcome State Fault Refusal} {P Q : State → Prop} (h : Leads o P)
    (hPQ : ∀ t, P t → Q t) : Leads o Q := fun t ht => hPQ t (h t ht)

@[simp] theorem State.atTime_zero (s : State) : s.atTime 0 = s := by
  simp [State.atTime, State.setClock]

/-- The state in which a command's effect is taken: the station at a time, or with the frame it was receiving ended and
the watches fallen due decided (R111, R138). -/
inductive Starts (s : State) : State → Prop
  | clock (t : Nat) : Starts s (s.atTime t)
  | ended (t : Nat) (h : (s.atTime t).assembling = true) : Starts s (s.atTime t).endFrame.settleDue

/-- The effect of a command, from the state in which it is taken. -/
inductive Effect (s : State) : Instr → State → Prop
  | nothing (c : Instr) : Effect s c s
  | reset (straps : BitVec 4) : Effect s (.powerOnReset straps)
      ((State.resetOver straps.toNat (dieNumbers.foldl State.abandonLongOp s).media.flash
        (dieNumbers.foldl State.abandonLongOp s).stamp).setPending s.pending)
  | scan {n : Nat} {x : Scan} (t : Nat) (bad : Bool) (hn : (s.die 0).state = .logRead n)
      (hx : s.catalogue.scan = some x) : Effect s (.logSectorReadEnd t bad) (s.logSectorRead x bad).finish
  | edge {rate : SessionRate} (t : Nat) (order : List (BitVec 12)) (hr : s.rate? = some rate) :
      Effect s (.filteredEdge t order) (s.edge rate t order).finish
  | divider {rate : SessionRate} (order : List (BitVec 12)) (hs : s.timebase.source = .fallback)
      (hr : s.rate? = some rate) :
      Effect s (.dividerTick order) ((s.setTimebase (s.timebase.dividerTicked rate)).tickEvent order).finish
  | standIn {rate : SessionRate} {e : Nat} (order : List (BitVec 12)) (hs : s.timebase.source = .external)
      (hr : s.rate? = some rate) (he : s.timebase.reference = some e) :
      Effect s (.standInTick order) (s.standIn (standInDue rate e) order).finish
  | driveEnd : Effect s .downbeatDriveEnd (s.setTimebase { s.timebase with driving := none })
  | lineRise (t : Nat) : Effect s (.downbeatLineRise t) (s.setTimebase { s.timebase with pulseTaken := false })
  | pulse (t : Nat) : Effect s (.downbeatEvent t) (s.setTimebase { s.timebase with pulseTaken := true })
  | downbeat (t : Nat) (hc : s.station.state = .configured) :
      Effect s (.downbeatEvent t) (s.setTimebase { s.timebase with pulseTaken := true }).downbeat.finish
  | busIdle (t : Nat) (hb : s.port.bus = .seeking ∨ s.port.bus = .skipping) :
      Effect s (.busIdle t) (s.setPort { s.port with bus := .idle, rival := none }).finish
  | frameBegins (t : Nat) (kind : BitVec 4) :
      Effect s (.frameBegins t kind) (s.setPort (s.port.frameBegun kind.toNat s.clock))
  | claimLost {tag : Nat} {f : Frame} (t : Nat) (kind : BitVec 4) (hp : s.port.sending = some (.claim tag f))
      (hk : kind = 1#4) : Effect s (.arbitrationLost t kind)
        ((s.setPort { bus := .receiving kind.toNat, sending := none }).claimReturned tag)
  | claimLostTo {tag : Nat} {f : Frame} (t : Nat) (kind : BitVec 4) (hp : s.port.sending = some (.claim tag f))
      (hk : kind ≠ 1#4) : Effect s (.arbitrationLost t kind)
        ((s.setPort { bus := .receiving kind.toNat, sending := none }).claimReturned tag).settleDue
  | noticeLost {f : Frame} (t : Nat) (kind : BitVec 4) (hp : s.port.sending = some (.notice f)) :
      Effect s (.arbitrationLost t kind)
        ((s.setPort { bus := .receiving kind.toNat, sending := none }).setNotices s.notices.foldAddendum)
  | claimBroken {tag : Nat} {f : Frame} (t : Nat) (hp : s.port.sending = some (.claim tag f)) :
      Effect s (.bitError t) (s.claimReturned tag).stopClaim
  | noticeBroken {f : Frame} (t : Nat) (hp : s.port.sending = some (.notice f)) :
      Effect s (.bitError t) ((s.setPort s.port.stop).setNotices s.notices.bitError)
  | noticeSent {f : Frame} (t : Nat) (hp : s.port.sending = some (.notice f)) :
      Effect s (.noticeSent t) ((s.setPort { bus := .skipping, sending := none }).setNotices s.notices.sent)
  | claimWon {tag : Nat} {f : Frame} {b : Bid} (t : Nat) (hp : s.port.sending = some (.claim tag f))
      (hb : s.bid? tag = some b) :
      Effect s (.claimWon t) ((s.setPort { bus := .skipping, sending := none }).claimWonBy b)
  | claimGone {tag : Nat} {f : Frame} (t : Nat) (hp : s.port.sending = some (.claim tag f))
      (hb : s.bid? tag = none) : Effect s (.claimWon t) (s.setPort { bus := .skipping, sending := none })
  | claimHeard (t : Nat) (h : Header) (tagField : BitVec 16) (ha : s.assembling = true)
      (hc : s.station.state = .configured) :
      Effect s (.claim t h tagField) (s.endFrame.claimHeard (tagOf tagField))
  | note (t : Nat) (h : Header) (region : BitVec 24) (offset : BitVec 32) (tick : BitVec 48) (rate : BitVec 24)
      (flags : BitVec 8) (n : NoteFields) (hc : s.station.state = .configured) (hr : n.rate = clampRate rate.toNat) :
      Effect s (.note t h region offset tick rate flags) (s.noteTaken n)
  | endVoice {v : Voice} (t : Nat) (h : Header) (flags : BitVec 8) (fade : BitVec 24) (atTick : BitVec 48)
      (mode : EndMode) (hv : s.voice? h.key.toNat = some v) :
      Effect s (.endRequest t h flags fade atTick) (s.endVoice v mode (atTickOf flags atTick) h.sender.toNat).finish
  | endBid {b : Bid} (t : Nat) (h : Header) (flags : BitVec 8) (fade : BitVec 24) (atTick : BitVec 48)
      (hb : s.bid? h.key.toNat = some b) :
      Effect s (.endRequest t h flags fade atTick) (s.dropBid b.tag).finish
  | endNone (t : Nat) (h : Header) (flags : BitVec 8) (fade : BitVec 24) (atTick : BitVec 48) :
      Effect s (.endRequest t h flags fade atTick) s.finish
  | rateVoice {v : Voice} (t : Nat) (h : Header) (target : BitVec 24) (step : BitVec 16)
      (hv : s.voice? h.key.toNat = some v) : Effect s (.rate t h target step)
        ((s.updateVoice v.tag (·.rated (clampRate target.toNat) step.toNat)).recomputeDry v.tag).finish
  | rateBid {b : Bid} (t : Nat) (h : Header) (target : BitVec 24) (step : BitVec 16)
      (hb : s.bid? h.key.toNat = some b) : Effect s (.rate t h target step)
        (s.updateBid b.tag fun b => { b with rate := clampRate target.toNat }).finish
  | rateNone (t : Nat) (h : Header) (target : BitVec 24) (step : BitVec 16) :
      Effect s (.rate t h target step) s.finish
  | follow {v : Voice} (t : Nat) (h : Header) (region : BitVec 24) (offset : BitVec 32)
      (hv : s.voice? h.key.toNat = some v) : Effect s (.follow t h region offset)
        (s.followTaken v region.toNat (roundSegment offset.toNat) h.sender.toNat)
  | unfollow {v : Voice} (t : Nat) (h : Header) (hv : s.voice? h.key.toNat = some v) :
      Effect s (.unfollow t h) (s.unfollowTaken v)
  | halt (t : Nat) (h : Header) (hs : s.station.state ≠ .starting) :
      Effect s (.halt t h) (s.haltTaken h.sender.toNat)
  | timebase (t : Nat) (h : Header) (flags : BitVec 8) (load drive : BitVec 48) :
      Effect s (.timebase t h flags load drive) (s.timebaseTaken h (loadOf flags load) (driveOf flags drive))
  | probe (t : Nat) (h : Header) (region : BitVec 24) (hs : s.station.state ≠ .starting) :
      Effect s (.probe t h region) (s.probeTaken region.toNat h.sender.toNat)
  | install (t : Nat) (h : Header) (region : BitVec 24) (format : BitVec 8) (frames loopStart loopEnd : BitVec 24)
      (source : BitVec 64) (i : InstallFields) (hs : s.station.state ≠ .starting) :
      Effect s (.install t h region format frames loopStart loopEnd source) (s.installTaken i)
  | reclaim (t : Nat) (h : Header) (region : BitVec 24) (hs : s.station.state ≠ .starting) :
      Effect s (.reclaim t h region) (s.reclaimTaken region.toNat h.sender.toNat)
  | wipe (t : Nat) (h : Header) (hs : s.station.state ≠ .starting) :
      Effect s (.wipe t h) (s.wipeTaken h.sender.toNat)
  | configure (t : Nat) (h : Header) (rateCode : BitVec 8) (base : BitVec 64) (ringLength primeDepth : BitVec 8)
      (hs : s.station.state ≠ .starting) : Effect s (.configure t h rateCode base ringLength primeDepth)
        (s.configureTested h.sender.toNat (configurationOf rateCode base ringLength primeDepth))
  | bidExpires {b : Bid} (tag : BitVec 12) (hb : s.bid? tag.toNat = some b) (ho : b.offer = .waiting) :
      Effect s (.bidWindowExpiry tag) (s.dropBid tag.toNat)
  | bidCloses {b : Bid} (tag : BitVec 12) (hb : s.bid? tag.toNat = some b) (ho : b.offer = .sending) :
      Effect s (.bidWindowExpiry tag) (s.updateBid tag.toNat fun b => { b with window := .closed })
  | watchDeferred (tag : BitVec 12) : Effect s (.watchWindowExpiry tag) (s.deferWatch tag.toNat)
  | watchDecided (tag : BitVec 12) (w : Watch) : Effect s (.watchWindowExpiry tag) (s.decideWatch w).finish
  | segmentRead {a : ActiveRead} (t d : Nat) (bad : BitVec 12) (ha : (s.die d).state.activeRead? = some a) :
      Effect s (.segmentReadEnd t d bad) ((s.readOutcome d a bad).readEnded d).finish
  | programEnds {p : Program} (t d : Nat) (ok : Bool) (hd : (s.die d).state = .busy (.program p)) :
      Effect s (.programComplete t d ok) (s.longOpResult d (.program p) ok).finish
  | eraseEnds {b : Nat} (t d : Nat) (ok : Bool) (hd : (s.die d).state = .busy (.erase b)) :
      Effect s (.eraseComplete t d ok) (s.longOpResult d (.erase b) ok).finish
  | suspended {op : LongOp} (t d : Nat) (hd : (s.die d).state = .suspendPending op) :
      Effect s (.suspendReported t d .suspended) ((s.setDieState d (.suspended op)).serviceDecision d).finish
  | completed {op : LongOp} (t d : Nat) (ok : Bool) (hd : (s.die d).state = .suspendPending op) :
      Effect s (.suspendReported t d (.completed ok)) (s.longOpResult d op ok).finish
  | holdOff (d : Nat) : Effect s (.resumeHoldOffExpiry d) (s.suspendTest d).finish
  | posting {p : Posting} (t : Nat) (hp : s.delivery.posting = some p) :
      Effect s (.postingEnd t) (s.postingEnded p).finish
  | linkUp (t : Nat) : Effect s (.linkUp t) (s.setDelivery { s.delivery with link := .up })
  | linkLost (t : Nat) : Effect s (.linkDown t) s.linkLost
  | pageRead {r : InstallRead} {i : InstallItem} {rest : List WorkItem} (t : Nat) (bytes : List Byte)
      (hr : s.delivery.installRead = some r) (hi : s.installer.work = .install i :: rest) :
      Effect s (.installReadDone t bytes) (s.endRead.pageRead i r.bytes bytes)
  | readFails {r : InstallRead} {i : InstallItem} {rest : List WorkItem} (t : Nat)
      (hr : s.delivery.installRead = some r) (hi : s.installer.work = .install i :: rest) :
      Effect s (.installReadError t) (s.endRead.installFails i .linkRead).finish
  | readTimesOut {r : InstallRead} {i : InstallItem} {rest : List WorkItem}
      (hr : s.delivery.installRead = some r) (hi : s.installer.work = .install i :: rest) :
      Effect s .installReadTimeout (s.endRead.installFails i .linkRead).finish

/-- The command, carried out in `s`, starts in some state and has one effect there. -/
def Does (c : Instr) (s t : State) : Prop := ∃ u, Starts s u ∧ Effect u c t

theorem Does.at_ {c : Instr} {s t : State} (n : Nat) (h : Effect (s.atTime n) c t) : Does c s t := ⟨_, .clock n, h⟩

theorem Does.unchanged (c : Instr) (s : State) : Does c s s := ⟨s, by simpa using Starts.clock (s := s) 0, .nothing c⟩

/-- A frame other than a CLAIM does nothing, or ends and has its effect (R118, R120). -/
theorem State.receive_does {c : Instr} (s : State) (t : Nat) (h : Header) {act : State → State}
    (hact : ∀ u, Effect u c (act u)) : Does c s (s.receive t h act) := by
  unfold State.receive
  dsimp only
  split
  next ha =>
    split
    · exact ⟨_, .ended t ha, hact _⟩
    · exact ⟨_, .ended t ha, .nothing c⟩
  next => exact .at_ t (.nothing c)

/-- A request that is ignored in STARTING. -/
theorem unless_starting {P : State → Prop} {s u : State} (hs : P s) (hu : s.station.state ≠ .starting → P u) :
    P (match s.station.state with
      | .starting => s
      | .unconfigured | .configured => u) := by
  split
  next => exact hs
  next h => exact hu (by rw [h]; exact StationState.noConfusion)
  next h => exact hu (by rw [h]; exact StationState.noConfusion)

theorem exec_does (c : Instr) (s : State) : Leads (exec c s) (Does c s) := by
  cases c
  case powerOnReset straps => exact (leads_next _ _).2 ⟨s, by simpa using Starts.clock (s := s) 0, .reset straps⟩
  case logSectorReadEnd t bad =>
    dsimp only [exec, execLogSectorReadEnd]
    split
    next n x hn hx => exact (leads_next _ _).2 (.at_ t (.scan t bad hn hx))
    next => exact (leads_next _ _).2 (.at_ t (.nothing _))
  case filteredEdge t order =>
    dsimp only [exec, execFilteredEdge]
    split
    next rate hr => exact (leads_next _ _).2 (.at_ t (.edge t order hr))
    next => exact (leads_next _ _).2 (.at_ t (.nothing _))
  case dividerTick order =>
    dsimp only [exec, execDividerTick]
    split
    next rate hs hr => exact (leads_next _ _).2 (.at_ _ (.divider order hs hr))
    next => exact (leads_next _ _).2 (.unchanged _ s)
  case standInTick order =>
    dsimp only [exec, execStandInTick]
    split
    next rate e hs hr he => exact (leads_next _ _).2 (.at_ _ (.standIn order hs hr he))
    next => exact (leads_next _ _).2 (.unchanged _ s)
  case downbeatDriveEnd =>
    dsimp only [exec, execDownbeatDriveEnd]
    split
    next start _ => exact (leads_next _ _).2 (.at_ (start + driveCycles) .driveEnd)
    next => exact (leads_next _ _).2 (.unchanged _ s)
  case downbeatEvent t =>
    dsimp only [exec, execDownbeatEvent]
    split
    · exact (leads_next _ _).2 (.at_ t (.nothing _))
    · split
      next hc => exact (leads_next _ _).2 (.at_ t (.downbeat t hc))
      next => exact (leads_next _ _).2 (.at_ t (.pulse t))
  case downbeatLineRise t => exact (leads_next _ _).2 (.at_ t (.lineRise t))
  case busIdle t =>
    dsimp only [exec, execBusIdle]
    split
    next hb => exact (leads_next _ _).2 (.at_ t (.busIdle t (.inl hb)))
    next hb => exact (leads_next _ _).2 (.at_ t (.busIdle t (.inr hb)))
    next => exact (leads_next _ _).2 (.at_ t (.nothing _))
    next => exact (leads_next _ _).2 (.at_ t (.nothing _))
  case frameBegins t kind => exact (leads_next _ _).2 (.at_ t (.frameBegins t kind))
  case arbitrationLost t kind =>
    dsimp only [exec, execArbitrationLost]
    split
    next tag f hp =>
      refine (leads_next _ _).2 ?_
      split
      next hk => exact .at_ t (.claimLost t kind hp hk)
      next hk => exact .at_ t (.claimLostTo t kind hp hk)
    next f hp => exact (leads_next _ _).2 (.at_ t (.noticeLost t kind hp))
    next => exact (leads_next _ _).2 (.at_ t (.nothing _))
  case bitError t =>
    dsimp only [exec, execBitError]
    split
    next tag f hp => exact (leads_next _ _).2 (.at_ t (.claimBroken t hp))
    next f hp => exact (leads_next _ _).2 (.at_ t (.noticeBroken t hp))
    next => exact (leads_next _ _).2 (.at_ t (.nothing _))
  case frameCutShort t =>
    dsimp only [exec, execFrameCutShort]
    refine (leads_next _ _).2 ?_
    split
    next ha => exact ⟨_, .ended t ha, .nothing _⟩
    next => exact .at_ t (.nothing _)
  case frameDiscarded t frame check =>
    dsimp only [exec, execFrameDiscarded]
    refine (leads_next _ _).2 ?_
    split
    next ha => exact ⟨_, .ended t (Bool.and_eq_true_iff.1 ha).1, .nothing _⟩
    next => exact .at_ t (.nothing _)
  case claimWon t =>
    dsimp only [exec, execClaimWon]
    split
    next tag f hp =>
      split
      next b hb => exact (leads_next _ _).2 (.at_ t (.claimWon t hp hb))
      next hb => exact (leads_next _ _).2 (.at_ t (.claimGone t hp hb))
    next => exact (leads_next _ _).2 (.at_ t (.nothing _))
    next => exact (leads_next _ _).2 (.at_ t (.nothing _))
  case noticeSent t =>
    dsimp only [exec, execNoticeSent]
    split
    next f hp => exact (leads_next _ _).2 (.at_ t (.noticeSent t hp))
    next => exact (leads_next _ _).2 (.at_ t (.nothing _))
    next => exact (leads_next _ _).2 (.at_ t (.nothing _))
  case claim t h tagField =>
    dsimp only [exec, execClaim]
    split
    next ha =>
      split
      next hc => exact (leads_next _ _).2 (.at_ t (.claimHeard t h tagField ha hc))
      next => exact (leads_next _ _).2 ⟨_, .ended t ha, .nothing _⟩
    next => exact (leads_next _ _).2 (.at_ t (.nothing _))
  case note t h region offset tick rate flags =>
    refine (leads_next _ _).2 (s.receive_does t h fun u => ?_)
    split
    next mode _ =>
      split
      next hc => exact .note t h region offset tick rate flags _ hc rfl
      next => exact .nothing _
    next => exact .nothing _
  case endRequest t h flags fade atTick =>
    refine (leads_next _ _).2 (s.receive_does t h fun u => ?_)
    split
    next mode _ =>
      unfold State.endTaken State.request
      split
      next v hv => exact .endVoice t h flags fade atTick mode hv
      next b _ hb => exact .endBid t h flags fade atTick hb
      next => exact .endNone t h flags fade atTick
    next => exact .nothing _
  case rate t h target step =>
    refine (leads_next _ _).2 (s.receive_does t h fun u => ?_)
    unfold State.rateTaken State.request
    split
    next v hv => exact .rateVoice t h target step hv
    next b _ hb => exact .rateBid t h target step hb
    next => exact .rateNone t h target step
  case follow t h region offset =>
    refine (leads_next _ _).2 (s.receive_does t h fun u => ?_)
    unfold State.request
    split
    next v hv => exact .follow t h region offset hv
    next => exact .nothing _
    next => exact .nothing _
  case unfollow t h =>
    refine (leads_next _ _).2 (s.receive_does t h fun u => ?_)
    unfold State.request
    split
    next v hv => exact .unfollow t h hv
    next => exact .nothing _
    next => exact .nothing _
  case halt t h =>
    exact (leads_next _ _).2 (s.receive_does t h fun u =>
      unless_starting (P := Effect u _) (.nothing _) fun hs => .halt t h hs)
  case timebase t h flags load drive =>
    exact (leads_next _ _).2 (s.receive_does t h fun u => .timebase t h flags load drive)
  case notice t h payload => exact (leads_next _ _).2 (s.receive_does t h fun u => .nothing _)
  case probe t h region =>
    exact (leads_next _ _).2 (s.receive_does t h fun u =>
      unless_starting (P := Effect u _) (.nothing _) fun hs => .probe t h region hs)
  case install t h region format frames loopStart loopEnd source =>
    exact (leads_next _ _).2 (s.receive_does t h fun u =>
      unless_starting (P := Effect u _) (.nothing _) fun hs =>
        .install t h region format frames loopStart loopEnd source _ hs)
  case reclaim t h region =>
    exact (leads_next _ _).2 (s.receive_does t h fun u =>
      unless_starting (P := Effect u _) (.nothing _) fun hs => .reclaim t h region hs)
  case wipe t h =>
    exact (leads_next _ _).2 (s.receive_does t h fun u =>
      unless_starting (P := Effect u _) (.nothing _) fun hs => .wipe t h hs)
  case configure t h rateCode base ringLength primeDepth =>
    exact (leads_next _ _).2 (s.receive_does t h fun u =>
      unless_starting (P := Effect u _) (.nothing _) fun hs => .configure t h rateCode base ringLength primeDepth hs)
  case bidWindowExpiry tag =>
    dsimp only [exec, execBidWindowExpiry]
    split
    next => exact (leads_next _ _).2 (.unchanged _ s)
    next b hb =>
      split
      next ho => exact (leads_next _ _).2 (.at_ b.expiry (.bidExpires tag hb ho))
      next ho => exact (leads_next _ _).2 (.at_ b.expiry (.bidCloses tag hb ho))
  case watchWindowExpiry tag =>
    dsimp only [exec, execWatchWindowExpiry]
    split
    next => exact (leads_next _ _).2 (.unchanged _ s)
    next w _ =>
      split
      · exact (leads_next _ _).2 (.at_ w.expiry (.watchDeferred tag))
      · exact (leads_next _ _).2 (.at_ w.expiry (.watchDecided tag w))
  case segmentReadEnd t d bad =>
    dsimp only [exec, execSegmentReadEnd]
    split
    next a ha => exact (leads_next _ _).2 (.at_ t (.segmentRead t d bad ha))
    next => exact (leads_next _ _).2 (.at_ t (.nothing _))
  case programComplete t d ok =>
    dsimp only [exec, execProgramComplete]
    split
    next p hd => exact (leads_next _ _).2 (.at_ t (.programEnds t d ok hd))
    next => exact (leads_next _ _).2 (.at_ t (.nothing _))
  case eraseComplete t d ok =>
    dsimp only [exec, execEraseComplete]
    split
    next b hd => exact (leads_next _ _).2 (.at_ t (.eraseEnds t d ok hd))
    next => exact (leads_next _ _).2 (.at_ t (.nothing _))
  case suspendReported t d report =>
    dsimp only [exec, execSuspendReported]
    split
    next op hd => exact (leads_next _ _).2 (.at_ t (.suspended t d hd))
    next op ok hd => exact (leads_next _ _).2 (.at_ t (.completed t d ok hd))
    next => exact (leads_next _ _).2 (.at_ t (.nothing _))
  case resumeHoldOffExpiry d =>
    dsimp only [exec, execResumeHoldOffExpiry]
    split
    next op at_ _ _ => exact (leads_next _ _).2 (.at_ (at_ + holdOffCycles) (.holdOff d))
    next => exact (leads_next _ _).2 (.unchanged _ s)
  case postingEnd t =>
    dsimp only [exec, execPostingEnd]
    split
    next p hp => exact (leads_next _ _).2 (.at_ t (.posting t hp))
    next => exact (leads_next _ _).2 (.at_ t (.nothing _))
  case linkUp t => exact (leads_next _ _).2 (.at_ t (.linkUp t))
  case linkDown t =>
    dsimp only [exec, execLinkDown]
    split
    next => exact (leads_next _ _).2 (.at_ t (.linkLost t))
    next => exact (leads_next _ _).2 (.at_ t (.nothing _))
  case installReadDone t bytes =>
    dsimp only [exec, execInstallReadDone]
    split
    next r i rest hr hi => exact (leads_next _ _).2 (.at_ t (.pageRead t bytes hr hi))
    next => exact (leads_next _ _).2 (.at_ t (.nothing _))
  case installReadError t =>
    dsimp only [exec, execInstallReadError]
    split
    next r i rest hr hi => exact (leads_next _ _).2 (.at_ t (.readFails t hr hi))
    next => exact (leads_next _ _).2 (.at_ t (.nothing _))
  case installReadTimeout =>
    dsimp only [exec, execInstallReadTimeout]
    split
    next r i rest hr hi => exact (leads_next _ _).2 (.at_ _ (.readTimesOut hr hi))
    next => exact (leads_next _ _).2 (.unchanged _ s)

/-- From a law that the start of a command keeps, each effect leads to `Q`, and so does every step. -/
theorem step_leads {P Q : State → Prop} (hpending : ∀ (s : State) (x : List Instr), P s → P (s.setPending x))
    (hstart : ∀ {s u : State}, Starts s u → P s → P u) (hidle : ∀ {s : State}, P s → Q s)
    (heffect : ∀ {s t : State} {c : Instr}, Effect s c t → P s → Q t) {s t : State} (hs : P s)
    (h : step s = .next t) : Q t := by
  unfold step at h
  split at h
  · cases h
    exact hidle hs
  next c rest _ =>
    obtain ⟨u, hu, ht⟩ := exec_does c _ t h
    exact heffect ht (hstart hu (hpending s rest hs))

/-- A law that the start of a command and each effect keep is kept by every step. -/
theorem step_keeps {P : State → Prop} (hpending : ∀ (s : State) (x : List Instr), P s → P (s.setPending x))
    (hstart : ∀ {s u : State}, Starts s u → P s → P u)
    (heffect : ∀ {s t : State} {c : Instr}, Effect s c t → P s → P t) {s t : State} (hs : P s)
    (h : step s = .next t) : P t := step_leads hpending hstart id heffect hs h

end Sys2Proof.Machine
end

