-- ==== Sys2Proof/Proofs/Commands.lean ====
section
/-! SUPPORT. The commands, one by one: what each keeps of the media array and the link, and which commands leave station
setup, the timebase and the voice table alone. -/

namespace Sys2Proof.Machine

/-! ### Frames received -/

/-- The station once a frame that it was receiving has ended, a watch fallen due decided (R111, R138). -/
theorem State.ended_step (s : State) : WatchStep s.endFrame s.endFrame.settleDue := s.endFrame.settleDue_step

/-! ### Effects -/

theorem State.claimHeard_steady (s : State) (tag : Nat) : Steady 0 s (s.claimHeard tag) :=
  ((((s.dropBid_steady tag).trans (State.retire_steady _ _ _)).setClaims _).trans
    (State.settleDue_step _).steady).trans (State.finish_steady _)

theorem State.claimWonBy_steady (s : State) (b : Bid) : Steady 0 s (s.claimWonBy b) :=
  (((((Steady.refl s).setClaims _).trans (State.createVoice_steady _ b)).setClaims _).trans
    (State.settleDue_step _).steady).trans (State.finish_steady _)

theorem State.noteTaken_steady (s : State) (n : NoteFields) : Steady 0 s (s.noteTaken n) :=
  ((((s.retire_steady _ _).trans (State.dropBid_steady _ _)).trans (State.homeWatch_steady _ n)).trans
    (State.makeBid_steady _ n)).trans (State.finish_steady _)

theorem State.followTaken_steady (s : State) (v : Voice) (region start sender : Nat) :
    Steady 0 s (s.followTaken v region start sender) := by
  unfold State.followTaken
  split
  · exact (Steady.refl s).notice _ _
  · exact ((Steady.refl s).setVoices _).trans (Steady.setCatalogue _ _)

theorem State.unfollowTaken_steady (s : State) (v : Voice) : Steady 0 s (s.unfollowTaken v) := by
  unfold State.unfollowTaken
  split
  · exact ((Steady.refl s).setVoices _).trans (Steady.setCatalogue _ _)
  · exact Steady.refl s

theorem State.haltTaken_steady (s : State) (sender : Nat) : Steady 0 s (s.haltTaken sender) :=
  (((((s.retireAll_steady .halted).trans (State.dropBids_steady _)).setClaims _).setTimebase _).notice _ _).trans
    (State.finish_steady _)

theorem State.timebaseTaken_steady (s : State) (h : Header) (load drive : Option Nat) :
    Steady 0 s (s.timebaseTaken h load drive) := by
  unfold State.timebaseTaken
  split
  · exact (Steady.refl s).setTimebase _
  · exact Steady.refl s

theorem State.probeTaken_steady (s : State) (region sender : Nat) : Steady 0 s (s.probeTaken region sender) := by
  unfold State.probeTaken
  split
  · exact (Steady.refl s).notice _ _
  · exact Steady.refl s

theorem State.configureTested_steady (s : State) (sender : Nat) (c : Option Configuration) :
    Steady 0 s (s.configureTested sender c) := by
  unfold State.configureTested
  split
  · exact (Steady.refl s).notice _ _
  · split
    · exact (Steady.refl s).notice _ _
    · exact .of_eq rfl rfl

theorem State.joinWork_steady (s : State) (w : WorkItem) : Steady 0 s (s.joinWork w) := by
  have h : Steady 0 s (s.setInstaller { s.installer with work := s.installer.work ++ [w] }) := .of_eq rfl rfl
  unfold State.joinWork
  dsimp only
  split
  · exact h.trans (State.nextItem_installs _).steady
  · exact h

theorem State.installTaken_steady (s : State) (i : InstallFields) : Steady 0 s (s.installTaken i) := by
  refine Steady.trans ?_ (State.finish_steady _)
  split
  · exact (Steady.refl s).notice _ _
  · exact (Steady.setCatalogue s _).trans (State.joinWork_steady _ _)

theorem State.reclaimTaken_steady (s : State) (region sender : Nat) : Steady 0 s (s.reclaimTaken region sender) := by
  refine Steady.trans ?_ (State.finish_steady _)
  split
  · exact (Steady.refl s).notice _ _
  · exact ((Steady.setCatalogue s _).trans (Steady.setCatalogue _ _)).trans (State.joinWork_steady _ _)

theorem State.wipeTaken_steady (s : State) (sender : Nat) : Steady 0 s (s.wipeTaken sender) := by
  refine Steady.trans ?_ (State.finish_steady _)
  split
  · exact (Steady.refl s).notice _ _
  · exact ((Steady.setCatalogue s _).setInstaller _).trans (Steady.foldl _ State.wipeDie_steady _ _)

theorem State.pageRead_steady (s : State) (i : InstallItem) (count : Nat) (bytes : List Byte) :
    Steady 0 s (s.pageRead i count bytes) :=
  (((Steady.refl s).setInstaller _).trans (State.enterProgramming_installs _ i).steady).trans
    (State.finish_steady _)

theorem State.endRead_steady (s : State) : Steady 0 s s.endRead := (InstallMove.read s none).steady

theorem State.fronts_steady (s : State) (fronts : List (List Nat)) :
    Steady 0 s (s.setMedia { s.media with fronts := fronts }) := Steady.setMedia s _ rfl rfl rfl

theorem State.endScan_steady (s : State) (appendPos skipped : Nat) : Steady 0 s (s.endScan appendPos skipped) := by
  unfold State.endScan
  exact ((((Steady.setCatalogue s _).trans (State.fronts_steady _ _)).trans
    (Steady.foldl _ State.queueErasesOn_steady _ _)).notice _ _).setStation _

theorem State.endScan_workKept (s : State) (appendPos skipped : Nat) : WorkKept s (s.endScan appendPos skipped) := by
  have catalogue (u : State) (x : Catalogue) : WorkKept u (u.setCatalogue x) := .of_eq rfl
  have fronts (u : State) (x : List (List Nat)) : WorkKept u (u.setMedia { u.media with fronts := x }) := .of_eq rfl
  have told (u : State) (a : Nat) (b : NoticeBody) (x : Station) : WorkKept u ((u.queueNotice a b).setStation x) :=
    .of_eq rfl
  unfold State.endScan
  exact (((catalogue _ _).trans (fronts _ _)).trans
    (WorkKept.foldl _ (fun s d => (s.joinErases_installs d _).workKept) _ _)).trans (told _ _ _ _)

/-- The scan's die reads the next log sector, or becomes IDLE as the scan ends (R15, R100). -/
theorem State.logSectorRead_steady {s : State} {n : Nat} (h : (s.die 0).state = .logRead n) (x : Scan) (bad : Bool) :
    Steady 0 s (s.logSectorRead x bad) := by
  have ends (u : State) (hu : (u.die 0).state = .logRead n) (appendPos skipped : Nat) :
      Steady 0 u ((u.endScan appendPos skipped).becomeIdle 0) := by
    refine (u.endScan_steady appendPos skipped).trans (State.becomeIdle_steady _ 0 ?_)
    rw [u.endScan_workKept appendPos skipped 0 (by rw [hu]; exact DieState.noConfusion), hu]
    rfl
  unfold State.logSectorRead
  split
  · exact ends s h _ _
  next record _ =>
    have goesOn (u : State) (hu : (u.die 0).state = .logRead n) : Steady 0 u u.continueScan := by
      unfold State.continueScan
      split
      · exact Steady.refl _
      · split
        · exact State.setDieState_steady _ 0 _ (fun _ => rfl) (by rw [hu]; rfl)
        · exact ends _ hu _ _
    rw [State.classify_eq]
    generalize hc : ({ s.catalogue with regions := _, scan := _ } : Catalogue) = c
    exact (Steady.setCatalogue s c).trans (goesOn (s.setCatalogue c) h)

/-- A long operation that ends leaves its die IDLE, which performed no read (R101, R103). -/
theorem State.longOpResult_held {s : State} {d : Nat} {op : LongOp} (ok : Bool)
    (h : (s.die d).state = .busy op ∨ (s.die d).state = .suspendPending op) :
    Held s (s.longOpResult d op ok) ∧
      (s.longOpResult d op ok).delivery.link = s.delivery.link := by
  -- Neither the flash array's change nor the installer's moves touch a die at work.
  have idle (u v : State) (hu : (u.die d).state = (s.die d).state) (hb : Held s u) (hl : u.delivery.link = s.delivery.link)
      (k : Installs u v) : Held s (v.becomeIdle d) ∧ (v.becomeIdle d).delivery.link = s.delivery.link := by
    have hv : (v.die d).state.activeRead?.isSome = false := by
      rw [k.workKept d (by rw [hu]; rcases h with h | h <;> rw [h] <;> exact DieState.noConfusion), hu]
      rcases h with h | h <;> rw [h] <;> rfl
    have hs := k.steady.trans (v.becomeIdle_steady d hv)
    exact ⟨hb.trans hs.held, hs.link.trans hl⟩
  have held (u : State) (hd : u.media.dies = s.media.dies) (hf : u.media.freeBuffers = s.media.freeBuffers)
      (hq : u.delivery = s.delivery) : Held s u := by
    refine ⟨by rw [State.bufferTotal_eq, State.bufferTotal_eq, hd, hf, hq], fun hr => ?_⟩
    rw [State.readsLawful, hd]
    exact hr
  cases op with
  | program p =>
    have hm : ((s.setFront d p.block (p.page * 48 + p.first + p.count)).programFlash d p ok).media.dies = s.media.dies ∧
        ((s.setFront d p.block (p.page * 48 + p.first + p.count)).programFlash d p ok).media.freeBuffers =
          s.media.freeBuffers ∧
        ((s.setFront d p.block (p.page * 48 + p.first + p.count)).programFlash d p ok).delivery = s.delivery := by
      unfold State.programFlash
      dsimp only
      split <;> exact ⟨rfl, rfl, rfl⟩
    obtain ⟨hd, hf, hq⟩ := hm
    exact idle _ _ (by unfold State.die; rw [hd]) (held _ hd hf hq) (congrArg _ hq) (State.handOn_installs _ d p ok)
  | erase b =>
    have hm : ((s.setFront d b 0).eraseFlash d b ok).media.dies = s.media.dies ∧
        ((s.setFront d b 0).eraseFlash d b ok).media.freeBuffers = s.media.freeBuffers ∧
        ((s.setFront d b 0).eraseFlash d b ok).delivery = s.delivery := by
      unfold State.eraseFlash
      split <;> exact ⟨rfl, rfl, rfl⟩
    obtain ⟨hd, hf, hq⟩ := hm
    exact idle _ _ (by unfold State.die; rw [hd]) (held _ hd hf hq) (congrArg _ hq)
      ((State.blockErased_installs _ d b ok).trans (State.eraseTold_installs _ d _ ok))

theorem State.segmentReadEnd_steady {s : State} {d : Nat} {a : ActiveRead} (h : (s.die d).state.activeRead? = some a)
    (bad : BitVec 12) : Steady 0 s ((s.readOutcome d a bad).readEnded d) := by
  obtain ⟨h1, h2⟩ := s.readOutcome_steady d a bad h
  obtain ⟨hb, hr, hf, hl⟩ := State.readEnded_held (s := s.readOutcome d a bad) (d := d) (by rw [h2, h]; rfl)
  refine ⟨hf.trans h1.flash, (congrArg _ hl).trans h1.link, ?_, hr ∘ h1.reads⟩
  have := h1.buffers
  omega

/-- The segments of the link's queues give their buffers up at its loss (R174). -/
theorem State.linkLost_held (s : State) : Held s s.linkLost ∧ s.linkLost.media.flash = s.media.flash := by
  have h0 : (s.setDelivery { link := .down, queue := [], posting := none, installRead := none }).bufferTotal +
      (s.delivery.queue.length + if s.delivery.posting.isSome then 1 else 0) = s.bufferTotal := by
    rw [State.bufferTotal_eq, State.bufferTotal_eq]
    simp only [State.setDelivery_media, State.setDelivery_delivery, DeliveryEngine.buffers, List.length_nil,
      Option.isSome_none, Bool.toNat_false]
    cases s.delivery.posting.isSome <;> simp <;> omega
  have h1 := (State.retireAll_steady (s.setDelivery { link := .down, queue := [], posting := none, installRead := none })
    .link).trans (State.freeBuffers_steady (s.delivery.queue.length + if s.delivery.posting.isSome then 1 else 0) _)
  have h2 (u : State) : Steady 0 u u.abandonClaim := by
    unfold State.abandonClaim
    split
    · exact ((Steady.refl u).setPort _).trans (State.stopClaim_step u).steady
    · exact Steady.refl u
    · exact Steady.refl u
  have h3 (u : State) : Steady 0 u u.linkLostInstall := by
    have fails (i : InstallItem) :
        Steady 0 u ((u.setInstaller { u.installer with held := u.pageUnderWay }).installFails i .linkDown) :=
      ((Steady.refl u).setInstaller _).trans (State.installFails_installs _ i .linkDown).steady
    unfold State.linkLostInstall
    split
    · dsimp only
      split
      · exact Steady.refl u
      · exact fails _
      · exact fails _
      · exact fails _
      · split
        · exact Steady.refl u
        · exact fails _
    · exact Steady.refl u
  have h4 := ((((State.dropBids_steady (((s.setDelivery
    { link := .down, queue := [], posting := none, installRead := none }).retireAll .link).freeBuffers
      (s.delivery.queue.length + if s.delivery.posting.isSome then 1 else 0))).trans (h2 _)).trans
    (State.settleFront_installs _).steady).trans (h3 _)).trans (State.finish_steady _)
  have h5 := h1.trans h4
  exact ⟨⟨h5.buffers.trans (by omega), h5.reads⟩, h5.flash⟩

theorem State.suspended_steady {s : State} {d : Nat} {op : LongOp} (hd : (s.die d).state = .suspendPending op) :
    Steady 0 s ((s.setDieState d (.suspended op)).serviceDecision d) :=
  (s.setDieState_steady d (fun die => { die with state := .suspended op }) (fun _ => rfl) (by rw [hd]; rfl)).trans
    (State.serviceDecision_steady _ d)

/-! ### Every command -/

/-- Commands that change the flash array or the link's state. -/
def unsteady : Instr → Bool
  | .powerOnReset _ | .programComplete .. | .eraseComplete .. | .suspendReported .. | .linkUp _ | .linkDown _ => true
  | _ => false

theorem Starts.steady {s u : State} (h : Starts s u) : Steady 0 s u := by
  cases h with
  | clock t => exact .of_eq rfl rfl
  | ended t _ =>
    have h1 : Steady 0 s (s.atTime t).endFrame := .of_eq rfl rfl
    exact h1.trans (State.ended_step _).steady

theorem Effect.steady {s t : State} {c : Instr} (h : Effect s c t) (hc : unsteady c = false) : Steady 0 s t := by
  have refl := Steady.refl s
  cases h
  case reset | programEnds | eraseEnds | suspended | completed | linkUp | linkLost => cases hc
  case nothing => exact refl
  case scan hn hx => exact (State.logSectorRead_steady hn _ _).trans (State.finish_steady _)
  case edge => exact (State.edge_steady _ _ _ _).trans (State.finish_steady _)
  case divider => exact ((refl.setTimebase _).trans (State.tickEvent_steady _ _)).trans (State.finish_steady _)
  case standIn => exact (State.standIn_steady _ _ _).trans (State.finish_steady _)
  case driveEnd | lineRise | pulse => exact refl.setTimebase _
  case downbeat => exact ((refl.setTimebase _).trans (State.downbeat_steady _)).trans (State.finish_steady _)
  case busIdle => exact (refl.setPort _).trans (State.finish_steady _)
  case frameBegins | claimGone => exact refl.setPort _
  case claimLost => exact (refl.setPort _).trans (State.claimReturned_steady _ _)
  case claimLostTo =>
    exact ((refl.setPort _).trans (State.claimReturned_steady _ _)).trans (State.settleDue_step _).steady
  case noticeLost | noticeBroken | noticeSent => exact (refl.setPort _).setNotices _
  case claimBroken => exact ((State.claimReturned_steady _ _).setPort _).trans (State.stopClaim_step _).steady
  case claimWon => exact (refl.setPort _).trans (State.claimWonBy_steady _ _)
  case claimHeard => exact (refl.setPort _).trans (State.claimHeard_steady _ _)
  case note n _ _ => exact s.noteTaken_steady n
  case endVoice v _ _ _ _ _ mode hv =>
    rw [← State.voice_tag hv] at hv
    exact (s.endVoice_steady v mode _ _ hv).trans (State.finish_steady _)
  case endBid => exact (State.dropBid_steady _ _).trans (State.finish_steady _)
  case endNone | rateNone => exact State.finish_steady s
  case rateVoice v _ _ _ _ _ =>
    exact ((refl.setVoices _).trans (State.recomputeDry_fills (G := fun _ => True) _ v.tag).steady).trans
      (State.finish_steady _)
  case rateBid => exact (refl.setClaims _).trans (State.finish_steady _)
  case follow v _ _ _ _ _ => exact s.followTaken_steady v _ _ _
  case unfollow v _ _ _ => exact s.unfollowTaken_steady v
  case halt => exact s.haltTaken_steady _
  case timebase => exact s.timebaseTaken_steady _ _ _
  case probe => exact s.probeTaken_steady _ _
  case install => exact s.installTaken_steady _
  case reclaim => exact s.reclaimTaken_steady _ _
  case wipe => exact s.wipeTaken_steady _
  case configure => exact s.configureTested_steady _ _
  case bidExpires => exact s.dropBid_steady _
  case bidCloses | watchDeferred => exact refl.setClaims _
  case watchDecided => exact (State.decideWatch_step _ _).steady.trans (State.finish_steady _)
  case segmentRead ha => exact (State.segmentReadEnd_steady ha _).trans (State.finish_steady _)
  case holdOff d => exact (s.suspendTest_steady d).trans (State.finish_steady _)
  case posting p _ hp => exact (s.postingEnded_steady p hp).trans (State.finish_steady _)
  case pageRead => exact s.endRead_steady.trans (State.pageRead_steady _ _ _ _)
  case readFails | readTimesOut =>
    exact (s.endRead_steady.trans (State.installFails_installs _ _ _).steady).trans (State.finish_steady _)

/-- The buffers and the read queues under every command but a power-on reset (R92, R95). -/
theorem Effect.held {s t : State} {c : Instr} (h : Effect s c t) (hc : ∀ straps, c ≠ .powerOnReset straps) :
    Held s t := by
  cases hu : unsteady c with
  | false => exact (h.steady hu).held
  | true =>
    cases h with
    | reset straps => exact absurd rfl (hc straps)
    | nothing => exact (Steady.refl s).held
    | programEnds t d ok hd => exact (State.longOpResult_held ok (.inl hd)).1.trans (State.finish_steady _).held
    | eraseEnds t d ok hd => exact (State.longOpResult_held ok (.inl hd)).1.trans (State.finish_steady _).held
    | completed t d ok hd => exact (State.longOpResult_held ok (.inr hd)).1.trans (State.finish_steady _).held
    | suspended t d hd =>
      exact ((State.suspended_steady hd).trans (State.finish_steady _)).held
    | linkUp => exact ⟨rfl, id⟩
    | linkLost => exact s.linkLost_held.1
    | _ => cases hu

end Sys2Proof.Machine
end

