-- ==== Sys2Proof/Proofs/Buffers.lean ====
section
/-! SUPPORT. The segment buffers: each of the 24 is free or with one segment after every step (O56), and the read
queues stay in order. -/

namespace Sys2Proof.Machine

/-- The station right after a power-on reset has 24 free buffers and empty read queues (R89, R95). -/
theorem State.resetOver_held (number : Nat) (flash : Flash) (stamp : Nat) (pending : List Instr) :
    ((State.resetOver number flash stamp).setPending pending).buffersLawful ∧
      ((State.resetOver number flash stamp).setPending pending).readsLawful := by
  refine ⟨rfl, fun die hd => ?_⟩
  have hr : die.reads = [] := by
    simp only [State.setPending_media, State.resetOver, Media.resetOver, List.mem_cons, List.mem_replicate] at hd
    rcases hd with rfl | ⟨-, rfl⟩ <;> rfl
  rw [hr]
  exact .nil

theorem Effect.buffersLawful {s t : State} {c : Instr} (h : Effect s c t) (hs : s.buffersLawful) : t.buffersLawful := by
  by_cases hc : ∃ straps, c = .powerOnReset straps
  · obtain ⟨straps, rfl⟩ := hc
    cases h
    case nothing => exact hs
    case reset => exact (State.resetOver_held _ _ _ _).1
  · exact (h.held fun straps hq => hc ⟨straps, hq⟩).buffers.trans hs

theorem Effect.readsLawful {s t : State} {c : Instr} (h : Effect s c t) (hs : s.readsLawful) : t.readsLawful := by
  by_cases hc : ∃ straps, c = .powerOnReset straps
  · obtain ⟨straps, rfl⟩ := hc
    cases h
    case nothing => exact hs
    case reset => exact (State.resetOver_held _ _ _ _).2
  · exact (h.held fun straps hq => hc ⟨straps, hq⟩).reads hs

/-- Settles O56: only the ends of reads and postings, retirement, and the link's loss move segments between the
queues, and each moves a buffer with its segment. -/
theorem stepsKeepBuffersAccounted : Obligations.StepsKeepBuffersAccounted := fun _ _ hs h =>
  step_keeps (P := State.buffersLawful) (fun _ _ => id) (fun hu hb => hu.steady.buffers.trans hb)
    Effect.buffersLawful hs h

end Sys2Proof.Machine
end

