-- ==== Sys2Proof/Proofs/Scopes.lean ====
section
/-! SUPPORT. Which blocks each command can change (O3), and that every command answers a next state (O1, O2). -/

namespace Sys2Proof.Machine

/-- From `s` to `t` station setup, the timebase but for its READY drive, and the voice table are kept, each unless its
flag says that it may change; the waiting commands are kept in any case. -/
structure Keeps (station timebase voices : Bool) (s t : State) : Prop where
  station  : station = false → t.station = s.station
  timebase : timebase = false → t.timebase = { s.timebase with readyLow := t.timebase.readyLow }
  voices   : voices = false → t.voices = s.voices
  pending  : t.pending = s.pending

theorem Keeps.refl {a b c : Bool} (s : State) : Keeps a b c s s := ⟨fun _ => rfl, fun _ => rfl, fun _ => rfl, rfl⟩

theorem Keeps.trans {a b c : Bool} {s t u : State} (h : Keeps a b c s t) (k : Keeps a b c t u) : Keeps a b c s u := by
  refine ⟨fun x => (k.station x).trans (h.station x), fun x => ?_, fun x => (k.voices x).trans (h.voices x),
    k.pending.trans h.pending⟩
  have ht := h.timebase x
  have hu := k.timebase x
  rw [ht] at hu
  exact hu

theorem Keeps.of_eq {a b c : Bool} {s t : State} (hs : t.station = s.station) (ht : t.timebase = s.timebase)
    (hv : t.voices = s.voices) (hp : t.pending = s.pending) : Keeps a b c s t :=
  ⟨fun _ => hs, fun _ => by rw [ht], fun _ => hv, hp⟩

theorem InstallStep.keeps {a b c : Bool} {s t : State} (h : InstallStep s t) : Keeps a b c s t :=
  .of_eq h.station h.timebase h.voices h.pending

theorem WatchStep.keeps {a b c : Bool} {s t : State} (h : WatchStep s t) : Keeps a b c s t :=
  .of_eq h.station h.timebase h.voices h.pending

theorem VoiceStep.keeps {a b : Bool} {s t : State} (h : VoiceStep s t) : Keeps a b true s t :=
  ⟨fun _ => h.station, fun _ => by rw [h.timebase], nofun, h.pending⟩

theorem State.finish_keeps {a b c : Bool} (s : State) : Keeps a b c s s.finish :=
  ⟨fun _ => s.finish_station, fun _ => by rw [s.finish_timebase], fun _ => s.finish_voices, s.finish_pending⟩

section Updates
variable {a b c : Bool} {s t : State} (h : Keeps a b c s t)
include h

theorem Keeps.finish : Keeps a b c s t.finish := h.trans t.finish_keeps

theorem Keeps.setPort (x : Port) : Keeps a b c s (t.setPort x) := h.trans (.of_eq rfl rfl rfl rfl)

theorem Keeps.setNotices (x : NoticeQueue) : Keeps a b c s (t.setNotices x) := h.trans (.of_eq rfl rfl rfl rfl)

theorem Keeps.setClaims (x : ClaimUnit) : Keeps a b c s (t.setClaims x) := h.trans (.of_eq rfl rfl rfl rfl)

theorem Keeps.setCatalogue (x : Catalogue) : Keeps a b c s (t.setCatalogue x) := h.trans (.of_eq rfl rfl rfl rfl)

theorem Keeps.setInstaller (x : Installer) : Keeps a b c s (t.setInstaller x) := h.trans (.of_eq rfl rfl rfl rfl)

theorem Keeps.setDelivery (x : DeliveryEngine) : Keeps a b c s (t.setDelivery x) := h.trans (.of_eq rfl rfl rfl rfl)

theorem Keeps.notice (addressee : Nat) (body : NoticeBody) : Keeps a b c s (t.queueNotice addressee body) :=
  h.trans (.of_eq rfl rfl rfl rfl)

end Updates

theorem Keeps.setTimebase {a c : Bool} {s t : State} (h : Keeps a true c s t) (x : Timebase) :
    Keeps a true c s (t.setTimebase x) := h.trans ⟨fun _ => rfl, nofun, fun _ => rfl, rfl⟩

theorem Keeps.setVoices {a b : Bool} {s t : State} (h : Keeps a b true s t) (x : List Voice) :
    Keeps a b true s (t.setVoices x) := h.trans ⟨fun _ => rfl, fun _ => rfl, nofun, rfl⟩

theorem State.dropBid_keeps {a b c : Bool} (s : State) (tag : Nat) : Keeps a b c s (s.dropBid tag) := by
  obtain ⟨-, hs, -, -, hv, ht, -, -, -, -, -, hp⟩ := s.dropBid_step tag
  exact .of_eq hs ht hv hp

theorem State.dropBids_keeps {a b c : Bool} (s : State) : Keeps a b c s s.dropBids :=
  ((Keeps.refl s).setClaims _).trans (State.releaseUses_step _ _).installStep.keeps

theorem State.claimReturned_keeps {a b c : Bool} (s : State) (tag : Nat) : Keeps a b c s (s.claimReturned tag) := by
  unfold State.claimReturned
  split
  · exact Keeps.refl s
  · split
    · exact (Keeps.refl s).setClaims _
    · exact s.dropBid_keeps tag

theorem State.stopClaim_keeps {a b c : Bool} (s : State) : Keeps a b c s s.stopClaim :=
  ((Keeps.refl s).setPort s.port.stop).trans s.stopClaim_step.keeps

/-! ### The timebase's commands -/

theorem State.tickEvent_keeps (s : State) (order : List (BitVec 12)) : Keeps false true true s (s.tickEvent order) := by
  have h0 : Keeps false true true s (s.setTimebase { s.timebase with tick := nextTick s.timebase.tick }) :=
    (Keeps.refl s).setTimebase _
  have h := h0.trans (VoiceStep.foldl _ State.tickVoice_step (tickOrder order s.voices) _).keeps
  unfold State.tickEvent
  dsimp only
  split
  · exact ((h.trans (State.recomputeHeld_step _).keeps).setTimebase _).trans
      (State.suspendTests_step _).installStep.keeps
  · exact (h.setTimebase _).trans (State.suspendTests_step _).installStep.keeps

theorem State.standIn_keeps (s : State) (at_ : Nat) (order : List (BitVec 12)) :
    Keeps false true true s (s.standIn at_ order) := by
  have h := ((Keeps.refl s).setTimebase { s.timebase with
    reference := some at_, standIn := s.timebase.standIn + 1 }).trans (State.tickEvent_keeps _ order)
  unfold State.standIn
  dsimp only
  split
  · exact (h.setTimebase _).notice _ _
  · exact h

theorem State.edge_keeps (s : State) (rate : SessionRate) (t : Nat) (order : List (BitVec 12)) :
    Keeps false true true s (s.edge rate t order) := by
  unfold State.edge
  split
  · exact Keeps.refl s
  · unfold State.fallbackEdge State.lock
    dsimp only
    split
    · exact (Keeps.refl s).setTimebase _
    · split
      · exact (((Keeps.refl s).setTimebase _).trans (State.tickEvent_keeps _ order)).notice _ _
      · exact ((Keeps.refl s).setTimebase _).notice _ _
  · unfold State.externalEdge
    split
    · exact Keeps.refl s
    · split
      · exact ((Keeps.refl s).setTimebase _).trans (State.tickEvent_keeps _ order)
      · exact Keeps.refl s

theorem State.downbeat_keeps (s : State) : Keeps false true true s s.downbeat := by
  have h : Keeps false true true s s.applyLoad := by
    unfold State.applyLoad
    split
    · exact Keeps.refl s
    · exact ((Keeps.refl s).setTimebase _).setVoices _
  exact (h.setVoices _).trans (State.syncReads_step _).installStep.keeps

/-! ### Claims and requests -/

theorem State.homeWatch_keeps {a b c : Bool} (s : State) (n : NoteFields) : Keeps a b c s (s.homeWatch n) := by
  have hdrop : Keeps a b c s (s.dropWatch n.tag) := (Keeps.refl s).setClaims _
  unfold State.homeWatch State.startWatch
  split
  · split
    · split
      · dsimp only
        split
        · exact hdrop.setClaims _
        · exact hdrop
      · exact hdrop.notice _ _
    · exact hdrop
  · exact hdrop

theorem State.makeBid_keeps {a b c : Bool} (s : State) (n : NoteFields) : Keeps a b c s (s.makeBid n) := by
  unfold State.makeBid
  split
  · exact ((Keeps.refl s).setClaims _).setCatalogue _
  · exact Keeps.refl s

theorem State.noteTaken_keeps (s : State) (n : NoteFields) : Keeps false false true s (s.noteTaken n) :=
  ((((s.retire_step _ _).keeps.trans (State.dropBid_keeps _ _)).trans (State.homeWatch_keeps _ _)).trans
    (State.makeBid_keeps _ _)).finish

theorem State.claimHeard_keeps (s : State) (tag : Nat) : Keeps false false true s (s.claimHeard tag) :=
  ((((s.dropBid_keeps tag).trans (State.retire_step _ _ _).keeps).setClaims _).trans
    (State.settleDue_step _).keeps).finish

theorem State.claimWonBy_keeps (s : State) (b : Bid) : Keeps false false true s (s.claimWonBy b) :=
  (((((Keeps.refl s).setClaims _).trans (State.createVoice_step _ b).keeps).setClaims _).trans
    (State.settleDue_step _).keeps).finish

theorem State.endVoice_keeps (s : State) (v : Voice) (mode : EndMode) (atTick : Option Nat) (sender : Nat) :
    Keeps false false true s (s.endVoice v mode atTick sender) := by
  have hold (mode : CutOrFade) : Keeps false false true s (s.endOrHold v mode atTick sender) := by
    unfold State.endOrHold
    split
    · split
      · exact (Keeps.refl s).setVoices _
      · exact (s.applyEnd_step v mode sender).keeps
    · exact (s.applyEnd_step v mode sender).keeps
  unfold State.endVoice
  split
  · exact (Keeps.refl s).setVoices _
  · exact hold _
  · exact hold _

theorem State.followTaken_keeps (s : State) (v : Voice) (region start sender : Nat) :
    Keeps false false true s (s.followTaken v region start sender) := by
  unfold State.followTaken
  split
  · exact (Keeps.refl s).notice _ _
  · exact ((Keeps.refl s).setVoices _).setCatalogue _

theorem State.unfollowTaken_keeps (s : State) (v : Voice) : Keeps false false true s (s.unfollowTaken v) := by
  unfold State.unfollowTaken
  split
  · exact ((Keeps.refl s).setVoices _).setCatalogue _
  · exact Keeps.refl s

theorem State.haltTaken_keeps (s : State) (sender : Nat) : Keeps false true true s (s.haltTaken sender) :=
  (((((s.retireAll_step .halted).keeps.trans (State.dropBids_keeps _)).setClaims _).setTimebase _).notice _ _).finish

/-! ### Segment reads -/

theorem State.readOutcome_keeps {a b c : Bool} (s : State) (d : Nat) (x : ActiveRead) (bad : BitVec 12) :
    Keeps a b c s (s.readOutcome d x bad) := by
  have joins (u : State) (e : Delivery) : Keeps a b c u (u.joinDelivery e) := by
    refine ((Keeps.refl u).setDelivery { u.delivery with queue := u.delivery.queue ++ [e] }).trans ?_
    unfold State.joinDelivery State.startPosting
    split
    · exact (Keeps.refl _).setDelivery _
    · exact Keeps.refl _
  have result (r : ReadRequest) (v : Voice) : Keeps a b c s (s.readResult d r v bad) := by
    unfold State.readResult
    dsimp only
    split
    · exact joins _ _
    · split
      · exact (State.joinReads_step s _ _).installStep.keeps
      · exact ((Keeps.refl s).notice _ _).trans (joins _ _)
  unfold State.readOutcome
  split
  · exact result _ _
  · exact (State.freeBuffer_step s).installStep.keeps

/-! ### The library, the link and the scan -/

theorem State.installTaken_keeps (s : State) (i : InstallFields) : Keeps false false false s (s.installTaken i) := by
  refine Keeps.finish ?_
  split
  · exact (Keeps.refl s).notice _ _
  · exact ((Keeps.refl s).setCatalogue _).trans (State.joinWork_step _ _).keeps

theorem State.reclaimTaken_keeps (s : State) (region sender : Nat) :
    Keeps false false false s (s.reclaimTaken region sender) := by
  refine Keeps.finish ?_
  split
  · exact (Keeps.refl s).notice _ _
  · exact (((Keeps.refl s).setCatalogue _).setCatalogue _).trans (State.joinWork_step _ _).keeps

theorem State.wipeTaken_keeps (s : State) (sender : Nat) : Keeps false false false s (s.wipeTaken sender) := by
  refine Keeps.finish ?_
  split
  · exact (Keeps.refl s).notice _ _
  · exact (s.admitWipe_step sender).keeps

theorem State.linkLostInstall_keeps {a b c : Bool} (s : State) : Keeps a b c s s.linkLostInstall := by
  have fails (i : InstallItem) :
      Keeps a b c s ((s.setInstaller { s.installer with held := s.pageUnderWay }).installFails i .linkDown) :=
    ((Keeps.refl s).setInstaller _).trans (State.installFails_step _ i .linkDown).keeps
  unfold State.linkLostInstall
  split
  · dsimp only
    split
    · exact Keeps.refl s
    · exact fails _
    · exact fails _
    · exact fails _
    · split
      · exact Keeps.refl s
      · exact fails _
  · exact Keeps.refl s

theorem State.linkLost_keeps (s : State) : Keeps false false true s s.linkLost := by
  have h1 : Keeps false false true s (s.setDelivery { link := .down, queue := [], posting := none, installRead := none }) :=
    (Keeps.refl s).setDelivery _
  have h2 := (h1.trans (State.retireAll_step _ .link).keeps).trans
    (State.freeBuffers_step (s.delivery.queue.length + if s.delivery.posting.isSome then 1 else 0) _).voiceStep.keeps
  have h3 (u : State) : Keeps false false true u u.abandonClaim := by
    unfold State.abandonClaim
    split
    · exact u.stopClaim_keeps
    · exact Keeps.refl u
    · exact Keeps.refl u
  exact ((((h2.trans (State.dropBids_keeps _)).trans (h3 _)).trans (State.settleFront_step _).keeps).trans
    (State.linkLostInstall_keeps _)).finish

theorem State.endScan_keeps (s : State) (appendPos skipped : Nat) :
    Keeps true false false s (s.endScan appendPos skipped) := by
  have media (u : State) (x : Media) : Keeps true false false u (u.setMedia x) := .of_eq rfl rfl rfl rfl
  have station (u : State) (x : Station) : Keeps true false false u (u.setStation x) :=
    ⟨nofun, fun _ => rfl, fun _ => rfl, rfl⟩
  unfold State.endScan
  exact (((((Keeps.refl s).setCatalogue _).trans (media _ _)).trans
    (MediaStep.foldl _ State.queueErasesOn_step _ _).installStep.keeps).notice _ _).trans (station _ _)

theorem State.logSectorRead_keeps (s : State) (x : Scan) (bad : Bool) :
    Keeps true false false s (s.logSectorRead x bad) := by
  have ends (u : State) (appendPos skipped : Nat) :
      Keeps true false false u ((u.endScan appendPos skipped).becomeIdle 0) :=
    (u.endScan_keeps appendPos skipped).trans (State.becomeIdle_step _ 0).installStep.keeps
  have goesOn (u : State) : Keeps true false false u u.continueScan := by
    unfold State.continueScan
    split
    · exact Keeps.refl u
    · split
      · exact (State.setDieState_step u 0 _).installStep.keeps
      · exact ends u _ _
  unfold State.logSectorRead
  split
  · exact ends s _ _
  · rw [State.classify_eq]
    exact ((Keeps.refl s).setCatalogue _).trans (goesOn _)

/-! ### Every command -/

/-- Commands that may change station setup. -/
def setsStation : Instr → Bool
  | .powerOnReset _ | .logSectorReadEnd .. | .configure .. => true
  | _ => false

/-- Commands that may change more of the timebase than its READY drive. -/
def setsTimebase : Instr → Bool
  | .powerOnReset _ | .filteredEdge .. | .dividerTick _ | .standInTick _ | .downbeatDriveEnd
  | .downbeatEvent _ | .downbeatLineRise _ | .timebase .. | .configure .. | .halt .. => true
  | _ => false

/-- Commands that may change the voice table. -/
def setsVoices : Instr → Bool
  | .powerOnReset _ | .filteredEdge .. | .dividerTick _ | .standInTick _ | .downbeatEvent _
  | .claimWon _ | .claim .. | .note .. | .endRequest .. | .rate .. | .follow .. | .unfollow ..
  | .halt .. | .postingEnd _ | .linkDown _ => true
  | _ => false

theorem Starts.keeps {a b c : Bool} {s u : State} (h : Starts s u) : Keeps a b c s u := by
  cases h with
  | clock t => exact .of_eq rfl rfl rfl rfl
  | ended t _ =>
    have h1 : Keeps a b c s (s.atTime t).endFrame := .of_eq rfl rfl rfl rfl
    exact h1.trans (State.ended_step _).keeps

theorem Effect.keeps {s t : State} {c : Instr} (h : Effect s c t) :
    Keeps (setsStation c) (setsTimebase c) (setsVoices c) s t := by
  have refl {x y z : Bool} : Keeps x y z s s := Keeps.refl s
  cases h
  case nothing => exact refl
  case reset => exact ⟨nofun, nofun, nofun, rfl⟩
  case scan => exact (s.logSectorRead_keeps _ _).finish
  case edge => exact (s.edge_keeps _ _ _).finish
  case divider => exact ((refl.setTimebase _).trans (State.tickEvent_keeps _ _)).finish
  case standIn => exact (s.standIn_keeps _ _).finish
  case driveEnd | lineRise | pulse => exact refl.setTimebase _
  case downbeat => exact ((refl.setTimebase _).trans (State.downbeat_keeps _)).finish
  case busIdle => exact (refl.setPort _).finish
  case frameBegins | claimGone => exact refl.setPort _
  case claimLost => exact (refl.setPort _).trans (State.claimReturned_keeps _ _)
  case claimLostTo =>
    exact ((refl.setPort _).trans (State.claimReturned_keeps _ _)).trans (State.settleDue_step _).keeps
  case noticeLost | noticeBroken | noticeSent => exact (refl.setPort _).setNotices _
  case claimBroken => exact (s.claimReturned_keeps _).trans (State.stopClaim_keeps _)
  case claimWon => exact (refl.setPort _).trans (State.claimWonBy_keeps _ _)
  case claimHeard => exact (refl.setPort _).trans (State.claimHeard_keeps _ _)
  case note n _ _ => exact s.noteTaken_keeps n
  case endVoice => exact (s.endVoice_keeps _ _ _ _).finish
  case endBid => exact (s.dropBid_keeps _).finish
  case endNone | rateNone => exact s.finish_keeps
  case rateVoice => exact ((refl.setVoices _).trans (State.recomputeDry_step _ _).keeps).finish
  case rateBid => exact (refl.setClaims _).finish
  case follow => exact s.followTaken_keeps _ _ _ _
  case unfollow => exact s.unfollowTaken_keeps _
  case halt => exact s.haltTaken_keeps _
  case timebase =>
    unfold State.timebaseTaken
    split
    · exact refl.setTimebase _
    · exact refl
  case probe =>
    unfold State.probeTaken
    split
    · exact refl.notice _ _
    · exact refl
  case install => exact s.installTaken_keeps _
  case reclaim => exact s.reclaimTaken_keeps _ _
  case wipe => exact s.wipeTaken_keeps _
  case configure =>
    unfold State.configureTested
    split
    · exact refl.notice _ _
    · split
      · exact refl.notice _ _
      · exact ⟨nofun, nofun, fun _ => rfl, rfl⟩
  case bidExpires => exact s.dropBid_keeps _
  case bidCloses | watchDeferred => exact refl.setClaims _
  case watchDecided => exact (State.decideWatch_step _ _).keeps.finish
  case segmentRead d _ _ =>
    exact ((s.readOutcome_keeps d _ _).trans (State.readEnded_step _ d).installStep.keeps).finish
  case programEnds | eraseEnds | completed => exact (State.longOpResult_step s _ _ _).keeps.finish
  case suspended d _ =>
    exact ((s.setDieState_step d _).trans (State.serviceDecision_step _ d)).installStep.keeps.finish
  case holdOff d => exact (s.suspendTest_step d).installStep.keeps.finish
  case posting => exact (s.postingEnded_step _).keeps.finish
  case linkUp => exact refl.setDelivery _
  case linkLost => exact s.linkLost_keeps
  case pageRead =>
    exact (((refl.setDelivery _).setInstaller _).trans (State.enterProgramming_step _ _).keeps).finish
  case readFails | readTimesOut =>
    exact ((refl.setDelivery _).trans (State.installFails_step _ _ _).keeps).finish

/-- The command, carried out, keeps the blocks that it is not listed for. -/
theorem exec_keeps (c : Instr) (s : State) :
    Leads (exec c s) (Keeps (setsStation c) (setsTimebase c) (setsVoices c) s) :=
  (exec_does c s).mono fun _ ⟨_, hu, ht⟩ => hu.keeps.trans ht.keeps

/-! ### The flash array and the link -/

/-- Commands that may change the flash array. -/
def setsFlash : Instr → Bool
  | .powerOnReset _ | .programComplete .. | .eraseComplete .. | .suspendReported .. => true
  | _ => false

/-- Commands that may change the link's state. -/
def setsLink : Instr → Bool
  | .powerOnReset _ | .linkUp _ | .linkDown _ => true
  | _ => false

theorem Effect.flash {s t : State} {c : Instr} (h : Effect s c t) (hc : setsFlash c = false) :
    t.media.flash = s.media.flash := by
  cases hu : unsteady c with
  | false => exact (h.steady hu).flash
  | true =>
    cases h with
    | nothing => rfl
    | linkUp => rfl
    | linkLost => exact s.linkLost_held.2
    | reset | programEnds | eraseEnds | suspended | completed => cases hc
    | _ => cases hu

theorem Effect.link {s t : State} {c : Instr} (h : Effect s c t) (hc : setsLink c = false) :
    t.delivery.link = s.delivery.link := by
  cases hu : unsteady c with
  | false => exact (h.steady hu).link
  | true =>
    cases h with
    | nothing => rfl
    | programEnds t d ok hd =>
      exact (State.finish_steady _).link.trans (State.longOpResult_held ok (.inl hd)).2
    | eraseEnds t d ok hd =>
      exact (State.finish_steady _).link.trans (State.longOpResult_held ok (.inl hd)).2
    | completed t d ok hd =>
      exact (State.finish_steady _).link.trans (State.longOpResult_held ok (.inr hd)).2
    | suspended t d hd => exact ((State.suspended_steady hd).trans (State.finish_steady _)).link
    | reset | linkUp | linkLost => cases hc
    | _ => cases hu

/-! ### Settlements -/

/-- Settles O3: station setup, the timebase and the voice table by `Keeps`, the flash array and the link's state by
`Steady`, each command's flag read off its name. -/
theorem commandsStayInTheirBlocks : Obligations.CommandsStayInTheirBlocks := by
  intro c s t h
  obtain ⟨hstation, htimebase, hvoices, -⟩ := exec_keeps c s t h
  obtain ⟨u, hu, ht⟩ := exec_does c s t h
  have hflash (hc : setsFlash c = false) : t.media.flash = s.media.flash := (ht.flash hc).trans hu.steady.flash
  have hlink (hc : setsLink c = false) : t.delivery.link = s.delivery.link := (ht.link hc).trans hu.steady.link
  refine ⟨?_, ?_, ?_, ?_, ?_⟩ <;> clear h ht hu
  · cases c <;> first | trivial | exact hstation rfl
  · cases c <;> first | trivial | exact hflash rfl
  · cases c <;> first | trivial | exact hlink rfl
  · cases c <;> first | trivial | exact htimebase rfl
  · cases c <;> first | trivial | exact hvoices rfl

/-- Each arm of the dispatch answers a next state in each of its branches. -/
theorem exec_completes (c : Instr) (s : State) : ∃ t, exec c s = .next t := by
  cases c <;> simp only [exec, execLogSectorReadEnd, execFilteredEdge, execDividerTick, execStandInTick,
    execDownbeatDriveEnd, execDownbeatEvent, execBusIdle, execArbitrationLost, execBitError, execClaimWon,
    execNoticeSent, execClaim, execBidWindowExpiry, execWatchWindowExpiry, execSegmentReadEnd, execProgramComplete,
    execEraseComplete, execSuspendReported, execResumeHoldOffExpiry, execPostingEnd, execLinkDown,
    execInstallReadDone, execInstallReadError, execInstallReadTimeout]
  all_goals repeat' split
  all_goals exact ⟨_, rfl⟩

/-- Settles O2: each arm of the dispatch answers a next state, and no effect touches the waiting commands. -/
theorem everyCommandCompletes : Obligations.EveryCommandCompletes := by
  intro c s
  obtain ⟨t, ht⟩ := exec_completes c s
  exact ⟨t, ht, (exec_keeps c s t ht).pending⟩

/-- Settles O1, by the two cases of the queue. -/
theorem stepTakesFrontCommand : Obligations.StepTakesFrontCommand := by
  refine ⟨fun s c rest h => ?_, fun s h => ?_⟩
  · rw [step, h]
    rfl
  · rw [step, h]

end Sys2Proof.Machine
end

