-- ==== Sys2Proof/Proofs/VoiceLaws.lean ====
section
/-! SUPPORT. Laws of one voice record at a time: what such a law has to survive, and that one which survives it is kept
by every effect. The laws of rates (O51), of ring indices and fill status, and of ends (O52) are instances. -/

namespace Sys2Proof.Machine

/-- A law `P` of voice records that every change of a record keeps, given the law `Q` of the bid entries that records
are created from. -/
structure VoiceLaw (P : Voice → Prop) (Q : Bid → Prop) : Prop where
  placed     : ∀ v state p, P v → P { v with state := state, p := p }
  advanced   : ∀ v, P v → P v.advanced
  rated      : ∀ v x step, P v → P (v.rated (clampRate x) step)
  dryMoved   : ∀ v dry, P v → v.dry.isSome → P { v with dry := some dry }
  withDry    : ∀ v now, P v → P (v.withDry now)
  tested     : ∀ look ring v, P v → P (v.tested look ring)
  dried      : ∀ look ring now v, P v → v.fill = .filling → P (v.dried look ring now)
  completion : ∀ look length now ring v, P v → P (v.completion look length now ring)
  pending    : ∀ v e, P v → P { v with pendingEnd := e }
  faded      : ∀ v e, P v → v.fin = none → P (v.faded e)
  exited     : ∀ v, P v → P v.loopExited
  follows    : ∀ v f, P v → v.fin = none → P { v with follow := some f }
  unfollows  : ∀ v, P v → P { v with follow := none }
  created    : ∀ b record now hasLoop, Q b → P (b.create record now hasLoop)

/-- Every in-use record satisfies `P`. -/
def State.Obeys (P : Voice → Prop) (s : State) : Prop := ∀ v ∈ s.voices, P v

theorem State.Obeys.congr {P : Voice → Prop} {s t : State} (h : s.Obeys P) (hv : t.voices = s.voices) : t.Obeys P := by
  unfold State.Obeys
  rwa [hv]

section
variable {P : Voice → Prop} {s : State} (h : s.Obeys P)
include h

theorem State.Obeys.setTimebase (x : Timebase) : (s.setTimebase x).Obeys P := h

theorem State.Obeys.notice (addressee : Nat) (body : NoticeBody) : (s.queueNotice addressee body).Obeys P := h

theorem State.Obeys.setCatalogue (x : Catalogue) : (s.setCatalogue x).Obeys P := h

theorem State.Obeys.releaseUse (id : Nat) : (s.releaseUse id).Obeys P := h

theorem State.Obeys.addUse (id : Nat) : (s.addUse id).Obeys P := h

end

/-- A record of the table after is one of the table before, or what became of the one found for its tag. -/
theorem mem_voicesAfter_found {g : Nat} {o : Voice → Option Voice} {l : List Voice} {w : Voice}
    (hw : w ∈ voicesAfter g o l) : w ∈ l ∨ ∃ v, l.find? (·.tag == g) = some v ∧ o v = some w := by
  cases h : l.find? (·.tag == g) with
  | none => rw [voicesAfter_of_none h] at hw; exact .inl hw
  | some v =>
    cases ho : o v with
    | none => rw [voicesAfter_of_leaves h ho] at hw; exact .inl (List.mem_filter.1 hw).1
    | some x =>
      rw [voicesAfter_of_stays h ho] at hw
      rcases mem_updateFirst _ _ _ _ hw with hw | ⟨-, -, -, rfl⟩
      · exact .inl hw
      · exact .inr ⟨v, rfl, ho⟩

theorem VoiceTo.obeys {P : Voice → Prop} {G : Nat → Prop} {g : Nat} {o : Voice → Option Voice} {s t : State}
    (a : VoiceTo G g o s t) (h : s.Obeys P) (ho : ∀ v w, s.voice? g = some v → o v = some w → P w) : t.Obeys P := by
  intro w hw
  rw [a.voices] at hw
  rcases mem_voicesAfter_found hw with hw | ⟨v, hv, hw⟩
  · exact h w hw
  · exact ho v w hv hw

theorem FillsTo.obeys {P : Voice → Prop} {G : Nat → Prop} {g : Nat} {f : Voice → Voice} {s t : State}
    (a : FillsTo G g f s t) (h : s.Obeys P) (hf : ∀ v, s.voice? g = some v → P (f v)) : t.Obeys P :=
  VoiceTo.obeys a h fun v w hv hw => by
    cases hw
    exact hf v hv

theorem State.updateVoice_obeys {P : Voice → Prop} {s : State} {g : Nat} {f : Voice → Voice} (h : s.Obeys P)
    (hf : ∀ v, s.voice? g = some v → P (f v)) : (s.updateVoice g f).Obeys P := by
  intro w hw
  rw [State.updateVoice, State.setVoices_voices, ← voicesAfter_update] at hw
  rcases mem_voicesAfter_found hw with hw | ⟨v, hv, hw⟩
  · exact h w hw
  · cases hw
    exact hf v hv

theorem State.retire_obeys {P : Voice → Prop} {s : State} (h : s.Obeys P) (g : Nat) (reason : RetireReason) :
    (s.retire g reason).Obeys P := by
  intro w hw
  rw [State.retire_voices] at hw
  exact h w (List.mem_filter.1 hw).1

theorem State.noteTaken_obeys {P : Voice → Prop} {s : State} (h : s.Obeys P) (n : NoteFields) : (s.noteTaken n).Obeys P := by
  have h1 := State.retire_obeys h n.tag .superseded
  refine h1.congr ?_
  have hk : Keeps true true false (s.retire n.tag .superseded) (s.noteTaken n) :=
    (((State.dropBid_keeps _ _).trans (State.homeWatch_keeps _ n)).trans (State.makeBid_keeps _ n)).finish
  exact hk.voices rfl

theorem State.claimHeard_obeys {P : Voice → Prop} {s : State} (h : s.Obeys P) (tag : Nat) : (s.claimHeard tag).Obeys P := by
  have h1 : (s.dropBid tag).Obeys P := h.congr ((s.dropBid_keeps (a := true) (b := true) tag).voices rfl)
  have h2 := State.retire_obeys h1 tag .yielded
  have hk : Keeps true true false ((s.dropBid tag).retire tag .yielded) (s.claimHeard tag) :=
    (((Keeps.refl _).setClaims _).trans (State.settleDue_step _).keeps).finish
  exact h2.congr (hk.voices rfl)

@[simp] theorem State.discardSegments_voices (s : State) (tags : List Nat) :
    (s.discardSegments tags).voices = s.voices := by
  rw [State.discardSegments_eq]
  exact (MediaStep.foldl _ State.readsChanged_step _ _).voices.trans (State.freeBuffers_step _ _).voices

theorem State.retireRecords_voices (reason : RetireReason) (l : List Voice) : ∀ s : State,
    (l.foldl (fun s v => s.retireRecord reason v) s).voices = s.voices.filter fun v => !(l.map (·.tag)).contains v.tag := by
  induction l with
  | nil => intro s; simp
  | cons x xs ih =>
    intro s
    obtain ⟨-, -, -, hv, -⟩ := s.retireRecord_media reason x
    rw [List.foldl_cons, ih, hv, List.filter_filter]
    refine List.filter_congr fun v _ => ?_
    rw [List.map_cons, List.contains_cons, Bool.not_or, Bool.and_comm]
    rfl

/-- Every voice is among those in ascending order of tag (R37). -/
theorem State.voicesByTag_perm (s : State) : s.voicesByTag.Perm s.voices := by
  unfold State.voicesByTag
  induction s.voices with
  | nil => exact .refl _
  | cons v vs ih => exact (insertOrdered_perm _ v _).trans (ih.cons v)

/-- A mass retirement leaves no voice (R36, R37). -/
theorem State.retireAll_voices (s : State) (reason : RetireReason) : (s.retireAll reason).voices = [] := by
  rw [State.retireAll, State.retireRecords_voices, State.discardSegments_voices]
  refine List.filter_eq_nil_iff.2 fun v hv => ?_
  have : v.tag ∈ s.voicesByTag.map (·.tag) := List.mem_map_of_mem (s.voicesByTag_perm.mem_iff.2 hv)
  simpa using this

theorem State.haltTaken_voices (s : State) (sender : Nat) : (s.haltTaken sender).voices = [] := by
  have hk : Keeps true true false (s.retireAll .halted) (s.haltTaken sender) :=
    (((((State.dropBids_keeps _).setClaims _).setTimebase _).notice _ _)).finish
  exact (hk.voices rfl).trans (s.retireAll_voices .halted)

theorem State.abandonClaim_keeps {a b c : Bool} (s : State) : Keeps a b c s s.abandonClaim := by
  unfold State.abandonClaim
  split
  · exact s.stopClaim_keeps
  · exact Keeps.refl s
  · exact Keeps.refl s

theorem State.linkLost_voices (s : State) : s.linkLost.voices = [] := by
  have hk : Keeps true true false
      ((s.setDelivery { link := .down, queue := [], posting := none, installRead := none }).retireAll .link)
      s.linkLost :=
    (((((State.freeBuffers_step _ _).installStep.keeps.trans (State.dropBids_keeps _)).trans
      (State.abandonClaim_keeps _)).trans (State.settleFront_step _).keeps).trans
      (State.linkLostInstall_keeps _)).finish
  exact (hk.voices rfl).trans (State.retireAll_voices _ .link)

/-- The tests of a FOLLOW pass only for a voice without an end (R151). -/
theorem State.followRefusal_fin {s : State} {v : Voice} {region start : Nat}
    (h : s.followRefusal v region start = none) : v.fin = none := by
  unfold State.followRefusal at h
  split at h
  · cases h
  next hl =>
    simp only [Bool.or_eq_true, not_or, Bool.not_eq_true, Option.isSome_eq_false_iff, Option.isNone_iff_eq_none] at hl
    exact hl.1

section Law
variable {P : Voice → Prop} {Q : Bid → Prop} (L : VoiceLaw P Q)
include L

/-! ### One record -/

theorem VoiceLaw.pended {v w : Voice} {now : Nat} (h : P v) (hw : v.pended now = some w) : P w := by
  unfold Voice.pended at hw
  split at hw
  · cases hw
    exact h
  · split at hw
    · split at hw
      · cases hw
      · cases hw
        split
        · exact L.pending v none h
        next hfin => exact L.faded _ _ (L.pending v none h) (by simpa using hfin)
    · cases hw
      exact h

theorem VoiceLaw.moved (look : Nat → Option Region) (ring now : Nat) {v : Voice} (h : P v) :
    P (v.moved look ring now) := by
  unfold Voice.moved
  split
  next hd => exact L.dried look ring now _ (L.advanced v h) (by simpa using (Bool.and_eq_true_iff.1 hd).1)
  next => exact L.advanced v h

theorem VoiceLaw.ticked {look : Nat → Option Region} {ring now : Nat} {v w : Voice} (h : P v)
    (hw : v.ticked look ring now = some w) : P w := by
  unfold Voice.ticked at hw
  split at hw
  · split at hw
    · cases hw
    · obtain ⟨x, hx, rfl⟩ := Option.map_eq_some_iff.1 hw
      have hP : P x := L.pended (L.moved look ring now h) hx
      have ht : P (if v.consumed < x.consumed then x.tested look ring else x) := by
        split
        · exact L.tested look ring x hP
        · exact hP
      unfold Voice.ticksTested
      dsimp only
      split
      · exact L.withDry _ now ht
      · exact ht
  · refine L.pended ?_ hw
    split
    · exact L.withDry _ now (L.placed v .running 0 h)
    · exact h
  · exact L.pended h hw

theorem VoiceLaw.loaded (old load : Nat) {v : Voice} (h : P v) : P (v.loaded old load) := by
  unfold Voice.loaded
  split
  · exact h
  next dry hd =>
    have hP := L.dryMoved v (min (tickModulus - 1) (load + currentSlack old dry)) h (by rw [hd]; rfl)
    dsimp only
    split
    · exact L.withDry _ load hP
    · exact hP
    · exact hP

theorem VoiceLaw.started (now : Nat) {v : Voice} (h : P v) : P (v.started now) := by
  unfold Voice.started
  split
  · exact L.withDry _ now (L.placed v .running 0 h)
  · exact h
  · exact h

/-! ### The table -/

theorem VoiceLaw.tickVoices (tags : List Nat) : ∀ s : State, s.Obeys P → (tags.foldl State.tickVoice s).Obeys P := by
  induction tags with
  | nil => exact fun _ h => h
  | cons g tags ih =>
    intro s h
    exact ih _ (VoiceTo.obeys (s.tickVoice_to (G := fun _ => True) g trivial) h
      fun v w hv hw => L.ticked (h v (State.voice_mem hv)) hw)

theorem VoiceLaw.recomputeHeld {s : State} (h : s.Obeys P) : s.recomputeHeld.Obeys P := by
  intro w hw
  rw [State.recomputeHeld, State.syncReads_voices, State.setVoices_voices] at hw
  obtain ⟨v, hv, rfl⟩ := List.mem_map.1 hw
  split
  · exact L.withDry v _ (h v hv)
  · exact h v hv

theorem VoiceLaw.tickEvent {s : State} (h : s.Obeys P) (order : List (BitVec 12)) : (s.tickEvent order).Obeys P := by
  have h1 := L.tickVoices (tickOrder order s.voices)
    (s.setTimebase { s.timebase with tick := nextTick s.timebase.tick }) (h.setTimebase _)
  unfold State.tickEvent
  dsimp only
  split
  · exact State.Obeys.congr ((L.recomputeHeld h1).setTimebase _) (State.suspendTests_step _).voices
  · exact State.Obeys.congr (h1.setTimebase _) (State.suspendTests_step _).voices

theorem VoiceLaw.standIn {s : State} (h : s.Obeys P) (at_ : Nat) (order : List (BitVec 12)) :
    (s.standIn at_ order).Obeys P :=
  (L.tickEvent (h.setTimebase { s.timebase with reference := some at_, standIn := s.timebase.standIn + 1 })
    order).congr (s.standIn_voices at_ order)

theorem VoiceLaw.edge {s : State} (h : s.Obeys P) (rate : SessionRate) (t : Nat) (order : List (BitVec 12)) :
    (s.edge rate t order).Obeys P := by
  unfold State.edge
  split
  · exact h
  · unfold State.fallbackEdge State.lock
    dsimp only
    split
    · exact h.setTimebase _
    · split
      · exact (L.tickEvent (h.setTimebase _) order).notice _ _
      · exact (h.setTimebase _).notice _ _
  · unfold State.externalEdge
    split
    · exact h
    · split
      · exact L.tickEvent (h.setTimebase _) order
      · exact h

theorem VoiceLaw.downbeat {s : State} (h : s.Obeys P) : s.downbeat.Obeys P := by
  have h1 : s.applyLoad.Obeys P := by
    unfold State.applyLoad
    split
    · exact h
    · intro w hw
      obtain ⟨v, hv, rfl⟩ := List.mem_map.1 hw
      exact L.loaded _ _ (h v hv)
  intro w hw
  rw [State.downbeat, State.syncReads_voices] at hw
  obtain ⟨v, hv, rfl⟩ := List.mem_map.1 hw
  exact L.started _ (h1 v hv)

theorem VoiceLaw.createVoice {s : State} {b : Bid} (h : s.Obeys P) (hb : Q b) : (s.createVoice b).Obeys P := by
  have h1 : s.steal.Obeys P := by
    unfold State.steal
    split
    · exact State.retire_obeys h _ _
    · exact h
  unfold State.createVoice
  dsimp only
  split
  next record _ =>
    have h2 : (s.steal.setVoices (s.steal.voices ++ [b.create record s.steal.timebase.tick
        ((s.steal.region? b.region).bind (·.loop)).isSome])).Obeys P := by
      intro w hw
      rcases List.mem_append.1 hw with hw | hw
      · exact h1 w hw
      · rw [List.mem_singleton.1 hw]
        exact L.created b record _ _ hb
    exact FillsTo.obeys (State.testEligible_fills (G := fun _ => True) _ b.tag) h2
      fun v hv => L.tested _ _ v (h2 v (State.voice_mem hv))
  next => exact h1.releaseUse _

theorem VoiceLaw.endVoice {s : State} {v : Voice} (h : s.Obeys P) (hv : s.voice? v.tag = some v) (mode : EndMode)
    (atTick : Option Nat) (sender : Nat) : (s.endVoice v mode atTick sender).Obeys P := by
  have apply (mode : CutOrFade) : (s.applyEnd v mode sender).Obeys P := by
    unfold State.applyEnd
    split
    · exact State.retire_obeys h _ _
    · split
      · exact h.notice _ _
      next hfin =>
        refine FillsTo.obeys (s.fixFade_fills (G := fun _ => True) v _ hv) h fun w hw => ?_
        rw [hv] at hw
        cases hw
        exact L.faded v _ (h v (State.voice_mem hv)) (by simpa using hfin)
  have hold (mode : CutOrFade) : (s.endOrHold v mode atTick sender).Obeys P := by
    unfold State.endOrHold
    split
    · split
      · exact State.updateVoice_obeys h fun w hw => L.pending w _ (h w (State.voice_mem hw))
      · exact apply mode
    · exact apply mode
  unfold State.endVoice
  split
  · exact State.updateVoice_obeys h fun w hw => L.exited w (h w (State.voice_mem hw))
  · exact hold _
  · exact hold _

theorem VoiceLaw.followTaken {s : State} {v : Voice} (h : s.Obeys P) (hv : s.voice? v.tag = some v)
    (region start sender : Nat) : (s.followTaken v region start sender).Obeys P := by
  unfold State.followTaken
  split
  · exact h.notice _ _
  next hr =>
    refine State.Obeys.addUse (State.updateVoice_obeys h fun w hw => ?_) _
    rw [hv] at hw
    cases hw
    exact L.follows v _ (h v (State.voice_mem hv)) (State.followRefusal_fin hr)

theorem VoiceLaw.unfollowTaken {s : State} {v : Voice} (h : s.Obeys P) : (s.unfollowTaken v).Obeys P := by
  unfold State.unfollowTaken
  split
  · exact State.Obeys.releaseUse (State.updateVoice_obeys h fun w hw => L.unfollows w (h w (State.voice_mem hw))) _
  · exact h

theorem VoiceLaw.rateTaken {s : State} (h : s.Obeys P) (g x step : Nat) :
    ((s.updateVoice g (·.rated (clampRate x) step)).recomputeDry g).Obeys P := by
  have h1 : (s.updateVoice g (·.rated (clampRate x) step)).Obeys P :=
    State.updateVoice_obeys h fun v hv => L.rated v x step (h v (State.voice_mem hv))
  exact FillsTo.obeys (State.recomputeDry_fills (G := fun _ => True) _ g) h1
    fun v hv => L.withDry v _ (h1 v (State.voice_mem hv))

theorem VoiceLaw.postingEnded {s : State} (h : s.Obeys P) (p : Posting) : (s.postingEnded p).Obeys P := by
  have hfree : ((s.setDelivery { s.delivery with posting := none }).freeBuffer).Obeys P :=
    State.Obeys.congr (s := s.setDelivery { s.delivery with posting := none }) h (State.freeBuffer_step _).voices
  have hstart (u : State) (hu : u.Obeys P) : u.startPosting.Obeys P := by
    unfold State.startPosting
    split
    · exact hu
    · exact hu
  unfold State.postingEnded
  dsimp only
  refine hstart _ ?_
  split
  · exact hfree
  · exact FillsTo.obeys (State.deliveryCompletion_fills (G := fun _ => True) _ p.seg.tag p.seg.ring trivial) hfree
      fun v hv => L.completion _ _ _ _ v (hfree v (State.voice_mem hv))

theorem VoiceLaw.claimWonBy {s : State} {b : Bid} (h : s.Obeys P) (hb : Q b) : (s.claimWonBy b).Obeys P := by
  have h1 : ((s.setBids (s.claims.bids.filter (·.tag != b.tag))).createVoice b).Obeys P :=
    L.createVoice (s := s.setBids (s.claims.bids.filter (·.tag != b.tag))) h hb
  have hk : Keeps true true false ((s.setBids (s.claims.bids.filter (·.tag != b.tag))).createVoice b)
      (s.claimWonBy b) := (((Keeps.refl _).setClaims _).trans (State.settleDue_step _).keeps).finish
  exact h1.congr (hk.voices rfl)

/-- A law of voice records is kept by every effect. -/
theorem VoiceLaw.effect {s t : State} {c : Instr} (h : Effect s c t) (hs : s.Obeys P)
    (hb : ∀ b ∈ s.claims.bids, Q b) : t.Obeys P := by
  have finish {u : State} (hu : u.Obeys P) : u.finish.Obeys P := hu.congr u.finish_voices
  cases hset : setsVoices c with
  | false => exact hs.congr (h.keeps.voices hset)
  | true =>
    cases h
    case nothing => exact hs
    case reset => exact fun v hv => nomatch hv
    case edge => exact finish (L.edge hs _ _ _)
    case divider => exact finish (L.tickEvent (hs.setTimebase _) _)
    case standIn => exact finish (L.standIn hs _ _)
    case pulse => exact hs.setTimebase _
    case downbeat => exact finish (L.downbeat (hs.setTimebase _))
    case claimWon tag f b t _ hbid =>
      exact L.claimWonBy (s := s.setPort { bus := .skipping, sending := none }) hs
        (hb b (List.mem_of_find?_eq_some hbid))
    case claimGone => exact hs
    case claimHeard tagField _ _ => exact State.claimHeard_obeys (s := s.endFrame) hs (tagOf tagField)
    case note n _ _ => exact State.noteTaken_obeys hs n
    case endVoice hv =>
      rw [← State.voice_tag hv] at hv
      exact finish (L.endVoice hs hv _ _ _)
    case endBid b _ _ _ _ _ _ => exact finish (hs.congr ((s.dropBid_keeps (a := true) (b := true) b.tag).voices rfl))
    case endNone | rateNone => exact finish hs
    case rateVoice => exact finish (L.rateTaken hs _ _ _)
    case rateBid => exact finish (State.Obeys.congr hs rfl)
    case follow hv =>
      rw [← State.voice_tag hv] at hv
      exact L.followTaken hs hv _ _ _
    case unfollow => exact L.unfollowTaken hs
    case halt =>
      intro v hv
      rw [State.haltTaken_voices] at hv
      cases hv
    case posting => exact finish (L.postingEnded hs _)
    case linkLost =>
      intro v hv
      rw [State.linkLost_voices] at hv
      cases hv
    all_goals cases hset

end Law

end Sys2Proof.Machine
end

