-- ==== Sys2Proof/Proofs/Records.lean ====
section
/-! SUPPORT. The laws of one voice record: rates (O51), ring indices and fill status, and ends (O52). -/

namespace Sys2Proof.Machine

/-! ### Rates -/

theorem rateLawful_clampRate (x : Nat) : rateLawful (clampRate x) := by
  unfold rateLawful clampRate
  omega

/-- A glide stays between the rate and the target (R57). -/
theorem Voice.rateLawful_glided {v : Voice} (h : rateLawful v.r) (k : rateLawful v.target) : rateLawful v.glided := by
  unfold Voice.glided rateLawful at *
  split
  · omega
  · split <;> omega

/-- The rates of a record are in range (R55). -/
def Voice.RateLaw (v : Voice) : Prop := rateLawful v.r ∧ rateLawful v.target

theorem Voice.SameCore.rateLaw {v w : Voice} (h : v.SameCore w) (hv : v.RateLaw) : w.RateLaw := by
  unfold Voice.RateLaw
  rwa [h.r, h.target]

theorem rateLaw : VoiceLaw Voice.RateLaw fun b => rateLawful b.rate where
  placed _ _ _ h := h
  advanced _ h := ⟨Voice.rateLawful_glided h.1 h.2, h.2⟩
  rated v x step h := by
    refine ⟨?_, rateLawful_clampRate x⟩
    dsimp only [Voice.rated]
    split
    · exact rateLawful_clampRate x
    · exact h.1
  dryMoved _ _ h _ := h
  withDry v now h := (v.withDry_core now).rateLaw h
  tested look ring v h := (v.tested_core look ring).rateLaw h
  dried look ring now v h _ := (v.dried_core look ring now).rateLaw h
  completion look length now ring v h := (v.completion_core look length now ring).rateLaw h
  pending _ _ h := h
  faded v e h _ := (v.faded_core e).rateLaw h
  exited v h := by
    unfold Voice.loopExited
    split <;> exact h
  follows _ _ h _ := h
  unfollows _ h := h
  created b record now hasLoop h := Voice.SameCore.rateLaw (Voice.withDry_core _ _) ⟨h, h⟩

/-! ### Ring indices and fill status -/

/-- Ring indices and fill status agree (R23, R70, R81, R83). -/
def Voice.FillLaw (v : Voice) : Prop := v.indicesLawful ∧ v.fillLawful

/-- The two records agree on the ring indices and the fill status. -/
structure Voice.SameFill (v w : Voice) : Prop where
  n        : w.n = v.n
  d        : w.d = v.d
  inFlight : w.inFlight = v.inFlight
  fill     : w.fill = v.fill
  dry      : w.dry = v.dry

theorem Voice.SameFill.law {v w : Voice} (h : v.SameFill w) (hv : v.FillLaw) : w.FillLaw := by
  unfold Voice.FillLaw Voice.indicesLawful Voice.fillLawful
  rwa [h.n, h.d, h.inFlight, h.fill, h.dry]

theorem Voice.advance_sameFill (look : Nat → Option Region) (v : Voice) : v.SameFill (v.advance look) := by
  unfold Voice.advance
  repeat' split
  all_goals exact ⟨rfl, rfl, rfl, rfl, rfl⟩

/-- With nothing in flight the indices agree. -/
theorem Voice.indicesLawful_none {v : Voice} (h : v.inFlight = none) : v.indicesLawful ↔ v.d = v.n := by
  rw [Voice.indicesLawful, h]

theorem Voice.FillLaw.filling {v : Voice} (h : v.FillLaw) (hf : v.fill = .filling) : v.dry.isSome := by
  have := h.2
  rwa [Voice.fillLawful, hf] at this

theorem Voice.FillLaw.completed {v : Voice} (h : v.indicesLawful) (hf : v.inFlight = none) : v.completed.FillLaw :=
  ⟨h, rfl, hf⟩

theorem Voice.FillLaw.withDry {v : Voice} (h : v.FillLaw) (now : Nat) : (v.withDry now).FillLaw := by
  unfold Voice.withDry
  split
  · exact h
  next hf =>
    refine ⟨h.1, ?_⟩
    have := h.2
    unfold Voice.fillLawful at *
    cases hx : v.fill with
    | filling => rfl
    | late => rw [hx] at this; exact ⟨rfl, this.2⟩
    | complete => exact absurd hx hf

theorem Voice.FillLaw.tested {v : Voice} (h : v.FillLaw) (look : Nat → Option Region) (ring : Nat) :
    (v.tested look ring).FillLaw := by
  unfold Voice.tested
  split
  next he =>
    refine (Voice.advance_sameFill look v.issued).law ?_
    simp only [Voice.eligible, Bool.and_eq_true, beq_iff_eq, Option.isNone_iff_eq_none] at he
    obtain ⟨⟨⟨⟨hf, hn⟩, -⟩, -⟩, -⟩ := he
    refine ⟨⟨rfl, (Voice.indicesLawful_none hn).1 h.1⟩, ?_⟩
    have := h.filling hf
    rw [Voice.fillLawful, show v.issued.fill = .filling from hf]
    exact this
  next => exact h

/-- With nothing in flight a FILLING voice with equal indices is lawful once it has a dry tick. -/
theorem Voice.FillLaw.refilled {v : Voice} (h : v.indicesLawful) (look : Nat → Option Region) (ring now : Nat) :
    (v.refilled look ring now).FillLaw := by
  have hw : (({ v with fill := .filling, dryFrame := none } : Voice).withDry now).FillLaw := ⟨h, rfl⟩
  exact hw.tested look ring

/-- A skip passes over ring segments with nothing in flight. -/
theorem Voice.passed_indices (look : Nat → Option Region) (count : Nat) : ∀ {v : Voice}, v.d = v.n →
    v.inFlight = none → (v.passed look count).d = (v.passed look count).n ∧ (v.passed look count).inFlight = none := by
  induction count with
  | zero => exact fun h hn => ⟨h, hn⟩
  | succ count ih =>
    intro v h hn
    unfold Voice.passed
    split
    · exact ⟨h, hn⟩
    · have a := Voice.advance_sameFill look v.passedOver
      exact ih (by rw [a.d, a.n]; exact congrArg (· + 1) h) (a.inFlight.trans hn)

theorem Voice.FillLaw.skipped {v : Voice} (h : v.indicesLawful) (hn : v.inFlight = none)
    (look : Nat → Option Region) (ring now : Nat) : (v.skipped look ring now).FillLaw := by
  obtain ⟨hd, hnone⟩ := Voice.passed_indices look v.skipCount ((Voice.indicesLawful_none hn).1 h) hn
  have hi := (Voice.indicesLawful_none hnone).2 hd
  unfold Voice.skipped
  split
  · exact Voice.FillLaw.completed hi hnone
  · exact Voice.FillLaw.refilled hi look ring now

theorem Voice.FillLaw.dried {v : Voice} (h : v.FillLaw) (hf : v.fill = .filling) (look : Nat → Option Region)
    (ring now : Nat) : (v.dried look ring now).FillLaw := by
  unfold Voice.dried
  split
  next hn => exact Voice.FillLaw.skipped h.1 (Option.isNone_iff_eq_none.1 hn) look ring now
  next hn => exact ⟨h.1, h.filling hf, by simpa [Option.isSome_iff_ne_none] using hn⟩

theorem Voice.FillLaw.completion {v : Voice} (h : v.FillLaw) (look : Nat → Option Region) (length now ring : Nat) :
    (v.completion look length now ring).FillLaw := by
  unfold Voice.completion
  split
  next hr =>
    have hi : v.delivered.indicesLawful := by
      have := h.1
      rw [Voice.indicesLawful, hr] at this
      obtain ⟨hn, hd⟩ := this
      exact (congrArg (· + 1) hd).trans hn.symm
    unfold Voice.deliverySettled
    split
    · exact Voice.FillLaw.completed hi rfl
    · split
      · exact Voice.FillLaw.skipped hi rfl look length now
      · exact Voice.FillLaw.refilled hi look length now
  next => exact h

theorem Voice.FillLaw.faded {v : Voice} (h : v.FillLaw) (e : VoiceEnd) : (v.faded e).FillLaw := by
  unfold Voice.faded Voice.limited
  split
  next hl =>
    have hn : v.inFlight = none := Option.isNone_iff_eq_none.1 (Bool.and_eq_true_iff.1 hl).2
    exact Voice.FillLaw.completed (v := { v with fin := some e, follow := none }) h.1 hn
  next => exact h

theorem fillLaw : VoiceLaw Voice.FillLaw fun _ => True where
  placed _ _ _ h := h
  advanced _ h := h
  rated _ _ _ h := h
  dryMoved v dry h hd := by
    refine ⟨h.1, ?_⟩
    have := h.2
    unfold Voice.fillLawful at *
    cases hx : v.fill with
    | filling => rfl
    | late => rw [hx] at this; exact ⟨rfl, this.2⟩
    | complete => rw [hx] at this; rw [this.1] at hd; cases hd
  withDry _ now h := h.withDry now
  tested look ring _ h := h.tested look ring
  dried look ring now _ h hf := h.dried hf look ring now
  completion look length now ring _ h := h.completion look length now ring
  pending _ _ h := h
  faded _ e h _ := h.faded e
  exited v h := by
    unfold Voice.loopExited
    split <;> exact h
  follows _ _ h _ := h
  unfollows _ h := h
  created _ _ _ _ _ := ⟨rfl, rfl⟩

/-! ### Ends -/

/-- A fill limit means an end, given that a cursor at rest does (R76). -/
theorem Voice.fin_of_fillLimit {v : Voice} (h : v.cursor = none → v.fin.isSome) (hl : v.fillLimit = true) :
    v.fin.isSome := by
  unfold Voice.fillLimit at hl
  cases hf : v.fin with
  | some e => rfl
  | none =>
    rw [hf, Bool.or_false] at hl
    exact absurd (h (Option.isNone_iff_eq_none.1 hl)) (by rw [hf]; exact Bool.false_ne_true)

theorem Voice.endLawful_advance {v : Voice} (h : v.endLawful) (look : Nat → Option Region) :
    (v.advance look).endLawful := by
  obtain ⟨hfollow, hcursor, hfill⟩ := h
  unfold Voice.advance
  split
  · split
    · exact ⟨hfollow, nofun, hfill⟩
    · split
      · exact ⟨hfollow, nofun, hfill⟩
      · split
        · exact ⟨fun _ => rfl, nofun, hfill⟩
        next hnone => exact ⟨fun _ => hnone, fun _ => rfl, fun _ => rfl⟩
  · exact ⟨hfollow, hcursor, hfill⟩

theorem Voice.endLawful_completed {v : Voice} (h : v.endLawful) (hl : v.fillLimit = true) : v.completed.endLawful :=
  ⟨h.1, h.2.1, fun _ => Voice.fin_of_fillLimit h.2.1 hl⟩

theorem Voice.endLawful_withDry {v : Voice} (h : v.endLawful) (now : Nat) : (v.withDry now).endLawful := by
  unfold Voice.withDry
  split <;> exact h

theorem Voice.endLawful_tested {v : Voice} (h : v.endLawful) (look : Nat → Option Region) (ring : Nat) :
    (v.tested look ring).endLawful := by
  unfold Voice.tested
  split
  · exact Voice.endLawful_advance (v := v.issued) h look
  · exact h

theorem Voice.endLawful_refilled {v : Voice} (h : v.endLawful) (look : Nat → Option Region) (ring now : Nat) :
    (v.refilled look ring now).endLawful := by
  have hw : ({ v with fill := .filling, dryFrame := none } : Voice).endLawful := ⟨h.1, h.2.1, nofun⟩
  exact Voice.endLawful_tested (Voice.endLawful_withDry hw now) look ring

theorem Voice.endLawful_passed (look : Nat → Option Region) (count : Nat) : ∀ {v : Voice}, v.endLawful →
    (v.passed look count).endLawful := by
  induction count with
  | zero => exact id
  | succ count ih =>
    intro v h
    unfold Voice.passed
    split
    · exact h
    · exact ih (Voice.endLawful_advance (v := v.passedOver) h look)

theorem Voice.endLawful_skipped {v : Voice} (h : v.endLawful) (look : Nat → Option Region) (ring now : Nat) :
    (v.skipped look ring now).endLawful := by
  have hp := Voice.endLawful_passed look v.skipCount h
  unfold Voice.skipped
  split
  next hl => exact Voice.endLawful_completed hp hl
  next => exact Voice.endLawful_refilled hp look ring now

theorem Voice.endLawful_completion {v : Voice} (h : v.endLawful) (look : Nat → Option Region)
    (length now ring : Nat) : (v.completion look length now ring).endLawful := by
  have hd : v.delivered.endLawful := h
  unfold Voice.completion Voice.deliverySettled
  split
  · split
    next hl => exact Voice.endLawful_completed hd hl
    next =>
      split
      · exact Voice.endLawful_skipped hd look length now
      · exact Voice.endLawful_refilled hd look length now
  · exact h

theorem endLaw : VoiceLaw Voice.endLawful fun _ => True where
  placed _ _ _ h := h
  advanced _ h := h
  rated _ _ _ h := h
  dryMoved _ _ h _ := h
  withDry _ now h := Voice.endLawful_withDry h now
  tested look ring _ h := Voice.endLawful_tested h look ring
  dried look ring now v h hf := by
    unfold Voice.dried
    split
    · exact Voice.endLawful_skipped h look ring now
    · exact ⟨h.1, h.2.1, nofun⟩
  completion look length now ring _ h := Voice.endLawful_completion h look length now ring
  pending _ _ h := h
  faded v e h _ := by
    have hw : ({ v with fin := some e, follow := none } : Voice).endLawful := ⟨fun _ => rfl, fun _ => rfl, fun _ => rfl⟩
    unfold Voice.faded Voice.limited
    split
    next hl => exact Voice.endLawful_completed hw (Bool.and_eq_true_iff.1 hl).1
    next => exact hw
  exited v h := by
    unfold Voice.loopExited
    split <;> exact h
  follows v f h hfin := ⟨fun hs => absurd hs (by rw [hfin]; exact Bool.false_ne_true), h.2⟩
  unfollows _ h := ⟨fun _ => rfl, h.2⟩
  created _ _ _ _ _ := ⟨nofun, nofun, nofun⟩

/-- A law of voice records that asks nothing of the bid entries is kept by every step. -/
theorem VoiceLaw.step {P : Voice → Prop} (L : VoiceLaw P fun _ => True) {s t : State} (h : step s = .next t)
    (hs : s.Obeys P) : t.Obeys P :=
  step_keeps (P := State.Obeys P) (fun _ _ => id) (fun hu hp => hp.congr (hu.keeps (a := true) (b := true).voices rfl))
    (fun he hp => L.effect he hp fun _ _ => trivial) hs h

/-- Settles O52: each law is one of voice records (`fillLaw`, `endLaw`), and every effect changes records by the
operations that such a law survives. -/
theorem stepsKeepVoiceRecordsLawful : Obligations.StepsKeepVoiceRecordsLawful :=
  fun _ _ h => ⟨fillLaw.step h, endLaw.step h⟩

end Sys2Proof.Machine
end

