-- ==== Sys2Proof/Proofs/Ranges.lean ====
section
/-! SUPPORT. The capacities of the lists and queues, and the rates of the bid entries, under every effect (O51). -/

namespace Sys2Proof.Machine

/-- The notice queue and its counts are within their capacities (R178, R179). -/
def NoticeQueue.Fits (q : NoticeQueue) : Prop := q.queue.length ≤ 32 ∧ q.loss ≤ 15 ∧ q.offerCount ≤ 4

/-- From `s` to `t` the rates of the bid entries stay in range, and each list stays within its capacity. -/
structure Fits (s t : State) : Prop where
  rates   : (∀ b ∈ s.claims.bids, rateLawful b.rate) → ∀ b ∈ t.claims.bids, rateLawful b.rate
  bids    : s.claims.bids.length ≤ 16 → t.claims.bids.length ≤ 16
  watches : s.claims.watches.length ≤ 16 → t.claims.watches.length ≤ 16
  notices : s.notices.Fits → t.notices.Fits
  work    : s.installer.work.length ≤ 4 → t.installer.work.length ≤ 4

theorem Fits.refl (s : State) : Fits s s := ⟨id, id, id, id, id⟩

theorem Fits.trans {s t u : State} (a : Fits s t) (b : Fits t u) : Fits s u :=
  ⟨b.rates ∘ a.rates, b.bids ∘ a.bids, b.watches ∘ a.watches, b.notices ∘ a.notices, b.work ∘ a.work⟩

theorem Fits.withinCapacity {s t : State} (h : Fits s t) (hs : s.withinCapacity) : t.withinCapacity := by
  obtain ⟨hb, hw, hq, hl, hc, hi⟩ := hs
  obtain ⟨hq, hl, hc⟩ := h.notices ⟨hq, hl, hc⟩
  exact ⟨h.bids hb, h.watches hw, hq, hl, hc, h.work hi⟩

theorem Reported.fits {G : Nat → Prop} {s t : State} (h : Reported G s t) (hs : s.notices.Fits) : t.notices.Fits :=
  ⟨h.cap hs.1, h.lossCap hs.2.1, by rw [h.count]; exact hs.2.2⟩

/-- A change that leaves the claim unit alone. -/
theorem Fits.of_claims {G : Nat → Prop} {s t : State} (hc : t.claims = s.claims) (hn : Reported G s t)
    (hw : t.installer.work.length ≤ max 1 s.installer.work.length) : Fits s t :=
  ⟨by rw [hc]; exact id, by rw [hc]; exact id, by rw [hc]; exact id, hn.fits, fun h => hw.trans (by omega)⟩

theorem VoiceStep.fits {G : Nat → Prop} {s t : State} (h : VoiceStep s t) (hn : Reported G s t) : Fits s t :=
  .of_claims h.claims hn (by rw [h.installer]; exact Nat.le_max_right _ _)

theorem MediaStep.fits {s t : State} (h : MediaStep s t) : Fits s t :=
  h.voiceStep.fits (G := fun _ => True) (.of_eq h.notices)

theorem Installs.fits {s t : State} (h : Installs s t) (hc : InstallStep s t) : Fits s t :=
  .of_claims (G := fun _ => True) hc.claims h.reported h.workLength

theorem VoiceTo.fits {G : Nat → Prop} {g : Nat} {o : Voice → Option Voice} {s t : State} (h : VoiceTo G g o s t) :
    Fits s t := h.step.fits h.notices

/-- A change of blocks that hold neither claims, notices nor work. -/
theorem Fits.of_eq {s t : State} (hc : t.claims = s.claims) (hn : t.notices = s.notices)
    (hi : t.installer = s.installer) : Fits s t :=
  .of_claims (G := fun _ => True) hc (.of_eq hn) (by rw [hi]; exact Nat.le_max_right _ _)

theorem State.finish_fits (s : State) : Fits s s.finish := by
  have hoffer (u : State) : Fits u u.offer := by
    have k := u.offer_step
    refine ⟨fun h => ?_, fun h => ?_, by rw [k.watches]; exact id, ?_, by rw [k.installer]; exact id⟩
    · have hrates : u.offer.claims.bids.map (·.rate) = u.claims.bids.map (·.rate) := by
        unfold State.offer
        split
        · split
          · exact updateFirst_map _ (fun b : Bid => { b with offer := .sending }) (·.rate) (fun _ => rfl) _
          · rfl
          · rfl
        · rfl
      intro b hb
      have : b.rate ∈ u.claims.bids.map (·.rate) := by rw [← hrates]; exact List.mem_map_of_mem hb
      obtain ⟨c, hc, heq⟩ := List.mem_map.1 this
      exact heq ▸ h c hc
    · have := congrArg List.length k.bids
      rw [List.length_map, List.length_map] at this
      omega
    · unfold NoticeQueue.Fits
      rw [k.queue, k.loss, k.count]
      exact id
  have hready (u : State) : Fits u u.recomputeReady := .of_eq rfl rfl rfl
  exact ((s.settleFront_installs.fits s.settleFront_step).trans (hready _)).trans (hoffer _)

section Updates
variable {s t : State} (h : Fits s t)
include h

theorem Fits.finish : Fits s t.finish := h.trans t.finish_fits

theorem Fits.setPort (x : Port) : Fits s (t.setPort x) := h.trans (.of_eq rfl rfl rfl)

theorem Fits.setTimebase (x : Timebase) : Fits s (t.setTimebase x) := h.trans (.of_eq rfl rfl rfl)

theorem Fits.setVoices (x : List Voice) : Fits s (t.setVoices x) := h.trans (.of_eq rfl rfl rfl)

theorem Fits.setCatalogue (x : Catalogue) : Fits s (t.setCatalogue x) := h.trans (.of_eq rfl rfl rfl)

theorem Fits.setMedia (x : Media) : Fits s (t.setMedia x) := h.trans (.of_eq rfl rfl rfl)

theorem Fits.setStation (x : Station) : Fits s (t.setStation x) := h.trans (.of_eq rfl rfl rfl)

theorem Fits.setDelivery (x : DeliveryEngine) : Fits s (t.setDelivery x) := h.trans (.of_eq rfl rfl rfl)

theorem Fits.notice (addressee : Nat) (body : NoticeBody) : Fits s (t.queueNotice addressee body) :=
  h.trans ((State.queueNotice_voiceStep t addressee body).fits
    (t.queueNotice_reported (G := fun _ => True) addressee body fun _ _ => trivial))

theorem Fits.setNotices {x : NoticeQueue} (hx : t.notices.Fits → x.Fits) : Fits s (t.setNotices x) :=
  h.trans ⟨id, id, id, hx, id⟩

theorem Fits.setWork {x : Installer} (hx : x.work.length ≤ max 1 t.installer.work.length) :
    Fits s (t.setInstaller x) := h.trans (.of_claims (G := fun _ => True) rfl (.of_eq rfl) hx)

theorem Fits.setBids {x : List Bid} (hr : (∀ b ∈ t.claims.bids, rateLawful b.rate) → ∀ b ∈ x, rateLawful b.rate)
    (hl : t.claims.bids.length ≤ 16 → x.length ≤ 16) : Fits s (t.setBids x) := h.trans ⟨hr, hl, id, id, id⟩

theorem Fits.setWatches {x : List Watch} (hl : t.claims.watches.length ≤ 16 → x.length ≤ 16) :
    Fits s (t.setWatches x) := h.trans ⟨id, id, hl, id, id⟩

end Updates

theorem State.filterBids_fits (s : State) (p : Bid → Bool) : Fits s (s.setBids (s.claims.bids.filter p)) :=
  (Fits.refl s).setBids (fun h b hb => h b (List.mem_filter.1 hb).1) fun h => (List.length_filter_le _ _).trans h

theorem State.updateBid_fits (s : State) (tag : Nat) {f : Bid → Bid}
    (hf : ∀ b, rateLawful b.rate → rateLawful (f b).rate) : Fits s (s.updateBid tag f) := by
  refine (Fits.refl s).setBids (fun h b hb => ?_) fun h => by rw [length_updateFirst]; exact h
  rcases mem_updateFirst _ _ _ _ hb with hb | ⟨c, hc, -, rfl⟩
  · exact h b hb
  · exact hf c (h c hc)

theorem State.dropBid_fits (s : State) (tag : Nat) : Fits s (s.dropBid tag) := by
  unfold State.dropBid
  split
  · exact Fits.refl s
  · exact (s.filterBids_fits _).setCatalogue _

theorem State.dropBids_fits (s : State) : Fits s s.dropBids :=
  ((Fits.refl s).setBids (fun _ _ hb => by cases hb) fun _ => Nat.zero_le _).trans (State.releaseUses_step _ _).fits

theorem State.dropWatch_fits (s : State) (tag : Nat) : Fits s (s.dropWatch tag) :=
  (Fits.refl s).setWatches fun h => (List.length_filter_le _ _).trans h

theorem State.hear_fits (s : State) (tag : Nat) : Fits s (s.hear tag) :=
  (Fits.refl s).setWatches fun h => by rw [List.length_map]; exact h

theorem State.decideWatch_fits (s : State) (w : Watch) : Fits s (s.decideWatch w) := by
  unfold State.decideWatch
  dsimp only
  split
  · exact s.dropWatch_fits _
  · exact (s.dropWatch_fits _).notice _ _

theorem State.settleDue_fits (s : State) : Fits s s.settleDue := by
  unfold State.settleDue
  generalize List.filter _ _ = l
  induction l generalizing s with
  | nil => exact Fits.refl s
  | cons w l ih => exact (s.decideWatch_fits w).trans (ih _)

theorem State.claimReturned_fits (s : State) (tag : Nat) : Fits s (s.claimReturned tag) := by
  unfold State.claimReturned
  split
  · exact Fits.refl s
  · split
    · exact s.updateBid_fits tag fun _ h => h
    · exact s.dropBid_fits tag

theorem State.stopClaim_fits (s : State) : Fits s s.stopClaim := by
  have h : Fits s (s.setPort s.port.stop) := (Fits.refl s).setPort _
  unfold State.stopClaim
  dsimp only
  split
  · exact h
  · exact h.trans (State.settleDue_fits _)

theorem State.homeWatch_fits (s : State) (n : NoteFields) : Fits s (s.homeWatch n) := by
  have hdrop := s.dropWatch_fits n.tag
  unfold State.homeWatch State.startWatch
  split
  · split
    · split
      · dsimp only
        split
        next hlt => exact hdrop.setWatches fun _ => by rw [List.length_append, List.length_singleton]; exact hlt
        next => exact hdrop
      · exact hdrop.notice _ _
    · exact hdrop
  · exact hdrop

/-- A new bid entry finds room, and its rate is that of the NOTE (R125, R128). -/
theorem State.makeBid_fits (s : State) (n : NoteFields) (hr : rateLawful n.rate) : Fits s (s.makeBid n) := by
  unfold State.makeBid
  split
  next hc =>
    simp only [State.canBid, Bool.and_eq_true, decide_eq_true_eq] at hc
    refine ((Fits.refl s).setBids (fun h b hb => ?_) fun _ => ?_).setCatalogue _
    · rcases List.mem_append.1 hb with hb | hb
      · exact h b hb
      · rw [List.mem_singleton.1 hb]
        exact hr
    · rw [List.length_append, List.length_singleton]
      exact hc.2
  next => exact Fits.refl s

/-! ### Voices -/

theorem State.retire_fits (s : State) (g : Nat) (reason : RetireReason) : Fits s (s.retire g reason) :=
  (s.retire_to (G := fun _ => True) g reason trivial).fits

theorem State.discardSegments_fits (s : State) (tags : List Nat) : Fits s (s.discardSegments tags) :=
  (s.discardSegments_step tags).fits (G := fun _ => True) (.of_eq (s.discardSegments_notices tags).1)

theorem Fits.foldl {α : Type} (f : State → α → State) (h : ∀ s a, Fits s (f s a)) (l : List α) :
    ∀ s, Fits s (l.foldl f s) := by
  induction l with
  | nil => exact Fits.refl
  | cons a as ih => exact fun s => (h s a).trans (ih _)

theorem State.retireAll_fits (s : State) (reason : RetireReason) : Fits s (s.retireAll reason) :=
  (s.discardSegments_fits _).trans (Fits.foldl _ (fun u v => (u.retireRecord_step reason v).fits
    (u.retireRecord_reported reason v)) _ _)

theorem State.createVoice_fits (s : State) (b : Bid) : Fits s (s.createVoice b) := by
  have h1 : Fits s s.steal := by
    unfold State.steal
    split
    · exact s.retire_fits _ _
    · exact Fits.refl s
  unfold State.createVoice
  dsimp only
  split
  · exact (h1.setVoices _).trans (State.testEligible_fills (G := fun _ => True) _ b.tag).fits
  · exact h1.setCatalogue _

theorem State.applyEnd_fits (s : State) (v : Voice) (mode : CutOrFade) (sender : Nat)
    (hv : s.voice? v.tag = some v) : Fits s (s.applyEnd v mode sender) := by
  unfold State.applyEnd
  split
  · exact s.retire_fits _ _
  · split
    · exact (Fits.refl s).notice _ _
    · exact (s.fixFade_fills (G := fun _ => True) v _ hv).fits

theorem State.endVoice_fits (s : State) (v : Voice) (mode : EndMode) (atTick : Option Nat) (sender : Nat)
    (hv : s.voice? v.tag = some v) : Fits s (s.endVoice v mode atTick sender) := by
  have hold (mode : CutOrFade) : Fits s (s.endOrHold v mode atTick sender) := by
    unfold State.endOrHold
    split
    · split
      · exact (Fits.refl s).setVoices _
      · exact s.applyEnd_fits v mode sender hv
    · exact s.applyEnd_fits v mode sender hv
  unfold State.endVoice
  split
  · exact (Fits.refl s).setVoices _
  · exact hold _
  · exact hold _

theorem State.tickEvent_fits (s : State) (order : List (BitVec 12)) : Fits s (s.tickEvent order) := by
  have h0 : Fits s (s.setTimebase { s.timebase with tick := nextTick s.timebase.tick }) := (Fits.refl s).setTimebase _
  have h1 := h0.trans (Fits.foldl _ (fun u g => (u.tickVoice_to (G := fun _ => True) g trivial).fits)
    (tickOrder order s.voices) _)
  unfold State.tickEvent
  dsimp only
  split
  · exact (((h1.setVoices _).trans (State.syncReads_step _).fits).setTimebase _).trans (State.suspendTests_step _).fits
  · exact (h1.setTimebase _).trans (State.suspendTests_step _).fits

theorem State.standIn_fits (s : State) (at_ : Nat) (order : List (BitVec 12)) : Fits s (s.standIn at_ order) := by
  have h0 : Fits s (s.setTimebase { s.timebase with reference := some at_, standIn := s.timebase.standIn + 1 }) :=
    (Fits.refl s).setTimebase _
  have h := h0.trans (State.tickEvent_fits _ order)
  unfold State.standIn
  dsimp only
  split
  · exact (h.setTimebase _).notice _ _
  · exact h

theorem State.edge_fits (s : State) (rate : SessionRate) (t : Nat) (order : List (BitVec 12)) :
    Fits s (s.edge rate t order) := by
  unfold State.edge
  split
  · exact Fits.refl s
  · unfold State.fallbackEdge State.lock
    dsimp only
    split
    · exact (Fits.refl s).setTimebase _
    · split
      · exact (((Fits.refl s).setTimebase _).trans (State.tickEvent_fits _ order)).notice _ _
      · exact ((Fits.refl s).setTimebase _).notice _ _
  · unfold State.externalEdge
    split
    · exact Fits.refl s
    · split
      · exact ((Fits.refl s).setTimebase _).trans (State.tickEvent_fits _ order)
      · exact Fits.refl s

theorem State.downbeat_fits (s : State) : Fits s s.downbeat := by
  have h : Fits s s.applyLoad := by
    unfold State.applyLoad
    split
    · exact Fits.refl s
    · exact ((Fits.refl s).setTimebase _).setVoices _
  exact (h.setVoices _).trans (State.syncReads_step _).fits

/-! ### Segments and the link -/

theorem State.startPosting_fits (s : State) : Fits s s.startPosting := by
  unfold State.startPosting
  split
  · exact (Fits.refl s).setDelivery _
  · exact Fits.refl s

theorem State.readOutcome_fits (s : State) (d : Nat) (a : ActiveRead) (bad : BitVec 12) :
    Fits s (s.readOutcome d a bad) := by
  have joins (u : State) (e : Delivery) : Fits u (u.joinDelivery e) :=
    ((Fits.refl u).setDelivery _).trans (State.startPosting_fits _)
  have result (r : ReadRequest) (v : Voice) : Fits s (s.readResult d r v bad) := by
    unfold State.readResult
    dsimp only
    split
    · exact joins _ _
    · split
      · exact (State.joinReads_step s _ _).fits
      · exact ((Fits.refl s).notice _ _).trans (joins _ _)
  unfold State.readOutcome
  split
  · exact result _ _
  · exact (State.freeBuffer_step s).fits

theorem State.postingEnded_fits (s : State) (p : Posting) : Fits s (s.postingEnded p) := by
  have h : Fits s (s.setDelivery { s.delivery with posting := none }).freeBuffer :=
    ((Fits.refl s).setDelivery _).trans (State.freeBuffer_step _).fits
  unfold State.postingEnded
  dsimp only
  refine Fits.trans ?_ (State.startPosting_fits _)
  split
  · exact h
  · exact h.trans (State.deliveryCompletion_fills (G := fun _ => True) _ _ _ trivial).fits

theorem State.linkLost_fits (s : State) : Fits s s.linkLost := by
  have h1 : Fits s (s.setDelivery { link := .down, queue := [], posting := none, installRead := none }) :=
    (Fits.refl s).setDelivery _
  have h2 := ((h1.trans (State.retireAll_fits _ .link)).trans
    (State.freeBuffers_step (s.delivery.queue.length + if s.delivery.posting.isSome then 1 else 0) _).fits).trans
    (State.dropBids_fits _)
  have abandons (u : State) : Fits u u.abandonClaim := by
    unfold State.abandonClaim
    split
    · exact u.stopClaim_fits
    · exact Fits.refl u
    · exact Fits.refl u
  have install (u : State) : Fits u u.linkLostInstall := by
    have fails (i : InstallItem) :
        Fits u ((u.setInstaller { u.installer with held := u.pageUnderWay }).installFails i .linkDown) :=
      ((Fits.refl u).setWork (by exact Nat.le_max_right _ _)).trans
        ((State.installFails_installs _ i .linkDown).fits (State.installFails_step _ i .linkDown))
    unfold State.linkLostInstall
    split
    · dsimp only
      split
      · exact Fits.refl u
      · exact fails _
      · exact fails _
      · exact fails _
      · split
        · exact Fits.refl u
        · exact fails _
    · exact Fits.refl u
  exact (((h2.trans (abandons _)).trans ((State.settleFront_installs _).fits (State.settleFront_step _))).trans
    (install _)).finish

/-! ### Long operations -/

theorem State.longOpResult_fits (s : State) (d : Nat) (op : LongOp) (ok : Bool) :
    Fits s (s.longOpResult d op ok) := by
  cases op with
  | program p =>
    have hm : Fits s ((s.setFront d p.block (p.page * 48 + p.first + p.count)).programFlash d p ok) := by
      unfold State.programFlash
      dsimp only
      split <;> exact .of_eq rfl rfl rfl
    exact (hm.trans ((State.handOn_installs _ d p ok).fits (State.handOn_step _ d p ok))).trans
      (State.becomeIdle_step _ d).fits
  | erase b =>
    have hm : Fits s ((s.setFront d b 0).eraseFlash d b ok) := by
      unfold State.eraseFlash
      split <;> exact .of_eq rfl rfl rfl
    exact (((hm.trans ((State.blockErased_installs _ d b ok).fits (State.blockErased_step _ d b ok)))).trans
      ((State.eraseTold_installs _ d _ ok).fits (State.eraseTold_step _ d _ ok))).trans
      (State.becomeIdle_step _ d).fits

/-! ### The library and the scan -/

theorem State.joinWork_fits (s : State) (w : WorkItem) (h : s.installer.work.length < 4) : Fits s (s.joinWork w) := by
  have h1 : Fits s (s.setInstaller { s.installer with work := s.installer.work ++ [w] }) :=
    ⟨id, id, id, id, fun _ => by
      rw [State.setInstaller_installer, List.length_append, List.length_singleton]; exact h⟩
  unfold State.joinWork
  dsimp only
  split
  · exact h1.trans ((State.nextItem_installs _).fits (State.nextItem_step _))
  · exact h1

/-- An admission finds room in the work list (R159). -/
theorem Installer.room_of_not_busy {i : Installer} (h : i.busy = false) : i.work.length < 4 := by
  simp only [Installer.busy, Bool.or_eq_false_iff, decide_eq_false_iff_not] at h
  omega

theorem State.installTaken_fits (s : State) (i : InstallFields) : Fits s (s.installTaken i) := by
  refine Fits.finish ?_
  split
  · exact (Fits.refl s).notice _ _
  next hr =>
    have hb : s.installer.busy = false := by
      unfold State.installRefusal at hr
      split at hr
      · cases hr
      next h => exact Bool.eq_false_iff.2 h
    exact ((Fits.refl s).setCatalogue _).trans (State.joinWork_fits _ _ (Installer.room_of_not_busy hb))

theorem State.reclaimTaken_fits (s : State) (region sender : Nat) : Fits s (s.reclaimTaken region sender) := by
  refine Fits.finish ?_
  split
  · exact (Fits.refl s).notice _ _
  next hr =>
    have hb : s.installer.busy = false := by
      unfold State.reclaimRefusal at hr
      split at hr
      · cases hr
      next h => exact Bool.eq_false_iff.2 h
    exact (((Fits.refl s).setCatalogue _).setCatalogue _).trans
      (State.joinWork_fits _ _ (Installer.room_of_not_busy hb))

theorem State.wipeTaken_fits (s : State) (sender : Nat) : Fits s (s.wipeTaken sender) := by
  refine Fits.finish ?_
  split
  · exact (Fits.refl s).notice _ _
  · exact (((Fits.refl s).setCatalogue _).setWork (by exact Nat.le_max_left _ _)).trans
      (MediaStep.foldl _ State.wipeDie_step _ _).fits

theorem State.logSectorRead_fits (s : State) (x : Scan) (bad : Bool) : Fits s (s.logSectorRead x bad) := by
  have ends (u : State) (appendPos skipped : Nat) : Fits u ((u.endScan appendPos skipped).becomeIdle 0) := by
    unfold State.endScan
    exact ((((((Fits.refl u).setCatalogue _).setMedia _).trans
      (MediaStep.foldl _ State.queueErasesOn_step _ _).fits).notice _ _).setStation _).trans
      (State.becomeIdle_step _ 0).fits
  have goesOn (u : State) : Fits u u.continueScan := by
    unfold State.continueScan
    split
    · exact Fits.refl u
    · split
      · exact (State.setDieState_step u 0 _).fits
      · exact ends u _ _
  unfold State.logSectorRead
  split
  · exact ends s _ _
  · rw [State.classify_eq]
    exact ((Fits.refl s).setCatalogue _).trans (goesOn _)

/-! ### The notice queue's own commands -/

theorem NoticeQueue.fits_foldAddendum {q : NoticeQueue} (h : q.Fits) : q.foldAddendum.Fits := by
  unfold NoticeQueue.foldAddendum
  split
  next hq _ => exact ⟨by have := h.1; rwa [hq] at this, h.2⟩
  next => exact h

theorem NoticeQueue.fits_dropHead {q : NoticeQueue} (h : q.Fits) : q.dropHead.Fits :=
  ⟨(List.length_tail ▸ Nat.sub_le _ _).trans h.1, h.2.1, Nat.zero_le _⟩

theorem NoticeQueue.fits_bitError {q : NoticeQueue} (h : q.Fits) : q.bitError.Fits := by
  have hf := NoticeQueue.fits_foldAddendum h
  unfold NoticeQueue.bitError
  dsimp only
  split
  · obtain ⟨hq, -, hc⟩ := NoticeQueue.fits_dropHead hf
    exact ⟨hq, Nat.min_le_left _ _, hc⟩
  · exact ⟨hf.1, hf.2.1, by dsimp only; omega⟩

theorem NoticeQueue.fits_sent {q : NoticeQueue} (h : q.Fits) : q.sent.Fits := by
  unfold NoticeQueue.sent
  dsimp only
  split
  next hq => exact ⟨by have := h.1; rwa [hq] at this, Nat.min_le_left _ _, Nat.zero_le _⟩
  next =>
    exact NoticeQueue.fits_dropHead (q := { q with loss := min 15 q.drops, drops := 0 })
      ⟨h.1, Nat.min_le_left _ _, h.2.2⟩

/-! ### Every effect -/

theorem Starts.fits {s u : State} (h : Starts s u) : Fits s u := by
  cases h with
  | clock t => exact .of_eq rfl rfl rfl
  | ended t _ =>
    have h1 : Fits s (s.atTime t).endFrame := .of_eq rfl rfl rfl
    exact h1.trans (State.settleDue_fits _)

theorem Effect.fits {s t : State} {c : Instr} (h : Effect s c t) : Fits s t := by
  have refl := Fits.refl s
  cases h
  case nothing => exact refl
  case reset =>
    exact ⟨fun _ => nofun, fun _ => Nat.zero_le _, fun _ => Nat.zero_le _,
      fun _ => ⟨Nat.zero_le _, Nat.zero_le _, Nat.zero_le _⟩, fun _ => Nat.zero_le _⟩
  case scan => exact (s.logSectorRead_fits _ _).finish
  case edge => exact (s.edge_fits _ _ _).finish
  case divider => exact ((refl.setTimebase _).trans (State.tickEvent_fits _ _)).finish
  case standIn => exact (s.standIn_fits _ _).finish
  case driveEnd | lineRise | pulse => exact refl.setTimebase _
  case downbeat => exact ((refl.setTimebase _).trans (State.downbeat_fits _)).finish
  case busIdle => exact (refl.setPort _).finish
  case frameBegins | claimGone => exact refl.setPort _
  case claimLost => exact (refl.setPort _).trans (State.claimReturned_fits _ _)
  case claimLostTo => exact ((refl.setPort _).trans (State.claimReturned_fits _ _)).trans (State.settleDue_fits _)
  case noticeLost => exact (refl.setPort _).setNotices NoticeQueue.fits_foldAddendum
  case noticeBroken => exact (refl.setPort _).setNotices NoticeQueue.fits_bitError
  case noticeSent => exact (refl.setPort _).setNotices NoticeQueue.fits_sent
  case claimBroken => exact (s.claimReturned_fits _).trans (State.stopClaim_fits _)
  case claimWon b _ _ _ =>
    exact (((((refl.setPort _).trans (State.filterBids_fits _ fun c => c.tag != b.tag)).trans
      (State.createVoice_fits _ b)).trans (State.hear_fits _ _)).trans (State.settleDue_fits _)).finish
  case claimHeard =>
    exact (((((refl.setPort _).trans (State.dropBid_fits _ _)).trans (State.retire_fits _ _ _)).trans
      (State.hear_fits _ _)).trans (State.settleDue_fits _)).finish
  case note n _ hr =>
    exact ((((s.retire_fits _ _).trans (State.dropBid_fits _ _)).trans (State.homeWatch_fits _ n)).trans
      (State.makeBid_fits _ n (hr ▸ rateLawful_clampRate _))).finish
  case endVoice hv =>
    rw [← State.voice_tag hv] at hv
    exact (s.endVoice_fits _ _ _ _ hv).finish
  case endBid => exact (s.dropBid_fits _).finish
  case endNone | rateNone => exact s.finish_fits
  case rateVoice =>
    exact ((refl.setVoices _).trans (State.recomputeDry_fills (G := fun _ => True) _ _).fits).finish
  case rateBid => exact (s.updateBid_fits _ fun _ _ => rateLawful_clampRate _).finish
  case follow =>
    unfold State.followTaken
    split
    · exact refl.notice _ _
    · exact (refl.setVoices _).setCatalogue _
  case unfollow =>
    unfold State.unfollowTaken
    split
    · exact (refl.setVoices _).setCatalogue _
    · exact refl
  case halt =>
    exact (((((s.retireAll_fits .halted).trans (State.dropBids_fits _)).setWatches fun _ => Nat.zero_le _).setTimebase
      _).notice _ _).finish
  case timebase =>
    unfold State.timebaseTaken
    split
    · exact refl.setTimebase _
    · exact refl
  case probe =>
    unfold State.probeTaken
    split
    · exact refl.notice _ _
    · exact refl
  case install => exact s.installTaken_fits _
  case reclaim => exact s.reclaimTaken_fits _ _
  case wipe => exact s.wipeTaken_fits _
  case configure =>
    unfold State.configureTested
    split
    · exact refl.notice _ _
    · split
      · exact refl.notice _ _
      · exact ((refl.setTimebase _).setWatches fun _ => Nat.zero_le _).setStation _
  case bidExpires => exact s.dropBid_fits _
  case bidCloses => exact s.updateBid_fits _ fun _ h => h
  case watchDeferred => exact refl.setWatches fun h => by rw [length_updateFirst]; exact h
  case watchDecided => exact (s.decideWatch_fits _).finish
  case segmentRead d _ _ => exact ((s.readOutcome_fits d _ _).trans (State.readEnded_step _ d).fits).finish
  case programEnds | eraseEnds | completed => exact (s.longOpResult_fits _ _ _).finish
  case suspended d _ => exact ((s.setDieState_step d _).trans (State.serviceDecision_step _ d)).fits.finish
  case holdOff d => exact (s.suspendTest_step d).fits.finish
  case posting => exact (s.postingEnded_fits _).finish
  case linkUp => exact refl.setDelivery _
  case linkLost => exact s.linkLost_fits
  case pageRead =>
    exact (((refl.setDelivery _).setWork (by exact Nat.le_max_right _ _)).trans
      ((State.enterProgramming_installs _ _).fits (State.enterProgramming_step _ _))).finish
  case readFails | readTimesOut =>
    exact ((refl.setDelivery _).trans
      ((State.installFails_installs _ _ _).fits (State.installFails_step _ _ _))).finish

/-- Settles O51: the rates of records by `rateLaw` and those of bid entries by `Fits`, the capacities by `Fits`, and the
order of the read queues by `Effect.readsLawful`. -/
theorem stepsKeepRangesAndOrders : Obligations.StepsKeepRangesAndOrders := by
  intro s t h
  refine ⟨fun hs => ?_, fun hs => ?_, fun hs => ?_⟩
  · exact step_keeps (P := State.ratesLawful) (fun _ _ => id)
      (fun hu hp => ⟨State.Obeys.congr hp.1 (hu.keeps (a := true) (b := true).voices rfl), hu.fits.rates hp.2⟩)
      (fun he hp => ⟨rateLaw.effect he hp.1 hp.2, he.fits.rates hp.2⟩) hs h
  · exact step_keeps (P := State.withinCapacity) (fun _ _ => id) (fun hu => hu.fits.withinCapacity)
      (fun he => he.fits.withinCapacity) hs h
  · exact step_keeps (P := State.readsLawful) (fun _ _ => id) (fun hu => hu.steady.reads) Effect.readsLawful hs h

end Sys2Proof.Machine
end

