-- ==== Sys2Proof/Proofs/Tags.lean ====
section
/-! SUPPORT. Tags and record numbers (O53): every effect but a won claim and a NOTE leaves the table with some of the
records it had, each under its tag and number, and the bid list with some of its entries; those two find the tag free. -/

namespace Sys2Proof.Machine

/-! ### Where a record stands -/

/-- The tag and the number of a record. -/
def Voice.place (v : Voice) : Nat × Nat := (v.tag, v.record)

theorem Voice.SameCore.place {v w : Voice} (h : v.SameCore w) : w.place = v.place := by
  unfold Voice.place
  rw [h.tag, h.record]

theorem Voice.pended_place {now : Nat} {v w : Voice} (h : v.pended now = some w) : w.place = v.place := by
  unfold Voice.pended at h
  split at h
  · cases h
    rfl
  · split at h
    · split at h
      · cases h
      · cases h
        split
        · rfl
        · exact (Voice.faded_core _ _).place
    · cases h
      rfl

theorem Voice.ticked_place {look : Nat → Option Region} {ring now : Nat} {v w : Voice}
    (h : v.ticked look ring now = some w) : w.place = v.place := by
  have hmoved : (v.moved look ring now).place = v.place := by
    unfold Voice.moved
    split
    · exact (Voice.dried_core _ _ _ v.advanced).place
    · rfl
  unfold Voice.ticked at h
  split at h
  · split at h
    · cases h
    · obtain ⟨x, hx, rfl⟩ := Option.map_eq_some_iff.1 h
      rw [(Voice.ticksTested_core _ _ _ _ x).place, Voice.pended_place hx, hmoved]
  · rw [Voice.pended_place h]
    split
    · exact (Voice.withDry_core _ _).place
    · rfl
  · exact Voice.pended_place h

/-! ### Fewer records and entries -/

/-- From `s` to `t` the table holds some of the records it held, and the bid list some of its entries. -/
structure Fewer (s t : State) : Prop where
  places : (t.voices.map Voice.place).Sublist (s.voices.map Voice.place)
  bids   : (t.claims.bids.map (·.tag)).Sublist (s.claims.bids.map (·.tag))

theorem Fewer.refl (s : State) : Fewer s s := ⟨.refl _, .refl _⟩

theorem Fewer.trans {s t u : State} (a : Fewer s t) (b : Fewer t u) : Fewer s u :=
  ⟨b.places.trans a.places, b.bids.trans a.bids⟩

theorem Fewer.of_eq {s t : State} (hv : t.voices = s.voices) (hc : t.claims.bids = s.claims.bids) : Fewer s t :=
  ⟨by rw [hv], by rw [hc]⟩

theorem Fewer.foldl {α : Type} (f : State → α → State) (h : ∀ s a, Fewer s (f s a)) (l : List α) :
    ∀ s, Fewer s (l.foldl f s) := by
  induction l with
  | nil => exact Fewer.refl
  | cons a as ih => exact fun s => (h s a).trans (ih _)

theorem Voice.map_place (l : List Voice) : l.map (·.tag) = (l.map Voice.place).map Prod.fst ∧
    l.map (·.record) = (l.map Voice.place).map Prod.snd := by
  constructor <;> rw [List.map_map] <;> rfl

theorem Fewer.tagsLawful {s t : State} (h : Fewer s t) (hs : s.tagsLawful) : t.tagsLawful := by
  obtain ⟨htags, hrecords, hnumber, hbids, hapart⟩ := hs
  have hv : (t.voices.map (·.tag)).Sublist (s.voices.map (·.tag)) := by
    rw [(Voice.map_place _).1, (Voice.map_place _).1]
    exact h.places.map _
  have hr : (t.voices.map (·.record)).Sublist (s.voices.map (·.record)) := by
    rw [(Voice.map_place _).2, (Voice.map_place _).2]
    exact h.places.map _
  refine ⟨hv.nodup htags, hr.nodup hrecords, fun v hm => ?_, h.bids.nodup hbids, fun v hm b hb heq => ?_⟩
  · obtain ⟨w, hw, heq⟩ := List.mem_map.1 (hr.subset (List.mem_map_of_mem hm))
    exact heq ▸ hnumber w hw
  · obtain ⟨w, hw, hwv⟩ := List.mem_map.1 (hv.subset (List.mem_map_of_mem hm))
    obtain ⟨c, hc, hcb⟩ := List.mem_map.1 (h.bids.subset (List.mem_map_of_mem hb))
    exact hapart w hw c hc (hwv.trans (heq.trans hcb.symm))

theorem InstallStep.fewer {s t : State} (h : InstallStep s t) : Fewer s t := .of_eq h.voices (by rw [h.claims])

theorem WatchStep.fewer {s t : State} (h : WatchStep s t) : Fewer s t := .of_eq h.voices h.bids

theorem State.finish_fewer (s : State) : Fewer s s.finish :=
  ⟨by rw [s.finish_voices], by rw [s.finish_bidTags]⟩

/-- What becomes of one voice leaves it its place. -/
theorem VoiceTo.fewer {G : Nat → Prop} {g : Nat} {o : Voice → Option Voice} {s t : State} (h : VoiceTo G g o s t)
    (ho : ∀ v w, o v = some w → w.place = v.place) : Fewer s t := by
  refine ⟨?_, by rw [h.step.claims]⟩
  rw [h.voices]
  cases hf : s.voices.find? (·.tag == g) with
  | none => rw [voicesAfter_of_none hf]
  | some v =>
    cases hw : o v with
    | none => rw [voicesAfter_of_leaves hf hw]; exact List.filter_sublist.map _
    | some w => rw [voicesAfter_of_stays hf hw, updateFirst_map_found Voice.place hf (ho v w hw)]

theorem State.mapVoices_fewer (s : State) {f : Voice → Voice} (hf : ∀ v, (f v).place = v.place) :
    Fewer s (s.setVoices (s.voices.map f)) := by
  refine ⟨?_, .refl _⟩
  rw [State.setVoices_voices, List.map_map, show Voice.place ∘ f = Voice.place from funext hf]

theorem State.updateVoice_fewer (s : State) (g : Nat) {f : Voice → Voice} (hf : ∀ v, (f v).place = v.place) :
    Fewer s (s.updateVoice g f) := by
  refine ⟨?_, .refl _⟩
  rw [State.updateVoice, State.setVoices_voices, updateFirst_map _ _ _ hf]

section Updates
variable {s t : State} (h : Fewer s t)
include h

theorem Fewer.finish : Fewer s t.finish := h.trans t.finish_fewer

theorem Fewer.setPort (x : Port) : Fewer s (t.setPort x) := h.trans (.of_eq rfl rfl)

theorem Fewer.setTimebase (x : Timebase) : Fewer s (t.setTimebase x) := h.trans (.of_eq rfl rfl)

theorem Fewer.setCatalogue (x : Catalogue) : Fewer s (t.setCatalogue x) := h.trans (.of_eq rfl rfl)

theorem Fewer.setStation (x : Station) : Fewer s (t.setStation x) := h.trans (.of_eq rfl rfl)

theorem Fewer.setDelivery (x : DeliveryEngine) : Fewer s (t.setDelivery x) := h.trans (.of_eq rfl rfl)

theorem Fewer.setInstaller (x : Installer) : Fewer s (t.setInstaller x) := h.trans (.of_eq rfl rfl)

theorem Fewer.setNotices (x : NoticeQueue) : Fewer s (t.setNotices x) := h.trans (.of_eq rfl rfl)

theorem Fewer.setWatches (x : List Watch) : Fewer s (t.setWatches x) := h.trans (.of_eq rfl rfl)

theorem Fewer.notice (addressee : Nat) (body : NoticeBody) : Fewer s (t.queueNotice addressee body) :=
  h.trans (.of_eq rfl rfl)

end Updates

/-! ### Bid entries -/

theorem State.dropBid_fewer (s : State) (tag : Nat) : Fewer s (s.dropBid tag) := by
  obtain ⟨-, -, -, -, hv, -⟩ := s.dropBid_step tag
  refine ⟨by rw [hv], ?_⟩
  rw [State.dropBid_bids]
  exact List.filter_sublist.map _

theorem State.dropBids_fewer (s : State) : Fewer s s.dropBids :=
  Fewer.trans (t := s.setBids []) ⟨.refl _, List.nil_sublist _⟩ (State.releaseUses_step _ _).installStep.fewer

theorem State.updateBid_fewer (s : State) (tag : Nat) {f : Bid → Bid} (hf : ∀ b, (f b).tag = b.tag) :
    Fewer s (s.updateBid tag f) := by
  refine ⟨.refl _, ?_⟩
  rw [State.updateBid, State.setBids, State.setClaims_claims, updateFirst_map _ _ _ hf]

theorem State.claimReturned_fewer (s : State) (tag : Nat) : Fewer s (s.claimReturned tag) := by
  unfold State.claimReturned
  split
  · exact Fewer.refl s
  · split
    · exact s.updateBid_fewer tag fun _ => rfl
    · exact s.dropBid_fewer tag

theorem State.stopClaim_fewer (s : State) : Fewer s s.stopClaim :=
  ((Fewer.refl s).setPort s.port.stop).trans s.stopClaim_step.fewer

theorem State.hear_fewer (s : State) (tag : Nat) : Fewer s (s.hear tag) := .of_eq rfl rfl

theorem State.homeWatch_fewer (s : State) (n : NoteFields) : Fewer s (s.homeWatch n) := by
  have hdrop : Fewer s (s.dropWatch n.tag) := (Fewer.refl s).setWatches _
  unfold State.homeWatch State.startWatch
  split
  · split
    · split
      · dsimp only
        split
        · exact hdrop.setWatches _
        · exact hdrop
      · exact hdrop.notice _ _
    · exact hdrop
  · exact hdrop

/-! ### Voices -/

theorem State.retire_fewer (s : State) (g : Nat) (reason : RetireReason) : Fewer s (s.retire g reason) :=
  VoiceTo.fewer (s.retire_to (G := fun _ => True) g reason trivial) fun _ _ h => by cases h

theorem State.retireAll_fewer (s : State) (reason : RetireReason) : Fewer s (s.retireAll reason) := by
  refine ⟨?_, by rw [(s.retireAll_step reason).claims]⟩
  rw [s.retireAll_voices]
  exact List.nil_sublist _

theorem State.tickEvent_fewer (s : State) (order : List (BitVec 12)) : Fewer s (s.tickEvent order) := by
  have h0 : Fewer s (s.setTimebase { s.timebase with tick := nextTick s.timebase.tick }) :=
    (Fewer.refl s).setTimebase _
  have h1 := h0.trans (Fewer.foldl _ (fun u g => VoiceTo.fewer (u.tickVoice_to (G := fun _ => True) g trivial)
    fun _ _ => Voice.ticked_place) (tickOrder order s.voices) _)
  have held (u : State) : Fewer u u.recomputeHeld := by
    refine (u.mapVoices_fewer fun v => ?_).trans (State.syncReads_step _).installStep.fewer
    split
    · exact (Voice.withDry_core v _).place
    · rfl
  unfold State.tickEvent
  dsimp only
  split
  · exact ((h1.trans (held _)).setTimebase _).trans (State.suspendTests_step _).installStep.fewer
  · exact (h1.setTimebase _).trans (State.suspendTests_step _).installStep.fewer

theorem State.standIn_fewer (s : State) (at_ : Nat) (order : List (BitVec 12)) : Fewer s (s.standIn at_ order) := by
  have h0 : Fewer s (s.setTimebase { s.timebase with reference := some at_, standIn := s.timebase.standIn + 1 }) :=
    (Fewer.refl s).setTimebase _
  have h := h0.trans (State.tickEvent_fewer _ order)
  unfold State.standIn
  dsimp only
  split
  · exact (h.setTimebase _).notice _ _
  · exact h

theorem State.edge_fewer (s : State) (rate : SessionRate) (t : Nat) (order : List (BitVec 12)) :
    Fewer s (s.edge rate t order) := by
  unfold State.edge
  split
  · exact Fewer.refl s
  · unfold State.fallbackEdge State.lock
    dsimp only
    split
    · exact (Fewer.refl s).setTimebase _
    · split
      · exact (((Fewer.refl s).setTimebase _).trans (State.tickEvent_fewer _ order)).notice _ _
      · exact ((Fewer.refl s).setTimebase _).notice _ _
  · unfold State.externalEdge
    split
    · exact Fewer.refl s
    · split
      · exact ((Fewer.refl s).setTimebase _).trans (State.tickEvent_fewer _ order)
      · exact Fewer.refl s

theorem State.downbeat_fewer (s : State) : Fewer s s.downbeat := by
  have h : Fewer s s.applyLoad := by
    unfold State.applyLoad
    split
    · exact Fewer.refl s
    next load _ =>
      refine Fewer.trans (t := s.setTimebase (s.timebase.loadApplied s.rate? load s.clock)) (.of_eq rfl rfl)
        (State.mapVoices_fewer _ (f := fun v => v.loaded s.timebase.tick load) fun v => ?_)
      unfold Voice.loaded
      split
      · rfl
      · dsimp only
        split
        · exact (Voice.withDry_core _ _).place
        · rfl
        · rfl
  refine (h.trans (State.mapVoices_fewer _ fun v => ?_)).trans (State.syncReads_step _).installStep.fewer
  unfold Voice.started
  split
  · exact (Voice.withDry_core _ _).place
  · rfl
  · rfl

theorem State.recomputeDry_fewer (s : State) (g : Nat) : Fewer s (s.recomputeDry g) :=
  (s.updateVoice_fewer g fun v => (v.withDry_core _).place).trans (State.syncReads_step _).installStep.fewer

theorem State.rated_fewer (s : State) (g target step : Nat) :
    Fewer s ((s.updateVoice g (·.rated target step)).recomputeDry g) := by
  have h1 : Fewer s (s.updateVoice g (·.rated target step)) := s.updateVoice_fewer g fun _ => rfl
  exact h1.trans (State.recomputeDry_fewer _ g)

theorem State.followTaken_fewer (s : State) (v : Voice) (region start sender : Nat) :
    Fewer s (s.followTaken v region start sender) := by
  have h1 : Fewer s (s.updateVoice v.tag fun v => { v with follow := some { region := region, offset := start } }) :=
    s.updateVoice_fewer _ fun _ => rfl
  unfold State.followTaken
  split
  · exact (Fewer.refl s).notice _ _
  · exact h1.setCatalogue _

theorem State.unfollowTaken_fewer (s : State) (v : Voice) : Fewer s (s.unfollowTaken v) := by
  have h1 : Fewer s (s.updateVoice v.tag fun v => { v with follow := none }) := s.updateVoice_fewer _ fun _ => rfl
  unfold State.unfollowTaken
  split
  · exact h1.setCatalogue _
  · exact Fewer.refl s

theorem State.endVoice_fewer (s : State) (v : Voice) (mode : EndMode) (atTick : Option Nat) (sender : Nat)
    (hv : s.voice? v.tag = some v) : Fewer s (s.endVoice v mode atTick sender) := by
  have apply (mode : CutOrFade) : Fewer s (s.applyEnd v mode sender) := by
    unfold State.applyEnd
    split
    · exact s.retire_fewer _ _
    · split
      · exact (Fewer.refl s).notice _ _
      · exact VoiceTo.fewer (s.fixFade_fills (G := fun _ => True) v _ hv) fun x w hw => by
          cases hw
          exact (Voice.faded_core _ _).place
  have hold (mode : CutOrFade) : Fewer s (s.endOrHold v mode atTick sender) := by
    unfold State.endOrHold
    split
    · split
      · exact s.updateVoice_fewer _ fun _ => rfl
      · exact apply mode
    · exact apply mode
  unfold State.endVoice
  split
  · refine s.updateVoice_fewer _ fun v => ?_
    unfold Voice.loopExited
    split <;> rfl
  · exact hold _
  · exact hold _

theorem State.startPosting_fewer (s : State) : Fewer s s.startPosting := by
  unfold State.startPosting
  split
  · exact (Fewer.refl s).setDelivery _
  · exact Fewer.refl s

theorem State.postingEnded_fewer (s : State) (p : Posting) : Fewer s (s.postingEnded p) := by
  have h : Fewer s (s.setDelivery { s.delivery with posting := none }).freeBuffer :=
    ((Fewer.refl s).setDelivery _).trans (State.freeBuffer_step _).installStep.fewer
  unfold State.postingEnded
  dsimp only
  refine Fewer.trans ?_ (State.startPosting_fewer _)
  split
  · exact h
  · refine h.trans (VoiceTo.fewer (State.deliveryCompletion_fills (G := fun _ => True) _ _ _ trivial) fun x w hw => ?_)
    cases hw
    exact (Voice.completion_core _ _ _ _ x).place

theorem State.linkLost_fewer (s : State) : Fewer s s.linkLost := by
  refine ⟨by rw [s.linkLost_voices]; exact List.nil_sublist _, ?_⟩
  have abandons (u : State) : Fewer u u.abandonClaim := by
    unfold State.abandonClaim
    split
    · exact u.stopClaim_fewer
    · exact Fewer.refl u
    · exact Fewer.refl u
  have install (u : State) : Fewer u u.linkLostInstall := by
    have fails (i : InstallItem) :
        Fewer u ((u.setInstaller { u.installer with held := u.pageUnderWay }).installFails i .linkDown) :=
      ((Fewer.refl u).setInstaller _).trans (State.installFails_step _ i .linkDown).fewer
    unfold State.linkLostInstall
    split
    · dsimp only
      split
      · exact Fewer.refl u
      · exact fails _
      · exact fails _
      · exact fails _
      · split
        · exact Fewer.refl u
        · exact fails _
    · exact Fewer.refl u
  have h1 : Fewer s (s.setDelivery { link := .down, queue := [], posting := none, installRead := none }) :=
    (Fewer.refl s).setDelivery _
  exact ((((((h1.trans (State.retireAll_fewer _ .link)).trans
    (State.freeBuffers_step (s.delivery.queue.length + if s.delivery.posting.isSome then 1 else 0) _).installStep.fewer).trans
    (State.dropBids_fewer _)).trans (abandons _)).trans (State.settleFront_step _).fewer).trans (install _)).finish.bids

/-! ### The library and the scan -/

theorem State.installTaken_fewer (s : State) (i : InstallFields) : Fewer s (s.installTaken i) := by
  refine Fewer.finish ?_
  split
  · exact (Fewer.refl s).notice _ _
  · exact ((Fewer.refl s).setCatalogue _).trans (State.joinWork_step _ _).fewer

theorem State.reclaimTaken_fewer (s : State) (region sender : Nat) : Fewer s (s.reclaimTaken region sender) := by
  refine Fewer.finish ?_
  split
  · exact (Fewer.refl s).notice _ _
  · exact (((Fewer.refl s).setCatalogue _).setCatalogue _).trans (State.joinWork_step _ _).fewer

theorem State.wipeTaken_fewer (s : State) (sender : Nat) : Fewer s (s.wipeTaken sender) := by
  refine Fewer.finish ?_
  split
  · exact (Fewer.refl s).notice _ _
  · exact (s.admitWipe_step sender).fewer

theorem State.logSectorRead_claims (s : State) (x : Scan) (bad : Bool) : (s.logSectorRead x bad).claims = s.claims := by
  have ends (u : State) (appendPos skipped : Nat) :
      ((u.endScan appendPos skipped).becomeIdle 0).claims = u.claims := by
    rw [(State.becomeIdle_step _ 0).claims, State.endScan, State.setStation_claims,
      (State.queueNotice_voiceStep _ _ _).claims, (MediaStep.foldl _ State.queueErasesOn_step _ _).claims]
    rfl
  have goesOn (u : State) : u.continueScan.claims = u.claims := by
    unfold State.continueScan
    split
    · rfl
    · split
      · rfl
      · exact ends u _ _
  unfold State.logSectorRead
  split
  · exact ends s _ _
  · rw [goesOn, State.classify_eq]
    rfl

/-! ### A won claim and a NOTE -/

/-- A free record number is below 512 and in no use (R27). -/
theorem State.idleRecord_free {s : State} {k : Nat} (h : s.idleRecord? = some k) :
    k < 512 ∧ ∀ v ∈ s.voices, v.record ≠ k := by
  unfold State.idleRecord? at h
  refine ⟨List.mem_range.1 (List.mem_of_find?_eq_some h), fun v hv heq => ?_⟩
  have := List.find?_some h
  rw [List.all_eq_true] at this
  have := this v hv
  rw [heq] at this
  simp at this

/-- The created record takes a free number and a tag that no record carries. -/
theorem State.createVoice_tagsLawful {s : State} {b : Bid} (hs : s.tagsLawful) (hv : ∀ v ∈ s.voices, v.tag ≠ b.tag)
    (hb : ∀ c ∈ s.claims.bids, c.tag ≠ b.tag) : (s.createVoice b).tagsLawful := by
  have h1 : Fewer s s.steal := by
    unfold State.steal
    split
    · exact s.retire_fewer _ _
    · exact Fewer.refl s
  have hlaw := h1.tagsLawful hs
  have hv1 : ∀ v ∈ s.steal.voices, v.tag ≠ b.tag := fun v hm heq => by
    have hmem := h1.places.subset (List.mem_map_of_mem hm)
    obtain ⟨w, hw, hp⟩ := List.mem_map.1 hmem
    exact hv w hw ((congrArg Prod.fst hp).trans heq)
  have hb1 : ∀ c ∈ s.steal.claims.bids, c.tag ≠ b.tag := by
    rw [s.steal_step.claims]
    exact hb
  unfold State.createVoice
  dsimp only
  generalize s.steal = u at hlaw hv1 hb1 ⊢
  obtain ⟨htags, hrecords, hnumber, hbids, hapart⟩ := hlaw
  split
  next record hr =>
    obtain ⟨hlt, hfree⟩ := State.idleRecord_free hr
    refine Fewer.tagsLawful (VoiceTo.fewer (State.testEligible_fills (G := fun _ => True) _ b.tag) fun x w hw => by
      cases hw
      exact (Voice.tested_core _ _ x).place) ?_
    have hplace : (b.create record u.timebase.tick ((u.region? b.region).bind (·.loop)).isSome).place =
        (b.tag, record) := by
      unfold Bid.create
      exact (Voice.withDry_core _ _).place
    generalize b.create record u.timebase.tick ((u.region? b.region).bind (·.loop)).isSome = x at hplace ⊢
    have htag : x.tag = b.tag := congrArg Prod.fst hplace
    have hrec : x.record = record := congrArg Prod.snd hplace
    refine ⟨?_, ?_, fun v hm => ?_, hbids, fun v hm c hc => ?_⟩
    · rw [State.setVoices_voices, List.map_append, List.nodup_append]
      refine ⟨htags, by simp, fun a ha c hc heq => ?_⟩
      obtain ⟨v, hm, rfl⟩ := List.mem_map.1 ha
      rw [List.map_singleton, List.mem_singleton] at hc
      exact hv1 v hm (heq.trans (hc.trans htag))
    · rw [State.setVoices_voices, List.map_append, List.nodup_append]
      refine ⟨hrecords, by simp, fun a ha c hc heq => ?_⟩
      obtain ⟨v, hm, rfl⟩ := List.mem_map.1 ha
      rw [List.map_singleton, List.mem_singleton] at hc
      exact hfree v hm (heq.trans (hc.trans hrec))
    · rcases List.mem_append.1 hm with hm | hm
      · exact hnumber v hm
      · rw [List.mem_singleton.1 hm, hrec]
        exact hlt
    · rcases List.mem_append.1 hm with hm | hm
      · exact hapart v hm c hc
      · rw [List.mem_singleton.1 hm, htag]
        exact (hb1 c hc).symm
  next => exact ((Fewer.refl u).setCatalogue _).tagsLawful ⟨htags, hrecords, hnumber, hbids, hapart⟩

theorem State.claimWonBy_tagsLawful {s : State} {b : Bid} (hs : s.tagsLawful) (hb : b ∈ s.claims.bids) :
    (s.claimWonBy b).tagsLawful := by
  have h0 : Fewer s (s.setBids (s.claims.bids.filter (·.tag != b.tag))) := ⟨.refl _, List.filter_sublist.map _⟩
  have h1 := State.createVoice_tagsLawful (b := b) (h0.tagsLawful hs) (fun v hv => hs.2.2.2.2 v hv b hb)
    fun c hc => by simpa using (List.mem_filter.1 hc).2
  exact (((State.hear_fewer _ b.tag).trans (State.settleDue_step _).fewer).finish).tagsLawful h1

/-- The NOTE's tag is free when its entry is made: its voice has retired and its entry has left (R127). -/
theorem State.noteTaken_tagsLawful {s : State} (hs : s.tagsLawful) (n : NoteFields) : (s.noteTaken n).tagsLawful := by
  generalize hu : ((s.retire n.tag .superseded).dropBid n.tag).homeWatch n = u
  have h1 : Fewer (s.retire n.tag .superseded) ((s.retire n.tag .superseded).dropBid n.tag) := State.dropBid_fewer _ _
  have h2 : Fewer ((s.retire n.tag .superseded).dropBid n.tag) u := hu ▸ State.homeWatch_fewer _ n
  have hlaw := (((s.retire_fewer n.tag .superseded).trans h1).trans h2).tagsLawful hs
  have hvoices : ∀ v ∈ u.voices, v.tag ≠ n.tag := fun v hv heq => by
    obtain ⟨w, hw, hp⟩ := List.mem_map.1 ((h1.trans h2).places.subset (List.mem_map_of_mem hv))
    rw [State.retire_voices] at hw
    have hne : w.tag ≠ n.tag := by simpa using (List.mem_filter.1 hw).2
    exact hne ((congrArg Prod.fst hp).trans heq)
  have hbids : ∀ c ∈ u.claims.bids, c.tag ≠ n.tag := fun c hc heq => by
    obtain ⟨w, hw, hp⟩ := List.mem_map.1 (h2.bids.subset (List.mem_map_of_mem hc))
    rw [State.dropBid_bids] at hw
    have hne : w.tag ≠ n.tag := by simpa using (List.mem_filter.1 hw).2
    exact hne (hp.trans heq)
  have hmade : (u.makeBid n).tagsLawful := by
    obtain ⟨htags, hrecords, hnumber, hnodup, hapart⟩ := hlaw
    unfold State.makeBid
    split
    · refine ⟨htags, hrecords, hnumber, ?_, fun v hv c hc => ?_⟩
      · show ((u.claims.bids ++ [n.bid u.timebase.tick u.clock]).map (·.tag)).Nodup
        rw [List.map_append, List.nodup_append]
        refine ⟨hnodup, by simp, fun a ha c hc heq => ?_⟩
        obtain ⟨d, hd, rfl⟩ := List.mem_map.1 ha
        rw [List.map_singleton, List.mem_singleton] at hc
        exact hbids d hd (heq.trans hc)
      · rcases List.mem_append.1 hc with hc | hc
        · exact hapart v hv c hc
        · rw [List.mem_singleton.1 hc]
          exact hvoices v hv
    · exact ⟨htags, hrecords, hnumber, hnodup, hapart⟩
  rw [State.noteTaken, hu]
  exact (State.finish_fewer _).tagsLawful hmade

/-! ### Every effect -/

theorem Starts.fewer {s u : State} (h : Starts s u) : Fewer s u := by
  cases h with
  | clock t => exact .of_eq rfl rfl
  | ended t _ =>
    have h1 : Fewer s (s.atTime t).endFrame := .of_eq rfl rfl
    exact h1.trans (State.ended_step _).fewer

theorem Effect.tagsLawful {s t : State} {c : Instr} (h : Effect s c t) (hs : s.tagsLawful) : t.tagsLawful := by
  have refl := Fewer.refl s
  have fewer {u : State} (hu : Fewer s u) : u.tagsLawful := hu.tagsLawful hs
  cases h
  case nothing => exact hs
  case reset => exact fewer ⟨List.nil_sublist _, List.nil_sublist _⟩
  case scan =>
    exact fewer (Fewer.of_eq ((s.logSectorRead_keeps _ _).voices rfl)
      (congrArg ClaimUnit.bids (s.logSectorRead_claims _ _))).finish
  case edge => exact fewer (s.edge_fewer _ _ _).finish
  case divider => exact fewer ((refl.setTimebase _).trans (State.tickEvent_fewer _ _)).finish
  case standIn => exact fewer (s.standIn_fewer _ _).finish
  case driveEnd | lineRise | pulse => exact fewer (refl.setTimebase _)
  case downbeat => exact fewer ((refl.setTimebase _).trans (State.downbeat_fewer _)).finish
  case busIdle => exact fewer (refl.setPort _).finish
  case frameBegins | claimGone => exact fewer (refl.setPort _)
  case claimLost => exact fewer ((refl.setPort _).trans (State.claimReturned_fewer _ _))
  case claimLostTo =>
    exact fewer (((refl.setPort _).trans (State.claimReturned_fewer _ _)).trans (State.settleDue_step _).fewer)
  case noticeLost | noticeBroken | noticeSent => exact fewer ((refl.setPort _).setNotices _)
  case claimBroken => exact fewer ((s.claimReturned_fewer _).trans (State.stopClaim_fewer _))
  case claimWon b _ _ hb =>
    exact State.claimWonBy_tagsLawful ((refl.setPort _).tagsLawful hs) (List.mem_of_find?_eq_some hb)
  case claimHeard =>
    exact fewer (((((refl.setPort _).trans (State.dropBid_fewer _ _)).trans (State.retire_fewer _ _ _)).trans
      (State.hear_fewer _ _)).trans (State.settleDue_step _).fewer).finish
  case note n _ _ => exact State.noteTaken_tagsLawful hs n
  case endVoice hv =>
    rw [← State.voice_tag hv] at hv
    exact fewer (s.endVoice_fewer _ _ _ _ hv).finish
  case endBid => exact fewer (s.dropBid_fewer _).finish
  case endNone | rateNone => exact fewer s.finish_fewer
  case rateVoice =>
    exact fewer (s.rated_fewer _ _ _).finish
  case rateBid b _ _ target _ _ =>
    have h1 : Fewer s (s.updateBid b.tag fun b => { b with rate := clampRate target.toNat }) :=
      s.updateBid_fewer _ fun _ => rfl
    exact fewer h1.finish
  case follow => exact fewer (s.followTaken_fewer _ _ _ _)
  case unfollow => exact fewer (s.unfollowTaken_fewer _)
  case halt =>
    exact fewer (((((s.retireAll_fewer .halted).trans (State.dropBids_fewer _)).setWatches _).setTimebase _).notice
      _ _).finish
  case timebase =>
    unfold State.timebaseTaken
    split
    · exact fewer (refl.setTimebase _)
    · exact hs
  case probe =>
    unfold State.probeTaken
    split
    · exact fewer (refl.notice _ _)
    · exact hs
  case install => exact fewer (s.installTaken_fewer _)
  case reclaim => exact fewer (s.reclaimTaken_fewer _ _)
  case wipe => exact fewer (s.wipeTaken_fewer _)
  case configure =>
    unfold State.configureTested
    split
    · exact fewer (refl.notice _ _)
    · split
      · exact fewer (refl.notice _ _)
      · exact fewer (((refl.setTimebase _).setWatches _).setStation _)
  case bidExpires => exact fewer (s.dropBid_fewer _)
  case bidCloses tag _ _ =>
    have h1 : Fewer s (s.updateBid tag.toNat fun b => { b with window := .closed }) :=
      s.updateBid_fewer _ fun _ => rfl
    exact fewer h1
  case watchDeferred => exact fewer (refl.setWatches _)
  case watchDecided => exact fewer (State.decideWatch_step _ _).fewer.finish
  case segmentRead a _ d bad _ =>
    have h1 : Fewer s (s.readOutcome d a bad) := .of_eq ((s.readOutcome_keeps (a := true) (b := true) d _ _).voices rfl)
      (congrArg ClaimUnit.bids (s.readOutcome_step d _ _).claims)
    exact fewer (h1.trans (State.readEnded_step _ d).installStep.fewer).finish
  case programEnds | eraseEnds | completed => exact fewer (State.longOpResult_step s _ _ _).fewer.finish
  case suspended d _ =>
    exact fewer ((s.setDieState_step d _).trans (State.serviceDecision_step _ d)).installStep.fewer.finish
  case holdOff d => exact fewer (s.suspendTest_step d).installStep.fewer.finish
  case posting => exact fewer (s.postingEnded_fewer _).finish
  case linkUp => exact fewer (refl.setDelivery _)
  case linkLost => exact fewer s.linkLost_fewer
  case pageRead =>
    exact fewer (((refl.setDelivery _).setInstaller _).trans (State.enterProgramming_step _ _).fewer).finish
  case readFails | readTimesOut =>
    exact fewer ((refl.setDelivery _).trans (State.installFails_step _ _ _).fewer).finish

/-- Settles O53: every effect but a won claim and a NOTE is `Fewer`, and those two find the tag free. -/
theorem stepsKeepTagsApart : Obligations.StepsKeepTagsApart := fun _ _ hs h =>
  step_keeps (P := State.tagsLawful) (fun _ _ => id) (fun hu => hu.fewer.tagsLawful) Effect.tagsLawful hs h

end Sys2Proof.Machine
end

