-- ==== Sys2Proof/Proofs/Flash.lean ====
section
/-! SUPPORT. The flash array's cell list and the programs turned away (O59). -/

namespace Sys2Proof.Machine

theorem State.flashLawful_congr {s t : State} (h : t.media.flash = s.media.flash) (hs : s.flashLawful) :
    t.flashLawful := by
  unfold State.flashLawful
  rwa [h]

theorem State.scramble_flashLawful {s : State} (h : s.flashLawful) (first count : Nat) (cause : UnknownCause) :
    (s.scramble first count cause).flashLawful := Flash.scramble_wf _ _ _ _ _ h

theorem State.abandonLongOps_flashLawful (l : List Nat) : ∀ s : State, s.flashLawful →
    (l.foldl State.abandonLongOp s).flashLawful := by
  induction l with
  | nil => exact fun _ h => h
  | cons d l ih =>
    intro s h
    refine ih _ ?_
    unfold State.abandonLongOp
    split
    · exact State.scramble_flashLawful h _ _ _
    · exact h

theorem State.resetOver_flashLawful (number stamp : Nat) {flash : Flash} (pending : List Instr)
    (h : Memory.wf flash.cells) : ((State.resetOver number flash stamp).setPending pending).flashLawful := h

theorem State.longOpResult_flashLawful {s : State} (h : s.flashLawful) (d : Nat) (op : LongOp) (ok : Bool) :
    (s.longOpResult d op ok).flashLawful := by
  cases op with
  | program p =>
    have h1 : ((s.setFront d p.block (p.page * 48 + p.first + p.count)).programFlash d p ok).flashLawful := by
      unfold State.programFlash
      dsimp only
      split
      · exact Flash.program_wf _ _ _ _ h
      · exact State.scramble_flashLawful (s := s.setFront _ _ _) h _ _ _
    exact State.flashLawful_congr
      ((State.becomeIdle_die _ d).flash.trans (State.handOn_installs _ d p ok).steady.flash) h1
  | erase b =>
    have h1 : ((s.setFront d b 0).eraseFlash d b ok).flashLawful := by
      unfold State.eraseFlash
      split
      · exact Flash.erase_wf _ _ _ h
      · exact State.scramble_flashLawful (s := s.setFront _ _ _) h _ _ _
    exact State.flashLawful_congr ((State.becomeIdle_die _ d).flash.trans
      ((State.eraseTold_installs _ d _ ok).steady.flash.trans (State.blockErased_installs _ d b ok).steady.flash)) h1

theorem Effect.flashLawful {s t : State} {c : Instr} (h : Effect s c t) (hs : s.flashLawful) : t.flashLawful := by
  cases hc : setsFlash c with
  | false => exact State.flashLawful_congr (h.flash hc) hs
  | true =>
    have finish {u : State} (hu : u.flashLawful) : u.finish.flashLawful :=
      State.flashLawful_congr u.finish_steady.flash hu
    cases h with
    | nothing => exact hs
    | reset => exact State.resetOver_flashLawful _ _ _ (State.abandonLongOps_flashLawful dieNumbers s hs)
    | programEnds t d ok => exact finish (State.longOpResult_flashLawful hs d _ ok)
    | eraseEnds t d ok => exact finish (State.longOpResult_flashLawful hs d _ ok)
    | completed t d ok => exact finish (State.longOpResult_flashLawful hs d _ ok)
    | suspended t d hd => exact finish (State.flashLawful_congr (State.suspended_steady hd).flash hs)
    | _ => cases hc

/-! ### Programs turned away -/

theorem State.settleFronts_settled (n : Nat) : ∀ s : State, (State.settleFronts n s).settled := by
  induction n with
  | zero => exact fun _ => rfl
  | succ n ih =>
    intro s
    unfold State.settleFronts
    split
    next h => exact h
    next => exact ih _

/-- The close of a step leaves no failure to be handed on (R102). -/
theorem State.finish_isSettled (s : State) : s.finish.settled := by
  have h : s.settleFront.settled := State.settleFronts_settled 8 s
  rw [State.settled, State.finish, (State.offer_step _).media]
  exact h

theorem State.settled_congr {s t : State} (h : t.media = s.media) (hs : s.settled) : t.settled := by
  rw [State.settled, h]
  exact hs

theorem State.claimReturned_media (s : State) (tag : Nat) : (s.claimReturned tag).media = s.media := by
  unfold State.claimReturned
  split
  · rfl
  · split
    · rfl
    · exact (s.dropBid_step tag).2.2.2.2.2.2.1

theorem Effect.settled {s t : State} {c : Instr} (h : Effect s c t) (hs : s.settled) : t.settled := by
  cases h
  case nothing => exact hs
  case reset => rfl
  case driveEnd | lineRise | pulse | frameBegins | noticeLost | noticeBroken | noticeSent | claimGone | bidCloses
    | watchDeferred | linkUp => exact hs
  case claimLost => exact State.settled_congr (State.claimReturned_media _ _) hs
  case claimLostTo =>
    exact State.settled_congr ((State.settleDue_step _).media.trans (State.claimReturned_media _ _)) hs
  case claimBroken =>
    exact State.settled_congr ((State.stopClaim_step _).media.trans (State.claimReturned_media s _)) hs
  case follow =>
    unfold State.followTaken
    split
    · exact hs
    · exact hs
  case unfollow =>
    unfold State.unfollowTaken
    split
    · exact hs
    · exact hs
  case timebase =>
    unfold State.timebaseTaken
    split
    · exact hs
    · exact hs
  case probe =>
    unfold State.probeTaken
    split
    · exact hs
    · exact hs
  case configure =>
    unfold State.configureTested
    split
    · exact hs
    · split
      · exact hs
      · exact hs
  case bidExpires => exact State.settled_congr (s.dropBid_step _).2.2.2.2.2.2.1 hs
  all_goals exact State.finish_isSettled _

/-- Settles O59: the flash array changes only by programs, erases and contents becoming unknown, each of which keeps the
canonical form; a step that can turn a program away closes with `finish`, which hands every failure on. -/
theorem stepsKeepTheFlash : Obligations.StepsKeepTheFlash := by
  intro s t hf hs h
  refine ⟨?_, ?_⟩
  · exact step_keeps (P := State.flashLawful) (fun _ _ => id)
      (fun hu => State.flashLawful_congr hu.steady.flash) Effect.flashLawful hf h
  · refine step_keeps (P := State.settled) (fun _ _ => id) (fun hu hp => ?_) Effect.settled hs h
    cases hu with
    | clock t => exact hp
    | ended t _ => exact State.settled_congr (State.ended_step _).media hp

end Sys2Proof.Machine
end

