-- ==== Sys2Proof/Proofs/Bus.lean ====
section
/-! SUPPORT. The port and the SENDING entry (O58): frames are on a RECEIVING port only, and an entry is SENDING only
while its CLAIM is the frame driven. -/

namespace Sys2Proof.Machine

/-- No entry is SENDING. -/
def State.AllWaiting (s : State) : Prop := ∀ b ∈ s.claims.bids, b.offer ≠ .sending

/-- The tags of the bid entries are distinct. -/
def State.BidsApart (s : State) : Prop := (s.claims.bids.map (·.tag)).Nodup

theorem State.portLawful.apart {s : State} (h : s.portLawful) : s.BidsApart := h.2.2.2

/-- A SENDING entry has the tag of the CLAIM driven. -/
theorem State.portLawful.driven {s : State} (h : s.portLawful) {b : Bid} (hb : b ∈ s.claims.bids)
    (ho : b.offer = .sending) : ∃ f, s.port.sending = some (.claim b.tag f) := h.2.2.1 b hb ho

theorem State.portLawful.waiting {s : State} (h : s.portLawful)
    (hn : ∀ tag f, s.port.sending ≠ some (.claim tag f)) : s.AllWaiting := fun b hb ho => by
  obtain ⟨f, hf⟩ := h.driven hb ho
  exact hn _ f hf

theorem State.portLawful.waiting_of_silent {s : State} (h : s.portLawful) (hn : s.port.sending = none) :
    s.AllWaiting := h.waiting fun tag f hf => by rw [hn] at hf; cases hf

/-- With no frame driven the port is lawful when no entry is SENDING and other stations' frame is on a RECEIVING port. -/
theorem State.portLawful_silent {s : State} (hs : s.port.sending = none)
    (hr : s.port.rival.isSome → ∃ kind, s.port.bus = .receiving kind) (hw : s.AllWaiting) (hn : s.BidsApart) :
    s.portLawful :=
  ⟨(fun h => by rw [hs] at h; cases h), hr, fun b hb ho => absurd ho (hw b hb), hn⟩

/-! ### What leaves the port alone -/

/-- From `s` to `t` the port is as it was, no entry has become SENDING, and the entries' tags are still distinct. -/
structure Quiet (s t : State) : Prop where
  port    : t.port = s.port
  sending : ∀ b ∈ t.claims.bids, b.offer = .sending → ∃ c ∈ s.claims.bids, c.tag = b.tag ∧ c.offer = .sending
  apart   : s.BidsApart → t.BidsApart

theorem Quiet.refl (s : State) : Quiet s s := ⟨rfl, fun b hb ho => ⟨b, hb, rfl, ho⟩, id⟩

theorem Quiet.trans {s t u : State} (a : Quiet s t) (b : Quiet t u) : Quiet s u := by
  refine ⟨b.port.trans a.port, fun x hx ho => ?_, b.apart ∘ a.apart⟩
  obtain ⟨y, hy, hyx, hyo⟩ := b.sending x hx ho
  obtain ⟨z, hz, hzy, hzo⟩ := a.sending y hy hyo
  exact ⟨z, hz, hzy.trans hyx, hzo⟩

theorem Quiet.of_eq {s t : State} (hp : t.port = s.port) (hb : t.claims.bids = s.claims.bids) : Quiet s t :=
  ⟨hp, fun b h ho => ⟨b, hb ▸ h, rfl, ho⟩, by unfold State.BidsApart; rw [hb]; exact id⟩

theorem Quiet.portLawful {s t : State} (h : Quiet s t) (hs : s.portLawful) : t.portLawful := by
  refine ⟨by rw [h.port]; exact hs.1, by rw [h.port]; exact hs.2.1, fun b hb ho => ?_, h.apart hs.apart⟩
  obtain ⟨c, hc, htag, hco⟩ := h.sending b hb ho
  obtain ⟨f, hf⟩ := hs.driven hc hco
  exact ⟨f, by rw [h.port, hf, htag]⟩

theorem Quiet.waiting {s t : State} (h : Quiet s t) (hs : s.AllWaiting) : t.AllWaiting := fun b hb ho => by
  obtain ⟨c, hc, -, hco⟩ := h.sending b hb ho
  exact hs c hc hco

theorem InstallStep.quiet {s t : State} (h : InstallStep s t) : Quiet s t := .of_eq h.port (by rw [h.claims])

theorem VoiceStep.quiet {s t : State} (h : VoiceStep s t) : Quiet s t := .of_eq h.port (by rw [h.claims])

theorem WatchStep.quiet {s t : State} (h : WatchStep s t) : Quiet s t := .of_eq h.port h.bids

section Updates
variable {s t : State} (h : Quiet s t)
include h

theorem Quiet.setTimebase (x : Timebase) : Quiet s (t.setTimebase x) := h.trans (.of_eq rfl rfl)

theorem Quiet.setVoices (x : List Voice) : Quiet s (t.setVoices x) := h.trans (.of_eq rfl rfl)

theorem Quiet.setCatalogue (x : Catalogue) : Quiet s (t.setCatalogue x) := h.trans (.of_eq rfl rfl)

theorem Quiet.setStation (x : Station) : Quiet s (t.setStation x) := h.trans (.of_eq rfl rfl)

theorem Quiet.setDelivery (x : DeliveryEngine) : Quiet s (t.setDelivery x) := h.trans (.of_eq rfl rfl)

theorem Quiet.setInstaller (x : Installer) : Quiet s (t.setInstaller x) := h.trans (.of_eq rfl rfl)

theorem Quiet.setNotices (x : NoticeQueue) : Quiet s (t.setNotices x) := h.trans (.of_eq rfl rfl)

theorem Quiet.setWatches (x : List Watch) : Quiet s (t.setWatches x) := h.trans (.of_eq rfl rfl)

theorem Quiet.notice (addressee : Nat) (body : NoticeBody) : Quiet s (t.queueNotice addressee body) :=
  h.trans (.of_eq rfl rfl)

theorem Quiet.hear (tag : Nat) : Quiet s (t.hear tag) := h.trans (.of_eq rfl rfl)

end Updates

theorem State.filterBids_quiet (s : State) (p : Bid → Bool) : Quiet s (s.setBids (s.claims.bids.filter p)) :=
  ⟨rfl, fun b hb ho => ⟨b, (List.mem_filter.1 hb).1, rfl, ho⟩, fun h => (List.filter_sublist.map _).nodup h⟩

theorem State.dropBid_quiet (s : State) (tag : Nat) : Quiet s (s.dropBid tag) := by
  unfold State.dropBid
  split
  · exact Quiet.refl s
  · exact (s.filterBids_quiet _).setCatalogue _

theorem State.dropBids_bids (s : State) : s.dropBids.claims.bids = [] := by
  rw [State.dropBids, (State.releaseUses_step _ _).claims]
  rfl

theorem State.dropBids_quiet (s : State) : Quiet s s.dropBids := by
  refine ⟨(State.releaseUses_step _ _).port, fun b hb => ?_, fun _ => ?_⟩
  · rw [State.dropBids_bids] at hb
    cases hb
  · unfold State.BidsApart
    rw [State.dropBids_bids]
    exact .nil

theorem State.updateBid_apart {s : State} (h : s.BidsApart) (tag : Nat) {f : Bid → Bid}
    (ht : ∀ b, (f b).tag = b.tag) : (s.updateBid tag f).BidsApart := by
  unfold State.BidsApart State.updateBid State.setBids
  rw [State.setClaims_claims, updateFirst_map _ _ _ ht]
  exact h

theorem State.updateBid_quiet (s : State) (tag : Nat) {f : Bid → Bid} (ht : ∀ b, (f b).tag = b.tag)
    (ho : ∀ b, (f b).offer = .sending → b.offer = .sending) : Quiet s (s.updateBid tag f) := by
  refine ⟨rfl, fun b hb hs => ?_, fun h => State.updateBid_apart h tag ht⟩
  rcases mem_updateFirst _ _ _ _ hb with hb | ⟨c, hc, -, rfl⟩
  · exact ⟨b, hb, rfl, hs⟩
  · exact ⟨c, hc, (ht c).symm, ho c hs⟩

/-- The entry of a CLAIM that stops is WAITING again or gone, so none is SENDING (R133). -/
theorem State.claimReturned_waiting {s : State} {tag : Nat} (hn : s.BidsApart)
    (h : ∀ b ∈ s.claims.bids, b.offer = .sending → b.tag = tag) : (s.claimReturned tag).AllWaiting := by
  unfold State.claimReturned
  split
  next hb =>
    intro b hm ho
    exact absurd (h b hm ho) (by simpa using List.find?_eq_none.1 hb b hm)
  next x hx =>
    split
    · intro b hm ho
      rw [State.updateBid, State.setBids, State.setClaims_claims, updateFirst_eq_map (fun c : Bid => c.tag) tag _ _ hn] at hm
      obtain ⟨c, hc, rfl⟩ := List.mem_map.1 hm
      split at ho
      · cases ho
      next hne => exact hne (h c hc ho)
    · intro b hm ho
      rw [State.dropBid_bids] at hm
      obtain ⟨hm, hne⟩ := List.mem_filter.1 hm
      exact absurd (h b hm ho) (by simpa using hne)

theorem State.claimReturned_quiet (s : State) (tag : Nat) : Quiet s (s.claimReturned tag) := by
  unfold State.claimReturned
  split
  · exact Quiet.refl s
  · split
    · exact s.updateBid_quiet tag (fun _ => rfl) fun _ h => by cases h
    · exact s.dropBid_quiet tag

/-! ### The offer choice -/

theorem State.beginClaim_portLawful {s : State} (hs : s.portLawful) (hw : s.AllWaiting) (b : Bid) :
    (s.beginClaim b).portLawful := by
  refine ⟨fun _ => ⟨_, rfl⟩, fun _ => ⟨_, rfl⟩, fun c hc ho => ?_,
    State.updateBid_apart (f := fun b => { b with offer := .sending }) hs.apart b.tag fun _ => rfl⟩
  rcases mem_updateFirst _ _ _ _ hc with hc | ⟨x, -, hx, rfl⟩
  · exact absurd ho (hw c hc)
  · exact ⟨_, by rw [show x.tag = b.tag from by simpa using hx]; rfl⟩

theorem State.offer_portLawful {s : State} (hs : s.portLawful) : s.offer.portLawful := by
  unfold State.offer
  split
  next hm =>
    have hsilent : s.port.sending = none := by
      simp only [Port.mayBegin, Bool.and_eq_true, Option.isNone_iff_eq_none] at hm
      exact hm.1
    have hw := hs.waiting_of_silent hsilent
    split
    · exact State.beginClaim_portLawful hs hw _
    · exact ⟨fun _ => ⟨_, rfl⟩, fun _ => ⟨_, rfl⟩, fun c hc ho => absurd ho (hw c hc), hs.apart⟩
    · exact hs
  next => exact hs

theorem State.finish_portLawful {s : State} (hs : s.portLawful) : s.finish.portLawful := by
  have h : Quiet s s.settleFront.recomputeReady := s.settleFront_step.quiet.setTimebase _
  exact State.offer_portLawful (h.portLawful hs)

/-! ### Voices -/

theorem State.retire_quiet (s : State) (g : Nat) (reason : RetireReason) : Quiet s (s.retire g reason) :=
  (s.retire_step g reason).quiet

theorem State.tickEvent_quiet (s : State) (order : List (BitVec 12)) : Quiet s (s.tickEvent order) := by
  have h0 : Quiet s (s.setTimebase { s.timebase with tick := nextTick s.timebase.tick }) := (Quiet.refl s).setTimebase _
  have h1 := h0.trans (VoiceStep.foldl _ State.tickVoice_step (tickOrder order s.voices) _).quiet
  unfold State.tickEvent
  dsimp only
  split
  · exact ((h1.trans (State.recomputeHeld_step _).quiet).setTimebase _).trans
      (State.suspendTests_step _).installStep.quiet
  · exact (h1.setTimebase _).trans (State.suspendTests_step _).installStep.quiet

theorem State.standIn_quiet (s : State) (at_ : Nat) (order : List (BitVec 12)) : Quiet s (s.standIn at_ order) := by
  have h0 : Quiet s (s.setTimebase { s.timebase with reference := some at_, standIn := s.timebase.standIn + 1 }) :=
    (Quiet.refl s).setTimebase _
  have h := h0.trans (State.tickEvent_quiet _ order)
  unfold State.standIn
  dsimp only
  split
  · exact (h.setTimebase _).notice _ _
  · exact h

theorem State.edge_quiet (s : State) (rate : SessionRate) (t : Nat) (order : List (BitVec 12)) :
    Quiet s (s.edge rate t order) := by
  unfold State.edge
  split
  · exact Quiet.refl s
  · unfold State.fallbackEdge State.lock
    dsimp only
    split
    · exact (Quiet.refl s).setTimebase _
    · split
      · exact (((Quiet.refl s).setTimebase _).trans (State.tickEvent_quiet _ order)).notice _ _
      · exact ((Quiet.refl s).setTimebase _).notice _ _
  · unfold State.externalEdge
    split
    · exact Quiet.refl s
    · split
      · exact ((Quiet.refl s).setTimebase _).trans (State.tickEvent_quiet _ order)
      · exact Quiet.refl s

theorem State.downbeat_quiet (s : State) : Quiet s s.downbeat := by
  have h : Quiet s s.applyLoad := by
    unfold State.applyLoad
    split
    · exact Quiet.refl s
    · exact ((Quiet.refl s).setTimebase _).setVoices _
  exact (h.setVoices _).trans (State.syncReads_step _).installStep.quiet

theorem State.endVoice_quiet (s : State) (v : Voice) (mode : EndMode) (atTick : Option Nat) (sender : Nat) :
    Quiet s (s.endVoice v mode atTick sender) := by
  have hold (mode : CutOrFade) : Quiet s (s.endOrHold v mode atTick sender) := by
    unfold State.endOrHold
    split
    · split
      · exact (Quiet.refl s).setVoices _
      · exact (s.applyEnd_step v mode sender).quiet
    · exact (s.applyEnd_step v mode sender).quiet
  unfold State.endVoice
  split
  · exact (Quiet.refl s).setVoices _
  · exact hold _
  · exact hold _

/-! ### Bid entries, the library and the scan -/

theorem State.homeWatch_quiet (s : State) (n : NoteFields) : Quiet s (s.homeWatch n) := by
  have hdrop : Quiet s (s.dropWatch n.tag) := (Quiet.refl s).setWatches _
  unfold State.homeWatch State.startWatch
  split
  · split
    · split
      · dsimp only
        split
        · exact hdrop.setWatches _
        · exact hdrop
      · exact hdrop.notice _ _
    · exact hdrop
  · exact hdrop

theorem State.homeWatch_bids (s : State) (n : NoteFields) : (s.homeWatch n).claims.bids = s.claims.bids := by
  unfold State.homeWatch State.startWatch
  split
  · split
    · split
      · dsimp only
        split
        · rfl
        · rfl
      · rfl
    · rfl
  · rfl

/-- A new entry is WAITING. -/
theorem State.makeBid_portLawful {s : State} {n : NoteFields} (hs : s.portLawful)
    (hn : ∀ b ∈ s.claims.bids, b.tag ≠ n.tag) : (s.makeBid n).portLawful := by
  unfold State.makeBid
  split
  · refine ⟨hs.1, hs.2.1, fun b hb ho => ?_, ?_⟩
    · rcases List.mem_append.1 hb with hb | hb
      · exact hs.driven hb ho
      · rw [List.mem_singleton.1 hb] at ho
        cases ho
    · show ((s.claims.bids ++ [n.bid s.timebase.tick s.clock]).map (·.tag)).Nodup
      rw [List.map_append, List.nodup_append]
      refine ⟨hs.apart, by simp, fun a ha c hc heq => ?_⟩
      obtain ⟨b, hb, rfl⟩ := List.mem_map.1 ha
      rw [List.map_singleton, List.mem_singleton] at hc
      exact hn b hb (heq.trans hc)
  · exact hs

theorem State.noteTaken_portLawful {s : State} (hs : s.portLawful) (n : NoteFields) : (s.noteTaken n).portLawful := by
  have h1 : Quiet s ((s.retire n.tag .superseded).dropBid n.tag) :=
    (s.retire_quiet n.tag .superseded).trans (State.dropBid_quiet _ _)
  have h2 := h1.trans (State.homeWatch_quiet _ n)
  have hbids : ((s.retire n.tag .superseded).dropBid n.tag |>.homeWatch n).claims.bids =
      (s.retire n.tag .superseded).claims.bids.filter (·.tag != n.tag) := by
    rw [State.homeWatch_bids, State.dropBid_bids]
  refine State.finish_portLawful (State.makeBid_portLawful (h2.portLawful hs) fun b hb => ?_)
  rw [hbids] at hb
  simpa using (List.mem_filter.1 hb).2

theorem State.logSectorRead_quiet (s : State) (x : Scan) (bad : Bool) : Quiet s (s.logSectorRead x bad) := by
  have ends (u : State) (appendPos skipped : Nat) : Quiet u ((u.endScan appendPos skipped).becomeIdle 0) := by
    have media (u : State) (x : Media) : Quiet u (u.setMedia x) := .of_eq rfl rfl
    unfold State.endScan
    exact ((((((Quiet.refl u).setCatalogue _).trans (media _ _)).trans
      (MediaStep.foldl _ State.queueErasesOn_step _ _).installStep.quiet).notice _ _).setStation _).trans
      (State.becomeIdle_step _ 0).installStep.quiet
  have goesOn (u : State) : Quiet u u.continueScan := by
    unfold State.continueScan
    split
    · exact Quiet.refl u
    · split
      · exact (State.setDieState_step u 0 _).installStep.quiet
      · exact ends u _ _
  unfold State.logSectorRead
  split
  · exact ends s _ _
  · rw [State.classify_eq]
    exact ((Quiet.refl s).setCatalogue _).trans (goesOn _)

/-! ### Effects -/

theorem State.silent_of_quietBus {s : State} (hs : s.portLawful) (h : ∀ kind, s.port.bus ≠ .receiving kind) :
    s.port.sending = none := by
  cases hp : s.port.sending with
  | none => rfl
  | some x =>
    obtain ⟨kind, hk⟩ := hs.1 (by rw [hp]; rfl)
    exact absurd hk (h kind)

theorem State.assembling_silent {s : State} (h : s.assembling = true) : s.port.sending = none := by
  simp only [State.assembling, Bool.and_eq_true, Option.isNone_iff_eq_none] at h
  exact h.2

/-- The port once a received frame has ended. -/
theorem State.endFrame_portLawful {s : State} (hs : s.portLawful) (h : s.assembling = true) : s.endFrame.portLawful :=
  State.portLawful_silent (s := s.endFrame) (State.assembling_silent (s := s) h) nofun
    (hs.waiting_of_silent (State.assembling_silent h)) hs.apart

theorem Starts.portLawful {s u : State} (h : Starts s u) (hs : s.portLawful) : u.portLawful := by
  cases h with
  | clock t => exact hs
  | ended t h => exact (State.settleDue_step _).quiet.portLawful (State.endFrame_portLawful (s := s.atTime t) hs h)

/-- Another station's frame begins on the IDLE bus, or joins one under way (R111, R114). -/
theorem Port.frameBegun_receiving (p : Port) (kind at_ : Nat) :
    (p.frameBegun kind at_).sending = p.sending ∧ ((∃ k, (p.frameBegun kind at_).bus = .receiving k) ∨
      p.frameBegun kind at_ = p) := by
  unfold Port.frameBegun
  split
  · exact ⟨rfl, .inl ⟨_, rfl⟩⟩
  · exact ⟨rfl, .inl ⟨_, rfl⟩⟩
  · split
    · exact ⟨rfl, .inl ⟨_, rfl⟩⟩
    · exact ⟨rfl, .inr rfl⟩
  · exact ⟨rfl, .inr rfl⟩
  · exact ⟨rfl, .inr rfl⟩

theorem State.frameBegins_portLawful {s : State} (hs : s.portLawful) (kind at_ : Nat) :
    (s.setPort (s.port.frameBegun kind at_)).portLawful := by
  obtain ⟨hsend, ⟨k, hk⟩ | heq⟩ := s.port.frameBegun_receiving kind at_
  · exact ⟨fun _ => ⟨k, hk⟩, fun _ => ⟨k, hk⟩, fun b hb ho => by
      rw [State.setPort_port, hsend]
      exact hs.driven hb ho, hs.apart⟩
  · rw [heq]
    exact hs

/-- The port once the station's frame has stopped (R115 to R118). -/
theorem State.setPort_silent {s : State} (hw : s.AllWaiting) (hn : s.BidsApart) {x : Port} (hx : x.sending = none)
    (hr : x.rival = none) : (s.setPort x).portLawful :=
  State.portLawful_silent hx (by rw [State.setPort_port, hr]; nofun) hw hn

theorem State.portLawful.waiting_of_notice {s : State} (h : s.portLawful) {f : Frame}
    (hp : s.port.sending = some (.notice f)) : s.AllWaiting := h.waiting fun tag g hg => by rw [hp] at hg; cases hg

/-- With a CLAIM driven the SENDING entry is the one of its tag. -/
theorem State.portLawful.tag_of_claim {s : State} (h : s.portLawful) {tag : Nat} {f : Frame}
    (hp : s.port.sending = some (.claim tag f)) : ∀ b ∈ s.claims.bids, b.offer = .sending → b.tag = tag :=
  fun b hb ho => by
    obtain ⟨g, hg⟩ := h.driven hb ho
    rw [hp] at hg
    cases hg
    rfl

theorem State.linkLostInstall_quiet (s : State) : Quiet s s.linkLostInstall := by
  have fails (i : InstallItem) :
      Quiet s ((s.setInstaller { s.installer with held := s.pageUnderWay }).installFails i .linkDown) :=
    ((Quiet.refl s).setInstaller _).trans (State.installFails_step _ i .linkDown).quiet
  unfold State.linkLostInstall
  split
  · dsimp only
    split
    · exact Quiet.refl s
    · exact fails _
    · exact fails _
    · exact fails _
    · split
      · exact Quiet.refl s
      · exact fails _
  · exact Quiet.refl s

/-- The port once the CLAIM of a tag is off the bus, its entry WAITING again or gone (R115, R116, R133). -/
theorem State.claimReturned_portLawful {s : State} {tag : Nat} {f : Frame} (hs : s.portLawful)
    (hp : s.port.sending = some (.claim tag f)) {x : Port} (hx : x.sending = none) (hr : x.rival = none) :
    ((s.setPort x).claimReturned tag).portLawful := by
  have h := State.claimReturned_quiet (s.setPort x) tag
  have hw : ((s.setPort x).claimReturned tag).AllWaiting :=
    State.claimReturned_waiting (s := s.setPort x) hs.apart (hs.tag_of_claim hp)
  refine State.portLawful_silent (by rw [h.port]; exact hx) ?_ hw (h.apart hs.apart)
  rw [h.port, State.setPort_port, hr]
  nofun

theorem State.stopClaim_portLawful {s : State} (hw : s.AllWaiting) (hn : s.BidsApart) : s.stopClaim.portLawful :=
  (State.stopClaim_step s).quiet.portLawful (State.setPort_silent hw hn rfl rfl)

theorem State.claimWonBy_portLawful {s : State} {b : Bid} (hx : s.port.sending = none) (hr : s.port.rival = none)
    (hn : s.BidsApart) (h : ∀ c ∈ s.claims.bids, c.offer = .sending → c.tag = b.tag) :
    (s.claimWonBy b).portLawful := by
  have hdrop : (s.setBids (s.claims.bids.filter (·.tag != b.tag))).portLawful := by
    refine State.portLawful_silent hx (by rw [State.setBids, State.setClaims_port, hr]; nofun) (fun c hc ho => ?_)
      ((s.filterBids_quiet _).apart hn)
    obtain ⟨hc, hne⟩ := List.mem_filter.1 hc
    exact absurd (h c hc ho) (by simpa using hne)
  exact State.finish_portLawful ((((State.createVoice_step _ b).quiet.hear b.tag).trans
    (State.settleDue_step _).quiet).portLawful hdrop)

theorem State.haltTaken_portLawful {s : State} (hs : s.portLawful) (sender : Nat) :
    (s.haltTaken sender).portLawful := by
  have h1 := (s.retireAll_step .halted).quiet.portLawful hs
  have h2 := ((((State.dropBids_quiet (s.retireAll .halted)).setWatches []).setTimebase
    { s.timebase with load := none, drive := none }).notice sender (.halted s.voices.length)).portLawful h1
  exact State.finish_portLawful h2

theorem State.linkLost_portLawful {s : State} (hs : s.portLawful) : s.linkLost.portLawful := by
  have h1 : Quiet s (s.setDelivery { link := .down, queue := [], posting := none, installRead := none }) :=
    (Quiet.refl s).setDelivery _
  have h2 := ((h1.trans (State.retireAll_step _ .link).quiet).trans
    (State.freeBuffers_step (s.delivery.queue.length + if s.delivery.posting.isSome then 1 else 0)
      _).installStep.quiet).portLawful hs
  unfold State.linkLost
  dsimp only
  generalize (State.freeBuffers (State.retireAll _ .link) _) = u at h2 ⊢
  have h3 : u.dropBids.portLawful := u.dropBids_quiet.portLawful h2
  have h4 : u.dropBids.abandonClaim.portLawful := by
    unfold State.abandonClaim
    split
    · refine State.stopClaim_portLawful (fun b hb => ?_) h3.apart
      rw [State.dropBids_bids] at hb
      cases hb
    · exact h3
    · exact h3
  have h5 : Quiet u.dropBids.abandonClaim u.dropBids.abandonClaim.settleFront.linkLostInstall :=
    (State.settleFront_step _).quiet.trans (State.linkLostInstall_quiet _)
  exact State.finish_portLawful (h5.portLawful h4)

theorem Effect.portLawful {s t : State} {c : Instr} (h : Effect s c t) (hs : s.portLawful) : t.portLawful := by
  have refl := Quiet.refl s
  have quiet {u : State} (hu : Quiet s u) : u.portLawful := hu.portLawful hs
  have finish {u : State} (hu : Quiet s u) : u.finish.portLawful := State.finish_portLawful (hu.portLawful hs)
  cases h
  case nothing => exact hs
  case reset => exact ⟨nofun, nofun, nofun, .nil⟩
  case scan => exact finish (s.logSectorRead_quiet _ _)
  case edge => exact finish (s.edge_quiet _ _ _)
  case divider => exact finish ((refl.setTimebase _).trans (State.tickEvent_quiet _ _))
  case standIn => exact finish (s.standIn_quiet _ _)
  case driveEnd | lineRise | pulse => exact quiet (refl.setTimebase _)
  case downbeat => exact finish ((refl.setTimebase _).trans (State.downbeat_quiet _))
  case busIdle hb =>
    have hsilent : s.port.sending = none := State.silent_of_quietBus hs fun kind hk => by
      rcases hb with hb | hb <;> rw [hb] at hk <;> cases hk
    exact State.finish_portLawful (State.setPort_silent (hs.waiting_of_silent hsilent) hs.apart hsilent rfl)
  case frameBegins => exact State.frameBegins_portLawful hs _ _
  case claimLost hp _ => exact State.claimReturned_portLawful hs hp rfl rfl
  case claimLostTo hp _ =>
    exact (State.settleDue_step _).quiet.portLawful (State.claimReturned_portLawful hs hp rfl rfl)
  case noticeLost hp => exact State.setPort_silent (hs.waiting_of_notice hp) hs.apart rfl rfl
  case noticeBroken hp => exact State.setPort_silent (hs.waiting_of_notice hp) hs.apart rfl rfl
  case noticeSent hp => exact State.setPort_silent (hs.waiting_of_notice hp) hs.apart rfl rfl
  case claimBroken hp =>
    exact State.stopClaim_portLawful (State.claimReturned_waiting hs.apart (hs.tag_of_claim hp))
      ((s.claimReturned_quiet _).apart hs.apart)
  case claimWon tag f b _ hp hb =>
    refine State.claimWonBy_portLawful rfl rfl hs.apart fun c hc ho => ?_
    rw [hs.tag_of_claim hp c hc ho]
    exact (State.bid_tag hb).symm
  case claimGone tag f _ hp hb =>
    refine State.setPort_silent (fun b hm ho => ?_) hs.apart rfl rfl
    exact absurd (hs.tag_of_claim hp b hm ho) (by simpa using List.find?_eq_none.1 hb b hm)
  case claimHeard ha _ =>
    exact State.finish_portLawful (((((State.dropBid_quiet _ _).trans (State.retire_quiet _ _ _)).hear _).trans
      (State.settleDue_step _).quiet).portLawful (State.endFrame_portLawful hs ha))
  case note n _ _ => exact State.noteTaken_portLawful hs n
  case endVoice => exact finish (s.endVoice_quiet _ _ _ _)
  case endBid => exact finish (s.dropBid_quiet _)
  case endNone | rateNone => exact finish refl
  case rateVoice => exact finish ((refl.setVoices _).trans (State.recomputeDry_step _ _).quiet)
  case rateBid b _ _ target _ _ =>
    have h1 : Quiet s (s.updateBid b.tag fun b => { b with rate := clampRate target.toNat }) :=
      s.updateBid_quiet _ (fun _ => rfl) fun _ h => h
    exact finish h1
  case follow =>
    unfold State.followTaken
    split
    · exact quiet (refl.notice _ _)
    · exact quiet ((refl.setVoices _).setCatalogue _)
  case unfollow =>
    unfold State.unfollowTaken
    split
    · exact quiet ((refl.setVoices _).setCatalogue _)
    · exact hs
  case halt => exact State.haltTaken_portLawful hs _
  case timebase =>
    unfold State.timebaseTaken
    split
    · exact quiet (refl.setTimebase _)
    · exact hs
  case probe =>
    unfold State.probeTaken
    split
    · exact quiet (refl.notice _ _)
    · exact hs
  case install =>
    refine State.finish_portLawful ?_
    split
    · exact quiet (refl.notice _ _)
    · exact quiet ((refl.setCatalogue _).trans (State.joinWork_step _ _).quiet)
  case reclaim =>
    refine State.finish_portLawful ?_
    split
    · exact quiet (refl.notice _ _)
    · exact quiet (((refl.setCatalogue _).setCatalogue _).trans (State.joinWork_step _ _).quiet)
  case wipe =>
    refine State.finish_portLawful ?_
    split
    · exact quiet (refl.notice _ _)
    · exact quiet (State.admitWipe_step _ _).quiet
  case configure =>
    unfold State.configureTested
    split
    · exact quiet (refl.notice _ _)
    · split
      · exact quiet (refl.notice _ _)
      · exact quiet (((refl.setTimebase _).setWatches _).setStation _)
  case bidExpires => exact quiet (s.dropBid_quiet _)
  case bidCloses tag _ _ =>
    have h1 : Quiet s (s.updateBid tag.toNat fun b => { b with window := .closed }) :=
      s.updateBid_quiet _ (fun _ => rfl) fun _ h => h
    exact quiet h1
  case watchDeferred => exact quiet (refl.setWatches _)
  case watchDecided => exact finish (State.decideWatch_step _ _).quiet
  case segmentRead a _ d bad _ =>
    exact finish ((s.readOutcome_step d a bad).quiet.trans (State.readEnded_step _ d).installStep.quiet)
  case programEnds | eraseEnds | completed => exact finish (State.longOpResult_step s _ _ _).quiet
  case suspended d _ =>
    exact finish ((s.setDieState_step d _).trans (State.serviceDecision_step _ d)).installStep.quiet
  case holdOff d => exact finish (s.suspendTest_step d).installStep.quiet
  case posting => exact finish (s.postingEnded_step _).quiet
  case linkUp => exact quiet (refl.setDelivery _)
  case linkLost => exact State.linkLost_portLawful hs
  case pageRead =>
    exact finish (((refl.setDelivery _).setInstaller _).trans (State.enterProgramming_step _ _).quiet)
  case readFails | readTimesOut => exact finish ((refl.setDelivery _).trans (State.installFails_step _ _ _).quiet)

/-- Settles O58: the station's own frame begins where a frame may, and a CLAIM that stops has its entry WAITING again
or gone; nothing else touches the port or an entry's offer. -/
theorem stepsKeepThePort : Obligations.StepsKeepThePort := by
  unfold Obligations.StepsKeepThePort
  exact fun s t hs h => step_keeps (P := State.portLawful) (fun _ _ => id) (fun hu => hu.portLawful) Effect.portLawful hs h

end Sys2Proof.Machine
end

