-- ==== Sys2Proof/Proofs/Events.lean ====
section
/-! SUPPORT. The events that move one field, and the frames that end without effect (O11, O13, O15, O16, O18). -/

namespace Sys2Proof.Machine

/-! ### The link, the shared lines and the bus -/

/-- FRAME_BEGINS moves the clock and the port (R111). -/
theorem execFrameBegins_of {s : State} {t : Nat} {kind : BitVec 4} {p : Port}
    (h : s.port.frameBegun kind.toNat (max s.clock t) = p) :
    exec (.frameBegins t kind) s = .next { s with clock := max s.clock t, port := p } := by
  subst h
  rfl

/-- BUS_IDLE acts on a port that is SEEKING or SKIPPING (R111, R114). -/
theorem execBusIdle_of_quiet {s : State} (h : s.port.bus = .seeking ∨ s.port.bus = .skipping) (t : Nat) :
    exec (.busIdle t) s = .next (State.finish { s with
      clock := max s.clock t, port := { s.port with bus := .idle, rival := none } }) := by
  rcases h with hb | hb <;> simp only [exec, execBusIdle, State.atTime, State.setClock_port, hb] <;> rfl

/-- Settles O11: the port's events by the condition of the bus, its rival and the frame driven. -/
theorem lineLinkAndBusEvents : Obligations.LineLinkAndBusEvents := by
  unfold Obligations.LineLinkAndBusEvents
  refine ⟨fun s start hd => ?_, fun s t kind => ⟨rfl, rfl, fun h => execBusIdle_of_quiet h t, ?_, ?_, ?_, ?_, ?_⟩⟩
  · simp only [exec, execDownbeatDriveEnd, hd]
    rfl
  · rintro (hb | ⟨k, hb⟩) <;> simp only [exec, execBusIdle, State.atTime, State.setClock_port, hb] <;> rfl
  · exact fun hb => execFrameBegins_of (by simp only [Port.frameBegun, hb])
  · exact fun k hb hr hs => execFrameBegins_of (by simp only [Port.frameBegun, hb, hr, if_pos hs])
  · exact fun k r hb hr => execFrameBegins_of (by simp only [Port.frameBegun, hb, hr])
  · rintro (hb | hb | ⟨⟨k, hb⟩, hr, hs⟩)
    · exact execFrameBegins_of (by simp only [Port.frameBegun, hb])
    · exact execFrameBegins_of (by simp only [Port.frameBegun, hb])
    · exact execFrameBegins_of (by simp [Port.frameBegun, hb, hr, hs])

/-! ### Frames that end without effect -/

/-- Settles O15: each of the three ends the frame being assembled, and no watch has fallen due. -/
theorem unreceivedFramesHaveNoEffect : Obligations.UnreceivedFramesHaveNoEffect := by
  intro s t hr
  refine ⟨?_, fun f check hf => ?_, fun h payload => ?_⟩
  · show Host.Outcome.next (ite _ _ _) = _
    rw [if_pos (s.receiving_assembling t hr), s.receiving_endFrame t hr]
  · have ha : ((s.atTime t).assembling && !f.accepted (s.atTime t).station.number check) = true := by
      rw [s.receiving_assembling t hr]
      simpa [State.atTime] using hf
    show Host.Outcome.next (ite _ _ _) = _
    rw [if_pos ha, s.receiving_endFrame t hr]
  · show Host.Outcome.next (s.receive t h fun s => s) = _
    unfold State.receive
    rw [if_pos (s.receiving_assembling t hr), s.receiving_endFrame t hr]
    simp only [ite_self]

/-- A received frame whose effect in the state after its end is none, ends without effect. -/
theorem State.receive_idle {s : State} {h : Header} {act : State → State} (hr : s.receiving) (t : Nat)
    (hact : act (s.frameEnded t) = s.frameEnded t) : s.receive t h act = s.frameEnded t := by
  unfold State.receive
  rw [if_pos (s.receiving_assembling t hr), s.receiving_endFrame t hr]
  simp only [hact, ite_self]

/-- The answer of a command that completes. -/
abbrev nextOf (s : State) : Host.Outcome State Fault Refusal := .next s

/-- Settles O16: no other station's frame passes the filter, and each command of the second case tests the station's
state. -/
theorem framesTurnedAwayHaveNoEffect : Obligations.FramesTurnedAwayHaveNoEffect := by
  intro s t k h hr hc
  rcases hc with ⟨h1, h2⟩ | ⟨hst, hk⟩
  · have away (act : State → State) : Host.Outcome.next (s.receive t h act) = nextOf (s.frameEnded t) :=
      congrArg Host.Outcome.next (s.receive_elsewhere t h act hr h1 h2)
    exact ⟨fun _ => away _, fun _ _ _ _ _ _ => away _, fun _ _ _ _ => away _, fun _ _ _ => away _,
      fun _ _ _ => away _, fun _ => away _, fun _ _ _ _ => away _, fun _ _ => away _,
      fun _ _ _ _ _ _ _ => away _, fun _ _ => away _, fun _ _ _ _ _ => away _, fun _ => away _⟩
  · have idle {act : State → State} (hact : act (s.frameEnded t) = s.frameEnded t) :
        Host.Outcome.next (s.receive t h act) = nextOf (s.frameEnded t) :=
      congrArg Host.Outcome.next (State.receive_idle hr t hact)
    have other (n : Nat) (hn : n ∉ [0, 2, 7, 9, 10, 11, 12, 13]) (hkn : k = n) : False := hn (hkn ▸ hk)
    refine ⟨fun _ => idle ?_, fun _ _ _ _ _ _ => idle ?_, fun h => (other 3 (by decide) h).elim,
      fun h => (other 4 (by decide) h).elim, fun h => (other 5 (by decide) h).elim,
      fun h => (other 6 (by decide) h).elim,
      fun _ _ _ _ => idle ?_, fun _ _ => idle ?_, fun _ _ _ _ _ _ _ => idle ?_, fun _ _ => idle ?_,
      fun _ _ _ _ _ => idle ?_, fun _ => idle ?_⟩
    case refine_2 =>
      cases startModeOf _ _ with
      | none => rfl
      | some mode => exact if_neg (by simp [hst])
    case refine_3 => exact if_neg (by simp [hst])
    all_goals simp only [State.frameEnded_station, hst]

/-! ### TIMEBASE -/

/-- A load value counts in a broadcast frame, a drive tick in an addressed one, while it is still to come (R48). -/
theorem Timebase.withLoad_withDrive (b : Timebase) (h : Header) (flags : BitVec 8) (load drive : BitVec 48) :
    (b.withLoad h (loadOf flags load)).withDrive h (driveOf flags drive) =
      if h.addressee = 31#5 then if flags.getLsbD 0 then { b with load := some load.toNat } else b
      else if flags.getLsbD 1 ∧ b.tick < drive.toNat then { b with drive := some drive.toNat } else b := by
  unfold loadOf driveOf
  by_cases ha : h.addressee = 31#5
  · have hdrive (b : Timebase) (x : Option Nat) : b.withDrive h x = b := by cases x <;> simp [Timebase.withDrive, ha]
    rw [hdrive, if_pos ha]
    cases flags.getLsbD 0 <;> simp [Timebase.withLoad, ha]
  · have hload (x : Option Nat) : b.withLoad h x = b := by cases x <;> simp [Timebase.withLoad, ha]
    rw [hload, if_neg ha]
    cases flags.getLsbD 1 <;> simp [Timebase.withDrive, ha]

/-- Settles O13: in CONFIGURED the timebase takes the frame's fields. -/
theorem timebaseFrameSetsLoadOrDrive : Obligations.TimebaseFrameSetsLoadOrDrive := by
  intro s t h flags load drive ht
  show Host.Outcome.next (s.receive t h _) = _
  rw [s.receive_takes t h _ ht, State.timebaseTaken, State.frameEnded_station, State.frameEnded_timebase,
    Timebase.withLoad_withDrive]
  by_cases hc : s.station.state = .configured
  · rw [if_pos hc, if_neg (not_not.2 hc)]
    rfl
  · rw [if_neg hc, if_pos hc]
    rfl

/-! ### The head notice on the bus -/

/-- Settles O18: the queue's three outcomes of its head's frame. -/
theorem noticeOutcomesMoveTheQueue : Obligations.NoticeOutcomesMoveTheQueue := by
  intro s t kind f head rest hs hq folded hfolded
  have hfold : s.notices.foldAddendum = { s.notices with queue := folded :: rest, addendum := none } := by
    subst hfolded
    unfold NoticeQueue.foldAddendum
    cases ha : s.notices.addendum <;> simp [hq]
  refine ⟨?_, ?_, ?_⟩
  · have h : exec (.arbitrationLost t kind) s =
        .next (((s.atTime t).setPort { bus := .receiving kind.toNat, sending := none }).setNotices
          s.notices.foldAddendum) := by
      simp only [exec, execArbitrationLost, State.atTime, State.setClock_port, hs]
      rfl
    rw [h, hfold]
    rfl
  · have h : exec (.bitError t) s =
        .next (((s.atTime t).setPort s.port.stop).setNotices s.notices.bitError) := by
      simp only [exec, execBitError, State.atTime, State.setClock_port, hs]
      rfl
    have hq' : s.notices.bitError = if s.notices.offerCount < 3 then
          { s.notices with queue := folded :: rest, addendum := none, offerCount := s.notices.offerCount + 1 }
        else { s.notices with queue := rest, addendum := none, offerCount := 0
                              loss := min 15 (s.notices.loss + 1) } := by
      unfold NoticeQueue.bitError
      rw [hfold]
      by_cases ho : s.notices.offerCount < 3
      · rw [if_pos ho, if_neg (by show ¬ 4 ≤ s.notices.offerCount + 1; omega)]
      · rw [if_neg ho, if_pos (by show 4 ≤ s.notices.offerCount + 1; omega)]
        rfl
    rw [h, hq']
    rfl
  · have h : exec (.noticeSent t) s =
        .next (((s.atTime t).setPort { bus := .skipping, sending := none }).setNotices s.notices.sent) := by
      simp only [exec, execNoticeSent, State.atTime, State.setClock_port, hs]
      rfl
    have hsent : s.notices.sent = { s.notices with
        queue := match s.notices.addendum with
          | some add => { head with body := add } :: rest
          | none => rest
        loss := min 15 s.notices.drops, drops := 0, offerCount := 0, addendum := none } := by
      unfold NoticeQueue.sent NoticeQueue.dropHead
      cases ha : s.notices.addendum <;> simp [hq]
    rw [h, hsent]
    rfl

end Sys2Proof.Machine
end

