-- ==== Sys2Proof/Proofs/FlashArray.lean ====
section
/-! SUPPORT. What each byte of the flash array reads as after a run of sectors is programmed, erased or left
unknown (R101, R103, R104). -/

namespace Sys2Proof.Machine

/-- The stamp and the cause of the unknown run that covers a sector. -/
def unknownAt (l : List UnknownRun) (sector : Nat) : Option (Nat × UnknownCause) :=
  (l.find? (·.covers sector)).map fun u => (u.stamp, u.cause)

theorem Flash.read_eq (f : Flash) (a : Nat) :
    f.read a = match unknownAt f.unknown (a / 512) with
      | some (stamp, _) => Config.freeByte stamp a
      | none => Memory.read f.cells a := by
  unfold Flash.read unknownAt
  cases f.unknown.find? (·.covers (a / 512)) <;> rfl

theorem UnknownRun.minus_unknownAt (u : UnknownRun) (first count n : Nat) :
    unknownAt (u.minus first count) n =
      if u.covers n ∧ ¬ (first ≤ n ∧ n < first + count) then some (u.stamp, u.cause) else none := by
  have key : ∀ x ∈ u.minus first count, (x.stamp, x.cause) = (u.stamp, u.cause) := by
    intro x hx
    simp only [UnknownRun.minus, List.mem_append] at hx
    rcases hx with hx | hx <;> (split at hx <;> simp at hx; subst hx; rfl)
  have hany : (u.minus first count).any (·.covers n) = true ↔
      u.covers n = true ∧ ¬ (first ≤ n ∧ n < first + count) := by
    rw [u.minus_covers]
    simp only [Bool.and_eq_true, Bool.not_eq_true', Bool.and_eq_false_iff, decide_eq_false_iff_not, not_and_or]
  unfold unknownAt
  cases hf : (u.minus first count).find? (·.covers n) with
  | some x =>
    have hx := List.mem_of_find?_eq_some hf
    rw [if_pos (hany.1 (List.any_eq_true.2 ⟨x, hx, List.find?_some (p := fun x : UnknownRun => x.covers n) hf⟩)), Option.map_some, key x hx]
  | none =>
    have hno : ¬ (u.covers n = true ∧ ¬ (first ≤ n ∧ n < first + count)) := fun h => by
      obtain ⟨x, hx, hc⟩ := List.any_eq_true.1 (hany.2 h)
      exact List.find?_eq_none.1 hf x hx hc
    rw [if_neg hno, Option.map_none]

/-- What is left of the unknown runs outside a run of sectors taken away. -/
theorem unknownAt_minus (l : List UnknownRun) (first count n : Nat) :
    unknownAt (l.flatMap (·.minus first count)) n =
      if first ≤ n ∧ n < first + count then none else unknownAt l n := by
  have append (l m : List UnknownRun) : unknownAt (l ++ m) n = (unknownAt l n).or (unknownAt m n) := by
    unfold unknownAt
    rw [List.find?_append]
    cases l.find? (·.covers n) <;> rfl
  have cons (u : UnknownRun) (l : List UnknownRun) :
      unknownAt (u :: l) n = if u.covers n then some (u.stamp, u.cause) else unknownAt l n := by
    unfold unknownAt
    rw [List.find?_cons]
    cases u.covers n <;> rfl
  induction l with
  | nil => simp [unknownAt]
  | cons u l ih =>
    rw [List.flatMap_cons, append, ih, u.minus_unknownAt, cons]
    by_cases hin : first ≤ n ∧ n < first + count
    · simp [hin]
    · by_cases hc : u.covers n = true <;> simp [hin, hc]

theorem Flash.read_program (f : Flash) (first count : Nat) (bytes : List Byte) (a : Nat) :
    (f.program first count bytes).read a =
      if first ≤ a / 512 ∧ a / 512 < first + count then
        Memory.read (Memory.write f.cells (first * 512) (bytes.take (count * 512))) a
      else f.read a := by
  rw [Flash.read_eq, Flash.read_eq, Flash.program, unknownAt_minus]
  by_cases hin : first ≤ a / 512 ∧ a / 512 < first + count
  · rw [if_pos hin, if_pos hin]
  · have hout : a < first * 512 ∨ first * 512 + count * 512 ≤ a := by omega
    rw [if_neg hin, if_neg hin]
    rw [Memory.read_write_outside _ _ _ _ (by rw [List.length_take]; omega)]

theorem Flash.read_erase (f : Flash) (first count a : Nat) :
    (f.erase first count).read a =
      if first ≤ a / 512 ∧ a / 512 < first + count then erasedByte else f.read a := by
  rw [Flash.read_eq, Flash.read_eq, Flash.erase, unknownAt_minus]
  by_cases hin : first ≤ a / 512 ∧ a / 512 < first + count
  · rw [if_pos hin, if_pos hin]
    exact Memory.read_erase_inside _ _ _ _ (by omega) (by omega)
  · have hout : a < first * 512 ∨ first * 512 + count * 512 ≤ a := by omega
    rw [if_neg hin, if_neg hin]
    rw [Memory.read_erase_outside _ _ _ _ hout]

theorem Flash.scramble_unknownAt (f : Flash) (first count stamp : Nat) (cause : UnknownCause) (n : Nat) :
    unknownAt (f.scramble first count stamp cause).unknown n =
      if first ≤ n ∧ n < first + count then some (stamp, cause) else unknownAt f.unknown n := by
  have h := unknownAt_minus f.unknown first count n
  unfold unknownAt at *
  rw [Flash.scramble, List.find?_cons]
  by_cases hin : first ≤ n ∧ n < first + count
  · simp [UnknownRun.covers, hin]
  · rw [if_neg hin] at h ⊢
    have hc : UnknownRun.covers { first := first, count := count, stamp := stamp, cause := cause } n = false := by
      simpa [UnknownRun.covers] using hin
    rw [hc]
    exact h

theorem Flash.read_scramble (f : Flash) (first count stamp : Nat) (cause : UnknownCause) (a : Nat) :
    (f.scramble first count stamp cause).read a =
      if first ≤ a / 512 ∧ a / 512 < first + count then Config.freeByte stamp a else f.read a := by
  rw [Flash.read_eq, Flash.scramble_unknownAt, Flash.read_eq]
  by_cases hin : first ≤ a / 512 ∧ a / 512 < first + count
  · rw [if_pos hin, if_pos hin]
  · have hout : a < first * 512 ∨ first * 512 + count * 512 ≤ a := by omega
    rw [if_neg hin, if_neg hin]
    rw [Flash.scramble_cells, Memory.read_erase_outside _ _ _ _ hout]

end Sys2Proof.Machine
end

