-- ==== Sys2Proof/Proofs/Reset.lean ====
section
/-! SUPPORT. The state after power-on reset (O4, O60), and what a reset makes of the flash array (O5). -/

namespace Sys2Proof.Machine

/-! ### The blocks and dies of the reset state -/

theorem getD_replicate_self {α : Type} (n : Nat) (x : α) (k : Nat) : (List.replicate n x).getD k x = x := by
  rw [List.getD_eq_getElem?_getD, List.getElem?_replicate]
  split <;> rfl

theorem State.reset_die_other {d : Nat} (h : 0 < d) : State.reset.die d = Die.reset := by
  obtain ⟨k, rfl⟩ := Nat.exists_eq_succ_of_ne_zero h.ne'
  exact getD_replicate_self 7 Die.reset k

theorem State.reset_dieBlocks_succ (d : Nat) : State.reset.dieBlocks (d + 1) =
    if d < 7 then { blocks := List.replicate 2048 Block.unset, free := [] } else { blocks := [], free := [] } := by
  have h : State.reset.dieBlocks (d + 1) =
      (List.replicate 7 { blocks := List.replicate 2048 Block.unset, free := [] }).getD d
        { blocks := [], free := [] } := by rfl
  rw [h, List.getD_eq_getElem?_getD, List.getElem?_replicate]
  split <;> rfl

theorem State.reset_dieBlocks_mem (d : Nat) :
    (State.reset.dieBlocks d).free = [] ∧
      ∀ k ∈ (State.reset.dieBlocks d).blocks, k.live = 0 ∧ k.pending = 0 ∧ (k.state = .log ∨ k.state = .unset) := by
  have hmem (k : Block) (h : k = Block.log ∨ k = Block.unset) :
      k.live = 0 ∧ k.pending = 0 ∧ (k.state = .log ∨ k.state = .unset) := by
    rcases h with rfl | rfl
    · exact ⟨rfl, rfl, .inl rfl⟩
    · exact ⟨rfl, rfl, .inr rfl⟩
  cases d with
  | zero =>
    refine ⟨rfl, fun k hk => hmem k ?_⟩
    have hk : k ∈ List.replicate 8 Block.log ++ List.replicate 2040 Block.unset := hk
    rcases List.mem_append.1 hk with hk | hk
    · exact .inl (List.mem_replicate.1 hk).2
    · exact .inr (List.mem_replicate.1 hk).2
  | succ d =>
    rw [State.reset_dieBlocks_succ]
    split
    · exact ⟨rfl, fun k hk => hmem k (.inr (List.mem_replicate.1 hk).2)⟩
    · exact ⟨rfl, fun k hk => by cases hk⟩

theorem State.reset_block_log {b : Nat} (h : b < 8) : State.reset.block 0 b = Block.log := by
  show (List.replicate 8 Block.log ++ List.replicate 2040 Block.unset).getD b Block.unset = _
  rw [List.getD_eq_getElem?_getD, List.getElem?_append_left (by simpa using h), List.getElem?_replicate, if_pos h]
  rfl

theorem State.reset_block_unset {d b : Nat} (h : ¬ (d = 0 ∧ b < 8)) : State.reset.block d b = Block.unset := by
  cases d with
  | zero =>
    show (List.replicate 8 Block.log ++ List.replicate 2040 Block.unset).getD b Block.unset = _
    have hb : 8 ≤ b := by omega
    rw [List.getD_eq_getElem?_getD, List.getElem?_append_right (by simpa using hb), List.getElem?_replicate]
    split <;> rfl
  | succ d =>
    unfold State.block
    rw [State.reset_dieBlocks_succ]
    split
    · exact getD_replicate_self 2048 Block.unset b
    · rfl

/-- Settles O4: the blocks and dies by the lists that reset builds them from, the rest as written. -/
theorem resetLeavesTheStationStarting : Obligations.ResetLeavesTheStationStarting := by
  refine ⟨rfl, rfl, rfl, rfl, rfl, ⟨rfl, rfl, rfl, rfl, rfl, rfl, rfl, rfl, rfl, rfl⟩,
    ⟨rfl, rfl, fun d h _ => State.reset_die_other h, rfl⟩,
    ⟨rfl, rfl, rfl, rfl, fun d => (State.reset_dieBlocks_mem d).1, fun b h => State.reset_block_log h,
      fun d b _ _ h => State.reset_block_unset h⟩, rfl, rfl, rfl, rfl⟩

/-! ### The laws -/

theorem State.reset_usesLawful : State.reset.usesLawful where
  counted   := fun r h => by cases h
  named     := fun id h => absurd h (by exact Nat.lt_irrefl 0)
  distinct  := .nil
  pending   := rfl
  departing := fun r h => by cases h
  removal   := fun _ _ h => by cases h
  waiting   := fun w h => by cases h
  scanning  := fun _ => rfl
  starting  := fun _ => ⟨rfl, rfl, rfl⟩

theorem State.reset_dies_ops : ∀ die ∈ State.reset.media.dies, die.ops = [] := by
  intro die h
  have h : die ∈ { Die.reset with state := .logRead 0 } :: List.replicate 7 Die.reset := h
  rcases List.mem_cons.1 h with rfl | h
  · rfl
  · rw [(List.mem_replicate.1 h).2]
    rfl

theorem State.reset_die_ops (d : Nat) : (State.reset.die d).ops = [] := by
  cases d with
  | zero => rfl
  | succ d =>
    rw [State.reset_die_other d.succ_pos]
    rfl

theorem State.reset_pagesLawful : State.reset.pagesLawful where
  live     := fun h => absurd rfl h
  pending  := fun d b k hk _ => by
    rw [((State.reset_dieBlocks_mem d).2 k (List.mem_of_getElem? hk)).2.1]
    rfl
  dead     := fun d b k hk h => by
    obtain ⟨hl, hp, -⟩ := (State.reset_dieBlocks_mem d).2 k (List.mem_of_getElem? hk)
    exact ⟨hl, hp⟩
  erases   := fun d => by
    have h : State.reset.erasesOn d = [] := by rw [State.erasesOn, State.reset_die_ops]; rfl
    rw [h]
    exact ⟨.nil, fun b hb => by cases hb⟩
  free     := fun d => by
    rw [(State.reset_dieBlocks_mem d).1]
    exact ⟨.nil, fun b hb => by cases hb⟩
  idle     := fun die h _ => (List.append_eq_nil_iff.1 (State.reset_dies_ops die h)).2
  onePage  := by
    rw [List.flatMap_eq_nil_iff.2 fun die h => by rw [State.reset_dies_ops die h]; rfl]
    exact Nat.zero_le 1
  queued   := fun d p hp => by
    rw [(List.append_eq_nil_iff.1 (State.reset_die_ops d)).2] at hp
    cases hp
  underWay := fun d p hp => by
    have h := (List.append_eq_nil_iff.1 (State.reset_die_ops d)).1
    rw [Option.toList_eq_nil_iff.1 h] at hp
    cases hp
  held     := fun h => by cases h
  reading  := fun h => by cases h
  starting := fun _ => ⟨rfl, State.reset_dies_ops⟩

/-- Settles O60: the lists are empty, and every buffer is free. -/
theorem resetIsSafe : Obligations.ResetIsSafe where
  rates    := ⟨(fun _ h => by cases h), (fun _ h => by cases h)⟩
  fills    := fun _ h => by cases h
  ends     := fun _ h => by cases h
  tags     := ⟨.nil, .nil, (fun _ h => by cases h), .nil, (fun _ h => by cases h)⟩
  capacity := ⟨by decide, by decide, by decide, by decide, by decide, by decide⟩
  buffers  := (State.resetOver_held 0 Flash.erased 0 []).1
  ready    := rfl
  port     := ⟨nofun, nofun, nofun, .nil⟩
  flash    := State.reset_flash_wf
  reads    := (State.resetOver_held 0 Flash.erased 0 []).2
  settled  := rfl
  uses     := State.reset_usesLawful
  pages    := State.reset_pagesLawful

/-! ### The flash array over a reset -/

/-- A die without a long operation leaves the reset's flash alone (R104). -/
theorem State.abandonLongOp_none {s : State} {d : Nat} (h : (s.die d).state.longOp? = none) : s.abandonLongOp d = s := by
  unfold State.abandonLongOp
  rw [h]

theorem State.abandonLongOp_some {s : State} {d : Nat} {op : LongOp} (h : (s.die d).state.longOp? = some op) :
    s.abandonLongOp d = s.scramble (op.sectors d).1 (op.sectors d).2 op.abandonedCause := by
  unfold State.abandonLongOp
  rw [h]

theorem State.abandonLongOps_none {s : State} {l : List Nat} (h : ∀ d ∈ l, (s.die d).state.longOp? = none) :
    l.foldl State.abandonLongOp s = s := by
  induction l with
  | nil => rfl
  | cons d l ih =>
    rw [List.foldl_cons, State.abandonLongOp_none (h d List.mem_cons_self)]
    exact ih fun e he => h e (List.mem_cons_of_mem d he)

/-- With one long operation under way its sectors alone become unknown (R104). -/
theorem State.abandonLongOps_one {s : State} {d : Nat} {op : LongOp} (h : (s.die d).state.longOp? = some op)
    {l : List Nat} (hd : d ∈ l) (hn : l.Nodup) (ho : ∀ e ∈ l, e ≠ d → (s.die e).state.longOp? = none) :
    l.foldl State.abandonLongOp s = s.scramble (op.sectors d).1 (op.sectors d).2 op.abandonedCause := by
  obtain ⟨before, after, rfl⟩ := List.append_of_mem hd
  have hne := List.nodup_middle.1 hn
  rw [List.nodup_cons, List.mem_append, not_or] at hne
  obtain ⟨⟨hb, ha⟩, -⟩ := hne
  rw [List.foldl_append, List.foldl_cons, State.abandonLongOps_none (s := s) (l := before), State.abandonLongOp_some h]
  · refine State.abandonLongOps_none fun e he => ?_
    exact ho e (by simp [he]) fun hed => ha (hed ▸ he)
  · exact fun e he => ho e (by simp [he]) fun hed => hb (hed ▸ he)

/-- POWER_ON_RESET keeps the flash array that the abandoned operations leave, and its stamp (R104, R172). -/
theorem execPowerOnReset_of {s u : State} (h : dieNumbers.foldl State.abandonLongOp s = u) (straps : BitVec 4) :
    exec (.powerOnReset straps) s =
      .next ((State.resetOver straps.toNat u.media.flash u.stamp).setPending s.pending) := by
  subst h
  rfl

/-- Settles O5: the reset abandons each die's long operation, and keeps the flash array that this leaves. -/
theorem powerOnResetKeepsTheFlash : Obligations.PowerOnResetKeepsTheFlash := by
  intro s straps
  have mem (d : Nat) : d ∈ dieNumbers ↔ d < 8 := List.mem_range
  refine ⟨fun hnone => ?_, fun d op hd hop hone => ?_⟩
  · exact execPowerOnReset_of (State.abandonLongOps_none fun d hd => hnone d ((mem d).1 hd)) straps
  · have h := State.abandonLongOps_one (l := dieNumbers) hop ((mem d).2 hd) List.nodup_range fun e he hne =>
      hone e ((mem e).1 he) hne
    refine ⟨_, execPowerOnReset_of h straps, rfl, ?_, fun a => Flash.read_scramble _ _ _ _ _ _⟩
    · intro p record hp hlog hcount
      subst hp
      have hc : LongOp.abandonedCause (.program p) = .abandoned record := by
        cases p
        subst hlog
        rfl
      rw [hc]
      exact Flash.cause_scramble _ _ _ _ _ _ ⟨Nat.le_refl _, Nat.lt_add_of_pos_right hcount⟩

end Sys2Proof.Machine
end

