-- ==== Sys2Proof/Proofs/Queue.lean ====
section
/-! SUPPORT. How a report joins the notice queue, merges into it, or is dropped (O19). -/

namespace Sys2Proof.Machine

/-- What the first element that passes becomes, in its place. -/
theorem updateFirst_append {α : Type} {p : α → Bool} {x : α} (hx : p x = true) (f : α → α) {before : List α}
    (hb : ∀ y ∈ before, p y = false) (after : List α) :
    updateFirst p f (before ++ x :: after) = before ++ f x :: after := by
  induction before with
  | nil => simp [updateFirst, hx]
  | cons y ys ih =>
    rw [List.cons_append, updateFirst, if_neg (by simp [hb y List.mem_cons_self]),
      ih fun z hz => hb z (List.mem_cons_of_mem y hz)]
    rfl

theorem Notice.takes_iff (n : Notice) (body : NoticeBody) :
    n.takes body = true ↔ n.isOpen = true ∧ body.mergeKey.isSome = true ∧ n.body.mergeKey = body.mergeKey := by
  simp [Notice.takes, and_assoc]

theorem Notice.takes_eq_false {n : Notice} {body : NoticeBody}
    (h : n.isOpen → body.mergeKey.isSome → n.body.mergeKey ≠ body.mergeKey) : n.takes body = false := by
  rw [← Bool.not_eq_true, Notice.takes_iff]
  exact fun ⟨ho, hs, hk⟩ => h ho hs hk

/-- Two reports of one merge key merge as their kind says (R178). -/
theorem NoticeBody.mergesTo_merge {a b : NoticeBody} (hs : b.mergeKey.isSome) (hk : a.mergeKey = b.mergeKey) :
    a.mergesTo b (a.merge b) := by
  cases b with
  | underrun =>
    cases a with
    | underrun =>
      simp only [NoticeBody.mergeKey, Option.some.injEq, Prod.mk.injEq, true_and] at hk
      exact ⟨hk.symm, rfl⟩
    | _ => simp [NoticeBody.mergeKey] at hk
  | media =>
    cases a with
    | media =>
      simp only [NoticeBody.mergeKey, Option.some.injEq, Prod.mk.injEq, true_and] at hk
      exact ⟨hk.symm, rfl⟩
    | _ => simp [NoticeBody.mergeKey] at hk
  | _ => cases hs

theorem NoticeQueue.report_joins {q : NoticeQueue} {n : Notice} (h : ∀ m ∈ q.queue, m.takes n.body = false)
    (onBus : Bool) : q.report onBus n = q.join n := by
  unfold NoticeQueue.report
  split
  · rfl
  next head rest hq =>
    rw [hq] at h
    rw [if_neg (by simp [h head List.mem_cons_self]), if_neg]
    rw [List.any_eq_true]
    rintro ⟨m, hm, hmt⟩
    rw [h m (List.mem_cons_of_mem head hm)] at hmt
    cases hmt

/-- A report merges into the first open notice of its key, which is not a head on the bus (R178). -/
theorem NoticeQueue.report_merges {q : NoticeQueue} {n m : Notice} {before after : List Notice} {onBus : Bool}
    (hq : q.queue = before ++ m :: after) (hm : m.takes n.body = true) (hb : ∀ x ∈ before, x.takes n.body = false)
    (hbus : before ≠ [] ∨ onBus = false) :
    q.report onBus n = { q with queue := before ++ { m with body := m.body.merge n.body } :: after } := by
  unfold NoticeQueue.report
  cases before with
  | nil =>
    have hoff : onBus = false := hbus.resolve_left fun h => h rfl
    simp only [hq, List.nil_append, hm, hoff, if_true, Bool.false_eq_true, if_false]
  | cons head rest =>
    have hrest : (rest ++ m :: after).any (·.takes n.body) = true :=
      List.any_eq_true.2 ⟨m, by simp, hm⟩
    have hhead := hb head List.mem_cons_self
    simp only [hq, List.cons_append, hhead, Bool.false_eq_true, if_false, hrest, if_true]
    rw [updateFirst_append (p := fun x : Notice => x.takes n.body) hm _ fun x hx =>
      hb x (List.mem_cons_of_mem head hx)]

/-- A report that a head on the bus would take goes into its addendum (R179). -/
theorem NoticeQueue.report_addendum {q : NoticeQueue} {n head : Notice} {rest : List Notice}
    (hq : q.queue = head :: rest) (hh : head.takes n.body = true) :
    q.report true n = { q with addendum := some ((q.addendum.map (·.merge n.body)).getD n.body) } := by
  unfold NoticeQueue.report
  simp only [hq, hh, if_true]

/-- Settles O19: by whether an open notice of the report's key waits, and whether the first such is the head on the
bus. -/
theorem noticesJoinMergeOrDrop : Obligations.NoticesJoinMergeOrDrop := by
  intro s addressee body
  refine ⟨fun hnone => ?_, fun before n after hq ho hs hk hb => ?_⟩
  · have hj := NoticeQueue.report_joins (q := s.notices)
      (n := { addressee := addressee, body := body, isOpen := body.mergeKey.isSome })
      (fun m hm => Notice.takes_eq_false (hnone m hm)) s.headOnBus
    unfold State.queueNotice
    rw [hj]
    rcases s.notices.join_cases { addressee := addressee, body := body, isOpen := body.mergeKey.isSome } with
      ⟨hl, h⟩ | ⟨hl, h⟩
    · exact ⟨fun _ => by rw [h]; rfl, fun hn => by omega⟩
    · exact ⟨fun hn => by omega, fun _ => by rw [h]; rfl⟩
  · have hn : n.takes body = true := (n.takes_iff body).2 ⟨ho, hs, hk⟩
    have hbefore : ∀ m ∈ before, m.takes body = false := fun m hm => Notice.takes_eq_false fun h _ => hb m hm h
    refine ⟨fun hbus => ⟨_, NoticeBody.mergesTo_merge hs hk, ?_⟩, fun f hnil hf => ?_⟩
    · have hoff : before ≠ [] ∨ s.headOnBus = false := hbus.imp_right fun h => by
        unfold State.headOnBus
        split
        next f hf => exact absurd hf (h f)
        · rfl
        · rfl
      unfold State.queueNotice
      rw [NoticeQueue.report_merges hq hn hbefore hoff]
      rfl
    · subst hnil
      have hon : s.headOnBus = true := by unfold State.headOnBus; rw [hf]
      have h : s.queueNotice addressee body = s.setNotices { s.notices with
          addendum := some ((s.notices.addendum.map (·.merge body)).getD body) } := by
        unfold State.queueNotice
        rw [hon, NoticeQueue.report_addendum hq hn]
      refine ⟨fun ha => ?_, fun add ha hkey => ⟨_, NoticeBody.mergesTo_merge hs hkey, ?_⟩⟩
      · rw [h, ha]
        rfl
      · rw [h, ha]
        rfl

end Sys2Proof.Machine
end

