-- ==== Sys2Proof/Proofs/Encoding.lean ====
section
/-! SUPPORT. Frames and log records give their fields back: a number laid out most significant first is read where it
stands (O20, O21, O22). -/

namespace Sys2Proof.Machine

/-! ### Numbers laid out most significant first -/

@[simp] theorem length_bitsBE (n v : Nat) : (bitsBE n v).length = n := by
  induction n generalizing v with
  | zero => rfl
  | succ n ih => simp [bitsBE, ih]

@[simp] theorem length_bytesBE (n v : Nat) : (bytesBE n v).length = n := by
  induction n generalizing v with
  | zero => rfl
  | succ n ih => simp [bytesBE, ih]

theorem natOfBits_bitsBE (n v : Nat) : natOfBits (bitsBE n v) = v % 2 ^ n := by
  induction n generalizing v with
  | zero => simp [bitsBE, natOfBits, Nat.mod_one]
  | succ n ih =>
    have h : natOfBits (bitsBE (n + 1) v) = natOfBits (bitsBE n (v / 2)) * 2 + (v % 2 == 1).toNat := by
      simp [bitsBE, natOfBits, List.foldl_append]
    have hbit : (v % 2 == 1).toNat = v % 2 := by
      rcases Nat.mod_two_eq_zero_or_one v with h | h <;> simp [h]
    rw [h, ih, hbit, Nat.pow_succ, Nat.mul_comm (2 ^ n) 2, Nat.mod_mul]
    omega

theorem natBE_bytesBE (n v : Nat) : natBE (bytesBE n v) = v % 256 ^ n := by
  induction n generalizing v with
  | zero => simp [bytesBE, natBE, Nat.mod_one]
  | succ n ih =>
    have h : natBE (bytesBE (n + 1) v) = natBE (bytesBE n (v / 256)) * 256 + v % 256 := by
      simp [bytesBE, natBE, List.foldl_append]
    rw [h, ih, Nat.pow_succ, Nat.mul_comm (256 ^ n) 256, Nat.mod_mul]
    omega

/-- A run of bits read where it stands. -/
theorem natOfBits_at {bits pre post : List Bool} {n v k : Nat} (h : bits = pre ++ (bitsBE n v ++ post))
    (hk : pre.length = k) : natOfBits ((bits.drop k).take n) = v % 2 ^ n := by
  rw [h, List.drop_left' hk, List.take_left' (length_bitsBE n v), natOfBits_bitsBE]

/-- A field read where it stands. -/
theorem field_at {bs pre post : List Byte} {n v k : Nat} (h : bs = pre ++ (bytesBE n v ++ post))
    (hk : pre.length = k) : field bs k n = v % 256 ^ n := by
  rw [field, h, List.drop_left' hk, List.take_left' (length_bytesBE n v), natBE_bytesBE]

/-- A field that fits is read as it was written. -/
theorem field_of_lt {bs pre post : List Byte} {n v k : Nat} (h : bs = pre ++ (bytesBE n v ++ post))
    (hk : pre.length = k) (hv : v < 256 ^ n) : field bs k n = v := by
  rw [field_at h hk, Nat.mod_eq_of_lt hv]

theorem takeBytes_flatMap (p : List Byte) (rest : List Bool) :
    takeBytes p.length (p.flatMap (fun b => bitsBE 8 b.toNat) ++ rest) = p := by
  induction p with
  | nil => rfl
  | cons b p ih =>
    have hb : BitVec.ofNat 8 (natOfBits (bitsBE 8 b.toNat)) = b := by
      rw [natOfBits_bitsBE]
      exact BitVec.eq_of_toNat_eq (by simp [b.isLt])
    rw [List.length_cons, takeBytes, List.flatMap_cons, List.append_assoc,
      List.take_left' (length_bitsBE 8 _), List.drop_left' (length_bitsBE 8 _), hb, ih]

/-! ### Frames -/

theorem length_payloadBits (p : List Byte) : (p.flatMap fun b => bitsBE 8 b.toNat).length = 8 * p.length := by
  induction p with
  | nil => rfl
  | cons b p ih =>
    rw [List.flatMap_cons, List.length_append, length_bitsBE, ih, List.length_cons]
    omega

/-- The bits of a frame give it back with its check word (R112, R118). -/
theorem Frame.parse_bits {f : Frame} (hf : f.payload.length ≤ 24) : Frame.parse f.bits = some (f, f.check) := by
  obtain ⟨kind, key, sender, addressee, payload⟩ := f
  generalize hc : Frame.check _ = check
  have hbits : Frame.bits { kind := kind, key := key, sender := sender, addressee := addressee, payload := payload } =
      bitsBE 4 kind.toNat ++ (bitsBE 12 key.toNat ++ (bitsBE 4 sender.toNat ++ (bitsBE 5 addressee.toNat ++
        (bitsBE 5 payload.length ++ ((payload.flatMap fun b => bitsBE 8 b.toNat) ++ bitsBE 16 check.toNat))))) := by
    simp only [Frame.bits, Frame.body, hc, List.append_assoc]
  generalize Frame.bits _ = bits at hbits ⊢
  have hlen : natOfBits ((bits.drop 25).take 5) = payload.length := by
    rw [natOfBits_at (pre := bitsBE 4 kind.toNat ++ bitsBE 12 key.toNat ++ bitsBE 4 sender.toNat ++
      bitsBE 5 addressee.toNat) (by rw [hbits]; simp only [List.append_assoc]; rfl) (by simp)]
    exact Nat.mod_eq_of_lt (by have : payload.length ≤ 24 := hf; omega)
  have hkind : natOfBits (bits.take 4) = kind.toNat % 2 ^ 4 := natOfBits_at (k := 0) (pre := []) hbits rfl
  have hkey : natOfBits ((bits.drop 4).take 12) = key.toNat % 2 ^ 12 := natOfBits_at hbits (by simp)
  have hsender : natOfBits ((bits.drop 16).take 4) = sender.toNat % 2 ^ 4 :=
    natOfBits_at (pre := bitsBE 4 kind.toNat ++ bitsBE 12 key.toNat) (by rw [hbits, List.append_assoc]) (by simp)
  have haddressee : natOfBits ((bits.drop 20).take 5) = addressee.toNat % 2 ^ 5 :=
    natOfBits_at (pre := bitsBE 4 kind.toNat ++ bitsBE 12 key.toNat ++ bitsBE 4 sender.toNat)
      (by rw [hbits]; simp only [List.append_assoc]; rfl) (by simp)
  have hpayload : takeBytes payload.length (bits.drop 30) = payload := by
    have h : bits.drop 30 = (payload.flatMap fun b => bitsBE 8 b.toNat) ++ bitsBE 16 check.toNat := by
      rw [hbits]
      simp only [← List.append_assoc]
      rw [List.append_assoc, List.drop_left' (by simp)]
    rw [h, takeBytes_flatMap]
  have hcheck : natOfBits (bits.drop (30 + 8 * payload.length)) = check.toNat % 2 ^ 16 := by
    have h : bits.drop (30 + 8 * payload.length) = bitsBE 16 check.toNat := by
      rw [hbits]
      simp only [← List.append_assoc]
      rw [List.drop_left' (by simp; omega)]
    rw [h, natOfBits_bitsBE]
  have htotal : bits.length = 46 + 8 * payload.length := by
    rw [hbits]
    simp only [List.length_append, length_bitsBE, length_payloadBits]
    omega
  unfold Frame.parse
  dsimp only
  rw [hlen, if_pos ⟨hf, htotal⟩, hkind, hkey, hsender, haddressee, hpayload, hcheck]
  simp only [Nat.mod_eq_of_lt (BitVec.isLt _), BitVec.ofNat_toNat, BitVec.setWidth_eq]

@[simp] theorem length_countField (n v : Nat) : (countField n v).length = n := length_bytesBE n _

/-- Settles O20: the layout of the bits, and the length of each kind's fields. -/
theorem framesAssembleToWhatWasSent : Obligations.FramesAssembleToWhatWasSent := by
  refine ⟨fun f hf => Frame.parse_bits (by simpa [Frame.wellFormed] using hf), fun n number loss => ?_⟩
  have hlen : payloadLength 8 n.body.rank = some (n.frame number loss).payload.length ∧ n.body.rank < 15 ∧
      (n.frame number loss).payload.length ≤ 24 := by
    unfold Notice.frame
    cases n.body <;> simp [NoticeBody.rank, NoticeBody.fields, payloadLength, noticeLength]
  obtain ⟨hpay, hrank, hle⟩ := hlen
  refine ⟨rfl, ?_, hpay, by simpa [Frame.wellFormed] using hle⟩
  show (BitVec.ofNat 12 n.body.rank).toNat = _
  rw [BitVec.toNat_ofNat]
  omega

/-- A word laid out in its bytes is read back. -/
theorem ofNat_field {bs pre post : List Byte} {w n k : Nat} {x : BitVec w} (h : bs = pre ++ (bytesBE n x.toNat ++ post))
    (hk : pre.length = k) (hw : 2 ^ w ≤ 256 ^ n) : BitVec.ofNat w (field bs k n) = x := by
  rw [field_of_lt h hk (Nat.lt_of_lt_of_le x.isLt hw), BitVec.ofNat_toNat, BitVec.setWidth_eq]

/-- Settles O21: the frame is assembled and accepted, and each field is read where it was laid out. -/
theorem noteFramesReachTheClaimUnit : Obligations.NoteFramesReachTheClaimUnit := by
  intro t own key sender addressee region offset tick rate flags ha
  generalize hp : bytesBE 3 region.toNat ++ bytesBE 4 offset.toNat ++ bytesBE 6 tick.toNat ++ bytesBE 3 rate.toNat ++
    bytesBE 1 flags.toNat = payload
  have hlen : payload.length = 17 := by rw [← hp]; simp
  have hacc : Frame.accepted own { kind := 2#4, key := key, sender := sender, addressee := addressee, payload := payload }
      (Frame.check { kind := 2#4, key := key, sender := sender, addressee := addressee, payload := payload }) = true := by
    rcases ha with ha | ha <;> simp [Frame.accepted, payloadLength, hlen, addressed, ha]
  have hregion : BitVec.ofNat 24 (field payload 0 3) = region :=
    ofNat_field (pre := []) (by rw [← hp]; simp only [List.append_assoc]; rfl) rfl (by decide)
  have hoffset : BitVec.ofNat 32 (field payload 3 4) = offset :=
    ofNat_field (pre := bytesBE 3 region.toNat) (by rw [← hp]; simp only [List.append_assoc]; rfl) (by simp) (by decide)
  have htick : BitVec.ofNat 48 (field payload 7 6) = tick :=
    ofNat_field (pre := bytesBE 3 region.toNat ++ bytesBE 4 offset.toNat)
      (by rw [← hp]; simp only [List.append_assoc]; rfl) (by simp) (by decide)
  have hrate : BitVec.ofNat 24 (field payload 13 3) = rate :=
    ofNat_field (pre := bytesBE 3 region.toNat ++ bytesBE 4 offset.toNat ++ bytesBE 6 tick.toNat)
      (by rw [← hp]; simp only [List.append_assoc]; rfl) (by simp) (by decide)
  have hflags : BitVec.ofNat 8 (field payload 16 1) = flags :=
    ofNat_field (post := []) (pre := bytesBE 3 region.toNat ++ bytesBE 4 offset.toNat ++ bytesBE 6 tick.toNat ++
      bytesBE 3 rate.toNat) (by rw [← hp]; simp only [List.append_assoc, List.append_nil]) (by simp) (by decide)
  unfold receive
  rw [Frame.parse_bits (by show payload.length ≤ 24; omega)]
  dsimp only
  unfold frameCommand
  rw [if_pos hacc]
  show Instr.note t _ _ _ _ _ _ = _
  rw [hregion, hoffset, htick, hrate, hflags]

/-! ### Log records -/

theorem length_padRecord {bytes : List Byte} (h : bytes.length ≤ 512) : (padRecord bytes).length = 512 := by
  simp only [padRecord, List.length_append, List.length_replicate]
  omega

theorem length_extentBytes (l : List Extent) : (l.flatMap Extent.bytes).length = 5 * l.length := by
  induction l with
  | nil => rfl
  | cons e l ih =>
    rw [List.flatMap_cons, List.length_append, ih, List.length_cons]
    simp only [Extent.bytes, List.length_append, length_bytesBE]
    omega

/-- An extent in range of its bytes is read back where it stands. -/
theorem extentAt_eq {bs pre post : List Byte} {e : Extent} {i : Nat} (h : bs = pre ++ (e.bytes ++ post))
    (hi : pre.length = 15 + 5 * i) (he : e.die < 2 ^ 8 ∧ e.block < 2 ^ 16 ∧ e.first < 2 ^ 8 ∧ e.count < 2 ^ 8) :
    extentAt bs i = e := by
  obtain ⟨hd, hb, hf, hc⟩ := he
  unfold extentAt
  rw [field_of_lt (pre := pre) (v := e.die) (by rw [h]; simp only [Extent.bytes, List.append_assoc]; rfl) hi hd,
    field_of_lt (pre := pre ++ bytesBE 1 e.die) (v := e.block)
      (by rw [h]; simp only [Extent.bytes, List.append_assoc]; rfl) (by simp; omega) hb,
    field_of_lt (pre := pre ++ bytesBE 1 e.die ++ bytesBE 2 e.block) (v := e.first)
      (by rw [h]; simp only [Extent.bytes, List.append_assoc]; rfl) (by simp; omega) hf,
    field_of_lt (pre := pre ++ bytesBE 1 e.die ++ bytesBE 2 e.block ++ bytesBE 1 e.first) (v := e.count)
      (by rw [h]; simp only [Extent.bytes, List.append_assoc]; rfl) (by simp; omega) hc]

/-- The extents of a record are read back. -/
theorem extentsAt_eq {bs pre post : List Byte} {l : List Extent} (h : bs = pre ++ (l.flatMap Extent.bytes ++ post))
    (hp : pre.length = 15)
    (hl : ∀ e ∈ l, e.die < 2 ^ 8 ∧ e.block < 2 ^ 16 ∧ e.first < 2 ^ 8 ∧ e.count < 2 ^ 8) :
    (List.range l.length).map (extentAt bs) = l := by
  refine List.ext_getElem (by simp) fun i _ hi => ?_
  have hsplit : l.flatMap Extent.bytes =
      (l.take i).flatMap Extent.bytes ++ (l[i].bytes ++ (l.drop (i + 1)).flatMap Extent.bytes) := by
    conv_lhs => rw [← List.take_append_drop i l, List.drop_eq_getElem_cons hi]
    rw [List.flatMap_append, List.flatMap_cons]
  rw [List.getElem_map, List.getElem_range]
  refine extentAt_eq (pre := pre ++ (l.take i).flatMap Extent.bytes)
    (post := (l.drop (i + 1)).flatMap Extent.bytes ++ post) ?_ ?_ (hl _ (List.getElem_mem hi))
  · rw [h, hsplit]
    simp only [List.append_assoc]
  · rw [List.length_append, hp, length_extentBytes, List.length_take, Nat.min_eq_left (Nat.le_of_lt hi)]

/-- Settles O22: each field of a record is read where it was laid out. -/
theorem logRecordsReadBackAsWritten : Obligations.LogRecordsReadBackAsWritten := by
  refine ⟨fun i hr hf hn hs he hlen hext => ?_, fun id hid => ?_⟩
  · generalize hrec : i.logRecord = bs
    have hbs : bs = bytesBE 1 0x1C ++ (bytesBE 3 i.region ++ (bytesBE 1 i.format ++ (bytesBE 3 i.frames ++
        (bytesBE 3 i.loopStart ++ (bytesBE 3 i.loopEnd ++ (bytesBE 1 i.extents.length ++
          (i.extents.flatMap Extent.bytes ++ List.replicate (512 - (15 + 5 * i.extents.length)) 0#8))))))) := by
      rw [← hrec, InstallItem.logRecord, padRecord]
      simp only [List.append_assoc, List.length_append, length_bytesBE, length_extentBytes]
      rw [show 1 + (3 + (1 + (3 + (3 + (3 + (1 + 5 * i.extents.length)))))) = 15 + 5 * i.extents.length by omega]
    have hkind : field bs 0 1 = 0x1C := field_of_lt (pre := []) hbs rfl (by decide)
    have hid : field bs 1 3 = i.region := field_of_lt hbs (by simp) hr
    have hformat : field bs 4 1 = i.format := field_of_lt (pre := bytesBE 1 0x1C ++ bytesBE 3 i.region)
      (by rw [hbs]; simp only [List.append_assoc]; rfl) (by simp) hf
    have hframes : field bs 5 3 = i.frames := field_of_lt (pre := bytesBE 1 0x1C ++ bytesBE 3 i.region ++
      bytesBE 1 i.format) (by rw [hbs]; simp only [List.append_assoc]; rfl) (by simp) hn
    have hstart : field bs 8 3 = i.loopStart := field_of_lt (pre := bytesBE 1 0x1C ++ bytesBE 3 i.region ++
      bytesBE 1 i.format ++ bytesBE 3 i.frames) (by rw [hbs]; simp only [List.append_assoc]; rfl) (by simp) hs
    have hstop : field bs 11 3 = i.loopEnd := field_of_lt (pre := bytesBE 1 0x1C ++ bytesBE 3 i.region ++
      bytesBE 1 i.format ++ bytesBE 3 i.frames ++ bytesBE 3 i.loopStart)
      (by rw [hbs]; simp only [List.append_assoc]; rfl) (by simp) he
    have hcount : field bs 14 1 = i.extents.length := field_of_lt (pre := bytesBE 1 0x1C ++ bytesBE 3 i.region ++
      bytesBE 1 i.format ++ bytesBE 3 i.frames ++ bytesBE 3 i.loopStart ++ bytesBE 3 i.loopEnd)
      (by rw [hbs]; simp only [List.append_assoc]; rfl) (by simp) (by omega)
    have hextents : (List.range i.extents.length).map (extentAt bs) = i.extents :=
      extentsAt_eq (pre := bytesBE 1 0x1C ++ bytesBE 3 i.region ++
        bytesBE 1 i.format ++ bytesBE 3 i.frames ++ bytesBE 3 i.loopStart ++ bytesBE 3 i.loopEnd ++
        bytesBE 1 i.extents.length) (by rw [hbs]; simp only [List.append_assoc]; rfl) (by simp) hext
    refine ⟨?_, ?_⟩
    · rw [hbs]
      simp only [List.length_append, length_bytesBE, length_extentBytes, List.length_replicate]
      omega
    · unfold parseRecord
      dsimp only
      rw [hkind, if_pos rfl, hid, hformat, hframes, hstart, hstop, hcount, hextents]
  · have hbs : voidRecord id = bytesBE 1 0xE3 ++ (bytesBE 3 id ++ List.replicate 508 0#8) := by
      simp only [voidRecord, padRecord, List.append_assoc, List.length_append, length_bytesBE]
    have hkind : field (voidRecord id) 0 1 = 0xE3 := field_of_lt (pre := []) hbs rfl (by decide)
    have hrid : field (voidRecord id) 1 3 = id := field_of_lt hbs (by simp) hid
    refine ⟨length_padRecord (by simp), ?_⟩
    unfold parseRecord
    dsimp only
    rw [hkind, hrid]
    rfl

end Sys2Proof.Machine
end

