-- ==== Sys2Proof/Proofs/Slack.lean ====
section
/-! SUPPORT. The slack is a lower bound on the ticks to the dry point (O50): no rate on the glide exceeds the greater of
the rate and its target. -/

namespace Sys2Proof.Machine

/-- The greater of a voice's rate and its target: no tick of the glide moves it further (R57). -/
def Voice.topRate (v : Voice) : Nat := max v.r v.target

theorem Voice.glided_le (v : Voice) : v.glided ≤ v.topRate := by
  unfold Voice.glided Voice.topRate
  split
  · omega
  · split <;> omega

theorem Voice.advanced_topRate_le (v : Voice) : v.advanced.topRate ≤ v.topRate :=
  Nat.max_le.2 ⟨v.glided_le, Nat.le_max_right _ _⟩

theorem Voice.advanced_p_le (v : Voice) : v.advanced.p ≤ v.p + v.topRate :=
  Nat.add_le_add_left (Nat.le_max_left _ _) _

/-- `k` ticks move the position by at most `k` times the top rate. -/
theorem Voice.advanced_iterate_p_le (k : Nat) : ∀ v : Voice, (Voice.advanced^[k] v).p ≤ v.p + k * v.topRate := by
  induction k with
  | zero => exact fun v => Nat.le_add_right _ _
  | succ k ih =>
    intro v
    calc (Voice.advanced^[k] v.advanced).p
      _ ≤ v.advanced.p + k * v.advanced.topRate := ih _
      _ ≤ (v.p + v.topRate) + k * v.topRate :=
        Nat.add_le_add v.advanced_p_le (Nat.mul_le_mul_left k v.advanced_topRate_le)
      _ = v.p + (k + 1) * v.topRate := by ring

/-- Settles O50: fewer ticks than the quotient leave the position short of the dry point's distance. -/
theorem slackBoundsTheRunToTheDryPoint : Obligations.SlackBoundsTheRunToTheDryPoint := by
  intro v now k hstate hk
  have hq : k < ((v.firstMissing - 4) * 65536 - v.p) / v.topRate := by
    have : v.slack now = min slackCap v.quotient := by unfold Voice.slack; rw [hstate]
    rw [this] at hk
    exact Nat.lt_of_lt_of_le hk (Nat.min_le_right _ _)
  have htop : 0 < v.topRate := Nat.pos_of_ne_zero fun h => by
    rw [h, Nat.div_zero] at hq
    exact Nat.not_lt_zero k hq
  have hrun : (k + 1) * v.topRate ≤ (v.firstMissing - 4) * 65536 - v.p := (Nat.le_div_iff_mul_le htop).1 hq
  have hp := Voice.advanced_iterate_p_le k v
  rw [Nat.add_mul] at hrun
  unfold Voice.floorP
  omega

end Sys2Proof.Machine
end

