-- ==== Sys2Proof/Proofs/Windows.lean ====
section
/-! SUPPORT. The close of a step where no frame may begin, and the ends of a CLAIM and of the two windows (O17, O27,
O28). -/

namespace Sys2Proof.Machine

/-! ### The close of a step -/

/-- Where no frame may begin, a step closes with the programs turned away and the READY drive. -/
theorem State.finish_silent {s : State} (h : s.port.mayBegin s.clock = false) :
    s.finish = s.settleFront.recomputeReady := by
  have hk := s.settleFront_step
  refine State.offer_busy _ ?_
  rw [State.recomputeReady_port, State.recomputeReady_clock, hk.port, hk.clock]
  exact h

theorem State.finish_noticeStep (s : State) : NoticeStep s s.finish :=
  (s.finish_reported (G := fun _ => False)).noticeStep

/-- A report of a kind that takes no merge, with room in the queue (R178). -/
theorem State.queueNotice_room_eq {s : State} {body : NoticeBody} (hk : body.mergeKey = none)
    (hl : s.notices.queue.length < 32) (addressee : Nat) :
    s.queueNotice addressee body = s.setNotices { s.notices with
      queue := s.notices.queue ++ [{ addressee := addressee, body := body, isOpen := false }] } := by
  unfold State.queueNotice
  rw [NoticeQueue.report_joins (fun m _ => by simp [Notice.takes, hk]) s.headOnBus, NoticeQueue.join, if_pos hl]
  simp only [hk, Option.isSome_none]

/-! ### The offer with an empty bid list -/

theorem State.offer_nothing {s : State} (hm : s.port.mayBegin s.clock = true) (hb : s.claims.bids = [])
    (hq : s.notices.queue = []) : s.offer.port = s.port := by
  have h : s.offerBid? = none := by unfold State.offerBid?; rw [hb]; rfl
  unfold State.offer
  rw [if_pos hm, h, hq]

theorem State.offer_notice {s : State} {n : Notice} {rest : List Notice} (hm : s.port.mayBegin s.clock = true)
    (hb : s.claims.bids = []) (hq : s.notices.queue = n :: rest) : s.offer = s.beginNotice n := by
  have h : s.offerBid? = none := by unfold State.offerBid?; rw [hb]; rfl
  unfold State.offer
  rw [if_pos hm, h, hq]

/-! ### Bid entries -/

theorem State.bid?_of_mem {s : State} {b : Bid} (hb : b ∈ s.claims.bids) (hn : s.BidsApart) :
    s.bid? b.tag = some b := by
  unfold State.bid?
  unfold State.BidsApart at hn
  generalize s.claims.bids = l at hb hn
  induction l with
  | nil => cases hb
  | cons c l ih =>
    rw [List.map_cons, List.nodup_cons] at hn
    obtain ⟨hc, hl⟩ := hn
    rw [List.find?_cons]
    rcases List.mem_cons.1 hb with rfl | hb
    · simp
    · have hne : (c.tag == b.tag) = false := beq_eq_false_iff_ne.2 fun h =>
        hc (List.mem_map.2 ⟨b, hb, h.symm⟩)
      rw [hne]
      exact ih hb hl

/-- An entry that leaves gives its use up (R9, R133). -/
theorem State.dropBid_uses {s : State} {tag : Nat} {b : Bid} (hb : s.bid? tag = some b) (id : Nat) :
    (s.dropBid tag).uses? id = (s.uses? id).map fun k => if id = b.region then k - 1 else k := by
  unfold State.dropBid
  rw [hb]
  exact State.releaseUse_uses _ b.region id

theorem State.dropBid_absent {s : State} {tag : Nat} (hb : s.bid? tag = none) : s.dropBid tag = s := by
  unfold State.dropBid
  rw [hb]

theorem State.claimReturned_opened {s : State} {tag : Nat} {b : Bid} (hb : s.bid? tag = some b) (ho : b.window = .opened) :
    s.claimReturned tag = s.updateBid tag fun b => { b with offer := .waiting } := by
  unfold State.claimReturned
  simp only [hb, ho]

theorem State.claimReturned_closed {s : State} {tag : Nat} {b : Bid} (hb : s.bid? tag = some b) (ho : b.window = .closed) :
    s.claimReturned tag = s.dropBid tag := by
  unfold State.claimReturned
  simp only [hb, ho]

/-- What the return of a CLAIM leaves alone. -/
theorem State.claimReturned_step (s : State) (tag : Nat) :
    (s.claimReturned tag).clock = s.clock ∧ (s.claimReturned tag).station = s.station ∧
      (s.claimReturned tag).port = s.port ∧ (s.claimReturned tag).voices = s.voices ∧
      (s.claimReturned tag).timebase = s.timebase ∧ (s.claimReturned tag).media = s.media := by
  unfold State.claimReturned
  split
  · exact ⟨rfl, rfl, rfl, rfl, rfl, rfl⟩
  · split
    · exact ⟨rfl, rfl, rfl, rfl, rfl, rfl⟩
    · obtain ⟨hclock, hstation, hport, -, hvoices, htimebase, hmedia, -⟩ := s.dropBid_step tag
      exact ⟨hclock, hstation, hport, hvoices, htimebase, hmedia⟩

/-- What becomes of the entry of a CLAIM that stops, by its window (R133). -/
theorem State.claimReturned_entry {s : State} {b : Bid} (hb : b ∈ s.claims.bids) (hn : s.BidsApart) :
    (b.window = .opened → (s.claimReturned b.tag).catalogue = s.catalogue ∧
      (s.claimReturned b.tag).claims.bids =
        s.claims.bids.map fun c => if c.tag = b.tag then { c with offer := .waiting } else c) ∧
    (b.window = .closed → (s.claimReturned b.tag).claims.bids = s.claims.bids.filter (fun c => c.tag != b.tag) ∧
      (s.claimReturned b.tag).uses? b.region = (s.uses? b.region).map (· - 1)) := by
  have hfind := State.bid?_of_mem hb hn
  refine ⟨fun ho => ?_, fun ho => ?_⟩
  · rw [State.claimReturned_opened hfind ho]
    exact ⟨rfl, updateFirst_eq_map (fun c : Bid => c.tag) b.tag _ _ hn⟩
  · rw [State.claimReturned_closed hfind ho]
    refine ⟨s.dropBid_bids b.tag, ?_⟩
    simp only [State.dropBid_uses hfind, if_true]

/-- What watches decided at the end of a frame leave of the conclusions about a lost CLAIM. -/
theorem lostClaim_of_watchStep {s x u : State} {t : Nat} {b : Bid} (hw : WatchStep x u)
    (hclock : x.clock = max s.clock t) (hvoices : x.voices = s.voices) (hmedia : x.media = s.media)
    (hstation : x.station = s.station) (htimebase : x.timebase = s.timebase)
    (ho : b.window = .opened → x.catalogue = s.catalogue ∧
      x.claims.bids = s.claims.bids.map fun c => if c.tag = b.tag then { c with offer := .waiting } else c)
    (hc : b.window = .closed → x.claims.bids = s.claims.bids.filter (fun c => c.tag != b.tag) ∧
      x.uses? b.region = (s.uses? b.region).map (· - 1)) :
    u.clock = max s.clock t ∧ u.voices = s.voices ∧ u.media = s.media ∧ u.station = s.station ∧
      u.timebase = s.timebase ∧
      (b.window = .opened → u.catalogue = s.catalogue ∧
        u.claims.bids = s.claims.bids.map fun c => if c.tag = b.tag then { c with offer := .waiting } else c) ∧
      (b.window = .closed → u.claims.bids = s.claims.bids.filter (fun c => c.tag != b.tag) ∧
        u.uses? b.region = (s.uses? b.region).map (· - 1)) := by
  refine ⟨hw.clock.trans hclock, hw.voices.trans hvoices, hw.media.trans hmedia, hw.station.trans hstation,
    hw.timebase.trans htimebase, fun h => ?_, fun h => ?_⟩
  · obtain ⟨hcat, hbids⟩ := ho h
    exact ⟨hw.catalogue.trans hcat, hw.bids.trans hbids⟩
  · obtain ⟨hbids, huses⟩ := hc h
    exact ⟨hw.bids.trans hbids, (State.uses_congr (congrArg Catalogue.regions hw.catalogue) _).trans huses⟩

/-- Settles O17: the entry returns, then the port stops, and at most watches are decided. -/
theorem lostClaimsReturnToWaiting : Obligations.LostClaimsReturnToWaiting := by
  intro s t kind b f c hp hb hn hc
  rcases hc with rfl | rfl
  · let p : Port := { bus := .receiving kind.toNat, sending := none }
    let x := ((s.atTime t).setPort p).claimReturned b.tag
    have hx : exec (.arbitrationLost t kind) s = .next (if kind = 1#4 then x else x.settleDue) := by
      simp only [exec, execArbitrationLost, State.atTime, State.setClock_port, hp]
      rfl
    obtain ⟨hclock, hstation, hport, hvoices, htimebase, hmedia⟩ :=
      State.claimReturned_step ((s.atTime t).setPort p) b.tag
    obtain ⟨ho, hcl⟩ := State.claimReturned_entry (s := (s.atTime t).setPort p) hb hn
    have hw : WatchStep x (if kind = 1#4 then x else x.settleDue) := by
      split
      · exact WatchStep.refl x
      · exact x.settleDue_step
    obtain ⟨h1, h2, h3, h4, h5, h6, h7⟩ := lostClaim_of_watchStep (s := s) hw hclock hvoices hmedia hstation htimebase ho hcl
    exact ⟨_, hx, h1, fun _ => hw.port.trans hport, nofun, nofun, h2, h3, h4, h5, h6, h7⟩
  · let x := (s.atTime t).claimReturned b.tag
    have hx : exec (.bitError t) s = .next x.stopClaim := by
      simp only [exec, execBitError, State.atTime, State.setClock_port, hp]
      rfl
    obtain ⟨hclock, hstation, hport, hvoices, htimebase, hmedia⟩ := State.claimReturned_step (s.atTime t) b.tag
    obtain ⟨ho, hcl⟩ := State.claimReturned_entry (s := s.atTime t) hb hn
    have hw : WatchStep (x.setPort x.port.stop) x.stopClaim := x.stopClaim_step
    obtain ⟨h1, h2, h3, h4, h5, h6, h7⟩ := lostClaim_of_watchStep (s := s) hw hclock hvoices hmedia hstation htimebase ho hcl
    have hstop : x.stopClaim.port = s.port.stop := hw.port.trans (congrArg Port.stop hport)
    refine ⟨_, hx, h1, nofun, fun _ hr => ?_, fun r _ hr => ?_, h2, h3, h4, h5, h6, h7⟩
    · rw [hstop, Port.stop, hr]
    · rw [hstop, Port.stop, hr]

/-! ### The windows -/

/-- Settles O27: by the entry's offer. -/
theorem bidWindowsClose : Obligations.BidWindowsClose := by
  intro s tag b hb
  have hb' : (s.atTime b.expiry).bid? tag.toNat = some b := hb
  cases ho : b.offer with
  | waiting =>
    have hx : exec (.bidWindowExpiry tag) s = .next ((s.atTime b.expiry).dropBid tag.toNat) := by
      simp only [exec, execBidWindowExpiry, hb, ho]
    obtain ⟨hclock, -, hport, -, hvoices, -, hmedia, -, -, hnotices, -⟩ := (s.atTime b.expiry).dropBid_step tag.toNat
    refine ⟨_, hx, hclock, hvoices, hport, hmedia, hnotices, fun _ => ⟨(s.atTime b.expiry).dropBid_bids tag.toNat, ?_⟩,
      nofun⟩
    rw [State.dropBid_uses hb']
    simp only [if_true]
    rfl
  | sending =>
    have hx : exec (.bidWindowExpiry tag) s =
        .next ((s.atTime b.expiry).updateBid tag.toNat fun b => { b with window := .closed }) := by
      simp only [exec, execBidWindowExpiry, hb, ho]
    refine ⟨_, hx, rfl, rfl, rfl, rfl, rfl, nofun, fun _ => ⟨rfl, ?_⟩⟩
    rw [← ho]
    have hfind := find_updateFirst (fun c : Bid => c.tag) tag.toNat (fun b => { b with window := .closed }) (fun _ => rfl)
      s.claims.bids
    exact hfind.trans (congrArg (Option.map fun b => { b with window := .closed }) hb)

/-- A watch decided with room in the queue: it leaves, and a DECLINED joins unless it heard a CLAIM (R138). -/
theorem State.decideWatch_room {s : State} {w : Watch} (hl : s.notices.queue.length < 32) :
    s.decideWatch w = { s with
      claims := { s.claims with watches := s.claims.watches.filter (·.tag != w.tag) }
      notices := { s.notices with queue := s.notices.queue ++ if w.heard then [] else
        [{ addressee := w.requester, isOpen := false, body := .declined w.tag .noneClaimed w.region }] } } := by
  unfold State.decideWatch
  cases w.heard with
  | true => simp only [if_true, List.append_nil]; rfl
  | false =>
    have hroom : (s.dropWatch w.tag).notices.queue.length < 32 := hl
    simp only [Bool.false_eq_true, if_false]
    rw [State.queueNotice_room_eq (s := s.dropWatch w.tag) (body := .declined w.tag .noneClaimed w.region) rfl hroom]
    rfl

/-- Settles O28. -/
theorem watchesDeclineUnclaimedNotes : Obligations.WatchesDeclineUnclaimedNotes := by
  intro s t tag w hw declined hdeclined
  have htag : w.tag = tag.toNat := by
    have := List.find?_some hw
    simpa using this
  refine ⟨fun hbus => ?_, fun hbus hset hl => ?_, fun hk hs hdue hws hl => ?_⟩
  · have hx : exec (.watchWindowExpiry tag) s = .next ((s.atTime w.expiry).deferWatch tag.toNat) := by
      simp only [exec, execWatchWindowExpiry, hw, State.atTime, State.setClock_port, hbus, if_true]
    refine ⟨_, hx, ?_, rfl, rfl⟩
    have hfind := find_updateFirst (fun c : Watch => c.tag) tag.toNat (fun w => { w with due := true }) (fun _ => rfl)
      s.claims.watches
    exact hfind.trans (congrArg (Option.map fun w => { w with due := true }) hw)
  · have hx : exec (.watchWindowExpiry tag) s = .next ((s.atTime w.expiry).decideWatch w).finish := by
      simp only [exec, execWatchWindowExpiry, hw, State.atTime, State.setClock_port, hbus, if_false]
    have hdec := State.decideWatch_room (s := s.atTime w.expiry) (w := w) hl
    have hnotices : ((s.atTime w.expiry).decideWatch w).notices = { s.notices with
        queue := s.notices.queue ++ if w.heard then [] else [declined] } := by rw [hdec, hdeclined]; rfl
    have hwatches : ((s.atTime w.expiry).decideWatch w).claims.watches =
        s.claims.watches.filter (fun x => x.tag != tag.toNat) := by rw [hdec, htag]; rfl
    have hstep := (s.atTime w.expiry).decideWatch_step w
    rw [hx]
    generalize (s.atTime w.expiry).decideWatch w = x at hnotices hwatches hstep
    have hport : x.port = s.port := hstep.port
    have hclock : x.clock = max s.clock w.expiry := hstep.clock
    have hset' : x.settled := (congrArg Media.frontFailed hstep.media).trans hset
    have hoffer := State.offer_step x.recomputeReady
    rw [← State.finish_settled _ hset'] at hoffer
    refine ⟨_, rfl, x.finish_voices.trans hstep.voices, x.finish_clock.trans hclock, x.finish_station.trans hstep.station,
      x.finish_watches.trans hwatches, ?_, fun hidle hr => ?_, fun hidle hsend hr hq hb => ?_⟩
    · rw [hoffer.queue, State.recomputeReady_notices, hnotices]
    · rw [State.finish_busy x hset' (Port.mayBegin_alone _ _ (hport ▸ hidle) (hport ▸ hr))]
      exact hport
    · rw [State.finish_settled x hset']
      have hbegin : x.recomputeReady.port.mayBegin x.recomputeReady.clock = true := by
        simp [Port.mayBegin, hport, hsend, hidle]
      have hbids : x.recomputeReady.claims.bids = [] := hstep.bids.trans hb
      have hqueue : x.recomputeReady.notices.queue = if w.heard then [] else [declined] := by
        rw [State.recomputeReady_notices, hnotices, hq]
        rfl
      cases hheard : w.heard with
      | true =>
        rw [hheard] at hqueue
        exact (State.offer_nothing hbegin hbids hqueue).trans hport
      | false =>
        rw [hheard] at hqueue
        have hrival : x.port.rival = none := hport ▸ hr
        rw [State.offer_notice hbegin hbids hqueue]
        have hloss : x.notices.loss = s.notices.loss := by rw [hnotices]
        have hstation : x.station = s.station := hstep.station
        simp [State.beginNotice, Port.begun, hrival, hloss, hstation]
  · have hsettle : (s.atTime t).endFrame.settleDue = (s.atTime t).endFrame.decideWatch w := by
      unfold State.settleDue
      have : (s.atTime t).endFrame.claims.watches.filter (·.due) = [w] := by
        show s.claims.watches.filter (·.due) = [w]
        rw [hws, List.filter_singleton, hdue]
        rfl
      rw [this]
      rfl
    obtain ⟨k, hk⟩ := hk
    have hass : (s.atTime t).assembling = true := by
      simp [State.assembling, BusCondition.isReceiving, State.atTime, hk, hs]
    have hx : exec (.frameCutShort t) s = .next (s.atTime t).endFrame.settleDue :=
      congrArg Host.Outcome.next (if_pos hass)
    have hroom : (s.atTime t).endFrame.notices.queue.length < 32 := hl
    rw [hx, hsettle, State.decideWatch_room hroom, hdeclined]
    have hleft : (s.atTime t).endFrame.claims.watches.filter (·.tag != w.tag) = [] := by
      show s.claims.watches.filter (·.tag != w.tag) = []
      rw [hws]
      simp
    rw [hleft]
    simp [State.endFrame, State.frameEnded, State.atTime, State.setClock, State.setPort, hs]

end Sys2Proof.Machine
end

