-- ==== Sys2Proof/Proofs/Resting.lean ====
section
/-! SUPPORT. The voices' operations leave the library alone: where no IDLE die holds a long operation, none begins or
ends, no block changes, and the region table is as it was but for in-use counts (O54, O55). -/

namespace Sys2Proof.Machine

/-- The long operations of a die: the one under way or suspended, and those waiting. -/
def Die.work (die : Die) : Option LongOp × List LongOp := (die.state.longOp?, die.longOps)

/-- An IDLE die holds no long operation (R94). -/
def State.IdleFree (s : State) : Prop := ∀ die ∈ s.media.dies, die.state = .idle → die.longOps = []

/-- From `s` to `t` the region table is as it was but for in-use counts, and, where no IDLE die holds a long operation,
each die holds the long operations it held and no block has changed. -/
structure Resting (s t : State) : Prop where
  table    : SameTable s t
  installs : t.catalogue.pendingInstalls = s.catalogue.pendingInstalls
  scan     : t.catalogue.scan = s.catalogue.scan
  read     : t.delivery.installRead = s.delivery.installRead
  idle     : s.IdleFree → t.IdleFree
  work     : s.IdleFree → t.media.dies.map Die.work = s.media.dies.map Die.work
  blocks   : s.IdleFree → t.catalogue.blockTable = s.catalogue.blockTable
  refused  : s.IdleFree → t.media.frontFailed = s.media.frontFailed

theorem Resting.refl (s : State) : Resting s s := ⟨rfl, rfl, rfl, rfl, id, fun _ => rfl, fun _ => rfl, fun _ => rfl⟩

theorem Resting.trans {s t u : State} (a : Resting s t) (b : Resting t u) : Resting s u :=
  ⟨b.table.trans a.table, b.installs.trans a.installs, b.scan.trans a.scan, b.read.trans a.read,
    fun h => b.idle (a.idle h), fun h => (b.work (a.idle h)).trans (a.work h),
    fun h => (b.blocks (a.idle h)).trans (a.blocks h), fun h => (b.refused (a.idle h)).trans (a.refused h)⟩

theorem Resting.foldl {α : Type} (f : State → α → State) (h : ∀ s a, Resting s (f s a)) (l : List α) :
    ∀ s, Resting s (l.foldl f s) := by
  induction l with
  | nil => exact Resting.refl
  | cons a l ih => exact fun s => (h s a).trans (ih _)

/-! ### Changes of one block -/

section Updates
variable {s t : State} (h : Resting s t)
include h

theorem Resting.setVoices (x : List Voice) : Resting s (t.setVoices x) :=
  h.trans ⟨rfl, rfl, rfl, rfl, id, fun _ => rfl, fun _ => rfl, fun _ => rfl⟩

theorem Resting.setTimebase (x : Timebase) : Resting s (t.setTimebase x) :=
  h.trans ⟨rfl, rfl, rfl, rfl, id, fun _ => rfl, fun _ => rfl, fun _ => rfl⟩

theorem Resting.setPort (x : Port) : Resting s (t.setPort x) :=
  h.trans ⟨rfl, rfl, rfl, rfl, id, fun _ => rfl, fun _ => rfl, fun _ => rfl⟩

theorem Resting.setClaims (x : ClaimUnit) : Resting s (t.setClaims x) :=
  h.trans ⟨rfl, rfl, rfl, rfl, id, fun _ => rfl, fun _ => rfl, fun _ => rfl⟩

theorem Resting.setNotices (x : NoticeQueue) : Resting s (t.setNotices x) :=
  h.trans ⟨rfl, rfl, rfl, rfl, id, fun _ => rfl, fun _ => rfl, fun _ => rfl⟩

theorem Resting.notice (addressee : Nat) (body : NoticeBody) : Resting s (t.queueNotice addressee body) :=
  h.setNotices _

theorem Resting.updateVoice (tag : Nat) (f : Voice → Voice) : Resting s (t.updateVoice tag f) := h.setVoices _

theorem Resting.setDelivery (x : DeliveryEngine) (hx : x.installRead = t.delivery.installRead) :
    Resting s (t.setDelivery x) :=
  h.trans ⟨rfl, rfl, rfl, hx, id, fun _ => rfl, fun _ => rfl, fun _ => rfl⟩

theorem Resting.releaseUse (id : Nat) : Resting s (t.releaseUse id) :=
  h.trans ⟨t.releaseUse_table id, rfl, rfl, rfl, fun h => h, fun _ => rfl, fun _ => rfl, fun _ => rfl⟩

end Updates

/-- A use more of a region. -/
theorem State.addUse_resting (s : State) (id : Nat) : Resting s (s.addUse id) :=
  ⟨updateFirst_map _ (fun r : Region => { r with inUse := r.inUse + 1 }) Region.unused (fun _ => rfl) _, rfl, rfl, rfl,
    fun h => h, fun _ => rfl, fun _ => rfl, fun _ => rfl⟩

theorem State.releaseUses_resting (ids : List Nat) (s : State) : Resting s (s.releaseUses ids) :=
  Resting.foldl _ (fun s id => (Resting.refl s).releaseUse id) ids s

/-- A change of the media controller in which every die keeps its long operations and none becomes IDLE with one. -/
theorem Resting.setMedia {s : State} {x : Media} (hw : x.dies.map Die.work = s.media.dies.map Die.work)
    (hi : s.IdleFree → ∀ die ∈ x.dies, die.state = .idle → die.longOps = [])
    (hf : x.frontFailed = s.media.frontFailed) : Resting s (s.setMedia x) :=
  ⟨rfl, rfl, rfl, rfl, hi, fun _ => hw, fun _ => rfl, fun _ => hf⟩

/-- A die of the list that is not out of range. -/
theorem State.die_mem {s : State} {d : Nat} (h : d < s.media.dies.length) : s.die d ∈ s.media.dies := by
  unfold State.die
  rw [List.getD_eq_getElem?_getD, List.getElem?_eq_getElem h]
  exact List.getElem_mem h

theorem map_set_of_eq {α β : Type} {l : List α} {d : Nat} {x y : α} {g : α → β}
    (hd : l.getD d y = x) (z : α) (hg : g z = g x) : (l.set d z).map g = l.map g := by
  rw [List.map_set]
  by_cases h : d < l.length
  · rw [List.getD_eq_getElem?_getD, List.getElem?_eq_getElem h] at hd
    rw [hg, ← hd]
    refine List.ext_getElem? fun i => ?_
    rw [List.getElem?_set]
    split
    next hi =>
      subst hi
      simp [h]
    next => rfl
  · rw [List.set_eq_of_length_le (by simpa using h)]

/-- One die record replaced by one with its long operations. -/
theorem Resting.setDie {s : State} {d : Nat} {x : Die} (free : Nat) (hw : x.work = (s.die d).work)
    (hi : (s.die d).state = .idle ∨ x.state ≠ .idle ∨ x.longOps = []) :
    Resting s (s.setMedia { s.media with dies := s.media.dies.set d x, freeBuffers := free }) := by
  refine .setMedia (map_set_of_eq rfl x hw) (fun hs die hm hidle => ?_) rfl
  by_cases hd : d < s.media.dies.length
  · rcases List.mem_or_eq_of_mem_set hm with hm | rfl
    · exact hs die hm hidle
    · rcases hi with hi | hi | hi
      · rw [show die.longOps = (s.die d).longOps from congrArg Prod.snd hw]
        exact hs _ (State.die_mem hd) hi
      · exact absurd hidle hi
      · exact hi
  · rw [List.set_eq_of_length_le (by simpa using hd)] at hm
    exact hs die hm hidle

theorem modify_eq_set {α : Type} (l : List α) (d : Nat) (f : α → α) (y : α) : l.modify d f = l.set d (f (l.getD d y)) := by
  refine List.ext_getElem? fun i => ?_
  rw [List.getElem?_modify, List.getElem?_set]
  by_cases h : d = i
  · subst h
    by_cases hd : d < l.length
    · simp [hd, List.getD_eq_getElem?_getD]
    · simp [hd]
  · simp [h]

theorem Resting.updateDie {s : State} {d : Nat} {f : Die → Die} (hw : (f (s.die d)).work = (s.die d).work)
    (hi : (s.die d).state = .idle ∨ (f (s.die d)).state ≠ .idle ∨ (f (s.die d)).longOps = []) :
    Resting s (s.updateDie d f) := by
  have h := Resting.setDie s.media.freeBuffers hw hi
  unfold State.updateDie
  rw [modify_eq_set s.media.dies d f Die.reset]
  exact h

theorem Die.begin_work {die x : Die} {free free' : Nat} (h : die.begin? free = some (x, free')) :
    x.work = die.work ∧ x.state ≠ .idle := by
  unfold Die.begin? at h
  split at h
  · cases h
  next r rest free2 _ =>
    obtain ⟨y, hy, hx⟩ := Option.map_eq_some_iff.1 h
    simp only [Prod.mk.injEq] at hx
    obtain ⟨rfl, -⟩ := hx
    unfold Die.work
    cases hs : die.state <;> rw [hs] at hy <;> cases hy <;> exact ⟨rfl, nofun⟩

theorem State.beginRead_resting {s t : State} {d : Nat} (h : s.beginRead? d = some t) : Resting s t := by
  unfold State.beginRead? at h
  obtain ⟨⟨x, free⟩, hx, rfl⟩ := Option.map_eq_some_iff.1 h
  obtain ⟨hw, hi⟩ := Die.begin_work hx
  exact Resting.setDie free hw (.inr (.inl hi))

theorem State.beginRead_getD_resting (s : State) (d : Nat) : Resting s ((s.beginRead? d).getD s) := by
  cases h : s.beginRead? d with
  | none => exact Resting.refl s
  | some t => exact State.beginRead_resting h

/-- With no long operation waiting an idle choice begins none (R94). -/
theorem State.takeLongOp_none {s : State} {d : Nat} (h : (s.die d).longOps = []) :
    s.takeLongOp d = (s.updateDie d fun die => { die with longOps := [] }, false) := by
  unfold State.takeLongOp
  rw [h]
  simp only [splitRefused, List.map_nil, List.append_nil]
  rfl

/-- An IDLE die with nothing waiting, or one that is not IDLE, begins no long operation (R94). -/
theorem State.idleChoice_of_empty {s : State} {d : Nat} (h : (s.die d).longOps = []) : Resting s (s.idleChoice d) := by
  unfold State.idleChoice
  split
  next hidle =>
    dsimp only
    split
    next u hu =>
      split at hu
      · exact State.beginRead_resting hu
      · cases hu
    next =>
      rw [State.takeLongOp_none h]
      simp only [Bool.false_eq_true, if_false]
      have hlist : Resting s (s.updateDie d fun die => { die with longOps := [] }) :=
        .updateDie (by unfold Die.work; rw [h]) (.inl hidle)
      exact hlist.trans (State.beginRead_getD_resting _ d)
  next => exact Resting.refl s

/-- The table and the catalogue's lists are not the dies' matter. -/
theorem Resting.of_die {s t : State} (h : DieStep s t) (hidle : s.IdleFree → Resting s t) : Resting s t :=
  ⟨.of_eq h.regions, h.installs, h.scan, by rw [h.media.delivery], fun hs => (hidle hs).idle hs,
    fun hs => (hidle hs).work hs, fun hs => (hidle hs).blocks hs, fun hs => (hidle hs).refused hs⟩

theorem State.idleChoice_resting (s : State) (d : Nat) : Resting s (s.idleChoice d) := by
  refine .of_die (s.idleChoice_die d) fun hs => ?_
  by_cases hidle : (s.die d).state = .idle
  · refine State.idleChoice_of_empty ?_
    by_cases hd : d < s.media.dies.length
    · exact hs _ (State.die_mem hd) hidle
    · unfold State.die
      rw [List.getD_eq_getElem?_getD, List.getElem?_eq_none_iff.2 (by omega)]
      rfl
  · rw [State.idleChoice_of_busy hidle]
    exact Resting.refl s

/-! ### The dies' choices -/

theorem State.serviceDecision_resting (s : State) (d : Nat) : Resting s (s.serviceDecision d) := by
  unfold State.serviceDecision
  split
  next op hop =>
    split
    · exact s.beginRead_getD_resting d
    · exact .updateDie (by simp only [Die.work, DieState.longOp?, hop]) (.inr (.inl nofun))
  all_goals exact Resting.refl s

theorem State.suspendTest_resting (s : State) (d : Nat) : Resting s (s.suspendTest d) := by
  unfold State.suspendTest
  split
  next op hop =>
    split
    · exact .updateDie (by simp only [Die.work, DieState.longOp?, hop]) (.inr (.inl nofun))
    · exact Resting.refl s
  all_goals exact Resting.refl s

theorem State.readsChanged_resting (s : State) (d : Nat) : Resting s (s.readsChanged d) := by
  unfold State.readsChanged
  split
  · exact s.idleChoice_resting d
  · exact s.suspendTest_resting d
  · exact s.serviceDecision_resting d
  all_goals exact Resting.refl s

theorem State.reads_resting (s : State) (d : Nat) (f : Die → List ReadRequest) :
    Resting s (s.updateDie d fun die => { die with reads := f die }) := by
  by_cases h : (s.die d).state = .idle
  · exact .updateDie rfl (.inl h)
  · exact .updateDie rfl (.inr (.inl h))

theorem State.joinReads_resting (s : State) (d : Nat) (r : ReadRequest) : Resting s (s.joinReads d r) :=
  s.reads_resting d fun die => placeRead r die.reads

theorem State.freeBuffers_setMedia_resting (s : State) (n : Nat) :
    Resting s (s.setMedia { s.media with freeBuffers := n }) := .setMedia rfl (fun h => h) rfl

theorem State.freeBuffer_resting (s : State) : Resting s s.freeBuffer := by
  unfold State.freeBuffer
  dsimp only
  split
  · exact (s.freeBuffers_setMedia_resting _).trans (State.beginRead_getD_resting _ _)
  · exact s.freeBuffers_setMedia_resting _

theorem State.freeBuffers_resting (n : Nat) : ∀ s : State, Resting s (s.freeBuffers n) := by
  induction n with
  | zero => exact Resting.refl
  | succ n ih => exact fun s => s.freeBuffer_resting.trans (ih _)

theorem State.syncReads_resting (s : State) : Resting s s.syncReads := by
  refine Resting.foldl _ (fun s d => ?_) _ s
  dsimp only
  split
  · exact (s.reads_resting d fun _ => reorderReads (fun tag => (s.voice? tag).bind (·.dry)) (s.die d).reads).trans (State.readsChanged_resting _ d)
  · exact Resting.refl s

theorem State.suspendTests_resting (s : State) : Resting s s.suspendTests :=
  Resting.foldl _ State.suspendTest_resting _ s

/-! ### Voices -/

theorem State.recomputeDry_resting (s : State) (tag : Nat) : Resting s (s.recomputeDry tag) :=
  ((Resting.refl s).updateVoice tag _).trans (State.syncReads_resting _)

theorem State.stitch_resting (s : State) (v : Voice) (f : FollowSlot) : Resting s (s.stitch v f) :=
  (((Resting.refl s).updateVoice v.tag _).releaseUse _).notice _ _

theorem State.regionEnd_resting (s : State) (v : Voice) (r : Region) : Resting s (s.regionEnd v r) := by
  unfold State.regionEnd
  dsimp only
  split
  · exact (Resting.refl s).updateVoice v.tag _
  · exact (((Resting.refl s).updateVoice v.tag _).updateVoice v.tag _).notice _ _

theorem State.advanceCursor_resting (s : State) (tag : Nat) : Resting s (s.advanceCursor tag) := by
  unfold State.advanceCursor
  split
  · exact Resting.refl s
  · split
    · split
      · exact (Resting.refl s).updateVoice tag _
      · split
        · exact (Resting.refl s).updateVoice tag _
        · split
          · exact s.stitch_resting _ _
          · exact s.regionEnd_resting _ _
    · exact Resting.refl s

theorem State.issue_resting (s : State) (v : Voice) : Resting s (s.issue v) := by
  unfold State.issue
  split
  · split
    · exact (((s.joinReads_resting _ _).updateVoice v.tag _).trans (State.advanceCursor_resting _ v.tag)).trans
        (State.readsChanged_resting _ _)
    · exact Resting.refl s
  · exact Resting.refl s

theorem State.testEligible_resting (s : State) (tag : Nat) : Resting s (s.testEligible tag) := by
  unfold State.testEligible
  split
  · split
    · exact s.issue_resting _
    · exact Resting.refl s
  · exact Resting.refl s

theorem State.completeIfLimit_resting (s : State) (tag : Nat) : Resting s (s.completeIfLimit tag) := by
  unfold State.completeIfLimit
  split
  · split
    · exact (Resting.refl s).updateVoice tag _
    · exact Resting.refl s
  · exact Resting.refl s

theorem State.passOver_resting (tag n : Nat) : ∀ s : State, Resting s (s.passOver tag n) := by
  induction n with
  | zero => exact Resting.refl
  | succ n ih =>
    intro s
    unfold State.passOver
    split
    · split
      · exact Resting.refl s
      · exact (((Resting.refl s).updateVoice tag _).trans (State.advanceCursor_resting _ tag)).trans (ih _)
    · exact Resting.refl s

theorem State.skip_resting (s : State) (tag gapStart count : Nat) : Resting s (s.skip tag gapStart count) := by
  unfold State.skip
  split
  · exact Resting.refl s
  next v _ =>
    have hpass := State.passOver_resting tag v.skipCount s
    dsimp only
    split
    · exact hpass
    · split
      · exact (hpass.notice _ _).updateVoice tag _
      · exact (((hpass.notice _ _).updateVoice tag _).trans (State.recomputeDry_resting _ tag)).trans
          (State.testEligible_resting _ tag)

theorem State.dryEvent_resting (s : State) (v : Voice) : Resting s (s.dryEvent v) := by
  unfold State.dryEvent
  dsimp only
  split
  · exact s.skip_resting _ _ _
  · exact ((Resting.refl s).updateVoice v.tag _).notice _ _

theorem State.deliveryCompletion_resting (s : State) (tag ring : Nat) : Resting s (s.deliveryCompletion tag ring) := by
  unfold State.deliveryCompletion
  split
  · exact Resting.refl s
  · split
    · have h (f : Voice → Voice) := (Resting.refl s).updateVoice tag f
      dsimp only
      split
      · exact (h _).updateVoice tag _
      · split
        · exact (h _).trans (State.skip_resting _ _ _ _)
        · exact (((h _).updateVoice tag _).trans (State.recomputeDry_resting _ tag)).trans
            (State.testEligible_resting _ tag)
    · exact Resting.refl s

theorem DieState.mapRead_longOp (x : DieState) (f : ActiveRead → ActiveRead) :
    (x.mapRead f).longOp? = x.longOp? ∧ (x.mapRead f = .idle → x = .idle) := by
  cases x <;> exact ⟨rfl, fun h => by cases h <;> rfl⟩

theorem State.discarded_resting (s : State) (tags : List Nat) : Resting s (s.discarded tags) := by
  have hmedia : Resting s (s.setMedia { s.media with dies := s.media.dies.map (·.discard tags) }) := by
    refine Resting.setMedia ?_ ?_ rfl
    · rw [List.map_map]
      refine List.map_congr_left fun die _ => ?_
      simp only [Function.comp, Die.work, Die.discard, (DieState.mapRead_longOp _ _).1]
    · intro hs die hm hidle
      obtain ⟨x, hx, rfl⟩ := List.mem_map.1 hm
      exact hs x hx ((DieState.mapRead_longOp _ _).2 hidle)
  exact hmedia.setDelivery (s.delivery.discard tags) rfl

theorem State.discardSegments_resting (s : State) (tags : List Nat) : Resting s (s.discardSegments tags) := by
  rw [State.discardSegments_eq]
  exact ((s.discarded_resting tags).trans (State.freeBuffers_resting _ _)).trans
    (Resting.foldl _ State.readsChanged_resting _ _)

theorem State.retireRecord_resting (s : State) (reason : RetireReason) (v : Voice) :
    Resting s (s.retireRecord reason v) := by
  have h : Resting s (s.withoutVoice v) :=
    (((Resting.refl s).setVoices _).trans (State.releaseUses_resting v.uses _)).setNotices _
  rw [State.retireRecord_eq]
  split
  · exact h
  · exact h.notice _ _

theorem State.retire_resting (s : State) (tag : Nat) (reason : RetireReason) : Resting s (s.retire tag reason) := by
  unfold State.retire
  split
  · exact Resting.refl s
  · exact (s.discardSegments_resting _).trans (State.retireRecord_resting _ _ _)

theorem State.retireAll_resting (s : State) (reason : RetireReason) : Resting s (s.retireAll reason) :=
  (s.discardSegments_resting _).trans (Resting.foldl _ (fun s v => s.retireRecord_resting reason v) _ _)

theorem State.fixFade_resting (s : State) (v : Voice) (length : Nat) : Resting s (s.fixFade v length) := by
  unfold State.fixFade
  dsimp only
  split
  · exact ((((Resting.refl s).updateVoice v.tag _).notice _ _).releaseUse _).trans (State.completeIfLimit_resting _ _)
  · exact (((Resting.refl s).updateVoice v.tag _).notice _ _).trans (State.completeIfLimit_resting _ _)

theorem State.applyEnd_resting (s : State) (v : Voice) (mode : CutOrFade) (to_ : Nat) :
    Resting s (s.applyEnd v mode to_) := by
  unfold State.applyEnd
  split
  · exact s.retire_resting _ _
  · split
    · exact (Resting.refl s).notice _ _
    · exact s.fixFade_resting _ _

theorem State.applyPendingEnd_resting (s : State) (tag : Nat) : Resting s (s.applyPendingEnd tag) := by
  unfold State.applyPendingEnd
  split
  · exact Resting.refl s
  · split
    · exact Resting.refl s
    · split
      · exact ((Resting.refl s).updateVoice tag _).trans (State.applyEnd_resting _ _ _ _)
      · exact Resting.refl s

theorem State.steal_resting (s : State) : Resting s s.steal := by
  unfold State.steal
  generalize s.idleRecord? = a, s.stealVictim? = b
  split
  · exact s.retire_resting _ _
  · exact Resting.refl s

theorem State.createVoice_resting (s : State) (b : Bid) : Resting s (s.createVoice b) := by
  unfold State.createVoice
  have h := s.steal_resting
  generalize s.steal = u at h
  dsimp only
  generalize u.idleRecord? = a
  split
  · exact (h.setVoices _).trans (State.testEligible_resting _ _)
  · exact h.releaseUse _

theorem State.afterTick_resting (s : State) (v : Voice) : Resting s (s.afterTick v) := by
  unfold State.afterTick
  have h : Resting s (match s.voice? v.tag with
      | some w => if v.consumed < w.consumed then s.testEligible v.tag else s
      | none => s) := by
    split
    · split
      · exact s.testEligible_resting _
      · exact Resting.refl s
    · exact Resting.refl s
  dsimp only
  split
  · exact h.trans (State.recomputeDry_resting _ _)
  · exact h

theorem State.tickRunning_resting (s : State) (v : Voice) : Resting s (s.tickRunning v) := by
  unfold State.tickRunning
  have h := (Resting.refl s).updateVoice v.advanced.tag Voice.advanced
  dsimp only
  split
  · exact h.trans (State.retire_resting _ _ _)
  · split
    · exact h.trans (State.retire_resting _ _ _)
    · refine (Resting.trans ?_ (State.applyPendingEnd_resting _ _)).trans (State.afterTick_resting _ _)
      split
      · exact h.trans (State.dryEvent_resting _ _)
      · exact h

theorem State.startScheduled_resting (s : State) (v : Voice) (start : Nat) : Resting s (s.startScheduled v start) := by
  unfold State.startScheduled
  split
  · exact ((Resting.refl s).updateVoice _ _).trans (State.recomputeDry_resting _ _)
  · exact Resting.refl s

theorem State.tickVoice_resting (s : State) (tag : Nat) : Resting s (s.tickVoice tag) := by
  unfold State.tickVoice
  split
  · exact Resting.refl s
  · split
    · exact s.tickRunning_resting _
    · exact (s.startScheduled_resting _ _).trans (State.applyPendingEnd_resting _ _)
    · exact s.applyPendingEnd_resting _

theorem State.recomputeHeld_resting (s : State) : Resting s s.recomputeHeld :=
  ((Resting.refl s).setVoices _).trans (State.syncReads_resting _)

/-! ### Delivery -/

theorem State.startPosting_resting (s : State) : Resting s s.startPosting := by
  unfold State.startPosting
  split
  · exact (Resting.refl s).setDelivery _ rfl
  · exact Resting.refl s

theorem State.joinDelivery_resting (s : State) (e : Delivery) : Resting s (s.joinDelivery e) :=
  ((Resting.refl s).setDelivery { s.delivery with queue := s.delivery.queue ++ [e] } rfl).trans
    (State.startPosting_resting _)

theorem State.postingEnded_resting (s : State) (p : Posting) : Resting s (s.postingEnded p) := by
  have h : Resting s (s.setDelivery { s.delivery with posting := none }).freeBuffer :=
    ((Resting.refl s).setDelivery { s.delivery with posting := none } rfl).trans (State.freeBuffer_resting _)
  unfold State.postingEnded
  dsimp only
  refine Resting.trans ?_ (State.startPosting_resting _)
  split
  · exact h
  · exact h.trans (State.deliveryCompletion_resting _ _ _)

theorem State.readResult_resting (s : State) (d : Nat) (r : ReadRequest) (v : Voice) (bad : BitVec 12) :
    Resting s (s.readResult d r v bad) := by
  unfold State.readResult
  dsimp only
  split
  · exact s.joinDelivery_resting _
  · split
    · exact s.joinReads_resting _ _
    · exact ((Resting.refl s).notice _ _).trans (State.joinDelivery_resting _ _)

theorem State.readOutcome_resting (s : State) (d : Nat) (a : ActiveRead) (bad : BitVec 12) :
    Resting s (s.readOutcome d a bad) := by
  unfold State.readOutcome
  split
  · exact s.readResult_resting _ _ _ _
  · exact s.freeBuffer_resting

end Sys2Proof.Machine
end

