-- ==== Sys2Proof/Proofs/Uses.lean ====
section
/-! SUPPORT. What keeps the uses of regions counted (O54): a change in which each in-use count follows its uses, while
the library's lists stay as they are. -/

namespace Sys2Proof.Machine

/-! ### From one lawful state to the next -/

/-- The uses depend on the regions of the bid entries and on the voice table. -/
theorem State.usesOf_congr_regions {s t : State} (hb : t.claims.bids.map (·.region) = s.claims.bids.map (·.region))
    (hv : t.voices = s.voices) (id : Nat) : t.usesOf id = s.usesOf id := by
  have h (u : State) : u.claims.bids.countP (·.region == id) = (u.claims.bids.map (·.region)).countP (· == id) := by
    rw [List.countP_map]
    rfl
  unfold State.usesOf
  rw [h, h, hb, hv]

/-- The ids of the table are distinct. -/
theorem State.usesLawful.idsApart {s : State} (h : s.usesLawful) : (s.catalogue.regions.map (·.id)).Nodup :=
  (List.nodup_append.1 h.distinct).2.1

theorem find_key_of_mem {α : Type} (key : α → Nat) {l : List α} (hn : (l.map key).Nodup) {x : α} (hx : x ∈ l) :
    l.find? (fun y => key y == key x) = some x := by
  induction l with
  | nil => cases hx
  | cons y l ih =>
    rw [List.map_cons, List.nodup_cons] at hn
    obtain ⟨hy, hl⟩ := hn
    rw [List.find?_cons]
    rcases List.mem_cons.1 hx with rfl | hx
    · simp
    · have hne : (key y == key x) = false := beq_eq_false_iff_ne.2 fun h => hy (h ▸ List.mem_map_of_mem hx)
      rw [hne]
      exact ih hl hx

theorem State.region?_of_mem {s : State} (hn : (s.catalogue.regions.map (·.id)).Nodup) {r : Region}
    (hr : r ∈ s.catalogue.regions) : s.region? r.id = some r := find_key_of_mem (fun r : Region => r.id) hn hr

theorem State.region?_mem {s : State} {id : Nat} {r : Region} (h : s.region? id = some r) :
    r ∈ s.catalogue.regions ∧ r.id = id := by
  refine ⟨List.mem_of_find?_eq_some h, ?_⟩
  have := List.find?_some h
  simpa using this

/-- A region in use, or not: its count is its uses. -/
theorem State.usesLawful.uses {s : State} (h : s.usesLawful) {id : Nat} {r : Region} (hr : s.region? id = some r) :
    s.uses? id = some (s.usesOf id) := by
  obtain ⟨hmem, rfl⟩ := State.region?_mem hr
  unfold State.uses?
  rw [hr, Option.map_some, h.counted r hmem]

/-- The table of `t` has the regions of `s` but for in-use counts: a region of one is one of the other. -/
theorem SameTable.mem {s t : State} (h : SameTable s t) {r : Region} (hr : r ∈ t.catalogue.regions) :
    ∃ r0 ∈ s.catalogue.regions, r0.id = r.id ∧ r0.state = r.state := by
  have hm : r.unused ∈ s.catalogue.regions.map Region.unused := h ▸ List.mem_map_of_mem hr
  obtain ⟨r0, hr0, he⟩ := List.mem_map.1 hm
  exact ⟨r0, hr0, show r0.unused.id = r.unused.id by rw [he], show r0.unused.state = r.unused.state by rw [he]⟩

theorem SameTable.symm {s t : State} (h : SameTable s t) : SameTable t s := Eq.symm h

theorem SameTable.ids {s t : State} (h : SameTable s t) :
    t.catalogue.regions.map (·.id) = s.catalogue.regions.map (·.id) := by
  have key (u : State) : u.catalogue.regions.map (·.id) = (u.catalogue.regions.map Region.unused).map (·.id) := by
    rw [List.map_map]
    rfl
  rw [key, key, h]

theorem SameTable.isSome {s t : State} (h : SameTable s t) (id : Nat) : (t.region? id).isSome = (s.region? id).isSome := by
  have key : (t.region? id).map Region.unused = (s.region? id).map Region.unused := congrFun h.look id
  have := congrArg Option.isSome key
  simpa using this

/-- From a lawful state the counts follow the uses, in which only LIVE regions gain one, and the lists stay. -/
theorem State.usesLawful.step {s t : State} (hs : s.usesLawful) (table : SameTable s t)
    (uses : ∀ id, s.uses? id = some (s.usesOf id) → t.uses? id = some (t.usesOf id))
    (more : ∀ id, s.usesOf id < t.usesOf id → ∃ r, s.region? id = some r ∧ r.state = .live)
    (installs : t.catalogue.pendingInstalls = s.catalogue.pendingInstalls) (scan : t.catalogue.scan = s.catalogue.scan)
    (work : t.installer.work = s.installer.work) (state : t.station.state = s.station.state)
    (starting : s.station.state = .starting → t.voices = [] ∧ t.claims.bids = []) : t.usesLawful where
  counted r hr := by
    obtain ⟨r0, hr0, hid, -⟩ := table.mem hr
    have h0 := hs.uses (State.region?_of_mem hs.idsApart hr0)
    rw [hid] at h0
    have h1 := uses r.id h0
    have hfind := State.region?_of_mem (s := t) (table.ids ▸ hs.idsApart) hr
    unfold State.uses? at h1
    rw [hfind] at h1
    simpa using h1
  named id hu := by
    rw [table.isSome]
    by_cases h : s.usesOf id < t.usesOf id
    · obtain ⟨r, hr, -⟩ := more id h
      rw [hr]
      rfl
    · exact hs.named id (by omega)
  distinct := by
    rw [work, table.ids]
    exact hs.distinct
  pending := by rw [installs, work, hs.pending]
  departing r hr hdep := by
    obtain ⟨r0, hr0, hid, hstate⟩ := table.mem hr
    have hfind0 := State.region?_of_mem hs.idsApart hr0
    have hzero := hs.departing r0 hr0 (hstate.trans hdep)
    rw [hs.counted r0 hr0, hid] at hzero
    have hle : t.usesOf r.id ≤ s.usesOf r.id := by
      by_contra h
      obtain ⟨r1, hr1, hlive⟩ := more r.id (by omega)
      rw [← hid, hfind0] at hr1
      cases hr1
      rw [hstate.trans hdep] at hlive
      cases hlive
    have h0 := hs.uses hfind0
    rw [hid] at h0
    have h1 := uses r.id h0
    unfold State.uses? at h1
    rw [State.region?_of_mem (s := t) (table.ids ▸ hs.idsApart) hr] at h1
    simp only [Option.map_some, Option.some.injEq] at h1
    omega
  removal sender id hw := by
    rw [work] at hw
    obtain ⟨r, hr, hid, hdep⟩ := hs.removal sender id hw
    obtain ⟨r0, hr0, hid0, hstate0⟩ := table.symm.mem hr
    exact ⟨r0, hr0, hid0.trans hid, hstate0.trans hdep⟩
  waiting := by
    rw [work]
    exact hs.waiting
  scanning := by
    rw [scan, state]
    exact hs.scanning
  starting h := by
    rw [state] at h
    obtain ⟨hv, hb⟩ := starting h
    obtain ⟨-, -, hw⟩ := hs.starting h
    exact ⟨hv, hb, work.trans hw⟩

/-! ### Voices and entries that give uses up -/

/-- The tags of the voices are distinct, and so are those of the bid entries. -/
def State.HoldersApart (s : State) : Prop := (s.voices.map (·.tag)).Nodup ∧ s.BidsApart

theorem State.tagsLawful.holders {s : State} (h : s.tagsLawful) : s.HoldersApart := by
  obtain ⟨hv, -, -, hb, -⟩ := h
  exact ⟨hv, hb⟩

/-- From `s` to `t` voices and entries may have given uses up, each in-use count follows its uses, and the library's
lists are as they were. -/
structure Counted (s t : State) : Prop where
  table    : SameTable s t
  installs : t.catalogue.pendingInstalls = s.catalogue.pendingInstalls
  scan     : t.catalogue.scan = s.catalogue.scan
  work     : t.installer.work = s.installer.work
  state    : t.station.state = s.station.state
  apart    : s.HoldersApart → t.HoldersApart
  uses     : s.HoldersApart → ∀ id, t.usesOf id ≤ s.usesOf id ∧
    ∀ n, s.uses? id = some (s.usesOf id + n) → t.uses? id = some (t.usesOf id + n)
  voices   : s.voices = [] → t.voices = []
  bids     : s.claims.bids = [] → t.claims.bids = []

theorem Counted.usesLawful {s t : State} (h : Counted s t) (ha : s.HoldersApart) (hs : s.usesLawful) : t.usesLawful :=
  hs.step h.table (fun id hu => (h.uses ha id).2 0 hu)
    (fun id hlt => absurd (h.uses ha id).1 (by omega)) h.installs h.scan h.work h.state fun hst => by
      obtain ⟨hv, hb, -⟩ := hs.starting hst
      exact ⟨h.voices hv, h.bids hb⟩

theorem Counted.refl (s : State) : Counted s s :=
  ⟨rfl, rfl, rfl, rfl, rfl, id, fun _ _ => ⟨Nat.le_refl _, fun _ h => h⟩, id, id⟩

theorem Counted.trans {s t u : State} (a : Counted s t) (b : Counted t u) : Counted s u := by
  refine ⟨b.table.trans a.table, b.installs.trans a.installs, b.scan.trans a.scan, b.work.trans a.work,
    b.state.trans a.state, b.apart ∘ a.apart, fun hs id => ?_, b.voices ∘ a.voices, b.bids ∘ a.bids⟩
  obtain ⟨h1, h2⟩ := a.uses hs id
  obtain ⟨h3, h4⟩ := b.uses (a.apart hs) id
  exact ⟨h3.trans h1, fun n h => h4 n (h2 n h)⟩

theorem Counted.foldl {α : Type} (f : State → α → State) (h : ∀ s a, Counted s (f s a)) (l : List α) :
    ∀ s, Counted s (l.foldl f s) := by
  induction l with
  | nil => exact Counted.refl
  | cons a l ih => exact fun s => (h s a).trans (ih _)

/-- A change that leaves the table's regions, the library's lists, the voices, and the entries but for their course. -/
theorem Counted.of_eq {s t : State} (hr : t.catalogue.regions = s.catalogue.regions)
    (hi : t.catalogue.pendingInstalls = s.catalogue.pendingInstalls) (hsc : t.catalogue.scan = s.catalogue.scan)
    (hw : t.installer.work = s.installer.work) (hst : t.station.state = s.station.state) (hv : t.voices = s.voices)
    (hb : t.claims.bids.map (·.region) = s.claims.bids.map (·.region))
    (ht : t.claims.bids.map (·.tag) = s.claims.bids.map (·.tag)) : Counted s t := by
  refine ⟨.of_eq hr, hi, hsc, hw, hst, fun h => ⟨hv ▸ h.1, ?_⟩, fun _ id => ?_, fun h => hv.trans h, fun h => ?_⟩
  · unfold State.BidsApart
    rw [ht]
    exact h.2
  · rw [State.usesOf_congr_regions hb hv, State.uses_congr hr]
    exact ⟨Nat.le_refl _, fun _ h => h⟩
  · rw [h, List.map_nil] at hb
    exact List.map_eq_nil_iff.1 hb

/-- A voice's operation (R9). -/
theorem VoiceTo.counted {G : Nat → Prop} {g : Nat} {o : Voice → Option Voice} {s t : State} (h : VoiceTo G g o s t)
    (hr : Resting s t) : Counted s t := by
  refine ⟨h.table, hr.installs, hr.scan, by rw [h.step.installer], by rw [h.step.station], fun ha => ⟨?_, ?_⟩,
    fun ha id => h.uses ha.1 id, fun hv => ?_, fun hb => by rw [h.step.claims, hb]⟩
  · rw [h.voices]
    exact (voicesAfter_tags h.tag).nodup ha.1
  · unfold State.BidsApart
    rw [h.step.claims]
    exact ha.2
  · rw [h.voices, hv]
    have := voicesAfter_tags (g := g) (l := []) h.tag
    simpa using this

/-- The dies' operations (R94). -/
theorem DieStep.counted {s t : State} (h : DieStep s t) : Counted s t :=
  .of_eq h.regions h.installs h.scan (by rw [h.media.installer]) (by rw [h.media.station]) h.media.voices
    (by rw [h.media.claims]) (by rw [h.media.claims])

theorem WatchStep.counted {s t : State} (h : WatchStep s t) : Counted s t :=
  .of_eq (by rw [h.catalogue]) (by rw [h.catalogue]) (by rw [h.catalogue]) (by rw [h.installer]) (by rw [h.station])
    h.voices (by rw [h.bids]) (by rw [h.bids])

section Updates
variable {s t : State} (h : Counted s t)
include h

theorem Counted.setTimebase (x : Timebase) : Counted s (t.setTimebase x) :=
  h.trans (.of_eq rfl rfl rfl rfl rfl rfl rfl rfl)

theorem Counted.setPort (x : Port) : Counted s (t.setPort x) := h.trans (.of_eq rfl rfl rfl rfl rfl rfl rfl rfl)

theorem Counted.setWatches (x : List Watch) : Counted s (t.setWatches x) :=
  h.trans (.of_eq rfl rfl rfl rfl rfl rfl rfl rfl)

theorem Counted.setDelivery (x : DeliveryEngine) : Counted s (t.setDelivery x) :=
  h.trans (.of_eq rfl rfl rfl rfl rfl rfl rfl rfl)

theorem Counted.setNotices (x : NoticeQueue) : Counted s (t.setNotices x) :=
  h.trans (.of_eq rfl rfl rfl rfl rfl rfl rfl rfl)

theorem Counted.notice (addressee : Nat) (body : NoticeBody) : Counted s (t.queueNotice addressee body) :=
  h.setNotices _

theorem Counted.hear (tag : Nat) : Counted s (t.hear tag) := h.setWatches _

end Updates

/-- The voices' records changed in what names no region. -/
theorem State.mapVoices_counted (s : State) {f : Voice → Voice} (ht : ∀ v, (f v).tag = v.tag)
    (hr : ∀ v, (f v).region = v.region ∧ (f v).follow = v.follow) : Counted s (s.setVoices (s.voices.map f)) := by
  have hcount (p q : Voice → Bool) (hpq : ∀ v, p (f v) = q v) :
      (s.voices.map f).countP p = s.voices.countP q := by
    rw [List.countP_map]
    exact List.countP_congr fun v _ => by simp [hpq]
  refine ⟨rfl, rfl, rfl, rfl, rfl, fun ha => ⟨?_, ha.2⟩, fun _ id => ?_, fun hv => by simp [hv], fun hb => hb⟩
  · have : (s.voices.map f).map (·.tag) = s.voices.map (·.tag) := by
      rw [List.map_map]
      exact List.map_congr_left fun v _ => ht v
    show ((s.voices.map f).map (·.tag)).Nodup
    rw [this]
    exact ha.1
  · have huses : (s.setVoices (s.voices.map f)).usesOf id = s.usesOf id := by
      show s.claims.bids.countP _ + (s.voices.map f).countP _ + (s.voices.map f).countP _ = _
      rw [hcount _ (·.region == id) fun v => by rw [(hr v).1],
        hcount _ (·.follow.any (·.region == id)) fun v => by rw [(hr v).2]]
      rfl
    rw [huses]
    exact ⟨Nat.le_refl _, fun _ h => h⟩

theorem State.updateBid_counted (s : State) (tag : Nat) {f : Bid → Bid} (ht : ∀ b, (f b).tag = b.tag)
    (hr : ∀ b, (f b).region = b.region) : Counted s (s.updateBid tag f) :=
  .of_eq rfl rfl rfl rfl rfl rfl (updateFirst_map _ _ (fun b : Bid => b.region) hr _)
    (updateFirst_map _ _ (fun b : Bid => b.tag) ht _)

/-- An entry that leaves gives its use up (R9, R133). -/
theorem State.dropBid_counted (s : State) (tag : Nat) : Counted s (s.dropBid tag) := by
  cases hb : s.bid? tag with
  | none =>
    rw [State.dropBid_absent hb]
    exact Counted.refl s
  | some b =>
    have hmem : b ∈ s.claims.bids := List.mem_of_find?_eq_some hb
    obtain rfl := State.bid_tag hb
    have hdrop : s.dropBid b.tag = (s.setBids (s.claims.bids.filter (·.tag != b.tag))).releaseUse b.region := by
      rw [State.dropBid, hb]
    rw [hdrop]
    refine ⟨State.releaseUse_table _ _, rfl, rfl, rfl, rfl, fun ha => ⟨ha.1, (s.filterBids_quiet _).apart ha.2⟩,
      fun ha id => ?_, fun h => h, fun h => ?_⟩
    · have hcount := s.usesOf_withoutBid b id ha.2 hmem
      have heq : ((s.setBids (s.claims.bids.filter (·.tag != b.tag))).releaseUse b.region).usesOf id =
          (s.setBids (s.claims.bids.filter (·.tag != b.tag))).usesOf id := rfl
      rw [State.releaseUse_uses, heq]
      have huses : (s.setBids (s.claims.bids.filter (·.tag != b.tag))).uses? id = s.uses? id := rfl
      rw [huses]
      by_cases hid : b.region = id
      · rw [if_pos (by simpa using hid)] at hcount
        refine ⟨by omega, fun n hn => ?_⟩
        rw [hn, Option.map_some, if_pos hid.symm]
        congr 1
        omega
      · rw [if_neg (by simpa using hid)] at hcount
        refine ⟨by omega, fun n hn => ?_⟩
        rw [hn, Option.map_some, if_neg (Ne.symm hid)]
        congr 1
        omega
    · rw [h] at hmem
      cases hmem

/-- Every entry leaves with its use (R9, R140). -/
theorem State.dropBids_counted (s : State) : Counted s s.dropBids := by
  have hstep := State.releaseUses_step (s.setBids []) (s.claims.bids.map (·.region))
  have hrest := State.releaseUses_resting (s.claims.bids.map (·.region)) (s.setBids [])
  have hbids : s.dropBids.claims.bids = [] := s.dropBids_bids
  have hvoices : s.dropBids.voices = s.voices := hstep.voices
  refine ⟨hrest.table, hrest.installs, hrest.scan, by rw [State.dropBids, hstep.installer]; rfl,
    by rw [State.dropBids, hstep.station]; rfl, fun ha => ⟨hvoices ▸ ha.1, ?_⟩, fun _ id => ?_,
    fun h => hvoices.trans h, fun _ => hbids⟩
  · unfold State.BidsApart
    rw [hbids]
    exact .nil
  · have huses : s.dropBids.uses? id = (s.uses? id).map (· - (s.claims.bids.map (·.region)).count id) :=
      State.releaseUses_uses _ (s.setBids []) id
    have hcount : s.usesOf id = s.dropBids.usesOf id + (s.claims.bids.map (·.region)).count id := by
      unfold State.usesOf
      rw [hbids, hvoices, List.count, List.countP_map, List.countP_nil]
      simp only [Function.comp_def]
      omega
    refine ⟨by omega, fun n hn => ?_⟩
    rw [huses, hn, Option.map_some]
    congr 1
    omega

theorem State.claimReturned_counted (s : State) (tag : Nat) : Counted s (s.claimReturned tag) := by
  unfold State.claimReturned
  split
  · exact Counted.refl s
  · split
    · exact s.updateBid_counted tag (fun _ => rfl) fun _ => rfl
    · exact s.dropBid_counted tag

end Sys2Proof.Machine
end

