-- ==== Sys2Proof/Proofs/Items.lean ====
section
/-! SUPPORT. The installer keeps the uses of regions counted (O54): what each of its operations makes of the region
table, the ids under install, the scan and the work list, and why the law holds after it. -/

namespace Sys2Proof.Machine

/-! ### The lists of the law that the installer changes -/

/-- The region table, the ids under install, the scan and the work list. -/
structure Shelf where
  regions  : List Region
  installs : List Nat
  scan     : Option Scan
  work     : List WorkItem

def State.shelf (s : State) : Shelf :=
  ⟨s.catalogue.regions, s.catalogue.pendingInstalls, s.catalogue.scan, s.installer.work⟩

theorem DieStep.shelf {s t : State} (h : DieStep s t) : t.shelf = s.shelf := by
  unfold State.shelf
  rw [h.regions, h.installs, h.scan, h.media.installer]

@[simp] theorem State.joinLongOp_shelf (s : State) (d : Nat) (op : LongOp) : (s.joinLongOp d op).shelf = s.shelf :=
  (s.joinLongOp_die d op).shelf

@[simp] theorem State.appendRecord_shelf (s : State) (record : List Byte) : (s.appendRecord record).shelf = s.shelf :=
  (s.appendRecord_die record).shelf

@[simp] theorem State.joinErases_shelf (s : State) (d : Nat) (blocks : List Nat) :
    (s.joinErases d blocks).shelf = s.shelf := (s.joinErases_die d blocks).shelf

@[simp] theorem State.becomeIdle_shelf (s : State) (d : Nat) : (s.becomeIdle d).shelf = s.shelf :=
  (s.becomeIdle_die d).shelf

@[simp] theorem State.updateBlock_shelf (s : State) (d b : Nat) (f : Block → Block) :
    (s.updateBlock d b f).shelf = s.shelf := rfl

@[simp] theorem State.queueDeadOn_shelf (s : State) (d : Nat) : (s.queueDeadOn d).shelf = s.shelf :=
  (State.joinErases_die _ _ _).shelf

theorem State.foldl_shelf {α : Type} {f : State → α → State} (h : ∀ s a, (f s a).shelf = s.shelf) (l : List α) :
    ∀ s, (l.foldl f s).shelf = s.shelf := by
  induction l with
  | nil => exact fun _ => rfl
  | cons a l ih => exact fun s => (ih _).trans (h s a)

@[simp] theorem State.queueDead_shelf (s : State) : s.queueDead.shelf = s.shelf :=
  State.foldl_shelf State.queueDeadOn_shelf _ s

@[simp] theorem State.makeLive_shelf (s : State) (extents : List Extent) : (s.makeLive extents).shelf = s.shelf :=
  State.foldl_shelf (fun s (e : Extent) => s.updateBlock_shelf e.die e.block _) extents s

@[simp] theorem State.loseLive_shelf (s : State) (extents : List Extent) : (s.loseLive extents).shelf = s.shelf :=
  State.foldl_shelf (fun s (e : Extent) => s.updateBlock_shelf e.die e.block _) extents s

@[simp] theorem State.queueNotice_shelf (s : State) (addressee : Nat) (body : NoticeBody) :
    (s.queueNotice addressee body).shelf = s.shelf := rfl

theorem State.setHead_shelf (s : State) (w : WorkItem) :
    (s.setHead w).shelf = { s.shelf with work := w :: s.installer.work.tail } := rfl

theorem State.startReading_shelf (s : State) (i : InstallItem) :
    (s.startReading i).shelf =
      { s.shelf with work := .install { i with phase := .reading } :: s.installer.work.tail } := rfl

theorem State.placeProgram_shelf (s : State) (i : InstallItem) (b page : Nat) :
    (s.placeProgram i b page).shelf =
      { s.shelf with work := .install { i with phase := .programming } :: s.installer.work.tail } :=
  State.joinLongOp_shelf _ _ _

theorem State.failInstall_shelf (s : State) (i : InstallItem) (reason : Reason) :
    (s.failInstall i reason).shelf =
      { s.shelf with installs := s.catalogue.pendingInstalls.erase i.region, work := s.installer.work.tail } := by
  have h : s.clearPending.queueDead.shelf = s.shelf := s.clearPending.queueDead_shelf
  unfold State.failInstall
  generalize s.clearPending.queueDead = u at h ⊢
  have hp : u.catalogue.pendingInstalls = s.catalogue.pendingInstalls := congrArg Shelf.installs h
  have hw : u.installer.work = s.installer.work := congrArg Shelf.work h
  rw [← h, ← hp, ← hw]
  rfl

/-! ### From one lawful state to the next -/

/-- The uses stay, so the law follows from what it says of the new lists. -/
theorem State.usesLawful.shelve {s t : State} (hs : s.usesLawful) (h : InstallStep s t)
    (scan : t.catalogue.scan = s.catalogue.scan)
    (regions : ∀ r ∈ t.catalogue.regions, r.inUse = s.usesOf r.id ∧ (r.state = .departing → r.inUse = 0))
    (named : ∀ id, 0 < s.usesOf id → id ∈ t.catalogue.regions.map (·.id))
    (distinct : (t.installer.work.filterMap WorkItem.installs? ++ t.catalogue.regions.map (·.id)).Nodup)
    (pending : t.catalogue.pendingInstalls = t.installer.work.filterMap WorkItem.installs?)
    (removal : ∀ sender id, t.installer.work.head? = some (.reclaim sender id true) →
      ∃ r ∈ t.catalogue.regions, r.id = id ∧ r.state = .departing)
    (waiting : ∀ w ∈ t.installer.work.tail, w.waits)
    (starting : s.station.state = .starting → t.installer.work = []) : t.usesLawful where
  counted r hr := by
    rw [State.usesOf_congr (by rw [h.claims]) h.voices]
    exact (regions r hr).1
  named id hid := by
    rw [State.usesOf_congr (by rw [h.claims]) h.voices] at hid
    obtain ⟨r, hr, hrid⟩ := List.mem_map.1 (named id hid)
    exact List.find?_isSome.2 ⟨r, hr, by simpa using hrid⟩
  distinct := distinct
  pending := pending
  departing r hr := (regions r hr).2
  removal := removal
  waiting := waiting
  scanning := by
    rw [scan, h.station]
    exact hs.scanning
  starting hst := by
    rw [h.station] at hst
    obtain ⟨hv, hb, -⟩ := hs.starting hst
    exact ⟨by rw [h.voices, hv], by rw [h.claims, hb], starting hst⟩

theorem State.usesLawful.region {s : State} (hs : s.usesLawful) {r : Region} (hr : r ∈ s.catalogue.regions) :
    r.inUse = s.usesOf r.id ∧ (r.state = .departing → r.inUse = 0) := ⟨hs.counted r hr, hs.departing r hr⟩

theorem State.usesLawful.named_mem {s : State} (hs : s.usesLawful) {id : Nat} (h : 0 < s.usesOf id) :
    id ∈ s.catalogue.regions.map (·.id) := by
  obtain ⟨r, hr⟩ := Option.isSome_iff_exists.1 (hs.named id h)
  obtain ⟨hmem, rfl⟩ := State.region?_mem hr
  exact List.mem_map_of_mem hmem

/-- An id that is not in the table has no use. -/
theorem State.usesLawful.usesOf_eq_zero {s : State} (hs : s.usesLawful) {id : Nat}
    (h : id ∉ s.catalogue.regions.map (·.id)) : s.usesOf id = 0 :=
  Nat.eq_zero_of_not_pos fun hpos => h (hs.named_mem hpos)

/-- The lists stay as they are. -/
theorem State.usesLawful.same {s t : State} (hs : s.usesLawful) (h : InstallStep s t) (hl : t.shelf = s.shelf) :
    t.usesLawful := by
  have hr : t.catalogue.regions = s.catalogue.regions := congrArg Shelf.regions hl
  have hp : t.catalogue.pendingInstalls = s.catalogue.pendingInstalls := congrArg Shelf.installs hl
  have hw : t.installer.work = s.installer.work := congrArg Shelf.work hl
  refine hs.shelve h (congrArg Shelf.scan hl) ?_ ?_ ?_ ?_ ?_ ?_ ?_
  · rw [hr]
    exact fun r => hs.region
  · rw [hr]
    exact fun id => hs.named_mem
  · rw [hr, hw]
    exact hs.distinct
  · rw [hp, hw]
    exact hs.pending
  · rw [hr, hw]
    exact hs.removal
  · rw [hw]
    exact hs.waiting
  · rw [hw]
    exact fun hst => (hs.starting hst).2.2

/-- The head of the work list changes, not in the id it installs; a RECLAIM that runs is of a DEPARTING region. -/
theorem State.usesLawful.head {s t : State} {x w : WorkItem} {rest : List WorkItem} (hs : s.usesLawful)
    (h : InstallStep s t) (hx : s.installer.work = x :: rest)
    (hl : t.shelf = { s.shelf with work := w :: s.installer.work.tail }) (hi : w.installs? = x.installs?)
    (hrun : ∀ sender id, w ≠ .reclaim sender id true) : t.usesLawful := by
  have hr : t.catalogue.regions = s.catalogue.regions := congrArg Shelf.regions hl
  have hp : t.catalogue.pendingInstalls = s.catalogue.pendingInstalls := congrArg Shelf.installs hl
  have hw : t.installer.work = w :: rest := by
    have := congrArg Shelf.work hl
    rwa [hx] at this
  have hids : t.installer.work.filterMap WorkItem.installs? = s.installer.work.filterMap WorkItem.installs? := by
    rw [hw, hx]
    simp only [List.filterMap_cons, hi]
  refine hs.shelve h (congrArg Shelf.scan hl) ?_ ?_ ?_ ?_ ?_ ?_ ?_
  · rw [hr]
    exact fun r => hs.region
  · rw [hr]
    exact fun id => hs.named_mem
  · rw [hr, hids]
    exact hs.distinct
  · rw [hp, hids]
    exact hs.pending
  · rw [hw]
    exact fun sender id heq => absurd (Option.some.inj heq) (hrun sender id)
  · have := hs.waiting
    rw [hx] at this
    rw [hw]
    exact this
  · intro hst
    have := (hs.starting hst).2.2
    rw [hx] at this
    cases this

/-- The ids under install once the head INSTALL has left. -/
theorem State.usesLawful.erase_head {s : State} {i : InstallItem} {rest : List WorkItem} (hs : s.usesLawful)
    (hw : s.installer.work = .install i :: rest) :
    s.catalogue.pendingInstalls.erase i.region = rest.filterMap WorkItem.installs? := by
  rw [hs.pending, hw]
  exact List.erase_cons_head ..

/-- The items behind the head wait, so none of them is a RUNNING RECLAIM. -/
theorem State.usesLawful.second {s : State} {x : WorkItem} {rest : List WorkItem} (hs : s.usesLawful)
    (hw : s.installer.work = x :: rest) (sender id : Nat) : rest.head? ≠ some (.reclaim sender id true) := by
  intro heq
  have := hs.waiting (.reclaim sender id true) (by rw [hw]; exact List.mem_of_mem_head? heq)
  cases this

/-- The head item leaves, and its id, if it is an INSTALL, with it. -/
theorem State.usesLawful.leave {s t : State} {x : WorkItem} {rest : List WorkItem} (hs : s.usesLawful)
    (h : InstallStep s t) (hx : s.installer.work = x :: rest) (hw : t.installer.work = rest)
    (hp : t.catalogue.pendingInstalls = rest.filterMap WorkItem.installs?)
    (scan : t.catalogue.scan = s.catalogue.scan)
    (regions : ∀ r ∈ t.catalogue.regions, r.inUse = s.usesOf r.id ∧ (r.state = .departing → r.inUse = 0))
    (named : ∀ id, 0 < s.usesOf id → id ∈ t.catalogue.regions.map (·.id))
    (distinct : (rest.filterMap WorkItem.installs? ++ t.catalogue.regions.map (·.id)).Nodup) : t.usesLawful := by
  refine hs.shelve h scan regions named (hw ▸ distinct) (hw ▸ hp) ?_ ?_ ?_
  · rw [hw]
    exact fun sender id heq => absurd heq (hs.second hx sender id)
  · intro w hmem
    rw [hw] at hmem
    exact hs.waiting w (by rw [hx]; exact List.mem_of_mem_tail hmem)
  · intro hst
    have := (hs.starting hst).2.2
    rw [hx] at this
    cases this

/-- The ids under install behind the head are distinct from each other and from those of the table. -/
theorem State.usesLawful.distinct_rest {s : State} {x : WorkItem} {rest : List WorkItem} (hs : s.usesLawful)
    (hx : s.installer.work = x :: rest) :
    (rest.filterMap WorkItem.installs? ++ s.catalogue.regions.map (·.id)).Nodup := by
  have := hs.distinct
  rw [hx] at this
  exact (((List.sublist_cons_self x rest).filterMap _).append_right _).nodup this

/-- The head item leaves, and the table stays. -/
theorem State.usesLawful.leave_same {s t : State} {x : WorkItem} {rest : List WorkItem} {installs : List Nat}
    (hs : s.usesLawful) (h : InstallStep s t) (hx : s.installer.work = x :: rest)
    (hl : t.shelf = { s.shelf with installs := installs, work := s.installer.work.tail })
    (hp : installs = rest.filterMap WorkItem.installs?) : t.usesLawful := by
  have hr : t.catalogue.regions = s.catalogue.regions := congrArg Shelf.regions hl
  have hw : t.installer.work = s.installer.work.tail := congrArg Shelf.work hl
  have hi : t.catalogue.pendingInstalls = installs := congrArg Shelf.installs hl
  rw [hx] at hw
  exact hs.leave h hx hw (hi.trans hp) (congrArg Shelf.scan hl) (hr ▸ fun _ => hs.region)
    (hr ▸ fun _ => hs.named_mem) (hr ▸ hs.distinct_rest hx)

theorem State.failInstall_usesLawful {s : State} {i : InstallItem} {rest : List WorkItem} (hs : s.usesLawful)
    (hw : s.installer.work = .install i :: rest) (reason : Reason) : (s.failInstall i reason).usesLawful :=
  hs.leave_same (s.failInstall_step i reason) hw (s.failInstall_shelf i reason) (hs.erase_head hw)

/-- An item that installs nothing leaves. -/
theorem State.usesLawful.leave_other {s t : State} {x : WorkItem} {rest : List WorkItem} (hs : s.usesLawful)
    (h : InstallStep s t) (hx : s.installer.work = x :: rest) (hi : x.installs? = none)
    (hl : t.shelf = { s.shelf with work := s.installer.work.tail }) : t.usesLawful :=
  hs.leave_same (installs := s.catalogue.pendingInstalls) h hx hl (by rw [hs.pending, hx, List.filterMap_cons, hi])

/-! ### The state of a region -/

/-- The table with one region's state changed. -/
def restated (id : Nat) (x : RegionState) (regions : List Region) : List Region :=
  updateFirst (·.id == id) (fun r => { r with state := x }) regions

theorem restated_ids (id : Nat) (x : RegionState) (l : List Region) : (restated id x l).map (·.id) = l.map (·.id) :=
  updateFirst_map _ (fun r : Region => { r with state := x }) (fun r => r.id) (fun _ => rfl) l

/-- A region that no voice and no entry uses may take any state. -/
theorem State.usesLawful.restated {s : State} (hs : s.usesLawful) {id : Nat} {x : RegionState}
    (hx : x = .departing → s.usesOf id = 0) {r : Region} (hr : r ∈ restated id x s.catalogue.regions) :
    r.inUse = s.usesOf r.id ∧ (r.state = .departing → r.inUse = 0) := by
  rcases mem_updateFirst _ _ _ _ hr with h | ⟨y, hy, hid, rfl⟩
  · exact hs.region h
  · obtain rfl : y.id = id := by simpa using hid
    exact ⟨hs.counted y hy, fun hdep => (hs.counted y hy).trans (hx hdep)⟩

theorem mem_restated {id : Nat} {x : RegionState} {l : List Region} (h : id ∈ l.map (·.id)) :
    ∃ r ∈ restated id x l, r.id = id ∧ r.state = x := by
  induction l with
  | nil => cases h
  | cons y l ih =>
    by_cases hy : y.id = id
    · exact ⟨{ y with state := x }, by simp [restated, updateFirst, hy], hy, rfl⟩
    · obtain ⟨r, hr, hrid, hrx⟩ := ih (by simpa [Ne.symm hy] using h)
      refine ⟨r, ?_, hrid, hrx⟩
      have : restated id x (y :: l) = y :: restated id x l := by simp [restated, updateFirst, hy]
      rw [this]
      exact List.mem_cons_of_mem _ hr

theorem State.runReclaim_shelf (s : State) (sender region : Nat) :
    (s.runReclaim sender region).shelf = { s.shelf with
      regions := restated region .departing s.catalogue.regions
      work := .reclaim sender region true :: s.installer.work.tail } :=
  State.appendRecord_shelf _ _

theorem State.runReclaim_usesLawful {s : State} {sender region : Nat} {r : Region} {rest : List WorkItem}
    (hs : s.usesLawful) (hw : s.installer.work = .reclaim sender region false :: rest)
    (hr : s.region? region = some r) (hu : r.inUse = 0) : (s.runReclaim sender region).usesLawful := by
  obtain ⟨hmem, rfl⟩ := State.region?_mem hr
  have hl := s.runReclaim_shelf sender r.id
  have hregions : (s.runReclaim sender r.id).catalogue.regions = Machine.restated r.id .departing s.catalogue.regions :=
    congrArg Shelf.regions hl
  have hwork : (s.runReclaim sender r.id).installer.work = .reclaim sender r.id true :: rest := by
    have := congrArg Shelf.work hl
    rwa [hw] at this
  have hinstalls : (s.runReclaim sender r.id).installer.work.filterMap WorkItem.installs? =
      s.installer.work.filterMap WorkItem.installs? := by
    rw [hwork, hw]
    rfl
  refine hs.shelve (s.runReclaim_step sender r.id) (congrArg Shelf.scan hl) ?_ ?_ ?_ ?_ ?_ ?_ ?_
  · rw [hregions]
    exact fun y hy => hs.restated (fun _ => (hs.counted r hmem).symm.trans hu) hy
  · rw [hregions, restated_ids]
    exact fun id => hs.named_mem
  · rw [hregions, restated_ids, hinstalls]
    exact hs.distinct
  · rw [hinstalls]
    exact (congrArg Shelf.installs hl).trans hs.pending
  · rw [hwork, hregions]
    intro _ id heq
    cases heq
    exact mem_restated (List.mem_map_of_mem hmem)
  · have := hs.waiting
    rw [hw] at this
    rw [hwork]
    exact this
  · intro hst
    have := (hs.starting hst).2.2
    rw [hw] at this
    cases this

/-! ### The next item -/

theorem State.startReading_usesLawful {s : State} {x : WorkItem} {i : InstallItem} {rest : List WorkItem}
    (hs : s.usesLawful) (hw : s.installer.work = x :: rest) (hi : x.installs? = some i.region) :
    (s.startReading i).usesLawful :=
  hs.head (s.startReading_step i) hw (s.startReading_shelf i) (by rw [hi]; rfl) fun _ _ => by nofun

theorem State.startNext_usesLawful (n : Nat) : ∀ {s : State}, s.usesLawful → (State.startNext n s).usesLawful := by
  induction n with
  | zero => exact id
  | succ n ih =>
    intro s hs
    rw [State.startNext]
    split
    · exact hs
    · split
      next i rest hw =>
        split
        · split
          · exact State.startReading_usesLawful hs hw rfl
          · exact ih (State.failInstall_usesLawful hs hw .linkDown)
        · exact hs
      next sender region rest hw =>
        have hend (reason : Reason) : ((s.endReclaim).refuse sender 11 reason region).usesLawful :=
          hs.leave_other ((s.endReclaim_step).trans (State.refuse_installStep _ _ _ _ _)) hw rfl rfl
        split
        · exact ih (hend .absent)
        next r hr =>
          split
          · exact ih (hend .inUse)
          next hnot =>
            obtain ⟨hmem, -⟩ := State.region?_mem hr
            refine State.runReclaim_usesLawful hs hw hr ?_
            cases hstate : r.state with
            | live => exact Nat.eq_zero_of_not_pos fun hpos => hnot ⟨hstate, hpos⟩
            | departing => exact hs.departing r hmem hstate
      · exact hs
      · exact hs
      · exact hs

theorem State.nextItem_usesLawful {s : State} (hs : s.usesLawful) : s.nextItem.usesLawful :=
  State.startNext_usesLawful 4 hs

theorem State.installFails_usesLawful {s : State} {i : InstallItem} {rest : List WorkItem} (hs : s.usesLawful)
    (hw : s.installer.work = .install i :: rest) (reason : Reason) : (s.installFails i reason).usesLawful :=
  State.nextItem_usesLawful (State.failInstall_usesLawful hs hw reason)

/-! ### Pages and log records -/

theorem State.placeProgram_usesLawful {s : State} {i : InstallItem} {rest : List WorkItem} (hs : s.usesLawful)
    (hw : s.installer.work = .install i :: rest) (b page : Nat) : (s.placeProgram i b page).usesLawful :=
  hs.head (s.placeProgram_step i b page) hw (s.placeProgram_shelf i b page) rfl fun _ _ => by nofun

theorem State.enterProgramming_usesLawful {s : State} {i : InstallItem} {rest : List WorkItem} (hs : s.usesLawful)
    (hw : s.installer.work = .install i :: rest) : (s.enterProgramming i).usesLawful := by
  unfold State.enterProgramming
  dsimp only
  split
  · exact State.placeProgram_usesLawful hs hw _ _
  next b _ _ _ =>
    have hopen : (s.openBlock i.die b).usesLawful := hs.same (s.openBlock_step i.die b) rfl
    exact State.placeProgram_usesLawful hopen hw _ _
  · split
    · exact hs.head (State.setHead_step s _) hw (s.setHead_shelf _) rfl fun _ _ => by nofun
    · exact State.installFails_usesLawful hs hw _

theorem State.pageProgrammed_usesLawful {s : State} {i : InstallItem} {rest : List WorkItem} (hs : s.usesLawful)
    (hw : s.installer.work = .install i :: rest) (p : Program) : (s.pageProgrammed i p).usesLawful := by
  unfold State.pageProgrammed
  dsimp only
  have hs1 : (s.updateBlock i.die p.block fun b => b.pageUsed.addPending).usesLawful :=
    hs.same (State.updateBlock_step s _ _ _).installStep rfl
  have hw1 : (s.updateBlock i.die p.block fun b => b.pageUsed.addPending).installer.work = .install i :: rest := hw
  split
  · exact State.startReading_usesLawful hs1 hw1 rfl
  · exact hs1.head ((State.setHead_step _ _).trans (State.appendRecord_step _ _).installStep) hw1
      (State.appendRecord_shelf _ _) rfl fun _ _ => by nofun

theorem State.orphanResult_usesLawful {s : State} (hs : s.usesLawful) (d : Nat) (p : Program) (ok : Bool) :
    (s.orphanResult d p ok).usesLawful := by
  unfold State.orphanResult
  dsimp only
  refine State.nextItem_usesLawful ?_
  split
  · have h := State.queueDeadOn_shelf (s.updateBlock d p.block Block.pageUsed) d
    exact (hs.same ((State.updateBlock_step s _ _ _).trans (State.queueDeadOn_step _ d)).installStep h).same
      (InstallStep.setInstaller _ _) rfl
  · exact (hs.same (State.updateBlock_step s _ _ _).installStep rfl).same (InstallStep.setInstaller _ _) rfl

theorem State.pageResult_usesLawful {s : State} (hs : s.usesLawful) (d : Nat) (p : Program) (ok : Bool) :
    (s.pageResult d p ok).usesLawful := by
  unfold State.pageResult
  split
  next i rest hw =>
    split
    · split
      · exact State.pageProgrammed_usesLawful hs hw p
      · have hs1 : (s.updateBlock d p.block Block.programFailed).usesLawful :=
          hs.same (State.updateBlock_step s _ _ _).installStep rfl
        exact State.installFails_usesLawful hs1 hw .program
    · exact State.orphanResult_usesLawful hs d p ok
  · exact State.orphanResult_usesLawful hs d p ok

end Sys2Proof.Machine
end

