-- ==== Sys2Proof/Proofs/Library.lean ====
section
/-! SUPPORT. The ends of log records and erases, the admissions and the scan keep the uses of regions counted (O54). -/

namespace Sys2Proof.Machine

/-! ### The ends of log records (R13, R14, R164, R168) -/

/-- What the head of the work list installs joins the table. -/
theorem State.usesLawful.joins {s t : State} {i : InstallItem} {r : Region} {rest : List WorkItem}
    (hs : s.usesLawful) (h : InstallStep s t) (hx : s.installer.work = .install i :: rest)
    (hid : r.id = i.region) (huse : r.inUse = 0) (hlive : r.state = .live)
    (hl : t.shelf = { s.shelf with
      regions := s.catalogue.regions ++ [r], installs := s.catalogue.pendingInstalls.erase i.region
      work := s.installer.work.tail }) : t.usesLawful := by
  have hr : t.catalogue.regions = s.catalogue.regions ++ [r] := congrArg Shelf.regions hl
  have hw : t.installer.work = s.installer.work.tail := congrArg Shelf.work hl
  have hi : t.catalogue.pendingInstalls = s.catalogue.pendingInstalls.erase i.region := congrArg Shelf.installs hl
  rw [hx] at hw
  have hd := hs.distinct
  rw [hx, List.filterMap_cons] at hd
  have hd : (i.region :: (rest.filterMap WorkItem.installs? ++ s.catalogue.regions.map (·.id))).Nodup := hd
  have hnew : i.region ∉ s.catalogue.regions.map (·.id) := fun hm =>
    (List.nodup_cons.1 hd).1 (List.mem_append_right _ hm)
  refine hs.leave h hx hw (hi.trans (hs.erase_head hx)) (congrArg Shelf.scan hl) ?_ ?_ ?_
  · rw [hr]
    intro y hy
    rcases List.mem_append.1 hy with hy | hy
    · exact hs.region hy
    · obtain rfl := List.mem_singleton.1 hy
      rw [huse, hid, hs.usesOf_eq_zero hnew]
      exact ⟨rfl, fun _ => rfl⟩
  · rw [hr, List.map_append]
    exact fun id hpos => List.mem_append_left _ (hs.named_mem hpos)
  · rw [hr, List.map_append, ← List.append_assoc, List.map_singleton, hid]
    exact (List.perm_append_singleton _ _).nodup_iff.2 hd

/-- The running install's region has entered the table, and its item has left (R164). -/
def State.entered (s : State) (i : InstallItem) : State :=
  let r := regionOf i.region i.format i.frames i.loopStart i.loopEnd i.extents
  let s1 := s.setCatalogue { s.catalogue with regions := s.catalogue.regions ++ [r] }
  ((((s1.makeLive i.extents).queueDead).dropPending i.region).lowerOwed.queueNotice i.sender
    (.installed i.region)).endItem

theorem State.installComplete_eq (s : State) (i : InstallItem) : s.installComplete i = (s.entered i).nextItem := rfl

theorem State.entered_usesLawful {s : State} {i : InstallItem} {rest : List WorkItem} (hs : s.usesLawful)
    (hw : s.installer.work = .install i :: rest) : (s.entered i).usesLawful := by
  unfold State.entered
  dsimp only
  have hlive := State.makeLive_shelf (s.setCatalogue { s.catalogue with regions := s.catalogue.regions ++
    [regionOf i.region i.format i.frames i.loopStart i.loopEnd i.extents] }) i.extents
  have hstep := ((State.makeLive_step (s.setCatalogue { s.catalogue with regions := s.catalogue.regions ++
    [regionOf i.region i.format i.frames i.loopStart i.loopEnd i.extents] }) i.extents).trans
      (State.queueDead_step _)).installStep
  have hshelf := (State.queueDead_shelf _).trans hlive
  generalize State.queueDead _ = u at hstep hshelf ⊢
  refine hs.joins (r := regionOf i.region i.format i.frames i.loopStart i.loopEnd i.extents)
    ((InstallStep.setCatalogue s _).trans (hstep.trans ?_)) hw rfl rfl rfl ?_
  · exact ⟨rfl, rfl, rfl, rfl, rfl, rfl, rfl⟩
  · have hr : u.catalogue.regions = s.catalogue.regions ++
        [regionOf i.region i.format i.frames i.loopStart i.loopEnd i.extents] := congrArg Shelf.regions hshelf
    have hp : u.catalogue.pendingInstalls = s.catalogue.pendingInstalls := congrArg Shelf.installs hshelf
    have hk : u.installer.work = s.installer.work := congrArg Shelf.work hshelf
    have hc : u.catalogue.scan = s.catalogue.scan := congrArg Shelf.scan hshelf
    rw [← hr, ← hp, ← hk]
    show Shelf.mk _ _ u.catalogue.scan _ = Shelf.mk _ _ s.catalogue.scan _
    rw [hc]
    rfl

theorem State.installComplete_usesLawful {s : State} {i : InstallItem} {rest : List WorkItem} (hs : s.usesLawful)
    (hw : s.installer.work = .install i :: rest) : (s.installComplete i).usesLawful :=
  State.nextItem_usesLawful (State.entered_usesLawful hs hw)

/-- The region of the RUNNING RECLAIM leaves the table: it is DEPARTING, so nothing uses it (R8). -/
theorem State.usesLawful.removes {s t : State} {sender region : Nat} {rest : List WorkItem} (hs : s.usesLawful)
    (h : InstallStep s t) (hx : s.installer.work = .reclaim sender region true :: rest)
    (hl : t.shelf = { s.shelf with
      regions := s.catalogue.regions.filter (·.id != region), work := s.installer.work.tail }) : t.usesLawful := by
  have hr : t.catalogue.regions = s.catalogue.regions.filter (·.id != region) := congrArg Shelf.regions hl
  have hw : t.installer.work = s.installer.work.tail := congrArg Shelf.work hl
  have hi : t.catalogue.pendingInstalls = s.catalogue.pendingInstalls := congrArg Shelf.installs hl
  rw [hx] at hw
  obtain ⟨r, hmem, rfl, hdep⟩ := hs.removal sender region (by rw [hx]; rfl)
  have hzero : s.usesOf r.id = 0 := (hs.counted r hmem).symm.trans (hs.departing r hmem hdep)
  refine hs.leave h hx hw (by rw [hi, hs.pending, hx]; rfl) (congrArg Shelf.scan hl) ?_ ?_ ?_
  · rw [hr]
    exact fun y hy => hs.region (List.mem_filter.1 hy).1
  · rw [hr]
    intro id hpos
    obtain ⟨y, hy, rfl⟩ := List.mem_map.1 (hs.named_mem hpos)
    have hne : y.id ≠ r.id := fun heq => by
      rw [heq, hzero] at hpos
      exact Nat.lt_irrefl 0 hpos
    exact List.mem_map_of_mem (List.mem_filter.2 ⟨hy, by simpa using hne⟩)
  · rw [hr]
    exact ((List.Sublist.map _ List.filter_sublist).append_left _).nodup (hs.distinct_rest hx)

/-- The RUNNING RECLAIM's region has left the table, and its item the work list (R168). -/
def State.voided (s : State) (sender region : Nat) : State :=
  let extents := ((s.region? region).map (·.extents)).getD []
  let s1 := s.setCatalogue { s.catalogue with regions := s.catalogue.regions.filter (·.id != region) }
  (((s1.loseLive extents).queueDead).endReclaim).queueNotice sender (.reclaimed region)

theorem State.voidComplete_eq (s : State) (sender region : Nat) :
    s.voidComplete sender region = (s.voided sender region).nextItem := rfl

theorem State.voided_usesLawful {s : State} {sender region : Nat} {rest : List WorkItem} (hs : s.usesLawful)
    (hw : s.installer.work = .reclaim sender region true :: rest) : (s.voided sender region).usesLawful := by
  unfold State.voided
  dsimp only
  generalize ((s.region? region).map (·.extents)).getD [] = extents
  have hlose := State.loseLive_shelf (s.setCatalogue { s.catalogue with
    regions := s.catalogue.regions.filter (·.id != region) }) extents
  have hstep := ((State.loseLive_step (s.setCatalogue { s.catalogue with
    regions := s.catalogue.regions.filter (·.id != region) }) extents).trans (State.queueDead_step _)).installStep
  have hshelf := (State.queueDead_shelf _).trans hlose
  generalize State.queueDead _ = u at hstep hshelf ⊢
  refine hs.removes ((InstallStep.setCatalogue s _).trans (hstep.trans ?_)) hw ?_
  · exact ⟨rfl, rfl, rfl, rfl, rfl, rfl, rfl⟩
  · have hr : u.catalogue.regions = s.catalogue.regions.filter (·.id != region) := congrArg Shelf.regions hshelf
    have hp : u.catalogue.pendingInstalls = s.catalogue.pendingInstalls := congrArg Shelf.installs hshelf
    have hk : u.installer.work = s.installer.work := congrArg Shelf.work hshelf
    have hc : u.catalogue.scan = s.catalogue.scan := congrArg Shelf.scan hshelf
    rw [← hr, ← hk]
    show Shelf.mk _ u.catalogue.pendingInstalls u.catalogue.scan _ =
      Shelf.mk _ s.catalogue.pendingInstalls s.catalogue.scan _
    rw [hc, hp]
    rfl

theorem State.voidComplete_usesLawful {s : State} {sender region : Nat} {rest : List WorkItem} (hs : s.usesLawful)
    (hw : s.installer.work = .reclaim sender region true :: rest) : (s.voidComplete sender region).usesLawful :=
  State.nextItem_usesLawful (State.voided_usesLawful hs hw)

/-- The RUNNING RECLAIM's region is LIVE again, and its item has left the work list (R168). -/
def State.spared (s : State) (sender region : Nat) : State :=
  (s.updateRegion region fun r => { r with state := .live }).endReclaim.refuse sender 11 .log region

theorem State.voidFailed_eq (s : State) (sender region : Nat) :
    s.voidFailed sender region = (s.spared sender region).nextItem := rfl

theorem State.spared_usesLawful {s : State} {sender region : Nat} {rest : List WorkItem} (hs : s.usesLawful)
    (hw : s.installer.work = .reclaim sender region true :: rest) : (s.spared sender region).usesLawful := by
  have hids := restated_ids region .live s.catalogue.regions
  have hstep : InstallStep s (s.spared sender region) := ⟨rfl, rfl, rfl, rfl, rfl, rfl, rfl⟩
  have hr : (s.spared sender region).catalogue.regions = restated region .live s.catalogue.regions := rfl
  refine hs.leave hstep hw (congrArg List.tail hw) ?_ rfl ?_ ?_ ?_
  · refine hs.pending.trans ?_
    rw [hw]
    rfl
  · rw [hr]
    exact fun y hy => hs.restated (fun heq => by cases heq) hy
  · rw [hr, hids]
    exact fun id => hs.named_mem
  · rw [hr, hids]
    exact hs.distinct_rest hw

theorem State.voidFailed_usesLawful {s : State} {sender region : Nat} {rest : List WorkItem} (hs : s.usesLawful)
    (hw : s.installer.work = .reclaim sender region true :: rest) : (s.voidFailed sender region).usesLawful :=
  State.nextItem_usesLawful (State.spared_usesLawful hs hw)

theorem State.logResult_usesLawful {s : State} (hs : s.usesLawful) (ok : Bool) : (s.logResult ok).usesLawful := by
  have hs1 : s.advanceAppend.usesLawful := hs.same (s.advanceAppend_step) rfl
  unfold State.logResult
  dsimp only
  split
  next i rest hw =>
    split
    · split
      · exact State.installComplete_usesLawful hs1 hw
      · exact State.installFails_usesLawful hs1 hw .log
    · exact hs1
  next sender region rest hw =>
    split
    · exact State.voidComplete_usesLawful hs1 hw
    · exact State.voidFailed_usesLawful hs1 hw
  · exact hs1

theorem State.handOn_usesLawful {s : State} (hs : s.usesLawful) (d : Nat) (p : Program) (ok : Bool) :
    (s.handOn d p ok).usesLawful := by
  unfold State.handOn
  split
  · exact State.pageResult_usesLawful hs d p ok
  · exact State.logResult_usesLawful hs ok

/-! ### What closes a step -/

theorem State.settleFronts_usesLawful (n : Nat) :
    ∀ {s : State}, s.usesLawful → (State.settleFronts n s).usesLawful := by
  induction n with
  | zero => exact fun hs => hs.same ⟨rfl, rfl, rfl, rfl, rfl, rfl, rfl⟩ rfl
  | succ n ih =>
    intro s hs
    rw [State.settleFronts]
    split
    · exact hs
    next d p rest _ =>
      have h1 : (s.setMedia { s.media with frontFailed := rest }).usesLawful :=
        hs.same ⟨rfl, rfl, rfl, rfl, rfl, rfl, rfl⟩ rfl
      exact ih (State.handOn_usesLawful h1 d p false)

theorem State.settleFront_usesLawful {s : State} (hs : s.usesLawful) : s.settleFront.usesLawful :=
  State.settleFronts_usesLawful 8 hs

/-- The law is about the lists, the station's state, the voices and the regions of the entries. -/
theorem State.usesLawful.congr {s t : State} (hs : s.usesLawful) (hl : t.shelf = s.shelf)
    (hst : t.station.state = s.station.state) (hv : t.voices = s.voices)
    (hb : t.claims.bids.map (·.region) = s.claims.bids.map (·.region)) : t.usesLawful := by
  have hr : t.catalogue.regions = s.catalogue.regions := congrArg Shelf.regions hl
  have huses := State.usesOf_congr_regions hb hv
  refine hs.step (.of_eq hr) (fun id h => ?_) (fun id h => ?_) (congrArg Shelf.installs hl) (congrArg Shelf.scan hl)
    (congrArg Shelf.work hl) hst fun h => ?_
  · rw [huses, State.uses_congr hr, h]
  · rw [huses] at h
    exact absurd h (Nat.lt_irrefl _)
  · obtain ⟨hvoices, hbids, -⟩ := hs.starting h
    rw [hbids] at hb
    exact ⟨hv.trans hvoices, List.map_eq_nil_iff.1 hb⟩

/-- An offer changes the course of an entry only (R131). -/
theorem State.finish_usesLawful {s : State} (hs : s.usesLawful) : s.finish.usesLawful := by
  have h1 : s.settleFront.recomputeReady.usesLawful := (State.settleFront_usesLawful hs).congr rfl rfl rfl rfl
  show (State.offer s.settleFront.recomputeReady).usesLawful
  generalize s.settleFront.recomputeReady = u at h1 ⊢
  unfold State.offer
  split
  · split
    · exact h1.congr rfl rfl rfl (updateFirst_map _ (fun c : Bid => { c with offer := .sending }) (·.region) (fun _ => rfl) _)
    · exact h1.congr rfl rfl rfl rfl
    · exact h1
  · exact h1

end Sys2Proof.Machine
end

