-- ==== Sys2Proof/Proofs/Admissions.lean ====
section
/-! SUPPORT. Erases, the installer's admissions and the start-up scan keep the uses of regions counted (O54). -/

namespace Sys2Proof.Machine

/-! ### Erases and WIPE (R103, R163, R169) -/

theorem State.wiped_usesLawful {s : State} {sender worn left logLeft : Nat} {rest : List WorkItem} (hs : s.usesLawful)
    (hw : s.installer.work = .wipe sender worn left logLeft :: rest) (addressee : Nat) (body : NoticeBody) :
    ((s.endItem).queueNotice addressee body).usesLawful :=
  hs.leave_other ⟨rfl, rfl, rfl, rfl, rfl, rfl, rfl⟩ hw rfl rfl

theorem State.wipeProgress_usesLawful {s : State} {sender worn left logLeft : Nat} {rest : List WorkItem}
    (hs : s.usesLawful) (hw : s.installer.work = .wipe sender worn left logLeft :: rest) (isLog ok : Bool) :
    (s.wipeProgress sender worn left logLeft isLog ok).usesLawful := by
  unfold State.wipeProgress
  dsimp only
  generalize hu : (if (isLog && (if isLog = true then logLeft - 1 else logLeft) == 0) = true then s.clearAppend else s) = u
  obtain ⟨hlaw, hwork⟩ : u.usesLawful ∧ u.installer.work = .wipe sender worn left logLeft :: rest := by
    rcases hu ▸ ite_eq_or_eq _ s.clearAppend s with h | h
    · exact h ▸ ⟨hs.congr rfl rfl rfl rfl, hw⟩
    · exact h ▸ ⟨hs, hw⟩
  split
  · exact State.nextItem_usesLawful (State.wiped_usesLawful hlaw hwork _ _)
  · exact hlaw.head (State.setHead_step u _) hwork (u.setHead_shelf _) rfl fun _ _ => by nofun

theorem State.eraseTold_usesLawful {s : State} (hs : s.usesLawful) (d : Nat) (isLog ok : Bool) :
    (s.eraseTold d isLog ok).usesLawful := by
  unfold State.eraseTold
  split
  next hw => exact State.wipeProgress_usesLawful hs hw isLog ok
  next hw =>
    split
    · exact State.enterProgramming_usesLawful hs hw
    · exact hs
  · exact hs

theorem State.programFlash_shelf (s : State) (d : Nat) (p : Program) (ok : Bool) :
    (s.programFlash d p ok).shelf = s.shelf := by
  unfold State.programFlash
  split <;> rfl

theorem State.eraseFlash_shelf (s : State) (d b : Nat) (ok : Bool) : (s.eraseFlash d b ok).shelf = s.shelf := by
  unfold State.eraseFlash
  split <;> rfl

theorem State.blockErased_shelf (s : State) (d b : Nat) (ok : Bool) : (s.blockErased d b ok).shelf = s.shelf := by
  unfold State.blockErased
  split
  · rfl
  · split <;> rfl

theorem State.longOpResult_usesLawful {s : State} (hs : s.usesLawful) (d : Nat) (op : LongOp) (ok : Bool) :
    (s.longOpResult d op ok).usesLawful := by
  have idle {u : State} (hu : u.usesLawful) : (u.becomeIdle d).usesLawful :=
    hu.same (u.becomeIdle_step d).installStep (u.becomeIdle_shelf d)
  unfold State.longOpResult
  split
  next p =>
    exact idle (State.handOn_usesLawful (hs.same ((State.setFront_step s _ _ _).trans (State.programFlash_step _ d p ok))
      (State.programFlash_shelf _ d p ok)) d p ok)
  next b =>
    exact idle (State.eraseTold_usesLawful (hs.same (((State.setFront_step s _ _ _).trans
      (State.eraseFlash_step _ d b ok)).trans (State.blockErased_step _ d b ok))
      ((State.blockErased_shelf _ d b ok).trans (State.eraseFlash_shelf _ d b ok))) d _ ok)

/-! ### Admissions (R160, R167, R169) -/

/-- A new item waits at the tail of the work list. -/
theorem State.usesLawful.queue {s t : State} {w : WorkItem} (hs : s.usesLawful) (hst : s.station.state ≠ .starting)
    (h : InstallStep s t) (hw : t.installer.work = s.installer.work ++ [w]) (hwait : w.waits = true)
    (hrun : ∀ sender id, w ≠ .reclaim sender id true) (scan : t.catalogue.scan = s.catalogue.scan)
    (hp : t.catalogue.pendingInstalls = s.catalogue.pendingInstalls ++ w.installs?.toList)
    (ids : t.catalogue.regions.map (·.id) = s.catalogue.regions.map (·.id))
    (regions : ∀ r ∈ t.catalogue.regions, r.inUse = s.usesOf r.id ∧ (r.state = .departing → r.inUse = 0))
    (departs : ∀ id, (∃ r ∈ s.catalogue.regions, r.id = id ∧ r.state = .departing) →
      ∃ r ∈ t.catalogue.regions, r.id = id ∧ r.state = .departing)
    (new : ∀ id ∈ w.installs?, id ∉ s.installer.work.filterMap WorkItem.installs? ++ s.catalogue.regions.map (·.id)) :
    t.usesLawful := by
  have hids : t.installer.work.filterMap WorkItem.installs? =
      s.installer.work.filterMap WorkItem.installs? ++ w.installs?.toList := by
    rw [hw, List.filterMap_append]
    cases hi : w.installs? <;> simp [hi]
  refine hs.shelve h scan regions (ids ▸ fun id => hs.named_mem) ?_ ?_ ?_ ?_ fun h => absurd h hst
  · rw [hids, ids]
    cases hi : w.installs? with
    | none =>
      rw [Option.toList_none, List.append_nil]
      exact hs.distinct
    | some id =>
      have hnew := new id (by rw [hi]; rfl)
      rw [Option.toList_some, List.append_assoc, List.singleton_append]
      exact List.perm_middle.nodup_iff.2 (List.nodup_cons.2 ⟨hnew, hs.distinct⟩)
  · rw [hp, hids, hs.pending]
  · rw [hw]
    intro sender id heq
    cases hwork : s.installer.work with
    | nil =>
      rw [hwork] at heq
      exact absurd (Option.some.inj heq) (hrun sender id)
    | cons x rest =>
      rw [hwork] at heq
      refine departs id (hs.removal sender id ?_)
      rw [hwork]
      exact heq
  · rw [hw]
    intro x hx
    have hwait' := hs.waiting
    cases hwork : s.installer.work with
    | nil =>
      rw [hwork] at hx
      cases hx
    | cons y rest =>
      rw [hwork] at hx hwait'
      rcases List.mem_append.1 hx with hx | hx
      · exact hwait' x hx
      · obtain rfl := List.mem_singleton.1 hx
        exact hwait

/-- An item stands at the tail of the work list. -/
def State.queueWork (s : State) (w : WorkItem) : State :=
  s.setInstaller { s.installer with work := s.installer.work ++ [w] }

theorem State.joinWork_eq (s : State) (w : WorkItem) :
    s.joinWork w = if s.installer.work.isEmpty then (s.queueWork w).nextItem else s.queueWork w := rfl

/-- What joins the work list may start at once. -/
theorem State.joinWork_usesLawful {s : State} {w : WorkItem} (h : (s.queueWork w).usesLawful) :
    (s.joinWork w).usesLawful := by
  unfold State.joinWork
  dsimp only
  split
  · exact State.nextItem_usesLawful h
  · exact h

theorem State.idTaken_new {s : State} {id : Nat} (h : s.idTaken id = false) :
    id ∉ s.catalogue.pendingInstalls ++ s.catalogue.regions.map (·.id) := by
  unfold State.idTaken at h
  obtain ⟨hr, hp⟩ := Bool.or_eq_false_iff.1 h
  intro hmem
  rcases List.mem_append.1 hmem with hm | hm
  · rw [List.contains_iff_mem.2 hm] at hp
    cases hp
  · obtain ⟨r, hrm, rfl⟩ := List.mem_map.1 hm
    have : (s.region? r.id).isSome := List.find?_isSome.2 ⟨r, hrm, by simp⟩
    rw [this] at hr
    cases hr

theorem State.installRefusal_none {s : State} {i : InstallFields} (h : s.installRefusal i = none) :
    s.idTaken i.region = false := by
  unfold State.installRefusal at h
  by_cases hid : s.idTaken i.region = true
  · rw [if_pos hid] at h
    repeat' split at h
    all_goals cases h
  · exact Bool.eq_false_iff.2 hid

/-- The catalogue owes the log record of an admitted INSTALL, whose id is pending (R7, R13). -/
def State.installOwed (s : State) (i : InstallFields) : State := s.setCatalogue { s.catalogue with
  pendingInstalls := s.catalogue.pendingInstalls ++ [i.region]
  owed := s.catalogue.owed + 1 }

theorem State.installQueued_usesLawful {s : State} {i : InstallFields} (hs : s.usesLawful)
    (hst : s.station.state ≠ .starting) (hnew : s.idTaken i.region = false) :
    ((s.installOwed i).queueWork (.install (i.item s.bestDie))).usesLawful := by
  refine hs.queue hst ⟨rfl, rfl, rfl, rfl, rfl, rfl, rfl⟩ rfl rfl (fun _ _ => by nofun) rfl
    rfl rfl (fun r => hs.region) (fun _ h => h) fun id hid => ?_
  obtain rfl : i.region = id := Option.some.inj hid
  rw [← hs.pending]
  exact State.idTaken_new hnew

theorem State.admitInstall_usesLawful {s : State} {i : InstallFields} (hs : s.usesLawful)
    (hst : s.station.state ≠ .starting) (hnew : s.idTaken i.region = false) : (s.admitInstall i).usesLawful :=
  State.joinWork_usesLawful (State.installQueued_usesLawful hs hst hnew)

/-- The region of an admitted RECLAIM is DEPARTING, and the catalogue owes its log record (R13, R167). -/
def State.reclaimOwed (s : State) (region : Nat) : State :=
  let s1 := s.updateRegion region fun r => { r with state := .departing }
  s1.setCatalogue { s1.catalogue with owed := s1.catalogue.owed + 1 }

theorem State.reclaimQueued_usesLawful {s : State} {region sender : Nat} {r : Region} (hs : s.usesLawful)
    (hst : s.station.state ≠ .starting) (hr : s.region? region = some r) (hu : r.inUse = 0) :
    ((s.reclaimOwed region).queueWork (.reclaim sender region false)).usesLawful := by
  obtain ⟨hmem, rfl⟩ := State.region?_mem hr
  have hzero : s.usesOf r.id = 0 := (hs.counted r hmem).symm.trans hu
  refine hs.queue hst ⟨rfl, rfl, rfl, rfl, rfl, rfl, rfl⟩ rfl rfl (fun _ _ => by nofun) rfl
    (List.append_nil _).symm (restated_ids r.id .departing s.catalogue.regions)
    (fun y hy => hs.restated (x := .departing) (fun _ => hzero) hy) (fun id h => ?_) fun id hid => by cases hid
  obtain ⟨y, hy, rfl, hdep⟩ := h
  by_cases hid : y.id = r.id
  · rw [hid]
    exact mem_restated (List.mem_map_of_mem hmem)
  · refine ⟨y, ?_, rfl, hdep⟩
    have hfilter : (restated r.id .departing s.catalogue.regions).filter (·.id != r.id) =
        s.catalogue.regions.filter (·.id != r.id) := filter_updateFirst fun z hz => by
      have := List.find?_some hz
      simpa using this
    have hin : y ∈ s.catalogue.regions.filter (·.id != r.id) := List.mem_filter.2 ⟨hy, by simpa using hid⟩
    rw [← hfilter] at hin
    exact (List.mem_filter.1 hin).1

theorem State.admitReclaim_usesLawful {s : State} {region sender : Nat} {r : Region} (hs : s.usesLawful)
    (hst : s.station.state ≠ .starting) (hr : s.region? region = some r) (hu : r.inUse = 0) :
    (s.admitReclaim region sender).usesLawful :=
  State.joinWork_usesLawful (State.reclaimQueued_usesLawful hs hst hr hu)

theorem State.wipeDie_shelf (s : State) (d : Nat) : (s.wipeDie d).shelf = s.shelf := State.joinErases_shelf _ _ _

/-- A station with no voice and no entry uses no region. -/
theorem State.usesOf_of_empty {s : State} (hv : s.voices = []) (hb : s.claims.bids = []) (id : Nat) : s.usesOf id = 0 := by
  unfold State.usesOf
  rw [hv, hb]
  rfl

theorem State.wipeBusy_false {s : State} (h : s.wipeBusy = false) :
    s.installer.work = [] ∧ s.voices = [] ∧ s.claims.bids = [] := by
  unfold State.wipeBusy at h
  simpa [List.isEmpty_iff, and_assoc] using h

theorem State.admitWipe_usesLawful {s : State} (hs : s.usesLawful) (hst : s.station.state ≠ .starting)
    (hb : s.wipeBusy = false) (sender : Nat) : (s.admitWipe sender).usesLawful := by
  obtain ⟨-, hvoices, hbids⟩ := State.wipeBusy_false hb
  have hzero := State.usesOf_of_empty hvoices hbids
  have h1 : ((s.setCatalogue s.catalogue.emptied).setInstaller
      { s.installer with work := [.wipe sender 0 16384 8] }).usesLawful := by
    refine hs.shelve ⟨rfl, rfl, rfl, rfl, rfl, rfl, rfl⟩ rfl (fun r hr => by cases hr) (fun id hpos => ?_) .nil rfl
      (fun _ _ h => by cases h) (fun _ h => by cases h) fun h => absurd h hst
    rw [hzero id] at hpos
    cases hpos
  exact h1.same (MediaStep.foldl _ State.wipeDie_step _ _).installStep (State.foldl_shelf State.wipeDie_shelf _ _)

/-! ### The start-up scan (R15, R16) -/

/-- While the station is STARTING no region is in use, so a table of unused regions with distinct ids will do. -/
theorem State.usesLawful.scanned {s t : State} (hs : s.usesLawful) (hst : s.station.state = .starting)
    (hv : t.voices = s.voices) (hc : t.claims.bids = s.claims.bids) (hw : t.installer.work = s.installer.work)
    (hp : t.catalogue.pendingInstalls = s.catalogue.pendingInstalls)
    (hscan : t.catalogue.scan.isSome → t.station.state = .starting)
    (hregions : ∀ r ∈ t.catalogue.regions, r.inUse = 0) (hids : (t.catalogue.regions.map (·.id)).Nodup) :
    t.usesLawful := by
  obtain ⟨hvoices, hbids, hwork⟩ := hs.starting hst
  have hzero := State.usesOf_of_empty (hv.trans hvoices) (hc.trans hbids)
  have hnil := hw.trans hwork
  refine ⟨fun r hr => ?_, fun id h => ?_, ?_, ?_, fun r hr _ => hregions r hr, fun _ _ h => ?_, fun _ h => ?_, hscan,
    fun _ => ⟨hv.trans hvoices, hc.trans hbids, hnil⟩⟩
  · rw [hregions r hr, hzero]
  · rw [hzero] at h
    cases h
  · rw [hnil]
    exact hids
  · rw [hnil, hp, hs.pending, hwork]
  · rw [hnil] at h
    cases h
  · rw [hnil] at h
    cases h

/-- In STARTING every region of the table is unused. -/
theorem State.usesLawful.unused {s : State} (hs : s.usesLawful) (hst : s.station.state = .starting) :
    ∀ r ∈ s.catalogue.regions, r.inUse = 0 := by
  obtain ⟨hv, hb, -⟩ := hs.starting hst
  exact fun r hr => (hs.counted r hr).trans (State.usesOf_of_empty hv hb r.id)

/-- The region of an INSTALL record is unused (R15). -/
theorem parseRecord_unused {bytes : List Byte} {r : Region} (h : parseRecord bytes = .install r) : r.inUse = 0 := by
  unfold parseRecord at h
  dsimp only at h
  split at h
  · cases h
    rfl
  · split at h <;> cases h

theorem Flash.logRecord_unused {f : Flash} {n : Nat} {bad : Bool} {r : Region}
    (h : f.logRecord? n bad = some (.install r)) : r.inUse = 0 := by
  by_cases he : f.readsErased n bad
  · rw [(f.logRecord_eq n bad).1 he] at h
    cases h
  · rw [(f.logRecord_eq n bad).2 he] at h
    have h : f.recordAt n bad = .install r := Option.some.inj h
    unfold Flash.recordAt at h
    split at h
    · cases h
    · cases h
    · split at h
      · exact parseRecord_unused h
      · cases h
    · exact parseRecord_unused h
    · exact parseRecord_unused h

theorem State.classify_usesLawful {s : State} (hs : s.usesLawful) (hst : s.station.state = .starting) (x : Scan)
    {record : LogRecord} (hr : ∀ r, record = .install r → r.inUse = 0) : (s.classify x record).usesLawful := by
  rw [State.classify_eq]
  refine hs.scanned hst rfl rfl rfl rfl (fun _ => hst) ?_ ?_
  · show ∀ r ∈ s.replayed record, r.inUse = 0
    unfold State.replayed
    split
    · cases record with
      | install r =>
        intro y hy
        rcases List.mem_append.1 hy with hy | hy
        · exact hs.unused hst y hy
        · obtain rfl := List.mem_singleton.1 hy
          exact hr y rfl
      | void id => exact fun y hy => hs.unused hst y (List.mem_filter.1 hy).1
      | other => exact hs.unused hst
    · exact hs.unused hst
  · show ((s.replayed record).map (·.id)).Nodup
    unfold State.replayed
    split
    next htakes =>
      cases record with
      | install r =>
        have hnew : s.region? r.id = none := by
          unfold State.takesRecord at htakes
          simp only [Bool.and_eq_true, Option.isNone_iff_eq_none] at htakes
          exact htakes.1.1.2
        show ((s.catalogue.regions ++ [r]).map (·.id)).Nodup
        rw [List.map_append]
        refine (List.perm_append_singleton _ _).nodup_iff.2 (List.nodup_cons.2 ⟨fun hm => ?_, hs.idsApart⟩)
        obtain ⟨y, hy, hid⟩ := List.mem_map.1 hm
        have := List.find?_eq_none.1 hnew y hy
        exact this (by simpa using hid)
      | void id => exact (List.Sublist.map _ List.filter_sublist).nodup hs.idsApart
      | other => exact hs.idsApart
    · exact hs.idsApart

theorem State.endScan_usesLawful {s : State} (hs : s.usesLawful) (hst : s.station.state = .starting)
    (appendPos skipped : Nat) : (s.endScan appendPos skipped).usesLawful := by
  unfold State.endScan
  dsimp only
  generalize hu : (s.setCatalogue { s.catalogue with
    appendPos := appendPos, scan := none
    blockTable := s.catalogue.blockTable.zipIdx.map fun x =>
      x.1.derived (s.catalogue.regions.flatMap (·.extents)) x.2 }) = u
  generalize hm : u.setMedia _ = v
  have hstep : MediaStep v (dieNumbers.foldl State.queueErasesOn v) := MediaStep.foldl _ State.queueErasesOn_step _ _
  have hshelf : (dieNumbers.foldl State.queueErasesOn v).shelf = v.shelf :=
    State.foldl_shelf (fun w d => State.joinErases_shelf w d _) _ _
  generalize dieNumbers.foldl State.queueErasesOn v = w at hstep hshelf ⊢
  subst hm hu
  have hr : w.catalogue.regions = s.catalogue.regions := congrArg Shelf.regions hshelf
  have hscan : w.catalogue.scan = none := congrArg Shelf.scan hshelf
  refine hs.scanned hst hstep.voices (congrArg ClaimUnit.bids hstep.claims) (congrArg Installer.work hstep.installer)
    (congrArg Shelf.installs hshelf) (fun h => ?_) ?_ ?_
  · have h : w.catalogue.scan.isSome := h
    rw [hscan] at h
    cases h
  · show ∀ r ∈ w.catalogue.regions, r.inUse = 0
    rw [hr]
    exact hs.unused hst
  · show (w.catalogue.regions.map (·.id)).Nodup
    rw [hr]
    exact hs.idsApart

theorem State.logSectorRead_usesLawful {s : State} {x : Scan} (hs : s.usesLawful) (hx : s.catalogue.scan = some x)
    (bad : Bool) : (s.logSectorRead x bad).usesLawful := by
  have hst := hs.scanning (by rw [hx]; rfl)
  have ends {u : State} (hu : u.usesLawful) (hst : u.station.state = .starting) (appendPos skipped : Nat) :
      ((u.endScan appendPos skipped).becomeIdle 0).usesLawful :=
    (State.endScan_usesLawful hu hst _ _).same (State.becomeIdle_step _ 0).installStep (State.becomeIdle_shelf _ 0)
  unfold State.logSectorRead
  split
  · exact ends hs hst _ _
  next record hrec =>
    have hlaw := State.classify_usesLawful (record := record) hs hst x fun r heq =>
      Flash.logRecord_unused (hrec.trans (congrArg some heq))
    have hst' : (s.classify x record).station.state = .starting := by
      rw [State.classify_eq]
      exact hst
    generalize s.classify x record = u at hlaw hst' ⊢
    unfold State.continueScan
    split
    · exact hlaw
    · split
      · exact hlaw.congr rfl rfl rfl rfl
      · exact ends hlaw hst' _ _

end Sys2Proof.Machine
end

