-- ==== Sys2Proof/Proofs/Counts.lean ====
section
/-! Each in-use count equals the uses that name the region (O54): the voices' operations give uses up and count them, a
NOTE, a won claim and a FOLLOW take a LIVE region's, and the installer changes the table only where nothing is used. -/

namespace Sys2Proof.Machine

/-! ### Ticks and downbeats -/

theorem State.tickVoice_counted (s : State) (g : Nat) : Counted s (s.tickVoice g) :=
  (s.tickVoice_to (G := fun _ => True) g trivial).counted (s.tickVoice_resting g)

theorem State.recomputeHeld_counted (s : State) : Counted s s.recomputeHeld := by
  unfold State.recomputeHeld
  refine (s.mapVoices_counted (f := fun v => if v.dry.isSome then v.withDry s.timebase.tick else v) (fun v => ?_)
    fun v => ?_).trans (State.syncReads_die _).counted
  · split
    · exact (v.withDry_core _).tag
    · rfl
  · split
    · unfold Voice.withDry
      split <;> exact ⟨rfl, rfl⟩
    · exact ⟨rfl, rfl⟩

theorem State.tickEvent_counted (s : State) (order : List (BitVec 12)) : Counted s (s.tickEvent order) := by
  unfold State.tickEvent
  dsimp only
  refine Counted.trans (Counted.setTimebase ?_ _) (State.suspendTests_die _).counted
  have h1 := (Counted.refl s).setTimebase { s.timebase with tick := nextTick s.timebase.tick }
  generalize s.setTimebase { s.timebase with tick := nextTick s.timebase.tick } = u at h1 ⊢
  have h2 := h1.trans (Counted.foldl _ State.tickVoice_counted (tickOrder order u.voices) u)
  split
  · exact h2.trans (State.recomputeHeld_counted _)
  · exact h2

theorem State.standIn_counted (s : State) (at_ : Nat) (order : List (BitVec 12)) : Counted s (s.standIn at_ order) := by
  have h := ((Counted.refl s).setTimebase { s.timebase with
    reference := some at_, standIn := s.timebase.standIn + 1 }).trans (State.tickEvent_counted _ order)
  unfold State.standIn
  dsimp only
  split
  · exact (h.setTimebase _).notice _ _
  · exact h

theorem State.edge_counted (s : State) (rate : SessionRate) (t : Nat) (order : List (BitVec 12)) :
    Counted s (s.edge rate t order) := by
  have base (x : Timebase) : Counted s (s.setTimebase x) := (Counted.refl s).setTimebase x
  unfold State.edge
  split
  · exact Counted.refl s
  · unfold State.fallbackEdge
    dsimp only
    split
    · exact base _
    · unfold State.lock
      dsimp only
      refine Counted.notice ?_ _ _
      split
      · exact (base _).trans (State.tickEvent_counted _ _)
      · exact base _
  · unfold State.externalEdge
    split
    · exact Counted.refl s
    · split
      · exact (base _).trans (State.tickEvent_counted _ _)
      · exact Counted.refl s

theorem Voice.loaded_region (v : Voice) (old load : Nat) :
    (v.loaded old load).tag = v.tag ∧ (v.loaded old load).region = v.region ∧ (v.loaded old load).follow = v.follow := by
  unfold Voice.loaded Voice.withDry
  split
  · exact ⟨rfl, rfl, rfl⟩
  · dsimp only
    split
    · split <;> exact ⟨rfl, rfl, rfl⟩
    · exact ⟨rfl, rfl, rfl⟩
    · exact ⟨rfl, rfl, rfl⟩

theorem Voice.started_region (v : Voice) (now : Nat) :
    (v.started now).tag = v.tag ∧ (v.started now).region = v.region ∧ (v.started now).follow = v.follow := by
  unfold Voice.started Voice.withDry
  split
  · split <;> exact ⟨rfl, rfl, rfl⟩
  · exact ⟨rfl, rfl, rfl⟩
  · exact ⟨rfl, rfl, rfl⟩

theorem State.downbeat_counted (s : State) : Counted s s.downbeat := by
  have load : Counted s s.applyLoad := by
    unfold State.applyLoad
    split
    · exact Counted.refl s
    next load _ =>
      exact ((Counted.refl s).setTimebase _).trans (State.mapVoices_counted _
        (f := fun v => v.loaded s.timebase.tick load) (fun v => (v.loaded_region _ _).1) fun v => (v.loaded_region _ _).2)
  have start (u : State) : Counted u u.startArmed :=
    u.mapVoices_counted (f := fun v => v.started u.timebase.tick) (fun v => (v.started_region _).1)
      fun v => (v.started_region _).2
  exact (load.trans (start _)).trans (State.syncReads_die _).counted

/-! ### Retirement and ends -/

theorem State.retire_counted (s : State) (g : Nat) (reason : RetireReason) : Counted s (s.retire g reason) :=
  (s.retire_to (G := fun _ => True) g reason trivial).counted (s.retire_resting g reason)

theorem State.discardSegments_counted (s : State) (tags : List Nat) : Counted s (s.discardSegments tags) := by
  obtain ⟨-, hv, hc⟩ := s.discardSegments_notices tags
  have hr := s.discardSegments_resting tags
  have hs := s.discardSegments_step tags
  exact .of_eq (s.discardSegments_regions tags).1 hr.installs hr.scan (congrArg Installer.work hs.installer)
    (congrArg Station.state hs.station) hv (by rw [hc]) (by rw [hc])

theorem State.retireRecord_counted {s : State} {v : Voice} (hv : v ∈ s.voices) (reason : RetireReason) :
    Counted s (s.retireRecord reason v) := by
  obtain ⟨-, -, hclaims, hvoices, -⟩ := s.retireRecord_media reason v
  have hr := s.retireRecord_resting reason v
  have hs := s.retireRecord_step reason v
  refine ⟨hr.table, hr.installs, hr.scan, congrArg Installer.work hs.installer, congrArg Station.state hs.station,
    fun ha => ⟨?_, ?_⟩, fun ha id => s.retireRecord_uses reason v hv ha.1 id, fun h => ?_, fun h => by rw [hclaims, h]⟩
  · rw [hvoices]
    exact (List.filter_sublist.map _).nodup ha.1
  · unfold State.BidsApart
    rw [hclaims]
    exact ha.2
  · rw [h] at hv
    cases hv

/-- The voices of a list leave one after the other, each still there when its turn comes. -/
theorem State.retireRecords_usesLawful (reason : RetireReason) (l : List Voice) :
    ∀ {s : State}, s.HoldersApart → s.usesLawful → (∀ v ∈ l, v ∈ s.voices) → (l.map (·.tag)).Nodup →
      (l.foldl (fun s v => s.retireRecord reason v) s).HoldersApart ∧
        (l.foldl (fun s v => s.retireRecord reason v) s).usesLawful := by
  induction l with
  | nil => exact fun ha hs _ _ => ⟨ha, hs⟩
  | cons v l ih =>
    intro s ha hs hl hn
    obtain ⟨hv, hn⟩ := List.nodup_cons.1 hn
    have h := State.retireRecord_counted (hl v List.mem_cons_self) reason
    obtain ⟨-, -, -, hvoices, -⟩ := s.retireRecord_media reason v
    refine ih (h.apart ha) (h.usesLawful ha hs) (fun w hw => ?_) hn
    rw [hvoices]
    have hne : w.tag ≠ v.tag := fun heq => hv (List.mem_map.2 ⟨w, hw, heq⟩)
    exact List.mem_filter.2 ⟨hl w (List.mem_cons_of_mem _ hw), by simpa using hne⟩

theorem State.retireAll_usesLawful {s : State} (ha : s.HoldersApart) (hs : s.usesLawful) (reason : RetireReason) :
    (s.retireAll reason).HoldersApart ∧ (s.retireAll reason).usesLawful := by
  have hd := s.discardSegments_counted (s.voices.map (·.tag))
  obtain ⟨-, hv, -⟩ := s.discardSegments_notices (s.voices.map (·.tag))
  have hperm := s.voicesByTag_perm
  refine State.retireRecords_usesLawful reason _ (hd.apart ha) (hd.usesLawful ha hs) (fun v hmem => ?_)
    ((hperm.map _).nodup_iff.2 ha.1)
  rw [hv]
  exact hperm.mem_iff.1 hmem

theorem State.endVoice_counted {s : State} {v : Voice} (hv : s.voice? v.tag = some v) (mode : EndMode)
    (atTick : Option Nat) (sender : Nat) : Counted s (s.endVoice v mode atTick sender) := by
  have rest := (Resting.refl s).updateVoice v.tag
  have apply (mode : CutOrFade) : Counted s (s.applyEnd v mode sender) := by
    unfold State.applyEnd
    split
    · exact s.retire_counted _ _
    · split
      · exact (Counted.refl s).notice _ _
      · exact (s.fixFade_fills (G := fun _ => True) v _ hv).counted (s.fixFade_resting v _)
  have hold (mode : CutOrFade) : Counted s (s.endOrHold v mode atTick sender) := by
    unfold State.endOrHold
    split
    next a =>
      split
      · exact (s.updateVoice_fills (G := fun _ => True) v.tag (fun v => { v with
          pendingEnd := some { mode := mode, atTick := a } }) (fun _ => rfl) fun _ => rfl).counted (rest _)
      · exact apply mode
    · exact apply mode
  unfold State.endVoice
  split
  · refine (s.updateVoice_fills (G := fun _ => True) v.tag Voice.loopExited (fun v => ?_) fun v => ?_).counted (rest _)
    · unfold Voice.loopExited
      split <;> rfl
    · unfold Voice.loopExited
      split <;> rfl
  · exact hold _
  · exact hold _

theorem State.rated_counted (s : State) (g target step : Nat) :
    Counted s ((s.updateVoice g (·.rated target step)).recomputeDry g) :=
  ((s.updateVoice_fills (G := fun _ => True) g (·.rated target step) (fun _ => rfl) fun _ => rfl).counted
    ((Resting.refl s).updateVoice g _)).trans
    ((State.recomputeDry_fills (G := fun _ => True) _ g).counted (State.recomputeDry_resting _ g))

theorem State.unfollowTaken_counted {s : State} {v : Voice} (hv : s.voice? v.tag = some v) :
    Counted s (s.unfollowTaken v) := by
  unfold State.unfollowTaken
  split
  next f hf =>
    exact (State.updateVoice_release (G := fun _ => True) hv (fun v => { v with follow := none }) [f.region]
      (fun _ => rfl) fun id => by
        simp only [Voice.uses, hf, List.count_cons, Option.map_some, Option.toList_some, Option.map_none,
          Option.toList_none, List.count_nil]
        omega).counted (((Resting.refl s).updateVoice v.tag _).trans (State.releaseUses_resting [f.region] _))
  · exact Counted.refl s

theorem State.startPosting_counted (s : State) : Counted s s.startPosting := by
  unfold State.startPosting
  split
  · exact (Counted.refl s).setDelivery _
  · exact Counted.refl s

theorem State.postingEnded_counted (s : State) (p : Posting) : Counted s (s.postingEnded p) := by
  have h : Counted s (s.setDelivery { s.delivery with posting := none }).freeBuffer :=
    ((Counted.refl s).setDelivery _).trans (State.freeBuffer_die _).counted
  unfold State.postingEnded
  dsimp only
  refine Counted.trans ?_ (State.startPosting_counted _)
  split
  · exact h
  · exact h.trans ((State.deliveryCompletion_fills (G := fun _ => True) _ _ _ trivial).counted
      (State.deliveryCompletion_resting _ _ _))

theorem State.readOutcome_counted (s : State) (d : Nat) (a : ActiveRead) (bad : BitVec 12) :
    Counted s (s.readOutcome d a bad) := by
  have deliver (u : State) (e : Delivery) : Counted u (u.joinDelivery e) :=
    ((Counted.refl u).setDelivery _).trans (State.startPosting_counted _)
  unfold State.readOutcome
  split
  · unfold State.readResult
    dsimp only
    split
    · exact deliver s _
    · split
      · exact (s.joinReads_die d _).counted
      · exact ((Counted.refl s).notice _ _).trans (deliver _ _)
  · exact s.freeBuffer_die.counted

/-! ### Uses that are taken -/

theorem ite_beq_eq (a j : Nat) : (if (a == j) = true then 1 else 0) = if j = a then 1 else 0 := by
  rcases eq_or_ne j a with rfl | h
  · simp
  · simp [h, h.symm]

/-- A state with one use more of a LIVE region and one more of its count. -/
theorem State.usesLawful.gain {s t : State} {id : Nat} {r : Region} (hs : s.usesLawful) (hst : s.station.state ≠ .starting)
    (hr : s.region? id = some r) (hlive : r.state = .live) (huses : ∀ j, t.usesOf j = s.usesOf j + if j = id then 1 else 0)
    (hv : t.catalogue = (s.addUse id).catalogue) (hi : t.installer = s.installer) (hstation : t.station = s.station) :
    t.usesLawful := by
  have htable : SameTable s t := by
    have := (s.addUse_resting id).table
    unfold SameTable at this ⊢
    rw [hv]
    exact this
  refine hs.step htable (fun j h => ?_) (fun j h => ?_) ((congrArg Catalogue.pendingInstalls hv).trans rfl)
    ((congrArg Catalogue.scan hv).trans rfl) (congrArg Installer.work hi) (congrArg Station.state hstation)
    fun h => absurd h hst
  · have : t.uses? j = (s.addUse id).uses? j := State.uses_congr (congrArg Catalogue.regions hv) j
    rw [this, State.addUse_uses, h, huses, Option.map_some]
    split <;> rfl
  · rw [huses] at h
    by_cases hj : j = id
    · exact ⟨r, hj ▸ hr, hlive⟩
    · rw [if_neg hj] at h
      exact absurd h (Nat.lt_irrefl _)

/-- A FOLLOW that passes its tests finds the slot empty and the region LIVE (R151). -/
theorem State.followRefusal_none {s : State} {v : Voice} {region start : Nat}
    (h : s.followRefusal v region start = none) :
    v.follow = none ∧ ∃ r, s.region? region = some r ∧ r.state = .live := by
  unfold State.followRefusal at h
  split at h
  · cases h
  · split at h
    · cases h
    next hf =>
      split at h
      next r hr =>
        split at h
        · cases h
        next hl => exact ⟨by simpa using hf, r, hr, by simpa using hl⟩
      · cases h

theorem State.followTaken_usesLawful {s : State} {v : Voice} (hs : s.usesLawful) (hv : s.voice? v.tag = some v)
    (region start sender : Nat) : (s.followTaken v region start sender).usesLawful := by
  unfold State.followTaken
  split
  · exact hs.congr rfl rfl rfl rfl
  next hnone =>
    obtain ⟨hf, r, hr, hlive⟩ := State.followRefusal_none hnone
    have hst : s.station.state ≠ .starting := fun h => by
      have hmem := State.voice_mem hv
      rw [(hs.starting h).1] at hmem
      cases hmem
    refine hs.gain hst hr hlive (fun j => ?_) rfl rfl rfl
    have hsum := sum_updateFirst (fun v : Voice => v.uses.count j) (fun w : Voice => w.tag == v.tag)
      (fun v => { v with follow := some { region := region, offset := start } }) hv
    have hold : v.uses.count j = if v.region == j then 1 else 0 := by
      rw [Voice.uses_count, hf]
      rfl
    have hnew : Voice.uses { v with follow := some { region := region, offset := start } } = [v.region, region] := rfl
    rw [State.usesOf_eq, State.usesOf_eq]
    change s.claims.bids.countP _ + ((updateFirst _ _ s.voices).map _).sum = _
    rw [hnew, hold] at hsum
    simp only [List.count_cons, List.count_nil, ite_beq_eq] at hsum
    omega

theorem State.canBid_live {s : State} {n : NoteFields} (h : s.canBid n = true) :
    ∃ r, s.region? n.region = some r ∧ r.state = .live := by
  unfold State.canBid at h
  split at h
  next r hr =>
    simp only [Bool.and_eq_true, beq_iff_eq] at h
    exact ⟨r, hr, h.1.1.2.1⟩
  · simp at h

theorem State.makeBid_usesLawful {s : State} (hs : s.usesLawful) (hst : s.station.state ≠ .starting) (n : NoteFields) :
    (s.makeBid n).usesLawful := by
  unfold State.makeBid
  split
  next hcan =>
    obtain ⟨r, hr, hlive⟩ := State.canBid_live hcan
    refine hs.gain hst hr hlive (fun j => ?_) rfl rfl rfl
    have hone : [n.bid s.timebase.tick s.clock].countP (·.region == j) = if j = n.region then 1 else 0 := by
      rw [List.countP_singleton]
      exact ite_beq_eq n.region j
    change (s.claims.bids ++ [n.bid s.timebase.tick s.clock]).countP (·.region == j) +
      s.voices.countP _ + s.voices.countP _ = s.claims.bids.countP _ + _ + _ + _
    rw [List.countP_append, hone]
    omega
  · exact hs

theorem State.homeWatch_counted (s : State) (n : NoteFields) : Counted s (s.homeWatch n) := by
  have drop : Counted s (s.dropWatch n.tag) := (Counted.refl s).setWatches _
  unfold State.homeWatch
  split
  · split
    · split
      · unfold State.startWatch
        dsimp only
        split
        · exact drop.setWatches _
        · exact drop
      · exact drop.notice _ _
    · exact drop
  · exact drop

theorem State.noteTaken_usesLawful {s : State} (ha : s.HoldersApart) (hs : s.usesLawful)
    (hst : s.station.state ≠ .starting) (n : NoteFields) : (s.noteTaken n).usesLawful := by
  have h := ((s.retire_counted n.tag .superseded).trans (State.dropBid_counted _ n.tag)).trans
    (State.homeWatch_counted _ n)
  exact State.finish_usesLawful (State.makeBid_usesLawful (h.usesLawful ha hs) (h.state ▸ hst) n)

/-! ### A won claim (R9, R132) -/

theorem State.steal_counted (s : State) : Counted s s.steal := by
  unfold State.steal
  split
  · exact s.retire_counted _ _
  · exact Counted.refl s

theorem State.steal_voices (s : State) : s.steal.voices.Sublist s.voices := by
  unfold State.steal
  split
  · rw [State.retire_voices]
    exact List.filter_sublist
  · exact List.Sublist.refl _

theorem Bid.create_uses (b : Bid) (record now : Nat) (hasLoop : Bool) :
    (b.create record now hasLoop).uses = [b.region] ∧ (b.create record now hasLoop).tag = b.tag := by
  unfold Bid.create
  exact ⟨Voice.withDry_uses _ _, (Voice.withDry_core _ _).tag⟩

/-- The record that is created takes the use of the entry that has left over (R132). -/
theorem State.createVoice_usesLawful {s : State} {b : Bid} (ht : s.tagsLawful) (hs : s.usesLawful)
    (hb : b ∈ s.claims.bids) :
    ((s.setBids (s.claims.bids.filter (·.tag != b.tag))).createVoice b).usesLawful := by
  obtain ⟨hvtags, -, -, hbtags, hapart⟩ := ht
  have hcount (id : Nat) := s.usesOf_withoutBid b id hbtags hb
  generalize hu : s.setBids (s.claims.bids.filter (·.tag != b.tag)) = u at hcount ⊢
  have hau : u.HoldersApart := by
    subst hu
    exact ⟨hvtags, (s.filterBids_quiet _).apart hbtags⟩
  have hfresh : b.tag ∉ u.steal.voices.map (·.tag) := fun hm => by
    obtain ⟨v, hv, heq⟩ := List.mem_map.1 hm
    have hv : v ∈ u.voices := u.steal_voices.subset hv
    subst hu
    exact hapart v hv b hb heq
  have hc := u.steal_counted
  have hst : s.station.state ≠ .starting := fun h => by
    rw [(hs.starting h).2.1] at hb
    cases hb
  have htable : SameTable s u.steal := by
    subst hu
    exact hc.table
  have hinstalls : u.steal.catalogue.pendingInstalls = s.catalogue.pendingInstalls := by
    subst hu
    exact hc.installs
  have hscan : u.steal.catalogue.scan = s.catalogue.scan := by
    subst hu
    exact hc.scan
  have hwork : u.steal.installer.work = s.installer.work := by
    subst hu
    exact hc.work
  have hstate : u.steal.station.state = s.station.state := by
    subst hu
    exact hc.state
  have huses (id : Nat) (h : s.uses? id = some (s.usesOf id)) :
      u.steal.uses? id = some (u.steal.usesOf id + if b.region == id then 1 else 0) := by
    refine (hc.uses hau id).2 _ ?_
    rw [← hcount]
    subst hu
    exact h
  have hle (id : Nat) : u.steal.usesOf id + (if b.region == id then 1 else 0) ≤ s.usesOf id := by
    have := (hc.uses hau id).1
    rw [hcount]
    omega
  unfold State.createVoice
  dsimp only
  generalize u.steal = c at hc hfresh htable hinstalls hscan hwork hstate huses hle ⊢
  split
  next record _ =>
    obtain ⟨hcu, htag⟩ := b.create_uses record c.timebase.tick ((c.region? b.region).bind (·.loop)).isSome
    generalize b.create record c.timebase.tick ((c.region? b.region).bind (·.loop)).isSome = v at hcu htag ⊢
    have hgain (id : Nat) : (c.setVoices (c.voices ++ [v])).usesOf id =
        c.usesOf id + if b.region == id then 1 else 0 := by
      rw [State.usesOf_eq, State.usesOf_eq]
      change c.claims.bids.countP _ + ((c.voices ++ [v]).map _).sum = _
      rw [List.map_append, List.sum_append, List.map_singleton, List.sum_singleton, hcu, List.count_singleton]
      omega
    have hlaw : (c.setVoices (c.voices ++ [v])).usesLawful :=
      hs.step htable (fun id h => (huses id h).trans (congrArg some (hgain id).symm))
        (fun id h => absurd (hgain id ▸ hle id) (Nat.not_le.2 h)) hinstalls hscan hwork hstate fun h => absurd h hst
    have ha : (c.setVoices (c.voices ++ [v])).HoldersApart := by
      refine ⟨?_, (hc.apart hau).2⟩
      show ((c.voices ++ [v]).map (·.tag)).Nodup
      rw [List.map_append, List.map_singleton, htag]
      exact (List.perm_append_singleton _ _).nodup_iff.2 (List.nodup_cons.2 ⟨hfresh, (hc.apart hau).1⟩)
    exact ((State.testEligible_fills (G := fun _ => True) _ b.tag).counted
      (State.testEligible_resting _ b.tag)).usesLawful ha hlaw
  · refine hs.step ((State.releaseUse_table c b.region).trans htable) (fun id h => ?_) (fun id h => ?_) hinstalls hscan
      hwork hstate fun h => absurd h hst
    · rw [State.releaseUse_uses, huses id h, Option.map_some, ite_beq_eq]
      show some _ = some (c.usesOf id)
      split <;> simp
    · have : c.usesOf id ≤ s.usesOf id := (Nat.le_add_right _ _).trans (hle id)
      exact absurd this (Nat.not_le.2 h)

theorem State.claimWonBy_usesLawful {s : State} {b : Bid} (ht : s.tagsLawful) (hs : s.usesLawful)
    (hb : b ∈ s.claims.bids) : (s.claimWonBy b).usesLawful := by
  have hlaw := State.createVoice_usesLawful ht hs hb
  have htags : ((s.setBids (s.claims.bids.filter (·.tag != b.tag))).createVoice b).tagsLawful := by
    have h0 : Fewer s (s.setBids (s.claims.bids.filter (·.tag != b.tag))) := ⟨.refl _, List.filter_sublist.map _⟩
    exact State.createVoice_tagsLawful (h0.tagsLawful ht) (fun v hv => ht.2.2.2.2 v hv b hb)
      fun c hc => by simpa using (List.mem_filter.1 hc).2
  exact State.finish_usesLawful ((((Counted.refl _).hear b.tag).trans (State.settleDue_step _).counted).usesLawful
    htags.holders hlaw)

/-! ### Every step -/

theorem State.stopClaim_counted (s : State) : Counted s s.stopClaim :=
  ((Counted.refl s).setPort s.port.stop).trans s.stopClaim_step.counted

theorem State.linkLost_usesLawful {s : State} (ha : s.HoldersApart) (hs : s.usesLawful) : s.linkLost.usesLawful := by
  have fails {u : State} {i : InstallItem} {rest : List WorkItem} (hu : u.usesLawful)
      (hw : u.installer.work = .install i :: rest) :
      ((u.setInstaller { u.installer with held := u.pageUnderWay }).installFails i .linkDown).usesLawful := by
    generalize u.pageUnderWay = held
    have h1 : (u.setInstaller { u.installer with held := held }).usesLawful := hu.congr rfl rfl rfl rfl
    exact State.installFails_usesLawful h1 hw .linkDown
  have install {u : State} (hu : u.usesLawful) : u.linkLostInstall.usesLawful := by
    unfold State.linkLostInstall
    split
    next hw =>
      dsimp only
      split
      · exact hu
      · exact fails hu hw
      · exact fails hu hw
      · exact fails hu hw
      · split
        · exact hu
        · exact fails hu hw
    · exact hu
  have abandons (u : State) : Counted u u.abandonClaim := by
    unfold State.abandonClaim
    split
    · exact u.stopClaim_counted
    · exact Counted.refl u
    · exact Counted.refl u
  have h0 := (Counted.refl s).setDelivery { link := .down, queue := [], posting := none, installRead := none }
  obtain ⟨ha1, hs1⟩ := State.retireAll_usesLawful (h0.apart ha) (h0.usesLawful ha hs) .link
  unfold State.linkLost
  dsimp only
  generalize (s.setDelivery _).retireAll .link = u at ha1 hs1 ⊢
  generalize s.delivery.queue.length + (if s.delivery.posting.isSome then 1 else 0) = n
  have h2 := ((State.freeBuffers_die n u).counted.trans (State.dropBids_counted _)).trans (abandons _)
  exact State.finish_usesLawful (install (State.settleFront_usesLawful (h2.usesLawful ha1 hs1)))

theorem State.haltTaken_usesLawful {s : State} (ha : s.HoldersApart) (hs : s.usesLawful) (sender : Nat) :
    (s.haltTaken sender).usesLawful := by
  obtain ⟨ha1, hs1⟩ := State.retireAll_usesLawful ha hs .halted
  have h := (((State.dropBids_counted (s.retireAll .halted)).setWatches []).setTimebase
    { s.timebase with load := none, drive := none }).notice sender (.halted s.voices.length)
  have heq : ((s.retireAll .halted).dropBids.setWatches []).timebase = s.timebase :=
    ((State.releaseUses_step _ _).timebase.trans (State.retireAll_step s .halted).timebase)
  unfold State.haltTaken State.clearTimebase
  rw [heq]
  exact State.finish_usesLawful (h.usesLawful ha1 hs1)

theorem State.configureTested_usesLawful {s : State} (hs : s.usesLawful) (hst : s.station.state ≠ .starting)
    (sender : Nat) (c : Option Configuration) : (s.configureTested sender c).usesLawful := by
  unfold State.configureTested
  split
  · exact hs.congr rfl rfl rfl rfl
  · split
    · exact hs.congr rfl rfl rfl rfl
    next c =>
      exact ⟨hs.counted, hs.named, hs.distinct, hs.pending, hs.departing, hs.removal, hs.waiting,
        fun h => absurd (hs.scanning h) hst, fun h => by cases h⟩

theorem State.installTaken_usesLawful {s : State} (hs : s.usesLawful) (hst : s.station.state ≠ .starting)
    (i : InstallFields) : (s.installTaken i).usesLawful := by
  unfold State.installTaken
  refine State.finish_usesLawful ?_
  split
  · exact hs.congr rfl rfl rfl rfl
  next h => exact State.admitInstall_usesLawful hs hst (State.installRefusal_none h)

/-- An admitted RECLAIM names a region that nothing uses (R167). -/
theorem State.reclaimRefusal_unused {s : State} {region : Nat} (h : s.reclaimRefusal region = none) :
    ∃ r, s.region? region = some r ∧ r.inUse = 0 := by
  unfold State.reclaimRefusal at h
  split at h
  · cases h
  · split at h
    · cases h
    next r hr =>
      split at h
      · cases h
      next hu => exact ⟨r, hr, by simpa using hu⟩

theorem State.reclaimTaken_usesLawful {s : State} (hs : s.usesLawful) (hst : s.station.state ≠ .starting)
    (region sender : Nat) : (s.reclaimTaken region sender).usesLawful := by
  unfold State.reclaimTaken
  refine State.finish_usesLawful ?_
  split
  · exact hs.congr rfl rfl rfl rfl
  next h =>
    obtain ⟨r, hr, hu⟩ := State.reclaimRefusal_unused h
    exact State.admitReclaim_usesLawful hs hst hr hu

theorem State.wipeTaken_usesLawful {s : State} (hs : s.usesLawful) (hst : s.station.state ≠ .starting)
    (sender : Nat) : (s.wipeTaken sender).usesLawful := by
  unfold State.wipeTaken
  refine State.finish_usesLawful ?_
  split
  · exact hs.congr rfl rfl rfl rfl
  next h => exact State.admitWipe_usesLawful hs hst (by simpa using h) sender

theorem Starts.counted {s u : State} (h : Starts s u) : Counted s u := by
  cases h
  case clock => exact .of_eq rfl rfl rfl rfl rfl rfl rfl rfl
  case ended t h =>
    have h1 : Counted s (s.atTime t).endFrame := .of_eq rfl rfl rfl rfl rfl rfl rfl rfl
    exact h1.trans (State.ended_step _).counted

theorem Effect.usesLawful {s t : State} {c : Instr} (h : Effect s c t) (ht : s.tagsLawful) (hs : s.usesLawful) :
    t.usesLawful := by
  have refl := Counted.refl s
  have kept {u : State} (hu : Counted s u) : u.usesLawful := hu.usesLawful ht.holders hs
  have closed {u : State} (hu : Counted s u) : u.finish.usesLawful := State.finish_usesLawful (kept hu)
  cases h
  case nothing => exact hs
  case reset => exact State.reset_usesLawful.congr rfl rfl rfl rfl
  case scan hx => exact State.finish_usesLawful (State.logSectorRead_usesLawful hs hx _)
  case edge => exact closed (s.edge_counted _ _ _)
  case divider => exact closed ((refl.setTimebase _).trans (State.tickEvent_counted _ _))
  case standIn => exact closed (s.standIn_counted _ _)
  case driveEnd | lineRise | pulse => exact kept (refl.setTimebase _)
  case downbeat => exact closed ((refl.setTimebase _).trans (State.downbeat_counted _))
  case busIdle => exact closed (refl.setPort _)
  case frameBegins | claimGone => exact kept (refl.setPort _)
  case claimLost => exact kept ((refl.setPort _).trans (State.claimReturned_counted _ _))
  case claimLostTo =>
    exact kept (((refl.setPort _).trans (State.claimReturned_counted _ _)).trans (State.settleDue_step _).counted)
  case noticeLost | noticeBroken | noticeSent => exact kept ((refl.setPort _).setNotices _)
  case claimBroken => exact kept ((s.claimReturned_counted _).trans (State.stopClaim_counted _))
  case claimWon b _ _ hb =>
    exact State.claimWonBy_usesLawful (s := s.setPort { bus := .skipping, sending := none }) ht
      (kept (refl.setPort _)) (List.mem_of_find?_eq_some hb)
  case claimHeard =>
    exact closed (((((refl.setPort _).trans (State.dropBid_counted _ _)).trans (State.retire_counted _ _ _)).hear _).trans
      (State.settleDue_step _).counted)
  case note n hc _ => exact State.noteTaken_usesLawful ht.holders hs (by rw [hc]; nofun) n
  case endVoice hv =>
    rw [← State.voice_tag hv] at hv
    exact closed (State.endVoice_counted hv _ _ _)
  case endBid => exact closed (s.dropBid_counted _)
  case endNone | rateNone => exact closed refl
  case rateVoice => exact closed (s.rated_counted _ _ _)
  case rateBid b _ _ target _ _ =>
    exact closed (s.updateBid_counted b.tag (f := fun b => { b with rate := clampRate target.toNat }) (fun _ => rfl)
      fun _ => rfl)
  case follow hv =>
    rw [← State.voice_tag hv] at hv
    exact State.followTaken_usesLawful hs hv _ _ _
  case unfollow hv =>
    rw [← State.voice_tag hv] at hv
    exact kept (State.unfollowTaken_counted hv)
  case halt => exact State.haltTaken_usesLawful ht.holders hs _
  case timebase =>
    unfold State.timebaseTaken
    split
    · exact kept (refl.setTimebase _)
    · exact hs
  case probe =>
    unfold State.probeTaken
    split
    · exact kept (refl.notice _ _)
    · exact hs
  case install hst => exact State.installTaken_usesLawful hs hst _
  case reclaim hst => exact State.reclaimTaken_usesLawful hs hst _ _
  case wipe hst => exact State.wipeTaken_usesLawful hs hst _
  case configure hst => exact State.configureTested_usesLawful hs hst _ _
  case bidExpires => exact kept (s.dropBid_counted _)
  case bidCloses tag _ _ =>
    exact kept (s.updateBid_counted tag.toNat (f := fun b => { b with window := .closed }) (fun _ => rfl) fun _ => rfl)
  case watchDeferred => exact kept (refl.setWatches _)
  case watchDecided => exact closed (State.decideWatch_step _ _).counted
  case segmentRead a _ d bad _ =>
    exact closed ((s.readOutcome_counted d a bad).trans (State.readEnded_die _ d).counted)
  case programEnds | eraseEnds | completed =>
    exact State.finish_usesLawful (State.longOpResult_usesLawful hs _ _ _)
  case suspended op _ d _ =>
    exact closed ((s.updateDie_die d fun die => { die with state := .suspended op }).counted.trans
      (State.serviceDecision_die _ d).counted)
  case holdOff d => exact closed (s.suspendTest_die d).counted
  case posting => exact closed (s.postingEnded_counted _)
  case linkUp => exact kept (refl.setDelivery _)
  case linkLost => exact State.linkLost_usesLawful ht.holders hs
  case pageRead hi =>
    exact State.finish_usesLawful (State.enterProgramming_usesLawful (hs.congr rfl rfl rfl rfl) hi)
  case readFails hi | readTimesOut hi =>
    have h1 : s.endRead.usesLawful := kept (refl.setDelivery _)
    exact State.finish_usesLawful (State.installFails_usesLawful h1 hi _)

/-- Settles O54: the law is kept together with the law that each tag has one holder, under which a voice or an entry that
leaves gives up exactly its own uses. -/
theorem stepsKeepUsesCounted : Obligations.StepsKeepUsesCounted := fun _ _ ht hs h =>
  (step_keeps (P := fun s => s.tagsLawful ∧ s.usesLawful) (fun _ _ ⟨ht, hs⟩ => ⟨ht, hs.congr rfl rfl rfl rfl⟩)
    (fun hu ⟨ht, hs⟩ => ⟨hu.fewer.tagsLawful ht, hu.counted.usesLawful ht.holders hs⟩)
    (fun he ⟨ht, hs⟩ => ⟨he.tagsLawful ht, he.usesLawful ht hs⟩) ⟨ht, hs⟩ h).2

end Sys2Proof.Machine
end

