-- ==== Sys2Proof/Proofs/Settling.lean ====
section
/-! SUPPORT. What closes a step (R52, R102, R114) leaves the in-use counts: the failure of a program turned away takes no
region into the table and none out of it. -/

namespace Sys2Proof.Machine

/-- The ids of the region table with their in-use counts. -/
def usesIn (regions : List Region) : List (Nat × Nat) := regions.map fun r => (r.id, r.inUse)

theorem State.uses?_eq (s : State) (id : Nat) :
    s.uses? id = ((usesIn s.catalogue.regions).find? (·.1 == id)).map (·.2) := by
  unfold State.uses? State.region? usesIn
  rw [List.find?_map, Option.map_map]
  rfl

/-- From `s` to `t` the ids and in-use counts of the region table stay. -/
def SameUses (s t : State) : Prop := usesIn t.catalogue.regions = usesIn s.catalogue.regions

theorem SameUses.uses? {s t : State} (h : SameUses s t) (id : Nat) : t.uses? id = s.uses? id := by
  rw [State.uses?_eq, State.uses?_eq, h]

theorem SameUses.trans {s t u : State} (a : SameUses s t) (b : SameUses t u) : SameUses s u := Eq.trans b a

theorem SameUses.of_shelf {s t : State} (h : t.shelf.regions = s.shelf.regions) : SameUses s t := congrArg usesIn h

theorem SameUses.restated {s t : State} {id : Nat} {x : RegionState}
    (h : t.catalogue.regions = restated id x s.catalogue.regions) : SameUses s t := by
  unfold SameUses usesIn
  rw [h]
  exact updateFirst_map _ (fun r : Region => { r with state := x }) (fun r => (r.id, r.inUse)) (fun _ => rfl) _

theorem State.failInstall_sameUses (s : State) (i : InstallItem) (reason : Reason) :
    SameUses s (s.failInstall i reason) := .of_shelf (by rw [State.failInstall_shelf])

theorem State.startNext_sameUses (n : Nat) : ∀ s : State, SameUses s (State.startNext n s) := by
  induction n with
  | zero => exact fun _ => rfl
  | succ n ih =>
    intro s
    have ended (sender region : Nat) (reason : Reason) :
        SameUses s ((s.endReclaim).refuse sender 11 reason region) := rfl
    rw [State.startNext]
    split
    · rfl
    · split
      · split
        · split
          · rfl
          · exact (s.failInstall_sameUses _ _).trans (ih _)
        · rfl
      · split
        · exact (ended _ _ _).trans (ih _)
        · split
          · exact (ended _ _ _).trans (ih _)
          · exact .restated (congrArg Shelf.regions (s.runReclaim_shelf _ _))
      · rfl
      · rfl
      · rfl

theorem State.nextItem_sameUses (s : State) : SameUses s s.nextItem := State.startNext_sameUses 4 s

theorem State.installFails_sameUses (s : State) (i : InstallItem) (reason : Reason) :
    SameUses s (s.installFails i reason) := (s.failInstall_sameUses i reason).trans (State.nextItem_sameUses _)

theorem State.orphanResult_sameUses (s : State) (d : Nat) (p : Program) (ok : Bool) :
    SameUses s (s.orphanResult d p ok) := by
  have released (u : State) : SameUses u (u.setInstaller { u.installer with held := false }) := rfl
  unfold State.orphanResult
  dsimp only
  refine (SameUses.trans ?_ (released _)).trans (State.nextItem_sameUses _)
  split
  · exact .of_shelf (by rw [State.queueDeadOn_shelf, State.updateBlock_shelf])
  · rfl

/-- The failure of a program changes no in-use count (R165, R168). -/
theorem State.handOn_failed_sameUses (s : State) (d : Nat) (p : Program) : SameUses s (s.handOn d p false) := by
  have failed : SameUses s (s.updateBlock d p.block Block.programFailed) := rfl
  have advanced : SameUses s s.advanceAppend := rfl
  unfold State.handOn
  split
  · unfold State.pageResult
    simp only [Bool.false_eq_true, if_false]
    split
    · split
      · exact failed.trans (State.installFails_sameUses _ _ _)
      · exact s.orphanResult_sameUses d p false
    · exact s.orphanResult_sameUses d p false
  · unfold State.logResult
    simp only [Bool.false_eq_true, if_false]
    split
    · split
      · exact advanced.trans (State.installFails_sameUses _ _ _)
      · rfl
    next sender region _ _ =>
      have h : SameUses s ((s.advanceAppend.updateRegion region fun r => { r with state := .live }).endReclaim.refuse
        sender 11 .log region) := .restated (id := region) (x := .live) rfl
      exact h.trans (State.nextItem_sameUses _)
    · rfl

theorem State.settleFronts_sameUses (n : Nat) : ∀ s : State, SameUses s (State.settleFronts n s) := by
  induction n with
  | zero => exact fun _ => rfl
  | succ n ih =>
    intro s
    rw [State.settleFronts]
    split
    · rfl
    next d p rest _ =>
      have handed : SameUses s (s.setMedia { s.media with frontFailed := rest }) := rfl
      exact (handed.trans (State.handOn_failed_sameUses _ d p)).trans (ih _)

theorem State.finish_sameUses (s : State) : SameUses s s.finish := by
  have h : SameUses s s.settleFront.recomputeReady := State.settleFronts_sameUses 8 s
  exact h.trans (congrArg (fun c : Catalogue => usesIn c.regions) (State.offer_step _).catalogue)

@[simp] theorem State.finish_uses (s : State) (id : Nat) : s.finish.uses? id = s.uses? id := s.finish_sameUses.uses? id

end Sys2Proof.Machine
end

