-- ==== Sys2Proof/Proofs/Notes.lean ====
section
/-! SUPPORT. The steps of a NOTE and of a CLAIM heard: the voice of the tag retires, its entry leaves, the home watch is
started, a bid is made (O24, O25, O26). -/

namespace Sys2Proof.Machine

/-! ### What the parts leave of the notice queue, the region table and the lists -/

/-- RETIRED is told at a retirement for every reason but HALTED (R32). -/
theorem State.told_retire {s t u : State} {tag : Nat} {reason : RetireReason} {v : Voice} (hv : t.voice? tag = some v)
    (hr : reason ≠ .halted) (a : NoticeStep s t) (b : NoticeStep (t.retire tag reason) u) :
    s.told u { addressee := v.requester, body := .retired v.tag reason v.floorP, isOpen := false } := by
  have hret : t.retire tag reason = (t.discardSegments [tag]).retireRecord reason v := by rw [State.retire, hv]
  rw [hret] at b
  obtain ⟨hn, -, -⟩ := t.discardSegments_notices [tag]
  exact State.told_retireRecord reason v hr (a.trans (.of_eq hn)) b

theorem State.retire_noticeStep (s : State) (tag : Nat) (reason : RetireReason) : NoticeStep s (s.retire tag reason) :=
  (s.retire_to (G := (· = tag)) tag reason rfl).notices.noticeStep

theorem State.dropBid_noticeStep (s : State) (tag : Nat) : NoticeStep s (s.dropBid tag) := by
  obtain ⟨-, -, -, -, -, -, -, -, -, hnotices, -⟩ := s.dropBid_step tag
  exact .of_eq hnotices

@[simp] theorem State.setWatches_watches (s : State) (x : List Watch) : (s.setWatches x).claims.watches = x := rfl

/-- A condition on a region of the table that its in-use count does not enter. -/
theorem region_exists_iff {s t : State} {j : Nat} (h : (t.region? j).map Region.unused = (s.region? j).map Region.unused)
    {P : Region → Prop} (hP : ∀ r, P r.unused ↔ P r) :
    (∃ r, t.region? j = some r ∧ P r) ↔ ∃ r, s.region? j = some r ∧ P r := by
  have key (x : State) : (∃ r, x.region? j = some r ∧ P r) ↔ ∃ r, (x.region? j).map Region.unused = some r ∧ P r := by
    cases x.region? j with
    | none => simp
    | some r => simp [hP]
  rw [key, key, h]

/-- The watch list after the home-holder test (R137). -/
theorem State.homeWatch_watches (s : State) (n : NoteFields) {kept : List Watch}
    (hk : kept = s.claims.watches.filter (fun w => w.tag != n.tag)) : (s.homeWatch n).claims.watches =
      if (∃ r, s.region? n.region = some r ∧ r.role = .home ∧ n.start < r.frames) ∧ kept.length < 16 then
        kept ++ [{ tag := n.tag, region := n.region, requester := n.requester
                   expiry := s.clock + windowCycles, heard := false, due := false }]
      else kept := by
  subst hk
  unfold State.homeWatch
  cases hr : s.region? n.region with
  | none => simp [State.dropWatch]
  | some r =>
    cases hrole : r.role with
    | replica => simp [hrole, State.dropWatch]
    | home =>
      by_cases hf : n.start < r.frames
      · by_cases hl : (s.claims.watches.filter fun w => w.tag != n.tag).length < 16 <;>
          simp [hf, hrole, State.startWatch, State.dropWatch, hl]
      · simp [hf, hrole, State.dropWatch, State.queueNotice]

theorem State.homeWatch_noticeStep (s : State) (n : NoteFields) : NoticeStep s (s.homeWatch n) := by
  unfold State.homeWatch State.startWatch
  split
  · split
    · split
      · dsimp only
        split
        · exact .of_eq rfl
        · exact .of_eq rfl
      · have h : NoticeStep s (s.dropWatch n.tag) := .of_eq rfl
        exact h.trans (State.queueNotice_noticeStep _ _ _)
    · exact .of_eq rfl
  · exact .of_eq rfl

/-- The home-holder test changes the watch list and the notice queue alone (R137). -/
theorem State.homeWatch_step (s : State) (n : NoteFields) : WatchStep s (s.homeWatch n) := by
  unfold State.homeWatch State.startWatch
  split
  · split
    · split
      · dsimp only
        split
        · exact ⟨rfl, rfl, rfl, rfl, rfl, rfl, rfl, rfl, rfl, rfl, rfl, rfl⟩
        · exact ⟨rfl, rfl, rfl, rfl, rfl, rfl, rfl, rfl, rfl, rfl, rfl, rfl⟩
      · exact ⟨rfl, rfl, rfl, rfl, rfl, rfl, rfl, rfl, rfl, rfl, rfl, rfl⟩
    · exact ⟨rfl, rfl, rfl, rfl, rfl, rfl, rfl, rfl, rfl, rfl, rfl, rfl⟩
  · exact ⟨rfl, rfl, rfl, rfl, rfl, rfl, rfl, rfl, rfl, rfl, rfl, rfl⟩

/-- The conditions of a bid (R128). -/
theorem State.canBid_iff (s : State) (n : NoteFields) : s.canBid n = true ↔ s.delivery.link = .up ∧
    (∃ r, s.region? n.region = some r ∧ r.state = .live ∧ n.start < r.frames) ∧ s.claims.bids.length < 16 ∧
      s.canCreate = true := by
  unfold State.canBid
  cases s.region? n.region <;> simp [and_assoc, and_left_comm, and_comm]

theorem State.makeBid_bids (s : State) (n : NoteFields) : (s.makeBid n).claims.bids =
    if s.canBid n then s.claims.bids ++ [n.bid s.timebase.tick s.clock] else s.claims.bids := by
  unfold State.makeBid
  split <;> rfl

/-- What making a bid leaves alone. -/
theorem State.makeBid_step (s : State) (n : NoteFields) :
    (s.makeBid n).clock = s.clock ∧ (s.makeBid n).station = s.station ∧ (s.makeBid n).port = s.port ∧
      (s.makeBid n).claims.watches = s.claims.watches ∧ (s.makeBid n).voices = s.voices ∧
      (s.makeBid n).notices = s.notices := by
  unfold State.makeBid
  split <;> exact ⟨rfl, rfl, rfl, rfl, rfl, rfl⟩

/-- Whether a record can be created depends on the voice table alone (R128). -/
theorem State.canCreate_congr {s t : State} (h : t.voices = s.voices) : t.canCreate = s.canCreate := by
  unfold State.canCreate State.idleRecord? State.stealVictim?
  rw [h]

/-! ### NOTE -/

/-- The claim unit's fields of a NOTE (R122, R125, R127). -/
def noteFields (h : Header) (region : BitVec 24) (offset : BitVec 32) (mode : StartMode) (rate : BitVec 24)
    (flags : BitVec 8) : NoteFields :=
  { tag := h.key.toNat, region := region.toNat, start := roundSegment offset.toNat, mode := mode
    rate := clampRate rate.toNat, loopRequest := loopEnableOf flags, requester := h.sender.toNat }

theorem execNote_taken {s : State} {h : Header} (ht : s.takes h) (hc : s.station.state = .configured) (t : Nat)
    {region : BitVec 24} {offset : BitVec 32} {tick : BitVec 48} {rate : BitVec 24} {flags : BitVec 8}
    {mode : StartMode} (hm : startModeOf flags tick = some mode) :
    exec (.note t h region offset tick rate flags) s =
      .next ((s.frameEnded t).noteTaken (noteFields h region offset mode rate flags)) :=
  congrArg Host.Outcome.next <| (s.receive_takes t h _ ht).trans <| by
    simp only [hm, State.frameEnded_station, hc, if_true]
    rfl

/-- Outside CONFIGURED, or with start mode 3, a NOTE ends without effect (R127). -/
theorem execNote_idle {s : State} {h : Header} (ht : s.takes h) (t : Nat) {region : BitVec 24} {offset : BitVec 32}
    {tick : BitVec 48} {rate : BitVec 24} {flags : BitVec 8}
    (hn : s.station.state ≠ .configured ∨ flags.toNat % 4 = 3) :
    exec (.note t h region offset tick rate flags) s = .next (s.frameEnded t) :=
  congrArg Host.Outcome.next <| (s.receive_takes t h _ ht).trans <| by
    rcases hn with hc | hf
    · cases startModeOf flags tick with
      | none => rfl
      | some mode => exact if_neg hc
    · have : startModeOf flags tick = none := by unfold startModeOf; rw [hf]; rfl
      simp only [this]

section Steps
variable (s : State) (n : NoteFields)

/-- The state in which a NOTE's home-holder test is made: the voice and the entry of its tag are gone (R127). -/
def State.noteCleared : State := (s.retire n.tag .superseded).dropBid n.tag

theorem State.noteCleared_region (j : Nat) :
    ((s.noteCleared n).region? j).map Region.unused = (s.region? j).map Region.unused :=
  (State.dropBid_region _ _ j).trans (s.retire_region n.tag .superseded j)

theorem State.noteCleared_voices : (s.noteCleared n).voices = s.voices.filter (fun v => v.tag != n.tag) := by
  obtain ⟨-, -, -, -, hvoices, -⟩ := (s.retire n.tag .superseded).dropBid_step n.tag
  exact hvoices.trans (s.retire_voices n.tag .superseded)

theorem State.noteCleared_bids : (s.noteCleared n).claims.bids = s.claims.bids.filter (fun b => b.tag != n.tag) :=
  (State.dropBid_bids _ _).trans (by rw [(s.retire_step n.tag .superseded).claims])

theorem State.noteCleared_step : (s.noteCleared n).clock = s.clock ∧ (s.noteCleared n).station = s.station ∧
    (s.noteCleared n).port = s.port ∧ (s.noteCleared n).claims.watches = s.claims.watches ∧
    (s.noteCleared n).timebase = s.timebase ∧ (s.noteCleared n).delivery.link = s.delivery.link := by
  obtain ⟨hclock, hstation, hport, hwatches, -, htimebase, -, -, hdelivery, -⟩ :=
    (s.retire n.tag .superseded).dropBid_step n.tag
  have h := s.retire_step n.tag .superseded
  refine ⟨hclock.trans h.clock, hstation.trans h.station, hport.trans h.port, ?_, htimebase.trans h.timebase, ?_⟩
  · exact hwatches.trans (congrArg ClaimUnit.watches h.claims)
  · exact (congrArg DeliveryEngine.link hdelivery).trans (s.retire_steady n.tag .superseded).link

theorem State.noteCleared_noticeStep : NoticeStep s (s.noteCleared n) :=
  (s.retire_noticeStep n.tag .superseded).trans (State.dropBid_noticeStep _ _)

theorem State.noteTaken_after_noticeStep : NoticeStep (s.noteCleared n) (s.noteTaken n) := by
  obtain ⟨-, -, -, -, -, hnotices⟩ := ((s.noteCleared n).homeWatch n).makeBid_step n
  exact (((s.noteCleared n).homeWatch_noticeStep n).trans (.of_eq hnotices)).trans (State.finish_noticeStep _)

end Steps

/-- The port keeps quiet after another station's frame, so closing the step leaves the claim unit and the port. -/
theorem State.finish_skipping {s : State} (h : s.port = { bus := .skipping, sending := none }) :
    s.finish.claims = s.claims ∧ s.finish.port = s.port := by
  rw [State.finish_silent (Port.mayBegin_skipping _ _ (by rw [h]))]
  exact ⟨s.settleFront_step.claims, s.settleFront_step.port⟩

section Result
variable {s : State} (n : NoteFields)

/-- The port and the voices after a NOTE's steps, before it closes (R127). -/
theorem State.noteMade_step : (((s.noteCleared n).homeWatch n).makeBid n).station = s.station ∧
    (((s.noteCleared n).homeWatch n).makeBid n).port = s.port ∧
    (((s.noteCleared n).homeWatch n).makeBid n).voices = s.voices.filter (fun v => v.tag != n.tag) := by
  obtain ⟨-, hstation, hport, -, -, -⟩ := s.noteCleared_step n
  have hhome := (s.noteCleared n).homeWatch_step n
  obtain ⟨-, mstation, mport, -, mvoices, -⟩ := ((s.noteCleared n).homeWatch n).makeBid_step n
  exact ⟨(mstation.trans hhome.station).trans hstation, (mport.trans hhome.port).trans hport,
    (mvoices.trans hhome.voices).trans (s.noteCleared_voices n)⟩

/-- The bid list after a NOTE's steps (R125, R128). -/
theorem State.noteMade_bids {kept : List Bid} {u : State} (hkept : kept = s.claims.bids.filter (fun b => b.tag != n.tag))
    (hu : u.voices = s.voices.filter (fun v => v.tag != n.tag)) :
    (((s.noteCleared n).homeWatch n).makeBid n).claims.bids =
      if s.delivery.link = .up ∧ (∃ r, s.region? n.region = some r ∧ r.state = .live ∧ n.start < r.frames) ∧
          kept.length < 16 ∧ u.canCreate then kept ++ [n.bid s.timebase.tick s.clock] else kept := by
  obtain ⟨hclock, -, -, -, htimebase, hlink⟩ := s.noteCleared_step n
  have hhome := (s.noteCleared n).homeWatch_step n
  have hbids : ((s.noteCleared n).homeWatch n).claims.bids = kept :=
    (hhome.bids.trans (s.noteCleared_bids n)).trans hkept.symm
  have hcan : ((s.noteCleared n).homeWatch n).canCreate = u.canCreate :=
    State.canCreate_congr ((hhome.voices.trans (s.noteCleared_voices n)).trans hu.symm)
  have hregion : ((s.noteCleared n).homeWatch n).region? n.region = (s.noteCleared n).region? n.region :=
    congrArg (fun c : Catalogue => c.regions.find? fun r : Region => r.id == n.region) hhome.catalogue
  have hexists := region_exists_iff (s.noteCleared_region n n.region)
    (P := fun r => r.state = .live ∧ n.start < r.frames) fun _ => Iff.rfl
  rw [State.makeBid_bids, hbids, hhome.timebase, htimebase, hhome.clock, hclock]
  refine if_congr ?_ rfl rfl
  rw [State.canBid_iff, hhome.delivery, hlink, hregion, hexists, hbids, hcan]

end Result

/-- Settles O25: what each of the steps does to the voices, the bid list and the queue. -/
theorem noteMakesABidEntry : Obligations.NoteMakesABidEntry := by
  intro s t h region offset tick rate flags ht
  refine ⟨execNote_idle ht t, fun mode kept hc hm hkept => ⟨_, execNote_taken ht hc t hm, ?_⟩⟩
  generalize hn : noteFields h region offset mode rate flags = n
  have htag : n.tag = h.key.toNat := hn ▸ rfl
  obtain ⟨hstation, hport, hvoices⟩ := (s.frameEnded t).noteMade_step n
  obtain ⟨hclaims, hfport⟩ := State.finish_skipping hport
  have hu := (State.finish_voices _).trans hvoices
  refine ⟨(State.finish_station _).trans hstation, hfport.trans hport, htag ▸ hu, fun v hv => ?_, ?_⟩
  · refine State.told_retire (t := s.frameEnded t) (tag := n.tag) (reason := .superseded) (htag ▸ hv) (by nofun)
      (.of_eq rfl) ?_
    exact (State.dropBid_noticeStep _ _).trans ((s.frameEnded t).noteTaken_after_noticeStep n)
  · refine (congrArg ClaimUnit.bids hclaims).trans ?_
    rw [State.noteMade_bids n (kept := kept) (by rw [htag]; exact hkept) hu]
    subst hn
    rfl

/-- Settles O26: the home-holder test, and what the other steps keep of the watches. -/
theorem noteStartsTheHomeWatch : Obligations.NoteStartsTheHomeWatch := by
  intro s t h region offset tick rate flags mode kept ht hc hm hkept
  refine ⟨_, execNote_taken ht hc t hm, ?_⟩
  generalize hn : noteFields h region offset mode rate flags = n
  obtain ⟨hclock, -, -, hwatches, -, -⟩ := (s.frameEnded t).noteCleared_step n
  obtain ⟨-, -, -, mwatches, -, -⟩ := (((s.frameEnded t).noteCleared n).homeWatch n).makeBid_step n
  have hregions := (s.frameEnded t).noteCleared_region n n.region
  refine ⟨?_, fun r hr hrole hf => ?_⟩
  · have hexists := region_exists_iff hregions
      (P := fun r => r.role = .home ∧ n.start < r.frames) fun _ => Iff.rfl
    refine ((State.finish_watches _).trans mwatches).trans ?_
    rw [State.homeWatch_watches _ n (kept := kept) (by rw [hwatches, hkept, ← hn]; rfl), hclock]
    subst hn
    exact if_congr (and_congr hexists Iff.rfl) rfl rfl
  · obtain ⟨r1, hr1, hrole1, hf1⟩ := (region_exists_iff hregions (P := fun r => r.role = .home ∧ r.frames ≤ n.start)
      fun _ => Iff.rfl).2 ⟨r, by subst hn; exact hr, hrole, by subst hn; exact hf⟩
    have hdeclined : ((s.frameEnded t).noteCleared n).homeWatch n =
        (((s.frameEnded t).noteCleared n).dropWatch n.tag).queueNotice n.requester
          (.declined n.tag .range n.region) := by
      unfold State.homeWatch
      rw [hr1]
      dsimp only
      rw [hrole1]
      exact if_neg (Nat.not_lt.2 hf1)
    have hbefore : NoticeStep s (((s.frameEnded t).noteCleared n).dropWatch n.tag) :=
      NoticeStep.trans (t := (s.frameEnded t).noteCleared n)
        (NoticeStep.trans (t := s.frameEnded t) (.of_eq rfl) ((s.frameEnded t).noteCleared_noticeStep n)) (.of_eq rfl)
    obtain ⟨-, -, -, -, -, mnotices⟩ := (((s.frameEnded t).noteCleared n).homeWatch n).makeBid_step n
    have hafter : NoticeStep (((s.frameEnded t).noteCleared n).homeWatch n) ((s.frameEnded t).noteTaken n) :=
      (NoticeStep.of_eq mnotices).trans (State.finish_noticeStep _)
    rw [hdeclined] at hafter
    have htold := State.told_queueNotice n.requester (.declined n.tag .range n.region) rfl hbefore hafter
    subst hn
    exact htold

/-! ### CLAIM from another station -/

theorem State.receiving_ended {s : State} (t : Nat) (hr : s.receiving) : (s.atTime t).endFrame = s.frameEnded t := by
  obtain ⟨-, -, hdue⟩ := id hr
  exact (State.settleDue_none (s.atTime t).endFrame hdue).symm.trans (s.receiving_endFrame t hr)

theorem execClaim_taken {s : State} {t : Nat} (hr : s.receiving) (hc : s.station.state = .configured) (h : Header)
    (tagField : BitVec 16) :
    exec (.claim t h tagField) s = .next ((s.frameEnded t).claimHeard (tagField.toNat % 4096)) := by
  rw [← State.receiving_ended t hr]
  show execClaim t h tagField s = _
  unfold execClaim
  dsimp only
  rw [if_pos (s.receiving_assembling t hr)]
  exact if_pos hc

theorem execClaim_idle {s : State} {t : Nat} (hr : s.receiving) (hc : s.station.state ≠ .configured) (h : Header)
    (tagField : BitVec 16) : exec (.claim t h tagField) s = .next (s.frameEnded t) := by
  rw [← s.receiving_endFrame t hr]
  show execClaim t h tagField s = _
  unfold execClaim
  dsimp only
  rw [if_pos (s.receiving_assembling t hr)]
  exact if_neg hc

/-- A voice that retires releases its uses (R9, R32). -/
theorem State.retire_uses {s : State} {g : Nat} {v : Voice} (hv : s.voice? g = some v) (reason : RetireReason)
    (id : Nat) : (s.retire g reason).uses? id = (s.uses? id).map (· - v.uses.count id) := by
  have hret : s.retire g reason = (s.discardSegments [g]).retireRecord reason v := by rw [State.retire, hv]
  obtain ⟨-, -, -, -, hcat⟩ := (s.discardSegments [g]).retireRecord_media reason v
  rw [hret, State.uses_congr (congrArg Catalogue.regions hcat), State.releaseUses_uses]
  exact congrArg (Option.map _) (State.uses_congr (s.discardSegments_regions [g]).1 id)

theorem State.retire_absent {s : State} {g : Nat} (hv : s.voice? g = none) (reason : RetireReason) :
    s.retire g reason = s := by rw [State.retire, hv]

section Heard
variable (s : State) (tag : Nat)

/-- The state in which a CLAIM heard has withdrawn the entry, made the voice yield and marked the watch (R134, R136). -/
def State.claimYielded : State := ((s.dropBid tag).retire tag .yielded).hear tag

/-- With no watch fallen due a CLAIM heard does nothing more (R138). -/
theorem State.claimHeard_eq (h : ∀ w ∈ s.claims.watches, w.due = false) :
    s.claimHeard tag = (s.claimYielded tag).finish := by
  obtain ⟨-, -, -, hwatches, -⟩ := s.dropBid_step tag
  have hkept : ((s.dropBid tag).retire tag .yielded).claims.watches = s.claims.watches :=
    (congrArg ClaimUnit.watches (State.retire_step _ _ _).claims).trans hwatches
  have hdue : ∀ w ∈ (s.claimYielded tag).claims.watches, w.due = false := by
    intro w hw
    obtain ⟨x, hx, rfl⟩ := List.mem_map.1 hw
    rw [hkept] at hx
    have := h x hx
    split <;> exact this
  exact congrArg State.finish (State.settleDue_none _ hdue)

theorem State.claimYielded_port : (s.claimYielded tag).port = s.port := by
  obtain ⟨-, -, hport, -⟩ := s.dropBid_step tag
  exact (State.retire_step _ _ _).port.trans hport

theorem State.claimYielded_claims : (s.claimYielded tag).claims.bids = s.claims.bids.filter (fun b => b.tag != tag) ∧
    (s.claimYielded tag).claims.watches =
      s.claims.watches.map (fun w => if w.tag = tag then { w with heard := true } else w) := by
  obtain ⟨-, -, -, hwatches, -⟩ := s.dropBid_step tag
  have hclaims := ((s.dropBid tag).retire_step tag .yielded).claims
  refine ⟨(congrArg ClaimUnit.bids hclaims).trans (s.dropBid_bids tag), ?_⟩
  show ((s.dropBid tag).retire tag .yielded).claims.watches.map _ = _
  rw [hclaims, hwatches]

theorem State.claimYielded_voices : (s.claimYielded tag).voices = s.voices.filter (fun v => v.tag != tag) := by
  obtain ⟨-, -, -, -, hvoices, -⟩ := s.dropBid_step tag
  exact ((s.dropBid tag).retire_voices tag .yielded).trans (by rw [hvoices])

theorem State.dropBid_voice? (j : Nat) : (s.dropBid tag).voice? j = s.voice? j := by
  obtain ⟨-, -, -, -, hvoices, -⟩ := s.dropBid_step tag
  unfold State.voice?
  rw [hvoices]

end Heard

/-- Settles O24: the entry leaves with its use, the voice retires with its uses, and the watch is marked. -/
theorem heardClaimWithdrawsAndYields : Obligations.HeardClaimWithdrawsAndYields := by
  intro s t tag h tagField hr htag
  refine ⟨fun hc => execClaim_idle hr hc h tagField, fun hc => ⟨_, execClaim_taken hr hc h tagField, ?_⟩⟩
  rw [← htag, State.claimHeard_eq (s.frameEnded t) tag hr.2.2]
  obtain ⟨hclaims, -⟩ := State.finish_skipping (((s.frameEnded t).claimYielded_port tag).trans (s.frameEnded_port t))
  obtain ⟨hbids, hwatches⟩ := (s.frameEnded t).claimYielded_claims tag
  have huses (id : Nat) : ((s.frameEnded t).claimYielded tag).finish.uses? id =
      (((s.frameEnded t).dropBid tag).retire tag .yielded).uses? id := State.finish_uses _ id
  refine ⟨(congrArg ClaimUnit.bids hclaims).trans hbids,
    (State.finish_voices _).trans ((s.frameEnded t).claimYielded_voices tag), fun v hv => ?_, fun b id hb hv => ?_,
    fun v id hb hv => ?_, fun id hb hv => ?_, (congrArg ClaimUnit.watches hclaims).trans hwatches⟩
  · obtain rfl : v.tag = tag := State.voice_tag hv
    refine State.told_retire (t := (s.frameEnded t).dropBid v.tag) (tag := v.tag) (reason := .yielded)
      ((State.dropBid_voice? _ _ _).trans hv) (by nofun)
      (NoticeStep.trans (t := s.frameEnded t) (.of_eq rfl) (State.dropBid_noticeStep _ _)) ?_
    exact NoticeStep.trans (t := (s.frameEnded t).claimYielded v.tag) (.of_eq rfl) (State.finish_noticeStep _)
  · rw [huses, State.retire_absent (((s.frameEnded t).dropBid_voice? tag tag).trans hv)]
    exact State.dropBid_uses (s := s.frameEnded t) hb id
  · rw [huses, State.dropBid_absent (s := s.frameEnded t) hb]
    exact State.retire_uses (s := s.frameEnded t) hv .yielded id
  · rw [huses, State.dropBid_absent (s := s.frameEnded t) hb, State.retire_absent (s := s.frameEnded t) hv]
    rfl

end Sys2Proof.Machine
end

