-- ==== Sys2Proof/Proofs/Session.lean ====
section
/-! HALT empties the station without a RETIRED (O33), and CONFIGURE sets the session (O38). -/

namespace Sys2Proof.Machine

/-! ### No RETIRED joins the queue -/

/-- The notice is a RETIRED (R32). -/
def Notice.retires (n : Notice) : Prop := ∃ tag reason frame, n.body = .retired tag reason frame

/-- A RETIRED that stands in the queue of `t` stands there in the queue of `s`. -/
def NoneRetires (s t : State) : Prop :=
  ∀ (k : Nat) (n : Notice), t.notices.queue[k]? = some n → n.retires →
    ∃ m, s.notices.queue[k]? = some m ∧ m.retires

theorem NoneRetires.of_eq {s t : State} (h : t.notices = s.notices) : NoneRetires s t :=
  fun _ n hk hn => ⟨n, h ▸ hk, hn⟩

theorem NoneRetires.trans {s t u : State} (a : NoneRetires s t) (b : NoneRetires t u) : NoneRetires s u :=
  fun k n hk hn => by
    obtain ⟨m, hm, hret⟩ := b k n hk hn
    exact a k m hm hret

theorem NoneRetires.foldl {α : Type} (f : State → α → State) (h : ∀ s a, NoneRetires s (f s a)) (l : List α) :
    ∀ s, NoneRetires s (l.foldl f s) := by
  induction l with
  | nil => exact fun _ => .of_eq rfl
  | cons a l ih => exact fun s => (h s a).trans (ih _)

/-- The notices that have joined the queue are no RETIRED. -/
theorem NoneRetires.joined {s t : State} (h : NoneRetires s t) :
    ∀ n ∈ t.notices.queue.drop s.notices.queue.length, ¬n.retires := by
  intro n hn hret
  obtain ⟨k, hk⟩ := List.mem_iff_getElem?.1 hn
  rw [List.getElem?_drop] at hk
  obtain ⟨m, hm, -⟩ := h _ n hk hret
  have := (List.getElem?_eq_some_iff.1 hm).1
  omega

/-- A notice that merges with none joins the tail, or is dropped (R178). -/
theorem State.queueNotice_queue (s : State) (addressee : Nat) {body : NoticeBody} (hk : body.mergeKey = none) :
    (s.queueNotice addressee body).notices.queue = s.notices.queue ∨
      (s.queueNotice addressee body).notices.queue =
        s.notices.queue ++ [{ addressee := addressee, body := body, isOpen := false }] := by
  have hjoin : (s.queueNotice addressee body).notices =
      s.notices.join { addressee := addressee, body := body, isOpen := false } := by
    have hno (m : Notice) : m.takes body = false := by simp [Notice.takes, hk]
    unfold State.queueNotice NoticeQueue.report
    rw [hk]
    cases s.notices.queue with
    | nil => rfl
    | cons head rest => simp [hno]
  rw [hjoin]
  rcases NoticeQueue.join_cases s.notices { addressee := addressee, body := body, isOpen := false } with
    ⟨-, h⟩ | ⟨-, h⟩
  · exact .inr (by rw [h])
  · exact .inl (by rw [h])

theorem State.queueNotice_noneRetires (s : State) (addressee : Nat) {body : NoticeBody} (hk : body.mergeKey = none)
    (hother : ∀ tag reason frame, body ≠ .retired tag reason frame) : NoneRetires s (s.queueNotice addressee body) := by
  intro k n hkn hn
  rcases s.queueNotice_queue addressee hk with h | h
  · exact ⟨n, h ▸ hkn, hn⟩
  · rw [h, List.getElem?_append] at hkn
    split at hkn
    · exact ⟨n, hkn, hn⟩
    · rw [List.getElem?_singleton] at hkn
      split at hkn
      · cases hkn
        obtain ⟨tag, reason, frame, hbody⟩ := hn
        exact absurd hbody (hother tag reason frame)
      · cases hkn

theorem Installs.noneRetires {s t : State} (h : Installs s t) : NoneRetires s t := by
  induction h with
  | refl => exact .of_eq rfl
  | tail _ move ih =>
    refine ih.trans ?_
    cases move with
    | media step => exact .of_eq step.notices
    | work => exact .of_eq rfl
    | read => exact .of_eq rfl
    | notice addressee body plain other => exact State.queueNotice_noneRetires _ addressee plain other

theorem State.offer_noneRetires (s : State) : NoneRetires s s.offer := fun _ n hk hn =>
  ⟨n, s.offer_step.queue ▸ hk, hn⟩

theorem State.finish_noneRetires (s : State) : NoneRetires s s.finish :=
  ((s.settleFront_installs.noneRetires).trans (u := s.settleFront.recomputeReady) (.of_eq rfl)).trans
    (State.offer_noneRetires _)

/-- A voice that retires at a HALT queues nothing (R32). -/
theorem State.retireRecord_noneRetires (s : State) (v : Voice) : NoneRetires s (s.retireRecord .halted v) := by
  have hstep := State.releaseUses_step (s.setVoices (s.voices.filter (·.tag != v.tag))) v.uses
  have hq : (s.retireRecord .halted v).notices.queue = s.notices.queue.map (Notice.closeFor v.tag) :=
    congrArg (fun q : NoticeQueue => q.queue.map (Notice.closeFor v.tag)) hstep.notices
  intro k n hk hn
  rw [hq, List.getElem?_map] at hk
  obtain ⟨m, hm, rfl⟩ := Option.map_eq_some_iff.1 hk
  refine ⟨m, hm, ?_⟩
  unfold Notice.closeFor at hn
  split at hn <;> exact hn

theorem State.retireAll_noneRetires (s : State) : NoneRetires s (s.retireAll .halted) := by
  obtain ⟨hn, -, -⟩ := s.discardSegments_notices (s.voices.map (·.tag))
  exact (NoneRetires.of_eq hn).trans (NoneRetires.foldl _ State.retireRecord_noneRetires _ _)

/-! ### HALT -/

theorem State.dropBids_step (s : State) : s.dropBids.notices = s.notices ∧ s.dropBids.station = s.station ∧
    s.dropBids.port = s.port ∧ s.dropBids.voices = s.voices ∧ s.dropBids.timebase = s.timebase ∧
      s.dropBids.media = s.media := by
  have h := State.releaseUses_step (s.setBids []) (s.claims.bids.map (·.region))
  exact ⟨h.notices, h.station, h.port, h.voices, h.timebase, State.releaseUses_media _ _⟩

/-- With no voice READY is not pulled low (R52). -/
theorem State.readyWanted_of_empty {s : State} (h : s.voices = []) : s.readyWanted = false := by
  unfold State.readyWanted
  rw [h]
  split <;> rfl

/-- The station after a HALT's steps, before HALTED is queued (R36, R49, R140). -/
def State.emptied (s : State) : State := (((s.retireAll .halted).dropBids).setWatches []).clearTimebase

theorem State.emptied_step (s : State) : s.emptied.voices = [] ∧ s.emptied.claims = { bids := [], watches := [] } ∧
    s.emptied.station = s.station ∧ s.emptied.port = s.port ∧
    s.emptied.timebase = { s.timebase with load := none, drive := none } ∧ NoneRetires s s.emptied ∧
    NoticeStep s s.emptied ∧ s.emptied.media.flash = s.media.flash := by
  obtain ⟨hnotices, hstation, hport, hvoices, htimebase, hmedia⟩ := (s.retireAll .halted).dropBids_step
  have h := s.retireAll_step .halted
  have hbids := (s.retireAll .halted).dropBids_bids
  have hnotice : NoticeStep s (s.retireAll .halted) := by
    obtain ⟨hn, -, -⟩ := s.discardSegments_notices (s.voices.map (·.tag))
    unfold State.retireAll
    generalize s.voicesByTag = l
    generalize hd : s.discardSegments (s.voices.map (·.tag)) = u at hn
    refine (NoticeStep.of_eq hn).trans ?_
    clear hn hd
    induction l generalizing u with
    | nil => exact .refl _
    | cons v l ih => exact (u.retireRecord_reported .halted v).noticeStep.trans (ih _)
  have hflash := (s.retireAll_steady .halted).flash
  refine ⟨hvoices.trans (s.retireAll_voices .halted), ?_, hstation.trans h.station, hport.trans h.port, ?_, ?_, ?_, ?_⟩
  · show ({ bids := (s.retireAll .halted).dropBids.claims.bids, watches := [] } : ClaimUnit) = _
    rw [hbids]
  · show { (s.retireAll .halted).dropBids.timebase with load := none, drive := none } = _
    rw [htimebase, h.timebase]
  · exact s.retireAll_noneRetires.trans (.of_eq hnotices)
  · exact hnotice.trans (.of_eq hnotices)
  · exact (congrArg Media.flash hmedia).trans hflash

/-- Settles O33: the steps of a HALT, none of which queues a RETIRED. -/
theorem haltEmptiesTheStation : Obligations.HaltEmptiesTheStation := by
  intro s t h ht
  refine ⟨fun hst => ?_, fun hst => ?_⟩
  · refine congrArg Host.Outcome.next <| (s.receive_takes t h _ ht).trans ?_
    simp only [State.frameEnded_station, hst]
  · have hexec : exec (.halt t h) s = .next ((s.frameEnded t).haltTaken h.sender.toNat) :=
      congrArg Host.Outcome.next <| (s.receive_takes t h _ ht).trans <| by
        simp only [State.frameEnded_station]
        cases hs : s.station.state with
        | starting => exact absurd hs hst
        | unconfigured => rfl
        | configured => rfl
    refine ⟨_, hexec, ?_⟩
    obtain ⟨hvoices, hclaims, hstation, hport, htimebase, hnone, hnotice, hflash⟩ := (s.frameEnded t).emptied_step
    have hu : (s.frameEnded t).haltTaken h.sender.toNat =
        ((s.frameEnded t).emptied.queueNotice h.sender.toNat (.halted s.voices.length)).finish := rfl
    rw [hu]
    generalize (s.frameEnded t).emptied = e at *
    have hskip : (e.queueNotice h.sender.toNat (.halted s.voices.length)).port = { bus := .skipping, sending := none } :=
      hport.trans (s.frameEnded_port t)
    obtain ⟨hfclaims, hfport⟩ := State.finish_skipping hskip
    have hfvoices := State.finish_voices (e.queueNotice h.sender.toNat (.halted s.voices.length))
    refine ⟨hfvoices.trans hvoices, hfclaims.trans hclaims, (State.finish_station _).trans hstation, ?_, ?_, ?_,
      hfport.trans hskip, ?_⟩
    · exact State.told_queueNotice _ _ rfl (NoticeStep.trans (t := s.frameEnded t) (.of_eq rfl) hnotice)
        (State.finish_noticeStep _)
    · have hall : NoneRetires s (e.queueNotice h.sender.toNat (.halted s.voices.length)).finish :=
        ((NoneRetires.trans (t := s.frameEnded t) (.of_eq rfl) hnone).trans
          (State.queueNotice_noneRetires _ _ rfl fun _ _ _ => by nofun)).trans (State.finish_noneRetires _)
      exact fun n hn tag reason frame heq => hall.joined n hn ⟨tag, reason, frame, heq⟩
    · have hready : (e.queueNotice h.sender.toNat (.halted s.voices.length)).readyWanted = false :=
        State.readyWanted_of_empty hvoices
      rw [State.finish_timebase, hready]
      show { e.timebase with readyLow := false } = _
      rw [htimebase]
      rfl
    · exact (State.finish_steady _).flash.trans hflash

/-! ### CONFIGURE -/

theorem execConfigure_taken {s : State} {h : Header} (ht : s.takes h) (hst : s.station.state ≠ .starting) (t : Nat)
    (rateCode : BitVec 8) (base : BitVec 64) (ringLength primeDepth : BitVec 8) :
    exec (.configure t h rateCode base ringLength primeDepth) s =
      .next ((s.frameEnded t).configureTested h.sender.toNat (configurationOf rateCode base ringLength primeDepth)) :=
  congrArg Host.Outcome.next <| (s.receive_takes t h _ ht).trans <| by
    simp only [State.frameEnded_station]
    cases hs : s.station.state with
    | starting => exact absurd hs hst
    | unconfigured => rfl
    | configured => rfl

theorem SessionRate.ofCode_isSome (n : Nat) : (SessionRate.ofCode n).isSome ↔ n ≤ 5 := by
  unfold SessionRate.ofCode
  rw [Option.isSome_iff_ne_none, ne_eq, List.getElem?_eq_none_iff, Nat.not_le]
  exact Nat.lt_succ_iff

/-- The values of a CONFIGURE are taken when each is in range (R173). -/
theorem configurationOf_cases (rateCode : BitVec 8) (base : BitVec 64) (ringLength primeDepth : BitVec 8) {good : Prop}
    (hgood : good ↔ rateCode.toNat ≤ 5 ∧ ringLength.toNat ∈ [4, 8, 16, 32] ∧ 1 ≤ primeDepth.toNat ∧
      primeDepth.toNat ≤ ringLength.toNat ∧ base.toNat % 4096 = 0 ∧
      base.toNat + 4096 * ringLength.toNat * 6144 ≤ 2 ^ 64) :
    (¬good ∧ configurationOf rateCode base ringLength primeDepth = none) ∨
      good ∧ ∃ c, configurationOf rateCode base ringLength primeDepth = some c ∧
        SessionRate.ofCode rateCode.toNat = some c.rate ∧ c.base = base.toNat ∧ c.ringLength = ringLength.toNat ∧
        c.primeDepth = primeDepth.toNat := by
  have hrate := SessionRate.ofCode_isSome rateCode.toNat
  have hlist : ringLength.toNat ∈ [4, 8, 16, 32] ↔
      (ringLength.toNat = 4 ∨ ringLength.toNat = 8 ∨ ringLength.toNat = 16 ∨ ringLength.toNat = 32) := by simp
  rw [hgood, hlist, ← hrate]
  unfold configurationOf
  dsimp only
  cases SessionRate.ofCode rateCode.toNat with
  | none => exact .inl (And.intro (fun h => absurd h.1 Bool.false_ne_true) rfl)
  | some rate =>
    dsimp only
    split
    next h => exact .inr (And.intro ⟨rfl, h⟩ ⟨_, rfl, rfl, rfl, rfl, rfl⟩)
    next h => exact .inl (And.intro (fun hg => h hg.2) rfl)

theorem State.configureTested_busy {s : State} (h : ¬(s.voices = [] ∧ s.claims.bids = [])) (sender : Nat)
    (c : Option Configuration) : s.configureTested sender c = s.refuse sender 12 .busy 0 := by
  unfold State.configureTested
  refine if_pos ?_
  cases hv : s.voices with
  | cons v l => rfl
  | nil =>
    cases hb : s.claims.bids with
    | cons b l => rfl
    | nil => exact absurd ⟨hv, hb⟩ h

theorem State.configureTested_free {s : State} (h : s.voices = [] ∧ s.claims.bids = []) (sender : Nat) :
    s.configureTested sender none = s.refuse sender 12 .badConfig 0 ∧
      ∀ c, s.configureTested sender (some c) = s.configureTaken c := by
  obtain ⟨hv, hb⟩ := h
  unfold State.configureTested
  rw [hv, hb]
  exact ⟨rfl, fun _ => rfl⟩

/-- Settles O38: the tests in order, and the values in force. -/
theorem configureSetsTheSession : Obligations.ConfigureSetsTheSession := by
  intro s t h rateCode base ringLength primeDepth good ht hgood
  refine ⟨fun hst => ?_, fun hst hbusy => ?_, fun hst hfree hbad => ?_, fun hst hfree hg => ?_⟩
  · refine congrArg Host.Outcome.next <| (s.receive_takes t h _ ht).trans ?_
    simp only [State.frameEnded_station, hst]
  · rw [execConfigure_taken ht hst, State.configureTested_busy (s := s.frameEnded t) hbusy]
    rfl
  · rcases configurationOf_cases rateCode base ringLength primeDepth hgood with ⟨-, hnone⟩ | ⟨hyes, -⟩
    · rw [execConfigure_taken ht hst, hnone, (State.configureTested_free (s := s.frameEnded t) hfree _).1]
      rfl
    · exact absurd hyes hbad
  · rcases configurationOf_cases rateCode base ringLength primeDepth hgood with ⟨hno, -⟩ | ⟨-, c, hc, hrate, hb, hr, hp⟩
    · exact absurd hg hno
    · refine ⟨c, hrate, hb, hr, hp, ?_⟩
      rw [execConfigure_taken ht hst, hc, (State.configureTested_free (s := s.frameEnded t) hfree _).2 c]
      rfl

end Sys2Proof.Machine
end

