-- ==== Sys2Proof/Proofs/Beats.lean ====
section
/-! The timebase's own commands: the DOWNBEAT event (O12), the divider's tick (O7), stand-in ticks (O8), and filtered
edges (O6). -/

namespace Sys2Proof.Machine

theorem State.rate?_of {s : State} {c : Configuration} (h : s.station.config = some c) : s.rate? = some c.rate := by
  unfold State.rate?
  rw [h]
  rfl

/-- What the end of a step leaves of a tick event's own work: the timebase but for READY, the clock, the station and
the watches (R46, R48). -/
theorem State.tickEvent_finish (s : State) (order : List (BitVec 12)) :
    (s.tickEvent order).finish.clock = s.clock ∧ (s.tickEvent order).finish.station = s.station ∧
      (s.tickEvent order).finish.claims.watches = s.claims.watches ∧
      (s.tickEvent order).finish.timebase =
        { ({ s.timebase with tick := nextTick s.timebase.tick }.driveTest s.clock) with
          readyLow := (s.tickEvent order).readyWanted } := by
  obtain ⟨htimebase, hclock, hstation, hclaims, -⟩ := s.tickEvent_timebase order
  refine ⟨(State.finish_clock _).trans hclock, (State.finish_station _).trans hstation, ?_, ?_⟩
  · rw [State.finish_watches, hclaims]
  · rw [State.finish_timebase, htimebase]

/-! ### The divider -/

/-- The divider's next tick is due at the end of the current period, or at once when it is owed (R41, R51). -/
theorem Timebase.tickDue_eq (b : Timebase) (rate : SessionRate) :
    b.tickDue rate = if b.owedTick then b.dividerStart
      else b.dividerStart + if 147 ≤ b.accumulator + rate.accumulatorStep then rate.shortPeriod + 1
        else rate.shortPeriod := by
  unfold Timebase.tickDue Timebase.dividerDue SessionRate.dividerPeriod
  dsimp only
  split
  · rfl
  · split <;> rfl

theorem Timebase.dividerTicked_eq (b : Timebase) (rate : SessionRate) :
    b.dividerTicked rate = { b with
      dividerStart := b.tickDue rate
      accumulator := if b.owedTick then b.accumulator
        else if 147 ≤ b.accumulator + rate.accumulatorStep then b.accumulator + rate.accumulatorStep - 147
          else b.accumulator + rate.accumulatorStep
      lastDivider := some (b.tickDue rate)
      owedTick := false } := by
  unfold Timebase.dividerTicked Timebase.tickDue Timebase.dividerDue SessionRate.dividerPeriod
  dsimp only
  by_cases ho : b.owedTick = true
  · simp only [ho, if_true]
  · have hof : b.owedTick = false := by simpa using ho
    simp only [hof, Bool.false_eq_true, if_false]
    split <;> simp

/-- Settles O7: the period of the divider and its owed tick are those of its phase; the rest is the tick event's. -/
theorem dividerTicksFollowThePeriods : Obligations.DividerTicksFollowThePeriods := by
  intro s order c hc hsource sum len due tick hsum hlen hdue htick
  have hdueEq : s.timebase.tickDue c.rate = due := by
    rw [Timebase.tickDue_eq, hdue, hlen, hsum]
  obtain ⟨hclock, hstation, hwatches, htimebase⟩ := State.tickEvent_finish
    ((s.atTime (s.timebase.tickDue c.rate)).setTimebase (s.timebase.dividerTicked c.rate)) order
  refine ⟨_, ?_, hstation, hwatches, hclock.trans ?_, ?_⟩
  · simp only [exec, execDividerTick, hsource, State.rate?_of hc]
  · rw [← hdueEq]
    rfl
  · have htickEq : nextTick s.timebase.tick = tick := htick.symm
    rw [htimebase, hclock]
    simp only [State.setTimebase_timebase, Timebase.dividerTicked_eq, hdueEq, htickEq, ← hsum]
    unfold Timebase.driveTest
    dsimp only
    split <;> rfl

/-! ### Stand-in ticks and the word clock's loss -/

theorem nextTick_eq (tick : Nat) : nextTick tick = (tick + 1) % 2 ^ 48 := rfl

/-- The timebase after a tick event, in the fields that no drive test moves (R46). -/
theorem State.tickEvent_counts (s : State) (order : List (BitVec 12)) :
    (s.tickEvent order).timebase.tick = nextTick s.timebase.tick ∧
      (s.tickEvent order).timebase.source = s.timebase.source ∧
      (s.tickEvent order).timebase.reference = s.timebase.reference ∧
      (s.tickEvent order).timebase.standIn = s.timebase.standIn ∧
      (s.tickEvent order).timebase.load = s.timebase.load := by
  rw [(s.tickEvent_timebase order).1]
  unfold Timebase.driveTest
  split <;> exact ⟨rfl, rfl, rfl, rfl, rfl⟩

/-- The notices after a tick event are those that the voices' own ticks leave (R46). -/
theorem State.tickEvent_notices (s : State) (order : List (BitVec 12)) :
    (s.tickEvent order).notices = ((tickOrder order s.voices).foldl State.tickVoice
      (s.setTimebase { s.timebase with tick := nextTick s.timebase.tick })).notices := by
  unfold State.tickEvent
  dsimp only
  rw [(State.suspendTests_step _).notices, State.setTimebase_notices]
  split
  · exact (State.syncReads_step _).notices
  · rfl

theorem State.tickEvent_noticeStep (s : State) (order : List (BitVec 12)) : NoticeStep s (s.tickEvent order) := by
  have hfold := Reported.foldl (G := fun _ => True) State.tickVoice
    (fun x g => (State.tickVoice_to x g trivial).notices) (tickOrder order s.voices)
    (s.setTimebase { s.timebase with tick := nextTick s.timebase.tick })
  exact (NoticeStep.of_eq (s := s) (State.setTimebase_notices s _)).trans
    (hfold.noticeStep.trans (.of_eq (s.tickEvent_notices order)))

/-- The station at its stand-in tick, before the loss of the clock is tested (R43). -/
def State.stoodIn (s : State) (at_ : Nat) (order : List (BitVec 12)) : State :=
  (s.setTimebase { s.timebase with
    reference := some at_, standIn := s.timebase.standIn + 1 }).tickEvent order

theorem State.standIn_eq (s : State) (at_ : Nat) (order : List (BitVec 12)) :
    s.standIn at_ order = if 4 ≤ (s.stoodIn at_ order).timebase.standIn
      then (s.stoodIn at_ order).loseClock at_ else s.stoodIn at_ order := by
  unfold State.standIn State.stoodIn
  rfl

theorem State.stoodIn_step (s : State) (at_ : Nat) (order : List (BitVec 12)) :
    (s.stoodIn at_ order).clock = s.clock ∧ (s.stoodIn at_ order).station = s.station ∧
      NoticeStep s (s.stoodIn at_ order) ∧ (s.stoodIn at_ order).timebase.tick = nextTick s.timebase.tick ∧
      (s.stoodIn at_ order).timebase.source = s.timebase.source ∧
      (s.stoodIn at_ order).timebase.reference = some at_ ∧
      (s.stoodIn at_ order).timebase.standIn = s.timebase.standIn + 1 := by
  unfold State.stoodIn
  generalize hx : s.setTimebase { s.timebase with
    reference := some at_, standIn := s.timebase.standIn + 1 } = x
  have hset : x.clock = s.clock ∧ x.station = s.station ∧ x.notices = s.notices ∧
      x.timebase = { s.timebase with reference := some at_, standIn := s.timebase.standIn + 1 } := by
    rw [← hx]
    exact ⟨rfl, rfl, rfl, rfl⟩
  obtain ⟨hclock, hstation, hnotices, htimebase⟩ := hset
  obtain ⟨htick, hsource, hreference, hstandIn, -⟩ := x.tickEvent_counts order
  obtain ⟨-, hclock', hstation', -, -⟩ := x.tickEvent_timebase order
  rw [htimebase] at htick hsource hreference hstandIn
  exact ⟨hclock'.trans hclock, hstation'.trans hstation,
    (NoticeStep.of_eq hnotices).trans (x.tickEvent_noticeStep order), htick, hsource, hreference, hstandIn⟩

/-- The loss of the clock keeps the counter, and tells CLOCK LOST (R44, R45). -/
theorem State.loseClock_told {s t : State} (at_ : Nat) (h : NoticeStep s t) :
    s.told (t.loseClock at_).finish { addressee := 31, body := .clock false t.timebase.tick, isOpen := false } :=
  State.told_queueNotice (t := t.setTimebase (t.timebase.enterFallback at_)) 31 _ rfl
    (h.trans (.of_eq (State.setTimebase_notices t _))) (State.finish_noticeStep _)

/-- Settles O8. -/
theorem fourthStandInTickLosesTheClock : Obligations.FourthStandInTickLosesTheClock := by
  intro s e order c hc hsource href
  have hexec : exec (.standInTick order) s =
      .next ((s.atTime (standInDue c.rate e)).standIn (standInDue c.rate e) order).finish := by
    simp only [exec, execStandInTick, hsource, State.rate?_of hc, href]
  change ∃ u, _ = _ ∧ u.station = s.station ∧ u.clock = max s.clock (standInDue c.rate e) ∧
    u.timebase.tick = nextTick s.timebase.tick ∧ u.timebase.standIn = s.timebase.standIn + 1 ∧
    (s.timebase.standIn < 3 → u.timebase.source = .external ∧
      u.timebase.reference = some (standInDue c.rate e)) ∧
    (3 ≤ s.timebase.standIn → u.timebase.source = .fallback ∧ u.timebase.qual = 0 ∧
      u.timebase.prevEdge = none ∧ u.timebase.accumulator = 0 ∧ u.timebase.dividerStart = standInDue c.rate e ∧
      s.told u { addressee := 31, body := .clock false u.timebase.tick, isOpen := false })
  rw [hexec]
  generalize standInDue c.rate e = due
  obtain ⟨hclock, hstation, hnotice, htick, hsrc, hreference, hcount⟩ := (s.atTime due).stoodIn_step due order
  replace hnotice : NoticeStep s _ := (NoticeStep.of_eq (State.atTime_notices s due)).trans hnotice
  simp only [State.atTime_clock, State.atTime_station, State.atTime_timebase] at hclock hstation htick hsrc hcount
  have heq : (s.atTime due).standIn due order = if 4 ≤ ((s.atTime due).stoodIn due order).timebase.standIn
      then ((s.atTime due).stoodIn due order).loseClock due else (s.atTime due).stoodIn due order :=
    State.standIn_eq _ due order
  rw [heq, hcount]
  generalize (s.atTime due).stoodIn due order = t at *
  by_cases hfourth : 3 ≤ s.timebase.standIn
  · rw [if_pos (by omega)]
    have htimebase : (t.loseClock due).finish.timebase =
        { (t.timebase.enterFallback due) with readyLow := (t.loseClock due).readyWanted } :=
      State.finish_timebase _
    refine ⟨_, rfl, (State.finish_station _).trans hstation, (State.finish_clock _).trans hclock, ?_, ?_, ?_, ?_⟩
    · rw [htimebase]
      exact htick
    · rw [htimebase]
      exact hcount
    · omega
    · intro _
      rw [htimebase]
      exact ⟨rfl, rfl, rfl, rfl, rfl, State.loseClock_told due hnotice⟩
  · rw [if_neg (by omega)]
    have htimebase : t.finish.timebase = { t.timebase with readyLow := t.readyWanted } := State.finish_timebase _
    refine ⟨_, rfl, (State.finish_station _).trans hstation, (State.finish_clock _).trans hclock, ?_, ?_, ?_, ?_⟩
    · rw [htimebase]
      exact htick
    · rw [htimebase]
      exact hcount
    · intro _
      rw [htimebase]
      exact ⟨hsrc.trans hsource, hreference⟩
    · omega

/-! ### Filtered edges -/

theorem execFilteredEdge_of {s : State} {c : Configuration} (hc : s.station.config = some c) (t : Nat)
    (order : List (BitVec 12)) : exec (.filteredEdge t order) s = .next ((s.atTime t).edge c.rate t order).finish := by
  have hrate : (s.atTime t).rate? = some c.rate := State.rate?_of hc
  simp only [exec, execFilteredEdge, hrate]

/-- The counter, the source and the reference instant after the word clock is locked (R42), with what it tells (R45). -/
theorem State.lock_finish {s t : State} (rate : SessionRate) (at_ : Nat) (order : List (BitVec 12))
    (h : NoticeStep s t) :
    (t.lock rate at_ order).finish.station = t.station ∧ (t.lock rate at_ order).finish.clock = t.clock ∧
      (t.lock rate at_ order).finish.claims.watches = t.claims.watches ∧
      s.told (t.lock rate at_ order).finish { addressee := 31, isOpen := false
                                              body := .clock true (t.lock rate at_ order).finish.timebase.tick } ∧
      (t.lock rate at_ order).finish.timebase.source = .external ∧
      (t.lock rate at_ order).finish.timebase.reference = some at_ ∧
      (t.lock rate at_ order).finish.timebase.standIn = 0 ∧
      (t.lock rate at_ order).finish.timebase.load = t.timebase.load ∧
      (t.lock rate at_ order).finish.timebase.tick =
        if t.timebase.edgeTicks rate at_ then nextTick t.timebase.tick else t.timebase.tick := by
  generalize hs1 : t.setTimebase { t.timebase with
    source := .external, qual := 256, prevEdge := some at_, reference := some at_, standIn := 0
    owedTick := false } = s1
  have hlocked : s1.station = t.station ∧ s1.clock = t.clock ∧ s1.claims = t.claims ∧ s1.notices = t.notices ∧
      s1.timebase.source = .external ∧ s1.timebase.reference = some at_ ∧ s1.timebase.standIn = 0 ∧
      s1.timebase.load = t.timebase.load ∧ s1.timebase.tick = t.timebase.tick := by
    rw [← hs1]
    exact ⟨rfl, rfl, rfl, rfl, rfl, rfl, rfl, rfl, rfl⟩
  obtain ⟨hstation, hclock, hclaims, hnotices, hsource, hreference, hstandIn, hload, htick⟩ := hlocked
  have heq : t.lock rate at_ order =
      (if t.timebase.edgeTicks rate at_ then s1.tickEvent order else s1).reportClock true := by
    rw [← hs1]
    rfl
  have hafter : ∃ x, (if t.timebase.edgeTicks rate at_ then s1.tickEvent order else s1) = x ∧
      x.station = t.station ∧ x.clock = t.clock ∧ x.claims = t.claims ∧ NoticeStep s x ∧
      x.timebase.source = .external ∧ x.timebase.reference = some at_ ∧ x.timebase.standIn = 0 ∧
      x.timebase.load = t.timebase.load ∧ x.timebase.tick =
        if t.timebase.edgeTicks rate at_ then nextTick t.timebase.tick else t.timebase.tick := by
    refine ⟨_, rfl, ?_⟩
    split
    · obtain ⟨htick', hsource', hreference', hstandIn', hload'⟩ := s1.tickEvent_counts order
      obtain ⟨-, hclock', hstation', hclaims', -⟩ := s1.tickEvent_timebase order
      exact ⟨hstation'.trans hstation, hclock'.trans hclock, hclaims'.trans hclaims,
        (h.trans (.of_eq hnotices)).trans (s1.tickEvent_noticeStep order), hsource'.trans hsource,
        hreference'.trans hreference, hstandIn'.trans hstandIn, hload'.trans hload,
        htick'.trans (congrArg nextTick htick)⟩
    · exact ⟨hstation, hclock, hclaims, h.trans (.of_eq hnotices), hsource, hreference, hstandIn, hload, htick⟩
  obtain ⟨x, hx, hstation, hclock, hclaims, hnotice, hsource, hreference, hstandIn, hload, htick⟩ := hafter
  rw [heq, hx]
  have htimebase : (x.reportClock true).finish.timebase =
      { x.timebase with readyLow := (x.reportClock true).readyWanted } := State.finish_timebase _
  refine ⟨(State.finish_station _).trans hstation, (State.finish_clock _).trans hclock, ?_, ?_, ?_⟩
  · rw [State.finish_watches]
    exact congrArg ClaimUnit.watches hclaims
  · rw [htimebase]
    exact State.told_queueNotice 31 _ rfl hnotice (State.finish_noticeStep _)
  · rw [htimebase]
    exact ⟨hsource, hreference, hstandIn, hload, htick⟩

theorem Timebase.qualAfter_eq (b : Timebase) (rate : SessionRate) (t : Nat) :
    b.qualAfter rate t = match b.prevEdge with
      | none => 0
      | some e => if rate.accepted.1 ≤ t - e ∧ t - e ≤ rate.accepted.2 then b.qual + 1 else 0 := by
  unfold Timebase.qualAfter SessionRate.inTolerance
  cases b.prevEdge with
  | none => rfl
  | some e => simp only [Bool.and_eq_true, decide_eq_true_eq]

/-- Settles O6, by the clock source. -/
theorem edgesQualifyLockAndTick : Obligations.EdgesQualifyLockAndTick := by
  refine ⟨fun s t order hstopped => ?_, fun s t order c hc => ⟨fun hfallback count hcount => ?_, ?_⟩⟩
  · cases hc : s.station.config with
    | none =>
      have hrate : (s.atTime t).rate? = none := by
        show s.station.config.map (·.rate) = none
        rw [hc]
        rfl
      refine ⟨s.atTime t, ?_, rfl, rfl, rfl⟩
      simp only [exec, execFilteredEdge, hrate]
    | some c =>
      have hedge : (s.atTime t).edge c.rate t order = s.atTime t := by
        simp only [State.edge, State.atTime_timebase, hstopped]
      refine ⟨_, execFilteredEdge_of hc t order, ?_, ?_, ?_⟩
      · rw [hedge, State.finish_voices, State.atTime_voices]
      · rw [hedge, State.finish_station, State.atTime_station]
      · rw [hedge, State.finish_timebase, State.atTime_timebase]
  · have hqual : s.timebase.qualAfter c.rate t = count := (Timebase.qualAfter_eq _ _ _).trans hcount.symm
    have hedge : (s.atTime t).edge c.rate t order = if count < 256
        then (s.atTime t).setTimebase { s.timebase with qual := count, prevEdge := some t }
        else (s.atTime t).lock c.rate t order := by
      simp only [State.edge, State.atTime_timebase, hfallback, State.fallbackEdge, hqual]
    rw [execFilteredEdge_of hc, hedge]
    refine ⟨fun hlow => ?_, fun hhigh => ?_⟩
    · rw [if_pos hlow]
      rfl
    · rw [if_neg (by omega)]
      obtain ⟨hstation, hclock, hwatches, htold, hsource, hreference, hstandIn, hload, htick⟩ :=
        State.lock_finish (s := s) (t := s.atTime t) c.rate t order (.of_eq rfl)
      refine ⟨_, rfl, hstation, hclock, hwatches, htold, hsource, hreference, hstandIn, hload, htick.trans ?_⟩
      rw [State.atTime_timebase, nextTick_eq]
      unfold Timebase.edgeTicks
      cases s.timebase.lastDivider with
      | none => rfl
      | some e => simp only [decide_eq_true_eq]
  · intro hexternal e href
    have hedge : (s.atTime t).edge c.rate t order = if c.rate.inTolerance (t - e)
        then ((s.atTime t).setTimebase { s.timebase with reference := some t, standIn := 0 }).tickEvent order
        else s.atTime t := by
      simp only [State.edge, State.atTime_timebase, hexternal, State.externalEdge, href]
    rw [execFilteredEdge_of hc, hedge]
    refine ⟨fun hlow hhigh => ?_, fun hlow => ?_⟩
    · rw [if_pos (by simp [SessionRate.inTolerance, hlow, hhigh])]
      generalize hx : (s.atTime t).setTimebase { s.timebase with reference := some t, standIn := 0 } = x
      have hset : x.clock = max s.clock t ∧ x.station = s.station ∧ x.claims = s.claims ∧
          x.timebase.tick = s.timebase.tick ∧ x.timebase.source = s.timebase.source ∧
          x.timebase.reference = some t ∧ x.timebase.standIn = 0 ∧ x.timebase.load = s.timebase.load := by
        rw [← hx]
        exact ⟨rfl, rfl, rfl, rfl, rfl, rfl, rfl, rfl⟩
      obtain ⟨hxclock, hxstation, hxclaims, hxtick, hxsource, hxreference, hxstandIn, hxload⟩ := hset
      obtain ⟨hclock, hstation, hwatches, -⟩ := x.tickEvent_finish order
      obtain ⟨htick, hsource, hreference, hstandIn, hload⟩ := x.tickEvent_counts order
      refine ⟨_, rfl, hstation.trans hxstation, hclock.trans hxclock,
        hwatches.trans (congrArg ClaimUnit.watches hxclaims), ?_⟩
      rw [State.finish_timebase, ← nextTick_eq]
      dsimp only
      exact ⟨hsource.trans (hxsource.trans hexternal), hreference.trans hxreference, hstandIn.trans hxstandIn,
        hload.trans hxload, htick.trans (congrArg nextTick hxtick)⟩
    · rw [if_neg (by simp [SessionRate.inTolerance]; omega)]
      rfl

end Sys2Proof.Machine
end

