-- ==== Sys2Proof/Proofs/Downbeat.lean ====
section
/-! The DOWNBEAT event applies the pending load and starts the ARMED voices (O12). -/

namespace Sys2Proof.Machine

/-- A voice under a DOWNBEAT event: the load's shift, its recomputation while SCHEDULED, and the start of an ARMED one
at the counter's value after the load (R22, R67). -/
def Voice.beaten (load? : Option Nat) (old : Nat) (v : Voice) : Voice :=
  match load? with
  | none => v.started old
  | some load => (v.loaded old load).started load

theorem State.downbeat_eq (s : State) (load? : Option Nat) : s.timebase.load = load? →
    s.downbeat.voices = s.voices.map (·.beaten load? s.timebase.tick) ∧
      s.downbeat.timebase = (match load? with
        | none => s.timebase
        | some load => s.timebase.loadApplied s.rate? load s.clock) ∧
      s.downbeat.clock = s.clock ∧ s.downbeat.station = s.station ∧ s.downbeat.claims = s.claims := by
  intro h
  have hsync := State.syncReads_step s.applyLoad.startArmed
  have hdown : s.downbeat = s.applyLoad.startArmed.syncReads := rfl
  rw [hdown, hsync.voices, hsync.timebase, hsync.clock, hsync.station, hsync.claims]
  unfold State.startArmed State.applyLoad
  cases load? with
  | none =>
    rw [h]
    exact ⟨rfl, rfl, rfl, rfl, rfl⟩
  | some load =>
    rw [h]
    refine ⟨?_, rfl, rfl, rfl, rfl⟩
    show (s.voices.map fun v => v.loaded s.timebase.tick load).map (fun v => v.started load) = _
    rw [List.map_map]
    rfl

theorem Voice.started_armed {v : Voice} (h : v.state = .armed) (now : Nat) :
    v.started now = { v with state := .running, p := 0 }.withDry now := by
  unfold Voice.started
  rw [h]

theorem Voice.started_other {v : Voice} (h : v.state ≠ .armed) (now : Nat) : v.started now = v := by
  unfold Voice.started
  split
  · exact absurd ‹_› h
  · rfl
  · rfl

/-- A held dry tick keeps its current slack under a load (R67). -/
def Voice.shifted (load? : Option Nat) (old : Nat) (v : Voice) : Voice :=
  match load?, v.dry with
  | some load, some dry => { v with dry := some (min (2 ^ 48 - 1) (load + (dry - old))) }
  | _, _ => v

theorem Voice.shifted_state (load? : Option Nat) (old : Nat) (v : Voice) :
    (v.shifted load? old).state = v.state := by
  unfold Voice.shifted
  split <;> rfl

theorem Voice.withDry_state (v : Voice) (now : Nat) : (v.withDry now).state = v.state := by
  unfold Voice.withDry
  split <;> rfl

/-- A load shifts a voice's dry tick, and recomputes that of a SCHEDULED one (R67). -/
theorem Voice.loaded_eq (v : Voice) (old load : Nat) : v.loaded old load = match v.state with
    | .scheduled _ => if v.dry.isSome then (v.shifted (some load) old).withDry load else v.shifted (some load) old
    | .armed | .running => v.shifted (some load) old := by
  unfold Voice.loaded Voice.shifted
  have hmod : tickModulus - 1 = 2 ^ 48 - 1 := rfl
  cases hdry : v.dry with
  | none => cases v.state <;> rfl
  | some dry =>
    dsimp only
    rw [hmod]
    cases hstate : v.state <;> rfl

/-- The beaten voice, by what it was. -/
theorem Voice.beaten_eq (load? : Option Nat) (old now : Nat) (v : Voice) (hnow : now = load?.getD old) :
    v.beaten load? old = match v.state with
      | .running => v.shifted load? old
      | .scheduled _ => if load?.isSome ∧ v.dry.isSome then (v.shifted load? old).withDry now else v.shifted load? old
      | .armed => { v.shifted load? old with state := .running, p := 0 }.withDry now := by
  subst hnow
  have hshift := v.shifted_state load? old
  unfold Voice.beaten
  cases load? with
  | none =>
    cases hstate : v.state with
    | running => exact Voice.started_other (by simp [hstate]) old
    | scheduled start => exact Voice.started_other (by simp [hstate]) old
    | armed => exact Voice.started_armed hstate old
  | some load =>
    dsimp only
    rw [Voice.loaded_eq]
    cases hstate : v.state with
    | running => exact Voice.started_other (by simp [hshift, hstate]) load
    | scheduled start =>
      simp only [Option.isSome_some, true_and, Option.getD_some]
      split
      · exact Voice.started_other (by simp [Voice.withDry_state, hshift, hstate]) load
      · exact Voice.started_other (by simp [hshift, hstate]) load
    | armed => exact Voice.started_armed (hshift.trans hstate) load

/-- A divider tick that arrives with the load is owed after it (R51). -/
theorem Timebase.tickArrives_iff (b : Timebase) (rate : SessionRate) (at_ : Nat) :
    b.tickArrives (some rate) at_ = true ↔
      b.source = .fallback ∧ (b.owedTick = true ∨ b.dividerDue rate = at_) := by
  unfold Timebase.tickArrives
  simp only [Bool.and_eq_true, beq_iff_eq, Bool.or_eq_true, Option.any_some]

/-- What stands of the timebase at the end of a DOWNBEAT event's step: all but READY (R50). -/
theorem State.downbeat_finish (s : State) :
    s.downbeat.finish.timebase = { s.downbeat.timebase with readyLow := s.downbeat.readyWanted } ∧
      s.downbeat.finish.clock = s.clock ∧ s.downbeat.finish.station = s.station ∧
      s.downbeat.finish.claims.watches = s.claims.watches := by
  obtain ⟨-, -, hclock, hstation, hclaims⟩ := s.downbeat_eq _ rfl
  refine ⟨State.finish_timebase _, (State.finish_clock _).trans hclock, (State.finish_station _).trans hstation, ?_⟩
  rw [State.finish_watches, hclaims]

theorem execDownbeatEvent_taken {s : State} {t : Nat} (hstate : s.station.state = .configured)
    (hpulse : s.timebase.pulseTaken = false) : exec (.downbeatEvent t) s =
      .next ((s.atTime t).setTimebase { s.timebase with pulseTaken := true }).downbeat.finish := by
  have h1 : (s.atTime t).timebase.pulseTaken = false := hpulse
  have h2 : ((s.atTime t).setTimebase { (s.atTime t).timebase with pulseTaken := true }).station.state =
      .configured := hstate
  simp only [exec, execDownbeatEvent, h1, Bool.false_eq_true, if_false, h2, if_true]
  rfl

theorem execDownbeatEvent_idle {s : State} {t : Nat}
    (h : s.station.state ≠ .configured ∨ s.timebase.pulseTaken = true) : exec (.downbeatEvent t) s =
      .next ((s.atTime t).setTimebase { s.timebase with pulseTaken := true }) := by
  by_cases hpulse : s.timebase.pulseTaken = true
  · have h1 : (s.atTime t).timebase.pulseTaken = true := hpulse
    have heta : (s.atTime t).setTimebase { s.timebase with pulseTaken := true } = s.atTime t := by
      rw [← hpulse]
      rfl
    simp only [exec, execDownbeatEvent, h1, if_true, heta]
  · have h1 : ¬(s.atTime t).timebase.pulseTaken = true := hpulse
    have h2 : ¬((s.atTime t).setTimebase { (s.atTime t).timebase with pulseTaken := true }).station.state =
        .configured := h.resolve_right hpulse
    simp only [exec, execDownbeatEvent, if_neg h1, if_neg h2]
    rfl

/-- Settles O12. -/
theorem downbeatAppliesLoadAndStartsVoices : Obligations.DownbeatAppliesLoadAndStartsVoices := by
  refine ⟨fun s t hstate hpulse => ?_, fun s t h => execDownbeatEvent_idle h⟩
  generalize hx : (s.atTime t).setTimebase { s.timebase with pulseTaken := true } = x
  have hset : x.clock = max s.clock t ∧ x.station = s.station ∧ x.claims = s.claims ∧ x.voices = s.voices ∧
      x.timebase = { s.timebase with pulseTaken := true } := by
    rw [← hx]
    exact ⟨rfl, rfl, rfl, rfl, rfl⟩
  obtain ⟨hclock, hstation, hclaims, hvoices, htimebase⟩ := hset
  obtain ⟨hfin, hfinClock, hfinStation, hfinWatches⟩ := x.downbeat_finish
  have hload : x.timebase.load = s.timebase.load := by rw [htimebase]
  have htick : x.timebase.tick = s.timebase.tick := by rw [htimebase]
  obtain ⟨hafter, hbase, -⟩ := x.downbeat_eq s.timebase.load hload
  have hnow : x.downbeat.finish.timebase.tick = s.timebase.load.getD s.timebase.tick := by
    rw [hfin, hbase, htimebase]
    cases s.timebase.load <;> rfl
  refine ⟨_, (execDownbeatEvent_taken hstate hpulse).trans (congrArg _ (congrArg _ (congrArg _ hx))),
    hfinClock.trans hclock, hfinStation.trans hstation,
    hfinWatches.trans (congrArg ClaimUnit.watches hclaims), ?_, ?_, ?_, fun hnone => ?_, fun load hsome => ?_, ?_⟩
  · rw [hfin, hbase, htimebase]
    cases s.timebase.load <;> rfl
  · rw [hfin, hbase, htimebase]
    cases s.timebase.load <;> rfl
  · rw [hfin, hbase, htimebase]
    cases hl : s.timebase.load with
    | none => exact hl
    | some load => rfl
  · rw [hfin, hbase, htimebase, hnone]
    exact ⟨rfl, rfl, rfl, rfl, rfl⟩
  · rw [hfin, hbase, hsome]
    refine ⟨rfl, hclock, rfl, fun c hc => ?_, fun d => ?_⟩
    · have hrate : x.rate? = some c.rate := State.rate?_of (hstation ▸ hc)
      show x.timebase.tickArrives x.rate? x.clock = true ↔ _
      rw [hrate, Timebase.tickArrives_iff, htimebase, hclock]
      rfl
    · show x.timebase.drive.filter (fun d => decide (load < d)) = some d ↔ _
      rw [htimebase, Option.filter_eq_some_iff]
      simp only [decide_eq_true_eq]
  · rw [State.finish_voices, hafter, hvoices, htick]
    exact List.map_congr_left fun v _ => v.beaten_eq _ _ _ hnow

end Sys2Proof.Machine
end

