-- ==== Sys2Proof/Proofs/Offers.lean ====
section
/-! The offer choice takes the lowest bid, else the head notice (O14). -/

namespace Sys2Proof.Machine

/-! ### The lowest of a list -/

/-- One step of the search for the lowest bid, the earlier on equal bids (R114). -/
def keepLower {α : Type} (f : α → Nat) (best : Option α) (b : α) : Option α :=
  match best with
  | none => some b
  | some c => if f b < f c then some b else some c

/-- `b` is the lowest of the list, the earliest of those. -/
def LowestOf {α : Type} (f : α → Nat) (l : List α) (b : α) : Prop :=
  ∃ before after, l = before ++ b :: after ∧ (∀ c ∈ before, f b < f c) ∧ ∀ c ∈ after, f b ≤ f c

theorem LowestOf.keepLower {α : Type} {f : α → Nat} {l : List α} {b c : α} (h : LowestOf f l b) :
    ∃ w, keepLower f (some b) c = some w ∧ LowestOf f (l ++ [c]) w := by
  obtain ⟨before, after, rfl, hbefore, hafter⟩ := h
  unfold Machine.keepLower
  dsimp only
  by_cases hlt : f c < f b
  · refine ⟨c, if_pos hlt, before ++ b :: after, [], rfl, fun x hx => ?_, by simp⟩
    rcases List.mem_append.1 hx with hx | hx
    · exact lt_trans hlt (hbefore x hx)
    · rcases List.mem_cons.1 hx with rfl | hx
      · exact hlt
      · exact lt_of_lt_of_le hlt (hafter x hx)
  · refine ⟨b, if_neg hlt, before, after ++ [c], by simp, hbefore, fun x hx => ?_⟩
    rcases List.mem_append.1 hx with hx | hx
    · exact hafter x hx
    · rw [List.mem_singleton.1 hx]
      exact Nat.le_of_not_lt hlt

/-- The search of a list that is not empty finds its lowest. -/
theorem foldl_keepLower {α : Type} (f : α → Nat) (l : List α) :
    (l = [] ∧ l.foldl (keepLower f) none = none) ∨ ∃ b, l.foldl (keepLower f) none = some b ∧ LowestOf f l b := by
  induction l using List.reverseRecOn with
  | nil => exact .inl ⟨rfl, rfl⟩
  | append_singleton l c ih =>
    rw [List.foldl_append]
    rcases ih with ⟨rfl, h⟩ | ⟨b, h, hb⟩
    · rw [h]
      exact .inr ⟨c, rfl, [], [], rfl, by simp, by simp⟩
    · rw [h]
      exact .inr hb.keepLower

/-! ### The entry offered -/

theorem State.offerBid?_eq (s : State) :
    s.offerBid? = (s.claims.bids.filter s.bidReady).foldl (keepLower fun b => s.bidForId b.region) none := by
  unfold State.offerBid?
  congr 1
  funext best b
  cases best <;> rfl

/-- With no entry ready none is offered. -/
theorem State.offerBid?_none {s : State} (h : s.offerBid? = none) : ∀ c ∈ s.claims.bids, ¬s.bidReady c := by
  rw [State.offerBid?_eq] at h
  rcases foldl_keepLower (fun b : Bid => s.bidForId b.region) (s.claims.bids.filter s.bidReady) with
    ⟨hnil, -⟩ | ⟨b, hb, -⟩
  · exact fun c hc hready => List.filter_eq_nil_iff.1 hnil c hc hready
  · rw [hb] at h
    cases h

/-- The entry offered is the ready one with the lowest bid, the earlier on equal bids (R114). -/
theorem State.offerBid?_some {s : State} {b : Bid} (h : s.offerBid? = some b) :
    ∃ before after, s.claims.bids = before ++ b :: after ∧ s.bidReady b ∧
      (∀ c ∈ before, s.bidReady c → s.bidForId b.region < s.bidForId c.region) ∧
      ∀ c ∈ after, s.bidReady c → s.bidForId b.region ≤ s.bidForId c.region := by
  rw [State.offerBid?_eq] at h
  rcases foldl_keepLower (fun b : Bid => s.bidForId b.region) (s.claims.bids.filter s.bidReady) with
    ⟨-, hnone⟩ | ⟨b', hb, ready1, ready2, hfilter, hbefore, hafter⟩
  · rw [hnone] at h
    cases h
  · cases hb.symm.trans h
    obtain ⟨l1, l2, hl, h1, h2⟩ := List.filter_eq_append_iff.1 hfilter
    obtain ⟨l3, l4, hl2, hno, hready, h4⟩ := List.filter_eq_cons_iff.1 h2
    refine ⟨l1 ++ l3, l4, by rw [hl, hl2, List.append_assoc], hready, fun c hc hcr => ?_, fun c hc hcr => ?_⟩
    · rcases List.mem_append.1 hc with hc | hc
      · exact hbefore c (h1 ▸ List.mem_filter.2 ⟨hc, hcr⟩)
      · exact absurd hcr (hno c hc)
    · exact hafter c (h4 ▸ List.mem_filter.2 ⟨hc, hcr⟩)

/-! ### The choice when a step closes -/

theorem State.offer_bid {s : State} {b : Bid} (hm : s.port.mayBegin s.clock = true) (hb : s.offerBid? = some b) :
    s.offer = s.beginClaim b := by
  unfold State.offer
  rw [if_pos hm, hb]

theorem State.offer_head {s : State} {n : Notice} {rest : List Notice} (hm : s.port.mayBegin s.clock = true)
    (hb : s.offerBid? = none) (hq : s.notices.queue = n :: rest) : s.offer = s.beginNotice n := by
  unfold State.offer
  rw [if_pos hm, hb, hq]

theorem State.offer_none {s : State} (hm : s.port.mayBegin s.clock = true)
    (hb : s.offerBid? = none) (hq : s.notices.queue = []) : s.offer = s := by
  unfold State.offer
  rw [if_pos hm, hb, hq]

/-- A CLAIM has its tag in its payload (R131). -/
theorem claimFrame_eq (number bid tag : Nat) : claimFrame number bid tag =
    { kind := 1#4, key := BitVec.ofNat 12 bid, sender := BitVec.ofNat 4 number, addressee := 31#5
      payload := [BitVec.ofNat 8 (tag / 256), BitVec.ofNat 8 tag] } := rfl

/-- The entry offered is SENDING, and each other entry is as it was (R131). -/
theorem State.beginClaim_bids {s : State} {b : Bid} {before after : List Bid} (h : s.claims.bids = before ++ b :: after)
    (hn : (s.claims.bids.map (·.tag)).Nodup) :
    (s.beginClaim b).claims.bids = before ++ { b with offer := .sending } :: after := by
  show updateFirst (fun c : Bid => c.tag == b.tag) (fun c => { c with offer := .sending }) s.claims.bids = _
  rw [h] at hn ⊢
  refine updateFirst_append (p := fun c : Bid => c.tag == b.tag) (x := b) (beq_self_eq_true b.tag) _ (fun c hc => ?_) after
  rw [List.map_append, List.nodup_append] at hn
  obtain ⟨-, -, hdisjoint⟩ := hn
  simpa using hdisjoint c.tag (List.mem_map_of_mem hc) b.tag (by simp)

/-- The port of an IDLE bus after the offer (R114). -/
theorem State.finish_settled_step {s : State} (h : s.settled) :
    s.finish.media = s.media ∧ s.finish.catalogue = s.catalogue ∧ s.finish.notices.queue = s.notices.queue ∧
      s.finish.notices.loss = s.notices.loss := by
  rw [State.finish_settled s h]
  have step := State.offer_step s.recomputeReady
  exact ⟨step.media, step.catalogue, step.queue, step.loss⟩

/-- Settles O14, by what the step that closes finds to offer. -/
theorem offerChoosesTheLowestBid : Obligations.OfferChoosesTheLowestBid := by
  refine ⟨fun s t hsending hbus hsettled => ?_, fun s k r hsending hbus hrival hsettled => ⟨fun hlate => ?_, fun hsoon => ?_⟩⟩
  · have hexec := execBusIdle_of_quiet (.inr hbus) t
    generalize hw : ({ s with clock := max s.clock t, port := { s.port with bus := .idle, rival := none } } : State) = w
      at hexec
    have hfields : w.settled ∧ w.recomputeReady.port = { bus := .idle, sending := none } ∧ w.voices = s.voices ∧
        w.media = s.media ∧ w.catalogue = s.catalogue ∧ w.notices = s.notices ∧ w.claims = s.claims ∧
        w.station = s.station ∧ w.recomputeReady.offerBid? = s.offerBid? ∧
        ∀ id, w.recomputeReady.bidForId id = s.bidForId id := by
      rw [← hw]
      exact ⟨hsettled, by rw [← hsending]; rfl, rfl, rfl, rfl, rfl, rfl, rfl, rfl, fun _ => rfl⟩
    obtain ⟨hw', hport, hvoices, hmedia, hcatalogue, hnotices, hclaims, hstation, hoffer, hprice⟩ := hfields
    obtain ⟨hfm, hfc, hfq, hfl⟩ := w.finish_settled_step hw'
    have hm : w.recomputeReady.port.mayBegin w.recomputeReady.clock = true := by
      rw [hport]
      rfl
    refine ⟨_, hexec, (State.finish_voices w).trans hvoices, hfm.trans hmedia, hfc.trans hcatalogue,
      hfq.trans (by rw [hnotices]), hfl.trans (by rw [hnotices]), ?_⟩
    rw [State.finish_settled w hw']
    cases hbid : s.offerBid? with
    | some b =>
      obtain ⟨before, after, hbids, hready, hbefore, hafter⟩ := State.offerBid?_some hbid
      rw [State.offer_bid hm (hoffer.trans hbid)]
      refine .inl ⟨b, before, after, hbids, hready, hbefore, hafter, ?_, fun hn => ?_⟩
      · show w.recomputeReady.port.begun 1 (.claim b.tag
          (claimFrame w.station.number (w.recomputeReady.bidForId b.region) b.tag)) = _
        rw [hport, hprice, hstation, claimFrame_eq]
        rfl
      · have hwb : w.recomputeReady.claims.bids = s.claims.bids := congrArg ClaimUnit.bids hclaims
        exact State.beginClaim_bids (hwb.trans hbids) (hwb ▸ hn)
    | none =>
      refine .inr ⟨State.offerBid?_none hbid, ?_⟩
      have hwq : w.recomputeReady.notices.queue = s.notices.queue := congrArg NoticeQueue.queue hnotices
      cases hq : s.notices.queue with
      | nil =>
        rw [State.offer_none hm (hoffer.trans hbid) (hwq.trans hq)]
        exact ⟨hclaims, hport⟩
      | cons n rest =>
        rw [State.offer_head hm (hoffer.trans hbid) (hwq.trans hq)]
        refine ⟨hclaims, ?_⟩
        show w.recomputeReady.port.begun 8 (.notice (n.frame w.station.number w.notices.loss)) = _
        rw [hport, hstation, hnotices]
        rfl
  · have hm : s.port.mayBegin s.clock = false := by
      unfold Port.mayBegin bitCycles
      simp only [hsending, hbus, hrival, Option.isNone_none, Bool.true_and, decide_eq_false_iff_not]
      omega
    rw [State.finish_busy s hsettled hm]
    exact ⟨rfl, rfl⟩
  · have hm : s.recomputeReady.port.mayBegin s.recomputeReady.clock = true := by
      unfold Port.mayBegin bitCycles
      simp only [State.recomputeReady_port, State.recomputeReady_clock, hsending, hbus, hrival, Option.isNone_none,
        Bool.true_and]
      exact decide_eq_true hsoon
    have hoffer : s.recomputeReady.offerBid? = s.offerBid? := rfl
    rw [State.finish_settled s hsettled]
    refine ⟨fun b hb => ?_, fun n rest hb hq => ?_, fun hb hq => ?_⟩
    · rw [State.offer_bid hm (hoffer.trans hb)]
      show s.port.begun 1 _ = _
      simp only [Port.begun, hrival]
      rfl
    · rw [State.offer_head hm (hoffer.trans hb) hq]
      show s.port.begun 8 _ = _
      simp only [Port.begun, hrival]
      rfl
    · rw [State.offer_none hm (hoffer.trans hb) hq]
      rfl

end Sys2Proof.Machine
end

