-- ==== Sys2Proof/Proofs/Skips.lean ====
section
/-! SUPPORT. What a skip leaves and tells: the segments passed over one by one, with the stitch or the region end on the
way, then the gap (R72 to R75, R84 to R86). -/

namespace Sys2Proof.Machine

/-! ### The cursor's advance -/

/-- The cursor goes to the next segment of its region (R72). -/
theorem Voice.advance_next {look : Nat → Option Region} {v : Voice} {k : Nat} {r : Region} (hk : v.cursor = some k)
    (hr : look v.region = some r) (hw : v.wrapTo r k = none) (hlt : k + 1 < r.segments) :
    v.advance look = { v with cursor := some (k + 1) } := by
  simp only [Voice.advance, hk, hr, hw, if_pos hlt]

/-- The cursor wraps at the end of an active loop (R72). -/
theorem Voice.advance_wraps {look : Nat → Option Region} {v : Voice} {k j : Nat} {r : Region} (hk : v.cursor = some k)
    (hr : look v.region = some r) (hw : v.wrapTo r k = some j) : v.advance look = { v with cursor := some j } := by
  simp only [Voice.advance, hk, hr, hw]

/-- Past the last segment the cursor stitches into the follow region (R74). -/
theorem Voice.advance_stitches {look : Nat → Option Region} {v : Voice} {k : Nat} {r : Region} {f : FollowSlot}
    (hk : v.cursor = some k) (hr : look v.region = some r) (hw : v.wrapTo r k = none) (hge : r.segments ≤ k + 1)
    (hf : v.follow = some f) : v.advance look = v.stitched f ((look f.region).bind (·.loop)).isSome := by
  simp only [Voice.advance, hk, hr, hw, if_neg (Nat.not_lt.2 hge), hf]

/-- Past the last segment the cursor comes to rest without a follow region (R75). -/
theorem Voice.advance_rests {look : Nat → Option Region} {v : Voice} {k : Nat} {r : Region}
    (hk : v.cursor = some k) (hr : look v.region = some r) (hw : v.wrapTo r k = none) (hge : r.segments ≤ k + 1)
    (hf : v.follow = none) : v.advance look = { v with cursor := none, fin := some (v.fin.getD (v.regionEnd r)) } := by
  simp only [Voice.advance, hk, hr, hw, if_neg (Nat.not_lt.2 hge), hf]

/-- No advance wraps while the loop is not active (R72). -/
theorem Voice.wrapTo_idle {v : Voice} (h : v.loopActive = false) (r : Region) (k : Nat) : v.wrapTo r k = none := by
  unfold Voice.wrapTo
  cases r.loop with
  | none => rfl
  | some l => simp [h]

/-- The advance past the last segment tells its STITCH, or the ENDPOINT of the end that it fixes (R74, R75). -/
theorem State.advanceCursor_told {S s u : State} {v : Voice} {k : Nat} {r : Region} (hv : s.voice? v.tag = some v)
    (hk : v.cursor = some k) (hr : s.look v.region = some r) (hw : v.wrapTo r k = none) (hge : r.segments ≤ k + 1)
    (before : NoticeStep S s) (after : NoticeStep (s.advanceCursor v.tag) u) :
    (∀ f, v.follow = some f → S.told u { addressee := v.requester, isOpen := false
                                         body := .stitch v.tag f.region (v.s0 + 1024 * v.n) }) ∧
      (v.follow = none → v.fin = none → S.told u
        { addressee := v.requester, isOpen := false
          body := .endpoint v.tag (v.regionEnd r).frame (v.regionEnd r).cause }) := by
  obtain ⟨x, hx, rfl⟩ := Option.map_eq_some_iff.1 hr
  have hw' : v.wrapTo x k = none := hw
  have hge' : ¬k + 1 < x.segments := Nat.not_lt.2 hge
  refine ⟨fun f hf => ?_, fun hf hfin => ?_⟩
  · have heq : s.advanceCursor v.tag = s.stitch v f := by
      simp only [State.advanceCursor, hv, hk, hx, hw', if_neg hge', hf]
    rw [heq, State.stitch] at after
    generalize hx : (s.updateVoice v.tag (·.stitched f ((s.region? f.region).bind (·.loop)).isSome)).releaseUse
      v.region = x at after
    exact State.told_queueNotice (t := x) v.requester _ rfl (before.trans (.of_eq (hx ▸ rfl))) after
  · have heq : s.advanceCursor v.tag = s.regionEnd v x := by
      simp only [State.advanceCursor, hv, hk, hx, hw', if_neg hge', hf]
    rw [heq, State.regionEnd, hfin] at after
    dsimp only at after
    generalize hy : (s.updateVoice v.tag fun v => { v with cursor := none }).updateVoice v.tag
      (fun w => { w with fin := some (v.regionEnd x) }) = y at after
    exact State.told_queueNotice (t := y) v.requester _ rfl (before.trans (.of_eq (hy ▸ rfl))) after

/-! ### The segments passed over -/

theorem Voice.passed_rest (look : Nat → Option Region) (n : Nat) {v : Voice} (h : v.cursor = none) :
    v.passed look n = v := by
  cases n with
  | zero => rfl
  | succ n => rw [Voice.passed, if_pos (by simp [h])]

theorem Voice.passed_one (look : Nat → Option Region) {v : Voice} {k : Nat} (h : v.cursor = some k) :
    v.passed look 1 = v.passedOver.advance look := by
  rw [Voice.passed, if_neg (by simp [h]), Voice.passed]

theorem Voice.passed_add (look : Nat → Option Region) (a b : Nat) :
    ∀ v : Voice, v.passed look (a + b) = (v.passed look a).passed look b := by
  induction a with
  | zero =>
    intro v
    rw [Nat.zero_add, Voice.passed]
  | succ a ih =>
    intro v
    rw [Nat.succ_add, Voice.passed, Voice.passed]
    split
    next h => exact (Voice.passed_rest look b (by simpa using h)).symm
    next h => exact ih _

theorem Voice.passedOver_fill (look : Nat → Option Region) (v : Voice) :
    (v.passedOver.advance look).n = v.n + 1 ∧ (v.passedOver.advance look).d = v.d + 1 ∧
      (v.passedOver.advance look).inFlight = v.inFlight := by
  have h := Voice.advance_sameFill look v.passedOver
  exact ⟨h.n, h.d, h.inFlight⟩

/-- The ring segments passed over: all of them, unless the cursor comes to rest on the way (R85). -/
theorem Voice.passed_counts (look : Nat → Option Region) (count : Nat) :
    ∀ v : Voice, ∃ m, m ≤ count ∧ (v.passed look count).n = v.n + m ∧ (v.passed look count).d = v.d + m ∧
      (v.passed look count).inFlight = v.inFlight ∧ ((v.passed look count).cursor ≠ none → m = count) ∧
      (0 < count → v.cursor.isSome → 0 < m) := by
  induction count with
  | zero => exact fun v => ⟨0, le_refl 0, rfl, rfl, rfl, fun _ => rfl, fun h => absurd h (lt_irrefl 0)⟩
  | succ count ih =>
    intro v
    rw [Voice.passed]
    split
    next h =>
      have hnone : v.cursor = none := by simpa using h
      exact ⟨0, Nat.zero_le _, rfl, rfl, rfl, fun hc => absurd hnone hc, fun _ hs => by simp [hnone] at hs⟩
    next h =>
      obtain ⟨hn, hd, hflight⟩ := v.passedOver_fill look
      obtain ⟨m, hle, hn', hd', hflight', hall, -⟩ := ih (v.passedOver.advance look)
      exact ⟨m + 1, by omega, by omega, by omega, hflight'.trans hflight, fun hc => by rw [hall hc],
        fun _ _ => Nat.succ_pos m⟩

/-- With no loop active the cursor goes on by as many segments as the region still has (R72, R85). -/
theorem Voice.passed_runs {look : Nat → Option Region} {v : Voice} {k : Nat} {r : Region} (hk : v.cursor = some k)
    (hr : look v.region = some r) (hl : v.loopActive = false) (a : Nat) (ha : k + a < r.segments) :
    v.passed look a = { v with n := v.n + a, d := v.d + a, cursor := some (k + a) } := by
  induction a with
  | zero =>
    rw [Voice.passed, Nat.add_zero, ← hk]
    rfl
  | succ a ih =>
    rw [Voice.passed_add, ih (by omega), Voice.passed_one look (k := k + a) rfl]
    exact Voice.advance_next (look := look) (k := k + a) (r := r) rfl hr (Voice.wrapTo_idle hl r _) ha

theorem State.passOver_rest {s : State} {g : Nat} (n : Nat) (h : ∀ v, s.voice? g = some v → v.cursor = none) :
    s.passOver g n = s := by
  cases n with
  | zero => rfl
  | succ n =>
    rw [State.passOver]
    split
    next v hv => rw [if_pos (by simp [h v hv])]
    next hv => rfl

theorem State.passOver_add (g a b : Nat) : ∀ s : State, s.passOver g (a + b) = (s.passOver g a).passOver g b := by
  induction a with
  | zero =>
    intro s
    rw [Nat.zero_add, State.passOver]
  | succ a ih =>
    intro s
    rw [Nat.succ_add, State.passOver, State.passOver]
    split
    next v hv =>
      split
      next h =>
        exact (State.passOver_rest b fun w hw => by rw [hv] at hw; cases hw; simpa using h).symm
      next h => exact ih _
    next hv => exact (State.passOver_rest b fun w hw => by rw [hv] at hw; cases hw).symm

theorem State.passOver_one {s : State} {v : Voice} {k : Nat} (hv : s.voice? v.tag = some v) (hk : v.cursor = some k) :
    s.passOver v.tag 1 = (s.updateVoice v.tag Voice.passedOver).advanceCursor v.tag := by
  rw [State.passOver, hv]
  dsimp only
  rw [if_neg (by simp [hk]), State.passOver]

/-- A skip that passes over the region's last segment tells the STITCH or the fixed end's ENDPOINT on its way
(R74, R75, R85). -/
theorem State.passOver_told {S s u : State} {v : Voice} {k count : Nat} {r : Region} (hv : s.voice? v.tag = some v)
    (hk : v.cursor = some k) (hr : s.look v.region = some r) (hl : v.loopActive = false) (hks : k < r.segments)
    (hcount : r.segments ≤ k + count) (before : NoticeStep S s) (after : NoticeStep (s.passOver v.tag count) u) :
    (∀ f, v.follow = some f → S.told u
      { addressee := v.requester, isOpen := false
        body := .stitch v.tag f.region (v.s0 + 1024 * (v.n + (r.segments - k))) }) ∧
      (v.follow = none → v.fin = none → S.told u
        { addressee := v.requester, isOpen := false
          body := .endpoint v.tag
            (v.s0 + 1024 * (v.n + (r.segments - k) - 1) + (r.frames - 1024 * (r.segments - 1)))
            (if v.loopReleased then .loopExit else .regionEnd) }) := by
  obtain ⟨a, ha⟩ : ∃ a, k + a + 1 = r.segments := ⟨r.segments - 1 - k, by omega⟩
  obtain ⟨rest, hrest⟩ : ∃ rest, count = a + (1 + rest) := ⟨count - a - 1, by omega⟩
  have hfills := State.passOver_fills (G := fun _ => True) v.tag a s
  have hruns := Voice.passed_runs hk hr hl a (by omega)
  have hy := FillsTo.voice? hfills
  rw [hv, Option.map_some, hruns] at hy
  rw [hrest, State.passOver_add, State.passOver_add] at after
  generalize hx : s.passOver v.tag a = x at *
  have hone : x.passOver v.tag 1 = (x.updateVoice v.tag Voice.passedOver).advanceCursor v.tag :=
    State.passOver_one (v := { v with n := v.n + a, d := v.d + a, cursor := some (k + a) }) (k := k + a) hy rfl
  have hupdate := State.updateVoice_fills (G := fun _ => True) x v.tag Voice.passedOver (fun _ => rfl) fun _ => rfl
  have hz := FillsTo.voice? hupdate
  rw [hy, Option.map_some] at hz
  have hlook : (x.updateVoice v.tag Voice.passedOver).look v.region = some r := by
    rw [hupdate.look, hfills.look, hr]
  rw [hone] at after
  have hafter := (State.passOver_fills (G := fun _ => True) v.tag rest
    ((x.updateVoice v.tag Voice.passedOver).advanceCursor v.tag)).notices.noticeStep.trans after
  have hbefore := before.trans (hfills.notices.noticeStep.trans hupdate.notices.noticeStep)
  obtain ⟨hstitch, hend⟩ := State.advanceCursor_told
    (v := Voice.passedOver { v with n := v.n + a, d := v.d + a, cursor := some (k + a) }) (k := k + a) hz rfl hlook
    (Voice.wrapTo_idle hl r _) (by omega) hbefore hafter
  have hn : v.n + (r.segments - k) = v.n + a + 1 := by omega
  rw [hn]
  exact ⟨hstitch, hend⟩

/-! ### The record after a skip -/

/-- `w` is what a record `x` that has passed over its segments, with nothing in flight, becomes by the end of the step:
COMPLETE, or FILLING with its next segment issued or not (R81, R86). -/
structure Voice.Settles (look : Nat → Option Region) (x w : Voice) : Prop where
  fill     : w.fill ≠ .late
  dryFrame : w.dryFrame = none
  d        : w.d = x.d
  flight   : w.n = w.d ∧ w.inFlight = none ∨ w.n = w.d + 1 ∧ w.inFlight = some w.d
  rest     : x.cursor = none → w.cursor = none ∧ w.fill = .complete ∧ w.dry = none
  fin      : x.fin.isSome → w.fin = x.fin
  follow   : x.follow = none → w.follow = none ∧ w.region = x.region
  runs     : ∀ k r, x.cursor = some k → look x.region = some r → x.loopActive = false → k + 1 < r.segments →
    w.region = x.region ∧ w.loopActive = false ∧ w.cursor = some (k + (w.n - w.d))

theorem Voice.Settles.completed {look : Nat → Option Region} {x : Voice} (hflight : x.inFlight = none) (hn : x.n = x.d) :
    x.Settles look x.completed :=
  ⟨by simp [Voice.completed], rfl, rfl, .inl ⟨hn, hflight⟩, fun h => ⟨h, rfl, rfl⟩, fun _ => rfl, fun h => ⟨h, rfl⟩,
    fun k r hk _ hl _ => ⟨rfl, hl, by simpa [Voice.completed, hn] using hk⟩⟩

/-- An advance keeps an end that is present, and moves into no follow region but the held one (R72 to R75). -/
theorem Voice.advance_kept (look : Nat → Option Region) (v : Voice) : (v.fin.isSome → (v.advance look).fin = v.fin) ∧
    (v.follow = none → (v.advance look).follow = none ∧ (v.advance look).region = v.region) ∧
    (v.advance look).dryFrame = v.dryFrame := by
  unfold Voice.advance
  split
  · split
    · exact ⟨fun _ => rfl, fun h => ⟨h, rfl⟩, rfl⟩
    · split
      · exact ⟨fun _ => rfl, fun h => ⟨h, rfl⟩, rfl⟩
      · split
        next f hf => exact ⟨fun _ => rfl, fun h => (by rw [hf] at h; cases h), rfl⟩
        next hf =>
          refine ⟨fun h => ?_, fun h => ⟨h, rfl⟩, rfl⟩
          obtain ⟨e, he⟩ := Option.isSome_iff_exists.1 h
          simp [he]
  · exact ⟨fun _ => rfl, fun h => ⟨h, rfl⟩, rfl⟩

theorem Voice.passed_kept (look : Nat → Option Region) (n : Nat) : ∀ {v : Voice}, v.follow = none →
    (v.passed look n).follow = none ∧ (v.passed look n).region = v.region := by
  induction n with
  | zero => exact fun h => ⟨h, rfl⟩
  | succ n ih =>
    intro v h
    rw [Voice.passed]
    split
    · exact ⟨h, rfl⟩
    · obtain ⟨-, hkept, -⟩ := Voice.advance_kept look v.passedOver
      obtain ⟨hf, hr⟩ := hkept h
      obtain ⟨hf', hr'⟩ := ih hf
      exact ⟨hf', hr'.trans hr⟩

/-- What the eligibility test asks (R77). -/
theorem Voice.eligible_iff (v : Voice) (ring : Nat) : v.eligible ring = true ↔
    v.fill = .filling ∧ v.inFlight = none ∧ v.hasRoom ring = true ∧ v.fillLimit = false := by
  simp [Voice.eligible, and_assoc]

theorem Voice.cursor_of_fillLimit {v : Voice} (h : v.fillLimit = false) : ∃ k, v.cursor = some k := by
  unfold Voice.fillLimit at h
  rw [Bool.or_eq_false_iff] at h
  cases hk : v.cursor with
  | none => simp [hk] at h
  | some k => exact ⟨k, rfl⟩

theorem Voice.tested_cases (look : Nat → Option Region) (ring : Nat) (v : Voice) : v.tested look ring = v ∨
    v.eligible ring = true ∧ v.tested look ring = v.issued.advance look := by
  unfold Voice.tested
  split
  next h => exact .inr ⟨(Bool.and_eq_true_iff.1 h).1, rfl⟩
  next => exact .inl rfl

theorem Voice.Settles.tested {look : Nat → Option Region} {x w : Voice} (h : x.Settles look w) (ring : Nat) :
    x.Settles look (w.tested look ring) := by
  rcases w.tested_cases look ring with heq | ⟨helig, heq⟩
  · rw [heq]
    exact h
  · obtain ⟨hfill, hflight, -, hlimit⟩ := (w.eligible_iff ring).1 helig
    obtain ⟨j, hj⟩ := Voice.cursor_of_fillLimit hlimit
    obtain ⟨hn, -⟩ : w.n = w.d ∧ w.inFlight = none := h.flight.resolve_right fun hf => by
      rw [hflight] at hf
      cases hf.2
    have hs := Voice.advance_sameFill look w.issued
    obtain ⟨hfin, hfollow, hdryFrame⟩ := Voice.advance_kept look w.issued
    rw [heq]
    refine ⟨hs.fill ▸ h.fill, hdryFrame.trans h.dryFrame, hs.d.trans h.d, .inr ⟨?_, ?_⟩, fun hx => ?_, fun hx => ?_,
      fun hx => ?_, fun k r hk hr hl hlt => ?_⟩
    · rw [hs.n, hs.d]
      exact congrArg (· + 1) hn
    · rw [hs.inFlight, hs.d]
      exact congrArg some hn
    · rw [(h.rest hx).1] at hj
      cases hj
    · have hw := h.fin hx
      exact (hfin (by rw [← hw] at hx; exact hx)).trans hw
    · obtain ⟨hwf, hwr⟩ := h.follow hx
      exact ⟨(hfollow hwf).1, (hfollow hwf).2.trans hwr⟩
    · obtain ⟨hregion, hloop, hcursor⟩ := h.runs k r hk hr hl hlt
      have hcur : w.issued.cursor = some k := by
        rw [show w.issued.cursor = w.cursor from rfl, hcursor, hn, Nat.sub_self, Nat.add_zero]
      have hadv := Voice.advance_next (look := look) (v := w.issued) hcur (hregion ▸ hr) (Voice.wrapTo_idle hloop r k) hlt
      rw [hadv]
      refine ⟨hregion, hloop, congrArg some ?_⟩
      show k + 1 = k + (w.n + 1 - w.d)
      omega

theorem Voice.Settles.withDry {look : Nat → Option Region} {x w : Voice} (h : x.Settles look w) (now : Nat) :
    x.Settles look (w.withDry now) := by
  unfold Voice.withDry
  split
  next => exact h
  next hc =>
    exact ⟨h.fill, h.dryFrame, h.d, h.flight, fun hx => absurd (h.rest hx).2.1 hc, h.fin, h.follow, h.runs⟩

theorem Voice.Settles.refilled {look : Nat → Option Region} {x : Voice} (hflight : x.inFlight = none) (hn : x.n = x.d)
    (hlimit : x.fillLimit = false) (ring now : Nat) : x.Settles look (x.refilled look ring now) := by
  obtain ⟨j, hj⟩ := Voice.cursor_of_fillLimit hlimit
  have base : x.Settles look { x with fill := .filling, dryFrame := none } :=
    ⟨Fill.noConfusion, rfl, rfl, .inl ⟨hn, hflight⟩, fun h => (by rw [hj] at h; cases h), fun _ => rfl,
      fun h => ⟨h, rfl⟩, fun k r hk _ hl _ => ⟨rfl, hl, by simpa [hn] using hk⟩⟩
  exact (base.withDry now).tested ring

theorem Voice.Settles.skipped {look : Nat → Option Region} {v : Voice} (hflight : v.inFlight = none) (hn : v.n = v.d)
    (ring now : Nat) : (v.passed look v.skipCount).Settles look (v.skipped look ring now) := by
  obtain ⟨m, -, hn', hd', hflight', -⟩ := Voice.passed_counts look v.skipCount v
  have hnd : (v.passed look v.skipCount).n = (v.passed look v.skipCount).d := by omega
  unfold Voice.skipped
  split
  next => exact .completed (hflight'.trans hflight) hnd
  next hl => exact .refilled (hflight'.trans hflight) hnd (by simpa using hl) ring now

/-! ### The skip as it is told -/

/-- The gap is told once the segments are passed over; no other UNDERRUN follows in the skip (R86). -/
theorem State.skip_reported {G : Nat → Prop} {s : State} {v : Voice} (hv : s.voice? v.tag = some v)
    (gapStart count : Nat) : Reported G
      ((s.passOver v.tag v.skipCount).reportUnderrun (v.passed s.look v.skipCount) gapStart
        (v.s0 + 1024 * (v.passed s.look v.skipCount).n - gapStart) count)
      (s.skip v.tag gapStart count) := by
  have hw := FillsTo.voice? (State.passOver_fills (G := G) v.tag v.skipCount s)
  rw [hv, Option.map_some] at hw
  have hs0 := (Voice.passed_core s.look v.skipCount v).s0
  unfold State.skip
  rw [hv]
  dsimp only
  rw [hw]
  dsimp only
  rw [hs0]
  split
  · exact (State.completed_fills _ v.tag).notices
  · exact (State.refill_fills _ v.tag).notices

/-- A skip of voice `v`, told between what the step reports before and after it (R84 to R86). -/
theorem State.skips_of_skip {S s u : State} {v w : Voice} {gapStart count : Nat} (hv : s.voice? v.tag = some v)
    (hlook : s.look = S.look) (hn : v.n = v.d) (hcursor : v.cursor.isSome)
    (hdry : v.s0 + 1024 * v.d ≤ v.floorP + 4) (before : Reported (· ≠ v.tag) S s)
    (after : Reported (· ≠ v.tag) (s.skip v.tag gapStart count) u)
    (hw : (v.passed S.look v.skipCount).Settles S.look w) : S.skips u v w v.floorP gapStart count := by
  intro target htarget
  have hcount : v.skipCount = target + 1 - v.d := by rw [Voice.skipCount, htarget, hn]
  have hreach : v.d ≤ target := by omega
  obtain ⟨m, hm, hpn, hpd, -, hall, hsome⟩ := Voice.passed_counts S.look v.skipCount v
  have hm0 : 0 < m := hsome (by omega) hcursor
  have hpass := State.passOver_fills (G := (· ≠ v.tag)) v.tag v.skipCount s
  have htold := State.skip_reported (G := (· ≠ v.tag)) hv gapStart count
  rw [hlook] at htold
  have hnotices : NoticeStep (s.passOver v.tag v.skipCount) u :=
    (State.queueNotice_noticeStep _ _ _).trans (htold.trans after).noticeStep
  have hxcore := Voice.passed_core S.look v.skipCount v
  have hwd : w.d = v.d + m := hw.d.trans hpd
  refine ⟨hw.fill, hw.dryFrame, hw.flight, by omega, by omega, fun hc => ?_, ?_, ?_⟩
  · have : m = v.skipCount := hall fun hx => hc (hw.rest hx).1
    omega
  · have hgap : v.s0 + 1024 * w.d = v.s0 + 1024 * (v.passed S.look v.skipCount).n := by
      rw [hwd, hpn, hn]
    rw [hgap]
    exact State.toldUnderrun_of_reported (by simp) hxcore.tag hxcore.requester (before.trans hpass.notices)
      (htold.trans after)
  · intro k r segments last hk hr hl hsegments hks hlast
    have hr' : S.look v.region = some r.unused := State.look_of_region hr
    have hr'' : s.look v.region = some r.unused := hlook ▸ hr'
    have hseg : r.unused.segments = segments := hsegments.symm
    rw [← hseg] at hks ⊢
    refine ⟨fun hlt => ?_, fun hge hfollow => ?_, fun hge f hfollow => ?_⟩
    · have hruns := Voice.passed_runs hk hr' hl v.skipCount (by omega)
      obtain ⟨hregion, -, hcur⟩ := hw.runs last r.unused (by rw [hruns, hlast, hcount]) (by rw [hruns]; exact hr')
        (by rw [hruns]; exact hl) hlt
      rw [hruns] at hregion
      refine ⟨hregion, ?_, hcur⟩
      have : (v.passed S.look v.skipCount).d = v.d + v.skipCount := by rw [hruns]
      omega
    all_goals
      obtain ⟨htoldStitch, htoldEnd⟩ := State.passOver_told hv hk hr'' hl hks (by omega) before.noticeStep hnotices
      obtain ⟨a, ha⟩ : ∃ a, k + a + 1 = r.unused.segments := ⟨r.unused.segments - 1 - k, by omega⟩
      obtain ⟨rest, hrest⟩ : ∃ rest, v.skipCount = a + (1 + rest) := ⟨v.skipCount - a - 1, by omega⟩
      have hruns := Voice.passed_runs hk hr' hl a (by omega)
      have hcross : v.passed S.look v.skipCount =
          ((({ v with n := v.n + a, d := v.d + a, cursor := some (k + a) } : Voice).passedOver.advance S.look).passed
            S.look rest) := by
        rw [hrest, Voice.passed_add, Voice.passed_add, hruns, Voice.passed_one S.look (k := k + a) rfl]
    · have hadv := Voice.advance_rests (look := S.look) (k := k + a) (r := r.unused)
        (v := ({ v with n := v.n + a, d := v.d + a, cursor := some (k + a) } : Voice).passedOver) rfl hr'
        (Voice.wrapTo_idle hl _ _) (by omega) hfollow
      rw [hadv, Voice.passed_rest S.look rest rfl] at hcross
      rw [hcross] at hw
      obtain ⟨hcur, hcomplete, hnone⟩ := hw.rest rfl
      have hfin := hw.fin rfl
      have hd : w.d = v.d + (r.unused.segments - k) := by
        have : w.d = v.d + a + 1 := hw.d
        omega
      refine ⟨(hw.follow hfollow).2, hcur, hd, hcomplete, hnone, fun hs => ?_, fun hnofin e he => ?_⟩
      · obtain ⟨e, he⟩ := Option.isSome_iff_exists.1 hs
        refine hfin.trans ?_
        show some (v.fin.getD _) = v.fin
        rw [he]
        rfl
      · have hframe : v.s0 + 1024 * (v.n + (r.unused.segments - k) - 1) = v.s0 + 1024 * (w.d - 1) := by rw [hd, hn]
        have htoldE := htoldEnd hfollow hnofin
        rw [hframe] at htoldE
        rw [he]
        refine ⟨?_, htoldE⟩
        refine hfin.trans ?_
        show some (v.fin.getD _) = _
        rw [hnofin]
        have hn' : v.n + a + 1 - 1 = w.d - 1 := by omega
        show some (VoiceEnd.mk (v.s0 + 1024 * (v.n + a + 1 - 1) + (r.frames - 1024 * (r.unused.segments - 1))) _) = _
        rw [hn']
        rfl
    · have hadv := Voice.advance_stitches (look := S.look) (k := k + a) (r := r.unused) (f := f)
        (v := ({ v with n := v.n + a, d := v.d + a, cursor := some (k + a) } : Voice).passedOver) rfl hr'
        (Voice.wrapTo_idle hl _ _) (by omega) hfollow
      rw [hadv] at hcross
      have hkept := Voice.passed_kept S.look rest (v := Voice.stitched (({ v with
        n := v.n + a, d := v.d + a, cursor := some (k + a) } : Voice).passedOver) f
        ((S.look f.region).bind (·.loop)).isSome) rfl
      rw [← hcross] at hkept
      obtain ⟨hwf, hwr⟩ := hw.follow hkept.1
      refine ⟨hwr.trans hkept.2, hwf, ?_⟩
      rw [← hn]
      exact htoldStitch f hfollow

end Sys2Proof.Machine
end

