-- ==== Sys2Proof/Proofs/Ticking.lean ====
section
/-! SUPPORT. One voice's tick event between those of the others: the record it becomes, and what it tells (R46, R57 to
R60, log entry 10). -/

namespace Sys2Proof.Machine

/-! ### The record -/

/-- The record on which the test of its pending end is made at tick `now`; none once it has retired at its end or at the
position limit (R25, R58, R59). -/
def Voice.arrived (look : Nat → Option Region) (ring now : Nat) (v : Voice) : Option Voice :=
  match v.state with
  | .running => if v.ends then none else some (v.moved look ring now)
  | .scheduled start => some (if start ≤ now then ({ v with state := .running, p := 0 } : Voice).withDry now else v)
  | .armed => some v

/-- `w` is what the tests at the end of the tick event make of `x`: of its eligibility and of its dry tick (R57, R63,
R67). -/
inductive Voice.Tends (look : Nat → Option Region) (x : Voice) : Voice → Prop where
  | refl : Voice.Tends look x x
  | tested (ring : Nat) {w : Voice} : Voice.Tends look x w → Voice.Tends look x (w.tested look ring)
  | dry (now : Nat) {w : Voice} : Voice.Tends look x w → Voice.Tends look x (w.withDry now)

/-- The record at the end of the tick event. -/
def Voice.closed (look : Nat → Option Region) (ring now : Nat) (v : Voice) : Option Voice :=
  (v.ticked look ring now).map (·.heldAt now)

theorem Voice.Tends.heldAt {look : Nat → Option Region} {x w : Voice} (h : x.Tends look w) (now : Nat) :
    x.Tends look (w.heldAt now) := by
  unfold Voice.heldAt
  split
  · exact h.dry now
  · exact h

theorem Voice.Tends.ticksTested {look : Nat → Option Region} {x w : Voice} (h : x.Tends look w) (ring now : Nat)
    (before : Voice) : x.Tends look (w.ticksTested look ring now before) := by
  have htest : x.Tends look (if before.consumed < w.consumed then w.tested look ring else w) := by
    split
    · exact h.tested ring
    · exact h
  unfold Voice.ticksTested
  dsimp only
  split
  · exact htest.dry now
  · exact htest

theorem Voice.Tends.core {look : Nat → Option Region} {x w : Voice} (h : x.Tends look w) : x.SameCore w := by
  induction h with
  | refl => exact .refl x
  | tested ring _ ih => exact ih.trans (Voice.tested_core look ring _)
  | dry now _ ih => exact ih.trans (Voice.withDry_core _ now)

/-- The record at the end of the tick event is what the tests make of the record after its pending end; it is gone where
that is gone. -/
theorem Voice.closed_cases (look : Nat → Option Region) (ring now : Nat) (v : Voice) :
    (v.closed look ring now = none ∧ ((v.arrived look ring now).bind (·.pended now)) = none) ∨
      ∃ y x w, v.arrived look ring now = some y ∧ y.pended now = some x ∧ x.Tends look w ∧
        v.closed look ring now = some w := by
  unfold Voice.closed Voice.ticked Voice.arrived
  cases v.state with
  | running =>
    dsimp only
    by_cases hends : v.ends = true
    · simp only [hends, if_true]
      exact .inl ⟨rfl, rfl⟩
    · simp only [hends, Bool.false_eq_true, if_false]
      cases hp : (v.moved look ring now).pended now with
      | none => exact .inl ⟨rfl, hp⟩
      | some x => exact .inr ⟨_, x, _, rfl, hp, (Voice.Tends.refl.ticksTested ring now v).heldAt now, rfl⟩
  | scheduled start =>
    dsimp only
    cases hp : (if start ≤ now then ({ v with state := .running, p := 0 } : Voice).withDry now else v).pended now with
    | none => exact .inl ⟨rfl, hp⟩
    | some x => exact .inr ⟨_, x, _, rfl, hp, Voice.Tends.refl.heldAt now, rfl⟩
  | armed =>
    dsimp only
    cases hp : v.pended now with
    | none => exact .inl ⟨rfl, hp⟩
    | some x => exact .inr ⟨_, x, _, rfl, hp, Voice.Tends.refl.heldAt now, rfl⟩

/-- What a due pending end leaves of a record: gone by a CUT; with the end cleared by a FADE, which fixes an absent one
(R25, R147, R148). -/
theorem Voice.pended_due {y : Voice} {e : PendingEnd} {now : Nat} (he : y.pendingEnd = some e) (hle : e.atTick ≤ now) :
    (e.mode = .cut → y.pended now = none) ∧
      (∀ length, e.mode = .fade length → y.fin.isSome → y.pended now = some { y with pendingEnd := none }) ∧
      ∀ length, e.mode = .fade length → y.fin = none → y.pended now =
        some (({ y with pendingEnd := none } : Voice).faded { frame := y.floorP + length, cause := .fade }) := by
  unfold Voice.pended
  rw [he]
  dsimp only
  rw [if_pos hle]
  refine ⟨fun hm => by rw [hm], fun length hm hf => by rw [hm]; simp [hf], fun length hm hf => by rw [hm]; simp [hf]⟩

/-- A pending end still to come is held (R25). -/
theorem Voice.pended_held {y : Voice} {now : Nat} (h : ∀ e, y.pendingEnd = some e → now < e.atTick) :
    y.pended now = some y := by
  unfold Voice.pended
  cases he : y.pendingEnd with
  | none => rfl
  | some e =>
    dsimp only
    rw [if_neg (Nat.not_le.2 (h e he))]

/-- The record after its pending end is as it was, or has that end cleared, and perhaps an end fixed by it. -/
theorem Voice.pended_cases {y x : Voice} {now : Nat} (h : y.pended now = some x) :
    x = y ∨ x = { y with pendingEnd := none } ∨
      y.fin = none ∧ ∃ e, x = ({ y with pendingEnd := none } : Voice).faded e := by
  by_cases hdue : ∃ e, y.pendingEnd = some e ∧ e.atTick ≤ now
  · obtain ⟨e, he, hle⟩ := hdue
    obtain ⟨hcut, hpresent, habsent⟩ := Voice.pended_due he hle
    cases hm : e.mode with
    | cut => rw [hcut hm] at h; cases h
    | fade length =>
      by_cases hf : y.fin.isSome
      · rw [hpresent length hm hf] at h
        exact .inr (.inl (Option.some.inj h).symm)
      · have hnone : y.fin = none := by simpa using hf
        rw [habsent length hm hnone] at h
        exact .inr (.inr ⟨hnone, _, (Option.some.inj h).symm⟩)
  · rw [Voice.pended_held fun e he => Nat.lt_of_not_le fun hle => hdue ⟨e, he, hle⟩] at h
    exact .inl (Option.some.inj h).symm

theorem Voice.faded_cases (e : VoiceEnd) (y : Voice) : y.faded e = { y with fin := some e, follow := none } ∨
    y.inFlight = none ∧ y.faded e = Voice.completed { y with fin := some e, follow := none } := by
  unfold Voice.faded Voice.limited
  split
  next h => exact .inr ⟨by simpa using (Bool.and_eq_true_iff.1 h).2, rfl⟩
  next => exact .inl rfl

/-- A property of the record that a pending end and the tests keep holds of the record at the end of the tick event. -/
theorem Voice.closing_keeps {look : Nat → Option Region} {now : Nat} {y x w : Voice} {P : Voice → Prop} (hy : P y)
    (hx : y.pended now = some x) (hw : x.Tends look w) (hclear : P y → P { y with pendingEnd := none })
    (hfade : ∀ e, P y → y.fin = none → P (({ y with pendingEnd := none } : Voice).faded e))
    (htested : ∀ (ring : Nat) (z : Voice), P z → P (z.tested look ring)) (hdry : ∀ (n : Nat) (z : Voice), P z → P (z.withDry n)) :
    P w := by
  have h : P x := by
    rcases Voice.pended_cases hx with rfl | rfl | ⟨hf, e, rfl⟩
    · exact hy
    · exact hclear hy
    · exact hfade e hy hf
  induction hw with
  | refl => exact h
  | tested ring _ ih => exact htested ring _ ih
  | dry n _ ih => exact hdry n _ ih

/-- The fields of a record that move at its advance alone (R58). -/
def Voice.SameRun (y w : Voice) : Prop :=
  w.tag = y.tag ∧ w.record = y.record ∧ w.requester = y.requester ∧ w.state = y.state ∧ w.s0 = y.s0 ∧ w.p = y.p ∧
    w.r = y.r ∧ w.target = y.target ∧ w.step = y.step

theorem Voice.SameCore.sameRun {y w : Voice} (h : y.SameCore w) : y.SameRun w :=
  ⟨h.tag, h.record, h.requester, h.state, h.s0, h.p, h.r, h.target, h.step⟩

theorem Voice.SameRun.trans {x y z : Voice} (a : x.SameRun y) (b : y.SameRun z) : x.SameRun z := by
  obtain ⟨a1, a2, a3, a4, a5, a6, a7, a8, a9⟩ := a
  obtain ⟨b1, b2, b3, b4, b5, b6, b7, b8, b9⟩ := b
  exact ⟨b1.trans a1, b2.trans a2, b3.trans a3, b4.trans a4, b5.trans a5, b6.trans a6, b7.trans a7, b8.trans a8,
    b9.trans a9⟩

theorem Voice.faded_sameRun (e : VoiceEnd) (y : Voice) : y.SameRun (y.faded e) := (Voice.faded_core e y).sameRun

theorem Voice.closing_sameRun {look : Nat → Option Region} {now : Nat} {y x w : Voice}
    (hx : y.pended now = some x) (hw : x.Tends look w) : y.SameRun w :=
  Voice.closing_keeps (P := y.SameRun) (Voice.SameCore.refl y).sameRun hx hw (fun h => h)
    (fun e h _ => h.trans (Voice.faded_sameRun e _)) (fun ring z h => h.trans (Voice.tested_core look ring z).sameRun)
    fun n z h => h.trans (Voice.withDry_core z n).sameRun

theorem Voice.tested_of_ineligible {look : Nat → Option Region} {v : Voice} {ring : Nat}
    (h : v.fill ≠ .filling ∨ v.inFlight ≠ none) : v.tested look ring = v := by
  rcases v.tested_cases look ring with heq | ⟨helig, -⟩
  · exact heq
  · obtain ⟨hf, hi, -⟩ := (v.eligible_iff ring).1 helig
    rcases h with h | h
    · exact absurd hf h
    · exact absurd hi h

/-- The fill fields of a record whose fill cannot go on: those that the waiting for the segment in flight leaves
alone. -/
def Voice.SameWait (y w : Voice) : Prop :=
  w.fill = y.fill ∧ w.dryFrame = y.dryFrame ∧ w.n = y.n ∧ w.d = y.d ∧ w.inFlight = y.inFlight ∧ w.cursor = y.cursor

/-- A voice with a segment in flight issues no other by the end of its tick event, and does not complete (R77, R81). -/
theorem Voice.closing_waits {look : Nat → Option Region} {now : Nat} {y x w : Voice}
    (hx : y.pended now = some x) (hw : x.Tends look w) (h : y.inFlight.isSome) : y.SameWait w := by
  have hne : y.inFlight ≠ none := Option.isSome_iff_ne_none.1 h
  refine Voice.closing_keeps (P := y.SameWait) ⟨rfl, rfl, rfl, rfl, rfl, rfl⟩ hx hw (fun h => h) (fun e _ _ => ?_)
    (fun ring z hz => ?_) fun n z hz => ?_
  · rcases Voice.faded_cases e { y with pendingEnd := none } with heq | ⟨hnone, -⟩
    · rw [heq]
      exact ⟨rfl, rfl, rfl, rfl, rfl, rfl⟩
    · exact absurd hnone hne
  · have hz5 : z.inFlight = y.inFlight := hz.2.2.2.2.1
    rw [Voice.tested_of_ineligible (.inr (by rw [hz5]; exact hne))]
    exact hz
  · unfold Voice.withDry
    split
    · exact hz
    · exact hz

/-- A voice whose fill is COMPLETE stays so (R81). -/
theorem Voice.closing_complete {look : Nat → Option Region} {now : Nat} {y x w : Voice}
    (hx : y.pended now = some x) (hw : x.Tends look w) (h : y.fill = .complete) :
    w.fill = .complete ∧ w.n = y.n ∧ w.d = y.d := by
  refine Voice.closing_keeps (P := fun w => w.fill = .complete ∧ w.n = y.n ∧ w.d = y.d) ⟨h, rfl, rfl⟩ hx hw (fun h => h)
    (fun e _ _ => ?_) (fun ring z hz => ?_) fun n z hz => ?_
  · rcases Voice.faded_cases e { y with pendingEnd := none } with heq | ⟨-, heq⟩
    · rw [heq]
      exact ⟨h, rfl, rfl⟩
    · rw [heq]
      exact ⟨rfl, rfl, rfl⟩
  · rw [Voice.tested_of_ineligible (.inl (by rw [hz.1]; exact Fill.noConfusion))]
    exact hz
  · unfold Voice.withDry
    rw [if_pos hz.1]
    exact hz

/-- A voice that is not LATE does not go LATE after its dry point has been tested (R82). -/
theorem Voice.closing_notLate {look : Nat → Option Region} {now : Nat} {y x w : Voice}
    (hx : y.pended now = some x) (hw : x.Tends look w) (h : y.fill ≠ .late) : w.fill ≠ .late := by
  refine Voice.closing_keeps (P := fun w => w.fill ≠ .late) h hx hw (fun h => h)
    (fun e _ _ => ?_) (fun ring z hz => ?_) fun n z hz => ?_
  · rcases Voice.faded_cases e { y with pendingEnd := none } with heq | ⟨-, heq⟩
    · rw [heq]
      exact h
    · rw [heq]
      exact Fill.noConfusion
  · rcases z.tested_cases look ring with heq | ⟨-, heq⟩
    · rw [heq]
      exact hz
    · rw [heq, (Voice.advance_sameFill look z.issued).fill]
      exact hz
  · unfold Voice.withDry
    split <;> exact hz

/-- What a skip has made of a voice stands at the end of the tick event. -/
theorem Voice.Settles.closing {look : Nat → Option Region} {now : Nat} {x0 y x w : Voice} (h : x0.Settles look y)
    (hx : y.pended now = some x) (hw : x.Tends look w) : x0.Settles look w := by
  refine Voice.closing_keeps (P := x0.Settles look) h hx hw (fun h => ?_) (fun e h hfin => ?_)
    (fun ring z hz => hz.tested ring) fun n z hz => hz.withDry n
  · exact ⟨h.fill, h.dryFrame, h.d, h.flight, h.rest, h.fin, h.follow, h.runs⟩
  · have hnone : x0.fin.isSome → (some e : Option VoiceEnd) = x0.fin := fun hs => by
      have := h.fin hs
      rw [hfin] at this
      rw [← this] at hs
      cases hs
    rcases Voice.faded_cases e { y with pendingEnd := none } with heq | ⟨hflight, heq⟩
    · rw [heq]
      exact ⟨h.fill, h.dryFrame, h.d, h.flight, h.rest, hnone, fun hf => ⟨rfl, (h.follow hf).2⟩, h.runs⟩
    · rw [heq]
      exact ⟨Fill.noConfusion, rfl, h.d, h.flight, fun hc => ⟨(h.rest hc).1, rfl, rfl⟩, hnone,
        fun hf => ⟨rfl, (h.follow hf).2⟩, h.runs⟩

/-! ### The end, fixed or kept -/

/-- The end of `v`, once present, is kept in `w` (R24). -/
def Voice.EndKept (v w : Voice) : Prop := v.fin.isSome → w.fin = v.fin

theorem Voice.EndKept.trans {x y z : Voice} (a : x.EndKept y) (b : y.EndKept z) : x.EndKept z := fun h => by
  have hy := a h
  exact (b (by rw [hy]; exact h)).trans hy

theorem Voice.tested_endKept (look : Nat → Option Region) (ring : Nat) (v : Voice) : v.EndKept (v.tested look ring) := by
  rcases v.tested_cases look ring with heq | ⟨-, heq⟩
  · rw [heq]
    exact fun _ => rfl
  · rw [heq]
    exact (Voice.advance_kept look v.issued).1

theorem Voice.withDry_fields (v : Voice) (now : Nat) : (v.withDry now).fin = v.fin ∧ (v.withDry now).follow = v.follow := by
  unfold Voice.withDry
  split <;> exact ⟨rfl, rfl⟩

theorem Voice.passed_endKept (look : Nat → Option Region) (n : Nat) : ∀ v : Voice, v.EndKept (v.passed look n) := by
  induction n with
  | zero => exact fun _ _ => rfl
  | succ n ih =>
    intro v
    rw [Voice.passed]
    split
    · exact fun _ => rfl
    · exact Voice.EndKept.trans (x := v) (y := v.passedOver.advance look) (Voice.advance_kept look v.passedOver).1 (ih _)

theorem Voice.skipped_endKept (look : Nat → Option Region) (ring now : Nat) (v : Voice) :
    v.EndKept (v.skipped look ring now) := by
  unfold Voice.skipped
  split
  · exact v.passed_endKept look v.skipCount
  · refine (v.passed_endKept look v.skipCount).trans (Voice.EndKept.trans (y :=
      ({ v.passed look v.skipCount with fill := .filling, dryFrame := none } : Voice).withDry now) (fun _ => ?_)
      (Voice.tested_endKept look ring _))
    exact (Voice.withDry_fields _ now).1

theorem Voice.moved_endKept (look : Nat → Option Region) (ring now : Nat) (v : Voice) :
    v.EndKept (v.moved look ring now) := by
  unfold Voice.moved Voice.dried
  split
  · split
    · exact Voice.skipped_endKept look ring now v.advanced
    · exact fun _ => rfl
  · exact fun _ => rfl

theorem Voice.Tends.endKept {look : Nat → Option Region} {x w : Voice} (h : x.Tends look w) : x.EndKept w := by
  induction h with
  | refl => exact fun _ => rfl
  | tested ring _ ih => exact ih.trans (Voice.tested_endKept look ring _)
  | dry now _ ih => exact ih.trans fun _ => (Voice.withDry_fields _ now).1

theorem Voice.Tends.followKept {look : Nat → Option Region} {x w : Voice} (h : x.Tends look w) (hx : x.follow = none) :
    w.follow = none := by
  induction h with
  | refl => exact hx
  | @tested ring w _ ih =>
    rcases w.tested_cases look ring with heq | ⟨-, heq⟩
    · rw [heq]
      exact ih
    · rw [heq]
      exact ((Voice.advance_kept look w.issued).2.1 ih).1
  | dry now _ ih => exact (Voice.withDry_fields _ now).2.trans ih

theorem Voice.faded_end (e : VoiceEnd) (y : Voice) : (y.faded e).fin = some e ∧ (y.faded e).follow = none ∧
    (y.faded e).pendingEnd = y.pendingEnd := by
  rcases Voice.faded_cases e y with heq | ⟨-, heq⟩ <;>
  · rw [heq]
    exact ⟨rfl, rfl, rfl⟩

/-! ### The tick event of one voice, between those of the others -/

theorem find_voicesAfter_other {g j : Nat} (hj : j ≠ g) {o : Voice → Option Voice} {l : List Voice}
    (ht : ∀ v w, o v = some w → w.tag = v.tag) :
    (voicesAfter g o l).find? (·.tag == j) = l.find? (·.tag == j) := by
  cases h : l.find? (·.tag == g) with
  | none => rw [voicesAfter_of_none h]
  | some v =>
    cases ho : o v with
    | none =>
      rw [voicesAfter_of_leaves h ho, List.find?_filter]
      congr 1
      funext x
      by_cases hx : x.tag = j <;> simp [hx, hj]
    | some w =>
      rw [voicesAfter_of_stays h ho]
      have hw : w.tag = g := (ht v w ho).trans (find_tag h)
      clear ho h
      induction l with
      | nil => rfl
      | cons x xs ih =>
        by_cases hx : x.tag = g
        · rw [updateFirst, if_pos (by simpa using hx), List.find?_cons_of_neg (by simpa [hw] using hj.symm),
            List.find?_cons_of_neg (by simpa [hx] using hj.symm)]
        · rw [updateFirst, if_neg (by simpa using hx)]
          by_cases hxj : x.tag = j
          · rw [List.find?_cons_of_pos (by simpa using hxj), List.find?_cons_of_pos (by simpa using hxj)]
          · rw [List.find?_cons_of_neg (by simpa using hxj), List.find?_cons_of_neg (by simpa using hxj), ih]

theorem State.tickVoice_other (m : State) {g j : Nat} (hj : j ≠ g) :
    (m.tickVoice g).voice? j = m.voice? j ∧ (m.tickVoice g).look = m.look ∧ (m.tickVoice g).ringLength = m.ringLength ∧
      (m.tickVoice g).timebase = m.timebase ∧ Reported (· ≠ j) m (m.tickVoice g) := by
  have h := m.tickVoice_to (G := (· ≠ j)) g hj.symm
  refine ⟨?_, h.look, State.ringLength_congr h.step, h.step.timebase, h.notices⟩
  unfold State.voice?
  rw [h.voices, find_voicesAfter_other hj h.tag]

theorem State.tickVoices_other {j : Nat} (tags : List Nat) : ∀ m : State, j ∉ tags →
    (tags.foldl State.tickVoice m).voice? j = m.voice? j ∧ (tags.foldl State.tickVoice m).look = m.look ∧
      (tags.foldl State.tickVoice m).ringLength = m.ringLength ∧
      (tags.foldl State.tickVoice m).timebase = m.timebase ∧ Reported (· ≠ j) m (tags.foldl State.tickVoice m) := by
  induction tags with
  | nil => exact fun m _ => ⟨rfl, rfl, rfl, rfl, .refl m⟩
  | cons g tags ih =>
    intro m hj
    rw [List.mem_cons, not_or] at hj
    obtain ⟨hg, htags⟩ := hj
    obtain ⟨hv, hl, hr, ht, hn⟩ := m.tickVoice_other hg
    obtain ⟨hv', hl', hr', ht', hn'⟩ := ih (m.tickVoice g) htags
    exact ⟨hv'.trans hv, hl'.trans hl, hr'.trans hr, ht'.trans ht, hn.trans hn'⟩

theorem State.voice?_of_mem {s : State} {v : Voice} (hn : (s.voices.map (·.tag)).Nodup) (hv : v ∈ s.voices) :
    s.voice? v.tag = some v := by
  cases h : s.voice? v.tag with
  | none => exact absurd rfl (State.voice_none h hv)
  | some w => exact congrArg some (List.inj_on_of_nodup_map hn (State.voice_mem h) hv (State.voice_tag h))

/-- In whatever order the voices take a tick event, each takes it as it stood, with the region table as it was, between
what the others report (log entry 10). -/
theorem State.tickEvent_at (s : State) (order : List (BitVec 12)) {v : Voice} (hn : (s.voices.map (·.tag)).Nodup)
    (hv : v ∈ s.voices) : ∃ m : State, m.voice? v.tag = some v ∧ m.look = s.look ∧ m.ringLength = s.ringLength ∧
      m.timebase.tick = nextTick s.timebase.tick ∧ Reported (· ≠ v.tag) s m ∧
      Reported (· ≠ v.tag) (m.tickVoice v.tag) (s.tickEvent order) := by
  generalize hx : s.setTimebase { s.timebase with tick := nextTick s.timebase.tick } = x
  have hfields : x.voices = s.voices ∧ x.look = s.look ∧ x.ringLength = s.ringLength ∧
      x.timebase.tick = nextTick s.timebase.tick ∧ x.notices = s.notices := by
    rw [← hx]
    exact ⟨rfl, rfl, rfl, rfl, rfl⟩
  obtain ⟨hvoices, hlook, hring, htick, hnotices⟩ := hfields
  have hlast := s.tickEvent_notices order
  rw [hx] at hlast
  obtain ⟨pre, post, hsplit⟩ := List.append_of_mem (tickOrder_mem order s.voices v hv)
  have hnodup := tickOrder_nodup order s.voices hn
  rw [hsplit, List.nodup_append, List.nodup_cons] at hnodup
  obtain ⟨-, ⟨hpost, -⟩, hpre⟩ := hnodup
  have hpre' : v.tag ∉ pre := fun h => hpre _ h _ (List.mem_cons_self ..) rfl
  obtain ⟨hmv, hml, hmr, hmt, hmn⟩ := State.tickVoices_other pre x hpre'
  obtain ⟨-, -, -, -, hafter⟩ := State.tickVoices_other post ((pre.foldl State.tickVoice x).tickVoice v.tag) hpost
  rw [hsplit, List.foldl_append, List.foldl_cons] at hlast
  refine ⟨pre.foldl State.tickVoice x, hmv.trans ?_, hml.trans hlook, hmr.trans hring, ?_, (Reported.of_eq hnotices).trans hmn,
    hafter.trans (.of_eq hlast)⟩
  · unfold State.voice?
    rw [hvoices]
    exact State.voice?_of_mem hn hv
  · rw [hmt, htick]

/-- The records of a tag after the tick event: what it has made of the one that stood. -/
theorem filter_filterMap_tag {o : Voice → Option Voice} (ht : ∀ v w, o v = some w → w.tag = v.tag) {l : List Voice}
    (hn : (l.map (·.tag)).Nodup) {v : Voice} (hv : v ∈ l) :
    (l.filterMap o).filter (fun x => x.tag == v.tag) = (o v).toList := by
  have hout (xs : List Voice) (hxs : ∀ x ∈ xs, x.tag ≠ v.tag) :
      (xs.filterMap o).filter (fun x => x.tag == v.tag) = [] := by
    rw [List.filter_eq_nil_iff]
    intro x hx
    obtain ⟨y, hy, hox⟩ := List.mem_filterMap.1 hx
    simpa [ht y x hox] using hxs y hy
  induction l with
  | nil => cases hv
  | cons y ys ih =>
    rw [List.map_cons, List.nodup_cons] at hn
    obtain ⟨hy, hn⟩ := hn
    rcases List.mem_cons.1 hv with rfl | hv
    · have hrest := hout ys fun x hx hxt => hy (List.mem_map.2 ⟨x, hx, hxt⟩)
      rw [List.filterMap_cons]
      cases ho : o v with
      | none => exact hrest
      | some w =>
        dsimp only
        rw [List.filter_cons_of_pos (by simp [ht v w ho]), hrest]
        rfl
    · have hne : y.tag ≠ v.tag := fun h => hy (List.mem_map.2 ⟨v, hv, h.symm⟩)
      rw [List.filterMap_cons]
      cases ho : o y with
      | none => exact ih hn hv
      | some w =>
        dsimp only
        rw [List.filter_cons_of_neg (by simpa [ht y w ho] using hne)]
        exact ih hn hv

/-- `u` is what a command that makes a tick event leaves, `x` the station as the event finds it: the voices of `s`, the
counter before it. -/
structure State.TickedFrom (s x u : State) (order : List (BitVec 12)) : Prop where
  voices  : x.voices = s.voices
  tick    : x.timebase.tick = s.timebase.tick
  look    : x.look = s.look
  notices : x.notices = s.notices
  after   : u.voices = (x.tickEvent order).voices
  told    : ∀ G : Nat → Prop, Reported G (x.tickEvent order) u

theorem State.reportClock_kept {G : Nat → Prop} (s : State) (locked : Bool) :
    (s.reportClock locked).voices = s.voices ∧ Reported G s (s.reportClock locked) :=
  ⟨rfl, State.queueNotice_plain _ _ _ rfl⟩

theorem State.TickedFrom.of_set {s u : State} {t : Nat} {b : Timebase} {order : List (BitVec 12)}
    (hb : b.tick = s.timebase.tick) (hu : u.voices = (((s.atTime t).setTimebase b).tickEvent order).voices)
    (ht : ∀ G : Nat → Prop, Reported G (((s.atTime t).setTimebase b).tickEvent order) u) :
    s.TickedFrom ((s.atTime t).setTimebase b) u order := ⟨rfl, hb, rfl, rfl, hu, ht⟩

/-- A command that makes a tick event, whatever source makes the tick (R41 to R43, R46). -/
theorem State.ticksBy_from {s : State} {i : Instr} {c : Configuration} (hc : s.station.config = some c)
    (h : s.ticksBy c.rate i) : ∃ (x u : State) (order : List (BitVec 12)), exec i s = .next u ∧ s.TickedFrom x u order := by
  cases i with
  | dividerTick order =>
    have hexec : exec (.dividerTick order) s = .next (((s.atTime (s.timebase.tickDue c.rate)).setTimebase
        (s.timebase.dividerTicked c.rate)).tickEvent order).finish := by
      simp only [exec, execDividerTick, show s.timebase.source = .fallback from h, State.rate?_of hc]
    exact ⟨_, _, order, hexec, .of_set (Timebase.dividerTicked_tick _ _) (State.finish_voices _)
      fun G => State.finish_reported _⟩
  | standInTick order =>
    obtain ⟨hs, hr⟩ := h
    obtain ⟨e, he⟩ := Option.isSome_iff_exists.1 hr
    have hexec : exec (.standInTick order) s =
        .next ((s.atTime (standInDue c.rate e)).standIn (standInDue c.rate e) order).finish := by
      simp only [exec, execStandInTick, hs, State.rate?_of hc, he]
    generalize standInDue c.rate e = due at hexec
    have hstood : (s.atTime due).stoodIn due order = ((s.atTime due).setTimebase { s.timebase with
      reference := some due, standIn := s.timebase.standIn + 1 }).tickEvent order := rfl
    refine ⟨_, _, order, hexec, .of_set (b := { s.timebase with
      reference := some due, standIn := s.timebase.standIn + 1 }) rfl
      ((State.finish_voices _).trans (State.standIn_voices _ _ _)) fun G => ?_⟩
    refine Reported.trans ?_ (State.finish_reported _)
    rw [State.standIn_eq, ← hstood]
    split
    · exact (Reported.of_eq (State.setTimebase_notices _ _)).trans (State.queueNotice_plain _ _ _ rfl)
    · exact .refl _
  | filteredEdge t order =>
    have hexec := execFilteredEdge_of hc t order
    rcases h with ⟨hs, e, he, h1, h2⟩ | ⟨hs, hq, ⟨e, he, h1, h2⟩, hl⟩
    · have hedge : (s.atTime t).edge c.rate t order =
          ((s.atTime t).setTimebase { s.timebase with reference := some t, standIn := 0 }).tickEvent order := by
        simp [State.edge, hs, State.externalEdge, he, SessionRate.inTolerance, h1, h2]
      rw [hedge] at hexec
      exact ⟨_, _, order, hexec, .of_set (b := { s.timebase with reference := some t, standIn := 0 }) rfl
        (State.finish_voices _) fun G => State.finish_reported _⟩
    · have hk : s.timebase.edgeTicks c.rate t = true := by
        unfold Timebase.edgeTicks
        split
        · rfl
        next e' he' => simpa using hl e' he'
      have hcount : ¬s.timebase.qual + 1 < 256 := by omega
      have hedge : (s.atTime t).edge c.rate t order = (((s.atTime t).setTimebase { s.timebase with
          source := .external, qual := 256, prevEdge := some t, reference := some t, standIn := 0
          owedTick := false }).tickEvent order).reportClock true := by
        simp [State.edge, hs, State.fallbackEdge, Timebase.qualAfter, he, SessionRate.inTolerance, h1, h2, hcount,
          State.lock, hk]
      rw [hedge] at hexec
      exact ⟨_, _, order, hexec, .of_set (b := { s.timebase with
        source := .external, qual := 256, prevEdge := some t, reference := some t, standIn := 0
        owedTick := false }) rfl ((State.finish_voices _).trans (State.reportClock_kept (G := fun _ => True) _ true).1)
        fun G => (State.reportClock_kept _ true).2.trans (State.finish_reported _)⟩
  | _ => exact h.elim

end Sys2Proof.Machine
end

