-- ==== Sys2Proof/Proofs/Ticks.lean ====
section
/-! What a tick makes of the voices (O9, O10). -/

namespace Sys2Proof.Machine

/-! ### The parts of one voice's tick event -/

/-- A FADE tells the ENDPOINT of the end that it fixes (R147). -/
theorem State.fixFade_told {S x u : State} {y : Voice} {length : Nat} (before : NoticeStep S x)
    (after : NoticeStep (x.fixFade y length) u) : S.told u
      { addressee := y.requester, body := .endpoint y.tag (y.floorP + length) .fade, isOpen := false } := by
  generalize hx1 : x.updateVoice y.tag (fun v =>
    { v with fin := some { frame := y.floorP + length, cause := .fade }, follow := none }) = x1
  have hnotices : x1.notices = x.notices := by
    rw [← hx1]
    rfl
  have heq : x.fixFade y length = State.completeIfLimit (match y.follow with
      | some f => (x1.queueNotice y.requester (.endpoint y.tag (y.floorP + length) .fade)).releaseUse f.region
      | none => x1.queueNotice y.requester (.endpoint y.tag (y.floorP + length) .fade)) y.tag := by
    rw [← hx1]
    rfl
  rw [heq] at after
  refine State.told_queueNotice (t := x1) _ _ rfl (before.trans (.of_eq hnotices)) (NoticeStep.trans ?_ after)
  refine NoticeStep.trans ?_ (State.completeIfLimit_fills (G := fun _ => True) _ y.tag).notices.noticeStep
  cases y.follow with
  | none => exact .refl _
  | some f => exact .of_eq rfl

/-- A pending end that is due tells RETIRED CUT, REFUSED with STATE, or the ENDPOINT that it fixes (R32, R147, R148). -/
theorem State.applyPendingEnd_told {S z u : State} {y : Voice} {e : PendingEnd} (hy : z.voice? y.tag = some y)
    (he : y.pendingEnd = some e) (hle : e.atTick ≤ z.timebase.tick) (before : NoticeStep S z)
    (after : NoticeStep (z.applyPendingEnd y.tag) u) :
    (e.mode = .cut → S.told u
      { addressee := y.requester, body := .retired y.tag .cut y.floorP, isOpen := false }) ∧
    ∀ length, e.mode = .fade length →
      (y.fin.isSome → S.told u { addressee := y.requester, body := .refused 3 .state y.tag, isOpen := false }) ∧
      (y.fin = none → S.told u
        { addressee := y.requester, body := .endpoint y.tag (y.floorP + length) .fade, isOpen := false }) := by
  have heq : z.applyPendingEnd y.tag =
      (z.updateVoice y.tag fun v => { v with pendingEnd := none }).applyEnd y e.mode y.requester := by
    simp only [State.applyPendingEnd, hy, he, if_pos hle]
  have hfills := State.updateVoice_fills (G := fun _ => True) z y.tag (fun v => { v with pendingEnd := none })
    (fun _ => rfl) fun _ => rfl
  have hz := FillsTo.voice? hfills
  rw [hy, Option.map_some] at hz
  replace before := before.trans hfills.notices.noticeStep
  rw [heq] at after
  generalize z.updateVoice y.tag (fun v => { v with pendingEnd := none }) = x at *
  refine ⟨fun hm => ?_, fun length hm => ⟨fun hf => ?_, fun hf => ?_⟩⟩
  · rw [hm] at after
    exact State.told_retire (v := { y with pendingEnd := none }) hz RetireReason.noConfusion before after
  · have hrefuse : x.applyEnd y e.mode y.requester = x.queueNotice y.requester (.refused 3 .state y.tag) := by
      simp only [State.applyEnd, hm, if_pos hf]
      rfl
    rw [hrefuse] at after
    exact State.told_queueNotice _ _ rfl before after
  · have hfix : x.applyEnd y e.mode y.requester = x.fixFade y length := by
      simp [State.applyEnd, hm, hf]
    rw [hfix] at after
    exact State.fixFade_told before after

theorem Voice.moved_core (look : Nat → Option Region) (ring now : Nat) (v : Voice) :
    v.advanced.SameCore (v.moved look ring now) := by
  unfold Voice.moved
  split
  · exact Voice.dried_core look ring now v.advanced
  · exact .refl _

/-- The station once a RUNNING voice has advanced and its dry point has been tested (R58, R82). -/
def State.tickMoved (m : State) (v : Voice) : State :=
  if v.advanced.fill = .filling && v.advanced.atDryPoint then (m.updateVoice v.tag Voice.advanced).dryEvent v.advanced
  else m.updateVoice v.tag Voice.advanced

theorem State.tickRunning_eq (m : State) {v : Voice} (hends : v.ends = false) :
    m.tickRunning v = ((m.tickMoved v).applyPendingEnd v.tag).afterTick v := by
  obtain ⟨hl, hd⟩ : ¬limitFrame ≤ v.advanced.floorP ∧
      ¬(v.advanced.fin.any fun e => e.frame ≤ v.advanced.floorP) = true := by
    simpa [Voice.ends] using hends
  simp only [State.tickRunning, if_neg hl, if_neg hd]
  rfl

theorem State.advanced_voice {m : State} {v : Voice} (hv : m.voice? v.tag = some v) :
    (m.updateVoice v.tag Voice.advanced).voice? v.advanced.tag = some v.advanced := by
  have h := FillsTo.voice? (State.updateVoice_fills (G := fun _ => True) m v.tag Voice.advanced (fun _ => rfl)
    fun _ => rfl)
  rwa [hv, Option.map_some] at h

theorem State.tickMoved_fills {G : Nat → Prop} {m : State} {v : Voice} (hv : m.voice? v.tag = some v) (hG : G v.tag) :
    FillsTo G v.tag (·.moved m.look m.ringLength m.timebase.tick) m (m.tickMoved v) := by
  have h1 := m.updateVoice_fills (G := G) v.tag Voice.advanced (fun _ => rfl) fun _ => rfl
  unfold State.tickMoved
  split
  next hdry =>
    refine (h1.trans (State.dryEvent_fills (G := G) _ v.advanced (State.advanced_voice hv) hG)).congr (fun w hw => ?_)
      fun w => Voice.moved_tag _ _ _ w
    rw [hv] at hw
    cases hw
    simp only [Voice.moved, if_pos hdry, Function.comp, h1.look]
    rfl
  next hdry =>
    refine h1.congr (fun w hw => ?_) fun w => Voice.moved_tag _ _ _ w
    rw [hv] at hw
    cases hw
    simp only [Voice.moved, if_neg hdry]

theorem State.tickMoved_voice {m : State} {v : Voice} (hv : m.voice? v.tag = some v) :
    (m.tickMoved v).voice? v.tag = some (v.moved m.look m.ringLength m.timebase.tick) ∧
      (m.tickMoved v).timebase = m.timebase := by
  have hfills := State.tickMoved_fills (G := fun _ => True) hv trivial
  have hz := FillsTo.voice? hfills
  rw [hv, Option.map_some] at hz
  exact ⟨hz, hfills.step.timebase⟩

/-- A pending end that leaves its voice in use closes no notice of it (R33, R147). -/
theorem State.applyPendingEnd_reported {G : Nat → Prop} {z : State} {y x : Voice} {g now : Nat}
    (hz : z.voice? g = some y) (hnow : z.timebase.tick = now) (hx : y.pended now = some x) :
    Reported G z (z.applyPendingEnd g) := by
  subst hnow
  obtain rfl : y.tag = g := State.voice_tag hz
  unfold State.applyPendingEnd
  rw [hz]
  dsimp only
  split
  next => exact .refl z
  next e he =>
    split
    next hle =>
      obtain ⟨hcut, -, -⟩ := Voice.pended_due he hle
      have hfills := State.updateVoice_fills (G := G) z y.tag (fun v => { v with pendingEnd := none })
        (fun _ => rfl) fun _ => rfl
      have hz1 := FillsTo.voice? hfills
      rw [hz, Option.map_some] at hz1
      refine hfills.notices.trans ?_
      unfold State.applyEnd
      split
      next hm =>
        rw [hcut hm] at hx
        cases hx
      next length hm =>
        split
        next => exact State.queueNotice_plain _ _ _ rfl
        next =>
          exact (State.fixFade_fills (G := G) _ ({ y with pendingEnd := none } : Voice) length hz1).notices
    next => exact .refl z

/-- The tests at the end of a RUNNING voice's tick event, after its pending end, report no UNDERRUN. -/
theorem State.closing_reported {G : Nat → Prop} (x : State) (before : Voice) : Reported G x (x.afterTick before) :=
  (State.afterTick_fills (G := G) x before).notices

/-- The voice comes to the test of its pending end as the record that it has then (R58, R59). -/
theorem State.tickVoice_arrives {m : State} {v y : Voice} (hv : m.voice? v.tag = some v)
    (hy : v.arrived m.look m.ringLength m.timebase.tick = some y) : ∃ z : State, z.voice? v.tag = some y ∧
      z.timebase.tick = m.timebase.tick ∧ NoticeStep m z ∧ NoticeStep (z.applyPendingEnd v.tag) (m.tickVoice v.tag) := by
  unfold Voice.arrived at hy
  cases hstate : v.state with
  | running =>
    have htick : m.tickVoice v.tag = m.tickRunning v := by simp only [State.tickVoice, hv, hstate]
    rw [hstate] at hy
    dsimp only at hy
    by_cases hends : v.ends = true
    · rw [if_pos hends] at hy
      cases hy
    · rw [if_neg hends] at hy
      cases hy
      have hfills := State.tickMoved_fills (G := fun _ => True) hv trivial
      have hz := FillsTo.voice? hfills
      rw [hv, Option.map_some] at hz
      refine ⟨m.tickMoved v, hz, by rw [hfills.step.timebase], hfills.notices.noticeStep, ?_⟩
      rw [htick, m.tickRunning_eq (by simpa using hends)]
      exact (State.closing_reported (G := fun _ => True) _ v).noticeStep
  | scheduled start =>
    have htick : m.tickVoice v.tag = (m.startScheduled v start).applyPendingEnd v.tag := by
      simp only [State.tickVoice, hv, hstate]
    have hfills := m.startScheduled_fills (G := fun _ => True) v start
    have hz := FillsTo.voice? hfills
    rw [hstate] at hy
    cases hy
    rw [hv, Option.map_some] at hz
    refine ⟨m.startScheduled v start, hz, by rw [hfills.step.timebase], hfills.notices.noticeStep, ?_⟩
    rw [htick]
    exact .refl _
  | armed =>
    have htick : m.tickVoice v.tag = m.applyPendingEnd v.tag := by simp only [State.tickVoice, hv, hstate]
    rw [hstate] at hy
    cases hy
    exact ⟨m, hv, rfl, .refl _, htick ▸ .refl _⟩

theorem Voice.arrived_core {look : Nat → Option Region} {ring now : Nat} {v y : Voice}
    (hy : v.arrived look ring now = some y) : y.tag = v.tag ∧ y.requester = v.requester ∧ y.pendingEnd = v.pendingEnd ∧
      y.r = (if v.state = .running then v.glided else v.r) ∧ v.EndKept y := by
  unfold Voice.arrived at hy
  cases hstate : v.state with
  | running =>
    rw [hstate] at hy
    dsimp only at hy
    split at hy
    · cases hy
    · cases hy
      have hcore := Voice.moved_core look ring now v
      exact ⟨hcore.tag, hcore.requester, hcore.pendingEnd, hcore.r, Voice.moved_endKept look ring now v⟩
  | scheduled start =>
    rw [hstate] at hy
    cases hy
    split
    · have hcore := Voice.withDry_core ({ v with state := .running, p := 0 } : Voice) now
      exact ⟨hcore.tag, hcore.requester, hcore.pendingEnd, hcore.r, fun _ => (Voice.withDry_fields _ now).1⟩
    · exact ⟨rfl, rfl, rfl, rfl, fun _ => rfl⟩
  | armed =>
    rw [hstate] at hy
    cases hy
    exact ⟨rfl, rfl, rfl, rfl, fun _ => rfl⟩

theorem Voice.closed_tag {look : Nat → Option Region} {ring now : Nat} {v w : Voice}
    (h : v.closed look ring now = some w) : w.tag = v.tag := by
  obtain ⟨x, hx, rfl⟩ := Option.map_eq_some_iff.1 h
  refine Eq.trans ?_ (Voice.ticked_tag hx)
  unfold Voice.heldAt
  split
  · exact (Voice.withDry_core x now).tag
  · rfl

/-- A command that makes a tick event leaves at most one record of a voice's tag, the closed one, and the voice's own
event tells what it tells between the others'. -/
theorem State.tick_outcome {s : State} {i : Instr} {c : Configuration} {v : Voice} (hc : s.station.config = some c)
    (hi : s.ticksBy c.rate i) (hs : s.tagsLawful) (hv : v ∈ s.voices) : ∃ (u m : State), exec i s = .next u ∧
      u.voices.filter (fun x => x.tag == v.tag) = (v.closed s.look m.ringLength (nextTick s.timebase.tick)).toList ∧
      m.voice? v.tag = some v ∧ m.look = s.look ∧ m.timebase.tick = nextTick s.timebase.tick ∧
      Reported (· ≠ v.tag) s m ∧ Reported (· ≠ v.tag) (m.tickVoice v.tag) u := by
  obtain ⟨x, u, order, hexec, hx⟩ := State.ticksBy_from hc hi
  have hn : (x.voices.map (·.tag)).Nodup := hx.voices ▸ hs.1
  have hvx : v ∈ x.voices := hx.voices ▸ hv
  obtain ⟨m, hm, hlook, hring, htick, hbefore, hafter⟩ := x.tickEvent_at order hn hvx
  refine ⟨u, m, hexec, ?_, hm, hlook.trans hx.look, htick.trans (congrArg nextTick hx.tick),
    (Reported.of_eq hx.notices).trans hbefore, hafter.trans (hx.told _)⟩
  rw [hx.after, x.tickEvent_voices order hn, List.map_filterMap, hring, hx.look, hx.tick]
  exact filter_filterMap_tag (o := fun v => v.closed s.look x.ringLength (nextTick s.timebase.tick))
    (fun v w h => Voice.closed_tag h) hn hvx

theorem not_mem_of_filter {l : List Voice} {g : Nat} (h : l.filter (fun x => x.tag == g) = []) : ∀ w ∈ l, w.tag ≠ g :=
  fun w hw ht => List.filter_eq_nil_iff.1 h w hw (by simpa using ht)

theorem eq_of_filter {l : List Voice} {g : Nat} {x : Voice} (h : l.filter (fun x => x.tag == g) = [x]) {w : Voice}
    (hw : w ∈ l) (ht : w.tag = g) : w = x := by
  have : w ∈ l.filter (fun x => x.tag == g) := List.mem_filter.2 ⟨hw, by simpa using ht⟩
  rw [h] at this
  exact List.mem_singleton.1 this

/-! ### RUNNING voices -/

theorem Voice.ends_iff (v : Voice) : v.ends = true ↔
    4294901760 ≤ (v.p + v.r) / 65536 ∨ ∃ e, v.fin = some e ∧ e.frame ≤ (v.p + v.r) / 65536 := by
  unfold Voice.ends limitFrame
  rw [Bool.or_eq_true, decide_eq_true_eq]
  refine or_congr Iff.rfl ?_
  show (v.fin.any fun e => decide (e.frame ≤ (v.p + v.r) / 65536)) = true ↔ _
  cases v.fin <;> simp

/-- The retirement at the position limit or at the end is told (R32, R58, R60). -/
theorem State.tickRunning_told {S m u : State} {v : Voice} (hv : m.voice? v.tag = some v) (before : NoticeStep S m)
    (after : NoticeStep (m.tickRunning v) u) (hends : v.ends = true) {reason : RetireReason}
    (hlimit : 4294901760 ≤ (v.p + v.r) / 65536 → reason = .limit)
    (hdone : ¬4294901760 ≤ (v.p + v.r) / 65536 → reason = .done) : S.told u
      { addressee := v.requester, body := .retired v.tag reason ((v.p + v.r) / 65536), isOpen := false } := by
  have hx := State.advanced_voice hv
  replace before : NoticeStep S (m.updateVoice v.tag Voice.advanced) := before.trans (.of_eq rfl)
  by_cases hl : limitFrame ≤ v.advanced.floorP
  · have heq : m.tickRunning v = (m.updateVoice v.tag Voice.advanced).retire v.advanced.tag .limit := by
      simp only [State.tickRunning, if_pos hl]
      rfl
    rw [heq] at after
    rw [hlimit hl]
    exact State.told_retire hx RetireReason.noConfusion before after
  · have hd : (v.advanced.fin.any fun e => e.frame ≤ v.advanced.floorP) = true := by
      simpa [Voice.ends, hl] using hends
    have heq : m.tickRunning v = (m.updateVoice v.tag Voice.advanced).retire v.advanced.tag .done := by
      simp only [State.tickRunning, if_neg hl, if_pos hd]
      rfl
    rw [heq] at after
    rw [hdone hl]
    exact State.told_retire hx RetireReason.noConfusion before after

/-- What the fill of a RUNNING voice is by the end of its tick event, and what its dry event tells (R82, R84 to R86). -/
theorem State.tickRunning_fills {S m u : State} {v x w : Voice} (hv : m.voice? v.tag = some v) (hlook : m.look = S.look)
    (hrun : v.state = .running) (hends : v.ends = false) (before : Reported (· ≠ v.tag) S m)
    (after : Reported (· ≠ v.tag) (m.tickVoice v.tag) u)
    (hx : (v.moved m.look m.ringLength m.timebase.tick).pended m.timebase.tick = some x)
    (hw : x.Tends m.look w) :
    (v.fill = .filling → (v.p + v.r) / 65536 + 4 < v.s0 + 1024 * v.d → w.fill ≠ .late) ∧
    (v.fill = .filling → v.s0 + 1024 * v.d ≤ (v.p + v.r) / 65536 + 4 →
      (v.inFlight.isSome → w.fill = .late ∧ w.dryFrame = some (v.s0 + 1024 * v.d) ∧ w.n = v.n ∧ w.d = v.d ∧
        w.inFlight = v.inFlight ∧ w.cursor = v.cursor ∧ S.toldUnderrun u v (v.s0 + 1024 * v.d) 0 1) ∧
      (v.inFlight = none → v.n = v.d → v.cursor.isSome →
        S.skips u v w ((v.p + v.r) / 65536) (v.s0 + 1024 * v.d) 1)) ∧
    (v.fill = .late → v.inFlight.isSome → w.fill = .late ∧ w.dryFrame = v.dryFrame ∧ w.n = v.n ∧ w.d = v.d) ∧
    (v.fill = .complete → w.fill = .complete ∧ w.n = v.n ∧ w.d = v.d) := by
  have stays (h : ¬(v.advanced.fill = .filling ∧ v.advanced.atDryPoint = true)) :
      v.moved m.look m.ringLength m.timebase.tick = v.advanced := by
    unfold Voice.moved
    rw [if_neg (by simpa using h)]
  refine ⟨fun hf hlt => ?_, fun hf hdry => ?_, fun hf hflight => ?_, fun hf => ?_⟩
  · have hmoved := stays fun h => by
      have hge : v.s0 + 1024 * v.d ≤ (v.p + v.r) / 65536 + 4 := of_decide_eq_true h.2
      omega
    rw [hmoved] at hx
    exact Voice.closing_notLate hx hw (by rw [show v.advanced.fill = v.fill from rfl, hf]; exact Fill.noConfusion)
  · have hcond : (decide (v.advanced.fill = .filling) && v.advanced.atDryPoint) = true := by
      rw [Bool.and_eq_true]
      exact ⟨decide_eq_true hf, decide_eq_true hdry⟩
    have hmoved : v.moved m.look m.ringLength m.timebase.tick =
        v.advanced.dried m.look m.ringLength m.timebase.tick := by
      unfold Voice.moved
      rw [if_pos hcond]
    have hstate : m.tickMoved v = (m.updateVoice v.tag Voice.advanced).dryEvent v.advanced := by
      unfold State.tickMoved
      rw [if_pos hcond]
    have htick : m.tickVoice v.tag = ((m.tickMoved v).applyPendingEnd v.tag).afterTick v := by
      rw [← m.tickRunning_eq hends]
      simp only [State.tickVoice, hv, hrun]
    have hupdate := State.updateVoice_fills (G := (· ≠ v.tag)) m v.tag Voice.advanced (fun _ => rfl) fun _ => rfl
    have hstill : w.tag = v.tag := by
      have hcore := Voice.closing_sameRun hx hw
      exact hcore.1.trans (Voice.moved_core _ _ _ v).tag
    have hpend : Reported (· ≠ v.tag) (m.tickMoved v) ((m.tickMoved v).applyPendingEnd v.tag) :=
      State.applyPendingEnd_reported (State.tickMoved_voice hv).1 (by rw [(State.tickMoved_voice hv).2]) hx
    have hrest : Reported (· ≠ v.tag) (m.tickMoved v) u := by
      rw [htick] at after
      exact (hpend.trans (State.closing_reported _ v)).trans after
    rw [hstate] at hrest
    rw [hmoved] at hx
    refine ⟨fun hflight => ?_, fun hflight hn hcursor => ?_⟩
    · have hne : v.advanced.inFlight.isNone = false := by
        rw [show v.advanced.inFlight = v.inFlight from rfl]
        simpa using hflight
      have hdried : v.advanced.dried m.look m.ringLength m.timebase.tick =
          { v.advanced with fill := .late, dryFrame := some (v.s0 + 1024 * v.d) } := by
        unfold Voice.dried
        rw [hne]
        rfl
      rw [hdried] at hx
      obtain ⟨hwf, hwdf, hwn, hwd, hwi, hwc⟩ := Voice.closing_waits hx hw hflight
      refine ⟨hwf, hwdf, hwn, hwd, hwi, hwc, ?_⟩
      have hevent : (m.updateVoice v.tag Voice.advanced).dryEvent v.advanced =
          ((m.updateVoice v.tag Voice.advanced).updateVoice v.tag fun w =>
            { w with fill := .late, dryFrame := some (v.s0 + 1024 * v.d) }).reportUnderrun v.advanced
              (v.s0 + 1024 * v.d) 0 1 := by
        unfold State.dryEvent
        rw [hne]
        rfl
      rw [hevent] at hrest
      generalize hz : (m.updateVoice v.tag Voice.advanced).updateVoice v.tag (fun w =>
        { w with fill := .late, dryFrame := some (v.s0 + 1024 * v.d) }) = z at hrest
      exact State.toldUnderrun_of_reported (G := (· ≠ v.tag)) (t := z) (w := v.advanced) (by simp) rfl rfl
        (before.trans (hupdate.notices.trans (.of_eq (hz ▸ rfl)))) hrest
    · have hnone : v.advanced.inFlight.isNone = true := by
        rw [show v.advanced.inFlight = v.inFlight from rfl, hflight]
        rfl
      have hdried : v.advanced.dried m.look m.ringLength m.timebase.tick =
          v.advanced.skipped m.look m.ringLength m.timebase.tick := by
        unfold Voice.dried
        rw [if_pos hnone]
      rw [hdried] at hx
      have hsettles : (v.advanced.passed m.look v.advanced.skipCount).Settles m.look w :=
        (Voice.Settles.skipped (v := v.advanced) hflight hn m.ringLength m.timebase.tick).closing hx hw
      have hevent : (m.updateVoice v.tag Voice.advanced).dryEvent v.advanced =
          (m.updateVoice v.tag Voice.advanced).skip v.advanced.tag (v.s0 + 1024 * v.d) 1 := by
        unfold State.dryEvent
        rw [if_pos hnone]
        rfl
      rw [hevent] at hrest
      rw [hlook] at hsettles
      exact State.skips_of_skip (v := v.advanced) (State.advanced_voice hv) (hupdate.look.trans hlook) hn hcursor hdry
        (before.trans hupdate.notices) hrest hsettles
  · have hmoved := stays fun h => by
      rw [show v.advanced.fill = v.fill from rfl, hf] at h
      cases h.1
    rw [hmoved] at hx
    obtain ⟨hwf, hwdf, hwn, hwd, -⟩ := Voice.closing_waits hx hw (y := v.advanced) hflight
    exact ⟨hwf.trans hf, hwdf, hwn, hwd⟩
  · have hmoved := stays fun h => by
      rw [show v.advanced.fill = v.fill from rfl, hf] at h
      cases h.1
    rw [hmoved] at hx
    exact Voice.closing_complete (y := v.advanced) hx hw hf

/-- A pending end takes its voice away by a CUT that is due, and in no other way (R25). -/
theorem Voice.pended_none {y : Voice} {now : Nat} (h : y.pended now = none) :
    ∃ e, y.pendingEnd = some e ∧ e.mode = .cut ∧ e.atTick ≤ now := by
  by_cases hdue : ∃ e, y.pendingEnd = some e ∧ e.atTick ≤ now
  · obtain ⟨e, he, hle⟩ := hdue
    obtain ⟨-, hpresent, habsent⟩ := Voice.pended_due he hle
    refine ⟨e, he, ?_, hle⟩
    cases hm : e.mode with
    | cut => rfl
    | fade length =>
      by_cases hf : y.fin.isSome
      · rw [hpresent length hm hf] at h
        cases h
      · rw [habsent length hm (by simpa using hf)] at h
        cases h
  · rw [Voice.pended_held fun e he => Nat.lt_of_not_le fun hle => hdue ⟨e, he, hle⟩] at h
    cases h

/-- Settles O9. -/
theorem tickAdvancesRunningVoices : Obligations.TickAdvancesRunningVoices := by
  intro s i c v p r limit done cut hc hi hs hv hrun hp hr hlimit hdone hcut
  obtain ⟨u, m, hexec, hfilter, hm, hlook, htick, hbefore, hafter⟩ := State.tick_outcome hc hi hs hv
  rw [← nextTick_eq] at hcut
  rw [← htick, ← hlook] at hfilter
  rw [← htick] at hcut
  have htickv : m.tickVoice v.tag = m.tickRunning v := by simp only [State.tickVoice, hm, hrun]
  have hends : v.ends = true ↔ limit ∨ done := by rw [Voice.ends_iff, hlimit, hdone, hp]
  have hadvanced : v.glided = r := hr.symm
  subst hp
  refine ⟨u, hexec, fun hgone => ?_, fun hstays => ?_⟩
  · have hclosed : v.closed m.look m.ringLength m.timebase.tick = none := by
      rcases v.closed_cases m.look m.ringLength m.timebase.tick with ⟨h, -⟩ | ⟨y, x, w, hy, hx, -, -⟩
      · exact h
      · exfalso
        unfold Voice.arrived at hy
        rw [hrun] at hy
        dsimp only at hy
        split at hy
        next => cases hy
        next hne =>
          cases hy
          obtain ⟨a, ha, hle⟩ := hcut.1 (hgone.elim (fun h => absurd (hends.2 (.inl h)) hne)
            fun h => h.elim (fun h => absurd (hends.2 (.inr h)) hne) id)
          have hpe := (Voice.moved_core m.look m.ringLength m.timebase.tick v).pendingEnd
          rw [(Voice.pended_due (hpe.trans ha) hle).1 rfl] at hx
          cases hx
    rw [hclosed] at hfilter
    refine ⟨not_mem_of_filter hfilter, fun reason h1 h2 h3 => ?_⟩
    by_cases he : v.ends = true
    · rw [htickv] at hafter
      refine State.tickRunning_told hm hbefore.noticeStep hafter.noticeStep he (fun h => h1 (hlimit.2 h)) fun h => ?_
      have hnl : ¬limit := fun hl => h (hlimit.1 hl)
      exact h2 hnl ((hends.1 he).resolve_left hnl)
    · have hno : ¬limit ∧ ¬done := not_or.1 fun h => he (hends.2 h)
      obtain ⟨a, ha, hle⟩ := hcut.1 (hgone.elim (fun h => absurd h hno.1) fun h => h.resolve_left hno.2)
      obtain ⟨z, hz, hztick, hmz, hzm⟩ := State.tickVoice_arrives hm
        (y := v.moved m.look m.ringLength m.timebase.tick) (by
          unfold Voice.arrived
          rw [hrun]
          exact if_neg he)
      have hcore := Voice.moved_core m.look m.ringLength m.timebase.tick v
      rw [h3 hno.1 hno.2]
      have htag : (v.moved m.look m.ringLength m.timebase.tick).tag = v.tag := hcore.tag
      have htold := (State.applyPendingEnd_told (y := v.moved m.look m.ringLength m.timebase.tick) (htag ▸ hz)
        (hcore.pendingEnd.trans ha) (by rw [hztick]; exact hle) (hbefore.noticeStep.trans hmz)
        (htag ▸ hzm.trans hafter.noticeStep)).1 rfl
      have hfloor : (v.moved m.look m.ringLength m.timebase.tick).floorP = (v.p + v.r) / 65536 := by
        unfold Voice.floorP
        rw [hcore.p]
        rfl
      rw [htag, hcore.requester, hfloor] at htold
      exact htold
  · have he : v.ends = false := by
      have : ¬v.ends = true := fun h => hstays ((hends.1 h).elim .inl fun h => .inr (.inl h))
      simpa using this
    rcases v.closed_cases m.look m.ringLength m.timebase.tick with ⟨-, hnone⟩ | ⟨y, x, w, hy, hx, hw, hclosed⟩
    · exfalso
      unfold Voice.arrived at hnone
      rw [hrun, he] at hnone
      have hpe := (Voice.moved_core m.look m.ringLength m.timebase.tick v).pendingEnd
      have hheld := Voice.pended_none hnone
      obtain ⟨e, hpend, hmode, hle⟩ := hheld
      refine hstays (.inr (.inr (hcut.2 ⟨e.atTick, ?_, hle⟩)))
      rw [← hmode]
      exact hpe.symm.trans hpend
    · have hyv : y = v.moved m.look m.ringLength m.timebase.tick := by
        unfold Voice.arrived at hy
        rw [hrun, he] at hy
        exact (Option.some.inj hy).symm
      subst hyv
      rw [hclosed] at hfilter
      obtain ⟨htag, hrecord, hrequester, hstate, hs0, hpw, hrw, htarget, hstep⟩ :=
        (Voice.moved_core m.look m.ringLength m.timebase.tick v).sameRun.trans (Voice.closing_sameRun hx hw)
      exact ⟨w, hfilter, hstate.trans hrun, hpw, hrw.trans hadvanced, htarget, hstep, hrecord, hrequester, hs0,
        State.tickRunning_fills hm hlook hrun he hbefore hafter hx hw⟩

/-! ### SCHEDULED and ARMED voices, and pending ends -/

/-- A voice that is not RUNNING, or RUNNING and short of its end, arrives at the test of its pending end (R58, R59). -/
theorem Voice.arrived_of_waits {look : Nat → Option Region} {ring now : Nat} {v : Voice} (h : v.state ≠ .running) :
    ∃ y, v.arrived look ring now = some y ∧ (∀ start, v.state = .scheduled start →
      (start ≤ now → y.state = .running ∧ y.p = 0) ∧ (now < start → y.state = v.state ∧ y.p = v.p)) ∧
      (v.state = .armed → y.state = v.state ∧ y.p = v.p) ∧ (v.p = 0 → y.p = 0) := by
  unfold Voice.arrived
  cases hstate : v.state with
  | running => exact absurd hstate h
  | armed =>
    exact ⟨v, rfl, fun start hs => (by cases hs), fun _ => ⟨hstate, rfl⟩, id⟩
  | scheduled start =>
    refine ⟨_, rfl, fun start' hs => ?_, fun ha => (by cases ha), fun h0 => ?_⟩
    · cases hs
      refine ⟨fun hle => ?_, fun hlt => ?_⟩
      · rw [if_pos hle]
        have hcore := Voice.withDry_core ({ v with state := .running, p := 0 } : Voice) now
        exact ⟨hcore.state, hcore.p⟩
      · rw [if_neg (Nat.not_le.2 hlt)]
        exact ⟨hstate, rfl⟩
    · split
      · exact (Voice.withDry_core ({ v with state := .running, p := 0 } : Voice) now).p
      · exact h0

/-- A voice without an end arrives without one, unless it skips at this tick (R75, R82). -/
theorem Voice.arrived_endless {look : Nat → Option Region} {ring now : Nat} {v y : Voice}
    (hy : v.arrived look ring now = some y) (hfin : v.fin = none)
    (hskip : v.state = .running → v.fill = .filling → v.inFlight = none → y.p / 65536 + 4 < v.firstMissing) :
    y.fin = none := by
  unfold Voice.arrived at hy
  cases hstate : v.state with
  | running =>
    rw [hstate] at hy
    dsimp only at hy
    split at hy
    next => cases hy
    next =>
      cases hy
      have hp : (v.moved look ring now).p = v.advanced.p := (Voice.moved_core look ring now v).p
      rw [hp] at hskip
      unfold Voice.moved Voice.dried
      split
      next hdry =>
        rw [Bool.and_eq_true] at hdry
        split
        next hflight =>
          have := hskip hstate (of_decide_eq_true hdry.1) (Option.isNone_iff_eq_none.1 hflight)
          have hge : v.firstMissing ≤ v.advanced.p / 65536 + 4 := of_decide_eq_true hdry.2
          omega
        next => exact hfin
      next => exact hfin
  | scheduled start =>
    rw [hstate] at hy
    cases hy
    split
    · exact (Voice.withDry_fields _ now).1.trans hfin
    · exact hfin
  | armed =>
    rw [hstate] at hy
    cases hy
    exact hfin

/-- What a pending end has become by the end of the tick event (R25). -/
theorem Voice.closing_pendingEnd {look : Nat → Option Region} {now : Nat} {y x w : Voice} (hx : y.pended now = some x)
    (hw : x.Tends look w) {e : PendingEnd} (he : y.pendingEnd = some e) :
    (now < e.atTick → w.pendingEnd = some e) ∧ (e.atTick ≤ now → w.pendingEnd = none) := by
  rw [hw.core.pendingEnd]
  refine ⟨fun hlt => ?_, fun hle => ?_⟩
  · rw [Voice.pended_held fun e' he' => by rw [he] at he'; cases he'; exact hlt] at hx
    cases hx
    exact he
  · obtain ⟨hcut, hpresent, habsent⟩ := Voice.pended_due he hle
    cases hm : e.mode with
    | cut =>
      rw [hcut hm] at hx
      cases hx
    | fade length =>
      by_cases hf : y.fin.isSome
      · rw [hpresent length hm hf] at hx
        cases hx
        rfl
      · rw [habsent length hm (by simpa using hf)] at hx
        cases hx
        exact (Voice.faded_end _ _).2.2

/-- A FADE that is due keeps an end that is present, and fixes an absent one with the follow slot emptied (R147,
R148). -/
theorem Voice.closing_fade {look : Nat → Option Region} {now length a : Nat} {y x w : Voice}
    (hx : y.pended now = some x) (hw : x.Tends look w)
    (he : y.pendingEnd = some { mode := .fade length, atTick := a }) (hle : a ≤ now) :
    (y.fin.isSome → w.fin = y.fin) ∧
      (y.fin = none → w.fin = some { frame := y.p / 65536 + length, cause := .fade } ∧ w.follow = none) := by
  obtain ⟨-, hpresent, habsent⟩ := Voice.pended_due he hle
  refine ⟨fun hf => ?_, fun hf => ?_⟩
  · rw [hpresent length rfl hf] at hx
    cases hx
    exact hw.endKept hf
  · rw [habsent length rfl hf] at hx
    cases hx
    obtain ⟨hfin, hfollow, -⟩ := Voice.faded_end { frame := y.floorP + length, cause := .fade }
      ({ y with pendingEnd := none } : Voice)
    exact ⟨(hw.endKept (by rw [hfin]; rfl)).trans hfin, hw.followKept hfollow⟩

/-- Settles O10. -/
theorem ticksStartVoicesAndApplyEnds : Obligations.TicksStartVoicesAndApplyEnds := by
  intro s i c v tick hc hi hs hv htickEq
  obtain ⟨u, m, hexec, hfilter, hm, hlook, htick, hbefore, hafter⟩ := State.tick_outcome hc hi hs hv
  rw [← nextTick_eq, ← htick] at htickEq
  rw [← htick, ← hlook] at hfilter
  subst htickEq
  have told {y : Voice} (hy : v.arrived m.look m.ringLength m.timebase.tick = some y) {e : PendingEnd}
      (he : v.pendingEnd = some e) (hle : e.atTick ≤ m.timebase.tick) :
      (e.mode = .cut → s.told u
        { addressee := v.requester, body := .retired v.tag .cut y.floorP, isOpen := false }) ∧
      ∀ length, e.mode = .fade length →
        (y.fin.isSome → s.told u { addressee := v.requester, body := .refused 3 .state v.tag, isOpen := false }) ∧
        (y.fin = none → s.told u
          { addressee := v.requester, body := .endpoint v.tag (y.floorP + length) .fade, isOpen := false }) := by
    obtain ⟨z, hz, hztick, hmz, hzm⟩ := State.tickVoice_arrives hm hy
    obtain ⟨htag, hrequester, hpend, -⟩ := Voice.arrived_core hy
    rw [← htag, ← hrequester]
    exact State.applyPendingEnd_told (z := z) (htag ▸ hz) (hpend.trans he) (hztick ▸ hle) (hbefore.noticeStep.trans hmz)
      (htag ▸ hzm.trans hafter.noticeStep)
  refine ⟨u, hexec, fun hwaits hnocut => ?_, fun a he hle => ?_, fun w hw hwtag => ?_⟩
  · obtain ⟨y, hy, -⟩ := Voice.arrived_of_waits (look := m.look) (ring := m.ringLength) (now := m.timebase.tick) hwaits
    rcases v.closed_cases m.look m.ringLength m.timebase.tick with ⟨-, hnone⟩ | ⟨-, -, w, -, -, -, hclosed⟩
    · rw [hy] at hnone
      obtain ⟨e, he, hmode, hle⟩ := Voice.pended_none hnone
      have hlt := hnocut e.atTick (by rw [← hmode]; exact (Voice.arrived_core hy).2.2.1.symm.trans he)
      omega
    · rw [hclosed] at hfilter
      have hmem : w ∈ u.voices.filter (fun x => x.tag == v.tag) := by
        rw [hfilter]
        exact List.mem_singleton_self w
      exact ⟨w, (List.mem_filter.1 hmem).1, Voice.closed_tag hclosed⟩
  · refine ⟨?_, fun hwaits h0 => ?_⟩
    · rcases v.closed_cases m.look m.ringLength m.timebase.tick with ⟨hnone, -⟩ | ⟨y, x, -, hy, hx, -, -⟩
      · rw [hnone] at hfilter
        exact not_mem_of_filter hfilter
      · rw [(Voice.pended_due ((Voice.arrived_core hy).2.2.1.trans he) hle).1 rfl] at hx
        cases hx
    · obtain ⟨y, hy, -, -, hzero⟩ :=
        Voice.arrived_of_waits (look := m.look) (ring := m.ringLength) (now := m.timebase.tick) hwaits
      have htold := (told hy he hle).1 rfl
      rw [Voice.floorP, hzero h0] at htold
      exact htold
  · rcases v.closed_cases m.look m.ringLength m.timebase.tick with ⟨hnone, -⟩ | ⟨y, x, w', hy, hx, hw', hclosed⟩
    · rw [hnone] at hfilter
      exact absurd hwtag (not_mem_of_filter hfilter w hw)
    · rw [hclosed] at hfilter
      obtain rfl := eq_of_filter hfilter hw hwtag
      obtain ⟨-, -, hpend, hr, hend⟩ := Voice.arrived_core hy
      obtain ⟨-, -, -, hstate, -, hp, hwr, -⟩ := Voice.closing_sameRun hx hw'
      refine ⟨fun start hstart => ?_, fun harmed => ?_, fun e he => ?_, fun length a he hle => ?_⟩
      · have hwaits : v.state ≠ .running := by simp [hstart]
        rw [if_neg hwaits] at hr
        obtain ⟨y', hy', hstarts, -⟩ :=
          Voice.arrived_of_waits (look := m.look) (ring := m.ringLength) (now := m.timebase.tick) hwaits
        cases hy.symm.trans hy'
        obtain ⟨hreached, hwaits'⟩ := hstarts start hstart
        refine ⟨fun hle => ?_, fun hlt => ?_⟩
        · obtain ⟨h1, h2⟩ := hreached hle
          exact ⟨hstate.trans h1, hp.trans h2, hwr.trans hr⟩
        · obtain ⟨h1, h2⟩ := hwaits' hlt
          exact ⟨hstate.trans (h1.trans hstart), hp.trans h2, hwr.trans hr⟩
      · have hwaits : v.state ≠ .running := by simp [harmed]
        rw [if_neg hwaits] at hr
        obtain ⟨y', hy', -, harmed', -⟩ :=
          Voice.arrived_of_waits (look := m.look) (ring := m.ringLength) (now := m.timebase.tick) hwaits
        cases hy.symm.trans hy'
        obtain ⟨h1, h2⟩ := harmed' harmed
        exact ⟨hstate.trans (h1.trans harmed), hp.trans h2, hwr.trans hr⟩
      · exact Voice.closing_pendingEnd hx hw' (hpend.trans he)
      · obtain ⟨hpresent, habsent⟩ := Voice.closing_fade hx hw' (hpend.trans he) hle
        have htold := (told hy he hle).2 length rfl
        refine ⟨fun hf => ?_, fun hf => ?_, fun hf hskip => ?_⟩
        · have hyf := hend hf
          have hys : y.fin.isSome := by rw [hyf]; exact hf
          exact ⟨(hpresent hys).trans hyf, htold.1 hys⟩
        · by_cases hys : y.fin.isSome
          · rw [hpresent hys]
            exact hys
          · rw [(habsent (by simpa using hys)).1]
            rfl
        · rw [hp] at hskip ⊢
          have hyf := Voice.arrived_endless hy hf hskip
          obtain ⟨hwf, hwfollow⟩ := habsent hyf
          exact ⟨hwf, hwfollow, htold.2 hyf⟩

end Sys2Proof.Machine
end

