-- ==== Sys2Proof/Proofs/Postings.lean ====
section
/-! A posting's end completes its delivery, and the next posting begins (O45). -/

namespace Sys2Proof.Machine

/-! ### The delivery engine through the fill scheduler's operations -/

theorem State.recomputeDry_delivery (s : State) (g : Nat) : (s.recomputeDry g).delivery = s.delivery :=
  (State.syncReads_step _).delivery

theorem State.advanceCursor_delivery (s : State) (g : Nat) : (s.advanceCursor g).delivery = s.delivery := by
  unfold State.advanceCursor
  split
  · rfl
  · split
    · split
      · rfl
      · split
        · rfl
        · split
          · rfl
          · unfold State.regionEnd
            dsimp only
            split <;> rfl
    · rfl

theorem State.testEligible_delivery (s : State) (g : Nat) : (s.testEligible g).delivery = s.delivery := by
  unfold State.testEligible State.issue
  split
  next v _ =>
    split
    · split
      next k r _ _ =>
        split
        next loc _ =>
          exact (State.readsChanged_step _ r.die).delivery.trans ((State.advanceCursor_delivery _ v.tag).trans
            (State.joinReads_step s r.die (v.request r loc)).delivery)
        · rfl
      · rfl
    · rfl
  · rfl

theorem State.passOver_delivery (g n : Nat) : ∀ s : State, (s.passOver g n).delivery = s.delivery := by
  induction n with
  | zero => exact fun _ => rfl
  | succ n ih =>
    intro s
    rw [State.passOver]
    split
    · split
      · rfl
      · exact (ih _).trans (State.advanceCursor_delivery _ g)
    · rfl

theorem State.refill_delivery (s : State) (g : Nat) (f : Voice → Voice) :
    (((s.updateVoice g f).recomputeDry g).testEligible g).delivery = s.delivery :=
  (State.testEligible_delivery _ g).trans (State.recomputeDry_delivery _ g)

theorem State.skip_delivery (s : State) (g gapStart count : Nat) : (s.skip g gapStart count).delivery = s.delivery := by
  unfold State.skip
  split
  · rfl
  next v _ =>
    have hpass := State.passOver_delivery g v.skipCount s
    dsimp only
    split
    · exact hpass
    · split
      · exact hpass
      · exact (State.refill_delivery _ g _).trans hpass

theorem State.deliveryCompletion_delivery (s : State) (g ring : Nat) :
    (s.deliveryCompletion g ring).delivery = s.delivery := by
  unfold State.deliveryCompletion
  split
  · rfl
  · split
    · dsimp only
      split
      · rfl
      · split
        · exact State.skip_delivery _ _ _ _
        · exact State.refill_delivery _ g _
    · rfl

/-! ### The next posting -/

theorem State.startPosting_kept (s : State) : s.startPosting.voices = s.voices ∧ s.startPosting.notices = s.notices ∧
    s.startPosting.catalogue = s.catalogue ∧ s.startPosting.station = s.station := by
  unfold State.startPosting
  split <;> exact ⟨rfl, rfl, rfl, rfl⟩

/-- With no posting under way the head of the delivery queue begins its own (R175). -/
theorem State.startPosting_begins {s : State} (h : s.delivery.posting = none) :
    (∀ e rest c, s.delivery.queue = e :: rest → s.station.config = some c →
      s.startPosting.delivery.queue = rest ∧ s.startPosting.delivery.posting = some
        { seg := e, address := c.ringAddress e.tag e.ring, discarded := false }) ∧
      (s.startPosting.delivery.posting = none → s.startPosting.delivery.queue = [] ∨ s.station.config = none) := by
  unfold State.startPosting
  rw [h]
  cases hq : s.delivery.queue with
  | nil => exact ⟨fun e rest c he => (by cases he), fun _ => .inl hq⟩
  | cons e rest =>
    cases hc : s.station.config with
    | none => exact ⟨fun e rest c _ hc' => (by cases hc'), fun _ => .inr rfl⟩
    | some c =>
      refine ⟨fun e' rest' c' he hc' => ?_, fun hn => by cases hn⟩
      cases he
      cases hc'
      exact ⟨rfl, rfl⟩

/-! ### The issue of the next segment -/

/-- What an issue is made of: the reads of the dies aside, the segment put in flight and the cursor's advance (R78). -/
theorem State.testEligible_cases {s : State} {v : Voice} (hv : s.voice? v.tag = some v) :
    s.testEligible v.tag = s ∧ v.tested s.look s.ringLength = v ∨
      ∃ b : State, b.voice? v.tag = some v.issued ∧ b.look = s.look ∧ b.notices = s.notices ∧
        b.catalogue.regions = s.catalogue.regions ∧ DieStep (b.advanceCursor v.tag) (s.testEligible v.tag) ∧
        v.tested s.look s.ringLength = v.issued.advance s.look ∧ v.eligible s.ringLength = true := by
  unfold State.testEligible
  rw [hv]
  dsimp only
  by_cases helig : v.eligible s.ringLength = true
  · rw [if_pos helig]
    unfold State.issue
    cases hk : v.cursor with
    | none => exact .inl ⟨rfl, by simp [Voice.tested, hk]⟩
    | some k =>
      cases hr : s.region? v.region with
      | none => exact .inl ⟨rfl, by simp [Voice.tested, State.look_of_no_region hr]⟩
      | some r =>
        have hl := State.look_of_region hr
        have hloc : r.unused.locate k = r.locate k := rfl
        dsimp only
        cases hlocate : r.locate k with
        | none => exact .inl ⟨rfl, by simp [Voice.tested, hk, hl, hloc, hlocate]⟩
        | some loc =>
          have hjoin := State.joinReads_die s r.die (v.request r loc)
          have hvoices : (s.joinReads r.die (v.request r loc)).voice? v.tag = some v := by
            unfold State.voice?
            rw [hjoin.media.voices]
            exact hv
          have hfills := State.updateVoice_fills (G := fun _ => True) (s.joinReads r.die (v.request r loc)) v.tag
            Voice.issued (fun _ => rfl) fun _ => rfl
          have hb := FillsTo.voice? hfills
          rw [hvoices, Option.map_some] at hb
          refine .inr ⟨_, hb, hfills.look.trans (SameTable.of_eq hjoin.regions).look, hjoin.media.notices, hjoin.regions,
            State.readsChanged_die _ r.die, ?_, helig⟩
          simp [Voice.tested, helig, hk, hl, hloc, hlocate]
  · rw [if_neg helig]
    exact .inl ⟨rfl, by simp [Voice.tested, helig]⟩

/-- When the cursor's advance wraps at the end of an active loop (R72). -/
theorem Voice.wrapTo_cases (v : Voice) (r : Region) (k : Nat) :
    ((v.loopActive = true ∧ ∃ l, r.loop = some l ∧ k + 1 = l.stop / 1024) ∧
      ∀ l, r.loop = some l → v.wrapTo r k = some (l.start / 1024)) ∨
    ¬(v.loopActive = true ∧ ∃ l, r.loop = some l ∧ k + 1 = l.stop / 1024) ∧ v.wrapTo r k = none := by
  unfold Voice.wrapTo
  cases hl : r.loop with
  | none => exact .inr ⟨fun h => (by obtain ⟨-, l, hl', -⟩ := h; cases hl'), rfl⟩
  | some l =>
    dsimp only
    by_cases h : v.loopActive = true ∧ k + 1 = l.stop / 1024
    · refine .inl ⟨⟨h.1, l, rfl, h.2⟩, fun l' hl' => ?_⟩
      cases hl'
      simp [h.1, h.2]
    · refine .inr ⟨fun h' => ?_, ?_⟩
      · obtain ⟨ha, l', hl', hk⟩ := h'
        cases hl'
        exact h ⟨ha, hk⟩
      · rw [if_neg (by simpa using h)]

theorem State.stitch_uses (s : State) (v : Voice) (f : FollowSlot) :
    (s.stitch v f).uses? v.region = (s.uses? v.region).map (· - 1) := by
  have h := State.releaseUse_uses
    (s.updateVoice v.tag (·.stitched f ((s.region? f.region).bind (·.loop)).isSome)) v.region v.region
  simp only [if_true] at h
  exact h

/-- The advance of the cursor, as the rule of R72 states it for a voice `v` whose segment has just been put in flight. -/
theorem State.cursorAdvances_of {S b u : State} {v y w : Voice} (hy : b.voice? y.tag = some y) (htag : y.tag = v.tag)
    (hlook : b.look = S.look) (hregion : y.region = v.region) (hcursor : y.cursor = v.cursor) (hn : y.n = v.n + 1)
    (hs0 : y.s0 = v.s0) (hloop : y.loopActive = v.loopActive) (hfollow : y.follow = v.follow) (hfin : y.fin = v.fin)
    (hrequest : y.loopRequest = v.loopRequest) (hreleased : y.loopReleased = v.loopReleased)
    (hrequester : y.requester = v.requester) (hw : w = y.advance S.look) (huses : b.catalogue.regions = S.catalogue.regions)
    (before : NoticeStep S b) (after : NoticeStep (b.advanceCursor y.tag) u)
    (hu : ∀ id, u.uses? id = (b.advanceCursor y.tag).uses? id) : S.cursorAdvances u v w := by
  intro k r segments wraps hk hr hseg hwraps
  subst hw
  have hkc : y.cursor = some k := hcursor.trans hk
  have hlr : S.look y.region = some r.unused := by
    rw [hregion]
    exact State.look_of_region hr
  have hsegments : r.unused.segments = segments := hseg.symm
  rw [← hsegments]
  have hcases := y.wrapTo_cases r.unused k
  rw [hloop] at hcases
  have hloopEq : r.unused.loop = r.loop := rfl
  rw [hloopEq, ← hwraps] at hcases
  refine ⟨fun hwrap l hl => ?_, fun hno hlt => ?_, fun hstay => ?_, fun hno hge f hf => ?_, fun hno hge hf => ?_⟩
  · obtain ⟨-, hto⟩ := hcases.resolve_right fun h => h.1 hwrap
    rw [Voice.advance_wraps hkc hlr (hto l hl)]
  · obtain ⟨-, hnone⟩ := hcases.resolve_left fun h => hno h.1
    rw [Voice.advance_next hkc hlr hnone hlt]
  · have hsame : ∃ j, y.advance S.look = { y with cursor := some j } := by
      rcases hcases with ⟨hwrap, hto⟩ | ⟨hno, hnone⟩
      · obtain ⟨-, l, hl, -⟩ := hwraps.1 hwrap
        exact ⟨_, Voice.advance_wraps hkc hlr (hto l hl)⟩
      · exact ⟨_, Voice.advance_next hkc hlr hnone (hstay.resolve_left hno)⟩
    obtain ⟨j, hj⟩ := hsame
    rw [hj]
    exact ⟨hregion, hfollow, hloop, hfin⟩
  · obtain ⟨-, hnone⟩ := hcases.resolve_left fun h => hno h.1
    have hyf : y.follow = some f := hfollow.trans hf
    have hbr : b.look y.region = some r.unused := by rw [hlook]; exact hlr
    rw [Voice.advance_stitches hkc hlr hnone hge hyf]
    have htold := (State.advanceCursor_told hy hkc hbr hnone hge before after).1 f hyf
    rw [hrequester, htag, hs0, hn] at htold
    refine ⟨rfl, rfl, rfl, hfin, ?_, ?_, htold⟩
    · show (y.loopRequest && !y.loopReleased && ((S.look f.region).bind (·.loop)).isSome) = true ↔ _
      have hlast : ((S.look f.region).bind (·.loop)).isSome = true ↔
          ∃ x l, S.region? f.region = some x ∧ x.loop = some l := by
        unfold State.look
        cases S.region? f.region with
        | none => simp
        | some x =>
          show x.loop.isSome = true ↔ _
          simp [Option.isSome_iff_exists]
      rw [hrequest, hreleased, Bool.and_eq_true, Bool.and_eq_true, hlast, Bool.not_eq_true', and_assoc]
    · obtain ⟨x, hx, hxr⟩ := Option.map_eq_some_iff.1 hbr
      have hadv : b.advanceCursor y.tag = b.stitch y f := by
        have hwx : y.wrapTo x k = none := (congrArg (fun q : Region => y.wrapTo q k) hxr).trans hnone
        have hsx : ¬k + 1 < x.segments := by
          have : x.unused.segments = r.unused.segments := congrArg Region.segments hxr
          exact Nat.not_lt.2 (this ▸ hge)
        simp only [State.advanceCursor, hy, hkc, hx, hwx, if_neg hsx, hyf]
      rw [hu, hadv, ← hregion, State.stitch_uses, State.uses_congr huses]
  · obtain ⟨-, hnone⟩ := hcases.resolve_left fun h => hno h.1
    have hyf : y.follow = none := hfollow.trans hf
    have hbr : b.look y.region = some r.unused := by rw [hlook]; exact hlr
    rw [Voice.advance_rests hkc hlr hnone hge hyf]
    refine ⟨hregion, rfl, fun hs => ?_, fun hnofin e he => ?_⟩
    · obtain ⟨e, he⟩ := Option.isSome_iff_exists.1 hs
      show some (y.fin.getD _) = v.fin
      rw [hfin, he]
      rfl
    · have hend : y.regionEnd r.unused = e := by
        rw [he]
        unfold Voice.regionEnd
        rw [hs0, hn, hreleased]
        rfl
      have htold := (State.advanceCursor_told hy hkc hbr hnone hge before after).2 hyf (hfin.trans hnofin)
      rw [hend, hrequester, htag] at htold
      refine ⟨?_, htold⟩
      show some (y.fin.getD _) = some e
      rw [hfin, hnofin, hend]
      rfl

/-! ### The delivery completion -/

/-- A voice FILLING again once its in-flight segment is delivered, before its eligibility is tested (R80). -/
def Voice.refilling (v : Voice) (dry : Option Nat) : Voice :=
  { v with d := v.d + 1, inFlight := none, fill := .filling, dryFrame := none, dry := dry }

/-- A voice FILLING again after a delivery has its next segment issued or not (R77, R78). -/
theorem State.refilling_told {S a u : State} {v : Voice} {dry : Option Nat}
    (hv : a.voice? v.tag = some (v.refilling dry)) (hlook : a.look = S.look)
    (hregions : a.catalogue.regions = S.catalogue.regions) (hlimit : v.fillLimit = false) (before : NoticeStep S a)
    (after : NoticeStep (a.testEligible v.tag) u) (hu : ∀ id, u.uses? id = (a.testEligible v.tag).uses? id) :
    ∃ w, (a.testEligible v.tag).voice? v.tag = some w ∧ w.d = v.d + 1 ∧
      w.fill = .filling ∧ w.dryFrame = none ∧ w.p = v.p ∧ w.r = v.r ∧
      (∀ k r, v.cursor = some k → S.region? v.region = some r → (r.locate k).isSome →
        v.n < v.consumed + a.ringLength → w.n = v.n + 1) ∧
      (w.inFlight = none ∧ w.n = v.n ∧ w.cursor = v.cursor ∧ w.region = v.region ∧ w.fin = v.fin ∨
        w.inFlight = some v.n ∧ w.n = v.n + 1 ∧ S.cursorAdvances u v w) := by
  have hw := FillsTo.voice? (State.testEligible_fills (G := fun _ => True) a v.tag)
  rw [hv, Option.map_some] at hw
  have htag : (v.refilling dry).tag = v.tag := rfl
  refine ⟨_, hw, ?_⟩
  rcases State.testEligible_cases (v := v.refilling dry) hv with
    ⟨-, hsame⟩ | ⟨b, hb, hbl, hbn, hbr, hrest, hsame, -⟩
  · rw [hsame]
    refine ⟨rfl, rfl, rfl, rfl, rfl, fun k r hk hr hloc hroom => ?_, .inl ⟨rfl, rfl, rfl, rfl, rfl⟩⟩
    have helig : (v.refilling dry).eligible a.ringLength = true :=
      (Voice.eligible_iff _ _).2 ⟨rfl, rfl, decide_eq_true hroom, hlimit⟩
    have hl : a.look v.region = some r.unused := by
      rw [hlook]
      exact State.look_of_region hr
    have hloc' : (r.unused.locate k).isSome = true := hloc
    have hcond : ((v.refilling dry).eligible a.ringLength && ((v.refilling dry).cursor.any fun k =>
        (a.look (v.refilling dry).region).any fun r => (r.locate k).isSome)) = true := by
      rw [helig, show (v.refilling dry).cursor = some k from hk, show a.look (v.refilling dry).region = _ from hl]
      exact hloc'
    have hissued : (v.refilling dry).tested a.look a.ringLength = (v.refilling dry).issued.advance a.look := by
      unfold Voice.tested
      rw [if_pos hcond]
    have hn := (Voice.advance_sameFill a.look (v.refilling dry).issued).n
    rw [← hissued, hsame] at hn
    exact hn
  · have hfill := Voice.advance_sameFill a.look (v.refilling dry).issued
    have hcore := Voice.advance_core a.look (v.refilling dry).issued
    have hdryFrame := (Voice.advance_kept a.look (v.refilling dry).issued).2.2
    rw [hsame]
    refine ⟨hfill.d, hfill.fill, hdryFrame, hcore.p, hcore.r, fun _ _ _ _ _ _ => hfill.n, .inr ⟨hfill.inFlight, hfill.n, ?_⟩⟩
    rw [htag] at hrest
    exact State.cursorAdvances_of (b := b) (y := (v.refilling dry).issued) hb rfl (hbl.trans hlook) rfl rfl rfl rfl rfl
      rfl rfl rfl rfl rfl (by rw [hlook]) (hbr.trans hregions) (before.trans (.of_eq hbn))
      ((NoticeStep.of_eq hrest.media.notices).trans after)
      fun id => (hu id).trans (State.uses_congr hrest.regions id)

theorem State.recomputeDry_regions (s : State) (g : Nat) :
    (s.recomputeDry g).catalogue.regions = s.catalogue.regions := by
  unfold State.recomputeDry
  rw [(State.syncReads_die _).regions]
  rfl

/-- The delivery completion of a voice's in-flight segment, by what its fill has come to (R80, R81, R83). -/
theorem State.deliveryCompletion_cases {x : State} {v : Voice} {ring : Nat} (hv : x.voice? v.tag = some v)
    (hflight : v.inFlight = some ring) :
    (v.fillLimit = true → (x.deliveryCompletion v.tag ring).voice? v.tag = some v.delivered.completed) ∧
    (v.fillLimit = false → ¬(v.fill = .late ∧ v.delivered.atDryPoint = true) →
      ∃ (a : State) (dry : Option Nat), x.deliveryCompletion v.tag ring = a.testEligible v.tag ∧
        a.voice? v.tag = some (v.refilling dry) ∧ a.look = x.look ∧ a.catalogue.regions = x.catalogue.regions ∧
        a.ringLength = x.ringLength ∧ NoticeStep x a) ∧
    (v.fillLimit = false → v.fill = .late → v.delivered.atDryPoint = true →
      ∃ a : State, x.deliveryCompletion v.tag ring =
          a.skip v.delivered.tag (v.dryFrame.getD v.delivered.firstMissing) 0 ∧
        a.voice? v.delivered.tag = some v.delivered ∧ a.look = x.look ∧ a.ringLength = x.ringLength ∧
        a.timebase = x.timebase ∧ a.notices = x.notices) := by
  have h1 := State.updateVoice_fills (G := fun _ => True) x v.tag Voice.delivered (fun _ => rfl) fun _ => rfl
  have hv1 := FillsTo.voice? h1
  rw [hv, Option.map_some] at hv1
  have hlimit : v.delivered.fillLimit = v.fillLimit := rfl
  have hfill : v.delivered.fill = v.fill := rfl
  have hdryFrame : v.delivered.dryFrame = v.dryFrame := rfl
  have heq : x.deliveryCompletion v.tag ring =
      if v.fillLimit then (x.updateVoice v.tag Voice.delivered).updateVoice v.tag Voice.completed
      else if v.fill = .late && v.delivered.atDryPoint then
        (x.updateVoice v.tag Voice.delivered).skip v.tag (v.dryFrame.getD v.delivered.firstMissing) 0
      else ((((x.updateVoice v.tag Voice.delivered).updateVoice v.tag fun v =>
        { v with fill := .filling, dryFrame := none }).recomputeDry v.tag).testEligible v.tag) := by
    unfold State.deliveryCompletion
    rw [hv]
    dsimp only
    rw [if_pos hflight, hlimit, hfill, hdryFrame]
  rw [heq]
  refine ⟨fun hl => ?_, fun hl hno => ?_, fun hl hlate hdry => ?_⟩
  · rw [if_pos hl]
    have h2 := FillsTo.voice? (State.completed_fills (G := fun _ => True) (x.updateVoice v.tag Voice.delivered) v.tag)
    rwa [hv1, Option.map_some] at h2
  · rw [if_neg (by simp [hl]), if_neg (by simpa using hno)]
    have h2 := h1.trans (State.updateVoice_fills (G := fun _ => True) _ v.tag
      (fun v => { v with fill := .filling, dryFrame := none }) (fun _ => rfl) fun _ => rfl)
    have h3 := h2.trans (State.recomputeDry_fills (G := fun _ => True) _ v.tag)
    have hv3 := FillsTo.voice? h3
    rw [hv, Option.map_some] at hv3
    have hregions := State.recomputeDry_regions ((x.updateVoice v.tag Voice.delivered).updateVoice v.tag fun v =>
      { v with fill := .filling, dryFrame := none }) v.tag
    exact ⟨((x.updateVoice v.tag Voice.delivered).updateVoice v.tag fun v =>
        { v with fill := .filling, dryFrame := none }).recomputeDry v.tag,
      some (Voice.dryTick (v.refilling v.dry) x.timebase.tick), rfl, hv3, h3.look, hregions,
      State.ringLength_congr h3.step, h3.notices.noticeStep⟩
  · rw [if_neg (by simp [hl]), if_pos (by simp [hlate, hdry])]
    exact ⟨_, rfl, hv1, h1.look, State.ringLength_congr h1.step, h1.step.timebase, rfl⟩

/-- The station at a posting's end, with the link free and the segment's buffer given back (R175, R176). -/
def State.posted (s : State) : State := (s.setDelivery { s.delivery with posting := none }).freeBuffer

theorem State.posted_step (s : State) : s.posted.voices = s.voices ∧ s.posted.look = s.look ∧
    s.posted.catalogue.regions = s.catalogue.regions ∧ s.posted.notices = s.notices ∧
    s.posted.station = s.station ∧ s.posted.timebase = s.timebase ∧
    s.posted.delivery = { s.delivery with posting := none } := by
  have h := State.freeBuffer_die (s.setDelivery { s.delivery with posting := none })
  exact ⟨h.media.voices, (SameTable.of_eq (s := s.setDelivery { s.delivery with posting := none }) h.regions).look,
    h.regions, h.media.notices, h.media.station, h.media.timebase, h.media.delivery⟩

/-- What closes a posting's step leaves alone (R175). -/
theorem State.startPosting_finish (y : State) : y.startPosting.finish.voices = y.voices ∧
    (∀ G : Nat → Prop, Reported G y y.startPosting.finish) ∧
    (∀ id, y.startPosting.finish.uses? id = y.uses? id) ∧ y.startPosting.finish.station = y.station ∧
    y.startPosting.finish.delivery.queue = y.startPosting.delivery.queue ∧
    y.startPosting.finish.delivery.posting = y.startPosting.delivery.posting := by
  obtain ⟨hvoices, hnotices, hcatalogue, hstation⟩ := y.startPosting_kept
  refine ⟨(State.finish_voices _).trans hvoices, fun G => (Reported.of_eq hnotices).trans (State.finish_reported _),
    fun id => (State.finish_uses _ id).trans (State.uses_congr (by rw [hcatalogue]) id),
    (State.finish_station _).trans hstation, ?_, ?_⟩
  · rw [State.finish_delivery]
  · rw [State.finish_delivery]

/-- What a delivery completion makes of its voice, and what it tells, by the end of the step (R72 to R75, R80 to R86). -/
theorem State.delivered_told {s x u : State} {v : Voice} {ring : Nat}
    (hflight : v.inFlight = some ring) (hlook : x.look = s.look)
    (hregions : x.catalogue.regions = s.catalogue.regions) (hring : x.ringLength = s.ringLength)
    (hv : x.voice? v.tag = some v) (before : Reported (· ≠ v.tag) s x)
    (hu : u.voice? v.tag = (x.deliveryCompletion v.tag ring).voice? v.tag)
    (after : ∀ G : Nat → Prop, Reported G (x.deliveryCompletion v.tag ring) u)
    (huses : ∀ id, u.uses? id = (x.deliveryCompletion v.tag ring).uses? id) :
    (v.fillLimit = true → u.voice? v.tag = some { v with
      d := v.d + 1, inFlight := none, fill := .complete, dry := none, dryFrame := none }) ∧
    (v.fillLimit = false → v.fill = .filling ∨ v.fill = .late ∧ v.p / 65536 + 4 < v.s0 + 1024 * (v.d + 1) →
      ∃ w, u.voice? v.tag = some w ∧ w.d = v.d + 1 ∧
      w.fill = .filling ∧ w.dryFrame = none ∧ w.p = v.p ∧ w.r = v.r ∧
      (∀ k r, v.cursor = some k → s.region? v.region = some r → (r.locate k).isSome →
        v.n < v.consumed + s.ringLength → w.n = v.n + 1) ∧
      (w.inFlight = none ∧ w.n = v.n ∧ w.cursor = v.cursor ∧ w.region = v.region ∧ w.fin = v.fin ∨
        w.inFlight = some v.n ∧ w.n = v.n + 1 ∧ s.cursorAdvances u v w)) ∧
    (v.fillLimit = false → v.fill = .late → v.s0 + 1024 * (v.d + 1) ≤ v.p / 65536 + 4 → v.n = v.d + 1 →
      ∃ w, u.voice? v.tag = some w ∧ w.p = v.p ∧ w.r = v.r ∧
        ∀ gapStart, v.dryFrame = some gapStart →
          s.skips u { v with d := v.d + 1, inFlight := none } w (v.p / 65536) gapStart 0) := by
  obtain ⟨hcomplete, hrefills, hskips⟩ := State.deliveryCompletion_cases hv hflight
  rw [hu]
  refine ⟨hcomplete, fun hl hgoes => ?_, fun hl hlate hdry hn => ?_⟩
  · have hno : ¬(v.fill = .late ∧ v.delivered.atDryPoint = true) := fun h => by
      have hge : v.s0 + 1024 * (v.d + 1) ≤ v.p / 65536 + 4 := of_decide_eq_true h.2
      rcases hgoes with hf | ⟨-, hlt⟩
      · rw [hf] at h
        cases h.1
      · omega
    obtain ⟨a, dry, heq, ha, hal, har, haring, han⟩ := hrefills hl hno
    rw [heq] at after huses ⊢
    rw [← hring, ← haring]
    exact State.refilling_told ha (hal.trans hlook) (har.trans hregions) hl (before.noticeStep.trans han)
      (after fun _ => True).noticeStep huses
  · obtain ⟨a, heq, ha, hal, haring, hatime, han⟩ := hskips hl hlate (decide_eq_true hdry)
    have hw := FillsTo.voice? (State.skip_fills (G := fun _ => True) a v.delivered.tag
      (v.dryFrame.getD v.delivered.firstMissing) 0 trivial)
    rw [ha, Option.map_some] at hw
    rw [heq]
    have hcore := Voice.skipped_core a.look a.ringLength a.timebase.tick v.delivered
    refine ⟨_, hw, hcore.p, hcore.r, fun gapStart hgap => ?_⟩
    have hskip := after (· ≠ v.tag)
    rw [heq, hgap, Option.getD_some] at hskip
    have hsettles := Voice.Settles.skipped (look := a.look) (v := v.delivered) rfl hn a.ringLength a.timebase.tick
    rw [hal, hlook] at hsettles ⊢
    obtain ⟨k, hk⟩ := Voice.cursor_of_fillLimit hl
    have hcur : v.delivered.cursor.isSome = true := by
      rw [show v.delivered.cursor = v.cursor from rfl, hk]
      rfl
    exact State.skips_of_skip (v := v.delivered) ha (hal.trans hlook) hn hcur hdry
      (before.trans (.of_eq han)) hskip hsettles

/-- Settles O45. -/
theorem postingsCompleteDeliveries : Obligations.PostingsCompleteDeliveries := by
  intro s t p hp
  obtain ⟨hvoices, hlook, hregions, hnotices, hstation, htimebase, hdelivery⟩ := (s.atTime t).posted_step
  have hexec : exec (.postingEnd t) s = .next (State.startPosting (if p.discarded then (s.atTime t).posted
      else (s.atTime t).posted.deliveryCompletion p.seg.tag p.seg.ring)).finish := by
    have hp' : (s.atTime t).delivery.posting = some p := hp
    simp only [exec, execPostingEnd, hp']
    rfl
  have hring : (s.atTime t).posted.ringLength = s.ringLength := by
    unfold State.ringLength
    rw [hstation]
    rfl
  replace hlook : (s.atTime t).posted.look = s.look := hlook
  replace hregions : (s.atTime t).posted.catalogue.regions = s.catalogue.regions := hregions
  replace hnotices : (s.atTime t).posted.notices = s.notices := hnotices
  replace hvoices : (s.atTime t).posted.voices = s.voices := hvoices
  replace hstation : (s.atTime t).posted.station = s.station := hstation
  replace hdelivery : (s.atTime t).posted.delivery = { s.delivery with posting := none } := hdelivery
  rw [hexec]
  generalize (s.atTime t).posted = x at *
  have hafter : (if p.discarded then x else x.deliveryCompletion p.seg.tag p.seg.ring).station = s.station ∧
      (if p.discarded then x else x.deliveryCompletion p.seg.tag p.seg.ring).delivery =
        { s.delivery with posting := none } := by
    split
    · exact ⟨hstation, hdelivery⟩
    · have hfills := State.deliveryCompletion_fills (G := fun _ => True) x p.seg.tag p.seg.ring trivial
      exact ⟨hfills.step.station.trans hstation, (State.deliveryCompletion_delivery _ _ _).trans hdelivery⟩
  obtain ⟨hstation', hdelivery'⟩ := hafter
  obtain ⟨hfv, hft, hfu, hfs, hfq, hfp⟩ := State.startPosting_finish
    (if p.discarded then x else x.deliveryCompletion p.seg.tag p.seg.ring)
  have hnone : (if p.discarded then x else x.deliveryCompletion p.seg.tag p.seg.ring).delivery.posting = none := by
    rw [hdelivery']
  have hqueue : (if p.discarded then x else x.deliveryCompletion p.seg.tag p.seg.ring).delivery.queue =
      s.delivery.queue := by rw [hdelivery']
  obtain ⟨hbegins, hends⟩ := State.startPosting_begins hnone
  rw [hqueue, hstation'] at hbegins
  rw [hstation'] at hends
  refine ⟨_, rfl, hfs.trans hstation', fun hd => ?_, fun v hd hv hflight => ?_, fun e rest c he hc => ?_, fun hn => ?_⟩
  · rw [hfv, if_pos hd, hvoices]
  · have htag : v.tag = p.seg.tag := State.voice_tag hv
    rw [if_neg (by simp [hd]), ← htag] at hfv hft hfu ⊢
    refine State.delivered_told (x := x) hflight hlook hregions hring ?_ (.of_eq hnotices) ?_ hft hfu
    · unfold State.voice?
      rw [hvoices]
      exact htag ▸ hv
    · unfold State.voice?
      rw [hfv]
  · obtain ⟨h1, h2⟩ := hbegins e rest c he hc
    exact ⟨hfq.trans h1, hfp.trans h2⟩
  · rw [hfq]
    exact hends (hfp.symm.trans hn)

end Sys2Proof.Machine
end

