-- ==== Sys2Proof/Proofs/Ends.lean ====
section
/-! END acts by its mode (O30). -/

namespace Sys2Proof.Machine

/-! ### The operands -/

theorem endModeOf_none {flags : BitVec 8} (h : flags.toNat % 4 = 3) (fade : BitVec 24) : endModeOf flags fade = none := by
  unfold endModeOf
  rw [h]
  rfl

theorem endModeOf_some {flags : BitVec 8} (h : flags.toNat % 4 ≠ 3) (fade : BitVec 24) :
    (flags.toNat % 4 = 0 ∧ endModeOf flags fade = some .cut) ∨
      (flags.toNat % 4 = 1 ∧ endModeOf flags fade = some (.fade (min 1048575 fade.toNat))) ∨
      (flags.toNat % 4 = 2 ∧ endModeOf flags fade = some .loopExit) := by
  have hcases : flags.toNat % 4 = 0 ∨ flags.toNat % 4 = 1 ∨ flags.toNat % 4 = 2 := by omega
  unfold endModeOf
  rcases hcases with h | h | h <;> rw [h] <;> simp

section Taken
variable {s : State} {h : Header} (ht : s.takes h) (t : Nat) {flags : BitVec 8} {fade : BitVec 24} (atTick : BitVec 48)
include ht

theorem execEndRequest_none (hm : endModeOf flags fade = none) :
    exec (.endRequest t h flags fade atTick) s = .next (s.frameEnded t) :=
  congrArg Host.Outcome.next <| (s.receive_takes t h _ ht).trans <| by rw [hm]

theorem execEndRequest_some {mode : EndMode} (hm : endModeOf flags fade = some mode) :
    exec (.endRequest t h flags fade atTick) s =
      .next ((s.frameEnded t).endTaken h.key.toNat mode (atTickOf flags atTick) h.sender.toNat) :=
  congrArg Host.Outcome.next <| (s.receive_takes t h _ ht).trans <| by rw [hm]

end Taken

/-! ### The owned voice -/

theorem VoiceTo.other {G : Nat → Prop} {g j : Nat} {o : Voice → Option Voice} {s t : State} (a : VoiceTo G g o s t)
    (hj : j ≠ g) : t.voice? j = s.voice? j := by
  unfold State.voice?
  rw [a.voices, find_voicesAfter_other hj a.tag]

/-- A CUT or FADE changes its own voice alone (R146 to R148). -/
theorem State.applyEnd_to {s : State} {v : Voice} (hv : s.voice? v.tag = some v) (mode : CutOrFade) (sender : Nat) :
    ∃ o, VoiceTo (fun _ => True) v.tag o s (s.applyEnd v mode sender) := by
  unfold State.applyEnd
  split
  · exact ⟨_, State.retire_to s v.tag .cut trivial⟩
  next length =>
    split
    · exact ⟨_, (VoiceTo.refl v.tag s).notice _ _ rfl⟩
    · exact ⟨_, s.fixFade_fills v length hv⟩

/-- An END changes its own voice alone (R145). -/
theorem State.endVoice_to {s : State} {v : Voice} (hv : s.voice? v.tag = some v) (mode : EndMode) (atTick : Option Nat)
    (sender : Nat) : ∃ o, VoiceTo (fun _ => True) v.tag o s (s.endVoice v mode atTick sender) := by
  have hold (m : CutOrFade) : ∃ o, VoiceTo (fun _ => True) v.tag o s (s.endOrHold v m atTick sender) := by
    unfold State.endOrHold
    split
    · split
      · exact ⟨_, s.updateVoice_fills v.tag _ (fun _ => rfl) fun _ => rfl⟩
      · exact State.applyEnd_to hv m sender
    · exact State.applyEnd_to hv m sender
  unfold State.endVoice
  split
  · refine ⟨_, s.updateVoice_fills v.tag Voice.loopExited (fun w => ?_) fun w => ?_⟩ <;>
      (unfold Voice.loopExited; split <;> rfl)
  · exact hold .cut
  · exact hold _

theorem Voice.loopExited_eq (v : Voice) :
    v.loopExited = { v with loopActive := false, loopReleased := v.loopReleased || v.loopActive } := by
  unfold Voice.loopExited
  cases hl : v.loopActive with
  | true => simp
  | false =>
    rw [if_neg (by simp), Bool.or_false, ← hl]

/-- An END held for its at-tick, or applied at once (R145, R150). -/
theorem State.endOrHold_held (s : State) (v : Voice) (mode : CutOrFade) {flags : BitVec 8} {atTick : BitVec 48}
    (sender : Nat) (hbit : flags.getLsbD 2 = true) (hlt : s.timebase.tick < atTick.toNat) :
    s.endOrHold v mode (atTickOf flags atTick) sender =
      s.updateVoice v.tag fun v => { v with pendingEnd := some { mode := mode, atTick := atTick.toNat } } := by
  simp only [State.endOrHold, atTickOf, hbit, if_true, if_pos hlt]

theorem State.endOrHold_applied (s : State) (v : Voice) (mode : CutOrFade) {flags : BitVec 8} {atTick : BitVec 48}
    (sender : Nat) (h : flags.getLsbD 2 = false ∨ atTick.toNat ≤ s.timebase.tick) :
    s.endOrHold v mode (atTickOf flags atTick) sender = s.applyEnd v mode sender := by
  unfold State.endOrHold atTickOf
  cases hbit : flags.getLsbD 2 with
  | false => rfl
  | true =>
    have hle : atTick.toNat ≤ s.timebase.tick := h.resolve_left (by simp [hbit])
    simp only [if_true, if_neg (Nat.not_lt.2 hle)]

theorem State.endTaken_voice {s : State} {v : Voice} (hv : s.voice? v.tag = some v) (mode : EndMode)
    (atTick : Option Nat) (sender : Nat) :
    s.endTaken v.tag mode atTick sender = (s.endVoice v mode atTick sender).finish := by
  unfold State.endTaken State.request
  rw [hv]

/-- With no frame to begin and nothing turned away, the end of a step leaves the notice queue as it is. -/
theorem State.finish_notices_of_skipping {s : State} (h : s.port = { bus := .skipping, sending := none })
    (hs : s.settled) : s.finish.notices = s.notices := by
  rw [State.finish_busy s hs (Port.mayBegin_skipping _ _ (by rw [h]))]
  rfl

section Voice
variable {s x : State} {v : Voice} (hv : x.voice? v.tag = some v) (hx : x.port = { bus := .skipping, sending := none })
  (hn : x.notices = s.notices)
include hv

/-- A voice whose END waits, or releases its loop, is told nothing and keeps the rest of its record (R149, R150). -/
theorem State.updated_finish (f : Voice → Voice) (ht : ∀ v, (f v).tag = v.tag) (hu : ∀ v, (f v).uses = v.uses) :
    (x.updateVoice v.tag f).finish.voice? v.tag = some (f v) := by
  rw [State.voice_finish]
  have h := FillsTo.voice? (State.updateVoice_fills (G := fun _ => True) x v.tag f ht hu)
  rwa [hv, Option.map_some] at h

include hn in
theorem State.cut_finish (sender : Nat) :
    (x.applyEnd v .cut sender).finish.voices = x.voices.filter (fun w => w.tag != v.tag) ∧
    s.told (x.applyEnd v .cut sender).finish
      { addressee := v.requester, body := .retired v.tag .cut (v.p / 65536), isOpen := false } := by
  refine ⟨?_, State.told_retire (t := x) hv RetireReason.noConfusion (.of_eq hn) (State.finish_noticeStep _)⟩
  rw [State.finish_voices]
  exact State.retire_voices x v.tag .cut

include hx hn in
theorem State.fade_finish (length sender : Nat) :
    (v.fin.isSome → x.settled → s.notices.queue.length < 32 →
      (x.applyEnd v (.fade length) sender).finish.voices = x.voices ∧
      (x.applyEnd v (.fade length) sender).finish.notices.queue = s.notices.queue ++
        [{ addressee := sender, body := .refused 3 .state v.tag, isOpen := false }]) ∧
    (v.fin = none → ∃ w, (x.applyEnd v (.fade length) sender).finish.voice? v.tag = some w ∧ w.follow = none ∧
      w.fin = some { frame := v.p / 65536 + length, cause := .fade } ∧
      s.told (x.applyEnd v (.fade length) sender).finish
        { addressee := v.requester, body := .endpoint v.tag (v.p / 65536 + length) .fade, isOpen := false }) := by
  refine ⟨fun hf hs hroom => ?_, fun hf => ?_⟩
  · have heq : x.applyEnd v (.fade length) sender = x.queueNotice sender (.refused 3 .state v.tag) := by
      simp only [State.applyEnd, if_pos hf]
      rfl
    rw [heq]
    refine ⟨(State.finish_voices _).trans rfl, ?_⟩
    rw [State.finish_notices_of_skipping (s := x.queueNotice sender (.refused 3 .state v.tag)) hx hs,
      State.queueNotice_room_eq (body := .refused 3 .state v.tag) rfl (by rw [hn]; exact hroom) sender, hn]
    rfl
  · have heq : x.applyEnd v (.fade length) sender = x.fixFade v length := by
      simp [State.applyEnd, hf]
    rw [heq]
    have hw := FillsTo.voice? (State.fixFade_fills (G := fun _ => True) x v length hv)
    rw [hv, Option.map_some] at hw
    obtain ⟨hfin, hfollow, -⟩ := Voice.faded_end { frame := v.floorP + length, cause := .fade } v
    exact ⟨_, (State.voice_finish _ _).trans hw, hfollow, hfin,
      State.fixFade_told (x := x) (.of_eq hn) (State.finish_noticeStep _)⟩

end Voice

/-- Settles O30. -/
theorem endActsByItsMode : Obligations.EndActsByItsMode := by
  intro s t h flags fade atTick ht
  have hport : (s.frameEnded t).port = { bus := .skipping, sending := none } := rfl
  refine ⟨fun hm => execEndRequest_none ht t atTick (endModeOf_none hm fade), fun v hv hm => ?_, fun b hv hb hm => ?_,
    fun hv hb hs hready => ?_⟩
  · obtain ⟨mode, hmode⟩ : ∃ mode, endModeOf flags fade = some mode := by
      rcases endModeOf_some hm fade with ⟨-, h⟩ | ⟨-, h⟩ | ⟨-, h⟩ <;> exact ⟨_, h⟩
    have htag : v.tag = h.key.toNat := State.voice_tag hv
    rw [execEndRequest_some ht t atTick hmode]
    rw [← htag] at hv ⊢
    have hvx : (s.frameEnded t).voice? v.tag = some v := hv
    obtain ⟨o, hto⟩ := State.endVoice_to hvx mode (atTickOf flags atTick) h.sender.toNat
    rw [State.endTaken_voice hvx]
    obtain ⟨hclaims, -⟩ := State.finish_skipping (hto.step.port.trans hport)
    refine ⟨_, rfl, hclaims.trans hto.step.claims, (State.finish_station _).trans hto.step.station,
      fun tag hne => (State.voice_finish _ _).trans (hto.other hne), fun h2 => ?_, fun hlow hbit hlt => ?_,
      fun h0 hat => ?_, fun h1 hat => ?_⟩
    · obtain rfl : mode = .loopExit := by
        rcases endModeOf_some hm fade with ⟨h0, -⟩ | ⟨h1, -⟩ | ⟨-, h⟩
        · omega
        · omega
        · exact Option.some.inj (hmode.symm.trans h)
      rw [← Voice.loopExited_eq]
      exact State.updated_finish hvx Voice.loopExited
        (fun w => by unfold Voice.loopExited; split <;> rfl) fun w => by unfold Voice.loopExited; split <;> rfl
    · rcases endModeOf_some hm fade with ⟨h0, h⟩ | ⟨h1, h⟩ | ⟨h2, -⟩
      · cases hmode.symm.trans h
        rw [if_pos h0, State.endVoice, State.endOrHold_held (s.frameEnded t) v .cut _ hbit hlt]
        exact State.updated_finish hvx _ (fun _ => rfl) fun _ => rfl
      · cases hmode.symm.trans h
        rw [if_neg (by omega), State.endVoice, State.endOrHold_held (s.frameEnded t) v (.fade _) _ hbit hlt]
        exact State.updated_finish hvx _ (fun _ => rfl) fun _ => rfl
      · omega
    · obtain rfl : mode = .cut := by
        rcases endModeOf_some hm fade with ⟨-, h⟩ | ⟨h1, -⟩ | ⟨h2, -⟩
        · exact Option.some.inj (hmode.symm.trans h)
        · omega
        · omega
      rw [State.endVoice, State.endOrHold_applied (s.frameEnded t) v .cut _ hat]
      exact State.cut_finish (s := s) hvx rfl _
    · obtain rfl : mode = .fade (min 1048575 fade.toNat) := by
        rcases endModeOf_some hm fade with ⟨h0, -⟩ | ⟨-, h⟩ | ⟨h2, -⟩
        · omega
        · exact Option.some.inj (hmode.symm.trans h)
        · omega
      rw [State.endVoice, State.endOrHold_applied (s.frameEnded t) v (.fade _) _ hat]
      exact State.fade_finish (s := s) hvx hport rfl _ _
  · obtain ⟨mode, hmode⟩ : ∃ mode, endModeOf flags fade = some mode := by
      rcases endModeOf_some hm fade with ⟨-, h⟩ | ⟨-, h⟩ | ⟨-, h⟩ <;> exact ⟨_, h⟩
    have htag : b.tag = h.key.toNat := by simpa using List.find?_some hb
    have hvx : (s.frameEnded t).voice? h.key.toNat = none := hv
    have hbx : (s.frameEnded t).bid? h.key.toNat = some b := hb
    have hend : (s.frameEnded t).endTaken h.key.toNat mode (atTickOf flags atTick) h.sender.toNat =
        ((s.frameEnded t).dropBid h.key.toNat).finish := by
      unfold State.endTaken State.request
      rw [hvx, hbx]
      dsimp only
      rw [htag]
    rw [execEndRequest_some ht t atTick hmode, hend]
    obtain ⟨-, -, hdport, -, hdvoices, -⟩ := (s.frameEnded t).dropBid_step h.key.toNat
    obtain ⟨hclaims, -⟩ := State.finish_skipping (hdport.trans hport)
    refine ⟨_, rfl, (State.finish_voices _).trans hdvoices, ?_, fun id => ?_⟩
    · rw [hclaims]
      exact State.dropBid_bids (s.frameEnded t) h.key.toNat
    · rw [State.finish_uses, State.dropBid_uses hbx]
      rfl
  · cases hmode : endModeOf flags fade with
    | none => exact execEndRequest_none ht t atTick hmode
    | some mode =>
      have hvx : (s.frameEnded t).voice? h.key.toNat = none := hv
      have hbx : (s.frameEnded t).bid? h.key.toNat = none := hb
      have hend : (s.frameEnded t).endTaken h.key.toNat mode (atTickOf flags atTick) h.sender.toNat =
          (s.frameEnded t).finish := by
        unfold State.endTaken State.request
        rw [hvx, hbx]
      have hreadyx : (s.frameEnded t).readyLawful := hready
      rw [execEndRequest_some ht t atTick hmode, hend,
        State.finish_busy (s.frameEnded t) hs (Port.mayBegin_skipping _ _ rfl), State.recomputeReady_eq _ hreadyx]

end Sys2Proof.Machine
end

