-- ==== Sys2Proof/Proofs/Winning.lean ====
section
/-! A won claim creates its voice (O23). -/

namespace Sys2Proof.Machine

/-! ### The record taken -/

theorem State.idleRecord?_eq_some {s : State} {i : Nat} : s.idleRecord? = some i ↔
    i < 512 ∧ (∀ v ∈ s.voices, v.record ≠ i) ∧ ∀ j < i, ∃ v ∈ s.voices, v.record = j := by
  unfold State.idleRecord?
  rw [List.find?_range_eq_some]
  simp only [List.all_eq_true, bne_iff_ne, ne_eq, List.mem_range, Bool.not_eq_true', List.all_eq_false, not_not]
  constructor
  · rintro ⟨h1, h2, h3⟩
    exact ⟨h2, h1, fun j hj => by simpa using h3 j hj⟩
  · rintro ⟨h1, h2, h3⟩
    exact ⟨h2, h1, fun j hj => by simpa using h3 j hj⟩

theorem State.idleRecord?_eq_none {s : State} : s.idleRecord? = none ↔ ∀ i < 512, ∃ v ∈ s.voices, v.record = i := by
  unfold State.idleRecord?
  rw [List.find?_eq_none]
  simp

/-- The record that the won entry takes, and the voice that gives it up if no record is IDLE (R27, R30). -/
def State.Takes (s : State) (record : Nat) (victim : Option Voice) : Prop :=
  s.idleRecord? = some record ∧ victim = none ∨
    ∃ v, s.idleRecord? = none ∧ s.stealVictim? = some v ∧ victim = some v ∧ record = v.record

theorem State.stealVictim?_mem {s : State} {v : Voice} (h : s.stealVictim? = some v) : v ∈ s.voices := by
  have key (l : List Voice) : ∀ best : Option Voice, l.foldl (fun best v =>
      match best with
      | none => if v.fin.isSome then some v else none
      | some w => if victimBefore v w then some v else some w) best = some v → best = some v ∨ v ∈ l := by
    induction l with
    | nil => exact fun best h => .inl h
    | cons x xs ih =>
      intro best h
      rw [List.foldl_cons] at h
      rcases ih _ h with h | h
      · cases best with
        | none =>
          dsimp only at h
          split at h
          · cases h
            exact .inr (List.mem_cons_self ..)
          · cases h
        | some w =>
          dsimp only at h
          split at h
          · cases h
            exact .inr (List.mem_cons_self ..)
          · exact .inl h
      · exact .inr (List.mem_cons_of_mem _ h)
  rcases key s.voices none h with h | h
  · cases h
  · exact h

/-- After the steal the record is the lowest IDLE one, and no voice but the victim has gone (R27, R30). -/
theorem State.steal_takes {s : State} {record : Nat} {victim : Option Voice} (htags : (s.voices.map (·.tag)).Nodup)
    (hrecords : (s.voices.map (·.record)).Nodup) (hbound : ∀ v ∈ s.voices, v.record < 512) (h : s.Takes record victim) :
    s.steal.idleRecord? = some record ∧
      (∀ v, v ∈ s.steal.voices ↔ v ∈ s.voices ∧ some v.tag ≠ victim.map (·.tag)) ∧
      s.steal.look = s.look ∧
      (∀ id, s.steal.uses? id = (s.uses? id).map (· - (victim.map (·.uses.count id)).getD 0)) ∧
      NoticeStep s s.steal ∧
      ∀ v, victim = some v → ∀ (r u : State), NoticeStep r s → NoticeStep s.steal u → r.told u
        { addressee := v.requester, body := .retired v.tag .stolen v.floorP, isOpen := false } := by
  rcases h with ⟨hidle, rfl⟩ | ⟨v, hidle, hvictim, rfl, rfl⟩
  · have hsteal : s.steal = s := by
      unfold State.steal
      rw [hidle]
    rw [hsteal]
    refine ⟨hidle, fun v => ⟨fun hv => ⟨hv, by simp⟩, And.left⟩, rfl, fun id => ?_, .refl s, fun v hv => by cases hv⟩
    cases s.uses? id <;> rfl
  · have hsteal : s.steal = s.retire v.tag .stolen := by
      unfold State.steal
      rw [hidle, hvictim]
    have hv := State.stealVictim?_mem hvictim
    have hfound := State.voice?_of_mem htags hv
    have hmem (w : Voice) : w ∈ (s.retire v.tag .stolen).voices ↔ w ∈ s.voices ∧ w.tag ≠ v.tag := by
      rw [State.retire_voices, List.mem_filter]
      simp
    have hto := State.retire_to (G := fun _ => True) s v.tag .stolen trivial
    rw [hsteal]
    refine ⟨State.idleRecord?_eq_some.2 ⟨hbound v hv, fun w hw heq => ?_, fun j hj => ?_⟩, fun w => ?_, hto.look,
      fun id => State.retire_uses hfound .stolen id, hto.notices.noticeStep, fun w hw r u hr hu => ?_⟩
    · obtain ⟨hws, hne⟩ := (hmem w).1 hw
      exact hne (congrArg Voice.tag (List.inj_on_of_nodup_map hrecords hws hv heq))
    · have hlt : j < 512 := lt_trans hj (hbound v hv)
      obtain ⟨w, hw, hwr⟩ := State.idleRecord?_eq_none.1 hidle j hlt
      refine ⟨w, (hmem w).2 ⟨hw, fun heq => ?_⟩, hwr⟩
      have := List.inj_on_of_nodup_map htags hw hv heq
      subst this
      omega
    · rw [hmem w]
      simp
    · cases hw
      exact State.told_retire hfound RetireReason.noConfusion hr hu

/-! ### The record created -/

theorem Bid.create_eq (b : Bid) (record now : Nat) (hasLoop : Bool) : ∃ dry, b.create record now hasLoop =
    { record := record, tag := b.tag, state := (b.startState now).1, requester := b.requester
      region := b.region, s0 := b.start, p := (b.startState now).2, r := b.rate, target := b.rate, step := 0
      loopActive := b.loopRequest && hasLoop, loopRequest := b.loopRequest, loopReleased := false
      cursor := some (b.start / 1024), n := 0, d := 0, inFlight := none, fill := .filling
      dryFrame := none, fin := none, pendingEnd := none, follow := none, dry := some dry } := ⟨_, rfl⟩

/-- The state and the position that a start mode gives at a tick (R27, R61). -/
theorem Bid.startState_cases (b : Bid) (now : Nat) :
    (b.mode = .immediate → (b.startState now).1 = .running ∧
      (b.startState now).2 = min 16777215 (now - b.captured) * b.rate) ∧
    (∀ start, b.mode = .atTick start → start ≤ now → (b.startState now).1 = .running ∧
      (b.startState now).2 = min 16777215 (now - start) * b.rate) ∧
    (∀ start, b.mode = .atTick start → now < start →
      (b.startState now).1 = .scheduled start ∧ (b.startState now).2 = 0) ∧
    (b.mode = .armed → (b.startState now).1 = .armed ∧ (b.startState now).2 = 0) := by
  unfold Bid.startState slackCap
  refine ⟨fun h => ?_, fun start h hle => ?_, fun start h hlt => ?_, fun h => ?_⟩ <;> rw [h]
  · exact ⟨rfl, rfl⟩
  · simp only [if_pos hle, and_self]
  · simp only [if_neg (Nat.not_le.2 hlt), and_self]
  · exact ⟨rfl, rfl⟩

/-- A voice just created, and its cursor past the start offset's segment once the first read is issued (R28, R72). -/
structure Bid.Created (b : Bid) (look : Nat → Option Region) (record now ring : Nat) (v : Voice) : Prop where
  core     : v.tag = b.tag ∧ v.record = record ∧ v.requester = b.requester ∧ v.s0 = b.start ∧ v.r = b.rate ∧
    v.target = b.rate ∧ v.step = 0 ∧ v.loopRequest = b.loopRequest ∧ v.loopReleased = false
  state    : v.state = (b.startState now).1 ∧ v.p = (b.startState now).2
  kept     : v.d = 0 ∧ v.pendingEnd = none ∧ v.follow = none ∧ v.region = b.region ∧
    v.loopActive = (b.loopRequest && ((look b.region).bind (·.loop)).isSome)
  waits    : v.n = 0 → v.inFlight = none ∧ v.cursor = some (b.start / 1024)
  reads    : v.n ≠ 0 → v.n = 1 ∧ v.inFlight = some 0
  issued   : ∀ r, look b.region = some r → (r.locate (b.start / 1024)).isSome → 0 < ring → v.n = 1
  advanced : ∀ r next, look b.region = some r →
    next = (if b.start / 1024 + 1 < r.segments then some (b.start / 1024 + 1) else none) → v.n = 1 →
    (v.loopActive = false → v.cursor = next) ∧
    ∀ l, r.loop = some l → v.loopActive = true →
      v.cursor = if b.start / 1024 + 1 = l.stop / 1024 then some (l.start / 1024) else next

/-- With no follow region held the advance keeps the region, the loop and the slot (R72, R75). -/
theorem Voice.advance_alone (look : Nat → Option Region) {v : Voice} (h : v.follow = none) :
    (v.advance look).loopActive = v.loopActive := by
  unfold Voice.advance
  split
  · split
    · rfl
    · split
      · rfl
      · rw [h]
  · rfl

/-- The cursor of a voice without a follow region after its advance (R72, R75). -/
theorem Voice.advance_cursor {look : Nat → Option Region} {v : Voice} {k : Nat} {r : Region} {next : Option Nat}
    (hk : v.cursor = some k) (hr : look v.region = some r) (hf : v.follow = none)
    (hnext : next = if k + 1 < r.segments then some (k + 1) else none) :
    (v.loopActive = false → (v.advance look).cursor = next) ∧
      ∀ l, r.loop = some l → v.loopActive = true →
        (v.advance look).cursor = if k + 1 = l.stop / 1024 then some (l.start / 1024) else next := by
  have plain (hw : v.wrapTo r k = none) : (v.advance look).cursor = next := by
    rw [hnext]
    by_cases hlt : k + 1 < r.segments
    · rw [Voice.advance_next hk hr hw hlt, if_pos hlt]
    · rw [Voice.advance_rests hk hr hw (Nat.le_of_not_lt hlt) hf, if_neg hlt]
  refine ⟨fun hl => plain (Voice.wrapTo_idle hl r k), fun l hl hactive => ?_⟩
  rcases v.wrapTo_cases r k with ⟨⟨-, l', hl', hstop⟩, hto⟩ | ⟨hno, hw⟩
  · cases hl.symm.trans hl'
    rw [if_pos hstop, Voice.advance_wraps hk hr (hto l hl)]
  · rw [if_neg fun hstop => hno ⟨hactive, l, hl, hstop⟩, plain hw]

theorem Bid.created_tested (b : Bid) (look : Nat → Option Region) (record now ring : Nat) :
    b.Created look record now ring
      ((b.create record now ((look b.region).bind (·.loop)).isSome).tested look ring) := by
  obtain ⟨dry, hc⟩ := b.create_eq record now ((look b.region).bind (·.loop)).isSome
  generalize b.create record now ((look b.region).bind (·.loop)).isSome = c at hc
  have hroom (h : 0 < ring) : c.hasRoom ring = true := by
    rw [hc]
    unfold Voice.hasRoom
    simp only [decide_eq_true_eq]
    omega
  have hlimit : c.fillLimit = false := by
    rw [hc]
    rfl
  rcases c.tested_cases look ring with heq | ⟨-, heq⟩
  · rw [heq]
    refine ⟨by rw [hc]; exact ⟨rfl, rfl, rfl, rfl, rfl, rfl, rfl, rfl, rfl⟩, by rw [hc]; exact ⟨rfl, rfl⟩,
      by rw [hc]; exact ⟨rfl, rfl, rfl, rfl, rfl⟩, fun _ => by rw [hc]; exact ⟨rfl, rfl⟩,
      fun hn => absurd (by rw [hc]) hn, fun r hr hloc hring => ?_, fun r next _ _ hn => ?_⟩
    · have helig : c.eligible ring = true :=
        (c.eligible_iff ring).2 ⟨by rw [hc], by rw [hc], hroom hring, hlimit⟩
      have hissued : c.tested look ring = c.issued.advance look := by
        unfold Voice.tested
        rw [if_pos ?_]
        rw [helig, hc]
        simp [hr, hloc]
      have hn := (Voice.advance_sameFill look c.issued).n
      rw [← hissued, heq, hc] at hn
      cases hn
    · rw [hc] at hn
      cases hn
  · rw [heq]
    have hcore := Voice.advance_core look c.issued
    have hfill := Voice.advance_sameFill look c.issued
    have hfollow : c.issued.follow = none := by
      rw [hc]
      rfl
    obtain ⟨hkf, hkr⟩ := (Voice.advance_kept look c.issued).2.1 hfollow
    have hloop := Voice.advance_alone look hfollow
    have hn : (c.issued.advance look).n = 1 := by
      rw [hfill.n, hc]
      rfl
    refine ⟨?_, ?_, ?_, fun h0 => ?_, fun _ => ⟨hn, ?_⟩, fun _ _ _ _ => hn, fun r next hr hnext _ => ?_⟩
    · rw [hcore.tag, hcore.record, hcore.requester, hcore.s0, hcore.r, hcore.target, hcore.step, hcore.loopRequest,
        hcore.loopReleased, hc]
      exact ⟨rfl, rfl, rfl, rfl, rfl, rfl, rfl, rfl, rfl⟩
    · rw [hcore.state, hcore.p, hc]
      exact ⟨rfl, rfl⟩
    · rw [hfill.d, hcore.pendingEnd, hkr, hloop, hc]
      refine ⟨rfl, rfl, ?_, rfl, rfl⟩
      rw [hc] at hkf
      exact hkf
    · rw [hn] at h0
      cases h0
    · rw [hfill.inFlight, hc]
      rfl
    · rw [hloop]
      exact Voice.advance_cursor (by rw [hc]; rfl) (by rw [hc]; exact hr) hfollow hnext

/-! ### The voice table after the creation -/

theorem State.look_loop (s : State) (id : Nat) : (s.look id).bind (·.loop) = (s.region? id).bind (·.loop) := by
  unfold State.look
  cases s.region? id <;> rfl

/-- An advance without a follow region held releases no use (R72, R75). -/
theorem State.advanceCursor_regions {s : State} {v : Voice} (hv : s.voice? v.tag = some v) (hf : v.follow = none) :
    (s.advanceCursor v.tag).catalogue.regions = s.catalogue.regions := by
  unfold State.advanceCursor
  rw [hv]
  dsimp only
  split
  · split
    · rfl
    · split
      · rfl
      · rw [hf]
        dsimp only
        unfold State.regionEnd
        dsimp only
        split <;> rfl
  · rfl

/-- The created voice joins the table, and its first read may be issued (R27, R28, R77). -/
theorem State.createVoice_created {s : State} {b : Bid} {record : Nat} (hidle : s.steal.idleRecord? = some record)
    (hfresh : ∀ v ∈ s.steal.voices, v.tag ≠ b.tag) : ∃ c,
      b.Created s.steal.look record s.steal.timebase.tick s.steal.ringLength c ∧
      (s.createVoice b).voices = s.steal.voices ++ [c] ∧
      (s.createVoice b).catalogue.regions = s.steal.catalogue.regions ∧ NoticeStep s.steal (s.createVoice b) := by
  have hcreate : s.createVoice b = (s.steal.setVoices (s.steal.voices ++
      [b.create record s.steal.timebase.tick ((s.steal.look b.region).bind (·.loop)).isSome])).testEligible b.tag := by
    rw [State.look_loop]
    unfold State.createVoice
    dsimp only
    rw [hidle]
  rw [hcreate]
  generalize s.steal = x at *
  have hmade := b.created_tested x.look record x.timebase.tick x.ringLength
  obtain ⟨dry, hc⟩ := b.create_eq record x.timebase.tick ((x.look b.region).bind (·.loop)).isSome
  generalize b.create record x.timebase.tick ((x.look b.region).bind (·.loop)).isSome = c at *
  have htag : c.tag = b.tag := by rw [hc]
  have hfollow : c.follow = none := by rw [hc]
  rw [← htag] at hfresh ⊢
  generalize hy : x.setVoices (x.voices ++ [c]) = y
  have hyc : y.voice? c.tag = some c := by
    rw [← hy]
    unfold State.voice?
    rw [State.setVoices_voices, List.find?_append, List.find?_eq_none.2 fun v hv => by simpa using hfresh v hv]
    simp
  have hfills := State.testEligible_fills (G := fun _ => True) y c.tag
  have hlook : y.look = x.look := by
    rw [← hy]
    rfl
  have hring : y.ringLength = x.ringLength := by
    rw [← hy]
    rfl
  have hregions : y.catalogue.regions = x.catalogue.regions := by
    rw [← hy]
    rfl
  have hvoices : y.voices = x.voices ++ [c] := by
    rw [← hy]
    rfl
  rw [hlook, hring] at hfills
  refine ⟨_, hmade, ?_, ?_, (NoticeStep.of_eq (s := x) (by rw [← hy]; rfl)).trans hfills.notices.noticeStep⟩
  · rw [hfills.voices, voicesAfter_update, hvoices]
    exact updateFirst_append (p := fun v : Voice => v.tag == c.tag) (x := c) (beq_self_eq_true c.tag) _
      (fun v hv => by simpa using hfresh v hv) []
  · rcases State.testEligible_cases hyc with ⟨heq, -⟩ | ⟨z, hz, -, -, hzr, hdie, -, -⟩
    · rw [heq]
      exact hregions
    · rw [hdie.regions]
      have hadv := State.advanceCursor_regions (s := z) (v := c.issued) hz hfollow
      exact hadv.trans (hzr.trans hregions)

/-! ### The watches decided late -/

theorem State.decideWatch_watches (s : State) (w : Watch) :
    (s.decideWatch w).claims.watches = s.claims.watches.filter fun x => x.tag != w.tag := by
  unfold State.decideWatch
  dsimp only
  split <;> rfl

/-- The watches fallen due are gone once they are decided, and every other of their tags (R138). -/
theorem State.settleDue_watches (s : State) : s.settleDue.claims.watches =
    s.claims.watches.filter fun w => !s.claims.watches.any fun x => x.due && x.tag == w.tag := by
  have key (l : List Watch) : ∀ x : State, (l.foldl State.decideWatch x).claims.watches =
      x.claims.watches.filter fun w => !l.any fun y => y.tag == w.tag := by
    induction l with
    | nil =>
      intro x
      exact (List.filter_eq_self.2 fun _ _ => rfl).symm
    | cons y ys ih =>
      intro x
      rw [List.foldl_cons, ih, State.decideWatch_watches, List.filter_filter]
      refine List.filter_congr fun w _ => ?_
      rw [List.any_cons, Bool.not_or, Bool.and_comm]
      congr 1
      exact congrArg (!·) (Bool.beq_comm)
  unfold State.settleDue
  rw [key]
  refine List.filter_congr fun w _ => ?_
  rw [List.any_filter]

theorem State.settleDue_noticeStep (s : State) : NoticeStep s s.settleDue := by
  have key (l : List Watch) : ∀ x : State, NoticeStep x (l.foldl State.decideWatch x) := by
    induction l with
    | nil => exact fun x => .refl x
    | cons w l ih =>
      intro x
      refine NoticeStep.trans ?_ (ih (x.decideWatch w))
      unfold State.decideWatch
      dsimp only
      split
      · exact .of_eq rfl
      · exact (NoticeStep.of_eq (s := x) (t := x.dropWatch w.tag) rfl).trans (State.queueNotice_noticeStep _ _ _)
  exact key _ s

theorem State.hear_step (s : State) (tag : Nat) : (s.hear tag).port = s.port ∧ (s.hear tag).station = s.station ∧
    (s.hear tag).timebase = s.timebase ∧ (s.hear tag).voices = s.voices ∧ (s.hear tag).catalogue = s.catalogue ∧
    (s.hear tag).claims.bids = s.claims.bids ∧ (s.hear tag).notices = s.notices ∧
    (s.hear tag).claims.watches =
      s.claims.watches.map fun w => if w.tag = tag then { w with heard := true } else w :=
  ⟨rfl, rfl, rfl, rfl, rfl, rfl, rfl, rfl⟩

/-- What the rest of a CLAIM's step leaves of the voices, once the watches are marked and decided (R137, R138). -/
theorem State.heard_finish {y : State} (tag : Nat) (h : y.port = { bus := .skipping, sending := none }) :
    (y.hear tag).settleDue.finish.voices = y.voices ∧ (y.hear tag).settleDue.finish.claims.bids = y.claims.bids ∧
      (y.hear tag).settleDue.finish.claims.watches = (y.claims.watches.filter fun w =>
        !y.claims.watches.any fun x => x.due && x.tag == w.tag).map
          (fun w => if w.tag = tag then { w with heard := true } else w) ∧
      (y.hear tag).settleDue.finish.station = y.station ∧
      (y.hear tag).settleDue.finish.timebase.tick = y.timebase.tick ∧
      (y.hear tag).settleDue.finish.port = { bus := .skipping, sending := none } ∧
      (∀ id, (y.hear tag).settleDue.finish.uses? id = y.uses? id) ∧
      NoticeStep y (y.hear tag).settleDue.finish := by
  obtain ⟨hport, hstation, htimebase, hvoices, hcatalogue, hbids, hnotices, hwatches⟩ := y.hear_step tag
  have hsettle := (y.hear tag).settleDue_step
  have hsettlePort := hsettle.port.trans (hport.trans h)
  obtain ⟨hclaims, hfport⟩ := State.finish_skipping hsettlePort
  refine ⟨(State.finish_voices _).trans (hsettle.voices.trans hvoices), ?_, ?_,
    (State.finish_station _).trans (hsettle.station.trans hstation), ?_, hfport.trans hsettlePort, fun id => ?_,
    (NoticeStep.of_eq hnotices).trans ((State.settleDue_noticeStep _).trans (State.finish_noticeStep _))⟩
  · rw [hclaims, hsettle.bids, hbids]
  · rw [hclaims, State.settleDue_watches, hwatches, List.filter_map]
    refine congrArg (List.map _) (List.filter_congr fun w _ => ?_)
    have hkeep (y : Watch) : (if y.tag = tag then { y with heard := true } else y).due = y.due ∧
        (if y.tag = tag then { y with heard := true } else y).tag = y.tag := by
      split <;> exact ⟨rfl, rfl⟩
    have hcomp (w : Watch) : ((fun x => x.due && x.tag == w.tag) ∘ fun w : Watch =>
        if w.tag = tag then { w with heard := true } else w) = fun x : Watch => x.due && x.tag == w.tag := by
      funext y
      rw [Function.comp, (hkeep y).1, (hkeep y).2]
    simp only [Function.comp_apply, List.any_map, (hkeep w).2, hcomp]
  · rw [State.finish_timebase, hsettle.timebase, htimebase]
  · rw [State.finish_uses, State.uses_congr (congrArg Catalogue.regions hsettle.catalogue),
      State.uses_congr (congrArg Catalogue.regions hcatalogue)]

/-- Settles O23. -/
theorem wonClaimCreatesTheVoice : Obligations.WonClaimCreatesTheVoice := by
  intro s t b f hsending hbid hlaw record victim hcase
  obtain ⟨htags, hrecords, hbound, -, hapart⟩ := hlaw
  have hb : b ∈ s.claims.bids := List.mem_of_find?_eq_some hbid
  generalize hx : ((s.atTime t).setPort { bus := .skipping, sending := none }).setBids
    (s.claims.bids.filter fun c => c.tag != b.tag) = x
  have hexec : exec (.claimWon t) s = .next (((x.createVoice b).hear b.tag).settleDue).finish := by
    have h1 : (s.atTime t).port.sending = some (.claim b.tag f) := hsending
    have h2 : ((s.atTime t).setPort { bus := .skipping, sending := none }).bid? b.tag = some b := hbid
    simp only [exec, execClaimWon, h1, h2]
    rw [← hx]
    rfl
  have hfields : x.voices = s.voices ∧ x.look = s.look ∧ x.notices = s.notices ∧ x.station = s.station ∧
      x.timebase = s.timebase ∧ x.port = { bus := .skipping, sending := none } ∧
      x.claims.bids = s.claims.bids.filter (fun c => c.tag != b.tag) ∧ x.claims.watches = s.claims.watches ∧
      (∀ id, x.uses? id = s.uses? id) ∧ x.idleRecord? = s.idleRecord? ∧ x.stealVictim? = s.stealVictim? := by
    rw [← hx]
    exact ⟨rfl, rfl, rfl, rfl, rfl, rfl, rfl, rfl, fun _ => rfl, rfl, rfl⟩
  obtain ⟨hvoices, hlook, hnotices, hstation, htimebase, hport, hbids, hwatches, huses, hidle, hvictim⟩ := hfields
  have htakes : x.Takes record victim := by
    unfold State.Takes
    rw [hidle, hvictim]
    exact hcase
  clear hidle hvictim
  rw [← hvoices] at htags hrecords hbound hapart
  obtain ⟨hrecord, hstays, hstealLook, hstealUses, hstealStep, htold⟩ :=
    State.steal_takes htags hrecords hbound htakes
  have hfresh : ∀ v ∈ x.steal.voices, v.tag ≠ b.tag := fun v hv => hapart v ((hstays v).1 hv).1 b hb
  obtain ⟨c, hc, hcv, hcr, hcn⟩ := State.createVoice_created hrecord hfresh
  have hstep := x.createVoice_step b
  have hsteal := x.steal_step
  obtain ⟨hfv, hfb, hfw, hfs, hft, hfp, hfu, hfn⟩ := State.heard_finish b.tag (hstep.port.trans hport)
  have hmem (w : Voice) : w ∈ ((x.createVoice b).hear b.tag).settleDue.finish.voices ↔
      w ∈ s.voices ∧ some w.tag ≠ victim.map (·.tag) ∨ w = c := by
    rw [hfv, hcv, List.mem_append, hstays, hvoices, List.mem_singleton]
  have htick : x.steal.timebase.tick = s.timebase.tick := by rw [hsteal.timebase, htimebase]
  have hring : x.steal.ringLength = s.ringLength := by
    rw [State.ringLength_congr hsteal]
    unfold State.ringLength
    rw [hstation]
  rw [hstealLook, hlook, htick, hring] at hc
  obtain ⟨⟨hctag, hcrec, hcreq, hcs0, hcrate, hctarget, hcstep, hclr, hcrel⟩, ⟨hcstate, hcp⟩, hckept, hcwaits, hcreads,
    hcissued, hcadvanced⟩ := hc
  obtain ⟨himmediate, hreached, hcoming, harmed⟩ := b.startState_cases s.timebase.tick
  rw [← hcstate, ← hcp] at himmediate hreached hcoming harmed
  refine ⟨_, hexec, ?_, hfs.trans (hstep.station.trans hstation), ?_, hfp, ?_, fun id => ?_,
    fun v hv => htold v hv s _ (.of_eq hnotices) (hcn.trans hfn), fun v hv hne => (hmem v).2 (.inl ⟨hv, hne⟩),
    fun w hw => ((hmem w).1 hw).symm.imp (fun h => by rw [h]; exact hctag) id,
    c, (hmem c).2 (.inr rfl), hctag, hcrec, hcreq, hcs0, hcrate, hctarget, hcstep, hclr, hcrel, ?_⟩
  · rw [hfb, hstep.claims, hbids]
  · rw [hft, hstep.timebase, htimebase]
  · rw [hfw, hstep.claims, hwatches]
  · rw [hfu, State.uses_congr hcr, hstealUses, huses]
  · obtain ⟨hcd, hcpend, hcfollow, hcregion, hcloop⟩ := hckept
    refine ⟨hcd, hcpend, hcfollow, hcregion, ?_, hcwaits, hcreads, fun r hr => ⟨?_, fun next hnext hn => ?_⟩, himmediate,
      hreached, hcoming, harmed⟩
    · rw [hcloop, State.look_loop]
    · exact hcissued r.unused (State.look_of_region hr)
    · exact hcadvanced r.unused next (State.look_of_region hr) hnext hn

end Sys2Proof.Machine
end

