-- ==== Sys2Proof/Proofs/Idling.lean ====
section
/-! SUPPORT. While no IDLE die holds a waiting program, the dies' choices start none and turn none away (R94, R102):
what the dies' work then keeps, through retirements, queued erases and the failure of an install. -/

namespace Sys2Proof.Machine

/-- No IDLE die holds a waiting program (R94). -/
def State.IdleCalm (s : State) : Prop :=
  ∀ die ∈ s.media.dies, die.state = .idle → ∀ op ∈ die.longOps, op.isProgram = false

/-- The program that a die has under way or suspended. -/
def DieState.program? (x : DieState) : Option Program :=
  match x.longOp? with
  | some (.program p) => some p
  | some (.erase _) | none => none

/-- From `s` to `t` the dies start no program, end none and turn none away, while no IDLE die holds one. -/
structure Idling (s t : State) : Prop where
  calm     : s.IdleCalm → t.IdleCalm
  refused  : s.IdleCalm → t.media.frontFailed = s.media.frontFailed
  programs : s.IdleCalm → ∀ d, (t.die d).state.program? = (s.die d).state.program?

theorem Idling.refl (s : State) : Idling s s := ⟨id, fun _ => rfl, fun _ _ => rfl⟩

theorem Idling.trans {s t u : State} (a : Idling s t) (b : Idling t u) : Idling s u :=
  ⟨fun h => b.calm (a.calm h), fun h => (b.refused (a.calm h)).trans (a.refused h),
    fun h d => (b.programs (a.calm h) d).trans (a.programs h d)⟩

theorem Idling.foldl {α : Type} (f : State → α → State) (h : ∀ s a, Idling s (f s a)) (l : List α) :
    ∀ s, Idling s (l.foldl f s) := by
  induction l with
  | nil => exact Idling.refl
  | cons a l ih => exact fun s => (h s a).trans (ih (f s a))

/-- A change outside the media controller. -/
theorem Idling.of_media {s t : State} (h : t.media = s.media) : Idling s t := by
  refine ⟨fun hs => ?_, fun _ => by rw [h], fun _ d => ?_⟩
  · unfold State.IdleCalm
    rwa [h]
  · unfold State.die
    rw [h]

/-- A change of the media controller that leaves the dies and the programs turned away. -/
theorem Idling.setMedia {s : State} {x : Media} (hd : x.dies = s.media.dies)
    (hf : x.frontFailed = s.media.frontFailed) : Idling s (s.setMedia x) := by
  refine ⟨fun hs => ?_, fun _ => hf, fun _ d => ?_⟩
  · intro die hm
    rw [State.setMedia_media, hd] at hm
    exact hs die hm
  · unfold State.die
    rw [State.setMedia_media, hd]

theorem Idling.setDie {s : State} {d : Nat} {x : Die} (free : Nat)
    (hp : s.IdleCalm → x.state.program? = (s.die d).state.program?)
    (hc : s.IdleCalm → x.state = .idle → ∀ op ∈ x.longOps, op.isProgram = false) :
    Idling s (s.setMedia { s.media with dies := s.media.dies.set d x, freeBuffers := free }) := by
  refine ⟨fun hs die hm => ?_, fun _ => rfl, fun hs e => ?_⟩
  · rcases List.mem_or_eq_of_mem_set hm with hm | rfl
    · exact hs die hm
    · exact hc hs
  · rw [State.die_setDie]
    split
    next h => rw [hp hs, h.1]
    next => rfl

theorem Idling.updateDie {s : State} {d : Nat} {f : Die → Die}
    (hp : s.IdleCalm → (f (s.die d)).state.program? = (s.die d).state.program?)
    (hc : s.IdleCalm → (f (s.die d)).state = .idle → ∀ op ∈ (f (s.die d)).longOps, op.isProgram = false) :
    Idling s (s.updateDie d f) := by
  have h := Idling.setDie s.media.freeBuffers hp hc
  unfold State.updateDie
  rw [modify_eq_set s.media.dies d f Die.reset]
  exact h

/-- Every die changed alike, with its program and its being IDLE kept and no waiting program more. -/
theorem Idling.mapDies {s : State} {f : Die → Die} (hp : ∀ die, (f die).state.program? = die.state.program?) (hi : ∀ die, (f die).state = .idle → die.state = .idle)
    (ho : ∀ die, ∀ op ∈ (f die).longOps, op ∈ die.longOps) :
    Idling s (s.setMedia { s.media with dies := s.media.dies.map f }) := by
  refine ⟨fun hs die hm hidle op hop => ?_, fun _ => rfl, fun _ d => ?_⟩
  · obtain ⟨x, hx, rfl⟩ := List.mem_map.1 hm
    exact hs x hx (hi x hidle) op (ho x op hop)
  · simp only [State.die, State.setMedia_media, List.getD_eq_getElem?_getD, List.getElem?_map]
    cases s.media.dies[d]? with
    | none => rfl
    | some die => exact hp die

/-- An IDLE die's waiting operations, of a die that the list may not have. -/
theorem State.IdleCalm.die {s : State} (h : s.IdleCalm) {d : Nat} (hd : (s.die d).state = .idle) :
    ∀ op ∈ (s.die d).longOps, op.isProgram = false := by
  by_cases hl : d < s.media.dies.length
  · exact h _ (State.die_mem hl) hd
  · rw [State.die_eq_reset hl]
    exact fun op hop => absurd hop List.not_mem_nil

theorem Die.begin_program {die x : Die} {free free' : Nat} (h : die.begin? free = some (x, free')) :
    x.state.program? = die.state.program? := by
  unfold DieState.program?
  rw [show x.state.longOp? = die.state.longOp? from congrArg Prod.fst (Die.begin_work h).1]

theorem State.beginRead_idling {s t : State} {d : Nat} (h : s.beginRead? d = some t) : Idling s t := by
  unfold State.beginRead? at h
  obtain ⟨⟨x, free⟩, hx, rfl⟩ := Option.map_eq_some_iff.1 h
  exact Idling.setDie free (fun _ => Die.begin_program hx) fun _ hi => absurd hi (Die.begin_work hx).2

theorem State.beginRead_getD_idling (s : State) (d : Nat) : Idling s ((s.beginRead? d).getD s) := by
  cases h : s.beginRead? d with
  | none => exact Idling.refl s
  | some t => exact State.beginRead_idling h

/-- With no program waiting, step 2 of the idle choice takes the head erase, if there is one (R94). -/
theorem State.takeLongOp_erases {s : State} {d : Nat} (h : ∀ op ∈ (s.die d).longOps, op.isProgram = false) :
    ((s.die d).longOps = [] ∧ s.takeLongOp d = (s.updateDie d fun die => { die with longOps := [] }, false)) ∨
      ∃ b rest, (s.die d).longOps = .erase b :: rest ∧ s.takeLongOp d =
        ((s.updateDie d fun die => { die with state := .busy (.erase b), longOps := rest }).updateBlock d b
          Block.startErase, true) := by
  have hsame : s.setMedia { s.media with frontFailed := s.media.frontFailed ++ [] } = s := by
    rw [List.append_nil]
    exact s.setMedia_same
  have hsplit := splitRefused_none (s.fronts d) (s.die d).longOps h
  cases hl : (s.die d).longOps with
  | nil => exact .inl ⟨rfl, State.takeLongOp_none hl⟩
  | cons op rest =>
    cases op with
    | program p => exact absurd (h (.program p) (by rw [hl]; exact List.mem_cons_self)) nofun
    | erase b =>
      refine .inr ⟨b, rest, rfl, ?_⟩
      unfold State.takeLongOp
      simp only [hsplit, List.map_nil, hsame]
      simp only [hl]
      rfl

theorem State.takeLongOp_idling {s : State} {d : Nat} (hi : (s.die d).state = .idle)
    (h : ∀ op ∈ (s.die d).longOps, op.isProgram = false) : Idling s (s.takeLongOp d).1 := by
  rcases State.takeLongOp_erases h with ⟨_, he⟩ | ⟨b, rest, _, he⟩ <;> rw [he]
  · exact Idling.updateDie (fun _ => rfl) fun _ _ op hop => absurd hop List.not_mem_nil
  · have hstart : Idling s (s.updateDie d fun die => { die with state := .busy (.erase b), longOps := rest }) :=
      Idling.updateDie (fun _ => by rw [hi]; rfl) fun _ h => by cases h
    exact hstart.trans (.of_media rfl)

/-- The facts of a step hold if they hold from a state without a program on an IDLE die. -/
theorem Idling.intro {s t : State} (h : s.IdleCalm → Idling s t) : Idling s t :=
  ⟨fun hs => (h hs).calm hs, fun hs => (h hs).refused hs, fun hs => (h hs).programs hs⟩

theorem State.idleChoice_idling (s : State) (d : Nat) : Idling s (s.idleChoice d) := by
  refine .intro fun hs => ?_
  unfold State.idleChoice
  split
  next hidle =>
    have htake := State.takeLongOp_idling hidle (hs.die hidle)
    dsimp only
    split
    next u hu =>
      split at hu
      · exact State.beginRead_idling hu
      · cases hu
    next =>
      split
      · exact htake
      · exact htake.trans (State.beginRead_getD_idling _ d)
  next => exact Idling.refl s

theorem State.serviceDecision_idling (s : State) (d : Nat) : Idling s (s.serviceDecision d) := by
  unfold State.serviceDecision
  split
  next op hop =>
    split
    · exact s.beginRead_getD_idling d
    · exact .updateDie (fun _ => by simp only [DieState.program?, DieState.longOp?, hop]) fun _ h => by cases h
  all_goals exact Idling.refl s

theorem State.suspendTest_idling (s : State) (d : Nat) : Idling s (s.suspendTest d) := by
  unfold State.suspendTest
  split
  next op hop =>
    split
    · exact .updateDie (fun _ => by simp only [DieState.program?, DieState.longOp?, hop]) fun _ h => by cases h
    · exact Idling.refl s
  all_goals exact Idling.refl s

theorem State.readsChanged_idling (s : State) (d : Nat) : Idling s (s.readsChanged d) := by
  unfold State.readsChanged
  split
  · exact s.idleChoice_idling d
  · exact s.suspendTest_idling d
  · exact s.serviceDecision_idling d
  all_goals exact Idling.refl s

theorem State.freeBuffer_idling (s : State) : Idling s s.freeBuffer := by
  have h : Idling s (s.setMedia { s.media with freeBuffers := s.media.freeBuffers + 1 }) := .setMedia rfl rfl
  unfold State.freeBuffer
  dsimp only
  split
  · exact h.trans (State.beginRead_getD_idling _ _)
  · exact h

theorem State.freeBuffers_idling (n : Nat) : ∀ s : State, Idling s (s.freeBuffers n) := by
  induction n with
  | zero => exact Idling.refl
  | succ n ih => exact fun s => s.freeBuffer_idling.trans (ih _)

/-! ### Retirements -/

theorem State.discardSegments_idling (s : State) (tags : List Nat) : Idling s (s.discardSegments tags) := by
  have hmark : Idling s (s.setMedia { s.media with dies := s.media.dies.map (·.discard tags) }) := by
    refine .mapDies (fun die => ?_) (fun die => (DieState.mapRead_longOp _ _).2) fun _ _ h => h
    simp only [DieState.program?, Die.discard, (DieState.mapRead_longOp _ _).1]
  have hdiscarded : Idling s (s.discarded tags) := hmark.trans (.of_media rfl)
  rw [State.discardSegments_eq]
  exact (hdiscarded.trans (State.freeBuffers_idling _ _)).trans (Idling.foldl _ State.readsChanged_idling _ _)

theorem State.retireAll_idling (s : State) (reason : RetireReason) : Idling s (s.retireAll reason) :=
  (s.discardSegments_idling _).trans
    (Idling.foldl _ (fun s v => .of_media (s.retireRecord_media reason v).1) _ _)

/-! ### Queued erases, and the end of an install -/

theorem State.joinErases_idling (s : State) (d : Nat) (blocks : List Nat) : Idling s (s.joinErases d blocks) := by
  unfold State.joinErases
  split
  · exact Idling.refl s
  · have hjoin : Idling s (s.updateDie d fun die => { die with longOps := die.longOps ++ blocks.map LongOp.erase }) := by
      refine .updateDie (fun _ => rfl) fun hs hi op hop => ?_
      rcases List.mem_append.1 hop with hop | hop
      · exact hs.die hi op hop
      · obtain ⟨b, -, rfl⟩ := List.mem_map.1 hop
        rfl
    exact hjoin.trans (State.idleChoice_idling _ d)

theorem State.queueDeadOn_idling (s : State) (d : Nat) : Idling s (s.queueDeadOn d) :=
  Idling.trans (t := s.updateDieBlocks d _) (.of_media rfl) (State.joinErases_idling _ d _)

theorem State.queueDead_idling (s : State) : Idling s s.queueDead :=
  Idling.foldl _ State.queueDeadOn_idling _ s

theorem State.withdrawPrograms_idling (s : State) : Idling s s.withdrawPrograms :=
  .mapDies (fun _ => rfl) (fun _ h => h) fun _ _ h => (List.mem_filter.1 h).1

theorem State.failInstall_idling (s : State) (i : InstallItem) (reason : Reason) :
    Idling s (s.failInstall i reason) := by
  have hdead : Idling s s.clearPending.queueDead :=
    Idling.trans (t := s.clearPending) (.of_media rfl) (State.queueDead_idling _)
  unfold State.failInstall
  generalize s.clearPending.queueDead = y at hdead ⊢
  have hwithdraw : Idling y (((y.endItem.dropPending i.region).lowerOwed).withdrawPrograms) :=
    Idling.trans (t := (y.endItem.dropPending i.region).lowerOwed) (.of_media rfl) (State.withdrawPrograms_idling _)
  exact (hdead.trans hwithdraw).trans (.of_media rfl)

end Sys2Proof.Machine
end

