-- ==== Sys2Proof/Proofs/LinkLoss.lean ====
section
/-! PROOF. O46: the loss of the delivery link. It empties the deliveries, the voice table and the bid list, stops the
station's own CLAIM, and fails the RUNNING install unless its log record is being programmed. -/

namespace Sys2Proof.Machine

/-! ### The end of an install -/

theorem State.nextItem_of_empty {s : State} (h : s.installer.work = []) : s.nextItem = s := by
  unfold State.nextItem
  rw [State.startNext, h]
  split <;> rfl

theorem State.failInstall_delivery (s : State) (i : InstallItem) (reason : Reason) :
    (s.failInstall i reason).delivery = s.delivery := by
  have h : s.clearPending.queueDead.delivery = s.delivery := s.clearPending.queueDead_step.delivery
  unfold State.failInstall
  generalize s.clearPending.queueDead = y at h ⊢
  exact h

theorem State.queueDeadOn_owed (s : State) (d : Nat) : (s.queueDeadOn d).catalogue.owed = s.catalogue.owed :=
  (State.joinErases_die (s.updateDieBlocks d _) d _).owed

theorem State.queueDead_owed (s : State) : s.queueDead.catalogue.owed = s.catalogue.owed := by
  unfold State.queueDead
  generalize dieNumbers = l
  induction l generalizing s with
  | nil => rfl
  | cons d l ih => exact (ih _).trans (s.queueDeadOn_owed d)

theorem State.failInstall_owed (s : State) (i : InstallItem) (reason : Reason) :
    (s.failInstall i reason).catalogue.owed = s.catalogue.owed - 1 := by
  have h : s.clearPending.queueDead.catalogue.owed = s.catalogue.owed := s.clearPending.queueDead_owed
  unfold State.failInstall
  generalize s.clearPending.queueDead = y at h ⊢
  exact congrArg (· - 1) h

theorem State.failInstall_told {s t u : State} (i : InstallItem) (reason : Reason) (a : NoticeStep s t)
    (b : NoticeStep (t.failInstall i reason) u) :
    s.told u { addressee := i.sender, body := .installFailed i.region reason, isOpen := false } := by
  have h : t.clearPending.queueDead.notices = t.notices := t.clearPending.queueDead_step.notices
  unfold State.failInstall at b
  generalize t.clearPending.queueDead = y at h b
  have hy : NoticeStep t (((y.endItem).dropPending i.region).lowerOwed).withdrawPrograms := .of_eq h
  exact State.told_queueNotice _ _ rfl (a.trans hy) b

/-! ### With the link DOWN no install read begins (R162, R174) -/

/-- With the link DOWN the delivery engine stays as it is. -/
def Unlinked (s t : State) : Prop := s.delivery.link = .down → t.delivery = s.delivery

theorem Unlinked.refl (s : State) : Unlinked s s := fun _ => rfl

theorem Unlinked.of_eq {s t : State} (h : t.delivery = s.delivery) : Unlinked s t := fun _ => h

theorem Unlinked.trans {s t u : State} (a : Unlinked s t) (b : Unlinked t u) : Unlinked s u := fun h =>
  (b (by rw [a h]; exact h)).trans (a h)

theorem State.startNext_unlinked (n : Nat) : ∀ s : State, Unlinked s (State.startNext n s) := by
  induction n with
  | zero => exact Unlinked.refl
  | succ n ih =>
    intro s
    have refused (sender region : Nat) (reason : Reason) :
        Unlinked s ((s.endReclaim).refuse sender 11 reason region) := .of_eq rfl
    rw [State.startNext]
    split
    · exact Unlinked.refl s
    · split
      · split
        · split
          next hup => exact fun hdown => absurd (hup.symm.trans hdown) nofun
          next => exact (Unlinked.of_eq (s.failInstall_delivery _ _)).trans (ih _)
        · exact Unlinked.refl s
      · split
        · exact (refused _ _ _).trans (ih _)
        · split
          · exact (refused _ _ _).trans (ih _)
          · exact .of_eq (State.appendRecord_step _ _).delivery
      · exact Unlinked.refl s
      · exact Unlinked.refl s
      · exact Unlinked.refl s

theorem State.nextItem_unlinked (s : State) : Unlinked s s.nextItem := State.startNext_unlinked 4 s

theorem State.installFails_unlinked (s : State) (i : InstallItem) (reason : Reason) :
    Unlinked s (s.installFails i reason) :=
  (Unlinked.of_eq (s.failInstall_delivery i reason)).trans (State.nextItem_unlinked _)

/-- The failure of a program begins no install read with the link DOWN (R165, R168). -/
theorem State.handOn_failed_unlinked (s : State) (d : Nat) (p : Program) : Unlinked s (s.handOn d p false) := by
  have orphan : Unlinked s (s.orphanResult d p false) :=
    Unlinked.trans (t := (s.updateBlock d p.block Block.programFailed).setInstaller
      { s.installer with held := false }) (.of_eq rfl) (State.nextItem_unlinked _)
  have failed : Unlinked s (s.updateBlock d p.block Block.programFailed) := .of_eq rfl
  have advanced : Unlinked s s.advanceAppend := .of_eq rfl
  have void (sender region : Nat) : Unlinked s (s.advanceAppend.voidFailed sender region) :=
    Unlinked.trans (t := ((s.advanceAppend.updateRegion region fun r => { r with state := .live }).endReclaim).refuse
      sender 11 .log region) (.of_eq rfl) (State.nextItem_unlinked _)
  unfold State.handOn
  split
  · unfold State.pageResult
    simp only [Bool.false_eq_true, if_false]
    split
    · split
      · exact failed.trans (State.installFails_unlinked _ _ _)
      · exact orphan
    · exact orphan
  · unfold State.logResult
    simp only [Bool.false_eq_true, if_false]
    split
    · split
      · exact advanced.trans (State.installFails_unlinked _ _ _)
      · exact advanced
    · exact void _ _
    · exact advanced

theorem State.settleFronts_unlinked (n : Nat) : ∀ s : State, Unlinked s (State.settleFronts n s) := by
  induction n with
  | zero => exact fun _ => .of_eq rfl
  | succ n ih =>
    intro s
    rw [State.settleFronts]
    split
    · exact Unlinked.refl s
    next d p rest _ =>
      exact Unlinked.trans (t := s.setMedia { s.media with frontFailed := rest }) (.of_eq rfl)
        ((State.handOn_failed_unlinked _ d p).trans (ih _))

theorem State.offer_delivery (s : State) : s.offer.delivery = s.delivery := s.offer_step.delivery

theorem State.finish_unlinked (s : State) : Unlinked s s.finish :=
  ((State.settleFronts_unlinked 8 s).trans (.of_eq rfl)).trans (.of_eq (State.offer_delivery _))

theorem State.linkLostInstall_unlinked (s : State) : Unlinked s s.linkLostInstall := by
  have fails (i : InstallItem) :
      Unlinked s ((s.setInstaller { s.installer with held := s.pageUnderWay }).installFails i .linkDown) :=
    Unlinked.trans (t := s.setInstaller { s.installer with held := s.pageUnderWay }) (.of_eq rfl)
      (State.installFails_unlinked _ i .linkDown)
  unfold State.linkLostInstall
  split
  · dsimp only
    split
    · exact Unlinked.refl s
    · exact fails _
    · exact fails _
    · exact fails _
    · split
      · exact Unlinked.refl s
      · exact fails _
  · exact Unlinked.refl s

/-! ### The retirement of every voice (R37) -/

theorem State.discardSegments_catalogue (s : State) (tags : List Nat) :
    (s.discardSegments tags).delivery = s.delivery.discard tags ∧
      (s.discardSegments tags).catalogue.owed = s.catalogue.owed ∧
      (s.discardSegments tags).catalogue.pendingInstalls = s.catalogue.pendingInstalls := by
  have hdie : DieStep (s.discarded tags) (s.discardSegments tags) := by
    rw [State.discardSegments_eq]
    exact (State.freeBuffers_die _ _).trans (DieStep.foldl _ State.readsChanged_die _ _)
  exact ⟨hdie.media.delivery, hdie.owed, hdie.installs⟩

theorem State.releaseUses_owed (l : List Nat) : ∀ s : State, (s.releaseUses l).catalogue.owed = s.catalogue.owed ∧
    (s.releaseUses l).catalogue.pendingInstalls = s.catalogue.pendingInstalls := by
  induction l with
  | nil => exact fun _ => ⟨rfl, rfl⟩
  | cons id l ih => exact fun s => ih (s.releaseUse id)

theorem State.retireAll_rest (s : State) (reason : RetireReason) :
    (s.retireAll reason).delivery = s.delivery.discard (s.voices.map (·.tag)) ∧
      (s.retireAll reason).catalogue.owed = s.catalogue.owed ∧
      (s.retireAll reason).catalogue.pendingInstalls = s.catalogue.pendingInstalls := by
  refine List.foldlRecOn (motive := fun t : State => t.delivery = s.delivery.discard (s.voices.map (·.tag)) ∧
    t.catalogue.owed = s.catalogue.owed ∧ t.catalogue.pendingInstalls = s.catalogue.pendingInstalls) _ _
    (s.discardSegments_catalogue _) fun t ⟨hd, ho, hi⟩ v _ => ?_
  obtain ⟨-, hdelivery, -, -, hcatalogue⟩ := t.retireRecord_media reason v
  obtain ⟨howed, hinstalls⟩ := State.releaseUses_owed v.uses (t.setVoices (t.voices.filter (·.tag != v.tag)))
  exact ⟨hdelivery.trans hd, (congrArg Catalogue.owed hcatalogue).trans (howed.trans ho),
    (congrArg Catalogue.pendingInstalls hcatalogue).trans (hinstalls.trans hi)⟩

theorem State.retireRecord_noticeStep (s : State) (reason : RetireReason) (v : Voice) :
    NoticeStep s (s.retireRecord reason v) := (s.retireRecord_reported reason v).noticeStep

theorem State.retireRecords_noticeStep (reason : RetireReason) (l : List Voice) :
    ∀ s : State, NoticeStep s (l.foldl (fun s v => s.retireRecord reason v) s) := by
  induction l with
  | nil => exact NoticeStep.refl
  | cons v l ih => exact fun s => (s.retireRecord_noticeStep reason v).trans (ih _)

/-- Each of the voices that retire together is told of (R37). -/
theorem State.told_retireAll {s t u : State} {reason : RetireReason} (hr : reason ≠ .halted) {v : Voice}
    (hv : v ∈ t.voices) (a : NoticeStep s t) (b : NoticeStep (t.retireAll reason) u) :
    s.told u { addressee := v.requester, body := .retired v.tag reason v.floorP, isOpen := false } := by
  obtain ⟨before, after, hl⟩ := List.append_of_mem (t.voicesByTag_perm.mem_iff.2 hv)
  unfold State.retireAll at b
  rw [hl, List.foldl_append, List.foldl_cons] at b
  exact State.told_retireRecord reason v hr
    ((a.trans (.of_eq (t.discardSegments_notices _).1)).trans (State.retireRecords_noticeStep reason before _))
    ((State.retireRecords_noticeStep reason after _).trans b)

/-! ### The port (R117, R118, R140) -/

/-- With no bid entry the offer choice begins no CLAIM (R114). -/
theorem State.offer_noClaim {s : State} (hb : s.claims.bids = []) (hp : ∀ tag f, s.port.sending ≠ some (.claim tag f)) :
    ∀ tag f, s.offer.port.sending ≠ some (.claim tag f) := by
  have hnone : s.offerBid? = none := by
    rw [State.offerBid?_eq, hb]
    rfl
  cases hm : s.port.mayBegin s.clock with
  | false => rwa [State.offer_busy s hm]
  | true =>
    cases hq : s.notices.queue with
    | nil => rwa [State.offer_none hm hnone hq]
    | cons n rest =>
      rw [State.offer_head hm hnone hq]
      exact fun tag f h => by cases h

theorem State.abandonClaim_step (s : State) : s.abandonClaim.clock = s.clock ∧ s.abandonClaim.station = s.station ∧
    s.abandonClaim.claims.bids = s.claims.bids ∧ s.abandonClaim.timebase = s.timebase ∧
    s.abandonClaim.media = s.media ∧ s.abandonClaim.catalogue = s.catalogue ∧
    s.abandonClaim.installer = s.installer ∧ s.abandonClaim.delivery = s.delivery ∧
    s.abandonClaim.voices = s.voices := by
  unfold State.abandonClaim
  split
  · have h := s.stopClaim_step
    exact ⟨h.clock, h.station, h.bids, h.timebase, h.media, h.catalogue, h.installer, h.delivery,
      h.voices⟩
  · exact ⟨rfl, rfl, rfl, rfl, rfl, rfl, rfl, rfl, rfl⟩
  · exact ⟨rfl, rfl, rfl, rfl, rfl, rfl, rfl, rfl, rfl⟩

theorem State.abandonClaim_sending (s : State) (tag : Nat) (f : Frame) :
    s.abandonClaim.port.sending ≠ some (.claim tag f) := by
  unfold State.abandonClaim
  split
  · rw [s.stopClaim_step.port]
    exact fun h => by cases h
  next hs => exact fun h => by rw [hs] at h; cases h
  next hs => exact fun h => by rw [hs] at h; cases h

theorem State.stopClaim_watches {s : State} (h : ∀ w ∈ s.claims.watches, w.due = false) :
    s.stopClaim = s.setPort s.port.stop := by
  unfold State.stopClaim
  dsimp only
  split
  · rfl
  · exact State.settleDue_none _ h

theorem State.abandonClaim_watches {s : State} (h : ∀ w ∈ s.claims.watches, w.due = false) :
    s.abandonClaim.claims = s.claims := by
  unfold State.abandonClaim
  split
  · rw [State.stopClaim_watches h]
    rfl
  · rfl
  · rfl

theorem State.abandonClaim_noticeStep (s : State) : NoticeStep s s.abandonClaim := by
  unfold State.abandonClaim
  split
  · unfold State.stopClaim
    dsimp only
    split
    · exact .of_eq rfl
    · exact NoticeStep.trans (t := s.setPort s.port.stop) (.of_eq rfl) (State.settleDue_noticeStep _)
  · exact NoticeStep.refl s
  · exact NoticeStep.refl s

/-! ### The parts together -/

/-- The station once its deliveries, voices and entries are gone and its CLAIM is stopped (R37, R140, R174). -/
def State.unlinked (s : State) : State :=
  ((((s.setDelivery { link := .down, queue := [], posting := none, installRead := none }).retireAll .link).freeBuffers
    (s.delivery.queue.length + if s.delivery.posting.isSome then 1 else 0)).dropBids).abandonClaim

theorem State.linkLost_eq (s : State) : s.linkLost = s.unlinked.settleFront.linkLostInstall.finish := rfl

theorem State.dropBids_fields (s : State) : s.dropBids.clock = s.clock ∧ s.dropBids.claims.bids = [] ∧
    s.dropBids.claims.watches = s.claims.watches ∧ s.dropBids.installer = s.installer ∧
    s.dropBids.delivery = s.delivery ∧ s.dropBids.catalogue.owed = s.catalogue.owed ∧
    s.dropBids.catalogue.pendingInstalls = s.catalogue.pendingInstalls := by
  have h := State.releaseUses_step (s.setBids []) (s.claims.bids.map (·.region))
  obtain ⟨howed, hinstalls⟩ := State.releaseUses_owed (s.claims.bids.map (·.region)) (s.setBids [])
  exact ⟨h.clock, congrArg ClaimUnit.bids h.claims, (congrArg ClaimUnit.watches h.claims).trans rfl, h.installer, h.delivery, howed,
    hinstalls⟩

/-- What the link's loss leaves before the install fails (R37, R140, R174). -/
structure Unlinks (s t : State) : Prop where
  clock    : t.clock = s.clock
  station  : t.station = s.station
  timebase : t.timebase = s.timebase
  delivery : t.delivery = { link := .down, queue := [], posting := none, installRead := none }
  voices   : t.voices = []
  bids     : t.claims.bids = []
  watches  : (∀ w ∈ s.claims.watches, w.due = false) → t.claims.watches = s.claims.watches
  sending  : ∀ tag f, t.port.sending ≠ some (.claim tag f)
  work     : t.installer = s.installer
  owed     : t.catalogue.owed = s.catalogue.owed
  installs : t.catalogue.pendingInstalls = s.catalogue.pendingInstalls
  idling   : Idling s t
  told     : ∀ v ∈ s.voices, ∀ {u : State}, NoticeStep t u →
    s.told u { addressee := v.requester, body := .retired v.tag .link v.floorP, isOpen := false }
  notices  : NoticeStep s t

theorem State.unlinked_unlinks (s : State) : Unlinks s s.unlinked := by
  have hretire : NoticeStep s (s.setDelivery { link := .down, queue := [], posting := none, installRead := none }) :=
    .of_eq rfl
  have hidle : Idling s (s.setDelivery { link := .down, queue := [], posting := none, installRead := none }) :=
    .of_media rfl
  unfold State.unlinked
  generalize hx : s.setDelivery { link := .down, queue := [], posting := none, installRead := none } = x at hretire hidle
  have hxd : x.delivery = { link := .down, queue := [], posting := none, installRead := none } := by rw [← hx]; rfl
  have hxv : x.voices = s.voices := by rw [← hx]; rfl
  have hxrest : x.clock = s.clock ∧ x.station = s.station ∧ x.timebase = s.timebase ∧ x.claims = s.claims ∧
      x.installer = s.installer ∧ x.catalogue = s.catalogue := by rw [← hx]; exact ⟨rfl, rfl, rfl, rfl, rfl, rfl⟩
  obtain ⟨hclock, hstation, htimebase, hclaims, hinstaller, hcatalogue⟩ := hxrest
  have hall := x.retireAll_step .link
  obtain ⟨hrd, hro, hri⟩ := x.retireAll_rest .link
  have hri' := x.retireAll_idling .link
  have hrv := x.retireAll_voices .link
  have htold : ∀ v ∈ s.voices, ∀ {u : State}, NoticeStep (x.retireAll .link) u →
      s.told u { addressee := v.requester, body := .retired v.tag .link v.floorP, isOpen := false } := fun v hv _ h =>
    State.told_retireAll (reason := .link) (fun h => by cases h) (by rw [hxv]; exact hv) hretire h
  have hrn : NoticeStep x (x.retireAll .link) :=
    (NoticeStep.of_eq (x.discardSegments_notices _).1).trans (State.retireRecords_noticeStep _ _ _)
  generalize x.retireAll .link = y at hall hrd hro hri hri' htold hrn hrv
  generalize (s.delivery.queue.length + if s.delivery.posting.isSome then 1 else 0) = n
  have hfree := State.freeBuffers_die n y
  have hfi := State.freeBuffers_idling n y
  generalize y.freeBuffers n = z at hfree hfi
  obtain ⟨hbc, hbb, hbw, hbi, hbd, hbo, hbp⟩ := z.dropBids_fields
  obtain ⟨hbn, hbs, hbport, hbv, hbt, hbm⟩ := z.dropBids_step
  have hnotices : NoticeStep y z.dropBids.abandonClaim :=
    (NoticeStep.of_eq (hbn.trans hfree.media.notices)).trans (State.abandonClaim_noticeStep _)
  obtain ⟨hac, has, hab, hat, ham, hacat, hai, had, hav⟩ := z.dropBids.abandonClaim_step
  have hzc : z.claims = s.claims := hfree.media.claims.trans (hall.claims.trans hclaims)
  refine ⟨?_, ?_, ?_, ?_, ?_, hab.trans hbb, fun hdue => ?_, State.abandonClaim_sending _, ?_, ?_, ?_,
    ((hidle.trans hri').trans hfi).trans (.of_media (ham.trans hbm)), fun v hv _ h => htold v hv (hnotices.trans h),
    (hretire.trans hrn).trans hnotices⟩
  · rw [hac, hbc, hfree.media.clock, hall.clock, hclock]
  · rw [has, hbs, hfree.media.station, hall.station, hstation]
  · rw [hat, hbt, hfree.media.timebase, hall.timebase, htimebase]
  · rw [had, hbd, hfree.media.delivery, hrd, hxd]
    rfl
  · rw [hav, hbv, hfree.media.voices, hrv]
  · rw [State.abandonClaim_watches (by rw [hbw, hzc]; exact hdue), hbw, hzc]
  · rw [hai, hbi, hfree.media.installer, hall.installer, hinstaller]
  · rw [hacat, hbo, hfree.owed, hro, hcatalogue]
  · rw [hacat, hbp, hfree.installs, hri, hcatalogue]

/-- The install is another matter than voices, entries, watches and port (R166). -/
theorem State.linkLostInstall_step (s : State) : InstallStep s s.linkLostInstall ∧ NoticeStep s s.linkLostInstall := by
  have fails (i : InstallItem) : InstallStep s
      ((s.setInstaller { s.installer with held := s.pageUnderWay }).installFails i .linkDown) ∧
      NoticeStep s ((s.setInstaller { s.installer with held := s.pageUnderWay }).installFails i .linkDown) := by
    have h0 : NoticeStep s (s.setInstaller { s.installer with held := s.pageUnderWay }) := .of_eq rfl
    have h1 : InstallStep s (s.setInstaller { s.installer with held := s.pageUnderWay }) :=
      ⟨rfl, rfl, rfl, rfl, rfl, rfl, rfl⟩
    exact ⟨h1.trans (State.installFails_step _ i .linkDown),
      h0.trans ((State.installFails_installs _ i .linkDown).reported (G := fun _ => False)).noticeStep⟩
  unfold State.linkLostInstall
  split
  · dsimp only
    split
    · exact ⟨InstallStep.refl s, NoticeStep.refl s⟩
    · exact fails _
    · exact fails _
    · exact fails _
    · split
      · exact ⟨InstallStep.refl s, NoticeStep.refl s⟩
      · exact fails _
  · exact ⟨InstallStep.refl s, NoticeStep.refl s⟩

theorem State.settleFront_noticeStep (s : State) : NoticeStep s s.settleFront :=
  (s.settleFront_installs.reported (G := fun _ => False)).noticeStep

theorem State.finish_installer {s : State} (h : s.settled) : s.finish.installer = s.installer := by
  rw [State.finish_settled s h, (State.offer_step _).installer]
  rfl

/-! ### The RUNNING install (R166) -/

/-- A die's program as its work has it. -/
theorem DieState.program?_eq_some {x : DieState} {p : Program} :
    x.program? = some p ↔ x.longOp? = some (.program p) := by
  unfold DieState.program?
  split
  next q h => rw [h]; simp
  next h => rw [h]; simp
  next h => rw [h]; simp

theorem State.logUnderWay_iff (s : State) : s.logUnderWay = true ↔
    ∃ p record, (s.die 0).state.program? = some p ∧ p.purpose = .log record := by
  simp only [DieState.program?_eq_some]
  unfold State.logUnderWay
  cases hop : (s.die 0).state.longOp? with
  | none => exact ⟨nofun, fun ⟨_, _, h, _⟩ => by cases h⟩
  | some op =>
    cases op with
    | erase b => exact ⟨nofun, fun ⟨_, _, h, _⟩ => by cases h⟩
    | program p =>
      dsimp only
      cases hp : p.purpose with
      | page =>
        refine ⟨nofun, fun ⟨q, record, hq, hr⟩ => ?_⟩
        cases hq
        rw [hp] at hr
        cases hr
      | log record => exact ⟨fun _ => ⟨p, record, rfl, hp⟩, fun _ => rfl⟩

/-- The install runs on while its log record is being programmed, and fails otherwise (R166). -/
theorem State.linkLostInstall_cases {y : State} {i : InstallItem} {rest : List WorkItem}
    (hw : y.installer.work = .install i :: rest) (hphase : i.phase ≠ .waiting) :
    (i.phase = .appending ∧ y.logUnderWay = true → y.linkLostInstall = y) ∧
      (¬(i.phase = .appending ∧ y.logUnderWay = true) → y.linkLostInstall =
        (y.setInstaller { y.installer with held := y.pageUnderWay }).installFails i .linkDown) := by
  unfold State.linkLostInstall
  rw [hw]
  dsimp only
  cases hp : i.phase with
  | waiting => exact absurd hp hphase
  | reading => exact ⟨fun h => (by cases h.1), fun _ => rfl⟩
  | programming => exact ⟨fun h => (by cases h.1), fun _ => rfl⟩
  | waitingBlock => exact ⟨fun h => (by cases h.1), fun _ => rfl⟩
  | appending => exact ⟨fun h => if_pos h.2, fun h => if_neg fun hl => h ⟨rfl, hl⟩⟩

theorem State.work_of_shelf {s : State} {x : Shelf} (h : s.shelf = x) : s.installer.work = x.work := by rw [← h]; rfl

theorem State.installs_of_shelf {s : State} {x : Shelf} (h : s.shelf = x) :
    s.catalogue.pendingInstalls = x.installs := by rw [← h]; rfl

/-- The failure of an install alone in the work list, with the step closed (R165). -/
theorem State.installFails_alone {y : State} {i : InstallItem} (hw : y.installer.work = [.install i])
    (hsettled : y.settled) (hcalm : y.IdleCalm) (reason : Reason) :
    (y.installFails i reason).finish.installer.work = [] ∧
      (y.installFails i reason).finish.catalogue.owed = y.catalogue.owed - 1 ∧
      (y.installFails i reason).finish.catalogue.pendingInstalls = y.catalogue.pendingInstalls.erase i.region ∧
      y.installFails i reason = y.failInstall i reason ∧ (y.installFails i reason).settled := by
  have hshelf := y.failInstall_shelf i reason
  have hempty : (y.failInstall i reason).installer.work = [] := by
    rw [State.work_of_shelf hshelf, hw]
    rfl
  have hsame : y.installFails i reason = y.failInstall i reason := State.nextItem_of_empty hempty
  have hfailed : (y.failInstall i reason).settled := ((y.failInstall_idling i reason).refused hcalm).trans hsettled
  rw [hsame, State.finish_installer hfailed, (State.finish_settled_step hfailed).2.1]
  exact ⟨hempty, y.failInstall_owed i reason, State.installs_of_shelf hshelf, rfl, hfailed⟩

theorem State.installFails_told {s y u : State} (i : InstallItem) (reason : Reason) (a : NoticeStep s y)
    (b : NoticeStep (y.installFails i reason) u) :
    s.told u { addressee := i.sender, body := .installFailed i.region reason, isOpen := false } :=
  State.failInstall_told i reason a
    (((State.nextItem_installs (y.failInstall i reason)).reported (G := fun _ => False)).noticeStep.trans b)

/-- Settles O46: the station after the loss, then the install, whose log record's program the loss leaves as it was. -/
theorem linkLossRetiresEveryVoice : Obligations.LinkLossRetiresEveryVoice := by
  intro s t
  refine ⟨fun hdown => ?_, fun hup => ?_⟩
  · have h : (s.atTime t).delivery.link = .down := hdown
    simp only [exec, execLinkDown, h]
    rfl
  have hexec : exec (.linkDown t) s = .next (s.atTime t).linkLost := by
    have h : (s.atTime t).delivery.link = .up := hup
    simp only [exec, execLinkDown, h]
  have hl := (s.atTime t).unlinked_unlinks
  rw [State.linkLost_eq] at hexec
  generalize (s.atTime t).unlinked = y at hexec hl
  have hsettle := y.settleFront_step
  obtain ⟨hinstall, hinotices⟩ := y.settleFront.linkLostInstall_step
  have hstep : InstallStep y y.settleFront.linkLostInstall := hsettle.trans hinstall
  have hnotices : NoticeStep y y.settleFront.linkLostInstall := y.settleFront_noticeStep.trans hinotices
  have hdown : y.delivery.link = .down := by rw [hl.delivery]
  have hdelivery : y.settleFront.linkLostInstall.finish.delivery = y.delivery :=
    (((State.settleFronts_unlinked 8 y).trans (State.linkLostInstall_unlinked _)).trans (State.finish_unlinked _)) hdown
  have hbids : y.settleFront.linkLostInstall.claims.bids = [] := by rw [hstep.claims, hl.bids]
  refine ⟨_, hexec, ?_, hdelivery.trans hl.delivery, ?_, ?_, ?_, fun v hv => ?_, ?_, ?_, fun hdue => ?_,
    fun hsettled hcalm i rest appending hwork hphase happ => ?_⟩
  · rw [State.finish_clock, hstep.clock, hl.clock]
    rfl
  · rw [State.finish_voices, hstep.voices, hl.voices]
  · exact List.map_eq_nil_iff.1 ((State.finish_bidTags _).trans (by rw [hbids]; rfl))
  · rw [State.finish_station, hstep.station, hl.station]
    rfl
  · exact hl.told v hv (hnotices.trans (State.finish_noticeStep _))
  · rw [State.finish_timebase, hstep.timebase, hl.timebase,
      State.readyWanted_of_empty (hstep.voices.trans hl.voices)]
    rfl
  · refine State.offer_noClaim ?_ ?_
    · rw [State.recomputeReady_claims, (State.settleFront_step _).claims, hbids]
    · rw [State.recomputeReady_port, (State.settleFront_step _).port, hstep.port]
      exact hl.sending
  · rw [State.finish_watches, hstep.claims]
    exact hl.watches hdue
  have hcalmy : y.IdleCalm := hl.idling.calm hcalm
  have hsettledy : y.settled := (hl.idling.refused hcalm).trans hsettled
  rw [show y.settleFront = y from State.settleFronts_nil 8 y hsettledy]
  have hworky : y.installer.work = .install i :: rest := by rw [hl.work]; exact hwork
  obtain ⟨hruns, hfails⟩ := State.linkLostInstall_cases hworky hphase
  have hiff : appending ↔ i.phase = .appending ∧ y.logUnderWay = true := by
    rw [happ, State.logUnderWay_iff, hl.idling.programs hcalm 0]
    simp only [DieState.program?_eq_some]
    rfl
  refine ⟨fun ha => ?_, fun hna => ?_⟩
  · rw [hruns (hiff.1 ha), State.finish_installer hsettledy, (State.finish_settled_step hsettledy).2.1, hl.work, hl.installs]
    exact ⟨rfl, rfl⟩
  · rw [hfails fun h => hna (hiff.2 h)]
    have htimed : NoticeStep s (s.atTime t) := .of_eq rfl
    have hmarked : NoticeStep y (y.setInstaller { y.installer with held := y.pageUnderWay }) := .of_eq rfl
    have hheld := (htimed.trans hl.notices).trans hmarked
    refine ⟨State.installFails_told i .linkDown hheld (State.finish_noticeStep _), fun hrest => ?_⟩
    have hset : (y.setInstaller { y.installer with held := y.pageUnderWay }).settled := hsettledy
    have hcal : (y.setInstaller { y.installer with held := y.pageUnderWay }).IdleCalm := hcalmy
    have hwk : (y.setInstaller { y.installer with held := y.pageUnderWay }).installer.work = [.install i] := by
      rw [← hrest, ← hworky]
      rfl
    obtain ⟨hwork', howed, hinstalls, -⟩ := State.installFails_alone hwk hset hcal .linkDown
    rw [hwork', howed, hinstalls, State.setInstaller_catalogue, hl.owed, hl.installs]
    exact ⟨rfl, rfl, rfl⟩

end Sys2Proof.Machine
end

