-- ==== Sys2Proof/Proofs/Decisions.lean ====
section
/-! PROOF. O44: what a die does when its suspended operation is reported, and after the hold-off. A die with no long
operation waiting decides by its own record and the number of free buffers (`Die.serve`). -/

namespace Sys2Proof.Machine

/-! ### A state with one die's record changed -/

/-- The state with another record for one die and another number of free buffers. -/
def State.withDie (s : State) (d : Nat) (x : Die) (free : Nat) : State :=
  s.setMedia { s.media with dies := s.media.dies.set d x, freeBuffers := free }

theorem State.withDie_die {s : State} {d : Nat} (hd : d < s.media.dies.length) (x : Die) (free : Nat) :
    (s.withDie d x free).die d = x := by
  unfold State.withDie
  rw [State.die_setDie, if_pos ⟨rfl, hd⟩]

theorem State.withDie_withDie (s : State) (d : Nat) (x y : Die) (m n : Nat) :
    (s.withDie d x m).withDie d y n = s.withDie d y n := by
  unfold State.withDie
  rw [State.setMedia_setMedia, State.setMedia_media, List.set_set]

theorem State.withDie_same {s : State} {d : Nat} (hd : d < s.media.dies.length) :
    s.withDie d (s.die d) s.media.freeBuffers = s := by
  unfold State.withDie
  rw [State.die_eq_getElem hd, List.set_getElem_self]
  exact s.setMedia_same

theorem State.updateDie_withDie {s : State} {d : Nat} (f : Die → Die) (hd : d < s.media.dies.length) :
    s.updateDie d f = s.withDie d (f (s.die d)) s.media.freeBuffers := State.updateDie_eq_set f hd

/-- A step closed after a change of one die's record (R102, R114). -/
theorem State.withDie_finish {s : State} (h : s.settled) (d : Nat) (x : Die) (free : Nat) :
    (s.withDie d x free).finish.media = { s.media with dies := s.media.dies.set d x, freeBuffers := free } ∧
      (s.withDie d x free).finish.catalogue = s.catalogue ∧ (s.withDie d x free).finish.voices = s.voices ∧
      (s.withDie d x free).finish.station = s.station ∧
      (s.withDie d x free).finish.notices.queue = s.notices.queue ∧
      (s.withDie d x free).finish.notices.loss = s.notices.loss ∧
      (s.withDie d x free).finish.delivery = s.delivery := by
  have hset : (s.withDie d x free).settled := h
  obtain ⟨hmedia, hcatalogue, hqueue, hloss⟩ := State.finish_settled_step hset
  refine ⟨hmedia, hcatalogue, State.finish_voices _, State.finish_station _, hqueue, hloss, ?_⟩
  rw [State.finish_settled _ hset, State.offer_delivery]
  rfl

/-! ### A die with no long operation waiting -/

/-- A die after its read queue's head has been given a buffer, if it has a head and there is one (R94, R107). -/
def Die.serve (x : Die) (free : Nat) : Die × Nat := (x.begin? free).getD (x, free)

theorem State.beginRead_serves {s : State} {d : Nat} (hd : d < s.media.dies.length) :
    (s.beginRead? d).getD s =
      s.withDie d ((s.die d).serve s.media.freeBuffers).1 ((s.die d).serve s.media.freeBuffers).2 := by
  unfold State.beginRead? Die.serve
  cases h : (s.die d).begin? s.media.freeBuffers with
  | none => exact (State.withDie_same hd).symm
  | some x => rfl

/-- An IDLE die with no long operation waiting (R94). -/
theorem State.idleChoice_serves {s : State} {d : Nat} (hd : d < s.media.dies.length) (hi : (s.die d).state = .idle)
    (hl : (s.die d).longOps = []) : s.idleChoice d =
      s.withDie d ((s.die d).serve s.media.freeBuffers).1 ((s.die d).serve s.media.freeBuffers).2 := by
  have hserve := State.beginRead_serves hd
  have hsame : s.updateDie d (fun die => { die with longOps := [] }) = s := by
    rw [State.updateDie_withDie _ hd]
    have h : { s.die d with longOps := [] } = s.die d := by rw [← hl]
    rw [h, State.withDie_same hd]
  unfold State.idleChoice
  rw [if_pos hi]
  dsimp only
  split
  next u hu =>
    split at hu
    · rw [hu] at hserve
      exact hserve
    · cases hu
  next =>
    rw [State.takeLongOp_none hl, hsame]
    exact hserve

/-- A SUSPENDED die (R107). -/
theorem State.serviceDecision_serves {s : State} {d : Nat} {op : LongOp} (hd : d < s.media.dies.length)
    (hs : (s.die d).state = .suspended op) :
    ((s.die d).headWithin s.timebase.tick 8192 = true → s.serviceDecision d =
      s.withDie d ((s.die d).serve s.media.freeBuffers).1 ((s.die d).serve s.media.freeBuffers).2) ∧
    ((s.die d).headWithin s.timebase.tick 8192 = false → s.serviceDecision d =
      s.withDie d { s.die d with state := .busy op, lastResume := some s.clock } s.media.freeBuffers) := by
  unfold State.serviceDecision
  rw [hs]
  dsimp only
  refine ⟨fun h => ?_, fun h => ?_⟩
  · rw [if_pos h]
    exact State.beginRead_serves hd
  · rw [if_neg (by rw [h]; exact nofun), State.updateDie_withDie _ hd]

/-- The head of the queue is read with its own kept buffer or a free one (R94). -/
theorem Die.serve_head {x : Die} {h : ReadRequest} {tail : List ReadRequest} {reading : ActiveRead → DieState}
    (hq : x.reads = h :: tail) (hr : ∀ a, x.state.reading? a = some (reading a)) (free : Nat) :
    (h.kept = true →
      x.serve free = ({ x with state := reading { req := h, discarded := false }, reads := tail }, free)) ∧
    (h.kept = false → 0 < free →
      x.serve free = ({ x with state := reading { req := h, discarded := false }, reads := tail }, free - 1)) ∧
    (h.kept = false → free = 0 → ∀ tail', takeLastKept tail = some tail' →
      x.serve free = ({ x with state := reading { req := h, discarded := false }, reads := tail' }, 0)) ∧
    (h.kept = false → free = 0 → takeLastKept tail = none → x.serve free = (x, 0)) := by
  unfold Die.serve Die.begin?
  rw [hq, takeHead]
  refine ⟨fun hk => ?_, fun hk hf => ?_, fun hk hf tail' ht => ?_, fun hk hf ht => ?_⟩
  · rw [if_pos hk]
    simp only [hr, Option.map_some, Option.getD_some]
  · rw [if_neg (by rw [hk]; exact nofun), if_pos hf]
    simp only [hr, Option.map_some, Option.getD_some]
  · rw [if_neg (by rw [hk]; exact nofun), if_neg (by omega), ht]
    simp only [hr, Option.map_some, Option.getD_some, hf]
  · rw [if_neg (by rw [hk]; exact nofun), if_neg (by omega), ht]
    simp only [Option.map_none, Option.getD_none, hf]

theorem Die.serve_empty {x : Die} (h : x.reads = []) (free : Nat) : x.serve free = (x, free) := by
  unfold Die.serve Die.begin?
  rw [h]
  rfl

theorem Die.headWithin_cons {x : Die} {r : ReadRequest} {rest : List ReadRequest} (h : x.reads = r :: rest)
    (now limit : Nat) : x.headWithin now limit = true ↔ r.dry - now ≤ limit := by
  unfold Die.headWithin Die.headSlack
  rw [h]
  simp [currentSlack]

theorem Die.headWithin_nil {x : Die} (h : x.reads = []) (now limit : Nat) : x.headWithin now limit = false := by
  unfold Die.headWithin Die.headSlack
  rw [h]
  rfl

/-! ### O44 -/

/-- A die that is to decide its suspended operation's fate (R106). -/
theorem exec_suspended {s : State} {t d : Nat} {op : LongOp} (hd : d < s.media.dies.length)
    (h : (s.die d).state = .suspendPending op) : exec (.suspendReported t d .suspended) s =
      .next (((s.atTime t).withDie d { s.die d with state := .suspended op } s.media.freeBuffers).serviceDecision
        d).finish := by
  have h1 : ((s.atTime t).die d).state = .suspendPending op := h
  have h2 : (s.atTime t).setDieState d (.suspended op) =
      (s.atTime t).withDie d { s.die d with state := .suspended op } s.media.freeBuffers :=
    State.updateDie_withDie (s := s.atTime t) _ hd
  simp only [exec, execSuspendReported, h1, h2]

/-- An erase that had completed, with nothing more for the die to do and no item in the work list (R103, R106). -/
theorem State.eraseResult_empty {s : State} (hw : s.installer.work = []) (d b : Nat) (ok : Bool) :
    (s.eraseResult d b ok).media.dies = s.media.dies ∧
      (s.eraseResult d b ok).media.freeBuffers = s.media.freeBuffers ∧
      (s.eraseResult d b ok).media.frontFailed = s.media.frontFailed := by
  have hflash (x : State) : (x.eraseFlash d b ok).media.dies = x.media.dies ∧
      (x.eraseFlash d b ok).media.freeBuffers = x.media.freeBuffers ∧
      (x.eraseFlash d b ok).media.frontFailed = x.media.frontFailed ∧
      (x.eraseFlash d b ok).installer = x.installer := by
    unfold State.eraseFlash
    split <;> exact ⟨rfl, rfl, rfl, rfl⟩
  have hblock (x : State) : (x.blockErased d b ok).media = x.media ∧ (x.blockErased d b ok).installer = x.installer := by
    unfold State.blockErased
    split
    · exact ⟨rfl, rfl⟩
    · split <;> exact ⟨rfl, rfl⟩
  have htold {x : State} (hx : x.installer.work = []) (isLog : Bool) : x.eraseTold d isLog ok = x := by
    unfold State.eraseTold
    rw [hx]
  unfold State.eraseResult
  obtain ⟨hdies, hfree, hfailed, hinst⟩ := hflash (s.setFront d b 0)
  obtain ⟨hmedia, hinst'⟩ := hblock ((s.setFront d b 0).eraseFlash d b ok)
  dsimp only
  rw [htold (by rw [hinst', hinst]; exact hw), hmedia]
  exact ⟨hdies, hfree, hfailed⟩

/-- Settles O44: each report is followed by the die's decision on its own record, with no other part of the station
changed. -/
theorem suspendedDiesResume : Obligations.SuspendedDiesResume := by
  intro s t d at_ op hd hsettled
  refine ⟨fun hstate hhead => ?_, fun r rest hstate hreads hdue => ?_, fun b ok hstate hreads hops hwork => ?_,
    fun hstate hresume => ?_⟩
  · rw [exec_suspended hd hstate]
    have hdie := State.withDie_die (s := s.atTime t) hd { s.die d with state := .suspended op } s.media.freeBuffers
    have hserve := (State.serviceDecision_serves (s := (s.atTime t).withDie d { s.die d with state := .suspended op }
      s.media.freeBuffers) (op := op) (by simpa [State.withDie] using hd) (by rw [hdie])).2
      (by rw [hdie]; exact hhead)
    rw [hserve, hdie, State.withDie_withDie]
    obtain ⟨hmedia, hcatalogue, hvoices, hstation, -⟩ := State.withDie_finish (s := s.atTime t) hsettled d
      { s.die d with state := .busy op, lastResume := some (max s.clock t) } s.media.freeBuffers
    exact ⟨_, rfl, hvoices, hstation, hcatalogue, hmedia⟩
  · rw [exec_suspended hd hstate]
    have hdie := State.withDie_die (s := s.atTime t) hd { s.die d with state := .suspended op } s.media.freeBuffers
    have hserve := (State.serviceDecision_serves (s := (s.atTime t).withDie d { s.die d with state := .suspended op }
      s.media.freeBuffers) (op := op) (by simpa [State.withDie] using hd) (by rw [hdie])).1
      (by rw [hdie]; exact (Die.headWithin_cons hreads _ _).2 hdue)
    rw [hserve, hdie, State.withDie_withDie]
    have hfree : ((s.atTime t).withDie d { s.die d with state := .suspended op } s.media.freeBuffers).media.freeBuffers =
      s.media.freeBuffers := rfl
    rw [hfree]
    obtain ⟨hkept, hgiven, -, hnone⟩ := Die.serve_head (x := { s.die d with state := .suspended op })
      (reading := .suspendedRead op) hreads (fun _ => rfl) s.media.freeBuffers
    generalize Die.serve { s.die d with state := .suspended op } s.media.freeBuffers = w at hkept hgiven hnone
    obtain ⟨hmedia, hcatalogue, hvoices, hstation, -⟩ :=
      State.withDie_finish (s := s.atTime t) hsettled d w.1 w.2
    refine ⟨_, rfl, hvoices, hstation, hcatalogue, fun hbuffer => ?_, fun hfree hall => ?_⟩
    · rw [hmedia]
      by_cases hk : r.kept = true
      · rw [hkept hk, if_pos hk]
        rfl
      · rw [hgiven (by simpa using hk) (hbuffer.resolve_left hk), if_neg hk]
        rfl
    · rw [hmedia, hnone (hall r List.mem_cons_self) hfree
        (takeLastKept_none fun x hx => hall x (List.mem_cons_of_mem _ hx))]
      exact congrArg (fun n : Nat => ({ s.media with
        dies := s.media.dies.set d { s.die d with state := .suspended op }, freeBuffers := n } : Media)) hfree.symm
  · have hexec : exec (.suspendReported t d (.completed ok)) s =
        .next (((s.atTime t).eraseResult d b ok).becomeIdle d).finish := by
      have h1 : ((s.atTime t).die d).state = .suspendPending (.erase b) := hstate
      simp only [exec, execSuspendReported, h1]
      rfl
    obtain ⟨hdies, hfree, hfailed⟩ := State.eraseResult_empty (s := s.atTime t) hwork d b ok
    have hstep := (s.atTime t).eraseResult_step d b ok
    rw [hexec]
    generalize (s.atTime t).eraseResult d b ok = y at hdies hfree hfailed hstep
    have hdie : y.die d = s.die d := by
      unfold State.die
      rw [hdies]
      rfl
    have hdy : d < y.media.dies.length := by rw [hdies]; exact hd
    have hidle : y.becomeIdle d = y.withDie d { state := .idle, lastResume := none, reads := [], longOps := [] }
        y.media.freeBuffers := by
      unfold State.becomeIdle
      rw [State.updateDie_withDie _ hdy, hdie]
      have hx : ({ s.die d with state := .idle, lastResume := none } : Die) =
          { state := .idle, lastResume := none, reads := [], longOps := [] } := by
        dsimp only
        rw [hreads, hops]
      rw [hx]
      have hx2 := State.withDie_die (s := y) hdy { state := .idle, lastResume := none, reads := [], longOps := [] }
        y.media.freeBuffers
      rw [State.idleChoice_serves (by simpa [State.withDie] using hdy) (by rw [hx2]) (by rw [hx2]), hx2,
        Die.serve_empty rfl, State.withDie_withDie]
      rfl
    rw [hidle]
    obtain ⟨hmedia, -, hvoices, hstation, -⟩ := State.withDie_finish (s := y) (hfailed.trans hsettled) d
      { state := .idle, lastResume := none, reads := [], longOps := [] } y.media.freeBuffers
    refine ⟨_, rfl, hvoices.trans hstep.voices, hstation.trans hstep.station, ?_, ?_⟩
    · rw [hmedia]
      exact hfree
    · rw [hmedia]
      dsimp only
      rw [hdies]
      rfl
  · have hexec : exec (.resumeHoldOffExpiry d) s = .next (((s.atTime (at_ + 12288)).suspendTest d).finish) := by
      simp only [exec, execResumeHoldOffExpiry, hstate, hresume]
      rfl
    have hpast : at_ + holdOffCycles ≤ max s.clock (at_ + 12288) := Nat.le_max_right _ _
    have hdue : (s.die d).suspendDue s.timebase.tick (max s.clock (at_ + 12288)) =
        (s.die d).headWithin s.timebase.tick 2048 := by
      unfold Die.suspendDue
      rw [hresume]
      simp [hpast]
    have htest : (s.atTime (at_ + 12288)).suspendTest d = (s.atTime (at_ + 12288)).withDie d
        (if (s.die d).headWithin s.timebase.tick 2048 then { s.die d with state := .suspendPending op } else s.die d)
        s.media.freeBuffers := by
      have h1 : ((s.atTime (at_ + 12288)).die d).state = .busy op := hstate
      have h2 : ((s.atTime (at_ + 12288)).die d).suspendDue (s.atTime (at_ + 12288)).timebase.tick
        (s.atTime (at_ + 12288)).clock = (s.die d).headWithin s.timebase.tick 2048 := hdue
      unfold State.suspendTest
      rw [h1]
      dsimp only
      rw [h2]
      split
      · exact State.updateDie_withDie (s := s.atTime (at_ + 12288)) _ hd
      · exact (State.withDie_same (s := s.atTime (at_ + 12288)) hd).symm
    rw [hexec, htest]
    obtain ⟨hmedia, hcatalogue, hvoices, hstation, -⟩ := State.withDie_finish (s := s.atTime (at_ + 12288)) hsettled d
      (if (s.die d).headWithin s.timebase.tick 2048 then { s.die d with state := .suspendPending op } else s.die d)
      s.media.freeBuffers
    exact ⟨_, rfl, hvoices, hstation, hcatalogue, State.finish_clock _, hmedia⟩

end Sys2Proof.Machine
end

