-- ==== Sys2Proof/Proofs/Deliveries.lean ====
section
/-! PROOF. O43: the end of a segment's read. Its bytes go to delivery or are read again, and the die decides over its
queue as it then stands. -/

namespace Sys2Proof.Machine

/-! ### The die's next decision -/

/-- What a die makes of the head of its queue, IDLE or SUSPENDED (R94, R98, R107). -/
theorem Die.serve_decides {x : Die} {rest : DieState} {reading : ActiveRead → DieState}
    (hr : ∀ a, rest.reading? a = some (reading a)) (h : ReadRequest) (tail : List ReadRequest) (free : Nat)
    {w : Die} {free' : Nat} (hw : ({ x with state := rest, reads := h :: tail } : Die).serve free = (w, free')) :
    (h.kept = true →
      w = { x with state := reading { req := h, discarded := false }, reads := tail } ∧ free' = free) ∧
    (h.kept = false → 0 < free →
      w = { x with state := reading { req := h, discarded := false }, reads := tail } ∧ free' = free - 1) ∧
    (h.kept = false → free = 0 → ∀ before k after, tail = before ++ k :: after → k.kept = true →
      (∀ y ∈ after, y.kept = false) → free' = 0 ∧
      w = { x with state := reading { req := h, discarded := false }
                   reads := before ++ { k with kept := false } :: after }) ∧
    (h.kept = false → free = 0 → (∀ y ∈ tail, y.kept = false) →
      w = { x with state := rest, reads := h :: tail } ∧ free' = 0) := by
  obtain ⟨hkept, hgiven, htaken, hnone⟩ := Die.serve_head (x := { x with state := rest, reads := h :: tail })
    (reading := reading) rfl hr free
  rw [hw] at hkept hgiven htaken hnone
  refine ⟨fun hk => ?_, fun hk hf => ?_, fun hk hf before k after ht hkk hafter => ?_, fun hk hf hall => ?_⟩
  · exact Prod.mk.inj (hkept hk)
  · exact Prod.mk.inj (hgiven hk hf)
  · exact (Prod.mk.inj (htaken hk hf _ (by rw [ht]; exact takeLastKept_last before after k hkk hafter))).symm
  · exact Prod.mk.inj (hnone hk hf (takeLastKept_none hall))

/-- A die that has ended its read, with no long operation waiting, decides by its record alone (R94, R98, R107). -/
theorem State.readEnded_decides {y : State} {d : Nat} {x : Die} {queue : List ReadRequest} {a : ActiveRead}
    (hd : d < y.media.dies.length) (hdie : y.die d = { x with reads := queue })
    (hread : x.state.activeRead? = some a) (hl : x.longOps = []) :
    ∃ w free, y.readEnded d = y.withDie d w free ∧
      x.decides w queue y.media.freeBuffers free y.timebase.tick y.clock := by
  have hset (z : DieState) : y.setDieState d z = y.withDie d { x with state := z, reads := queue } y.media.freeBuffers := by
    unfold State.setDieState
    rw [State.updateDie_withDie _ hd, hdie]
  have hstate : (y.die d).state = x.state := by rw [hdie]
  have hlen (z : Die) (n : Nat) : d < (y.withDie d z n).media.dies.length := by simpa [State.withDie] using hd
  unfold State.readEnded
  rw [hset, hstate]
  cases hx : x.state with
  | idle => rw [hx] at hread; cases hread
  | logRead n => rw [hx] at hread; cases hread
  | busy op => rw [hx] at hread; cases hread
  | suspendPending op => rw [hx] at hread; cases hread
  | suspended op => rw [hx] at hread; cases hread
  | read b =>
    have hz := State.withDie_die hd { x with state := .idle, reads := queue } y.media.freeBuffers
    unfold State.readsChanged
    simp only [DieState.afterRead, hz]
    rw [State.idleChoice_serves (hlen _ _) (by rw [hz]) (by rw [hz]; exact hl), hz, State.withDie_withDie]
    refine ⟨_, _, rfl, fun rest reading a' hcase => ?_⟩
    obtain ⟨-, rfl, rfl⟩ := hcase.resolve_right fun ⟨op, h, _⟩ => by rw [hx] at h; cases h
    refine ⟨fun op h => (by cases h), fun _ hq => ?_, fun h tail hq _ => ?_⟩
    · subst hq
      rw [Die.serve_empty rfl]
      exact ⟨rfl, rfl⟩
    · subst hq
      exact Die.serve_decides (fun _ => rfl) h tail _ rfl
  | suspendedRead op b =>
    have hz := State.withDie_die hd { x with state := .suspended op, reads := queue } y.media.freeBuffers
    unfold State.readsChanged
    simp only [DieState.afterRead, hz]
    obtain ⟨hurgent, hother⟩ := State.serviceDecision_serves (s := y.withDie d
      { x with state := .suspended op, reads := queue } y.media.freeBuffers) (op := op) (hlen _ _) (by rw [hz])
    rw [hz, State.withDie_withDie] at hurgent hother
    by_cases hhead : ({ x with state := .suspended op, reads := queue } : Die).headWithin y.timebase.tick 8192 = true
    · rw [hurgent hhead]
      refine ⟨_, _, rfl, fun rest reading a' hcase => ?_⟩
      obtain ⟨op', h, rfl, rfl⟩ := hcase.resolve_left fun h => by rw [hx] at h; cases h.1
      rw [hx] at h
      cases h
      refine ⟨fun op' hop hlate => ?_, fun h => (by cases h), fun h tail hq _ => ?_⟩
      · cases queue with
        | nil => rw [Die.headWithin_nil rfl] at hhead; cases hhead
        | cons r tail =>
          have hdue := (Die.headWithin_cons rfl _ _).1 hhead
          have hlater := hlate r rfl
          omega
      · subst hq
        exact Die.serve_decides (fun _ => rfl) h tail _ rfl
    · rw [hother (Bool.eq_false_iff.2 hhead)]
      refine ⟨_, _, rfl, fun rest reading a' hcase => ?_⟩
      obtain ⟨op', h, rfl, rfl⟩ := hcase.resolve_left fun h => by rw [hx] at h; cases h.1
      rw [hx] at h
      cases h
      refine ⟨fun op' hop _ => ?_, fun h => (by cases h), fun h tail hq hdue => ?_⟩
      · cases hop
        exact ⟨rfl, rfl⟩
      · subst hq
        have hlate : h.dry - y.timebase.tick ≤ 8192 := hdue.resolve_left nofun
        exact absurd ((Die.headWithin_cons rfl _ _).2 hlate) hhead

/-! ### The bytes of a segment -/

/-- A list made of pieces of equal length. -/
theorem getElem_flatMap_range {α : Type} {f : Nat → List α} {len : Nat} (hf : ∀ i, (f i).length = len) {n i j : Nat}
    (hi : i < n) (hj : j < len) : ((List.range n).flatMap f)[i * len + j]? = (f i)[j]? := by
  have hlength (n : Nat) : ((List.range n).flatMap f).length = n * len := by
    rw [List.length_flatMap]
    simp [hf]
  induction n with
  | zero => omega
  | succ n ih =>
    rw [List.range_succ, List.flatMap_append, List.flatMap_cons, List.flatMap_nil, List.append_nil]
    rcases Nat.lt_succ_iff_lt_or_eq.1 hi with hlt | rfl
    · rw [List.getElem?_append_left, ih hlt]
      rw [hlength]
      calc i * len + j < i * len + len := by omega
        _ = (i + 1) * len := by rw [Nat.succ_mul]
        _ ≤ n * len := Nat.mul_le_mul_right len hlt
    · rw [List.getElem?_append_right (by rw [hlength]; omega), hlength]
      congr 1
      omega

/-- The bytes of a read are those that its sectors give, 00h in each bad one (R97, R99). -/
theorem State.readData_unique {s : State} {d : Nat} {r : ReadRequest} {bad : BitVec 12} {data : List Byte}
    (hl : data.length = r.sectors * 512)
    (hdata : ∀ i j, i < r.sectors → j < 512 → data[i * 512 + j]? = some (if bad.getLsbD i then 0x00#8
      else s.media.flash.read (sectorNumber d r.block (r.page * 48 + r.sector + i) * 512 + j))) :
    s.readData d r bad = data := by
  have hpiece (i : Nat) : (if bad.getLsbD i then List.replicate 512 0#8
      else s.media.flash.sector (sectorNumber d r.block (r.page * 48 + r.sector + i))).length = 512 := by
    split
    · exact List.length_replicate
    · simp [Flash.sector]
  refine List.ext_getElem? fun k => ?_
  unfold State.readData
  by_cases hk : k < r.sectors * 512
  · have hi : k / 512 < r.sectors := by omega
    have hj : k % 512 < 512 := Nat.mod_lt _ (by omega)
    have hsplit : k = k / 512 * 512 + k % 512 := by omega
    rw [hsplit, getElem_flatMap_range hpiece hi hj, hdata _ _ hi hj]
    split
    · rw [List.getElem?_replicate, if_pos hj]
    · rw [Flash.sector, List.getElem?_map, List.getElem?_range hj]
      rfl
  · rw [List.getElem?_eq_none (l := data) (by omega), List.getElem?_eq_none]
    rw [List.length_flatMap]
    simp only [hpiece, List.map_const', List.length_range, List.sum_replicate_nat]
    omega

/-! ### What follows a read -/

theorem State.startPosting_changes (s : State) : ∃ x, s.startPosting = s.setDelivery x := by
  unfold State.startPosting
  split
  · exact ⟨_, rfl⟩
  · exact ⟨s.delivery, s.setDelivery_same.symm⟩

/-- A segment joins the delivery queue, and begins its posting at once when it is alone (R175). -/
theorem State.joinDelivery_outcome (s : State) (e : Delivery) :
    ∃ x : DeliveryEngine, s.joinDelivery e = s.setDelivery x ∧
      (s.delivery.posting.isSome → x = { s.delivery with queue := s.delivery.queue ++ [e] }) ∧
      ∀ c, s.station.config = some c → s.delivery.posting = none → s.delivery.queue = [] →
        x = { s.delivery with posting := some {
          seg := e, discarded := false
          address := c.base + (e.tag * c.ringLength + e.ring % c.ringLength) * 6144 } } := by
  cases hp : s.delivery.posting with
  | some p =>
    refine ⟨{ s.delivery with queue := s.delivery.queue ++ [e] }, ?_, fun _ => rfl, fun c _ h => by cases h⟩
    unfold State.joinDelivery State.startPosting
    simp only [State.setDelivery_delivery, hp]
  | none =>
    obtain ⟨x, hx⟩ := (s.setDelivery { s.delivery with queue := s.delivery.queue ++ [e] }).startPosting_changes
    refine ⟨x, hx.trans (State.setDelivery_setDelivery _ _ _), fun h => (by cases h), fun c hc _ hq => ?_⟩
    have hdelivery := congrArg State.delivery hx
    rw [State.setDelivery_delivery] at hdelivery
    rw [← hdelivery]
    unfold State.startPosting
    simp only [State.setDelivery_delivery, State.setDelivery_station, hp, hq, hc, List.nil_append]
    rfl

/-- A request takes its place behind those that go before it (R92). -/
theorem placeRead_between {q : ReadRequest} {before after : List ReadRequest}
    (hb : ∀ x ∈ before, x.dry < q.dry ∨ x.dry = q.dry ∧ x.tag ≤ q.tag)
    (ha : ∀ x ∈ after, q.dry < x.dry ∨ q.dry = x.dry ∧ q.tag < x.tag) :
    placeRead q (before ++ after) = before ++ q :: after := by
  unfold placeRead
  induction before with
  | nil =>
    cases after with
    | nil => rfl
    | cons x after =>
      have hx := ha x List.mem_cons_self
      have hle : x.le q = false := by
        simp only [ReadRequest.le, Bool.or_eq_false_iff, decide_eq_false_iff_not, Bool.and_eq_false_iff, beq_eq_false_iff_ne]
        omega
      rw [List.nil_append, insertOrdered, hle]
      rfl
  | cons x before ih =>
    have hx := hb x List.mem_cons_self
    have hle : x.le q = true := by
      simp only [ReadRequest.le, Bool.or_eq_true, decide_eq_true_eq, Bool.and_eq_true, beq_iff_eq]
      omega
    rw [List.cons_append, insertOrdered, hle, if_pos rfl, ih fun y hy => hb y (List.mem_cons_of_mem _ hy)]
    rfl

/-- With no read waiting anywhere a freed buffer is free (R96). -/
theorem State.freeBuffer_unclaimed {s : State} (h : ∀ die ∈ s.media.dies, die.reads = []) :
    s.freeBuffer = s.setMedia { s.media with freeBuffers := s.media.freeBuffers + 1 } := by
  have hnone : s.grantee? = none := by
    unfold State.grantee?
    have hfilter : (dieNumbers.filter fun d => (s.die d).waits s.timebase.tick) = [] := by
      refine List.filter_eq_nil_iff.2 fun d _ => ?_
      have hreads : (s.die d).reads = [] := by
        by_cases hd : d < s.media.dies.length
        · exact h _ (State.die_mem hd)
        · rw [State.die_eq_reset hd]
          rfl
      simp [Die.waits, hreads]
    rw [hfilter]
    rfl
  unfold State.freeBuffer
  rw [hnone]

theorem State.joinReads_withDie {s : State} {d : Nat} (hd : d < s.media.dies.length) (r : ReadRequest) :
    s.joinReads d r = s.withDie d { s.die d with reads := placeRead r (s.die d).reads } s.media.freeBuffers :=
  State.updateDie_withDie _ hd

/-- A segment handed to delivery, and the die's next decision (R97, R175). -/
theorem State.delivered_finish {z : State} {d : Nat} {a : ActiveRead} (e : Delivery)
    (ha : (z.die d).state.activeRead? = some a) (hd : d < z.media.dies.length) (hl : (z.die d).longOps = [])
    (hsettled : z.settled) {u : State} (hu : ((z.joinDelivery e).readEnded d).finish = u) :
    u.voices = z.voices ∧ u.station = z.station ∧ u.catalogue = z.catalogue ∧ u.media.flash = z.media.flash ∧
      u.notices.queue = z.notices.queue ∧
      (z.delivery.posting.isSome → u.delivery = { z.delivery with queue := z.delivery.queue ++ [e] }) ∧
      (∀ c, z.station.config = some c → z.delivery.posting = none → z.delivery.queue = [] →
        u.delivery = { z.delivery with posting := some {
          seg := e, discarded := false
          address := c.base + (e.tag * c.ringLength + e.ring % c.ringLength) * 6144 } }) ∧
      ∃ w free, u.media = { z.media with dies := z.media.dies.set d w, freeBuffers := free } ∧
        (z.die d).decides w (z.die d).reads z.media.freeBuffers free z.timebase.tick z.clock := by
  obtain ⟨x, hjoin, hbehind, halone⟩ := z.joinDelivery_outcome e
  have hfields : (z.setDelivery x).media = z.media ∧ (z.setDelivery x).die d = z.die d := ⟨rfl, rfl⟩
  obtain ⟨w, free, hended, hdecides⟩ := State.readEnded_decides (y := z.setDelivery x) (d := d) (x := z.die d)
    (queue := (z.die d).reads) (a := a) hd rfl ha hl
  obtain ⟨hmedia, hcatalogue, hvoices, hstation, hqueue, -, hdelivery⟩ :=
    State.withDie_finish (s := z.setDelivery x) hsettled d w free
  rw [← hu, hjoin, hended]
  exact ⟨hvoices, hstation, hcatalogue, (congrArg Media.flash hmedia).trans rfl, hqueue, fun h => hdelivery.trans (hbehind h),
    fun c hc hp hq => hdelivery.trans (halone c hc hp hq), w, free, hmedia, hdecides⟩

/-- Settles O43: the result is handed on first, and the die then decides over its queue. -/
theorem segmentReadsAreDeliveredOrReRead : Obligations.SegmentReadsAreDeliveredOrReRead := by
  have hexec {s : State} {t d : Nat} {bad : BitVec 12} {a : ActiveRead} (ha : (s.die d).state.activeRead? = some a) :
      exec (.segmentReadEnd t d bad) s = .next ((((s.atTime t).readOutcome d a bad).readEnded d).finish) := by
    have h1 : ((s.atTime t).die d).state.activeRead? = some a := ha
    simp only [exec, execSegmentReadEnd, h1]
  have hlength {s : State} {d : Nat} {a : ActiveRead} (ha : (s.die d).state.activeRead? = some a) :
      d < s.media.dies.length := by
    refine Nat.lt_of_not_le fun hle => ?_
    rw [State.die_eq_reset (Nat.not_lt.2 hle)] at ha
    cases ha
  refine ⟨fun s t d bad a ha hgone hsettled hempty => ?_, fun s t d bad r v badCount slack e ha hv hsettled hops htag hring
    hsize hlen hdata hbad hslack => ?_⟩
  · have hd := hlength ha
    have hout : (s.atTime t).readOutcome d a bad =
        (s.atTime t).setMedia { s.media with freeBuffers := s.media.freeBuffers + 1 } := by
      have hfree := State.freeBuffer_unclaimed (s := s.atTime t) fun die hm => (hempty die hm).1
      unfold State.readOutcome
      split
      next hkeep hvoice =>
        have hvoice' : s.voice? a.req.tag = some _ := hvoice
        rcases hgone with h | h
        · rw [h] at hkeep; cases hkeep
        · rw [h] at hvoice'; cases hvoice'
      next => exact hfree
    rw [hexec ha, hout]
    generalize hy : (s.atTime t).setMedia { s.media with freeBuffers := s.media.freeBuffers + 1 } = y
    have hfields : y.voices = s.voices ∧ y.delivery = s.delivery ∧ y.catalogue = s.catalogue ∧
        y.notices = s.notices ∧ y.media = { s.media with freeBuffers := s.media.freeBuffers + 1 } ∧
        y.clock = max s.clock t := by
      rw [← hy]
      exact ⟨rfl, rfl, rfl, rfl, rfl, rfl⟩
    obtain ⟨hyv, hyd, hyc, hyn, hym, hyt⟩ := hfields
    have hdie : y.die d = { s.die d with reads := [] } := by
      rw [← (hempty _ (State.die_mem hd)).1]
      unfold State.die
      rw [hym]
    obtain ⟨w, free, hended, hdecides⟩ := State.readEnded_decides (x := s.die d) (by rw [hym]; exact hd) hdie ha
      (hempty _ (State.die_mem hd)).2
    obtain ⟨hmedia, hcatalogue, hvoices, -, hqueue, hloss, hdelivery⟩ :=
      State.withDie_finish (s := y) (by unfold State.settled; rw [hym]; exact hsettled) d w free
    have hw : free = y.media.freeBuffers ∧ w = match (s.die d).state with
        | .suspendedRead op _ => { s.die d with state := .busy op, lastResume := some (max s.clock t) }
        | _ => { s.die d with state := .idle } := by
      cases hx : (s.die d).state with
      | idle => rw [hx] at ha; cases ha
      | logRead n => rw [hx] at ha; cases ha
      | busy op => rw [hx] at ha; cases ha
      | suspendPending op => rw [hx] at ha; cases ha
      | suspended op => rw [hx] at ha; cases ha
      | read b =>
        obtain ⟨-, hidle, -⟩ := hdecides .idle .read b (.inl ⟨hx, rfl, rfl⟩)
        obtain ⟨hw, hfree⟩ := hidle rfl rfl
        exact ⟨hfree, hw.trans (by rw [← (hempty _ (State.die_mem hd)).1])⟩
      | suspendedRead op b =>
        obtain ⟨hresume, -, -⟩ := hdecides (.suspended op) (.suspendedRead op) b (.inr ⟨op, hx, rfl, rfl⟩)
        obtain ⟨hw, hfree⟩ := hresume op rfl fun h hh => by cases hh
        exact ⟨hfree, hw.trans (by rw [← (hempty _ (State.die_mem hd)).1, hyt])⟩
    rw [hended]
    refine ⟨_, rfl, hvoices.trans hyv, hdelivery.trans hyd, hcatalogue.trans hyc, hqueue.trans (by rw [hyn]),
      hloss.trans (by rw [hyn]), hmedia.trans ?_⟩
    rw [hw.1, hw.2, hym] <;> rfl
  · have hd := hlength ha
    have hl : (s.die d).longOps = [] := hops _ (State.die_mem hd)
    have hout : (s.atTime t).readOutcome d { req := r, discarded := false } bad =
        (s.atTime t).readResult d r v bad := by
      have h1 : (s.atTime t).voice? r.tag = some v := hv
      simp only [State.readOutcome, h1]
    have hentry : (s.atTime t).readEntry d r bad = e := by
      have h : s.readData d r bad = e.data := State.readData_unique hlen hdata
      cases e
      simp only at htag hring hsize h
      rw [htag, hring, hsize, ← h]
      rfl
    have hcount : r.badCount bad = badCount := hbad.symm
    have hretry : r.retried (currentSlack (s.atTime t).timebase.tick (v.dry.getD 0)) = true ↔
        r.attempt = .first ∧ 1024 < slack := by
      rw [ReadRequest.retried, Bool.and_eq_true, beq_iff_eq, decide_eq_true_eq, hslack]
      rfl
    rw [hexec ha, hout]
    refine ⟨_, rfl, ?_⟩
    unfold State.readResult
    dsimp only
    rw [hcount, hentry]
    by_cases hzero : badCount = 0
    · rw [if_pos hzero]
      obtain ⟨hvoices, hstation, hcatalogue, hflash, hqueue, hbehind, halone, hmedia⟩ :=
        State.delivered_finish (z := s.atTime t) e ha hd hl hsettled rfl
      refine ⟨hvoices, hstation, hcatalogue, hflash, fun _ => ⟨hbehind, fun c hc hp hq => ?_⟩, fun _ => hmedia,
        fun _ => hqueue, fun h => absurd hzero h, fun h => absurd hzero h⟩
      have h := halone c hc hp hq
      rw [htag, hring] at h
      exact h
    · rw [if_neg hzero]
      by_cases hr : r.attempt = .first ∧ 1024 < slack
      · have hnot : ¬(badCount = 0 ∨ r.attempt = .reRead ∨ slack ≤ 1024) := by
          rintro (h | h | h)
          · exact hzero h
          · rw [hr.1] at h; cases h
          · omega
        rw [if_pos (hretry.2 hr)]
        rw [State.joinReads_withDie (s := s.atTime t) hd]
        generalize hqueue' : placeRead { r with attempt := .reRead, kept := true, dry := v.dry.getD 0 }
          ((s.atTime t).die d).reads = queue
        have hdie := State.withDie_die (s := s.atTime t) hd { (s.atTime t).die d with reads := queue }
          (s.atTime t).media.freeBuffers
        obtain ⟨w, free, hended, hdecides⟩ := State.readEnded_decides (y := (s.atTime t).withDie d
          { (s.atTime t).die d with reads := queue } (s.atTime t).media.freeBuffers) (d := d) (x := (s.atTime t).die d)
          (queue := queue) (by simpa [State.withDie] using hd) hdie ha hl
        rw [hended, State.withDie_withDie]
        obtain ⟨hmedia, hcatalogue, hvoices, hstation, hqueue, -, hdelivery⟩ :=
          State.withDie_finish (s := s.atTime t) hsettled d w free
        refine ⟨hvoices, hstation, hcatalogue, (congrArg Media.flash hmedia).trans rfl, fun h => absurd h hnot,
          fun h => absurd h hnot, fun _ => hqueue, fun _ h => absurd (.inr h) hnot,
          fun _ _ _ => ⟨hdelivery, hqueue, fun q before after hq hreads hb hafter => ⟨w, free, hmedia, ?_⟩⟩⟩
        have hplace : queue = before ++ q :: after := by
          rw [← hqueue', ← hq]
          refine (congrArg (placeRead q) hreads).trans ?_
          exact placeRead_between hb hafter
        rw [← hplace]
        exact hdecides
      · rw [if_neg fun h => hr (hretry.1 h)]
        obtain ⟨hvoices, hstation, hcatalogue, hflash, hqueue, hbehind, halone, hmedia⟩ :=
          State.delivered_finish (z := (s.atTime t).queueNotice v.requester (.media r.tag r.region badCount)) e ha hd hl
            hsettled rfl
        refine ⟨hvoices, hstation, hcatalogue, hflash, fun _ => ⟨hbehind, fun c hc hp hq => ?_⟩, fun _ => hmedia,
          fun h => absurd h hzero, fun _ _ hnone => hqueue.trans ?_, fun _ h1 h2 => absurd ⟨h1, h2⟩ hr⟩
        · have h := halone c hc hp hq
          rw [htag, hring] at h
          exact h
        · have hnone' : (s.atTime t).notices.queue = [] := hnone
          unfold State.queueNotice NoticeQueue.report NoticeQueue.join
          rw [hnone']
          rfl

end Sys2Proof.Machine
end

