-- ==== Sys2Proof/Proofs/Admitting.lean ====
section
/-! PROOF. O35 and O36: the admission tests of INSTALL and RECLAIM, and what an admitted item does at once. -/

namespace Sys2Proof.Machine

/-! ### The admission tests -/

theorem Installer.busy_iff (i : Installer) : i.busy = true ↔ 4 ≤ i.work.length ∨ i.wiping = true := by
  rw [Installer.busy, Bool.or_eq_true, decide_eq_true_eq]

theorem Catalogue.logFull_iff (c : Catalogue) : c.logFull = true ↔ 49152 ≤ c.appendPos + c.owed := by
  rw [Catalogue.logFull, decide_eq_true_eq]

theorem State.idTaken_iff (s : State) (id : Nat) :
    s.idTaken id = true ↔ (s.region? id).isSome ∨ id ∈ s.catalogue.pendingInstalls := by
  rw [State.idTaken, Bool.or_eq_true, List.contains_iff_mem]

theorem LinkState.ne_up_iff (x : LinkState) : x ≠ .up ↔ x = .down := by
  cases x with
  | up => exact ⟨fun h => absurd rfl h, nofun⟩
  | down => exact ⟨fun _ => rfl, nofun⟩

/-- A loop is present and breaks R3 (R160 test 5). -/
theorem InstallFields.badLoop_iff (i : InstallFields) : i.badLoop = true ↔ i.format.testBit 2 = true ∧
    ¬(i.loopStart % 1024 = 0 ∧ i.loopEnd % 1024 = 0 ∧ i.loopStart < i.loopEnd ∧
      i.loopEnd ≤ 1024 * segmentsOf i.frames) := by
  unfold InstallFields.badLoop loopOf
  by_cases h : i.format.testBit 2 = true
  · rw [if_pos h]
    simp only [loopValid, h, true_and, Bool.not_eq_true', ← Bool.not_eq_true, Bool.and_eq_true, beq_iff_eq,
      decide_eq_true_eq, and_assoc]
  · rw [if_neg h]
    simp [h]

/-- The best of a list of figures, the earliest on equal ones (R161). -/
theorem foldl_best (f : Nat → Int) (n : Nat) : ∀ b,
    b = (List.range (n + 1)).foldl (fun best d => if f best < f d then d else best) 0 →
    b < n + 1 ∧ (∀ e, e < n + 1 → f e ≤ f b) ∧ ∀ e, e < b → f e < f b := by
  induction n with
  | zero =>
    rintro b rfl
    refine ⟨by simp, fun e he => ?_, fun e he => ?_⟩
    · obtain rfl : e = 0 := by omega
      simp
    · simp at he
  | succ n ih =>
    intro b hb
    rw [List.range_succ, List.foldl_append] at hb
    obtain ⟨hlt, hmax, hfirst⟩ := ih _ rfl
    generalize (List.range (n + 1)).foldl (fun best d => if f best < f d then d else best) 0 = c at hb hlt hmax hfirst
    simp only [List.foldl_cons, List.foldl_nil] at hb
    split at hb
    next hbetter =>
      subst hb
      refine ⟨by omega, fun e he => ?_, fun e he => ?_⟩
      · rcases Nat.lt_succ_iff_lt_or_eq.1 he with h | rfl
        · exact (hmax e h).trans (by omega)
        · exact le_refl _
      · have := hmax e he
        omega
    next hworse =>
      subst hb
      refine ⟨by omega, fun e he => ?_, hfirst⟩
      rcases Nat.lt_succ_iff_lt_or_eq.1 he with h | rfl
      · exact hmax e h
      · omega

theorem State.bestDie_spec (s : State) : s.bestDie < 8 ∧
    (∀ e, e < 8 → s.availablePages e ≤ s.availablePages s.bestDie) ∧
    ∀ e, e < s.bestDie → s.availablePages e < s.availablePages s.bestDie :=
  foldl_best s.availablePages 7 _ rfl

/-- The best die has too few pages when each has (R160 test 8). -/
theorem State.bestDie_lt_iff (s : State) (n : Int) :
    s.availablePages s.bestDie < n ↔ ∀ d ∈ List.range 8, s.availablePages d < n := by
  obtain ⟨hlt, hmax, -⟩ := s.bestDie_spec
  refine ⟨fun h d hd => ?_, fun h => h _ (List.mem_range.2 hlt)⟩
  have := hmax d (List.mem_range.1 hd)
  omega

/-- An INSTALL or RECLAIM item alone in the work list waits for nothing but the page buffer (R158). -/
theorem State.joinWork_behind {s : State} (h : s.installer.work ≠ [] ∨ s.installer.held = true) (w : WorkItem) :
    s.joinWork w = s.setInstaller { s.installer with work := s.installer.work ++ [w] } := by
  unfold State.joinWork
  dsimp only
  split
  next he =>
    have hempty : s.installer.work = [] := List.isEmpty_iff.1 he
    have hheld : (s.setInstaller { s.installer with work := s.installer.work ++ [w] }).installer.held = true :=
      h.resolve_left fun hn => hn hempty
    unfold State.nextItem
    rw [State.startNext, if_pos hheld]
  next => rfl

theorem State.joinWork_alone {s : State} (h : s.installer.work = []) (w : WorkItem) :
    s.joinWork w = (s.setInstaller { s.installer with work := [w] }).nextItem := by
  unfold State.joinWork
  rw [h]
  rfl

/-- After a frame with no failure to hand on, the step closes by READY alone (R52, R102). -/
theorem State.finish_resting {s : State} (hp : s.port = { bus := .skipping, sending := none }) (hs : s.settled) :
    s.finish = s.recomputeReady := State.finish_busy s hs (Port.mayBegin_skipping _ _ (by rw [hp]))

/-! ### INSTALL -/

theorem execInstall_taken {s : State} {h : Header} (ht : s.takes h) (hst : s.station.state ≠ .starting) (t : Nat)
    (region : BitVec 24) (format : BitVec 8) (frames loopStart loopEnd : BitVec 24) (source : BitVec 64) :
    exec (.install t h region format frames loopStart loopEnd source) s = .next ((s.frameEnded t).installTaken
      { sender := h.sender.toNat, region := region.toNat, format := format.toNat, frames := frames.toNat
        loopStart := loopStart.toNat, loopEnd := loopEnd.toNat, source := source.toNat }) :=
  congrArg Host.Outcome.next <| (s.receive_takes t h _ ht).trans <| by
    simp only [State.frameEnded_station]
    cases hs : s.station.state with
    | starting => exact absurd hs hst
    | unconfigured => rfl
    | configured => rfl

/-- The first failing test, as R160 lists them. -/
theorem State.installRefusal_eq (s : State) (i : InstallFields) : s.installRefusal i =
    if 4 ≤ s.installer.work.length ∨ s.installer.wiping = true then some .busy
    else if s.delivery.link = .down then some .linkDown
    else if 1048575 < i.region ∨ i.frames = 0 then some .range
    else if 7864320 < i.frames then some .tooLarge
    else if (s.region? i.region).isSome ∨ i.region ∈ s.catalogue.pendingInstalls then some .exists_
    else if i.format.testBit 2 = true ∧ ¬(i.loopStart % 1024 = 0 ∧ i.loopEnd % 1024 = 0 ∧ i.loopStart < i.loopEnd ∧
        i.loopEnd ≤ 1024 * segmentsOf i.frames) then some .badLoop
    else if 49152 ≤ s.catalogue.appendPos + s.catalogue.owed then some .logFull
    else if 8192 < s.catalogue.regions.length + s.catalogue.pendingInstalls.length + 1 then some .noSpace
    else if ∀ d ∈ List.range 8, s.availablePages d < (i.pages : Int) then some .noSpace else none := by
  unfold State.installRefusal
  exact if_congr (Installer.busy_iff _) rfl (if_congr (LinkState.ne_up_iff _) rfl
    (if_congr (or_congr Iff.rfl Nat.lt_one_iff) rfl (if_congr Iff.rfl rfl (if_congr (s.idTaken_iff _) rfl
    (if_congr i.badLoop_iff rfl (if_congr (Catalogue.logFull_iff _) rfl (if_congr Iff.rfl rfl
    (if_congr (s.bestDie_lt_iff _) rfl rfl))))))))

/-- An admitted INSTALL alone with the page buffer free reads page 0 at once; another one waits (R158, R162). -/
theorem State.admitInstall_outcome (s : State) (i : InstallFields) (hlink : s.delivery.link = .up) :
    (s.admitInstall i).catalogue = { s.catalogue with
      pendingInstalls := s.catalogue.pendingInstalls ++ [i.region], owed := s.catalogue.owed + 1 } ∧
    (s.admitInstall i).media = s.media ∧
    (s.installer.work ≠ [] ∨ s.installer.held = true →
      (s.admitInstall i).installer.work = s.installer.work ++ [.install (i.item s.bestDie)] ∧
      (s.admitInstall i).delivery = s.delivery) ∧
    (s.installer.work = [] → s.installer.held = false →
      (s.admitInstall i).installer.work = [.install { i.item s.bestDie with phase := .reading }] ∧
      (s.admitInstall i).delivery.installRead = some
        { bytes := (i.item s.bestDie).readBytes, address := i.source, since := s.clock }) := by
  unfold State.admitInstall
  generalize hx : s.setCatalogue { s.catalogue with
    pendingInstalls := s.catalogue.pendingInstalls ++ [i.region], owed := s.catalogue.owed + 1 } = x
  have hfields : x.catalogue = { s.catalogue with
      pendingInstalls := s.catalogue.pendingInstalls ++ [i.region], owed := s.catalogue.owed + 1 } ∧
      x.media = s.media ∧ x.installer = s.installer ∧ x.delivery = s.delivery ∧ x.clock = s.clock := by
    rw [← hx]
    exact ⟨rfl, rfl, rfl, rfl, rfl⟩
  obtain ⟨hcatalogue, hmedia, hinstaller, hdelivery, hclock⟩ := hfields
  by_cases hbehind : s.installer.work ≠ [] ∨ s.installer.held = true
  · rw [State.joinWork_behind (by rw [hinstaller]; exact hbehind)]
    refine ⟨hcatalogue, hmedia, fun _ => ⟨congrArg (fun y : Installer => y.work ++ _) hinstaller, hdelivery⟩,
      fun hw hh => ?_⟩
    rcases hbehind with h | h
    · exact absurd hw h
    · rw [hh] at h; cases h
  · have hw : x.installer.work = [] := by rw [hinstaller]; exact not_not.1 fun h => hbehind (.inl h)
    have hh : x.installer.held = false := by rw [hinstaller]; exact Bool.eq_false_iff.2 fun h => hbehind (.inr h)
    have hjoin : x.joinWork (.install (i.item s.bestDie)) = (x.setInstaller { x.installer with
        work := [.install (i.item s.bestDie)] }).startReading (i.item s.bestDie) := by
      rw [State.joinWork_alone hw, State.nextItem, State.startNext]
      simp only [State.setInstaller_installer, hh, Bool.false_eq_true, if_false]
      rw [if_pos (show (i.item s.bestDie).phase = .waiting from rfl), if_pos]
      exact (congrArg DeliveryEngine.link hdelivery).trans hlink
    rw [hjoin]
    refine ⟨hcatalogue, hmedia, fun h => absurd h hbehind, fun _ _ => ⟨rfl, ?_⟩⟩
    rw [← hclock]
    rfl

/-- What the passed tests say of the link and of the die chosen (R160, R161). -/
theorem State.installRefusal_passed {s : State} {i : InstallFields} (h : s.installRefusal i = none) :
    s.delivery.link = .up ∧ (i.pages : Int) ≤ s.availablePages s.bestDie := by
  have reject {p : Prop} [Decidable p] {why : Reason} {rest : Option Reason}
      (h : (if p then some why else rest) = none) : ¬p ∧ rest = none := by
    split at h
    · cases h
    next hp => exact ⟨hp, h⟩
  unfold State.installRefusal at h
  obtain ⟨-, h⟩ := reject h
  obtain ⟨hlink, h⟩ := reject h
  obtain ⟨-, h⟩ := reject h
  obtain ⟨-, h⟩ := reject h
  obtain ⟨-, h⟩ := reject h
  obtain ⟨-, h⟩ := reject h
  obtain ⟨-, h⟩ := reject h
  obtain ⟨-, h⟩ := reject h
  obtain ⟨hpages, -⟩ := reject h
  exact ⟨not_not.1 hlink, Int.not_lt.1 hpages⟩

theorem State.admitInstall_step (s : State) (i : InstallFields) : InstallStep s (s.admitInstall i) := by
  unfold State.admitInstall
  exact (MediaStep.setCatalogue s _).installStep.trans (State.joinWork_step _ _)

/-- Settles O35: the tests are the model's one by one, and an admitted item takes the best die. -/
theorem installIsTestedInOrder : Obligations.InstallIsTestedInOrder := by
  intro s t h region format frames loopStart loopEnd source segments pages ht hst hsegments hpages reason hreason
  generalize hfields : ({ sender := h.sender.toNat, region := region.toNat, format := format.toNat
                          frames := frames.toNat, loopStart := loopStart.toNat, loopEnd := loopEnd.toNat
                          source := source.toNat } : InstallFields) = i
  have hexec := execInstall_taken ht hst t region format frames loopStart loopEnd source
  rw [hfields] at hexec
  have hrefusal : (s.frameEnded t).installRefusal i = reason := by
    rw [State.installRefusal_eq, hreason, ← hfields, hsegments, hpages]
    rfl
  unfold State.installTaken at hexec
  rw [hrefusal] at hexec
  rw [hexec]
  clear hreason hexec
  cases reason with
  | some why =>
    rw [← hfields]
    rfl
  | none =>
    obtain ⟨hlink, hroom⟩ := State.installRefusal_passed hrefusal
    obtain ⟨hlt, hmax, hfirst⟩ := (s.frameEnded t).bestDie_spec
    obtain ⟨hcatalogue, hmedia, hbehind, halone⟩ := (s.frameEnded t).admitInstall_outcome i hlink
    have hitem (phase : InstallPhase) : { i.item (s.frameEnded t).bestDie with phase := phase } = (
        { sender := h.sender.toNat, region := region.toNat, format := format.toNat
          frames := frames.toNat, loopStart := loopStart.toNat, loopEnd := loopEnd.toNat
          source := source.toNat, die := (s.frameEnded t).bestDie, reserved := pages, q := 0, extents := []
          phase := phase } : InstallItem) := by
      rw [hpages, ← hfields]
      rfl
    have hread : (i.item (s.frameEnded t).bestDie).readBytes =
        min 24576 (frames.toNat * (Format.ofByte format.toNat).frameSize) := by
      rw [← hfields]
      rfl
    have hwaits : i.item (s.frameEnded t).bestDie = { i.item (s.frameEnded t).bestDie with phase := .waiting } := rfl
    have hpagesi : i.pages = pages := by
      rw [hpages, ← hfields]
      rfl
    have hsource : i.source = source.toNat ∧ i.region = region.toNat := by
      rw [← hfields]
      exact ⟨rfl, rfl⟩
    have hstep : InstallStep (s.frameEnded t) ((s.frameEnded t).admitInstall i) :=
      (s.frameEnded t).admitInstall_step i
    have hport : ((s.frameEnded t).admitInstall i).port = { bus := .skipping, sending := none } := hstep.port
    generalize (s.frameEnded t).admitInstall i = y at hcatalogue hmedia hbehind halone hstep hport
    refine ⟨_, (s.frameEnded t).bestDie, rfl, (State.finish_voices _).trans hstep.voices,
      (State.finish_skipping hport).1.trans hstep.claims, hlt, ?_, hmax, hfirst, ?_⟩
    · rw [← hpagesi]
      exact hroom
    have hclose (hs : s.settled) : y.finish = y.recomputeReady :=
      State.finish_resting hport (by unfold State.settled; rw [hmedia]; exact hs)
    refine ⟨fun hs => ?_, fun hs phase hwait hread' => ?_, fun hs hb => ?_, fun hs hw hh => ?_⟩
    · rw [hclose hs, State.recomputeReady_catalogue, hcatalogue, hsource.2]
      rfl
    · rw [hclose hs, State.recomputeReady_installer, ← hitem]
      by_cases hb : s.installer.work ≠ [] ∨ s.installer.held = true
      · rw [hwait hb, ← hwaits]
        exact (hbehind hb).1
      · have hw : s.installer.work = [] := not_not.1 fun h => hb (.inl h)
        have hh : s.installer.held = false := Bool.eq_false_iff.2 fun h => hb (.inr h)
        rw [hread' hw hh, hw]
        exact (halone hw hh).1
    · rw [hclose hs, State.recomputeReady_delivery, (hbehind hb).2]
      rfl
    · rw [hclose hs, State.recomputeReady_delivery, (halone hw hh).2, hread, hsource.1]
      rfl

/-! ### RECLAIM -/

theorem execReclaim_taken {s : State} {h : Header} (ht : s.takes h) (hst : s.station.state ≠ .starting) (t : Nat)
    (region : BitVec 24) : exec (.reclaim t h region) s =
      .next ((s.frameEnded t).reclaimTaken region.toNat h.sender.toNat) :=
  congrArg Host.Outcome.next <| (s.receive_takes t h _ ht).trans <| by
    simp only [State.frameEnded_station]
    cases hs : s.station.state with
    | starting => exact absurd hs hst
    | unconfigured => rfl
    | configured => rfl

/-- The first failing test, as R167 lists them. -/
theorem State.reclaimRefusal_eq (s : State) (region : Nat) : s.reclaimRefusal region =
    if 4 ≤ s.installer.work.length ∨ s.installer.wiping = true then some .busy
    else match s.region? region with
      | none => some .absent
      | some r => if r.inUse ≠ 0 then some .inUse
        else if 49152 ≤ s.catalogue.appendPos + s.catalogue.owed then some .logFull else none := by
  unfold State.reclaimRefusal
  refine if_congr (Installer.busy_iff _) rfl ?_
  cases s.region? region with
  | none => rfl
  | some r => exact if_congr Iff.rfl rfl (if_congr (Catalogue.logFull_iff _) rfl rfl)

theorem State.reclaimRefusal_passed {s : State} {region : Nat} (h : s.reclaimRefusal region = none) :
    ∃ r, s.region? region = some r := by
  unfold State.reclaimRefusal at h
  split at h
  · cases h
  · split at h
    · cases h
    next r hr => exact ⟨r, hr⟩

/-- A program placed on a die at work waits there (R93). -/
theorem State.joinLongOp_busy {s : State} {d : Nat} (h : (s.die d).state ≠ .idle) (op : LongOp) :
    s.joinLongOp d op = s.withDie d { s.die d with longOps := (s.die d).longOps ++ [op] } s.media.freeBuffers := by
  have hd : d < s.media.dies.length := by
    refine Nat.lt_of_not_le fun hle => h ?_
    rw [State.die_eq_reset (Nat.not_lt.2 hle)]
    rfl
  unfold State.joinLongOp
  rw [State.updateDie_withDie _ hd]
  refine State.idleChoice_of_busy ?_
  rw [State.withDie_die hd]
  exact h

/-- An admitted RECLAIM makes its region DEPARTING; alone, with die 0 at work, its VOID record waits there (R167,
R168). -/
theorem State.admitReclaim_outcome {s : State} {region sender : Nat} {r : Region} (hr : s.region? region = some r)
    (hw : s.installer.work ≠ [] ∨ s.installer.held = false ∧ (s.die 0).state ≠ .idle) :
    ((s.admitReclaim region sender).region? region).map (·.state) = some .departing ∧
      (s.admitReclaim region sender).catalogue.owed = s.catalogue.owed + 1 ∧
      (s.admitReclaim region sender).installer.work =
        s.installer.work ++ [.reclaim sender region s.installer.work.isEmpty] ∧
      (s.admitReclaim region sender).media.frontFailed = s.media.frontFailed ∧
      (s.installer.work = [] → ((s.admitReclaim region sender).die 0).longOps = (s.die 0).longOps ++ [.program
        { block := s.catalogue.appendPos / 6144, page := s.catalogue.appendPos % 6144 / 48
          first := s.catalogue.appendPos % 48, count := 1, purpose := .log (voidRecord region) }]) := by
  unfold State.admitReclaim
  dsimp only
  generalize hx : (s.updateRegion region fun r => { r with state := .departing }).setCatalogue
    { (s.updateRegion region fun r => { r with state := .departing }).catalogue with
      owed := (s.updateRegion region fun r => { r with state := .departing }).catalogue.owed + 1 } = x
  have hregion : x.region? region = some { r with state := .departing } := by
    rw [← hx]
    have h := s.region_updateRegion region region (fun r => { r with state := .departing }) fun _ => rfl
    rw [hr] at h
    exact h.trans (congrArg some (if_pos rfl))
  have hfields : x.catalogue.owed = s.catalogue.owed + 1 ∧ x.catalogue.appendPos = s.catalogue.appendPos ∧
      x.installer = s.installer ∧ x.media = s.media := by
    rw [← hx]
    exact ⟨rfl, rfl, rfl, rfl⟩
  obtain ⟨howed, hpos, hinstaller, hmedia⟩ := hfields
  clear hx
  cases hwork : s.installer.work with
  | cons w rest =>
    rw [State.joinWork_behind (.inl (by rw [hinstaller, hwork]; exact List.cons_ne_nil _ _))]
    refine ⟨congrArg (Option.map (·.state)) hregion, howed, ?_, congrArg Media.frontFailed hmedia,
      fun h => by cases h⟩
    rw [State.setInstaller_installer, hinstaller, hwork]
    rfl
  | nil =>
    obtain ⟨hheld, hbusy⟩ := hw.resolve_left fun h => h hwork
    have hjoin : x.joinWork (.reclaim sender region false) = (x.setInstaller { x.installer with
        work := [.reclaim sender region false] }).runReclaim sender region := by
      rw [State.joinWork_alone (by rw [hinstaller, hwork]), State.nextItem, State.startNext]
      have hh : x.installer.held = false := by rw [hinstaller]; exact hheld
      have hreg : (x.setInstaller { x.installer with work := [.reclaim sender region false] }).region? region =
        some { r with state := .departing } := hregion
      simp only [State.setInstaller_installer, hh, Bool.false_eq_true, if_false] at hreg ⊢
      rw [hreg]
      exact if_neg fun h => by cases h.1
    rw [hjoin]
    unfold State.runReclaim State.appendRecord
    generalize hy : ((x.setInstaller { x.installer with work := [.reclaim sender region false] }).setHead
      (.reclaim sender region true)).updateRegion region (fun r => { r with state := .departing }) = y
    have hyregion : y.region? region = some { r with state := .departing } := by
      rw [← hy]
      have h := x.region_updateRegion region region (fun r => { r with state := .departing }) fun _ => rfl
      rw [hregion] at h
      exact h.trans (congrArg some (if_pos rfl))
    have hyfields : y.catalogue.owed = x.catalogue.owed ∧ y.catalogue.appendPos = x.catalogue.appendPos ∧
        y.installer.work = [.reclaim sender region true] ∧ y.media = x.media := by
      rw [← hy]
      exact ⟨rfl, rfl, rfl, rfl⟩
    obtain ⟨hyowed, hypos, hywork, hymedia⟩ := hyfields
    clear hy
    have hdie : y.die 0 = s.die 0 := by
      unfold State.die
      rw [hymedia, hmedia]
    dsimp only
    rw [State.joinLongOp_busy (by rw [hdie]; exact hbusy), hypos, hpos]
    have hd : 0 < y.media.dies.length := by
      rw [hymedia, hmedia]
      refine Nat.lt_of_not_le fun hle => hbusy ?_
      rw [State.die_eq_reset (Nat.not_lt.2 hle)]
      rfl
    refine ⟨congrArg (Option.map (·.state)) hyregion, hyowed.trans howed, hywork, ?_, fun _ => ?_⟩
    · have h := congrArg Media.frontFailed (hymedia.trans hmedia)
      exact h
    · rw [State.withDie_die hd, hdie]

theorem State.admitReclaim_step (s : State) (region sender : Nat) : InstallStep s (s.admitReclaim region sender) := by
  unfold State.admitReclaim
  exact ((State.updateRegion_step s region _).installStep.trans (MediaStep.setCatalogue _ _).installStep).trans
    (State.joinWork_step _ _)

/-- Settles O36: the tests are the model's one by one, and an admitted item's effect is that of its admission. -/
theorem reclaimIsTestedInOrder : Obligations.ReclaimIsTestedInOrder := by
  intro s t h region ht hst reason hreason
  have hexec := execReclaim_taken ht hst t region
  have hrefusal : (s.frameEnded t).reclaimRefusal region.toNat = reason := by
    rw [State.reclaimRefusal_eq, hreason]
    rfl
  unfold State.reclaimTaken at hexec
  rw [hrefusal] at hexec
  rw [hexec]
  clear hreason hexec
  cases reason with
  | some why => rfl
  | none =>
    obtain ⟨r, hr⟩ := State.reclaimRefusal_passed hrefusal
    have hstep := (s.frameEnded t).admitReclaim_step region.toNat h.sender.toNat
    have hout := fun hw => State.admitReclaim_outcome (sender := h.sender.toNat) hr hw
    have hport : ((s.frameEnded t).admitReclaim region.toNat h.sender.toNat).port =
      { bus := .skipping, sending := none } := hstep.port
    generalize (s.frameEnded t).admitReclaim region.toNat h.sender.toNat = y at hstep hout hport
    refine ⟨_, rfl, (State.finish_voices _).trans hstep.voices, (State.finish_skipping hport).1.trans hstep.claims,
      fun hs hw => ?_⟩
    obtain ⟨hregion, howed, hwork, hfailed, hops⟩ := hout hw
    rw [State.finish_resting hport (hfailed.trans hs)]
    exact ⟨hregion, howed, hwork, hops⟩

end Sys2Proof.Machine
end

