-- ==== Sys2Proof/Proofs/Erasing.lean ====
section
/-! SUPPORT. A die's idle choice is a matter of that die alone: the other dies' records and block tables stay, and in its
own table at most the block whose erase begins changes (R11, R94). So work given to the dies one after the other leaves
on each what it leaves there alone. -/

namespace Sys2Proof.Machine

/-! ### Block tables -/

theorem State.dieBlocks_updateDieBlocks (s : State) (d e : Nat) (f : DieBlocks → DieBlocks) :
    (s.updateDieBlocks d f).dieBlocks e =
      if e = d ∧ d < s.catalogue.blockTable.length then f (s.dieBlocks d) else s.dieBlocks e := by
  simp only [State.dieBlocks, State.updateDieBlocks, State.setCatalogue_catalogue, List.getD_eq_getElem?_getD,
    List.getElem?_modify]
  by_cases he : d = e
  · subst he
    by_cases hd : d < s.catalogue.blockTable.length
    · simp [hd]
    · simp [hd]
  · have he' : ¬e = d := fun h => he h.symm
    simp [he, he']

/-- A die that the table does not have has no block (R10). -/
theorem State.dieBlocks_beyond {s : State} {d : Nat} (h : ¬d < s.catalogue.blockTable.length) :
    s.dieBlocks d = { blocks := [], free := [] } := by
  unfold State.dieBlocks
  rw [List.getD_eq_getElem?_getD, List.getElem?_eq_none (by omega)]
  rfl

theorem State.dieBlocks_congr {s t : State} (h : t.catalogue.blockTable = s.catalogue.blockTable) (d : Nat) :
    t.dieBlocks d = s.dieBlocks d := by
  unfold State.dieBlocks
  rw [h]

theorem State.dieBlocks_updateBlock (s : State) (d b e : Nat) (f : Block → Block) :
    (s.updateBlock d b f).dieBlocks e = if e = d
      then { s.dieBlocks d with blocks := (s.dieBlocks d).blocks.modify b f } else s.dieBlocks e := by
  unfold State.updateBlock
  rw [State.dieBlocks_updateDieBlocks]
  by_cases he : e = d
  · by_cases hd : d < s.catalogue.blockTable.length
    · rw [if_pos ⟨he, hd⟩, if_pos he]
    · rw [if_neg fun h => hd h.2, if_pos he, he, State.dieBlocks_beyond hd]
      simp
  · rw [if_neg fun h => he h.1, if_neg he]

/-- The numbers of the blocks that pass a test, by the blocks themselves. -/
theorem DieBlocks.numbers_eq (t : DieBlocks) (p : Block → Bool) :
    t.numbers p = (List.range t.blocks.length).filter fun b => p (t.blocks.getD b Block.unset) := by
  have hzip : t.blocks.zipIdx = (List.range t.blocks.length).map fun b => (t.blocks.getD b Block.unset, b) := by
    refine List.ext_getElem? fun k => ?_
    rw [List.getElem?_zipIdx, List.getElem?_map]
    by_cases hk : k < t.blocks.length
    · rw [List.getElem?_range hk, List.getElem?_eq_getElem hk]
      simp [List.getD_eq_getElem?_getD, List.getElem?_eq_getElem hk]
    · rw [List.getElem?_eq_none (by omega), List.getElem?_eq_none (by simpa using Nat.not_lt.1 hk)]
      rfl
  unfold DieBlocks.numbers
  rw [hzip, List.filter_map, List.map_map]
  exact List.map_id _

/-! ### The idle choice -/

theorem State.beginRead_catalogue {s t : State} {d : Nat} (h : s.beginRead? d = some t) : t.catalogue = s.catalogue := by
  unfold State.beginRead? at h
  obtain ⟨x, -, rfl⟩ := Option.map_eq_some_iff.1 h
  rfl

theorem State.beginRead_getD_catalogue (s : State) (d : Nat) : ((s.beginRead? d).getD s).catalogue = s.catalogue := by
  cases h : s.beginRead? d with
  | none => rfl
  | some t => exact State.beginRead_catalogue h

/-- The catalogue after an idle choice on die `d`: as before, or with one block's erase begun (R11, R94). -/
def BeginsErase (d : Nat) (s t : State) : Prop :=
  t.catalogue = s.catalogue ∨ ∃ b, t.catalogue = (s.updateBlock d b Block.startErase).catalogue

theorem State.takeLongOp_begins (s : State) (d : Nat) : BeginsErase d s (s.takeLongOp d).1 := by
  unfold State.takeLongOp
  dsimp only
  split
  · exact .inl rfl
  next op rest _ =>
    cases op with
    | program p => exact .inl rfl
    | erase b => exact .inr ⟨b, rfl⟩

theorem State.idleChoice_begins (s : State) (d : Nat) : BeginsErase d s (s.idleChoice d) := by
  have htake := s.takeLongOp_begins d
  unfold State.idleChoice
  split
  · dsimp only
    split
    next u hu =>
      split at hu
      · exact .inl (State.beginRead_catalogue hu)
      · cases hu
    next =>
      split
      · exact htake
      · unfold BeginsErase
        rw [State.beginRead_getD_catalogue]
        exact htake
  · exact .inl rfl

theorem BeginsErase.other {s t : State} {d e : Nat} (h : BeginsErase d s t) (he : e ≠ d) :
    t.dieBlocks e = s.dieBlocks e := by
  rcases h with h | ⟨b, h⟩
  · exact State.dieBlocks_congr (congrArg Catalogue.blockTable h) e
  · rw [State.dieBlocks_congr (congrArg Catalogue.blockTable h), State.dieBlocks_updateBlock, if_neg he]

/-- In a table with no QUEUED block an idle choice changes none. -/
theorem BeginsErase.same {s t : State} {d : Nat} (h : BeginsErase d s t)
    (hq : ∀ k ∈ (s.dieBlocks d).blocks, k.state ≠ .queued) : t.dieBlocks d = s.dieBlocks d := by
  rcases h with h | ⟨b, h⟩
  · exact State.dieBlocks_congr (congrArg Catalogue.blockTable h) d
  · have hmodify : (s.dieBlocks d).blocks.modify b Block.startErase = (s.dieBlocks d).blocks := by
      refine List.ext_getElem? fun k => ?_
      rw [List.getElem?_modify]
      cases hk : (s.dieBlocks d).blocks[k]? with
      | none => rfl
      | some x =>
        split
        · exact congrArg some (if_neg (hq x (List.mem_of_getElem? hk)))
        · rfl
    rw [State.dieBlocks_congr (congrArg Catalogue.blockTable h), State.dieBlocks_updateBlock, if_pos rfl, hmodify]

theorem State.joinErases_begins (s : State) (d : Nat) (blocks : List Nat) : BeginsErase d s (s.joinErases d blocks) := by
  unfold State.joinErases
  split
  · exact .inl rfl
  · exact State.idleChoice_begins (s.updateDie d _) d

theorem State.joinErases_die_other (s : State) (d e : Nat) (he : e ≠ d) (blocks : List Nat) :
    (s.joinErases d blocks).die e = s.die e := by
  unfold State.joinErases
  split
  · rfl
  · rw [State.idleChoice_die_other _ d e he, State.die_updateDie, if_neg fun h => he h.1]

/-- Erases join the long-op queue of a die that is at work (R93). -/
theorem State.joinErases_busy {s : State} {d : Nat} (hd : d < s.media.dies.length) (h : (s.die d).state ≠ .idle)
    (blocks : List Nat) :
    (s.joinErases d blocks).die d = { s.die d with longOps := (s.die d).longOps ++ blocks.map LongOp.erase } := by
  unfold State.joinErases
  split
  next he =>
    rw [List.isEmpty_iff.1 he, List.map_nil, List.append_nil]
  next =>
    have hdie : (s.updateDie d fun die => { die with longOps := die.longOps ++ blocks.map LongOp.erase }).die d =
        { s.die d with longOps := (s.die d).longOps ++ blocks.map LongOp.erase } := by
      rw [State.die_updateDie, if_pos ⟨rfl, hd⟩]
    rw [State.idleChoice_of_busy (by rw [hdie]; exact h), hdie]

/-- On an IDLE die with nothing waiting the first erase begins (R94). -/
theorem State.joinErases_idle {s : State} {d b : Nat} {rest : List Nat} (hd : d < s.media.dies.length)
    (h : (s.die d).state = .idle) (hr : (s.die d).reads = []) (hl : (s.die d).longOps = []) :
    (s.joinErases d (b :: rest)).die d =
      { s.die d with state := .busy (.erase b), longOps := rest.map LongOp.erase } := by
  unfold State.joinErases
  rw [if_neg (by exact nofun)]
  have hdie : (s.updateDie d fun die => { die with longOps := die.longOps ++ (b :: rest).map LongOp.erase }).die d =
      { s.die d with longOps := (b :: rest).map LongOp.erase } := by
    rw [State.die_updateDie, if_pos ⟨rfl, hd⟩, hl]
    rfl
  have hlen : d < (s.updateDie d fun die =>
      { die with longOps := die.longOps ++ (b :: rest).map LongOp.erase }).media.dies.length := by
    rw [(State.updateDie_die s d _).count]
    exact hd
  generalize s.updateDie d (fun die => { die with longOps := die.longOps ++ (b :: rest).map LongOp.erase }) = x at hdie hlen
  unfold State.idleChoice
  rw [if_pos (by rw [hdie]; exact h)]
  have hnone : (x.die d).headWithin x.timebase.tick 8192 = false := Die.headWithin_nil (by rw [hdie]; exact hr) _ _
  have hops : ∀ op ∈ (x.die d).longOps, op.isProgram = false := by
    rw [hdie]
    intro op hop
    obtain ⟨k, -, rfl⟩ := List.mem_map.1 hop
    rfl
  rcases State.takeLongOp_erases hops with ⟨he, -⟩ | ⟨b', rest', he, htake⟩
  · rw [hdie] at he
    cases he
  · rw [hdie] at he
    cases he
    simp only [hnone, Bool.false_eq_true, if_false, htake, if_true]
    have hmedia (y : State) (f : Block → Block) : (y.updateBlock d b f).die d = y.die d := rfl
    rw [hmedia, State.die_updateDie, if_pos ⟨rfl, hlen⟩, hdie]

/-! ### One die after the other -/

/-- What a fold that treats each die by itself leaves on one of them. -/
theorem foldl_local {α : Type} {f : State → Nat → State} {view : State → Nat → α}
    (hother : ∀ s d e, e ≠ d → view (f s d) e = view s e) {l : List Nat} (hn : l.Nodup) {d : Nat} (hd : d ∈ l)
    (s : State) : ∃ t, view t d = view s d ∧ view (l.foldl f s) d = view (f t d) d := by
  have hkept (l : List Nat) (h : d ∉ l) : ∀ s, view (l.foldl f s) d = view s d := by
    induction l with
    | nil => exact fun _ => rfl
    | cons e l ih =>
      intro s
      rw [List.foldl_cons, ih fun h' => h (List.mem_cons_of_mem _ h')]
      exact hother s e d fun he => h (he ▸ List.mem_cons_self)
  obtain ⟨before, after, rfl⟩ := List.append_of_mem hd
  have hapart := List.nodup_append.1 hn
  obtain ⟨-, hafter, hdisjoint⟩ := hapart
  refine ⟨before.foldl f s, hkept before (fun h => hdisjoint d h d List.mem_cons_self rfl) s, ?_⟩
  rw [List.foldl_append, List.foldl_cons, hkept after (List.nodup_cons.1 hafter).1]

end Sys2Proof.Machine
end

