-- ==== Sys2Proof/Proofs/Wiping.lean ====
section
/-! PROOF. O37: the admission of a WIPE, and its progress at the end of each erase. -/

namespace Sys2Proof.Machine

/-! ### The end of a long operation -/

theorem exec_opEnds {s : State} {t d : Nat} {op : LongOp} {ok : Bool} {c : Instr} (h : s.opEnds t d op ok c) :
    exec c s = .next ((s.atTime t).longOpResult d op ok).finish := by
  rcases h with ⟨hs, rfl⟩ | ⟨hs, rfl⟩
  · have h1 : ((s.atTime t).die d).state = .busy op := hs
    cases op with
    | program p => simp only [exec, execProgramComplete, h1]
    | erase b => simp only [exec, execEraseComplete, h1]
  · have h1 : ((s.atTime t).die d).state = .suspendPending op := hs
    simp only [exec, execSuspendReported, h1]

/-- What the flash and the block table take of an erase, before the installer is told (R103). -/
def State.erased (s : State) (d b : Nat) (ok : Bool) : State :=
  ((s.setFront d b 0).eraseFlash d b ok).blockErased d b ok

theorem State.eraseResult_eq (s : State) (d b : Nat) (ok : Bool) :
    s.eraseResult d b ok = (s.erased d b ok).eraseTold d ((s.block d b).state == .log) ok := rfl

theorem State.eraseFlash_kept (s : State) (d b : Nat) (ok : Bool) : (s.eraseFlash d b ok).media.dies = s.media.dies ∧
    (s.eraseFlash d b ok).media.frontFailed = s.media.frontFailed ∧ (s.eraseFlash d b ok).catalogue = s.catalogue ∧
    (s.eraseFlash d b ok).installer = s.installer ∧ (s.eraseFlash d b ok).notices = s.notices ∧
    (s.eraseFlash d b ok).delivery = s.delivery := by
  unfold State.eraseFlash
  split <;> exact ⟨rfl, rfl, rfl, rfl, rfl, rfl⟩

theorem State.blockErased_kept (s : State) (d b : Nat) (ok : Bool) : (s.blockErased d b ok).media = s.media ∧
    (s.blockErased d b ok).catalogue.appendPos = s.catalogue.appendPos ∧
    (s.blockErased d b ok).installer = s.installer ∧ (s.blockErased d b ok).notices = s.notices ∧
    (s.blockErased d b ok).delivery = s.delivery := by
  unfold State.blockErased
  split
  · exact ⟨rfl, rfl, rfl, rfl, rfl⟩
  · split <;> exact ⟨rfl, rfl, rfl, rfl, rfl⟩

theorem State.erased_kept (s : State) (d b : Nat) (ok : Bool) : (s.erased d b ok).media.dies = s.media.dies ∧
    (s.erased d b ok).media.frontFailed = s.media.frontFailed ∧
    (s.erased d b ok).catalogue.appendPos = s.catalogue.appendPos ∧ (s.erased d b ok).installer = s.installer ∧
    (s.erased d b ok).notices = s.notices ∧ (s.erased d b ok).delivery = s.delivery := by
  obtain ⟨hdies, hfailed, hcatalogue, hinst, hnotices, hdelivery⟩ := (s.setFront d b 0).eraseFlash_kept d b ok
  obtain ⟨hmedia, hpos, hinst', hnotices', hdelivery'⟩ := ((s.setFront d b 0).eraseFlash d b ok).blockErased_kept d b ok
  unfold State.erased
  rw [hmedia, hpos, hinst', hnotices', hdelivery', hdies, hfailed, hcatalogue, hinst, hnotices, hdelivery]
  exact ⟨rfl, rfl, rfl, rfl, rfl, rfl⟩

/-- A die's return to IDLE, with no program waiting anywhere, turns none away (R94, R102). -/
theorem State.becomeIdle_settled {s : State} (h : NoPrograms s) (hs : s.settled) (d : Nat) :
    (s.becomeIdle d).settled := (s.becomeIdle_calm d h).1.trans hs

/-! ### The progress of a WIPE -/

/-- One erase of a WIPE alone in the work list has ended (R17, R169). -/
theorem State.wipeProgress_outcome {x : State} {sender worn left logLeft : Nat}
    (hw : x.installer.work = [.wipe sender worn left logLeft]) (isLog ok : Bool) {y : State}
    (hy : x.wipeProgress sender worn left logLeft isLog ok = y) :
    y.catalogue.appendPos = (if isLog = true ∧ logLeft ≤ 1 then 0 else x.catalogue.appendPos) ∧ y.media = x.media ∧
      (1 < left → y.installer.work = [.wipe sender (worn + if ok then 0 else 1) (left - 1)
        (if isLog then logLeft - 1 else logLeft)]) ∧
      (left ≤ 1 → y.installer.work = [] ∧ ∀ {s u : State}, NoticeStep s x → NoticeStep y u →
        s.told u { addressee := sender, body := .wiped (worn + if ok then 0 else 1), isOpen := false }) := by
  unfold State.wipeProgress at hy
  dsimp only at hy
  have hcleared : (isLog && (if isLog then logLeft - 1 else logLeft) == 0) = true ↔ isLog = true ∧ logLeft ≤ 1 := by
    rw [Bool.and_eq_true, beq_iff_eq]
    refine and_congr_right fun h => ?_
    rw [if_pos h]
    omega
  have hclear : ∃ z : State, z = (if (isLog && (if isLog then logLeft - 1 else logLeft) == 0) = true
      then x.clearAppend else x) ∧
      z.catalogue.appendPos = (if isLog = true ∧ logLeft ≤ 1 then 0 else x.catalogue.appendPos) ∧ z.media = x.media ∧
      z.installer = x.installer ∧ z.notices = x.notices := by
    refine ⟨_, rfl, ?_⟩
    by_cases h : isLog = true ∧ logLeft ≤ 1
    · rw [if_pos (hcleared.2 h), if_pos h]
      exact ⟨rfl, rfl, rfl, rfl⟩
    · rw [if_neg fun h' => h (hcleared.1 h'), if_neg h]
      exact ⟨rfl, rfl, rfl, rfl⟩
  obtain ⟨z, hz, hpos, hmedia, hinstaller, hnotices⟩ := hclear
  rw [← hz] at hy
  split at hy
  next hlast =>
    have hempty : ((z.endItem).queueNotice sender (.wiped (worn + if ok then 0 else 1))).installer.work = [] := by
      show z.installer.work.tail = []
      rw [hinstaller, hw]
      rfl
    rw [State.nextItem_of_empty hempty] at hy
    subst hy
    refine ⟨hpos, hmedia, fun h => absurd h (by omega), fun _ => ⟨hempty, fun a b => ?_⟩⟩
    exact State.told_queueNotice (t := z.endItem) _ _ rfl (a.trans (.of_eq hnotices)) b
  next hmore =>
    subst hy
    refine ⟨hpos, hmedia, fun _ => ?_, fun h => absurd h hmore⟩
    show WorkItem.wipe _ _ _ _ :: z.installer.work.tail = _
    rw [hinstaller, hw]
    rfl

/-! ### The admission of a WIPE -/

theorem execWipe_taken {s : State} {h : Header} (ht : s.takes h) (hst : s.station.state ≠ .starting) (t : Nat) :
    exec (.wipe t h) s = .next ((s.frameEnded t).wipeTaken h.sender.toNat) :=
  congrArg Host.Outcome.next <| (s.receive_takes t h _ ht).trans <| by
    simp only [State.frameEnded_station]
    cases hs : s.station.state with
    | starting => exact absurd hs hst
    | unconfigured => rfl
    | configured => rfl

theorem State.wipeBusy_iff (s : State) :
    s.wipeBusy = true ↔ ¬(s.installer.work = [] ∧ s.voices = [] ∧ s.claims.bids = []) := by
  unfold State.wipeBusy
  rw [Bool.or_eq_true, Bool.or_eq_true, Bool.not_eq_true', Bool.not_eq_true', Bool.not_eq_true', List.isEmpty_eq_false_iff,
    List.isEmpty_eq_false_iff, List.isEmpty_eq_false_iff, not_and_or, not_and_or, or_assoc]

/-- A die under a WIPE, apart from the others (R169). -/
theorem State.wipeDie_other (s : State) (d e : Nat) (he : e ≠ d) :
    ((s.wipeDie d).die e, (s.wipeDie d).dieBlocks e) = (s.die e, s.dieBlocks e) := by
  unfold State.wipeDie
  dsimp only
  rw [State.joinErases_die_other _ d e he, (State.joinErases_begins _ d _).other he, State.dieBlocks_updateDieBlocks,
    if_neg fun h => he h.1]
  rfl

theorem State.wiping_dieBlocks (s : State) (d : Nat) :
    (s.updateDieBlocks d fun t => { blocks := t.blocks.map Block.wiping, free := [] }).dieBlocks d =
      { blocks := (s.dieBlocks d).blocks.map Block.wiping, free := [] } := by
  rw [State.dieBlocks_updateDieBlocks]
  by_cases hd : d < s.catalogue.blockTable.length
  · rw [if_pos ⟨rfl, hd⟩]
  · rw [if_neg fun h => hd h.2, State.dieBlocks_beyond hd]
    rfl

/-- The die's table and its long operations once it is under a WIPE (R17, R169). -/
theorem State.wipeDie_table (s : State) (d : Nat) :
    (s.wipeDie d).dieBlocks d = { blocks := (s.dieBlocks d).blocks.map Block.wiping, free := [] } := by
  have htable := s.wiping_dieBlocks d
  unfold State.wipeDie
  dsimp only
  rw [(State.joinErases_begins _ d _).same, htable]
  rw [htable]
  intro k hk
  obtain ⟨b, -, rfl⟩ := List.mem_map.1 hk
  unfold Block.wiping
  dsimp only
  split <;> exact nofun

theorem State.wipeDie_work {s : State} {d : Nat} (hd : d < s.media.dies.length) {erases : List Nat}
    (he : erases = (s.dieBlocks d).numbers Block.needsErase) :
    ((s.die d).state ≠ .idle →
      (s.wipeDie d).die d = { s.die d with longOps := (s.die d).longOps ++ erases.map LongOp.erase }) ∧
    ((s.die d).state = .idle → (s.die d).reads = [] → (s.die d).longOps = [] → ∀ b rest, erases = b :: rest →
      (s.wipeDie d).die d = { s.die d with state := .busy (.erase b), longOps := rest.map LongOp.erase }) := by
  unfold State.wipeDie
  dsimp only
  rw [← he]
  refine ⟨fun h => State.joinErases_busy (s := s.updateDieBlocks d _) hd h erases, fun h hr hl b rest hb => ?_⟩
  rw [hb]
  exact State.joinErases_idle (s := s.updateDieBlocks d _) hd h hr hl

theorem State.wipeDie_kept (s : State) (d : Nat) : (s.wipeDie d).catalogue.regions = s.catalogue.regions ∧
    (s.wipeDie d).catalogue.owed = s.catalogue.owed ∧
    (s.wipeDie d).catalogue.pendingInstalls = s.catalogue.pendingInstalls ∧
    (s.wipeDie d).catalogue.appendPos = s.catalogue.appendPos ∧ (s.wipeDie d).installer = s.installer ∧
    (s.wipeDie d).media.dies.length = s.media.dies.length := by
  have h := State.joinErases_die (s.updateDieBlocks d fun t => { blocks := t.blocks.map Block.wiping, free := [] }) d
    ((s.dieBlocks d).numbers Block.needsErase)
  exact ⟨h.regions, h.owed, h.installs, h.appendPos, h.media.installer, h.count⟩

theorem State.wipeDies_kept (l : List Nat) : ∀ s : State,
    (l.foldl State.wipeDie s).catalogue.regions = s.catalogue.regions ∧
    (l.foldl State.wipeDie s).catalogue.owed = s.catalogue.owed ∧
    (l.foldl State.wipeDie s).catalogue.pendingInstalls = s.catalogue.pendingInstalls ∧
    (l.foldl State.wipeDie s).catalogue.appendPos = s.catalogue.appendPos ∧
    (l.foldl State.wipeDie s).installer = s.installer ∧
    (l.foldl State.wipeDie s).media.dies.length = s.media.dies.length := by
  induction l with
  | nil => exact fun _ => ⟨rfl, rfl, rfl, rfl, rfl, rfl⟩
  | cons d l ih =>
    intro s
    obtain ⟨h1, h2, h3, h4, h5, h6⟩ := s.wipeDie_kept d
    obtain ⟨k1, k2, k3, k4, k5, k6⟩ := ih (s.wipeDie d)
    exact ⟨k1.trans h1, k2.trans h2, k3.trans h3, k4.trans h4, k5.trans h5, k6.trans h6⟩

/-- The numbers of the blocks that get an erase of their own, by the blocks' states (R169). -/
theorem State.needsErase_numbers (s : State) (d : Nat) : (s.dieBlocks d).numbers Block.needsErase =
    (List.range (s.dieBlocks d).blocks.length).filter fun b =>
      (s.block d b).state ≠ .queued ∧ (s.block d b).state ≠ .erasing := by
  rw [DieBlocks.numbers_eq]
  refine List.filter_congr fun b _ => ?_
  rw [Bool.eq_iff_iff]
  simp [Block.needsErase, State.block]

/-- What a WIPE's admission leaves on each die (R17, R169). -/
theorem State.admitWipe_die (s : State) (sender : Nat) {d : Nat} (hd : d < 8) :
    (s.admitWipe sender).dieBlocks d = { blocks := (s.dieBlocks d).blocks.map Block.wiping, free := [] } ∧
      (d < s.media.dies.length → ∀ erases, erases = (s.dieBlocks d).numbers Block.needsErase →
        ((s.die d).state ≠ .idle → (s.admitWipe sender).die d =
          { s.die d with longOps := (s.die d).longOps ++ erases.map LongOp.erase }) ∧
        ((s.die d).state = .idle → (s.die d).reads = [] → (s.die d).longOps = [] → ∀ b rest, erases = b :: rest →
          (s.admitWipe sender).die d =
            { s.die d with state := .busy (.erase b), longOps := rest.map LongOp.erase })) := by
  obtain ⟨t, ht, hfold⟩ := foldl_local (f := State.wipeDie)
    (view := fun s d => ((s.die d, s.dieBlocks d), s.media.dies.length))
    (fun s d e he => Prod.ext (s.wipeDie_other d e he) (s.wipeDie_kept d).2.2.2.2.2) (l := dieNumbers)
    List.nodup_range (List.mem_range.2 hd)
    ((s.setCatalogue s.catalogue.emptied).setInstaller { s.installer with work := [.wipe sender 0 16384 8] })
  obtain ⟨⟨htdie, httable⟩, htlength⟩ : (t.die d = s.die d ∧ t.dieBlocks d = s.dieBlocks d) ∧
      t.media.dies.length = s.media.dies.length := by
    simp only [Prod.mk.injEq] at ht
    exact ht
  simp only [Prod.mk.injEq] at hfold
  obtain ⟨⟨hdie, htable⟩, -⟩ := hfold
  refine ⟨htable.trans (by rw [State.wipeDie_table, httable]), fun hlen erases he => ?_⟩
  have hwork := State.wipeDie_work (s := t) (htlength ▸ hlen) (erases := erases) (by rw [httable]; exact he)
  rw [htdie] at hwork
  exact ⟨fun h => hdie.trans (hwork.1 h), fun h hr hl b rest hb => hdie.trans (hwork.2 h hr hl b rest hb)⟩

theorem State.admitWipe_kept (s : State) (sender : Nat) : (s.admitWipe sender).catalogue.regions = [] ∧
    (s.admitWipe sender).catalogue.owed = 0 ∧ (s.admitWipe sender).catalogue.pendingInstalls = [] ∧
    (s.admitWipe sender).catalogue.appendPos = s.catalogue.appendPos ∧
    (s.admitWipe sender).installer.work = [.wipe sender 0 16384 8] := by
  have hfold : s.admitWipe sender = dieNumbers.foldl State.wipeDie
    ((s.setCatalogue s.catalogue.emptied).setInstaller { s.installer with work := [.wipe sender 0 16384 8] }) := rfl
  obtain ⟨h1, h2, h3, h4, h5, -⟩ := State.wipeDies_kept dieNumbers
    ((s.setCatalogue s.catalogue.emptied).setInstaller { s.installer with work := [.wipe sender 0 16384 8] })
  rw [hfold, h1, h2, h3, h4, h5]
  exact ⟨rfl, rfl, rfl, rfl, rfl⟩

theorem State.admitWipe_calm (s : State) (sender : Nat) : CalmStep s (s.admitWipe sender) := by
  have hfold : s.admitWipe sender = dieNumbers.foldl State.wipeDie
    ((s.setCatalogue s.catalogue.emptied).setInstaller { s.installer with work := [.wipe sender 0 16384 8] }) := rfl
  have hstart : CalmStep s ((s.setCatalogue s.catalogue.emptied).setInstaller
    { s.installer with work := [.wipe sender 0 16384 8] }) := fun h => ⟨rfl, h⟩
  rw [hfold]
  exact hstart.trans (CalmStep.foldl _ State.wipeDie_calm _ _)

/-- Settles O37: the admission die by die, and the progress at each erase's end. -/
theorem wipeEmptiesTheCatalogue : Obligations.WipeEmptiesTheCatalogue := by
  refine ⟨fun s t h ht hst => ⟨fun hbusy => ?_, fun hfree hs hnone => ?_⟩,
    fun s t d b sender worn left logLeft ok c hends hw hs hnone worn' hworn => ?_⟩
  · rw [execWipe_taken ht hst, State.wipeTaken, if_pos ((s.frameEnded t).wipeBusy_iff.2 hbusy)]
    rfl
  · rw [execWipe_taken ht hst, State.wipeTaken, if_neg fun h => (s.frameEnded t).wipeBusy_iff.1 h hfree]
    have hstep := (s.frameEnded t).admitWipe_step h.sender.toNat
    have hcalm := (s.frameEnded t).admitWipe_calm h.sender.toNat
    have hdies := fun d hd => (s.frameEnded t).admitWipe_die h.sender.toNat (d := d) hd
    obtain ⟨hregions, howed, hpending, hpos, hwork⟩ := (s.frameEnded t).admitWipe_kept h.sender.toNat
    have hport : ((s.frameEnded t).admitWipe h.sender.toNat).port = { bus := .skipping, sending := none } := hstep.port
    generalize (s.frameEnded t).admitWipe h.sender.toNat = y at hstep hcalm hdies hregions howed hpending hpos hwork hport
    rw [State.finish_resting hport ((hcalm hnone).1.trans hs)]
    refine ⟨_, rfl, hregions, howed, hpending, hpos, hwork, fun d hd => ?_, fun d ops hd hlen hops => ?_⟩
    · have htable : y.recomputeReady.dieBlocks d = y.dieBlocks d := rfl
      rw [htable, (hdies d hd).1]
      exact ⟨rfl, rfl⟩
    · obtain ⟨hatwork, hidle⟩ := (hdies d hd).2 hlen _ rfl
      have hnumbers : ((s.frameEnded t).dieBlocks d).numbers Block.needsErase = _ := s.needsErase_numbers d
      rw [hnumbers] at hatwork hidle
      have hdie : y.recomputeReady.die d = y.die d := rfl
      rw [hdie]
      refine ⟨fun h => ?_, fun op rest h hr hl hop => ?_⟩
      · rw [hatwork h, hops]
        rfl
      · rw [hl, List.nil_append] at hops
        obtain ⟨b, rest', hb, rfl, rfl⟩ := List.map_eq_cons_iff.1 (hops.symm.trans hop)
        exact hidle h hr hl b rest' hb
  · have hresult : (s.atTime t).longOpResult d (.erase b) ok =
        ((s.atTime t).eraseResult d b ok).becomeIdle d := rfl
    obtain ⟨hdies, hfailed, hpos, hinstaller, hnotices, -⟩ := (s.atTime t).erased_kept d b ok
    rw [exec_opEnds hends, hresult, State.eraseResult_eq]
    generalize (s.atTime t).erased d b ok = x at hdies hfailed hpos hinstaller hnotices
    have hwx : x.installer.work = [.wipe sender worn left logLeft] := by rw [hinstaller]; exact hw
    have htold : x.eraseTold d (((s.atTime t).block d b).state == .log) ok =
        x.wipeProgress sender worn left logLeft (((s.atTime t).block d b).state == .log) ok := by
      unfold State.eraseTold
      rw [hwx]
    obtain ⟨hypos, hymedia, hmore, hlast⟩ := State.wipeProgress_outcome hwx
      (((s.atTime t).block d b).state == .log) ok rfl
    rw [← htold] at hypos hymedia hmore hlast
    generalize x.eraseTold d (((s.atTime t).block d b).state == .log) ok = y at hypos hymedia hmore hlast
    have hynone : NoPrograms y := by
      unfold NoPrograms
      rw [hymedia, hdies]
      exact hnone
    have hysettled : y.settled := by
      unfold State.settled
      rw [hymedia, hfailed]
      exact hs
    have hidle := y.becomeIdle_die d
    have hsettled := State.becomeIdle_settled hynone hysettled d
    obtain ⟨-, hcatalogue, -, -⟩ := State.finish_settled_step hsettled
    have hlog : (((s.atTime t).block d b).state == .log) = true ↔ (s.block d b).state = .log := beq_iff_eq
    simp only [hlog] at hypos hmore
    subst hworn
    refine ⟨_, rfl, ?_, fun h => ?_, fun h => ⟨?_, ?_⟩⟩
    · rw [hcatalogue, hidle.appendPos, hypos, hpos]
      rfl
    · rw [State.finish_installer hsettled, hidle.media.installer]
      exact hmore h
    · rw [State.finish_installer hsettled, hidle.media.installer]
      exact (hlast h).1
    · exact (hlast h).2 (.of_eq hnotices) ((NoticeStep.of_eq hidle.media.notices).trans (State.finish_noticeStep _))

end Sys2Proof.Machine
end

