-- ==== Sys2Proof/Proofs/PageReads.lean ====
section
/-! PROOF. O47: the end of an install's link read. While the one install of the work list runs, and once it has failed,
nothing else starts, so the page buffer and the delivery engine stay as the read's end left them. -/

namespace Sys2Proof.Machine

/-! ### An install alone in the work list -/

/-- The work list is empty, or holds one INSTALL that has begun (R158). -/
def State.Lone (s : State) : Prop :=
  s.installer.work = [] ∨ ∃ j, s.installer.work = [.install j] ∧ j.phase ≠ .waiting

/-- From `s` to `t` the page buffer and the delivery engine stay, and nothing joins the work list. -/
structure Alone (s t : State) : Prop where
  lone     : t.Lone
  buffer   : t.installer.pageBuffer = s.installer.pageBuffer
  delivery : t.delivery = s.delivery

theorem Alone.trans {s t u : State} (a : Alone s t) (b : Alone t u) : Alone s u :=
  ⟨b.lone, b.buffer.trans a.buffer, b.delivery.trans a.delivery⟩

/-- A change of other fields. -/
theorem State.Lone.alone {s t : State} (h : s.Lone) (hi : t.installer.work = s.installer.work)
    (hb : t.installer.pageBuffer = s.installer.pageBuffer) (hd : t.delivery = s.delivery) : Alone s t :=
  ⟨by unfold State.Lone; rw [hi]; exact h, hb, hd⟩

theorem State.Lone.nextItem {s : State} (h : s.Lone) : s.nextItem = s := by
  rcases h with h | ⟨j, h, hp⟩
  · exact State.nextItem_of_empty h
  · unfold State.nextItem
    rw [State.startNext, h]
    split
    · rfl
    · exact if_neg hp

theorem State.failInstall_installer (s : State) (i : InstallItem) (reason : Reason) :
    (s.failInstall i reason).installer = { s.installer with work := s.installer.work.tail } := by
  have h : s.clearPending.queueDead.installer = s.installer := s.clearPending.queueDead_step.installer
  unfold State.failInstall
  generalize s.clearPending.queueDead = y at h ⊢
  rw [← h]
  rfl

theorem State.installFails_lone {s : State} (h : s.installer.work.tail = []) (i : InstallItem) (reason : Reason) :
    Alone s (s.installFails i reason) := by
  have hinst := s.failInstall_installer i reason
  have hwork : (s.failInstall i reason).installer.work = [] := by rw [hinst]; exact h
  unfold State.installFails
  rw [State.nextItem_of_empty hwork]
  exact ⟨.inl hwork, by rw [hinst], s.failInstall_delivery i reason⟩

theorem State.Lone.tail {s : State} (h : s.Lone) : s.installer.work.tail = [] := by
  rcases h with h | ⟨j, h, -⟩ <;> rw [h] <;> rfl

/-- The failure of a program turned away, with at most one install under way (R102, R165). -/
theorem State.handOn_failed_alone {s : State} (h : s.Lone) (d : Nat) (p : Program) : Alone s (s.handOn d p false) := by
  have failed : Alone s (s.updateBlock d p.block Block.programFailed) := h.alone rfl rfl rfl
  have advanced : Alone s s.advanceAppend := h.alone rfl rfl rfl
  have orphan : Alone s (s.orphanResult d p false) := by
    have hreleased : Alone s ((s.updateBlock d p.block Block.programFailed).setInstaller
        { s.installer with held := false }) := h.alone rfl rfl rfl
    have hnext := hreleased.lone.nextItem
    unfold State.orphanResult
    exact hnext ▸ hreleased
  unfold State.handOn
  split
  · unfold State.pageResult
    simp only [Bool.false_eq_true, if_false]
    split
    · split
      · exact failed.trans (State.installFails_lone failed.lone.tail _ _)
      · exact orphan
    · exact orphan
  · unfold State.logResult
    simp only [Bool.false_eq_true, if_false]
    split
    · split
      · exact advanced.trans (State.installFails_lone advanced.lone.tail _ _)
      · exact advanced
    next sender region rest hw =>
      rcases advanced.lone with he | ⟨j, he, -⟩ <;> rw [he] at hw <;> cases hw
    · exact advanced

theorem State.settleFronts_alone (n : Nat) : ∀ s : State, s.Lone → Alone s (State.settleFronts n s) := by
  induction n with
  | zero => exact fun s h => h.alone rfl rfl rfl
  | succ n ih =>
    intro s h
    rw [State.settleFronts]
    split
    · exact h.alone rfl rfl rfl
    next d p rest _ =>
      have h0 : Alone s (s.setMedia { s.media with frontFailed := rest }) := h.alone rfl rfl rfl
      have h1 := State.handOn_failed_alone h0.lone d p
      exact (h0.trans h1).trans (ih _ h1.lone)

theorem State.finish_alone {s : State} (h : s.Lone) : Alone s s.finish := by
  have h1 := State.settleFronts_alone 8 s h
  have hoffer := (State.settleFronts 8 s).recomputeReady.offer_step
  exact h1.trans (h1.lone.alone (congrArg Installer.work hoffer.installer)
    (congrArg Installer.pageBuffer hoffer.installer) hoffer.delivery)

/-- The one install of the work list is given its program, waits for a block, or fails (R163). -/
theorem State.enterProgramming_alone {s : State} (h : s.installer.work.tail = []) (i : InstallItem) :
    Alone s (s.enterProgramming i) := by
  have placed {x : State} (hx : x.installer = s.installer) (hd : x.delivery = s.delivery) (b page : Nat) :
      Alone s (x.placeProgram i b page) := by
    have hstep := State.joinLongOp_step (x.setHead (.install { i with phase := .programming })) i.die (.program
      { block := b, page := page, first := 0, count := i.programSectors, purpose := .page })
    have hwork : (x.setHead (.install { i with phase := .programming })).installer.work =
        [.install { i with phase := .programming }] := by
      show WorkItem.install _ :: x.installer.work.tail = _
      rw [hx, h]
    have hbuffer : (x.setHead (.install { i with phase := .programming })).installer.pageBuffer =
        s.installer.pageBuffer := by
      show x.installer.pageBuffer = _
      rw [hx]
    exact ⟨.inr ⟨_, (congrArg Installer.work hstep.installer).trans hwork, nofun⟩,
      (congrArg Installer.pageBuffer hstep.installer).trans hbuffer, hstep.delivery.trans hd⟩
  unfold State.enterProgramming
  dsimp only
  split
  · exact placed rfl rfl _ _
  next b rest _ _ => exact placed (x := s.openBlock i.die b) rfl rfl b 0
  · split
    · have hwork : (s.setHead (.install { i with phase := .waitingBlock })).installer.work =
          [.install { i with phase := .waitingBlock }] := by
        show WorkItem.install _ :: s.installer.work.tail = _
        rw [h]
      exact ⟨.inr ⟨_, hwork, nofun⟩, rfl, rfl⟩
    · exact State.installFails_lone h i .noSpace

/-! ### The counts of pending pages (R12) -/

/-- No block has a pending page (R12). -/
def State.NonePending (s : State) : Prop := ∀ d b, (s.block d b).pending = 0

theorem Block.startErase_pending (b : Block) : b.startErase.pending = b.pending := by
  unfold Block.startErase
  split <;> rfl

theorem DieStep.nonePending {s t : State} (h : DieStep s t) (hs : s.NonePending) : t.NonePending := fun d b => by
  rcases h.blocks d b with hb | hb <;> rw [hb]
  · exact hs d b
  · rw [Block.startErase_pending]
    exact hs d b

/-- The block table with each block of a die changed alike. -/
theorem State.block_mapBlocks (s : State) (d e b : Nat) (f : Block → Block) (hf : f Block.unset = Block.unset) :
    (s.updateDieBlocks d fun t => { t with blocks := t.blocks.map f }).block e b =
      if e = d then f (s.block e b) else s.block e b := by
  unfold State.block
  rw [State.dieBlocks_updateDieBlocks]
  by_cases he : e = d
  · subst he
    by_cases hd : e < s.catalogue.blockTable.length
    · rw [if_pos ⟨rfl, hd⟩, if_pos rfl]
      simp only [List.getD_eq_getElem?_getD, List.getElem?_map]
      cases (s.dieBlocks e).blocks[b]? with
      | none => exact hf.symm
      | some k => rfl
    · rw [if_neg fun h => hd h.2, if_pos rfl, State.dieBlocks_beyond hd]
      exact hf.symm
  · rw [if_neg fun h => he h.1, if_neg he]

/-- A FULL block without pages made QUEUED (R12). -/
def Block.queueDead (b : Block) : Block := if b.dead then { b with state := .queued } else b

theorem State.queueDeadOn_eq (s : State) (d : Nat) : s.queueDeadOn d =
    (s.updateDieBlocks d fun t => { t with blocks := t.blocks.map Block.queueDead }).joinErases d
      ((s.dieBlocks d).numbers Block.dead) := rfl

theorem State.queueDeadOn_nonePending {s : State} (h : s.NonePending) (d : Nat) : (s.queueDeadOn d).NonePending := by
  rw [State.queueDeadOn_eq]
  refine (State.joinErases_die _ d _).nonePending fun e b => ?_
  rw [State.block_mapBlocks _ _ _ _ _ rfl]
  split
  · unfold Block.queueDead
    split <;> exact h e b
  · exact h e b

theorem State.queueDead_nonePending {s : State} (h : s.NonePending) : s.queueDead.NonePending := by
  unfold State.queueDead
  exact List.foldlRecOn (motive := State.NonePending) dieNumbers _ h fun t ht d _ => State.queueDeadOn_nonePending ht d

theorem State.clearPending_nonePending (s : State) : s.clearPending.NonePending := fun d b => by
  unfold State.block State.dieBlocks State.clearPending
  simp only [State.setCatalogue_catalogue, List.getD_eq_getElem?_getD, List.getElem?_map]
  cases s.catalogue.blockTable[d]? with
  | none => rfl
  | some t =>
    simp only [Option.map_some, Option.getD_some, List.getElem?_map]
    cases t.blocks[b]? <;> rfl

/-- Every pending page count returns to 0 when an install fails (R12, R165). -/
theorem State.failInstall_nonePending (s : State) (i : InstallItem) (reason : Reason) :
    (s.failInstall i reason).NonePending := by
  have h : s.clearPending.queueDead.NonePending := State.queueDead_nonePending s.clearPending_nonePending
  unfold State.failInstall
  generalize s.clearPending.queueDead = y at h ⊢
  exact h

theorem State.failInstall_notices (s : State) {i : InstallItem} {reason : Reason} (hroom : s.notices.queue.length < 32) :
    (s.failInstall i reason).notices.queue = s.notices.queue ++
      [{ addressee := i.sender, body := .installFailed i.region reason, isOpen := false }] := by
  have h : s.clearPending.queueDead.notices = s.notices := s.clearPending.queueDead_step.notices
  unfold State.failInstall
  generalize s.clearPending.queueDead = y at h ⊢
  have hy : ((((y.endItem).dropPending i.region).lowerOwed).withdrawPrograms).notices = s.notices := h
  rw [State.queueNotice_room_eq rfl (by rw [hy]; exact hroom), State.setNotices_notices, hy]

/-! ### The page's program -/

theorem State.block_congr {s t : State} (h : t.catalogue.blockTable = s.catalogue.blockTable) (d b : Nat) :
    t.block d b = s.block d b := by
  unfold State.block
  rw [State.dieBlocks_congr h]

/-- The head of a free list is opened (R11). -/
theorem State.openBlock_table {s : State} {d b : Nat} {rest : List Nat} (hf : (s.dieBlocks d).free = b :: rest)
    (hb : b < (s.dieBlocks d).blocks.length) :
    (s.openBlock d b).block d b = { s.block d b with state := .opened 0 } ∧
      ((s.openBlock d b).dieBlocks d).free = rest := by
  have hd : d < s.catalogue.blockTable.length := Nat.lt_of_not_le fun hle => by
    rw [State.dieBlocks_beyond (Nat.not_lt.2 hle)] at hf
    cases hf
  have htable : (s.openBlock d b).dieBlocks d =
      ⟨(s.dieBlocks d).blocks.modify b fun k => { k with state := .opened 0 }, rest⟩ := by
    unfold State.openBlock State.setBlockState
    rw [State.dieBlocks_updateBlock, if_pos rfl, State.dieBlocks_updateDieBlocks, if_pos ⟨rfl, hd⟩]
    dsimp only
    rw [hf]
    rfl
  refine ⟨?_, congrArg DieBlocks.free htable⟩
  unfold State.block
  rw [htable]
  simp [List.getD_eq_getElem?_getD, List.getElem?_eq_getElem hb]

/-- A page's program waits on a die at work (R93, R163). -/
theorem State.placeProgram_busy {x : State} {i : InstallItem} (hw : x.installer.work.tail = []) (hs : x.settled)
    (hbusy : (x.die i.die).state ≠ .idle) (b page : Nat) :
    (x.placeProgram i b page).finish.catalogue = x.catalogue ∧
      (x.placeProgram i b page).finish.installer.work = [.install { i with phase := .programming }] ∧
      (x.placeProgram i b page).finish.die i.die = { x.die i.die with longOps := (x.die i.die).longOps ++
        [.program { block := b, page := page, first := 0, count := i.programSectors, purpose := .page }] } := by
  have hd : i.die < x.media.dies.length := Nat.lt_of_not_le fun hle => hbusy <| by
    rw [State.die_eq_reset (Nat.not_lt.2 hle)]
    rfl
  have hplace : x.placeProgram i b page = (x.setHead (.install { i with phase := .programming })).withDie i.die
      { x.die i.die with longOps := (x.die i.die).longOps ++
        [.program { block := b, page := page, first := 0, count := i.programSectors, purpose := .page }] }
      x.media.freeBuffers :=
    State.joinLongOp_busy (s := x.setHead (.install { i with phase := .programming })) hbusy _
  have hset : (x.placeProgram i b page).settled := by
    rw [hplace]
    exact hs
  obtain ⟨hmedia, hcatalogue, -⟩ := State.finish_settled_step hset
  refine ⟨hcatalogue.trans (by rw [hplace]; rfl), ?_, ?_⟩
  · rw [State.finish_installer hset, hplace]
    show WorkItem.install _ :: x.installer.work.tail = _
    rw [hw]
  · have hdie : (x.placeProgram i b page).finish.die i.die = (x.placeProgram i b page).die i.die := by
      unfold State.die
      rw [hmedia]
    rw [hdie, hplace]
    exact State.withDie_die (s := x.setHead (.install { i with phase := .programming })) hd _ _

theorem DieBlocks.erasePending_iff (t : DieBlocks) :
    t.erasePending = true ↔ ∃ k ∈ t.blocks, k.state = .queued ∨ k.state = .erasing := by
  simp only [DieBlocks.erasePending, List.any_eq_true, Bool.or_eq_true, beq_iff_eq]

theorem State.regions_of_shelf {s : State} {x : Shelf} (h : s.shelf = x) : s.catalogue.regions = x.regions := by
  rw [← h]
  rfl

/-- No idle die holds a program if none waits at all (R94). -/
theorem NoPrograms.idleCalm {s : State} (h : NoPrograms s) : s.IdleCalm := fun die hd _ => h die hd

/-- Settles O47: the page is in the buffer, and what the item then does is its entry to PROGRAMMING or its failure. -/
theorem installReadsEndInAPageOrAFailure : Obligations.InstallReadsEndInAPageOrAFailure := by
  intro s r i hread hwork hsettled hnone
  have done (t : Nat) (bytes : List Byte) : ∃ y : State,
      exec (.installReadDone t bytes) s = .next (y.enterProgramming i).finish ∧ y.installer.work = [.install i] ∧
      y.installer.pageBuffer = i.page r.bytes bytes ∧ y.delivery.installRead = none ∧ y.media = s.media ∧
      y.catalogue = s.catalogue ∧ y.voices = s.voices ∧ y.notices = s.notices := by
    refine ⟨((s.atTime t).endRead).setInstaller { s.installer with pageBuffer := i.page r.bytes bytes }, ?_, hwork,
      rfl, rfl, rfl, rfl, rfl, rfl⟩
    have h1 : (s.atTime t).delivery.installRead = some r := hread
    have h2 : (s.atTime t).installer.work = [.install i] := hwork
    simp only [exec, execInstallReadDone, h1, h2]
    rfl
  have always {y : State} (hw : y.installer.work = [.install i]) {bytes : List Byte}
      (hb : y.installer.pageBuffer = i.page r.bytes bytes) (hd : y.delivery.installRead = none)
      (hv : y.voices = s.voices) : (y.enterProgramming i).finish.delivery.installRead = none ∧
        (y.enterProgramming i).finish.voices = s.voices ∧
        (y.enterProgramming i).finish.installer.pageBuffer = i.page r.bytes bytes := by
    have h1 := State.enterProgramming_alone (s := y) (by rw [hw]; rfl) i
    have h2 := h1.trans (State.finish_alone h1.lone)
    exact ⟨by rw [h2.delivery]; exact hd, (State.finish_voices _).trans ((y.enterProgramming_step i).voices.trans hv),
      h2.buffer.trans hb⟩
  refine ⟨fun t bytes hopen => ?_, fun t b next bytes hopen hbusy => ?_, fun c t hc => ?_⟩
  · obtain ⟨y, hexec, hw, hb, hd, hm, hcat, hv, hn⟩ := done t bytes
    obtain ⟨hread', hvoices, hbuffer⟩ := always hw hb hd hv
    have htable : y.dieBlocks i.die = s.dieBlocks i.die := State.dieBlocks_congr (by rw [hcat]) _
    have hset : y.settled := by unfold State.settled; rw [hm]; exact hsettled
    have hdie (d : Nat) : y.die d = s.die d := by unfold State.die; rw [hm]
    rw [hexec]
    refine ⟨_, rfl, hread', hvoices, hbuffer, fun b rest hfree hlt hbusy => ?_, fun hfree => ⟨fun hpend => ?_, fun hpend => ?_⟩⟩
    · have henter : y.enterProgramming i = (y.openBlock i.die b).placeProgram i b 0 := by
        unfold State.enterProgramming
        simp only [htable, hopen, hfree]
      obtain ⟨hblock, hlist⟩ := State.openBlock_table (s := y) (d := i.die) (b := b) (rest := rest)
        (by rw [htable]; exact hfree) (by rw [htable]; exact hlt)
      obtain ⟨hc, hwk, hdd⟩ := State.placeProgram_busy (x := y.openBlock i.die b) (i := i)
        (show y.installer.work.tail = [] by rw [hw]; rfl) hset (show (y.die i.die).state ≠ .idle by rw [hdie]; exact hbusy) b 0
      rw [henter, State.block_congr (congrArg Catalogue.blockTable hc),
        State.dieBlocks_congr (congrArg Catalogue.blockTable hc), hblock, hlist, hwk, hdd,
        State.block_congr (s := s) (t := y) (by rw [hcat])]
      exact ⟨rfl, rfl, rfl, by rw [show (y.openBlock i.die b).die i.die = s.die i.die from hdie i.die]⟩
    · have henter : y.enterProgramming i = y.setHead (.install { i with phase := .waitingBlock }) := by
        unfold State.enterProgramming
        simp only [htable, hopen, hfree, (DieBlocks.erasePending_iff _).2 hpend, if_true]
      have hset' : (y.setHead (.install { i with phase := .waitingBlock })).settled := hset
      obtain ⟨hmedia, hcatalogue, -⟩ := State.finish_settled_step hset'
      rw [henter, hmedia, hcatalogue, State.finish_installer hset']
      refine ⟨?_, hcat, hm⟩
      show WorkItem.install _ :: y.installer.work.tail = _
      rw [hw]
      rfl
    · have hnot : ¬(s.dieBlocks i.die).erasePending = true := fun h => by
        obtain ⟨k, hk, hst⟩ := (DieBlocks.erasePending_iff _).1 h
        obtain ⟨h1, h2⟩ := hpend k hk
        exact hst.elim h1 h2
      have henter : y.enterProgramming i = y.installFails i .noSpace := by
        unfold State.enterProgramming
        simp only [htable, hopen, hfree]
        exact if_neg hnot
      have hcalm : y.IdleCalm := by
        unfold State.IdleCalm
        rw [hm]
        exact NoPrograms.idleCalm hnone
      obtain ⟨h1, h2, h3, -⟩ := State.installFails_alone hw hset hcalm .noSpace
      rw [henter, h1, h2, h3, hcat]
      exact ⟨rfl, rfl, rfl, State.installFails_told i .noSpace (.of_eq hn) (State.finish_noticeStep _)⟩
  · obtain ⟨y, hexec, hw, hb, hd, hm, hcat, hv, hn⟩ := done t bytes
    obtain ⟨hread', hvoices, hbuffer⟩ := always hw hb hd hv
    have hset : y.settled := by unfold State.settled; rw [hm]; exact hsettled
    have hdie (d : Nat) : y.die d = s.die d := by unfold State.die; rw [hm]
    have htable : y.dieBlocks i.die = s.dieBlocks i.die := State.dieBlocks_congr (by rw [hcat]) _
    have henter : y.enterProgramming i = y.placeProgram i b next := by
      unfold State.enterProgramming
      simp only [htable, hopen]
    obtain ⟨hc, hwk, hdd⟩ := State.placeProgram_busy (x := y) (i := i) (by rw [hw]; rfl) hset
      (by rw [hdie]; exact hbusy) b next
    rw [hexec]
    refine ⟨_, rfl, hread', hvoices, ?_, hbuffer, ?_, ?_⟩
    · rw [henter, hc, hcat]
    · rw [henter, hwk]
    · rw [henter, hdd, hdie]
  · have hexec : ∃ y : State, exec c s = .next (y.installFails i .linkRead).finish ∧ y.installer.work = [.install i] ∧
        y.delivery.installRead = none ∧ y.media = s.media ∧ y.catalogue = s.catalogue ∧ y.voices = s.voices ∧
        y.notices = s.notices := by
      rcases hc with rfl | rfl
      · refine ⟨(s.atTime t).endRead, ?_, hwork, rfl, rfl, rfl, rfl, rfl⟩
        have h1 : (s.atTime t).delivery.installRead = some r := hread
        have h2 : (s.atTime t).installer.work = [.install i] := hwork
        simp only [exec, execInstallReadError, h1, h2]
      · refine ⟨(s.atTime (r.since + readTimeoutCycles)).endRead, ?_, hwork, rfl, rfl, rfl, rfl, rfl⟩
        simp only [exec, execInstallReadTimeout, hread, hwork]
    obtain ⟨y, hexec, hw, hd, hm, hcat, hv, hn⟩ := hexec
    have hset : y.settled := by unfold State.settled; rw [hm]; exact hsettled
    have hcalm : y.IdleCalm := by
      unfold State.IdleCalm
      rw [hm]
      exact NoPrograms.idleCalm hnone
    obtain ⟨h1, h2, h3, hsame, hfailed⟩ := State.installFails_alone hw hset hcalm .linkRead
    have halone := State.installFails_lone (s := y) (by rw [hw]; rfl) i .linkRead
    have hdelivery := (halone.trans (State.finish_alone halone.lone)).delivery
    obtain ⟨-, hcatalogue, hqueue, -⟩ := State.finish_settled_step hfailed
    rw [hexec]
    refine ⟨_, rfl, by rw [hdelivery]; exact hd, h1,
      (State.finish_voices _).trans ((State.installFails_step y i .linkRead).voices.trans hv), by rw [h2, hcat],
      by rw [h3, hcat], ?_, fun hroom => ?_, fun d b => ?_⟩
    · rw [hcatalogue, hsame, State.regions_of_shelf (y.failInstall_shelf i .linkRead)]
      exact congrArg Catalogue.regions hcat
    · rw [hqueue, hsame, State.failInstall_notices y (by rw [hn]; exact hroom), hn]
    · rw [State.block_congr (congrArg Catalogue.blockTable hcatalogue), hsame]
      exact y.failInstall_nonePending i .linkRead d b

end Sys2Proof.Machine
end

