-- ==== Sys2Proof/Proofs/Scanning.lean ====
section
/-! PROOF. O39 and O40: the start-up scan, sector by sector, and its end. -/

namespace Sys2Proof.Machine

theorem exec_logSectorRead {s : State} {t n : Nat} {x : Scan} (bad : Bool) (hd : (s.die 0).state = .logRead n)
    (hx : s.catalogue.scan = some x) :
    exec (.logSectorReadEnd t bad) s = .next ((s.atTime t).logSectorRead x bad).finish := by
  have h1 : ((s.atTime t).die 0).state = .logRead n := hd
  have h2 : (s.atTime t).catalogue.scan = some x := hx
  show execLogSectorReadEnd t bad s = _
  unfold execLogSectorReadEnd
  dsimp only
  rw [h1, h2]

theorem State.die_of_dies {s t : State} (h : t.media.dies = s.media.dies) (d : Nat) : t.die d = s.die d := by
  unfold State.die
  rw [h]

theorem Flash.recordAt_passedOver {f : Flash} {n : Nat} (h : f.cause? n = some .passedOver) (bad : Bool) :
    f.recordAt n bad = .other := by
  unfold Flash.recordAt
  split
  next => rfl
  next => rfl
  next hc => rw [h] at hc; cases hc
  next hc => rw [h] at hc; cases hc
  next hc => rw [h] at hc; cases hc

/-- The record of a sector passed over changes nothing of the table (R15, log entry 27). -/
theorem State.replayed_passedOver {s : State} {x : Scan} {bad : Bool} {record : LogRecord}
    (hr : record = s.media.flash.recordAt x.sector bad) (hc : s.media.flash.cause? x.sector = some .passedOver) :
    s.takesRecord record = false ∧ s.replayed record = s.catalogue.regions := by
  have hother : record = .other := hr.trans (Flash.recordAt_passedOver hc bad)
  rw [hother]
  exact ⟨rfl, rfl⟩

/-- A sector that is not erased is classified, and the scan goes on or ends after the last one (R15). -/
theorem State.logSectorRead_record {s : State} {x : Scan} {bad : Bool} {record : LogRecord}
    (he : ¬s.media.flash.readsErased x.sector bad) (hr : record = s.media.flash.recordAt x.sector bad) :
    ∃ y : State, y = s.setCatalogue { s.catalogue with
      regions := s.replayed record
      scan := some { sector := x.sector + 1, skipped := x.skipped + if s.takesRecord record then 0 else 1 } } ∧
      (x.sector + 1 < 49152 → s.logSectorRead x bad = y.setDieState 0 (.logRead (x.sector + 1))) ∧
      (x.sector + 1 = 49152 → s.logSectorRead x bad =
        (y.endScan 49152 (x.skipped + if s.takesRecord record then 0 else 1)).becomeIdle 0) := by
  have hrecord := (s.media.flash.logRecord_eq x.sector bad).2 he
  refine ⟨_, rfl, fun hmore => ?_, fun hlast => ?_⟩
  · unfold State.logSectorRead
    rw [hrecord, ← hr]
    dsimp only
    rw [State.classify_eq, State.continueScan]
    exact if_pos hmore
  · unfold State.logSectorRead
    rw [hrecord, ← hr]
    dsimp only
    rw [State.classify_eq, State.continueScan]
    dsimp only [State.setCatalogue_catalogue]
    rw [if_neg (by omega), hlast]

/-- Settles O40: the record is classified, and die 0 reads the next sector. -/
theorem scanReplaysTheLog : Obligations.ScanReplaysTheLog := by
  intro s t n bad x record hd hx hmore hs he hr
  obtain ⟨y, hy, hgoes, -⟩ := State.logSectorRead_record (s := s.atTime t) he hr
  have hlen : 0 < s.media.dies.length := Nat.lt_of_not_le fun hle => by
    rw [State.die_eq_reset (Nat.not_lt.2 hle)] at hd
    cases hd
  have hfields : y.station = s.station ∧ y.voices = s.voices ∧ y.media = s.media ∧
      y.catalogue.blockTable = s.catalogue.blockTable ∧ y.catalogue.regions = s.replayed record ∧
      y.catalogue.scan = some { sector := x.sector + 1
                                skipped := x.skipped + if s.takesRecord record then 0 else 1 } := by
    rw [hy]
    exact ⟨rfl, rfl, rfl, rfl, rfl, rfl⟩
  obtain ⟨hstation, hvoices, hmedia, htable, hregions, hscan⟩ := hfields
  have hlen' : 0 < y.media.dies.length := by rw [hmedia]; exact hlen
  have hstate : y.setDieState 0 (.logRead (x.sector + 1)) = y.withDie 0
      { s.die 0 with state := .logRead (x.sector + 1) } y.media.freeBuffers := by
    have hdie : y.die 0 = s.die 0 := by unfold State.die; rw [hmedia]
    rw [← hdie]
    exact State.updateDie_withDie _ hlen'
  obtain ⟨hm, hc, hv, hst, -⟩ := State.withDie_finish (s := y) (by unfold State.settled; rw [hmedia]; exact hs) 0
    { s.die 0 with state := .logRead (x.sector + 1) } y.media.freeBuffers
  have hflash := congrArg Media.flash hm
  have hdies := congrArg Media.dies hm
  rw [exec_logSectorRead bad hd hx, hgoes hmore, hstate]
  refine ⟨_, rfl, hst.trans hstation, hv.trans hvoices, hflash.trans (by rw [hmedia]),
    ?_, ?_, ?_, ?_, fun hcause => ?_⟩
  · exact (State.die_of_dies hdies 0).trans (State.withDie_die hlen' _ y.media.freeBuffers)
  · rw [hc, hscan]
  · rw [hc, htable]
  · rw [hc, hregions]
  · obtain ⟨htakes, hkept⟩ := State.replayed_passedOver hr hcause
    rw [hc, hregions, hscan, hkept, htakes]
    exact ⟨rfl, rfl⟩

/-! ### The end of the scan -/

/-- A block once the scan has ended: its derived record, or that record with its erase begun (R16). -/
theorem Block.derived_cases (k b : Block) (live : Nat) (h : k = b.derived live ∨ k = (b.derived live).startErase) :
    (b.state = .log → k = b) ∧ (b.state ≠ .log →
      (0 < live → k = { state := .full, live := live, pending := 0 }) ∧
      (live = 0 → k.state = .queued ∨ k.state = .erasing)) := by
  unfold Block.derived at h
  refine ⟨fun hl => ?_, fun hl => ⟨fun hp => ?_, fun hz => ?_⟩⟩
  · rw [if_pos hl] at h
    rcases h with h | h
    · exact h
    · rw [h, Block.startErase, if_neg (by rw [hl]; exact nofun)]
  · rw [if_neg hl, if_pos hp] at h
    rcases h with h | h
    · exact h
    · rw [h, Block.startErase, if_neg nofun]
  · rw [if_neg hl, if_neg (by omega)] at h
    rcases h with h | h
    · rw [h]
      exact .inl rfl
    · rw [h]
      exact .inr rfl

/-- The derived block table, read block by block (R16). -/
theorem DieBlocks.derived_getD {t : DieBlocks} {b : Nat} (hb : b < t.blocks.length) (extents : List Extent) (d : Nat) :
    (t.derived extents d).blocks.getD b Block.unset =
      (t.blocks.getD b Block.unset).derived (pagesIn extents d b) := by
  unfold DieBlocks.derived
  simp [List.getD_eq_getElem?_getD, List.getElem?_map, List.getElem?_zipIdx, List.getElem?_eq_getElem hb]

/-- What the scan's end leaves, whatever state it ends in (R16, R102, R172). -/
structure Scanned (s u : State) (at_ : Nat) : Prop where
  station : u.station = { s.station with state := .unconfigured }
  scan    : u.catalogue.scan = none
  pos     : u.catalogue.appendPos = at_
  regions : u.catalogue.regions = s.catalogue.regions
  flash   : u.media.flash = s.media.flash
  fronts  : u.media.fronts = dieNumbers.map fun d => scanFronts d at_
  free    : ∀ d, (u.dieBlocks d).free = []
  blocks  : ∀ d b, b < (s.dieBlocks d).blocks.length →
    u.block d b = (s.block d b).derived (pagesIn (s.catalogue.regions.flatMap (·.extents)) d b) ∨
      u.block d b = ((s.block d b).derived (pagesIn (s.catalogue.regions.flatMap (·.extents)) d b)).startErase

/-- The block table derived on every die (R16). -/
theorem State.derived_table {s x : State} {extents : List Extent} (hx : x.catalogue.blockTable =
    s.catalogue.blockTable.zipIdx.map fun t => t.1.derived extents t.2) (d : Nat) :
    (x.dieBlocks d).free = [] ∧ ∀ b, b < (s.dieBlocks d).blocks.length →
      x.block d b = (s.block d b).derived (pagesIn extents d b) := by
  by_cases hd : d < s.catalogue.blockTable.length
  · have htable : x.dieBlocks d = (s.dieBlocks d).derived extents d := by
      unfold State.dieBlocks
      rw [hx]
      simp [List.getD_eq_getElem?_getD, List.getElem?_map, List.getElem?_zipIdx, List.getElem?_eq_getElem hd]
    refine ⟨by rw [htable]; rfl, fun b hb => ?_⟩
    unfold State.block
    rw [htable]
    exact DieBlocks.derived_getD hb extents d
  · have htable : x.dieBlocks d = { blocks := [], free := [] } := State.dieBlocks_beyond <| by
      rw [hx]
      simpa using hd
    refine ⟨by rw [htable], fun b hb => ?_⟩
    rw [State.dieBlocks_beyond hd] at hb
    exact absurd hb (Nat.not_lt_zero b)

theorem State.queueErasesOn_die (s : State) (d : Nat) : DieStep s (s.queueErasesOn d) := s.joinErases_die d _

/-- The station with its block table and its program fronts derived, before the erases are placed (R16, R102). -/
def State.derivedTable (s : State) (appendPos : Nat) : State :=
  let s1 := s.setCatalogue { s.catalogue with
    appendPos := appendPos, scan := none
    blockTable := s.catalogue.blockTable.zipIdx.map fun x =>
      x.1.derived (s.catalogue.regions.flatMap (·.extents)) x.2 }
  s1.setMedia { s1.media with fronts := dieNumbers.map fun d => scanFronts d appendPos }

/-- The station with PRESENT queued, in UNCONFIGURED (R172). -/
def State.presented (s : State) (skipped appendPos : Nat) : State :=
  let s1 := s.queueNotice 31 (.present s.catalogue.regions.length skipped appendPos)
  s1.setStation { s1.station with state := .unconfigured }

theorem State.endScan_eq (s : State) (appendPos skipped : Nat) : s.endScan appendPos skipped =
    (dieNumbers.foldl State.queueErasesOn (s.derivedTable appendPos)).presented skipped appendPos := by
  unfold State.endScan State.presented State.derivedTable
  dsimp only

theorem State.presented_step (s : State) (skipped appendPos : Nat) :
    (s.presented skipped appendPos).station = { s.station with state := .unconfigured } ∧
      (s.presented skipped appendPos).catalogue = s.catalogue ∧ (s.presented skipped appendPos).media = s.media ∧
      NoticeStep (s.queueNotice 31 (.present s.catalogue.regions.length skipped appendPos))
        (s.presented skipped appendPos) := ⟨rfl, rfl, rfl, .of_eq rfl⟩

theorem State.endScan_scanned {s : State} (hs : s.settled) (hl : ∀ die ∈ s.media.dies, die.longOps = [])
    (pos skipped : Nat) : Scanned s ((s.endScan pos skipped).becomeIdle 0).finish pos ∧
      ∀ {r : State}, NoticeStep r s → r.told ((s.endScan pos skipped).becomeIdle 0).finish
        { addressee := 31, body := .present s.catalogue.regions.length skipped pos, isOpen := false } := by
  have hnone : NoPrograms s := fun die hd op hop => by rw [hl die hd] at hop; cases hop
  rw [State.endScan_eq]
  generalize hx : s.derivedTable pos = x
  have hfields : x.station = s.station ∧ x.catalogue.scan = none ∧ x.catalogue.appendPos = pos ∧
      x.catalogue.regions = s.catalogue.regions ∧ x.media.flash = s.media.flash ∧
      x.media.fronts = (dieNumbers.map fun d => scanFronts d pos) ∧ x.media.dies = s.media.dies ∧
      x.media.frontFailed = s.media.frontFailed ∧ x.notices = s.notices ∧
      x.catalogue.blockTable = s.catalogue.blockTable.zipIdx.map fun t =>
        t.1.derived (s.catalogue.regions.flatMap (·.extents)) t.2 := by
    rw [← hx]
    exact ⟨rfl, rfl, rfl, rfl, rfl, rfl, rfl, rfl, rfl, rfl⟩
  obtain ⟨hstation, hscan, hpos, hregions, hflash, hfronts, hdies, hfailed, hnotices, htable⟩ := hfields
  clear hx
  have hqueue := DieStep.foldl _ State.queueErasesOn_die dieNumbers x
  have hqcalm := CalmStep.foldl _ State.queueErasesOn_calm dieNumbers x
  generalize dieNumbers.foldl State.queueErasesOn x = y at hqueue hqcalm
  obtain ⟨hyfailed, hyprograms⟩ := hqcalm (by unfold NoPrograms; rw [hdies]; exact hnone)
  obtain ⟨hzstation, hzcatalogue, hzmedia, hznotices⟩ := y.presented_step skipped pos
  generalize y.presented skipped pos = z at hzstation hzcatalogue hzmedia hznotices
  have hidle := z.becomeIdle_die 0
  have hsettled : (z.becomeIdle 0).settled := by
    refine State.becomeIdle_settled ?_ ?_ 0
    · unfold NoPrograms; rw [hzmedia]; exact hyprograms
    · unfold State.settled; rw [hzmedia, hyfailed, hfailed]; exact hs
  obtain ⟨hfmedia, hfcatalogue, -⟩ := State.finish_settled_step hsettled
  have hblock (d b : Nat) : (z.becomeIdle 0).block d b = x.block d b ∨
      (z.becomeIdle 0).block d b = (x.block d b).startErase := by
    have h1 := hidle.blocks d b
    rw [State.block_congr (s := y) (t := z) (by rw [hzcatalogue])] at h1
    rcases h1 with h1 | h1 <;> rcases hqueue.blocks d b with h2 | h2 <;> rw [h1, h2]
    · exact .inl rfl
    · exact .inr rfl
    · exact .inr rfl
    · exact .inr (Block.startErase_startErase _)
  refine ⟨⟨?_, ?_, ?_, ?_, ?_, ?_, fun d => ?_, fun d b hb => ?_⟩, fun {r} hr => ?_⟩
  · rw [State.finish_station, hidle.media.station, hzstation, hqueue.media.station, hstation]
  · rw [hfcatalogue, hidle.scan, hzcatalogue, hqueue.scan, hscan]
  · rw [hfcatalogue, hidle.appendPos, hzcatalogue, hqueue.appendPos, hpos]
  · rw [hfcatalogue, hidle.regions, hzcatalogue, hqueue.regions, hregions]
  · rw [hfmedia, hidle.flash, hzmedia, hqueue.flash, hflash]
  · rw [hfmedia, hidle.fronts, hzmedia, hqueue.fronts, hfronts]
  · rw [State.dieBlocks_congr (congrArg Catalogue.blockTable hfcatalogue), hidle.free,
      State.dieBlocks_congr (s := y) (t := z) (by rw [hzcatalogue]), hqueue.free]
    exact (State.derived_table htable d).1
  · rw [State.block_congr (congrArg Catalogue.blockTable hfcatalogue), ← (State.derived_table htable d).2 b hb]
    exact hblock d b
  · rw [← hregions, ← hqueue.regions]
    exact State.told_queueNotice (t := y) _ _ rfl
      (hr.trans (.of_eq (hqueue.media.notices.trans hnotices)))
      (hznotices.trans ((NoticeStep.of_eq hidle.media.notices).trans (State.finish_noticeStep _)))

theorem scanFronts_getElem {b : Nat} (hb : b < 2048) (d pos : Nat) :
    (scanFronts d pos)[b]? = some (if d = 0 ∧ b < 8 then min 6144 (pos - 6144 * b) else 6144) := by
  unfold scanFronts
  rw [List.getElem?_map, List.getElem?_range hb]
  rfl

/-- The end of the scan as its statement has it, from the state that the last record left. -/
theorem Scanned.erased {s y u : State} {pos : Nat} {regions : List Region} (h : Scanned y u pos)
    (hst : y.station = s.station) (hf : y.media.flash = s.media.flash) (hr : y.catalogue.regions = regions)
    (ht : y.catalogue.blockTable = s.catalogue.blockTable) :
    u.station = { s.station with state := .unconfigured } ∧
      u.catalogue.scan = none ∧ u.catalogue.appendPos = pos ∧ u.catalogue.regions = regions ∧
      u.media.flash = s.media.flash ∧
      (∀ d b, d < 8 → b < 2048 → (u.media.fronts.getD d [])[b]? = some
        (if d = 0 ∧ b < 8 then min 6144 (pos - 6144 * b) else 6144)) ∧
      ∀ d b, d < 8 → b < (s.dieBlocks d).blocks.length → (u.dieBlocks d).free = [] ∧
        ((s.block d b).state = .log → u.block d b = s.block d b) ∧
        ((s.block d b).state ≠ .log →
          ((0 < pagesIn (regions.flatMap (·.extents)) d b →
            u.block d b = { state := .full, pending := 0
                            live := pagesIn (regions.flatMap (·.extents)) d b }) ∧
          (pagesIn (regions.flatMap (·.extents)) d b = 0 →
            (u.block d b).state = .queued ∨ (u.block d b).state = .erasing))) := by
  refine ⟨by rw [h.station, hst], h.scan, h.pos, h.regions.trans hr, h.flash.trans hf, fun d b hd hb => ?_,
    fun d b hd hb => ⟨h.free d, ?_⟩⟩
  · have hget : dieNumbers[d]? = some d := List.getElem?_range hd
    rw [h.fronts, List.getD_eq_getElem?_getD, List.getElem?_map, hget, Option.map_some, Option.getD_some]
    exact scanFronts_getElem hb d pos
  · have hblocks := h.blocks d b (by rw [State.dieBlocks_congr ht]; exact hb)
    rw [hr, State.block_congr ht] at hblocks
    obtain ⟨hlog, hother⟩ := Block.derived_cases _ _ _ hblocks
    exact ⟨hlog, fun hn => ⟨fun hp => hother hn |>.1 hp, hother hn |>.2⟩⟩

/-- Settles O39: at an erased sector the scan ends from the table as it is, and after the last sector from the table
that its record leaves. -/
theorem erasedSectorEndsTheScan : Obligations.ErasedSectorEndsTheScan := by
  intro s t n skipped pos bad x record regions hd hx hs hl hcase
  rw [exec_logSectorRead bad hd hx]
  rcases hcase with ⟨he, rfl, rfl, rfl⟩ | ⟨he, hlast, rfl, hr, rfl, rfl⟩
  · have hread : (s.atTime t).logSectorRead x bad = ((s.atTime t).endScan x.sector x.skipped).becomeIdle 0 := by
      unfold State.logSectorRead
      have hnone : (s.atTime t).media.flash.logRecord? x.sector bad = none := (s.media.flash.logRecord_eq x.sector bad).1 he
      rw [hnone]
    obtain ⟨hscanned, htold⟩ := State.endScan_scanned (s := s.atTime t) hs hl x.sector x.skipped
    rw [hread]
    obtain ⟨h1, h2, h3, h4, h5, h6, h7⟩ := hscanned.erased (s := s) rfl rfl rfl rfl
    exact ⟨_, rfl, h1, h2, h3, h4, h5, htold (.of_eq rfl), h6, h7⟩
  · obtain ⟨y, hy, -, hends⟩ := State.logSectorRead_record (s := s.atTime t) he hr
    have hfields : y.station = s.station ∧ y.media = s.media ∧ y.catalogue.regions = s.replayed record ∧
        y.catalogue.blockTable = s.catalogue.blockTable ∧ y.notices = s.notices := by
      rw [hy]
      exact ⟨rfl, rfl, rfl, rfl, rfl⟩
    obtain ⟨hst, hm, hreg, ht, hn⟩ := hfields
    rw [hends hlast]
    have htakes : (s.atTime t).takesRecord record = s.takesRecord record := rfl
    rw [htakes]
    obtain ⟨hscanned, htold⟩ := State.endScan_scanned (s := y) (by unfold State.settled; rw [hm]; exact hs)
      (by rw [hm]; exact hl) 49152 (x.skipped + if s.takesRecord record then 0 else 1)
    obtain ⟨h1, h2, h3, h4, h5, h6, h7⟩ := hscanned.erased (s := s) hst (by rw [hm]) hreg ht
    refine ⟨_, rfl, h1, h2, h3, h4, h5, ?_, h6, h7⟩
    rw [← hreg]
    exact htold (.of_eq hn)

end Sys2Proof.Machine
end

