-- ==== Sys2Proof/Proofs/Fronts.lean ====
section
/-! SUPPORT. What a program or an erase writes: the front of its block and the bytes of its run (R101 to R103). What the
installer does with the result leaves both. -/

namespace Sys2Proof.Machine

/-! ### The program fronts -/

/-- The program fronts stay as they are (R102). -/
def SameFronts (s t : State) : Prop := t.media.fronts = s.media.fronts

theorem SameFronts.trans {s t u : State} (a : SameFronts s t) (b : SameFronts t u) : SameFronts s u := Eq.trans b a

theorem State.queueDeadOn_sameFronts (s : State) (d : Nat) : SameFronts s (s.queueDeadOn d) :=
  (State.joinErases_die (s.updateDieBlocks d _) d _).fronts

theorem State.queueDead_sameFronts (s : State) : SameFronts s s.queueDead := by
  unfold State.queueDead
  generalize dieNumbers = l
  induction l generalizing s with
  | nil => rfl
  | cons d l ih => exact (s.queueDeadOn_sameFronts d).trans (ih _)

theorem State.failInstall_sameFronts (s : State) (i : InstallItem) (reason : Reason) :
    SameFronts s (s.failInstall i reason) := by
  have h : SameFronts s s.clearPending.queueDead := s.clearPending.queueDead_sameFronts
  unfold State.failInstall
  generalize s.clearPending.queueDead = y at h ⊢
  exact h

theorem State.runReclaim_sameFronts (s : State) (sender region : Nat) : SameFronts s (s.runReclaim sender region) :=
  (State.appendRecord_die ((s.setHead (.reclaim sender region true)).updateRegion region
    fun r => { r with state := .departing }) _).fronts

theorem State.startNext_sameFronts (n : Nat) : ∀ s : State, SameFronts s (State.startNext n s) := by
  induction n with
  | zero => exact fun _ => rfl
  | succ n ih =>
    intro s
    have refused (sender region : Nat) (reason : Reason) :
        SameFronts s ((s.endReclaim).refuse sender 11 reason region) := rfl
    rw [State.startNext]
    split
    · rfl
    · split
      · split
        · split
          · rfl
          · exact (s.failInstall_sameFronts _ _).trans (ih _)
        · rfl
      · split
        · exact (refused _ _ _).trans (ih _)
        · split
          · exact (refused _ _ _).trans (ih _)
          · exact s.runReclaim_sameFronts _ _
      · rfl
      · rfl
      · rfl

theorem State.nextItem_sameFronts (s : State) : SameFronts s s.nextItem := State.startNext_sameFronts 4 s

theorem State.installFails_sameFronts (s : State) (i : InstallItem) (reason : Reason) :
    SameFronts s (s.installFails i reason) := (s.failInstall_sameFronts i reason).trans (State.nextItem_sameFronts _)

theorem State.makeLive_sameFronts (extents : List Extent) : ∀ s : State, SameFronts s (s.makeLive extents) := by
  induction extents with
  | nil => exact fun _ => rfl
  | cons e l ih => exact fun s => SameFronts.trans (t := s.updateBlock e.die e.block _) rfl (ih _)

theorem State.loseLive_sameFronts (extents : List Extent) : ∀ s : State, SameFronts s (s.loseLive extents) := by
  induction extents with
  | nil => exact fun _ => rfl
  | cons e l ih => exact fun s => SameFronts.trans (t := s.updateBlock e.die e.block _) rfl (ih _)

theorem State.placeProgram_sameFronts (s : State) (i : InstallItem) (b page : Nat) :
    SameFronts s (s.placeProgram i b page) :=
  (State.joinLongOp_die (s.setHead (.install { i with phase := .programming })) i.die _).fronts

theorem State.enterProgramming_sameFronts (s : State) (i : InstallItem) : SameFronts s (s.enterProgramming i) := by
  unfold State.enterProgramming
  dsimp only
  split
  · exact s.placeProgram_sameFronts _ _ _
  next b rest _ _ => exact (s.openBlock i.die b).placeProgram_sameFronts _ _ _
  · split
    · rfl
    · exact s.installFails_sameFronts _ _

theorem State.orphanResult_sameFronts (s : State) (d : Nat) (p : Program) (ok : Bool) :
    SameFronts s (s.orphanResult d p ok) := by
  have hblock : SameFronts s (if ok then (s.updateBlock d p.block Block.pageUsed).queueDeadOn d
      else s.updateBlock d p.block Block.programFailed) := by
    split
    · exact (s.updateBlock d p.block Block.pageUsed).queueDeadOn_sameFronts d
    · rfl
  unfold State.orphanResult
  dsimp only
  generalize (if ok then (s.updateBlock d p.block Block.pageUsed).queueDeadOn d
    else s.updateBlock d p.block Block.programFailed) = y at hblock ⊢
  have hheld : SameFronts y (y.setInstaller { y.installer with held := false }) := rfl
  exact (hblock.trans hheld).trans (State.nextItem_sameFronts _)

theorem State.pageProgrammed_sameFronts (s : State) (i : InstallItem) (p : Program) :
    SameFronts s (s.pageProgrammed i p) := by
  have hblock : SameFronts s (s.updateBlock i.die p.block fun b => b.pageUsed.addPending) := rfl
  unfold State.pageProgrammed
  dsimp only
  split
  · exact hblock
  · exact hblock.trans (State.appendRecord_die (State.setHead _ _) _).fronts

theorem State.installComplete_sameFronts (s : State) (i : InstallItem) : SameFronts s (s.installComplete i) := by
  unfold State.installComplete
  dsimp only
  generalize hx : s.setCatalogue { s.catalogue with regions := s.catalogue.regions ++
    [regionOf i.region i.format i.frames i.loopStart i.loopEnd i.extents] } = x
  have h0 : SameFronts s x := by rw [← hx]; rfl
  have h1 := (h0.trans (x.makeLive_sameFronts i.extents)).trans (State.queueDead_sameFronts _)
  generalize (x.makeLive i.extents).queueDead = y at h1 ⊢
  have h2 : SameFronts y ((((y.dropPending i.region).lowerOwed).queueNotice i.sender
    (.installed i.region)).endItem) := rfl
  exact (h1.trans h2).trans (State.nextItem_sameFronts _)

theorem State.voidComplete_sameFronts (s : State) (sender region : Nat) :
    SameFronts s (s.voidComplete sender region) := by
  unfold State.voidComplete
  dsimp only
  generalize ((s.region? region).map (·.extents)).getD [] = extents
  generalize hx : s.setCatalogue { s.catalogue with regions := s.catalogue.regions.filter (·.id != region) } = x
  have h0 : SameFronts s x := by rw [← hx]; rfl
  have h1 := (h0.trans (x.loseLive_sameFronts extents)).trans (State.queueDead_sameFronts _)
  generalize (x.loseLive extents).queueDead = y at h1 ⊢
  have h2 : SameFronts y ((y.endReclaim).queueNotice sender (.reclaimed region)) := rfl
  exact (h1.trans h2).trans (State.nextItem_sameFronts _)

theorem State.voidFailed_sameFronts (s : State) (sender region : Nat) : SameFronts s (s.voidFailed sender region) :=
  SameFronts.trans (t := ((s.updateRegion region fun r => { r with state := .live }).endReclaim).refuse sender 11 .log
    region) rfl (State.nextItem_sameFronts _)

/-- What the installer does with a program's result leaves the fronts (R102). -/
theorem State.handOn_sameFronts (s : State) (d : Nat) (p : Program) (ok : Bool) : SameFronts s (s.handOn d p ok) := by
  have failed : SameFronts s (s.updateBlock d p.block Block.programFailed) := rfl
  have advanced : SameFronts s s.advanceAppend := rfl
  unfold State.handOn
  split
  · unfold State.pageResult
    split
    · split
      · split
        · exact s.pageProgrammed_sameFronts _ _
        · exact failed.trans (State.installFails_sameFronts _ _ _)
      · exact s.orphanResult_sameFronts _ _ _
    · exact s.orphanResult_sameFronts _ _ _
  · unfold State.logResult
    dsimp only
    generalize s.advanceAppend = y at advanced ⊢
    split
    · split
      · split
        · exact advanced.trans (y.installComplete_sameFronts _)
        · exact advanced.trans (y.installFails_sameFronts _ _)
      · exact advanced
    · split
      · exact advanced.trans (y.voidComplete_sameFronts _ _)
      · exact advanced.trans (y.voidFailed_sameFronts _ _)
    · exact advanced

theorem State.settleFronts_sameFronts (n : Nat) : ∀ s : State, SameFronts s (State.settleFronts n s) := by
  induction n with
  | zero => exact fun _ => rfl
  | succ n ih =>
    intro s
    rw [State.settleFronts]
    split
    · rfl
    next d p rest _ =>
      have h0 : SameFronts s (s.setMedia { s.media with frontFailed := rest }) := rfl
      exact (h0.trans (State.handOn_sameFronts _ d p false)).trans (ih _)

theorem State.finish_sameFronts (s : State) : SameFronts s s.finish :=
  (State.settleFronts_sameFronts 8 s).trans (congrArg Media.fronts (State.offer_step _).media)

theorem State.eraseTold_sameFronts (s : State) (d : Nat) (isLog ok : Bool) : SameFronts s (s.eraseTold d isLog ok) := by
  unfold State.eraseTold
  split
  · unfold State.wipeProgress
    dsimp only
    have hclear (c : Bool) : SameFronts s (if c then s.clearAppend else s) := by split <;> rfl
    have hended (y : State) (sender : Nat) (body : NoticeBody) :
        SameFronts y (((y.endItem).queueNotice sender body).nextItem) :=
      SameFronts.trans (t := (y.endItem).queueNotice sender body) rfl (State.nextItem_sameFronts _)
    split
    · exact (hclear _).trans (hended _ _ _)
    · exact hclear _
  · split
    · exact s.enterProgramming_sameFronts _
    · rfl
  · rfl

end Sys2Proof.Machine
end

