-- ==== Sys2Proof/Proofs/FlashEnds.lean ====
section
/-! PROOF. O41, its first part: what the end of a program or an erase leaves in the program front and in every byte of
the flash. -/

namespace Sys2Proof.Machine

/-! ### The bytes of a run -/

/-- A program whose data fills its run writes it byte for byte (R101). -/
theorem Flash.read_program_run (f : Flash) {first count : Nat} {bytes : List Byte}
    (hlength : bytes.length = count * 512) (a : Nat) :
    (f.program first count bytes).read a =
      if first * 512 ≤ a ∧ a < (first + count) * 512 then bytes.getD (a - first * 512) 0xFF#8 else f.read a := by
  rw [Flash.read_program]
  by_cases hin : first * 512 ≤ a ∧ a < (first + count) * 512
  · have hi : a - first * 512 < bytes.length := by omega
    have hinside := Memory.read_write_inside f.cells (first * 512) bytes (a - first * 512) hi
    rw [show first * 512 + (a - first * 512) = a by omega] at hinside
    rw [if_pos hin, if_pos (by omega), List.take_of_length_le (by omega), hinside, List.getD_eq_getElem _ _ hi]
  · rw [if_neg hin, if_neg (by omega)]

theorem Flash.read_erase_run (f : Flash) (first count a : Nat) :
    (f.erase first count).read a =
      if first * 512 ≤ a ∧ a < (first + count) * 512 then 0xFF#8 else f.read a := by
  rw [Flash.read_erase]
  by_cases hin : first * 512 ≤ a ∧ a < (first + count) * 512
  · rw [if_pos hin, if_pos (by omega)]; rfl
  · rw [if_neg hin, if_neg (by omega)]

theorem Flash.read_scramble_run (f : Flash) (first count stamp : Nat) (cause : UnknownCause) (a : Nat) :
    (f.scramble first count stamp cause).read a =
      if first * 512 ≤ a ∧ a < (first + count) * 512 then Config.freeByte stamp a else f.read a := by
  rw [Flash.read_scramble]
  by_cases hin : first * 512 ≤ a ∧ a < (first + count) * 512
  · rw [if_pos hin, if_pos (by omega)]
  · rw [if_neg hin, if_neg (by omega)]

/-! ### The flash after a long operation -/

/-- The flash that a long operation leaves (R101, R103). -/
def State.flashAfter (s : State) (d : Nat) (op : LongOp) (ok : Bool) : Flash :=
  match op with
  | .program p => (s.programFlash d p ok).media.flash
  | .erase b => (s.eraseFlash d b ok).media.flash

/-- The front that a long operation leaves, and its block (R102). -/
def LongOp.frontAfter : LongOp → Nat × Nat
  | .program p => (p.block, p.page * 48 + p.first + p.count)
  | .erase b => (b, 0)

theorem State.programFlash_fronts (s : State) (d : Nat) (p : Program) (ok : Bool) :
    (s.programFlash d p ok).media.fronts = s.media.fronts := by
  unfold State.programFlash
  dsimp only
  split <;> rfl

theorem State.eraseFlash_fronts (s : State) (d b : Nat) (ok : Bool) :
    (s.eraseFlash d b ok).media.fronts = s.media.fronts := by
  unfold State.eraseFlash
  split <;> rfl

theorem State.programFlash_setFront (s : State) (d b value : Nat) (p : Program) (ok : Bool) :
    ((s.setFront d b value).programFlash d p ok).media.flash = (s.programFlash d p ok).media.flash := by
  unfold State.programFlash
  dsimp only
  split <;> rfl

theorem State.eraseFlash_setFront (s : State) (d b value : Nat) (ok : Bool) :
    ((s.setFront d b value).eraseFlash d b ok).media.flash = (s.eraseFlash d b ok).media.flash := by
  unfold State.eraseFlash
  split <;> rfl

/-- The end of a long operation sets the front and the flash; what it hands on changes neither (R101 to R103). -/
theorem State.longOpResult_flash (s : State) (d : Nat) (op : LongOp) (ok : Bool) :
    (s.longOpResult d op ok).finish.media.flash = s.flashAfter d op ok ∧
    (s.longOpResult d op ok).finish.media.fronts =
      s.media.fronts.modify d fun f => f.set op.frontAfter.1 op.frontAfter.2 := by
  have hclose (y : State) : (y.becomeIdle d).finish.media.flash = y.media.flash ∧
      (y.becomeIdle d).finish.media.fronts = y.media.fronts :=
    ⟨(State.finish_steady _).flash.trans (y.becomeIdle_die d).flash,
      Eq.trans (State.finish_sameFronts _) (y.becomeIdle_die d).fronts⟩
  cases op with
  | program p =>
    obtain ⟨hflash, hfronts⟩ := hclose (s.programResult d p ok)
    refine ⟨hflash.trans ?_, hfronts.trans ?_⟩
    · exact (State.handOn_installs _ d p ok).steady.flash.trans (s.programFlash_setFront d _ _ p ok)
    · exact Eq.trans (State.handOn_sameFronts _ d p ok) (State.programFlash_fronts _ d p ok)
  | erase b =>
    obtain ⟨hflash, hfronts⟩ := hclose (s.eraseResult d b ok)
    refine ⟨hflash.trans ?_, hfronts.trans ?_⟩
    · exact (State.eraseTold_installs _ d _ ok).steady.flash.trans
        ((State.blockErased_installs _ d b ok).steady.flash.trans (s.eraseFlash_setFront d b 0 ok))
    · refine Eq.trans (State.eraseTold_sameFronts _ d _ ok) ?_
      exact (congrArg Media.fronts (State.blockErased_kept _ d b ok).1).trans (State.eraseFlash_fronts _ d b ok)

theorem frontsAfter_getD {fronts : List (List Nat)} {d b : Nat} (hd : d < fronts.length)
    (hb : b < (fronts.getD d []).length) (x : Nat) :
    ((fronts.modify d fun f => f.set b x).getD d []).getD b 0 = x := by
  rw [List.getD_eq_getElem _ _ hd] at hb
  simp [List.getD_eq_getElem?_getD, List.getElem?_eq_getElem hd, List.getElem?_set_self hb]

/-- What the end of a long operation leaves in the front and outside the media array (R101 to R103). -/
theorem exec_opEnds_flash {s : State} {t d : Nat} {op : LongOp} {ok : Bool} {c : Instr} (h : s.opEnds t d op ok c)
    (hd : d < s.media.fronts.length) (hb : op.frontAfter.1 < (s.media.fronts.getD d []).length) :
    ∃ u, exec c s = .next u ∧ u.voices = s.voices ∧ u.station = s.station ∧ u.claims.watches = s.claims.watches ∧
      u.clock = max s.clock t ∧ (u.media.fronts.getD d []).getD op.frontAfter.1 0 = op.frontAfter.2 ∧
      u.media.flash = (s.atTime t).flashAfter d op ok := by
  have hstep := (s.atTime t).longOpResult_step d op ok
  obtain ⟨hflash, hfronts⟩ := (s.atTime t).longOpResult_flash d op ok
  refine ⟨_, exec_opEnds h, ?_, ?_, ?_, ?_, ?_, hflash⟩
  · rw [State.finish_voices, hstep.voices]; rfl
  · rw [State.finish_station, hstep.station]; rfl
  · rw [State.finish_watches, hstep.claims]; rfl
  · rw [State.finish_clock, hstep.clock]; rfl
  · rw [hfronts]
    exact frontsAfter_getD hd hb _

end Sys2Proof.Machine
end

