-- ==== Sys2Proof/Proofs/Closing.lean ====
section
/-! SUPPORT. The close of a step that ends a long operation: the die's return to IDLE with no program turned away, and
the blocks that a failed install or an ended record leaves (R94, R102, R165). -/

namespace Sys2Proof.Machine

/-! ### A long-op queue from which no program is turned away -/

/-- The front turns away no program of the queue of die `d` (R102). -/
def State.Unrefused (s : State) (d : Nat) : Prop :=
  splitRefused (s.fronts d) (s.die d).longOps = ([], (s.die d).longOps)

theorem State.unrefused_of_erases {s : State} {d : Nat} (h : ∀ op ∈ (s.die d).longOps, op.isProgram = false) :
    s.Unrefused d := splitRefused_none _ _ h

/-- A program behind erases, at its front or past it, is not turned away (R102). -/
theorem splitRefused_last {fronts : List Nat} {ops : List LongOp} {p : Program}
    (h : ∀ op ∈ ops, op.isProgram = false) (hp : fronts.getD p.block 0 ≤ p.page * 48 + p.first) :
    splitRefused fronts (ops ++ [.program p]) = ([], ops ++ [.program p]) := by
  cases ops with
  | nil => exact if_neg (Nat.not_lt.2 hp)
  | cons op ops =>
    cases op with
    | program q => exact absurd (h (.program q) List.mem_cons_self) nofun
    | erase b => rfl

theorem State.markStarted_dies (s : State) (d e : Nat) (op : LongOp) : (s.markStarted d op).die e = s.die e := by
  unfold State.die
  rw [s.markStarted_media]

theorem State.beginRead_longOps {s t : State} {d : Nat} (h : s.beginRead? d = some t) :
    t.media.frontFailed = s.media.frontFailed ∧ (t.die d).longOps = (s.die d).longOps := by
  unfold State.beginRead? at h
  obtain ⟨⟨die, free⟩, hbegin, rfl⟩ := Option.map_eq_some_iff.1 h
  refine ⟨rfl, ?_⟩
  unfold Die.begin? at hbegin
  split at hbegin
  · cases hbegin
  next r rest free' htake =>
    obtain ⟨x, -, hx⟩ := Option.map_eq_some_iff.1 hbegin
    cases hx
    rw [State.die_setDie]
    split
    · rfl
    · rfl

/-- The idle choice of a die whose front turns nothing away performs the head of its queue, or keeps it (R94). -/
theorem State.idleChoice_unrefused {s : State} {d : Nat} (hd : d < s.media.dies.length) (h : s.Unrefused d) :
    (s.idleChoice d).media.frontFailed = s.media.frontFailed ∧
    ∀ op ∈ (s.die d).longOps, op ∈ ((s.idleChoice d).die d).longOps ∨ ((s.idleChoice d).die d).state = .busy op := by
  have hkept {t : State} (ht : t.media.frontFailed = s.media.frontFailed ∧ (t.die d).longOps = (s.die d).longOps) :
      t.media.frontFailed = s.media.frontFailed ∧
      ∀ op ∈ (s.die d).longOps, op ∈ (t.die d).longOps ∨ (t.die d).state = .busy op :=
    ⟨ht.1, fun op hop => .inl (ht.2 ▸ hop)⟩
  have hsame : s.setMedia { s.media with frontFailed := s.media.frontFailed ++ [] } = s := by
    rw [List.append_nil]
    exact s.setMedia_same
  unfold State.idleChoice
  split
  next hidle =>
    dsimp only
    split
    next u hu =>
      split at hu
      · exact hkept (State.beginRead_longOps hu)
      · cases hu
    next =>
      unfold State.Unrefused at h
      cases hl : (s.die d).longOps with
      | nil =>
        rw [State.takeLongOp_none hl, if_neg Bool.false_ne_true]
        refine ⟨?_, fun op hop => absurd hop List.not_mem_nil⟩
        cases hb : (s.updateDie d fun die => { die with longOps := [] }).beginRead? d with
        | none => rfl
        | some t => exact (State.beginRead_longOps hb).1
      | cons op rest =>
        have htake : s.takeLongOp d =
            ((s.updateDie d fun die => { die with state := .busy op, longOps := rest }).markStarted d op, true) := by
          unfold State.takeLongOp
          simp only [h, List.map_nil, hsame]
          simp only [hl]
        rw [htake, if_pos rfl]
        refine ⟨by rw [State.markStarted_media]; rfl, fun o ho => ?_⟩
        rw [State.markStarted_dies, State.die_updateDie, if_pos ⟨rfl, hd⟩]
        rcases List.mem_cons.1 ho with rfl | ho
        · exact .inr rfl
        · exact .inl ho
  next => exact hkept ⟨rfl, rfl⟩

/-- An entry that joins a queue from which nothing is turned away waits there, or is performed at once (R93, R94). -/
theorem State.joinLongOp_unrefused {s : State} {d : Nat} {op : LongOp} (hd : d < s.media.dies.length)
    (h : splitRefused (s.fronts d) ((s.die d).longOps ++ [op]) = ([], (s.die d).longOps ++ [op])) :
    (s.joinLongOp d op).media.frontFailed = s.media.frontFailed ∧
    (op ∈ ((s.joinLongOp d op).die d).longOps ∨ ((s.joinLongOp d op).die d).state = .busy op) := by
  have hdie : ((s.updateDie d fun die => { die with longOps := die.longOps ++ [op] }).die d).longOps =
      (s.die d).longOps ++ [op] := by rw [State.die_updateDie, if_pos ⟨rfl, hd⟩]
  have hun : (s.updateDie d fun die => { die with longOps := die.longOps ++ [op] }).Unrefused d := by
    unfold State.Unrefused
    rw [hdie]
    exact h
  obtain ⟨hfailed, hops⟩ := State.idleChoice_unrefused
    (s := s.updateDie d fun die => { die with longOps := die.longOps ++ [op] }) (by simpa [State.updateDie] using hd) hun
  exact ⟨hfailed, hops op (by rw [hdie]; simp)⟩

/-- The return to IDLE of a die whose front turns nothing away (R94, R102). -/
theorem State.becomeIdle_unrefused {s : State} {d : Nat} (hd : d < s.media.dies.length) (h : s.Unrefused d) :
    (s.becomeIdle d).media.frontFailed = s.media.frontFailed ∧
    ∀ op ∈ (s.die d).longOps, op ∈ ((s.becomeIdle d).die d).longOps ∨ ((s.becomeIdle d).die d).state = .busy op := by
  have hdie : ((s.updateDie d fun die => { die with state := .idle, lastResume := none }).die d).longOps =
      (s.die d).longOps := by rw [State.die_updateDie, if_pos ⟨rfl, hd⟩]
  have hun : (s.updateDie d fun die => { die with state := .idle, lastResume := none }).Unrefused d := by
    unfold State.Unrefused
    rw [hdie]
    exact h
  obtain ⟨hfailed, hops⟩ := State.idleChoice_unrefused
    (s := s.updateDie d fun die => { die with state := .idle, lastResume := none })
    (by simpa [State.updateDie] using hd) hun
  exact ⟨hfailed, fun op hop => hops op (by rw [hdie]; exact hop)⟩

theorem State.becomeIdle_die_other (s : State) (d e : Nat) (he : e ≠ d) : (s.becomeIdle d).die e = s.die e := by
  unfold State.becomeIdle
  rw [State.idleChoice_die_other _ _ _ he, State.die_updateDie, if_neg fun h => he h.1]

/-! ### The close -/

/-- What the close of a step keeps of the state in which a long operation's result has been handed on. -/
structure Closes (d : Nat) (y u : State) : Prop where
  installer : u.installer = y.installer
  delivery  : u.delivery = y.delivery
  regions   : u.catalogue.regions = y.catalogue.regions
  appendPos : u.catalogue.appendPos = y.catalogue.appendPos
  owed      : u.catalogue.owed = y.catalogue.owed
  installs  : u.catalogue.pendingInstalls = y.catalogue.pendingInstalls
  flash     : u.media.flash = y.media.flash
  free      : ∀ e, (u.dieBlocks e).free = (y.dieBlocks e).free
  blocks    : ∀ e b, u.block e b = y.block e b ∨ u.block e b = (y.block e b).startErase
  notices   : u.notices.queue = y.notices.queue
  dies      : ∀ e, u.die e = (y.becomeIdle d).die e

theorem State.finish_closes {y : State} {d : Nat} (h : (y.becomeIdle d).settled) :
    Closes d y (y.becomeIdle d).finish := by
  have hidle := y.becomeIdle_die d
  obtain ⟨hmedia, hcatalogue, hqueue, -⟩ := State.finish_settled_step h
  have hdelivery : (y.becomeIdle d).finish.delivery = (y.becomeIdle d).delivery := by
    rw [State.finish_settled _ h]
    exact (State.offer_step _).delivery
  refine ⟨(State.finish_installer h).trans hidle.media.installer, hdelivery.trans hidle.media.delivery, ?_, ?_, ?_, ?_,
    ?_, fun e => ?_, fun e b => ?_, ?_, fun e => ?_⟩
  · rw [hcatalogue, hidle.regions]
  · rw [hcatalogue, hidle.appendPos]
  · rw [hcatalogue, hidle.owed]
  · rw [hcatalogue, hidle.installs]
  · rw [hmedia, hidle.flash]
  · rw [State.dieBlocks_congr (congrArg Catalogue.blockTable hcatalogue), hidle.free]
  · rw [State.block_congr (congrArg Catalogue.blockTable hcatalogue)]
    exact hidle.blocks e b
  · rw [hqueue, hidle.media.notices]
  · exact State.die_of_dies (congrArg Media.dies hmedia) e

theorem Block.startErase_of_ne {k : Block} (h : k.state ≠ .queued) : k.startErase = k := if_neg h

theorem Closes.block {d : Nat} {y u : State} (h : Closes d y u) {e b : Nat} {k : Block} (hk : y.block e b = k)
    (hq : k.state ≠ .queued) : u.block e b = k := by
  subst hk
  rcases h.blocks e b with h | h
  · exact h
  · rw [h, Block.startErase_of_ne hq]

/-- What the result of a long operation tells stands in the queue when the step has closed. -/
theorem State.finish_idle_noticeStep (y : State) (d : Nat) : NoticeStep y (y.becomeIdle d).finish :=
  (NoticeStep.of_eq (y.becomeIdle_die d).media.notices).trans (State.finish_noticeStep _)

/-! ### Blocks made QUEUED -/

theorem Block.queueDead_of_live {k : Block} (h : k.dead = false) : k.queueDead = k := by
  unfold Block.queueDead
  rw [h]
  rfl

theorem Block.dead_iff (k : Block) : k.dead = true ↔ k.state = .full ∧ k.live = 0 ∧ k.pending = 0 := by
  simp [Block.dead, and_assoc]

theorem State.queueDeadOn_block (s : State) (d e b : Nat) {k : Block}
    (hk : k = if e = d then (s.block e b).queueDead else s.block e b) :
    (s.queueDeadOn d).block e b = k ∨ (s.queueDeadOn d).block e b = k.startErase := by
  have h := (State.joinErases_die (s.updateDieBlocks d fun t => { t with blocks := t.blocks.map Block.queueDead }) d
    ((s.dieBlocks d).numbers Block.dead)).blocks e b
  rw [State.block_mapBlocks s d e b Block.queueDead rfl, ← hk] at h
  rw [State.queueDeadOn_eq]
  exact h

theorem State.queueDeadOn_other (s : State) (d e : Nat) (he : e ≠ d) :
    (s.queueDeadOn d).dieBlocks e = s.dieBlocks e := by
  rw [State.queueDeadOn_eq, (State.joinErases_begins _ d _).other he, State.dieBlocks_updateDieBlocks,
    if_neg fun h => he h.1]

/-- Every FULL block without pages becomes QUEUED, and its erase may begin (R11, R12). -/
theorem State.queueDead_block (s : State) {e : Nat} (he : e < 8) (b : Nat) :
    s.queueDead.block e b = (s.block e b).queueDead ∨ s.queueDead.block e b = (s.block e b).queueDead.startErase := by
  obtain ⟨t, ht, hfold⟩ := foldl_local (f := State.queueDeadOn) (view := State.dieBlocks) State.queueDeadOn_other
    (l := dieNumbers) List.nodup_range (List.mem_range.2 he) s
  have hblock : s.queueDead.block e b = (t.queueDeadOn e).block e b :=
    congrArg (fun x : DieBlocks => x.blocks.getD b Block.unset) hfold
  have hold : t.block e b = s.block e b := congrArg (fun x : DieBlocks => x.blocks.getD b Block.unset) ht
  rw [hblock, ← hold]
  exact t.queueDeadOn_block e e b (if_pos rfl).symm

/-- A block with pages, or one that is not FULL, stays as it is (R12). -/
theorem State.queueDead_block_kept {s : State} {e b : Nat} {k : Block} (hk : s.block e b = k) (hdead : k.dead = false)
    (hq : k.state ≠ .queued) : s.queueDead.block e b = k := by
  have hstep (d : Nat) (y : State) (hy : y.block e b = k) : (y.queueDeadOn d).block e b = k := by
    have hkd : k = if e = d then (y.block e b).queueDead else y.block e b := by
      split
      · rw [hy, Block.queueDead_of_live hdead]
      · exact hy.symm
    rcases y.queueDeadOn_block d e b hkd with h | h
    · exact h
    · rw [h, Block.startErase_of_ne hq]
  unfold State.queueDead
  induction dieNumbers generalizing s with
  | nil => exact hk
  | cons d l ih => exact ih (hstep d s hk)

/-! ### The blocks and queues of a failed install -/

theorem State.clearPending_block (s : State) (e b : Nat) :
    s.clearPending.block e b = { s.block e b with pending := 0 } := by
  unfold State.block State.dieBlocks State.clearPending
  simp only [State.setCatalogue_catalogue, List.getD_eq_getElem?_getD, List.getElem?_map]
  cases s.catalogue.blockTable[e]? with
  | none => rfl
  | some t =>
    simp only [Option.map_some, Option.getD_some, List.getElem?_map]
    cases t.blocks[b]? with
    | none => rfl
    | some k => rfl

theorem State.failInstall_table (s : State) (i : InstallItem) (reason : Reason) :
    (s.failInstall i reason).catalogue.blockTable = s.clearPending.queueDead.catalogue.blockTable := by
  unfold State.failInstall
  generalize s.clearPending.queueDead = y
  rfl

/-- A failed install leaves a block that is neither FULL nor QUEUED in its state, without pending pages (R165). -/
theorem State.failInstall_block {s : State} {e b : Nat} {k : Block} (hk : s.block e b = k) (hfull : k.state ≠ .full)
    (hq : k.state ≠ .queued) (i : InstallItem) (reason : Reason) :
    (s.failInstall i reason).block e b = { k with pending := 0 } := by
  subst hk
  rw [State.block_congr (s.failInstall_table i reason)]
  refine State.queueDead_block_kept (s.clearPending_block e b) ?_ hq
  rw [Bool.eq_false_iff]
  exact fun h => hfull ((Block.dead_iff _).1 h).1

theorem State.failInstall_noPrograms (s : State) (i : InstallItem) (reason : Reason) :
    NoPrograms (s.failInstall i reason) := by
  unfold State.failInstall
  generalize ((s.clearPending.queueDead.endItem).dropPending i.region).lowerOwed = y
  intro die hdie op hop
  have hmem : die ∈ y.media.dies.map fun die =>
    { die with longOps := die.longOps.filter fun op => !op.isProgram } := hdie
  obtain ⟨die', -, rfl⟩ := List.mem_map.1 hmem
  simpa using (List.mem_filter.1 hop).2

end Sys2Proof.Machine
end

