-- ==== Sys2Proof/Proofs/LongOps.lean ====
section
/-! PROOF. O41, its second part: the blocks after an erase, the next page of an install after a program, and the
failures of an install. -/

namespace Sys2Proof.Machine

/-! ### Blocks -/

theorem State.block_updateBlock_same {s : State} {d b : Nat} (hb : b < (s.dieBlocks d).blocks.length)
    (f : Block → Block) : (s.updateBlock d b f).block d b = f (s.block d b) := by
  unfold State.block
  rw [State.dieBlocks_updateBlock, if_pos rfl]
  simp [List.getD_eq_getElem?_getD, List.getElem?_eq_getElem hb]

theorem State.block_updateBlock_other {s : State} {d b e k : Nat} (h : ¬(e = d ∧ k = b)) (f : Block → Block) :
    (s.updateBlock d b f).block e k = s.block e k := by
  rcases s.block_updateBlock d b f e k with hk | ⟨he, hk, -⟩
  · exact hk
  · exact absurd ⟨he, hk⟩ h

theorem State.dieBlocks_pushFree {s : State} {d : Nat} (hd : d < s.catalogue.blockTable.length) (b : Nat) :
    (s.pushFree d b).dieBlocks d = { s.dieBlocks d with free := (s.dieBlocks d).free ++ [b] } := by
  unfold State.pushFree
  rw [State.dieBlocks_updateDieBlocks, if_pos ⟨rfl, hd⟩]

/-- A block after its erase, and its die's free list (R11, R17). -/
theorem State.erased_block {s : State} {d b : Nat} (hd : d < s.catalogue.blockTable.length)
    (hb : b < (s.dieBlocks d).blocks.length) (ok : Bool) :
    ((s.block d b).state = .log →
      (s.erased d b ok).block d b = s.block d b ∧ ((s.erased d b ok).dieBlocks d).free = (s.dieBlocks d).free) ∧
    ((s.block d b).state ≠ .log → ok = true →
      (s.erased d b ok).block d b = { state := .free, live := 0, pending := 0 } ∧
      ((s.erased d b ok).dieBlocks d).free = (s.dieBlocks d).free ++ [b]) ∧
    ((s.block d b).state ≠ .log → ok = false →
      (s.erased d b ok).block d b = { s.block d b with state := .worn } ∧
      ((s.erased d b ok).dieBlocks d).free = (s.dieBlocks d).free) ∧
    ∀ k, k ≠ b → (s.erased d b ok).block d k = s.block d k := by
  obtain ⟨-, -, hcatalogue, -⟩ := (s.setFront d b 0).eraseFlash_kept d b ok
  unfold State.erased
  generalize (s.setFront d b 0).eraseFlash d b ok = x at hcatalogue ⊢
  have htable : x.catalogue.blockTable = s.catalogue.blockTable := congrArg Catalogue.blockTable hcatalogue
  rw [← State.block_congr htable d b, ← State.dieBlocks_congr htable d]
  have hother (k : Nat) : s.block d k = x.block d k := (State.block_congr htable d k).symm
  rw [← htable] at hd
  rw [← State.dieBlocks_congr htable d] at hb
  unfold State.blockErased
  refine ⟨fun h => ?_, fun h hok => ?_, fun h hok => ?_, fun k hk => ?_⟩
  · rw [if_pos h]
    exact ⟨rfl, rfl⟩
  · rw [if_neg h, if_pos hok]
    have hpush := State.dieBlocks_pushFree (s := x.updateBlock d b fun _ => { state := .free, live := 0, pending := 0 })
      (by simpa [State.updateBlock, State.updateDieBlocks] using hd) b
    refine ⟨?_, ?_⟩
    · refine (congrArg (fun y : DieBlocks => y.blocks.getD b Block.unset) hpush).trans ?_
      exact State.block_updateBlock_same hb _
    · rw [hpush]
      show (((x.updateBlock d b _).dieBlocks d).free) ++ [b] = _
      rw [(x.updateBlock_free d b _ d).1]
  · rw [if_neg h, if_neg (by simp [hok])]
    exact ⟨State.block_updateBlock_same hb _, (x.updateBlock_free d b _ d).1⟩
  · rw [hother]
    split
    · rfl
    · split
      · have hpush := State.dieBlocks_pushFree
          (s := x.updateBlock d b fun _ => { state := .free, live := 0, pending := 0 })
          (by simpa [State.updateBlock, State.updateDieBlocks] using hd) b
        refine (congrArg (fun y : DieBlocks => y.blocks.getD k Block.unset) hpush).trans ?_
        exact State.block_updateBlock_other (fun h => hk h.2) _
      · exact State.block_updateBlock_other (fun h => hk h.2) _

/-- An erase result that no install waits for leaves the block table and the media array (R103). -/
theorem State.eraseTold_kept {x : State} (hwait : ∀ i, .install i ∈ x.installer.work → i.phase ≠ .waitingBlock)
    (hwipe : x.installer.wiping = true → x.installer.work.length = 1) (d : Nat) (isLog ok : Bool) :
    (x.eraseTold d isLog ok).catalogue.blockTable = x.catalogue.blockTable ∧
      (x.eraseTold d isLog ok).media = x.media := by
  unfold State.eraseTold
  split
  next sender worn left logLeft rest hw =>
    have hrest : rest = [] := by
      have hlength := hwipe (by simp [Installer.wiping, hw])
      rw [hw] at hlength
      exact List.eq_nil_of_length_eq_zero (Nat.succ.inj hlength)
    subst hrest
    unfold State.wipeProgress
    dsimp only
    have hclear (c : Bool) : (if c then x.clearAppend else x).catalogue.blockTable = x.catalogue.blockTable ∧
        (if c then x.clearAppend else x).media = x.media ∧
        (if c then x.clearAppend else x).installer = x.installer := by
      split <;> exact ⟨rfl, rfl, rfl⟩
    obtain ⟨htable, hmedia, hinstaller⟩ :=
      hclear (isLog && (if isLog then logLeft - 1 else logLeft) == 0)
    generalize (if (isLog && (if isLog then logLeft - 1 else logLeft) == 0) = true then x.clearAppend else x) = y
      at htable hmedia hinstaller ⊢
    split
    · rw [State.nextItem_of_empty]
      · exact ⟨htable, hmedia⟩
      · show y.installer.work.tail = []
        rw [hinstaller, hw]
        rfl
    · exact ⟨htable, hmedia⟩
  next i rest hw =>
    rw [if_neg]
    · exact ⟨rfl, rfl⟩
    · exact fun h => hwait i (by rw [hw]; exact List.mem_cons_self) h.1
  next => exact ⟨rfl, rfl⟩

/-! ### The OPEN block of a die -/

/-- A die without an OPEN block (R11). -/
theorem DieBlocks.openBlock_none_iff (t : DieBlocks) :
    t.openBlock? = none ↔ ∀ b n, (t.blocks.getD b Block.unset).state ≠ .opened n := by
  unfold DieBlocks.openBlock?
  rw [List.findSome?_eq_none_iff]
  constructor
  · intro h b n hb
    by_cases hlt : b < t.blocks.length
    · have hx := h (t.blocks[b], b) (List.mem_zipIdx_iff_getElem?.2 (List.getElem?_eq_getElem hlt))
      rw [List.getD_eq_getElem _ _ hlt] at hb
      simp [hb] at hx
    · rw [List.getD_eq_default _ _ (Nat.le_of_not_lt hlt)] at hb
      cases hb
  · intro h x hx
    obtain ⟨k, b⟩ := x
    have hget : t.blocks[b]? = some k := List.mem_zipIdx_iff_getElem?.1 hx
    have hk : t.blocks.getD b Block.unset = k := by rw [List.getD_eq_getElem?_getD, hget]; rfl
    have hb := h b
    rw [hk] at hb
    dsimp only
    split
    next n hn => exact absurd hn (hb n)
    all_goals rfl

/-! ### A program placed while a long operation ends -/

theorem State.fronts_setFront_other {s : State} {d b e k : Nat} (h : ¬(e = d ∧ k = b)) (x : Nat) :
    ((s.setFront d b x).fronts e).getD k 0 = (s.fronts e).getD k 0 := by
  unfold State.fronts State.setFront
  simp only [State.setMedia_media, List.getD_eq_getElem?_getD, List.getElem?_modify]
  by_cases he : d = e
  · subst he
    have hk : b ≠ k := fun hk => h ⟨rfl, hk.symm⟩
    cases s.media.fronts[d]? with
    | none => simp
    | some f => simp [hk]
  · simp [he]

theorem State.fronts_setFront_zero (s : State) (d b : Nat) : ((s.setFront d b 0).fronts d).getD b 0 = 0 := by
  unfold State.fronts State.setFront
  simp only [State.setMedia_media, List.getD_eq_getElem?_getD, List.getElem?_modify]
  cases s.media.fronts[d]? with
  | none => simp
  | some f =>
    by_cases hb : b < f.length
    · simp [hb]
    · simp [hb]

theorem State.joinLongOp_die_other (s : State) (d e : Nat) (he : e ≠ d) (op : LongOp) :
    (s.joinLongOp d op).die e = s.die e := by
  unfold State.joinLongOp
  rw [State.idleChoice_die_other _ _ _ he, State.die_updateDie, if_neg fun h => he h.1]

/-- A program that joins the queue of die `e` while the operation of die `d` ends is not turned away: it waits, or is
performed (R93, R94, R102). -/
theorem State.joinLongOp_becomeIdle {x : State} {d e : Nat} {p : Program} (hd : d < x.media.dies.length)
    (he : e < x.media.dies.length) (hbusy : (x.die d).state ≠ .idle) (hnone : NoPrograms x)
    (hfront : (x.fronts e).getD p.block 0 ≤ p.page * 48 + p.first) {z : State}
    (hz : z = (x.joinLongOp e (.program p)).becomeIdle d) :
    z.media.frontFailed = x.media.frontFailed ∧
      (.program p ∈ (z.die e).longOps ∨ (z.die e).state = .busy (.program p)) := by
  have hsplit := splitRefused_last (hnone.die e) hfront
  obtain ⟨hfailed, hplaced⟩ := State.joinLongOp_unrefused he hsplit
  have hstep := x.joinLongOp_die e (.program p)
  have hd' : d < (x.joinLongOp e (.program p)).media.dies.length := by rwa [hstep.count]
  subst hz
  by_cases hed : e = d
  · subst hed
    have hdie : ((x.joinLongOp e (.program p)).die e).longOps = (x.die e).longOps ++ [.program p] := by
      rw [State.joinLongOp_busy hbusy, State.withDie_die he]
    have hun : (x.joinLongOp e (.program p)).Unrefused e := by
      unfold State.Unrefused State.fronts
      rw [hdie, hstep.fronts]
      exact hsplit
    obtain ⟨hfailed', hops⟩ := State.becomeIdle_unrefused hd' hun
    exact ⟨hfailed'.trans hfailed, hops _ (by rw [hdie]; simp)⟩
  · have hun : (x.joinLongOp e (.program p)).Unrefused d :=
      State.unrefused_of_erases (by rw [x.joinLongOp_die_other e d (Ne.symm hed)]; exact hnone.die d)
    rw [State.becomeIdle_die_other _ d e hed]
    exact ⟨(State.becomeIdle_unrefused hd' hun).1.trans hfailed, hplaced⟩

/-! ### The end of an erase -/

theorem State.opEnds_busy {s : State} {t d : Nat} {op : LongOp} {ok : Bool} {c : Instr} (h : s.opEnds t d op ok c) :
    (s.die d).state ≠ .idle := by
  rcases h with ⟨h, -⟩ | ⟨h, -⟩ <;> rw [h] <;> nofun

/-- What an erase leaves, handed on to no item that waits for a block (R11, R17, R103). -/
theorem erase_frees_block {s : State} {t d b : Nat} {ok : Bool} {c : Instr} (hs : s.settled)
    (hd : d < s.catalogue.blockTable.length) (hb : b < (s.dieBlocks d).blocks.length) (hnone : NoPrograms s)
    (hends : s.opEnds t d (.erase b) ok c)
    (hwait : ∀ i, .install i ∈ s.installer.work → i.phase ≠ .waitingBlock)
    (hwipe : s.installer.wiping = true → s.installer.work.length = 1) :
    ∃ u, exec c s = .next u ∧
      ((s.block d b).state = .log → u.block d b = s.block d b ∧ (u.dieBlocks d).free = (s.dieBlocks d).free) ∧
      ((s.block d b).state ≠ .log → ok = true → u.block d b = { state := .free, live := 0, pending := 0 } ∧
        (u.dieBlocks d).free = (s.dieBlocks d).free ++ [b]) ∧
      ((s.block d b).state ≠ .log → ok = false → u.block d b = { s.block d b with state := .worn } ∧
        (u.dieBlocks d).free = (s.dieBlocks d).free) := by
  obtain ⟨hlog, hfree, hworn, -⟩ := State.erased_block (s := s.atTime t) (d := d) (b := b) hd hb ok
  obtain ⟨hdies, hfailed, -, hinstaller, -⟩ := (s.atTime t).erased_kept d b ok
  rw [exec_opEnds hends]
  have hresult : (s.atTime t).longOpResult d (.erase b) ok =
      (((s.atTime t).erased d b ok).eraseTold d (((s.atTime t).block d b).state == .log) ok).becomeIdle d := rfl
  rw [hresult]
  generalize (s.atTime t).erased d b ok = x at hlog hfree hworn hdies hfailed hinstaller
  obtain ⟨htable, hmedia⟩ := State.eraseTold_kept (x := x) (by rw [hinstaller]; exact hwait)
    (by rw [hinstaller]; exact hwipe) d (((s.atTime t).block d b).state == .log) ok
  generalize x.eraseTold d (((s.atTime t).block d b).state == .log) ok = y at htable hmedia
  have hynone : NoPrograms y := by
    unfold NoPrograms
    rw [hmedia, hdies]
    exact hnone
  have hysettled : y.settled := by
    unfold State.settled
    rw [hmedia, hfailed]
    exact hs
  have hclose := State.finish_closes (State.becomeIdle_settled hynone hysettled d)
  have hblock : y.block d b = x.block d b := State.block_congr htable d b
  have hyfree : (y.dieBlocks d).free = (x.dieBlocks d).free := by rw [State.dieBlocks_congr htable]
  refine ⟨_, rfl, fun h => ?_, fun h hok => ?_, fun h hok => ?_⟩
  · obtain ⟨h1, h2⟩ := hlog h
    exact ⟨hclose.block (hblock.trans h1) fun hq => BlockState.noConfusion (hq.symm.trans h), (hclose.free d).trans (hyfree.trans h2)⟩
  · obtain ⟨h1, h2⟩ := hfree h hok
    exact ⟨hclose.block (hblock.trans h1) nofun, (hclose.free d).trans (hyfree.trans h2)⟩
  · obtain ⟨h1, h2⟩ := hworn h hok
    exact ⟨hclose.block (hblock.trans h1) nofun, (hclose.free d).trans (hyfree.trans h2)⟩

/-- The state in which an install that waits for a block is told of its die's erase (R103, R163). -/
theorem State.eraseTold_waiting {x : State} {i : InstallItem} {rest : List WorkItem}
    (hw : x.installer.work = .install i :: rest) (hi : i.phase = .waitingBlock) (isLog ok : Bool) :
    x.eraseTold i.die isLog ok = x.enterProgramming i := by
  unfold State.eraseTold
  rw [hw]
  exact if_pos ⟨hi, rfl⟩

theorem State.enterProgramming_opens {x : State} {i : InstallItem} {b : Nat} {rest : List Nat}
    (hopen : (x.dieBlocks i.die).openBlock? = none) (hfree : (x.dieBlocks i.die).free = b :: rest) :
    x.enterProgramming i = (x.openBlock i.die b).placeProgram i b 0 := by
  unfold State.enterProgramming
  simp only [hopen, hfree]

theorem State.enterProgramming_noSpace {x : State} {i : InstallItem}
    (hopen : (x.dieBlocks i.die).openBlock? = none) (hfree : (x.dieBlocks i.die).free = [])
    (herase : (x.dieBlocks i.die).erasePending = false) : x.enterProgramming i = x.installFails i .noSpace := by
  unfold State.enterProgramming
  simp only [hopen, hfree, herase, Bool.false_eq_true, if_false]

/-- A page's program placed while the operation of its die ends is not turned away (R93, R102, R163). -/
theorem State.placeProgram_becomeIdle {y z : State} {i : InstallItem} {b page : Nat} {op : LongOp}
    (hz : z = y.placeProgram i b page) (hop : op = .program { block := b, page := page, first := 0
                                                              count := i.programSectors, purpose := .page })
    (hd : i.die < y.media.dies.length) (hbusy : (y.die i.die).state ≠ .idle) (hnone : NoPrograms y)
    (hfront : (y.fronts i.die).getD b 0 ≤ page * 48) :
    (z.becomeIdle i.die).media.frontFailed = y.media.frontFailed ∧
    z.installer.work = .install { i with phase := .programming } :: y.installer.work.tail ∧
    (∀ e k, z.block e k = y.block e k ∨ z.block e k = (y.block e k).startErase) ∧
    (∀ e, (z.dieBlocks e).free = (y.dieBlocks e).free) ∧
    (op ∈ ((z.becomeIdle i.die).die i.die).longOps ∨ ((z.becomeIdle i.die).die i.die).state = .busy op) := by
  subst hz hop
  have hjoin := State.joinLongOp_die (y.setHead (.install { i with phase := .programming })) i.die
    (.program { block := b, page := page, first := 0, count := i.programSectors, purpose := .page })
  obtain ⟨hfailed, hplaced⟩ := State.joinLongOp_becomeIdle (x := y.setHead (.install { i with phase := .programming }))
    (p := { block := b, page := page, first := 0, count := i.programSectors, purpose := .page })
    hd hd hbusy hnone hfront rfl
  exact ⟨hfailed, congrArg Installer.work hjoin.media.installer, hjoin.blocks, hjoin.free, hplaced⟩

/-- The front of a block after its erase (R102). -/
theorem State.erased_front (s : State) (d b : Nat) (ok : Bool) : ((s.erased d b ok).fronts d).getD b 0 = 0 := by
  have hkept : (s.erased d b ok).media.fronts = (s.setFront d b 0).media.fronts :=
    (congrArg Media.fronts (State.blockErased_kept _ d b ok).1).trans (State.eraseFlash_fronts _ d b ok)
  unfold State.fronts
  rw [hkept]
  exact s.fronts_setFront_zero d b

/-- An erase makes no block OPEN (R11). -/
theorem State.erased_openBlock {s : State} {d b : Nat} (hd : d < s.catalogue.blockTable.length)
    (hb : b < (s.dieBlocks d).blocks.length) (hlog : (s.block d b).state ≠ .log) (ok : Bool)
    (h : (s.dieBlocks d).openBlock? = none) : ((s.erased d b ok).dieBlocks d).openBlock? = none := by
  obtain ⟨-, hfree, hworn, hothers⟩ := State.erased_block hd hb ok
  rw [DieBlocks.openBlock_none_iff] at h ⊢
  intro k n
  show ((s.erased d b ok).block d k).state ≠ _
  by_cases hk : k = b
  · rw [hk]
    cases ok with
    | true =>
      rw [(hfree hlog rfl).1]
      nofun
    | false =>
      rw [(hworn hlog rfl).1]
      nofun
  · rw [hothers k hk]
    exact h k n

/-- An erase gives an install that waits for a block its block (R163). -/
theorem erase_opens_block {s : State} {t b : Nat} {ok : Bool} {c : Instr} {i : InstallItem} {rest : List WorkItem}
    (hs : s.settled) (hdies : i.die < s.media.dies.length) (hd : i.die < s.catalogue.blockTable.length)
    (hb : b < (s.dieBlocks i.die).blocks.length) (hnone : NoPrograms s)
    (hends : s.opEnds t i.die (.erase b) ok c) (hw : s.installer.work = .install i :: rest)
    (hi : i.phase = .waitingBlock) (hlog : (s.block i.die b).state ≠ .log)
    (hopen : (s.dieBlocks i.die).openBlock? = none) (hfree : (s.dieBlocks i.die).free = []) (hok : ok = true) :
    ∃ u, exec c s = .next u ∧ u.block i.die b = { state := .opened 0, live := 0, pending := 0 } ∧
      (u.dieBlocks i.die).free = [] ∧ u.installer.work = .install { i with phase := .programming } :: rest ∧
      ∃ op, op = LongOp.program { block := b, page := 0, first := 0, count := i.programSectors, purpose := .page } ∧
        (op ∈ (u.die i.die).longOps ∨ (u.die i.die).state = .busy op) := by
  obtain ⟨-, hfreed, -, hothers⟩ := State.erased_block (s := s.atTime t) (d := i.die) (b := b) hd hb ok
  obtain ⟨hblock, hlist⟩ := hfreed hlog hok
  obtain ⟨hxdies, hfailed, -, hinstaller, -⟩ := (s.atTime t).erased_kept i.die b ok
  have hfront := (s.atTime t).erased_front i.die b ok
  have hnoOpen := State.erased_openBlock (s := s.atTime t) hd hb hlog ok hopen
  rw [exec_opEnds hends]
  have hresult : (s.atTime t).longOpResult i.die (.erase b) ok = (((s.atTime t).erased i.die b ok).eraseTold i.die
      (((s.atTime t).block i.die b).state == .log) ok).becomeIdle i.die := rfl
  have hlength : b < (((s.atTime t).erased i.die b ok).dieBlocks i.die).blocks.length := Nat.lt_of_not_le fun hle => by
    have hunset : ((s.atTime t).erased i.die b ok).block i.die b = Block.unset := List.getD_eq_default _ _ hle
    rw [hblock] at hunset
    cases hunset
  rw [hresult]
  generalize (s.atTime t).erased i.die b ok = x at *
  have hlist' : (x.dieBlocks i.die).free = [b] := hlist.trans (congrArg (· ++ [b]) hfree)
  have hxw : x.installer.work = .install i :: rest := by rw [hinstaller]; exact hw
  obtain ⟨hoblock, hofree⟩ := State.openBlock_table hlist' hlength
  rw [State.eraseTold_waiting hxw hi, State.enterProgramming_opens hnoOpen hlist']
  have hymedia : (x.openBlock i.die b).media = x.media := rfl
  have hyinstaller : (x.openBlock i.die b).installer = x.installer := rfl
  generalize x.openBlock i.die b = y at *
  have hydies : y.media.dies = s.media.dies := (congrArg Media.dies hymedia).trans hxdies
  have hbusy : (y.die i.die).state ≠ .idle := by
    rw [State.die_of_dies hydies]
    exact State.opEnds_busy hends
  have hynone : NoPrograms y := by
    unfold NoPrograms
    rw [hydies]
    exact hnone
  have hyfront : (y.fronts i.die).getD b 0 ≤ 0 * 48 := by
    unfold State.fronts at hfront ⊢
    rw [hymedia]
    exact hfront.le
  obtain ⟨hzfailed, hzwork, hzblocks, hzfree, hplaced⟩ := State.placeProgram_becomeIdle (page := 0) rfl rfl
    (by rwa [hydies]) hbusy hynone hyfront
  have hclose := State.finish_closes (hzfailed.trans ((congrArg Media.frontFailed hymedia).trans (hfailed.trans hs)))
  refine ⟨_, rfl, hclose.block ?_ nofun, ?_, ?_, _, rfl, ?_⟩
  · rcases hzblocks i.die b with h | h <;> rw [h, hoblock, hblock] <;> rfl
  · rw [hclose.free, hzfree, hofree]
  · rw [hclose.installer, hzwork, hyinstaller, hxw]
    rfl
  · rw [hclose.dies]
    exact hplaced

/-- An erase that fails leaves an install that waits for a block with none to come, and it fails (R163, R165). -/
theorem erase_leaves_no_space {s : State} {t b : Nat} {ok : Bool} {c : Instr} {i : InstallItem}
    (hs : s.settled) (hd : i.die < s.catalogue.blockTable.length)
    (hb : b < (s.dieBlocks i.die).blocks.length) (hnone : NoPrograms s)
    (hends : s.opEnds t i.die (.erase b) ok c) (hw : s.installer.work = [.install i])
    (hi : i.phase = .waitingBlock) (hlog : (s.block i.die b).state ≠ .log)
    (hopen : (s.dieBlocks i.die).openBlock? = none) (hfree : (s.dieBlocks i.die).free = []) (hok : ok = false)
    (hdone : ∀ k, k ≠ b → (s.block i.die k).state ≠ .queued ∧ (s.block i.die k).state ≠ .erasing) :
    ∃ u, exec c s = .next u ∧ (u.block i.die b).state = .worn ∧ u.installer.work = [] ∧
      s.told u { addressee := i.sender, body := .installFailed i.region .noSpace, isOpen := false } := by
  obtain ⟨-, -, hworn, hothers⟩ := State.erased_block (s := s.atTime t) (d := i.die) (b := b) hd hb ok
  obtain ⟨hblock, hlist⟩ := hworn hlog hok
  obtain ⟨hxdies, hfailed, -, hinstaller, hnotices, -⟩ := (s.atTime t).erased_kept i.die b ok
  have hnoOpen := State.erased_openBlock (s := s.atTime t) hd hb hlog ok hopen
  rw [exec_opEnds hends]
  have hresult : (s.atTime t).longOpResult i.die (.erase b) ok = (((s.atTime t).erased i.die b ok).eraseTold i.die
      (((s.atTime t).block i.die b).state == .log) ok).becomeIdle i.die := rfl
  rw [hresult]
  generalize (s.atTime t).erased i.die b ok = x at *
  have hnoErase : (x.dieBlocks i.die).erasePending = false := by
    rw [Bool.eq_false_iff, ne_eq, DieBlocks.erasePending_iff]
    rintro ⟨k, hk, hstate⟩
    obtain ⟨n, hn, rfl⟩ := List.mem_iff_getElem.1 hk
    have hget : x.block i.die n = (x.dieBlocks i.die).blocks[n] := List.getD_eq_getElem _ _ hn
    rw [← hget] at hstate
    by_cases hnb : n = b
    · rw [hnb, hblock] at hstate
      rcases hstate with h | h <;> cases h
    · rw [hothers n hnb] at hstate
      rcases hstate with h | h
      · exact (hdone n hnb).1 h
      · exact (hdone n hnb).2 h
  have hlist' : (x.dieBlocks i.die).free = [] := hlist.trans hfree
  have hxw : x.installer.work = [.install i] := by rw [hinstaller]; exact hw
  have hxnone : NoPrograms x := by
    unfold NoPrograms
    rw [hxdies]
    exact hnone
  have hxsettled : x.settled := hfailed.trans hs
  obtain ⟨-, -, -, hfails, hsettled⟩ := State.installFails_alone hxw hxsettled hxnone.idleCalm .noSpace
  have hxshelf := x.failInstall_shelf i .noSpace
  rw [State.eraseTold_waiting hxw hi, State.enterProgramming_noSpace hnoOpen hlist' hnoErase]
  have htold {u : State} (h : NoticeStep (x.installFails i .noSpace) u) :=
    State.installFails_told (s := s) i .noSpace (NoticeStep.of_eq hnotices) h
  rw [hfails] at hsettled htold ⊢
  have hclose := State.finish_closes (State.becomeIdle_settled (x.failInstall_noPrograms i .noSpace) hsettled i.die)
  refine ⟨_, rfl, ?_, ?_, htold (State.finish_idle_noticeStep _ _)⟩
  · rw [hclose.block (State.failInstall_block hblock nofun nofun i .noSpace) nofun]
  · rw [hclose.installer, State.work_of_shelf hxshelf, hxw]
    rfl

/-! ### The end of a page's program -/

/-- What the front and the flash take of a program, before its result is handed on (R101, R102). -/
def State.programmed (s : State) (d : Nat) (p : Program) (ok : Bool) : State :=
  (s.setFront d p.block (p.page * 48 + p.first + p.count)).programFlash d p ok

theorem State.programmed_kept (s : State) (d : Nat) (p : Program) (ok : Bool) :
    (s.programmed d p ok).media.dies = s.media.dies ∧
    (s.programmed d p ok).media.frontFailed = s.media.frontFailed ∧ (s.programmed d p ok).catalogue = s.catalogue ∧
    (s.programmed d p ok).installer = s.installer ∧ (s.programmed d p ok).notices = s.notices ∧
    (s.programmed d p ok).delivery = s.delivery ∧ (s.programmed d p ok).clock = s.clock := by
  unfold State.programmed State.programFlash
  dsimp only
  split <;> exact ⟨rfl, rfl, rfl, rfl, rfl, rfl, rfl⟩

theorem State.programmed_fronts (s : State) (d : Nat) (p : Program) (ok : Bool) {e k : Nat}
    (h : ¬(e = d ∧ k = p.block)) : ((s.programmed d p ok).fronts e).getD k 0 = (s.fronts e).getD k 0 := by
  have hkept : (s.programmed d p ok).fronts e = (s.setFront d p.block (p.page * 48 + p.first + p.count)).fronts e :=
    congrArg (fun f : List (List Nat) => f.getD e []) (State.programFlash_fronts _ d p ok)
  rw [hkept, State.fronts_setFront_other h]

/-- The result of a page's program reaches the install that is programming (R163). -/
theorem State.handOn_page {x : State} {p : Program} {i : InstallItem} {rest : List WorkItem} (hp : p.purpose = .page)
    (hw : x.installer.work = .install i :: rest) (hi : i.phase = .programming) (d : Nat) (ok : Bool) :
    x.handOn d p ok = if ok then x.pageProgrammed i p
      else (x.updateBlock d p.block Block.programFailed).installFails i .program := by
  unfold State.handOn State.pageResult
  simp only [hp, hw, hi, if_true]

/-- A page of its block used, and pending (R11, R163). -/
theorem Block.pageUsed_addPending {k : Block} {next : Nat} (h : k.state = .opened next) :
    k.pageUsed.addPending = { state := if 127 ≤ next then .full else .opened (next + 1)
                              live := k.live, pending := k.pending + 1 } := by
  unfold Block.pageUsed
  rw [h] <;> rfl

theorem Block.programFailed_eq (k : Block) :
    k.programFailed = { k with state := if k.state = .erasing then .erasing else .worn } := by
  unfold Block.programFailed
  split
  next h => rw [← h]
  next => rfl

/-- The state in which the result of a program has been told, up to the hand-on (R101). -/
theorem exec_programEnds {s : State} {t d : Nat} {p : Program} {ok : Bool} {c : Instr}
    (hends : s.opEnds t d (.program p) ok c) {y : State} (hy : ((s.atTime t).programmed d p ok).handOn d p ok = y)
    (hsettled : (y.becomeIdle d).settled) : ∃ u, exec c s = .next u ∧ Closes d y u ∧ NoticeStep y u := by
  refine ⟨_, exec_opEnds hends, ?_⟩
  have hresult : (s.atTime t).longOpResult d (.program p) ok =
      (((s.atTime t).programmed d p ok).handOn d p ok).becomeIdle d := rfl
  rw [hresult, hy]
  exact ⟨State.finish_closes hsettled, y.finish_idle_noticeStep d⟩

theorem page_program_succeeds {s : State} {t d b : Nat} {ok : Bool} {c : Instr} {p : Program} {i : InstallItem}
    {rest : List WorkItem} {next : Nat} {k : Block} (hs : s.settled) (hdies : d < s.media.dies.length)
    (hb : b < (s.dieBlocks d).blocks.length) (hnone : NoPrograms s)
    (hends : s.opEnds t d (.program p) ok c) (hp : p.purpose = .page) (hpb : p.block = b)
    (hw : s.installer.work = .install i :: rest) (hi : i.phase = .programming) (hid : i.die = d) (hok : ok = true)
    (hopen : (s.block d b).state = .opened next)
    (hk : k = { state := if 127 ≤ next then .full else .opened (next + 1)
                live := (s.block d b).live, pending := (s.block d b).pending + 1 }) :
    (i.q + 1 < i.pages → ∃ u, exec c s = .next u ∧ u.block d b = k ∧
      u.installer.work = .install { i.programmed b p.page with phase := .reading } :: rest ∧
      u.delivery.installRead = some
        { address := i.source + 24576 * (i.q + 1), since := max s.clock t
          bytes := min 24576 (i.frames * (Format.ofByte i.format).frameSize - 24576 * (i.q + 1)) }) ∧
    (i.pages ≤ i.q + 1 → ∀ pos, pos = s.catalogue.appendPos → (s.fronts 0).getD (pos / 6144) 0 ≤ pos % 6144 →
      d ≠ 0 ∨ b ≠ pos / 6144 → ∃ u, exec c s = .next u ∧ u.block d b = k ∧
        u.installer.work = .install { i.programmed b p.page with phase := .appending } :: rest ∧
        ∃ op, op = LongOp.program { block := pos / 6144, page := pos % 6144 / 48, first := pos % 48, count := 1
                                    purpose := .log (i.programmed b p.page).logRecord } ∧
          (op ∈ (u.die 0).longOps ∨ (u.die 0).state = .busy op)) := by
  subst hpb hid
  obtain ⟨hxdies, hfailed, hcatalogue, hinstaller, -, -, hclock⟩ := (s.atTime t).programmed_kept i.die p ok
  have hfronts := fun e n => (s.atTime t).programmed_fronts i.die p ok (e := e) (k := n)
  have hresult := fun y => exec_programEnds hends (y := y)
  generalize (s.atTime t).programmed i.die p ok = x at *
  have hxw : x.installer.work = .install i :: rest := by rw [hinstaller]; exact hw
  have htable : x.catalogue.blockTable = s.catalogue.blockTable := congrArg Catalogue.blockTable hcatalogue
  have hused : (x.updateBlock i.die p.block fun b => b.pageUsed.addPending).block i.die p.block = k := by
    rw [State.block_updateBlock_same (by rwa [State.dieBlocks_congr htable]), State.block_congr htable,
      Block.pageUsed_addPending hopen, hk]
  have hkq : k.state ≠ .queued := by
    rw [hk]
    dsimp only
    split <;> nofun
  have hhand : x.handOn i.die p ok = x.pageProgrammed i p := by
    rw [State.handOn_page hp hxw hi, if_pos hok]
  have hxnone : NoPrograms x := by
    unfold NoPrograms
    rw [hxdies]
    exact hnone
  have hpages : (i.programmed p.block p.page).pages = i.pages := rfl
  refine ⟨fun hmore => ?_, fun hlast pos hpos hfront happart => ?_⟩
  · have hread : x.pageProgrammed i p = (x.updateBlock i.die p.block fun b => b.pageUsed.addPending).startReading
        (i.programmed p.block p.page) := if_pos hmore
    obtain ⟨u, hu, hclose, -⟩ := hresult _ (hhand.trans hread) (State.becomeIdle_settled
      (s := (x.updateBlock i.die p.block fun b => b.pageUsed.addPending).startReading (i.programmed p.block p.page))
      hxnone (hfailed.trans hs) i.die)
    refine ⟨u, hu, hclose.block hused hkq, hclose.installer ▸ ?_, hclose.delivery ▸ ?_⟩
    · show WorkItem.install _ :: x.installer.work.tail = _
      rw [hxw] <;> rfl
    · show some ({ bytes := _, address := _, since := x.clock } : InstallRead) = _
      rw [hclock] <;> rfl
  · have happend : x.pageProgrammed i p = ((x.updateBlock i.die p.block fun b => b.pageUsed.addPending).setHead
        (.install { i.programmed p.block p.page with phase := .appending })).appendRecord
          (i.programmed p.block p.page).logRecord := if_neg (Nat.not_lt.2 hlast)
    have hywork : ((x.updateBlock i.die p.block fun b => b.pageUsed.addPending).setHead
        (.install { i.programmed p.block p.page with phase := .appending })).installer.work =
          .install { i.programmed p.block p.page with phase := .appending } :: rest := by
      show WorkItem.install _ :: x.installer.work.tail = _
      rw [hxw] <;> rfl
    have hyused : ((x.updateBlock i.die p.block fun b => b.pageUsed.addPending).setHead
        (.install { i.programmed p.block p.page with phase := .appending })).block i.die p.block = k := hused
    have hymedia : ((x.updateBlock i.die p.block fun b => b.pageUsed.addPending).setHead
        (.install { i.programmed p.block p.page with phase := .appending })).media = x.media := rfl
    have hypos : ((x.updateBlock i.die p.block fun b => b.pageUsed.addPending).setHead
        (.install { i.programmed p.block p.page with phase := .appending })).catalogue.appendPos = pos := by
      rw [hpos]
      exact (congrArg Catalogue.appendPos hcatalogue :)
    generalize (x.updateBlock i.die p.block fun b => b.pageUsed.addPending).setHead
      (.install { i.programmed p.block p.page with phase := .appending }) = y at happend hywork hyused hymedia hypos
    have hydies : y.media.dies = s.media.dies := (congrArg Media.dies hymedia).trans hxdies
    have hynone : NoPrograms y := by
      unfold NoPrograms
      rw [hymedia]
      exact hxnone
    have hyfront : (y.fronts 0).getD (pos / 6144) 0 ≤ pos % 6144 / 48 * 48 + pos % 48 := by
      have hkept : (y.fronts 0).getD (pos / 6144) 0 = (s.fronts 0).getD (pos / 6144) 0 := by
        refine Eq.trans (congrArg (fun m : Media => (m.fronts.getD 0 []).getD (pos / 6144) 0) hymedia) ?_
        exact hfronts 0 (pos / 6144) fun ⟨hd0, hpb⟩ => happart.elim (fun h => h hd0.symm) fun h => h hpb.symm
      rw [hkept]
      omega
    have hjoined : y.appendRecord (i.programmed p.block p.page).logRecord = y.joinLongOp 0 (.program
        { block := pos / 6144, page := pos % 6144 / 48, first := pos % 48, count := 1
          purpose := .log (i.programmed p.block p.page).logRecord }) := by
      unfold State.appendRecord
      rw [hypos]
    have hstep := y.appendRecord_die (i.programmed p.block p.page).logRecord
    obtain ⟨hzfailed, hplaced⟩ := State.joinLongOp_becomeIdle (x := y) (d := i.die) (e := 0)
      (p := { block := pos / 6144, page := pos % 6144 / 48, first := pos % 48, count := 1
              purpose := .log (i.programmed p.block p.page).logRecord })
      (by rwa [hydies]) (by rw [hydies]; omega) (by rw [State.die_of_dies hydies]; exact State.opEnds_busy hends)
      hynone hyfront rfl
    rw [← hjoined] at hzfailed hplaced
    obtain ⟨u, hu, hclose, -⟩ := hresult _ (hhand.trans happend)
      (hzfailed.trans ((congrArg Media.frontFailed hymedia).trans (hfailed.trans hs)))
    refine ⟨u, hu, ?_, ?_, _, rfl, ?_⟩
    · refine hclose.block ?_ hkq
      rcases hstep.blocks i.die p.block with h | h
      · exact h.trans hyused
      · rw [h, hyused, Block.startErase_of_ne hkq]
    · rw [hclose.installer, hstep.media.installer, hywork]
    · rw [hclose.dies]
      exact hplaced

theorem page_program_fails {s : State} {t d b : Nat} {ok : Bool} {c : Instr} {p : Program} {i : InstallItem}
    (hs : s.settled) (hb : b < (s.dieBlocks d).blocks.length) (hnone : NoPrograms s)
    (hends : s.opEnds t d (.program p) ok c) (hp : p.purpose = .page) (hpb : p.block = b)
    (hw : s.installer.work = [.install i]) (hi : i.phase = .programming) (hok : ok = false) :
    ∃ u, exec c s = .next u ∧
      u.block d b = { state := if (s.block d b).state = .erasing then .erasing else .worn
                      live := (s.block d b).live, pending := 0 } ∧
      u.installer.work = [] ∧ u.catalogue.owed = s.catalogue.owed - 1 ∧
      u.catalogue.pendingInstalls = s.catalogue.pendingInstalls.erase i.region ∧
      s.told u { addressee := i.sender, body := .installFailed i.region .program, isOpen := false } := by
  subst hpb
  obtain ⟨hxdies, hfailed, hcatalogue, hinstaller, hnotices, -, -⟩ := (s.atTime t).programmed_kept d p ok
  have hresult := fun y => exec_programEnds hends (y := y)
  generalize (s.atTime t).programmed d p ok = x at *
  have hxw : x.installer.work = [.install i] := by rw [hinstaller]; exact hw
  have htable : x.catalogue.blockTable = s.catalogue.blockTable := congrArg Catalogue.blockTable hcatalogue
  have hblock : (x.updateBlock d p.block Block.programFailed).block d p.block = (s.block d p.block).programFailed := by
    rw [State.block_updateBlock_same (by rwa [State.dieBlocks_congr htable]), State.block_congr htable]
  have hhand : x.handOn d p ok = (x.updateBlock d p.block Block.programFailed).installFails i .program := by
    rw [State.handOn_page hp hxw hi, if_neg (by simp [hok])]
  have hyw : (x.updateBlock d p.block Block.programFailed).installer.work = [.install i] := hxw
  have hynone : NoPrograms (x.updateBlock d p.block Block.programFailed) := by
    unfold NoPrograms
    exact hxdies ▸ hnone
  have hysettled : (x.updateBlock d p.block Block.programFailed).settled := hfailed.trans hs
  have hynotices : (x.updateBlock d p.block Block.programFailed).notices = s.notices := hnotices
  have hyowed : (x.updateBlock d p.block Block.programFailed).catalogue.owed = s.catalogue.owed :=
    (congrArg Catalogue.owed hcatalogue :)
  have hyinstalls : (x.updateBlock d p.block Block.programFailed).catalogue.pendingInstalls =
      s.catalogue.pendingInstalls := (congrArg Catalogue.pendingInstalls hcatalogue :)
  generalize x.updateBlock d p.block Block.programFailed = y at *
  obtain ⟨-, -, -, hfails, hsettled⟩ := State.installFails_alone hyw hysettled hynone.idleCalm .program
  have hshelf := y.failInstall_shelf i .program
  have htold {u : State} (h : NoticeStep (y.installFails i .program) u) :=
    State.installFails_told (s := s) i .program (NoticeStep.of_eq hynotices) h
  rw [hfails] at hsettled htold hhand
  obtain ⟨u, hu, hclose, hnotice⟩ := hresult _ hhand
    (State.becomeIdle_settled (y.failInstall_noPrograms i .program) hsettled d)
  have hstate : (s.block d p.block).programFailed.state ≠ .full ∧ (s.block d p.block).programFailed.state ≠ .queued := by
    rw [Block.programFailed_eq]
    dsimp only
    split <;> exact ⟨nofun, nofun⟩
  obtain ⟨hfull, hqueued⟩ := hstate
  refine ⟨u, hu, ?_, ?_, ?_, ?_, htold hnotice⟩
  · rw [hclose.block (State.failInstall_block hblock hfull hqueued i .program) hqueued, Block.programFailed_eq]
  · rw [hclose.installer, State.work_of_shelf hshelf, hyw] <;> rfl
  · rw [hclose.owed, y.failInstall_owed, hyowed]
  · rw [hclose.installs, State.installs_of_shelf hshelf, hyinstalls]

/-- Settles O41: the run of the flash by `exec_opEnds_flash`, the rest by the case of the operation that ends. -/
theorem longOpsWriteTheFlash : Obligations.LongOpsWriteTheFlash := by
  refine ⟨fun s t d first b ok c hd hb => ⟨fun p hends hpb hfirst hdata => ?_, fun hends hfirst => ?_⟩,
    fun s t d b ok c hs hdies hd hb hnone => ⟨erase_frees_block hs hd hb hnone, ?_, ?_⟩⟩
  · subst hpb hfirst
    obtain ⟨u, hu, hvoices, hstation, hwatches, hclock, hfront, hflash⟩ := exec_opEnds_flash hends hd hb
    refine ⟨u, hu, hvoices, hstation, hwatches, hclock, hfront, fun a => ?_⟩
    rw [hflash]
    cases ok with
    | true => exact Flash.read_program_run _ hdata a
    | false => exact Flash.read_scramble_run _ _ _ _ _ a
  · subst hfirst
    obtain ⟨u, hu, hvoices, hstation, hwatches, hclock, hfront, hflash⟩ := exec_opEnds_flash hends hd hb
    refine ⟨u, hu, hvoices, hstation, hwatches, hclock, hfront, fun a => ?_⟩
    rw [hflash]
    cases ok with
    | true => exact Flash.read_erase_run _ _ _ a
    | false => exact Flash.read_scramble_run _ _ _ _ _ a
  · intro i rest hends hw hi hid hlog hopen hfree
    subst hid
    refine ⟨erase_opens_block hs hdies hd hb hnone hends hw hi hlog hopen hfree, fun hok hrest hdone => ?_⟩
    subst hrest
    exact erase_leaves_no_space hs hd hb hnone hends hw hi hlog hopen hfree hok hdone
  · intro p i rest hends hp hpb hw hi hid
    refine ⟨fun next hok hopen pos hpos k hk => ?_, fun hok hrest => ?_⟩
    · obtain ⟨hmore, hlast⟩ :=
        page_program_succeeds hs hdies hb hnone hends hp hpb hw hi hid hok hopen hk
      exact ⟨hmore, fun h => hlast h pos hpos⟩
    · subst hrest
      exact page_program_fails hs hb hnone hends hp hpb hw hi hok

end Sys2Proof.Machine
end

