-- ==== Sys2Proof/Proofs/LogAppends.lean ====
section
/-! PROOF. O42: what the end of a log record's program does to the table, the block counts, the notices and the
sector. -/

namespace Sys2Proof.Machine

/-! ### The append position and the block counts -/

theorem State.queueDead_appendPos (s : State) : s.queueDead.catalogue.appendPos = s.catalogue.appendPos := by
  unfold State.queueDead
  generalize dieNumbers = l
  induction l generalizing s with
  | nil => rfl
  | cons d l ih =>
    exact (ih _).trans (State.joinErases_die (s.updateDieBlocks d _) d _).appendPos

theorem State.failInstall_appendPos (s : State) (i : InstallItem) (reason : Reason) :
    (s.failInstall i reason).catalogue.appendPos = s.catalogue.appendPos := by
  have h : s.clearPending.queueDead.catalogue.appendPos = s.catalogue.appendPos :=
    s.clearPending.queueDead_appendPos
  unfold State.failInstall
  generalize s.clearPending.queueDead = y at h ⊢
  exact h

theorem pagesIn_cons (x : Extent) (extents : List Extent) (e b : Nat) :
    pagesIn (x :: extents) e b = (if e = x.die ∧ b = x.block then x.count else 0) + pagesIn extents e b := by
  unfold pagesIn
  by_cases h : e = x.die ∧ b = x.block
  · obtain ⟨rfl, rfl⟩ := h
    simp
  · have hx : (x.die == e && x.block == b) = false := by
      rw [Bool.eq_false_iff]
      intro hx
      simp only [Bool.and_eq_true, beq_iff_eq] at hx
      exact h ⟨hx.1.symm, hx.2.symm⟩
    simp [h, hx]

/-- A fold of block updates along an extent list, at one block. -/
theorem foldl_updateBlock_block (f : Extent → Block → Block) {e b : Nat} (extents : List Extent) :
    ∀ s : State, b < (s.dieBlocks e).blocks.length →
      (extents.foldl (fun s x => s.updateBlock x.die x.block (f x)) s).block e b =
        extents.foldl (fun k x => if e = x.die ∧ b = x.block then f x k else k) (s.block e b) := by
  induction extents with
  | nil => exact fun _ _ => rfl
  | cons x extents ih =>
    intro s hb
    rw [List.foldl_cons, List.foldl_cons, ih _ (by rwa [(s.updateBlock_free x.die x.block (f x) e).2])]
    congr 1
    split
    next h =>
      obtain ⟨rfl, rfl⟩ := h
      exact State.block_updateBlock_same hb _
    next h => exact State.block_updateBlock_other h _

/-- A region's pages go from pending to live in each block (R12). -/
theorem State.makeLive_block {s : State} {e b : Nat} (hb : b < (s.dieBlocks e).blocks.length) (extents : List Extent) :
    (s.makeLive extents).block e b = { s.block e b with live := (s.block e b).live + pagesIn extents e b
                                                        pending := (s.block e b).pending - pagesIn extents e b } := by
  refine (foldl_updateBlock_block (fun x k => { k with live := k.live + x.count, pending := k.pending - x.count })
    extents s hb).trans ?_
  generalize s.block e b = k
  induction extents generalizing k with
  | nil => rfl
  | cons x extents ih =>
    rw [List.foldl_cons, ih, pagesIn_cons]
    split <;> simp
    omega

/-- A removed region's pages leave the live count of each block (R12). -/
theorem State.loseLive_block {s : State} {e b : Nat} (hb : b < (s.dieBlocks e).blocks.length) (extents : List Extent) :
    (s.loseLive extents).block e b = { s.block e b with live := (s.block e b).live - pagesIn extents e b } := by
  refine (foldl_updateBlock_block (fun x k => { k with live := k.live - x.count }) extents s hb).trans ?_
  generalize s.block e b = k
  induction extents generalizing k with
  | nil => rfl
  | cons x extents ih =>
    rw [List.foldl_cons, ih, pagesIn_cons]
    split <;> simp
    omega

/-- What a change of the block table keeps of the rest. -/
structure TableStep (s t : State) : Prop where
  media     : t.media = s.media
  installer : t.installer = s.installer
  notices   : t.notices = s.notices
  port      : t.port = s.port
  regions   : t.catalogue.regions = s.catalogue.regions
  appendPos : t.catalogue.appendPos = s.catalogue.appendPos
  owed      : t.catalogue.owed = s.catalogue.owed
  installs  : t.catalogue.pendingInstalls = s.catalogue.pendingInstalls

theorem TableStep.refl (s : State) : TableStep s s := ⟨rfl, rfl, rfl, rfl, rfl, rfl, rfl, rfl⟩

theorem TableStep.foldl (f : Extent → Block → Block) (extents : List Extent) :
    ∀ s : State, TableStep s (extents.foldl (fun s x => s.updateBlock x.die x.block (f x)) s) := by
  induction extents with
  | nil => exact TableStep.refl
  | cons x extents ih =>
    intro s
    have h := ih (s.updateBlock x.die x.block (f x))
    exact ⟨h.media, h.installer, h.notices, h.port, h.regions, h.appendPos, h.owed, h.installs⟩

/-- What a change of the block table and the erases it makes keep of the rest (R12). -/
structure Requeued (s t : State) : Prop where
  calm      : NoPrograms s → NoPrograms t
  settled   : NoPrograms s → s.settled → t.settled
  installer : t.installer = s.installer
  notices   : t.notices = s.notices
  regions   : t.catalogue.regions = s.catalogue.regions
  appendPos : t.catalogue.appendPos = s.catalogue.appendPos
  owed      : t.catalogue.owed = s.catalogue.owed
  installs  : t.catalogue.pendingInstalls = s.catalogue.pendingInstalls

theorem TableStep.requeued {s t : State} (h : TableStep s t) : Requeued s t.queueDead := by
  have hstep := t.queueDead_step
  have hshelf := t.queueDead_shelf
  have hnone (hs : NoPrograms s) : NoPrograms t := by
    unfold NoPrograms
    rw [h.media]
    exact hs
  refine ⟨fun hs => (t.queueDead_calm (hnone hs)).2, fun hs hset => ?_, hstep.installer.trans h.installer,
    hstep.notices.trans h.notices, (State.regions_of_shelf hshelf).trans h.regions,
    t.queueDead_appendPos.trans h.appendPos, t.queueDead_owed.trans h.owed,
    (State.installs_of_shelf hshelf).trans h.installs⟩
  unfold State.settled
  rw [(t.queueDead_calm (hnone hs)).1, h.media]
  exact hset

/-! ### What the result of a log record does -/

/-- A log record's result told to its item, alone in the work list (R13, R106). -/
structure LogTold (x y : State) : Prop where
  calm      : NoPrograms x → NoPrograms y
  settled   : NoPrograms x → x.settled → y.settled
  appendPos : y.catalogue.appendPos = x.catalogue.appendPos
  owed      : y.catalogue.owed = x.catalogue.owed - 1
  work      : y.installer.work = []

/-- The INSTALL record is programmed (R12, R13, R164). -/
theorem State.installComplete_told {x : State} {i : InstallItem} (hw : x.installer.work = [.install i]) :
    LogTold x (x.installComplete i) ∧
    (x.installComplete i).catalogue.pendingInstalls = x.catalogue.pendingInstalls.erase i.region ∧
    (x.installComplete i).catalogue.regions = x.catalogue.regions ++
      [regionOf i.region i.format i.frames i.loopStart i.loopEnd i.extents] ∧
    (∀ e b k, e < 8 → b < (x.dieBlocks e).blocks.length →
      k = { x.block e b with live := (x.block e b).live + pagesIn i.extents e b
                             pending := (x.block e b).pending - pagesIn i.extents e b } →
      (x.installComplete i).block e b = k.queueDead ∨ (x.installComplete i).block e b = k.queueDead.startErase) ∧
    (x.notices.queue.length < 32 → (x.installComplete i).notices.queue = x.notices.queue ++
      [{ addressee := i.sender, body := .installed i.region, isOpen := false }]) := by
  unfold State.installComplete
  dsimp only
  generalize hw1 : x.setCatalogue { x.catalogue with regions := x.catalogue.regions ++
    [regionOf i.region i.format i.frames i.loopStart i.loopEnd i.extents] } = w
  have hcalm : NoPrograms x → NoPrograms w := fun h => by rw [← hw1]; exact h
  have hset : x.settled → w.settled := fun h => by rw [← hw1]; exact h
  have hblock (e b : Nat) : w.block e b = x.block e b := by rw [← hw1]; rfl
  have hlength (e : Nat) : (w.dieBlocks e).blocks.length = (x.dieBlocks e).blocks.length := by rw [← hw1]; rfl
  have hwork : w.installer.work = [.install i] := by rw [← hw1]; exact hw
  have hnotices : w.notices = x.notices := by rw [← hw1]; rfl
  have hregions : w.catalogue.regions = x.catalogue.regions ++
      [regionOf i.region i.format i.frames i.loopStart i.loopEnd i.extents] := by rw [← hw1]; rfl
  have hrest : w.catalogue.appendPos = x.catalogue.appendPos ∧ w.catalogue.owed = x.catalogue.owed ∧
      w.catalogue.pendingInstalls = x.catalogue.pendingInstalls := by rw [← hw1]; exact ⟨rfl, rfl, rfl⟩
  obtain ⟨hpos, howed, hinstalls⟩ := hrest
  have hz : Requeued w (w.makeLive i.extents).queueDead := TableStep.requeued (TableStep.foldl _ i.extents w)
  have hzblock (e b : Nat) (he : e < 8) := (w.makeLive i.extents).queueDead_block he b
  generalize (w.makeLive i.extents).queueDead = z at hz hzblock ⊢
  have hempty : ((((z.dropPending i.region).lowerOwed).queueNotice i.sender
      (.installed i.region)).endItem).installer.work = [] := by
    show z.installer.work.tail = []
    rw [hz.installer, hwork]
    rfl
  rw [State.nextItem_of_empty hempty]
  refine ⟨⟨fun h => hz.calm (hcalm h), fun h hs => hz.settled (hcalm h) (hset hs), hz.appendPos.trans hpos, ?_, hempty⟩,
    ?_, hz.regions.trans hregions, fun e b k he hb hk => ?_, fun hroom => ?_⟩
  · exact congrArg (· - 1) (hz.owed.trans howed)
  · exact congrArg (List.erase · i.region) (hz.installs.trans hinstalls)
  · have h := hzblock e b he
    rw [State.makeLive_block (by rwa [hlength]), hblock, ← hk] at h
    exact h
  · have hzn : z.notices = x.notices := hz.notices.trans hnotices
    have hq := State.queueNotice_room_eq (s := (z.dropPending i.region).lowerOwed) (body := .installed i.region) rfl
      (by show z.notices.queue.length < 32; rwa [hzn]) i.sender
    refine (congrArg (fun y : State => y.notices.queue) hq).trans ?_
    show z.notices.queue ++ _ = _
    rw [hzn]

/-- The VOID record is programmed (R12, R14, R168). -/
theorem State.voidComplete_told {x : State} {sender region : Nat} {r : Region}
    (hw : x.installer.work = [.reclaim sender region true]) (hr : x.region? region = some r) :
    LogTold x (x.voidComplete sender region) ∧
    (x.voidComplete sender region).catalogue.regions = x.catalogue.regions.filter (fun r => r.id != region) ∧
    (∀ e b k, e < 8 → b < (x.dieBlocks e).blocks.length →
      k = { x.block e b with live := (x.block e b).live - pagesIn r.extents e b } →
      (x.voidComplete sender region).block e b = k.queueDead ∨
        (x.voidComplete sender region).block e b = k.queueDead.startErase) ∧
    ∀ {s u : State}, NoticeStep s x → NoticeStep (x.voidComplete sender region) u →
      s.told u { addressee := sender, body := .reclaimed region, isOpen := false } := by
  unfold State.voidComplete
  rw [hr]
  dsimp only [Option.map_some, Option.getD_some]
  generalize hw1 : x.setCatalogue { x.catalogue with regions := x.catalogue.regions.filter (·.id != region) } = w
  have hcalm : NoPrograms x → NoPrograms w := fun h => by rw [← hw1]; exact h
  have hset : x.settled → w.settled := fun h => by rw [← hw1]; exact h
  have hblock (e b : Nat) : w.block e b = x.block e b := by rw [← hw1]; rfl
  have hlength (e : Nat) : (w.dieBlocks e).blocks.length = (x.dieBlocks e).blocks.length := by rw [← hw1]; rfl
  have hwork : w.installer.work = [.reclaim sender region true] := by rw [← hw1]; exact hw
  have hnotices : w.notices = x.notices := by rw [← hw1]; rfl
  have hregions : w.catalogue.regions = x.catalogue.regions.filter (·.id != region) := by rw [← hw1]; rfl
  have hrest : w.catalogue.appendPos = x.catalogue.appendPos ∧ w.catalogue.owed = x.catalogue.owed := by
    rw [← hw1]; exact ⟨rfl, rfl⟩
  obtain ⟨hpos, howed⟩ := hrest
  have hz : Requeued w (w.loseLive r.extents).queueDead := TableStep.requeued (TableStep.foldl _ r.extents w)
  have hzblock (e b : Nat) (he : e < 8) := (w.loseLive r.extents).queueDead_block he b
  generalize (w.loseLive r.extents).queueDead = z at hz hzblock ⊢
  have hempty : ((z.endReclaim).queueNotice sender (.reclaimed region)).installer.work = [] := by
    show z.installer.work.tail = []
    rw [hz.installer, hwork]
    rfl
  rw [State.nextItem_of_empty hempty]
  refine ⟨⟨fun h => hz.calm (hcalm h), fun h hs => hz.settled (hcalm h) (hset hs), hz.appendPos.trans hpos, ?_, hempty⟩,
    hz.regions.trans hregions, fun e b k he hb hk => ?_, fun {s u} hs hu => ?_⟩
  · exact congrArg (· - 1) (hz.owed.trans howed)
  · have h := hzblock e b he
    rw [State.loseLive_block (by rwa [hlength]), hblock, ← hk] at h
    exact h
  · refine State.told_queueNotice (t := z.endReclaim) _ _ rfl (hs.trans (NoticeStep.of_eq ?_)) hu
    exact hz.notices.trans hnotices

/-- The VOID record's program failed (R14, R168). -/
theorem State.voidFailed_told {x : State} {sender region : Nat} {r : Region}
    (hw : x.installer.work = [.reclaim sender region true]) (hr : x.region? region = some r) :
    LogTold x (x.voidFailed sender region) ∧
    (x.voidFailed sender region).region? region = some { r with state := .live } ∧
    ∀ {s u : State}, NoticeStep s x → NoticeStep (x.voidFailed sender region) u →
      s.told u { addressee := sender, body := .refused 11 .log region, isOpen := false } := by
  have hregion := x.region_updateRegion region region (fun r => { r with state := .live }) fun _ => rfl
  rw [hr] at hregion
  unfold State.voidFailed
  have hempty : (((x.updateRegion region fun r => { r with state := .live }).endReclaim).refuse sender 11 .log
      region).installer.work = [] := by
    show x.installer.work.tail = []
    rw [hw]
    rfl
  rw [State.nextItem_of_empty hempty]
  refine ⟨⟨id, fun _ => id, rfl, rfl, hempty⟩, ?_, fun {s u} hs hu => ?_⟩
  · refine Eq.trans hregion ?_
    simp
  · exact State.told_queueNotice (t := (x.updateRegion region fun r => { r with state := .live }).endReclaim) _ _ rfl
      (hs.trans (NoticeStep.of_eq rfl)) hu

/-- The install of a log record that failed (R13, R164, R165). -/
theorem State.installFails_logTold {x : State} {i : InstallItem} (hw : x.installer.work = [.install i])
    (hnone : NoPrograms x) (hs : x.settled) : LogTold x (x.installFails i .log) ∧
    (x.installFails i .log).catalogue.pendingInstalls = x.catalogue.pendingInstalls.erase i.region ∧
    (x.installFails i .log).catalogue.regions = x.catalogue.regions := by
  obtain ⟨-, -, -, hfails, hsettled⟩ := State.installFails_alone hw hs hnone.idleCalm .log
  have hshelf := x.failInstall_shelf i .log
  rw [hfails] at hsettled ⊢
  refine ⟨⟨fun _ => x.failInstall_noPrograms i .log, fun _ _ => hsettled, x.failInstall_appendPos i .log,
    x.failInstall_owed i .log, ?_⟩, State.installs_of_shelf hshelf, State.regions_of_shelf hshelf⟩
  rw [State.work_of_shelf hshelf, hw]
  rfl

theorem State.logResult_install {x : State} {i : InstallItem} {rest : List WorkItem}
    (hw : x.installer.work = .install i :: rest) (hi : i.phase = .appending) (ok : Bool) :
    x.logResult ok = if ok then x.advanceAppend.installComplete i else x.advanceAppend.installFails i .log := by
  have hw' : x.advanceAppend.installer.work = .install i :: rest := hw
  unfold State.logResult
  simp only [hw', hi, if_true]

theorem State.logResult_reclaim {x : State} {sender region : Nat} {rest : List WorkItem}
    (hw : x.installer.work = .reclaim sender region true :: rest) (ok : Bool) :
    x.logResult ok = if ok then x.advanceAppend.voidComplete sender region
      else x.advanceAppend.voidFailed sender region := by
  have hw' : x.advanceAppend.installer.work = .reclaim sender region true :: rest := hw
  unfold State.logResult
  simp only [hw']

/-- The state whose catalogue and item take a log record's result: only the flash, the fronts, the clock and the append
position differ from `s` (R13, R101). -/
structure Appended (s x : State) : Prop where
  calm      : NoPrograms s → NoPrograms x
  settled   : s.settled → x.settled
  installer : x.installer = s.installer
  notices   : x.notices = s.notices
  catalogue : x.catalogue = { s.catalogue with appendPos := s.catalogue.appendPos + 1 }

theorem Appended.block {s x : State} (h : Appended s x) (e b : Nat) : x.block e b = s.block e b :=
  State.block_congr (by rw [h.catalogue]) e b

theorem Appended.dieBlocks {s x : State} (h : Appended s x) (e : Nat) : x.dieBlocks e = s.dieBlocks e :=
  State.dieBlocks_congr (by rw [h.catalogue]) e

/-- The end of a log record's program, by what its item takes (R13, R106). -/
theorem exec_logEnds {s : State} {t d : Nat} {p : Program} {record : List Byte} {ok : Bool} {c : Instr}
    (hends : s.opEnds t d (.program p) ok c) (hp : p.purpose = .log record) (hs : s.settled) (hnone : NoPrograms s) :
    ∃ x : State, Appended s x.advanceAppend ∧ ∀ y, x.logResult ok = y → LogTold x.advanceAppend y →
      ∃ u, exec c s = .next u ∧ Closes d y u ∧ NoticeStep y u ∧ u.installer.work = [] ∧
        u.catalogue.appendPos = s.catalogue.appendPos + 1 ∧ u.catalogue.owed = s.catalogue.owed - 1 := by
  obtain ⟨hdies, hfailed, hcatalogue, hinstaller, hnotices, -, -⟩ := (s.atTime t).programmed_kept d p ok
  have hresult := fun y => exec_programEnds hends (y := y)
  generalize (s.atTime t).programmed d p ok = x at *
  have happended : Appended s x.advanceAppend := by
    refine ⟨fun h => ?_, fun h => hfailed.trans h, hinstaller, hnotices, ?_⟩
    · unfold NoPrograms
      exact hdies ▸ h
    · unfold State.advanceAppend
      rw [hcatalogue]
      rfl
  have hhand : x.handOn d p ok = x.logResult ok := by
    unfold State.handOn
    rw [hp]
  refine ⟨x, happended, fun y hy htold => ?_⟩
  have hcalm := happended.calm hnone
  obtain ⟨u, hu, hclose, hnotice⟩ := hresult y (hhand.trans hy)
    (State.becomeIdle_settled (htold.calm hcalm) (htold.settled hcalm (happended.settled hs)) d)
  refine ⟨u, hu, hclose, hnotice, by rw [hclose.installer, htold.work], ?_, ?_⟩
  · rw [hclose.appendPos, htold.appendPos, happended.catalogue]
  · rw [hclose.owed, htold.owed, happended.catalogue]

/-! ### The blocks after the record -/

/-- A FULL block left without pages becomes QUEUED, and its erase may have begun (R11, R12). -/
theorem Closes.block_dead {d e b : Nat} {y u : State} (h : Closes d y u) {k : Block} (hk : k.dead = true)
    (hy : y.block e b = k.queueDead ∨ y.block e b = k.queueDead.startErase) :
    (u.block e b).live = 0 ∧ (u.block e b).pending = 0 ∧
      ((u.block e b).state = .queued ∨ (u.block e b).state = .erasing) := by
  obtain ⟨-, hlive, hpending⟩ := (Block.dead_iff k).1 hk
  have hqueued : k.queueDead = { k with state := .queued } := if_pos hk
  have hstarted : k.queueDead.startErase = { k with state := .erasing } := by rw [hqueued]; rfl
  have hu : u.block e b = k.queueDead ∨ u.block e b = k.queueDead.startErase := by
    rcases hy with hy | hy <;> rcases h.blocks e b with h | h <;> rw [hy] at h
    · exact .inl h
    · exact .inr h
    · exact .inr h
    · exact .inr (h.trans (Block.startErase_startErase _))
  rcases hu with hu | hu
  · rw [hu, hqueued]
    exact ⟨hlive, hpending, .inl rfl⟩
  · rw [hu, hstarted]
    exact ⟨hlive, hpending, .inr rfl⟩

/-- Another block that is not QUEUED has the counts of the record (R12). -/
theorem Closes.block_live {d e b : Nat} {y u : State} (h : Closes d y u) {k : Block} (hk : ¬k.dead = true)
    (hq : k.state ≠ .queued) (hy : y.block e b = k.queueDead ∨ y.block e b = k.queueDead.startErase) :
    u.block e b = k := by
  rw [Block.queueDead_of_live (Bool.eq_false_iff.2 hk), Block.startErase_of_ne hq, or_self] at hy
  exact h.block hy hq

/-! ### The three results -/

theorem log_sector_passed_over {s : State} {t d : Nat} {p : Program} {record : List Byte} {ok : Bool} {c : Instr}
    (hends : s.opEnds t d (.program p) ok c) (hp : p.purpose = .log record) (hok : ok = false) (hcount : 0 < p.count) :
    ∃ u, exec c s = .next u ∧ ∀ n bad, n = sectorNumber d p.block (p.page * 48 + p.first) →
      ¬u.media.flash.readsErased n bad ∧ u.media.flash.recordAt n bad = .other := by
  refine ⟨_, exec_opEnds hends, fun n bad hn => ?_⟩
  have hflash := ((s.atTime t).longOpResult_flash d (.program p) ok).1
  have hafter : (s.atTime t).flashAfter d (.program p) ok =
      s.media.flash.scramble n p.count s.stamp .passedOver := by
    subst hn hok
    show (State.programFlash _ d p false).media.flash = _
    unfold State.programFlash Program.failedCause
    rw [hp]
    rfl
  have hcause : ((s.atTime t).longOpResult d (.program p) ok).finish.media.flash.cause? n = some .passedOver := by
    rw [hflash, hafter]
    exact Flash.cause_scramble _ _ _ _ _ _ ⟨le_rfl, by omega⟩
  exact ⟨fun h => h.2.1 hcause, Flash.recordAt_passedOver hcause bad⟩

/-- The end of an INSTALL record's program (R12, R13, R164). -/
theorem install_record_ends {s : State} {t d : Nat} {p : Program} {record : List Byte} {ok : Bool} {c : Instr}
    {i : InstallItem} (hends : s.opEnds t d (.program p) ok c) (hp : p.purpose = .log record) (hs : s.settled)
    (hnone : NoPrograms s) (hw : s.installer.work = [.install i]) (hi : i.phase = .appending) :
    ∃ u, exec c s = .next u ∧
      u.catalogue.appendPos = s.catalogue.appendPos + 1 ∧ u.catalogue.owed = s.catalogue.owed - 1 ∧
      u.catalogue.pendingInstalls = s.catalogue.pendingInstalls.erase i.region ∧
      u.installer.work = [] ∧
      (ok = true → u.catalogue.regions = s.catalogue.regions ++
          [regionOf i.region i.format i.frames i.loopStart i.loopEnd i.extents] ∧
        (∀ e b live pending, e < 8 → b < (s.dieBlocks e).blocks.length →
          live = (s.block e b).live + pagesIn i.extents e b →
          pending = (s.block e b).pending - pagesIn i.extents e b →
          ((s.block e b).state = .full ∧ live = 0 ∧ pending = 0 →
            (u.block e b).live = 0 ∧ (u.block e b).pending = 0 ∧
              ((u.block e b).state = .queued ∨ (u.block e b).state = .erasing)) ∧
          (¬((s.block e b).state = .full ∧ live = 0 ∧ pending = 0) → (s.block e b).state ≠ .queued →
            u.block e b = { s.block e b with live := live, pending := pending })) ∧
        (s.notices.queue.length < 32 → u.notices.queue = s.notices.queue ++
          [{ addressee := i.sender, body := .installed i.region, isOpen := false }])) ∧
      (ok = false → u.catalogue.regions = s.catalogue.regions ∧
        s.told u { addressee := i.sender, body := .installFailed i.region .log, isOpen := false }) := by
  obtain ⟨x, happended, hends⟩ := exec_logEnds hends hp hs hnone
  have hxw : x.advanceAppend.installer.work = [.install i] := by rw [happended.installer, hw]
  have hresult := State.logResult_install (x := x) hxw hi ok
  cases ok with
  | true =>
    obtain ⟨htold, hinstalls, hregions, hblocks, hnotices⟩ := State.installComplete_told hxw
    have hy := hresult.trans (if_pos rfl)
    generalize x.advanceAppend.installComplete i = y at *
    obtain ⟨u, hu, hclose, -, hwork, hpos, howed⟩ := hends y hy htold
    refine ⟨u, hu, hpos, howed, ?_, hwork, fun _ => ⟨?_, ?_, fun hroom => ?_⟩, nofun⟩
    · rw [hclose.installs]
      exact hinstalls.trans (by rw [happended.catalogue])
    · rw [hclose.regions]
      exact hregions.trans (by rw [happended.catalogue])
    · intro e b live pending he hb hlive hpending
      have hy := hblocks e b { s.block e b with live := live, pending := pending } he
        (by rwa [happended.dieBlocks]) (by rw [happended.block, hlive, hpending])
      have hdead : ({ s.block e b with live := live, pending := pending } : Block).dead = true ↔
          (s.block e b).state = .full ∧ live = 0 ∧ pending = 0 := Block.dead_iff _
      exact ⟨fun h => hclose.block_dead (hdead.2 h) hy,
        fun h hq => hclose.block_live (fun h' => h (hdead.1 h')) hq hy⟩
    · rw [hclose.notices]
      have hq := hnotices (by rwa [happended.notices])
      rw [happended.notices] at hq
      exact hq
  | false =>
    obtain ⟨htold, hinstalls, hregions⟩ :=
      State.installFails_logTold hxw (happended.calm hnone) (happended.settled hs)
    have hy := hresult.trans (if_neg Bool.false_ne_true)
    have hsent {u : State} (h : NoticeStep (x.advanceAppend.installFails i .log) u) :=
      State.installFails_told (s := s) i .log (NoticeStep.of_eq happended.notices) h
    generalize x.advanceAppend.installFails i .log = y at *
    obtain ⟨u, hu, hclose, hnotice, hwork, hpos, howed⟩ := hends y hy htold
    refine ⟨u, hu, hpos, howed, ?_, hwork, nofun, fun _ => ⟨?_, ?_⟩⟩
    · rw [hclose.installs]
      exact hinstalls.trans (by rw [happended.catalogue])
    · rw [hclose.regions]
      exact hregions.trans (by rw [happended.catalogue])
    · exact hsent hnotice

/-- The end of a VOID record's program (R12, R14, R168). -/
theorem void_record_ends {s : State} {t d : Nat} {p : Program} {record : List Byte} {ok : Bool} {c : Instr}
    {sender region : Nat} {r : Region} (hends : s.opEnds t d (.program p) ok c) (hp : p.purpose = .log record)
    (hs : s.settled) (hnone : NoPrograms s) (hw : s.installer.work = [.reclaim sender region true])
    (hr : s.region? region = some r) :
    ∃ u, exec c s = .next u ∧
      u.catalogue.appendPos = s.catalogue.appendPos + 1 ∧ u.catalogue.owed = s.catalogue.owed - 1 ∧
      u.installer.work = [] ∧
      (ok = true → u.catalogue.regions = s.catalogue.regions.filter (fun x => x.id != region) ∧
        s.told u { addressee := sender, body := .reclaimed region, isOpen := false } ∧
        ∀ e b live, e < 8 → (s.block e b).state = .full →
          live = (s.block e b).live - pagesIn r.extents e b →
          (live = 0 ∧ (s.block e b).pending = 0 → (u.block e b).live = 0 ∧
            ((u.block e b).state = .queued ∨ (u.block e b).state = .erasing)) ∧
          (¬(live = 0 ∧ (s.block e b).pending = 0) → u.block e b = { s.block e b with live := live })) ∧
      (ok = false → u.region? region = some { r with state := .live } ∧
        s.told u { addressee := sender, body := .refused 11 .log region, isOpen := false }) := by
  obtain ⟨x, happended, hends⟩ := exec_logEnds hends hp hs hnone
  have hxw : x.advanceAppend.installer.work = [.reclaim sender region true] := by rw [happended.installer, hw]
  have hxr : x.advanceAppend.region? region = some r := by
    unfold State.region? at hr ⊢
    rw [happended.catalogue]
    exact hr
  have hresult := State.logResult_reclaim (x := x) hxw ok
  cases ok with
  | true =>
    obtain ⟨htold, hregions, hblocks, hsent⟩ := State.voidComplete_told hxw hxr
    have hy := hresult.trans (if_pos rfl)
    generalize x.advanceAppend.voidComplete sender region = y at *
    obtain ⟨u, hu, hclose, hnotice, hwork, hpos, howed⟩ := hends y hy htold
    refine ⟨u, hu, hpos, howed, hwork, fun _ => ⟨?_, hsent (.of_eq happended.notices) hnotice, ?_⟩, nofun⟩
    · rw [hclose.regions]
      exact hregions.trans (by rw [happended.catalogue])
    · intro e b live he hfull hlive
      have hb : b < (s.dieBlocks e).blocks.length := Nat.lt_of_not_le fun hle => by
        have hunset : s.block e b = Block.unset := List.getD_eq_default _ _ hle
        rw [hunset] at hfull
        cases hfull
      have hy := hblocks e b { s.block e b with live := live } he
        (by rwa [happended.dieBlocks]) (by rw [happended.block, hlive])
      have hdead : ({ s.block e b with live := live } : Block).dead = true ↔
          live = 0 ∧ (s.block e b).pending = 0 := by
        rw [Block.dead_iff]
        exact and_iff_right hfull
      refine ⟨fun h => ?_, fun h => ?_⟩
      · obtain ⟨hzero, -, hstate⟩ := hclose.block_dead (hdead.2 h) hy
        exact ⟨hzero, hstate⟩
      · exact hclose.block_live (fun h' => h (hdead.1 h')) (fun hq => BlockState.noConfusion (hq.symm.trans hfull)) hy
  | false =>
    obtain ⟨htold, hregion, hsent⟩ := State.voidFailed_told hxw hxr
    have hy := hresult.trans (if_neg Bool.false_ne_true)
    generalize x.advanceAppend.voidFailed sender region = y at *
    obtain ⟨u, hu, hclose, hnotice, hwork, hpos, howed⟩ := hends y hy htold
    refine ⟨u, hu, hpos, howed, hwork, nofun, fun _ => ⟨?_, hsent (.of_eq happended.notices) hnotice⟩⟩
    unfold State.region? at hregion ⊢
    rw [hclose.regions]
    exact hregion

/-- Settles O42, by the result of the record and the item it belongs to. -/
theorem logAppendInstallsTheRegion : Obligations.LogAppendInstallsTheRegion :=
  fun _ _ _ _ _ _ _ hends hp hs hnone => ⟨log_sector_passed_over hends hp,
    fun _ hw hi => install_record_ends hends hp hs hnone hw hi,
    fun _ _ _ hw hr => void_record_ends hends hp hs hnone hw hr⟩

end Sys2Proof.Machine
end

