-- ==== Sys2Proof/Proofs/Books.lean ====
section
/-! SUPPORT. The page law within a step (O55): the counts of the block table and the long operations of the dies, apart
from the operation that has just ended and with the programs just turned away. -/

namespace Sys2Proof.Machine

/-! ### The long operations of a step -/

/-- The long operation under way on a die, other than the one that has just ended on die `skip`. -/
def State.under (s : State) (skip : Option Nat) (d : Nat) : Option LongOp :=
  if skip = some d then none else (s.die d).state.longOp?

/-- The long operations of a die, other than the one that has just ended on die `skip`. -/
def State.opsBut (s : State) (skip : Option Nat) (d : Nat) : List LongOp :=
  (s.under skip d).toList ++ (s.die d).longOps

/-- The page programs among them. -/
def State.pagesAt (s : State) (skip : Option Nat) (d : Nat) : List Program :=
  (s.opsBut skip d).filterMap LongOp.page?

/-- The erases among them. -/
def State.erasesAt (s : State) (skip : Option Nat) (d : Nat) : List Nat :=
  (s.opsBut skip d).filterMap LongOp.erases?

/-- The page programs turned away whose failure is still to be handed on (R102). -/
def State.failedPages (s : State) : List (Nat × Program) :=
  s.media.frontFailed.filter fun x => decide (x.2.purpose = .page)

/-- The page program of an ended install, which holds the page buffer (R166). -/
def State.holdsFor (s : State) (d : Nat) (p : Program) : Prop :=
  s.installer.held = true ∧ ((s.block d p.block).state = .erasing ∨ ∃ next, (s.block d p.block).state = .opened next)

/-- The page law within a step taken outside STARTING, with `running` the extents whose pages are pending. -/
structure State.Booked (s : State) (skip : Option Nat) (running : List Extent) : Prop where
  live     : ∀ d b k, d < 8 → s.lists d b k → k.state ≠ .log →
    k.live = pagesIn (s.catalogue.regions.flatMap (·.extents)) d b
  pending  : ∀ d b k, s.lists d b k → k.state ≠ .log → k.pending = pagesIn running d b
  dead     : ∀ d b k, s.lists d b k → k.state = .queued ∨ k.state = .erasing → k.live = 0 ∧ k.pending = 0
  erases   : ∀ d, ((s.erasesAt skip d).filter fun b => (s.block d b).state != .log).Nodup ∧
    ∀ b ∈ s.erasesAt skip d, (s.block d b).state = .log ∨ (s.block d b).state = .queued ∨
      (s.block d b).state = .erasing
  free     : ∀ d, (s.dieBlocks d).free.Nodup ∧ ∀ b ∈ (s.dieBlocks d).free, (s.block d b).state = .free
  one      : ∀ d, (s.pagesAt skip d).length + s.failedPages.length ≤ 1
  apart    : ∀ d e, d ≠ e → s.pagesAt skip d ≠ [] → s.pagesAt skip e = []
  queued   : ∀ d, ∀ p ∈ (s.die d).longOps.filterMap LongOp.page?, s.installsBy d p
  failed   : ∀ x ∈ s.failedPages, s.installsBy x.1 x.2
  underWay : ∀ d p, (s.under skip d).bind LongOp.page? = some p → s.installsBy d p ∨ s.holdsFor d p

/-- What the page law says of the head of the work list (R162, R163, R166). -/
structure State.HeadKnown (s : State) : Prop where
  held    : s.installer.held = true → ∀ i, s.installer.work.head? = some (.install i) → i.phase = .waiting
  reading : s.delivery.installRead.isSome → s.headIn .reading

/-! ### The law between steps -/

theorem flatMap_eq_nil_iff_getD {α β : Type} {f : α → List β} {x : α} (hx : f x = []) :
    ∀ l : List α, l.flatMap f = [] ↔ ∀ d, f (l.getD d x) = []
  | [] => by simp [hx]
  | a :: l => by
    rw [List.flatMap_cons, List.append_eq_nil_iff, flatMap_eq_nil_iff_getD hx l]
    exact ⟨fun h d => by cases d with | zero => exact h.1 | succ d => exact h.2 d,
      fun h => ⟨h 0, fun d => h (d + 1)⟩⟩

/-- At most one entry in all the lists that a function gives of a list's elements. -/
theorem length_flatMap_le_one_iff {α β : Type} {f : α → List β} {x : α} (hx : f x = []) : ∀ l : List α,
    (l.flatMap f).length ≤ 1 ↔ (∀ d, (f (l.getD d x)).length ≤ 1) ∧
      ∀ d e, d ≠ e → f (l.getD d x) ≠ [] → f (l.getD e x) = []
  | [] => by simp [hx]
  | a :: l => by
    have ih := length_flatMap_le_one_iff hx l
    have hnil := flatMap_eq_nil_iff_getD hx l
    rw [List.flatMap_cons, List.length_append]
    constructor
    · intro h
      obtain ⟨hlen, hapart⟩ := ih.1 (by omega)
      have hhead (ha : f a ≠ []) : ∀ d, f (l.getD d x) = [] := by
        have := List.length_pos_iff.2 ha
        exact hnil.1 (List.eq_nil_of_length_eq_zero (by omega))
      refine ⟨fun d => ?_, fun d e hde hd => ?_⟩
      · cases d with
        | zero => exact (Nat.le_add_right _ _).trans h
        | succ d => exact hlen d
      · cases d with
        | zero =>
          cases e with
          | zero => exact absurd rfl hde
          | succ e => exact hhead hd e
        | succ d =>
          cases e with
          | zero =>
            show f a = []
            by_contra ha
            exact hd (hhead ha d)
          | succ e => exact hapart d e (fun h => hde (by rw [h])) hd
    · rintro ⟨hlen, hapart⟩
      have hrest : (l.flatMap f).length ≤ 1 :=
        ih.2 ⟨fun d => hlen (d + 1), fun d e hde hd => hapart (d + 1) (e + 1) (by omega) hd⟩
      by_cases ha : f a = []
      · rw [ha]
        simpa using hrest
      · have hnone : l.flatMap f = [] := hnil.2 fun d => hapart 0 (d + 1) (by omega) ha
        rw [hnone]
        exact hlen 0

theorem State.under_none (s : State) (d : Nat) : s.under none d = (s.die d).state.longOp? := if_neg nofun

theorem State.opsBut_none (s : State) (d : Nat) : s.opsBut none d = (s.die d).ops := by
  unfold State.opsBut
  rw [s.under_none]
  rfl

/-- The head of a law that holds between steps. -/
theorem State.pagesLawful.booked {s : State} (h : s.pagesLawful) (hs : s.settled) (hst : s.station.state ≠ .starting) :
    s.Booked none s.runningExtents ∧ s.IdleFree ∧ s.HeadKnown := by
  obtain ⟨hone, hapart⟩ := (length_flatMap_le_one_iff (f := fun die : Die => die.ops.filterMap LongOp.page?)
    (x := Die.reset) rfl s.media.dies).1 h.onePage
  have hfailed : s.failedPages = [] := by
    unfold State.failedPages
    rw [hs]
    rfl
  refine ⟨⟨h.live hst, h.pending, h.dead, fun d => ?_, h.free, fun d => ?_, fun d e hde => ?_, h.queued, ?_, ?_⟩,
    h.idle, h.held, h.reading⟩
  · obtain ⟨hnodup, hstate⟩ := h.erases d
    unfold State.erasesAt
    rw [s.opsBut_none]
    refine ⟨hnodup, fun b hb => ?_⟩
    by_cases hlog : (s.block d b).state = .log
    · exact .inl hlog
    · exact .inr (hstate b (List.mem_filter.2 ⟨hb, by simpa using hlog⟩))
  · unfold State.pagesAt
    rw [s.opsBut_none, hfailed]
    exact hone d
  · unfold State.pagesAt
    rw [s.opsBut_none, s.opsBut_none]
    exact hapart d e hde
  · rw [hfailed]
    exact nofun
  · intro d p hp
    rw [s.under_none] at hp
    exact h.underWay d p hp

theorem State.Booked.pagesLawful {s : State} (h : s.Booked none s.runningExtents) (hidle : s.IdleFree)
    (hhead : s.HeadKnown) (hst : s.station.state ≠ .starting) : s.pagesLawful where
  live _ := h.live
  pending := h.pending
  dead := h.dead
  erases d := by
    obtain ⟨hnodup, hstate⟩ := h.erases d
    unfold State.erasesAt at hnodup hstate
    rw [s.opsBut_none] at hnodup hstate
    refine ⟨hnodup, fun b hb => ?_⟩
    obtain ⟨hmem, hlog⟩ := List.mem_filter.1 hb
    exact (hstate b hmem).resolve_left (by simpa using hlog)
  free := h.free
  idle := hidle
  onePage := by
    refine (length_flatMap_le_one_iff (f := fun die : Die => die.ops.filterMap LongOp.page?)
      (x := Die.reset) rfl s.media.dies).2 ⟨fun d => ?_, fun d e hde hd => ?_⟩
    · have hd := h.one d
      unfold State.pagesAt at hd
      rw [s.opsBut_none] at hd
      exact (Nat.le_add_right _ _).trans hd
    · have he := h.apart d e hde
      unfold State.pagesAt at he
      rw [s.opsBut_none, s.opsBut_none] at he
      exact he hd
  queued := h.queued
  underWay d p hp := h.underWay d p (by rw [s.under_none]; exact hp)
  held := hhead.held
  reading := hhead.reading
  starting hs := absurd hs hst

/-! ### Steps that leave the counts and the long operations -/

theorem State.under_congr {s t : State} (hwork : ∀ d, (t.die d).work = (s.die d).work) (skip : Option Nat) (d : Nat) :
    t.under skip d = s.under skip d := by
  unfold State.under
  rw [show (t.die d).state.longOp? = (s.die d).state.longOp? from congrArg Prod.fst (hwork d)]

theorem State.opsBut_congr {s t : State} (hwork : ∀ d, (t.die d).work = (s.die d).work) (skip : Option Nat) (d : Nat) :
    t.opsBut skip d = s.opsBut skip d := by
  unfold State.opsBut
  rw [State.under_congr hwork, show (t.die d).longOps = (s.die d).longOps from congrArg Prod.snd (hwork d)]

theorem State.lists_congr {s t : State} (htable : t.catalogue.blockTable = s.catalogue.blockTable) (d b : Nat) (k : Block) :
    t.lists d b k ↔ s.lists d b k := by
  unfold State.lists
  rw [State.dieBlocks_congr htable]

theorem State.installsBy_congr {s t : State} (hhead : t.installer.work.head? = s.installer.work.head?) {d : Nat}
    {p : Program} (hblock : ∀ n, (s.block d p.block).state = .opened n → ∃ m, (t.block d p.block).state = .opened m)
    (h : s.installsBy d p) : t.installsBy d p := by
  obtain ⟨i, next, hi, hphase, hdie, hnext⟩ := h
  obtain ⟨m, hm⟩ := hblock next hnext
  exact ⟨i, m, hhead.trans hi, hphase, hdie, hm⟩

theorem State.Booked.same {s t : State} {skip : Option Nat} {running : List Extent} (h : s.Booked skip running)
    (htable : t.catalogue.blockTable = s.catalogue.blockTable)
    (hext : t.catalogue.regions.flatMap (·.extents) = s.catalogue.regions.flatMap (·.extents))
    (hhead : t.installer.work.head? = s.installer.work.head?) (hheld : t.installer.held = s.installer.held)
    (hwork : ∀ d, (t.die d).work = (s.die d).work) (hfailed : t.media.frontFailed = s.media.frontFailed) :
    t.Booked skip running := by
  have hlists := State.lists_congr htable
  have hblock := State.block_congr htable
  have hops := State.opsBut_congr hwork skip
  have hpages (d : Nat) : t.pagesAt skip d = s.pagesAt skip d := by unfold State.pagesAt; rw [hops]
  have herases (d : Nat) : t.erasesAt skip d = s.erasesAt skip d := by unfold State.erasesAt; rw [hops]
  have hfails : t.failedPages = s.failedPages := by unfold State.failedPages; rw [hfailed]
  have hlong (d : Nat) : (t.die d).longOps = (s.die d).longOps := congrArg Prod.snd (hwork d)
  have hby {d : Nat} {p : Program} : s.installsBy d p → t.installsBy d p :=
    State.installsBy_congr hhead fun n hn => ⟨n, by rw [hblock]; exact hn⟩
  refine ⟨fun d b k hd hk hlog => ?_, fun d b k hk hlog => ?_, fun d b k hk => ?_, fun d => ?_, fun d => ?_, fun d => ?_,
    fun d e hde => ?_, fun d p hp => ?_, fun x hx => ?_, fun d p hp => ?_⟩
  · rw [hext]
    exact h.live d b k hd ((hlists d b k).1 hk) hlog
  · exact h.pending d b k ((hlists d b k).1 hk) hlog
  · exact h.dead d b k ((hlists d b k).1 hk)
  · simp only [herases, hblock]
    exact h.erases d
  · simp only [State.dieBlocks_congr htable, hblock]
    exact h.free d
  · rw [hpages, hfails]
    exact h.one d
  · rw [hpages, hpages]
    exact h.apart d e hde
  · rw [hlong] at hp
    exact hby (h.queued d p hp)
  · rw [hfails] at hx
    exact hby (h.failed x hx)
  · rw [State.under_congr hwork] at hp
    refine (h.underWay d p hp).imp hby fun ⟨hold, hstate⟩ => ⟨hheld.trans hold, ?_⟩
    rw [hblock]
    exact hstate

/-- A change of block states that moves FULL blocks without pages to QUEUED and QUEUED ones to ERASING, and no page
count (R11, R12). -/
def Block.Fades (k k' : Block) : Prop :=
  k'.live = k.live ∧ k'.pending = k.pending ∧
    (k'.state = k.state ∨ (k'.state = .queued ∨ k'.state = .erasing) ∧
      (k.state = .queued ∨ k.state = .full ∧ k.live = 0 ∧ k.pending = 0))

theorem Block.Fades.refl (k : Block) : k.Fades k := ⟨rfl, rfl, .inl rfl⟩

theorem Block.startErase_fades (k : Block) : k.Fades k.startErase := by
  by_cases h : k.state = .queued
  · rw [show k.startErase = { k with state := .erasing } from if_pos h]
    exact ⟨rfl, rfl, .inr ⟨.inr rfl, .inl h⟩⟩
  · rw [Block.startErase_of_ne h]
    exact .refl k

theorem Block.queueDead_fades (k : Block) : k.Fades k.queueDead := by
  by_cases h : k.dead = true
  · rw [show k.queueDead = { k with state := .queued } from if_pos h]
    exact ⟨rfl, rfl, .inr ⟨.inl rfl, .inr ((Block.dead_iff k).1 h)⟩⟩
  · rw [Block.queueDead_of_live (Bool.eq_false_iff.2 h)]
    exact .refl k

/-- A step that changes block states so, and nothing else that the law speaks of. -/
theorem State.Booked.faded {s t : State} {skip : Option Nat} {running : List Extent} (h : s.Booked skip running)
    (hblocks : ∀ d b, (s.block d b).Fades (t.block d b))
    (hlength : ∀ d, (t.dieBlocks d).blocks.length = (s.dieBlocks d).blocks.length)
    (hfree : ∀ d, (t.dieBlocks d).free = (s.dieBlocks d).free)
    (hext : t.catalogue.regions.flatMap (·.extents) = s.catalogue.regions.flatMap (·.extents))
    (hinst : t.installer = s.installer)
    (hdies : t.media.dies = s.media.dies) (hfailed : t.media.frontFailed = s.media.frontFailed) :
    t.Booked skip running := by
  have hlisted {d b : Nat} {k : Block} (hk : t.lists d b k) :
      s.lists d b (s.block d b) ∧ (s.block d b).Fades k := by
    have hb : b < (s.dieBlocks d).blocks.length := hlength d ▸ (List.getElem?_eq_some_iff.1 hk).1
    refine ⟨?_, State.lists_block hk ▸ hblocks d b⟩
    unfold State.lists State.block
    rw [List.getD_eq_getElem _ _ hb]
    exact List.getElem?_eq_getElem hb
  have hlog (d b : Nat) : (t.block d b).state = .log ↔ (s.block d b).state = .log := by
    obtain ⟨-, -, hsame | ⟨hto, hfrom⟩⟩ := hblocks d b
    · rw [hsame]
    · constructor
      · intro hl
        rcases hto with hto | hto <;> rw [hto] at hl <;> cases hl
      · intro hl
        rcases hfrom with hfrom | ⟨hfrom, -⟩ <;> rw [hfrom] at hl <;> cases hl
  have hkeeps {d b : Nat} {x : BlockState} (hx : (s.block d b).state = x) (hq : x ≠ .queued) (hf : x ≠ .full) :
      (t.block d b).state = x := by
    obtain ⟨-, -, hsame | ⟨-, hfrom⟩⟩ := hblocks d b
    · exact hsame.trans hx
    · rcases hfrom with hfrom | ⟨hfrom, -⟩
      · exact absurd (hx.symm.trans hfrom) hq
      · exact absurd (hx.symm.trans hfrom) hf
  have hwork (d : Nat) : (t.die d).work = (s.die d).work := congrArg Die.work (State.die_of_dies hdies d)
  have hops := State.opsBut_congr hwork skip
  have hpages (d : Nat) : t.pagesAt skip d = s.pagesAt skip d := by unfold State.pagesAt; rw [hops]
  have herases (d : Nat) : t.erasesAt skip d = s.erasesAt skip d := by unfold State.erasesAt; rw [hops]
  have hfails : t.failedPages = s.failedPages := by unfold State.failedPages; rw [hfailed]
  have hby {d : Nat} {p : Program} : s.installsBy d p → t.installsBy d p :=
    State.installsBy_congr (by rw [hinst]) fun n hn => ⟨n, hkeeps hn nofun nofun⟩
  refine ⟨fun d b k hd hk hl => ?_, fun d b k hk hl => ?_, fun d b k hk hstate => ?_, fun d => ⟨?_, fun b hb => ?_⟩,
    fun d => ⟨?_, fun b hb => ?_⟩, fun d => ?_, fun d e hde => ?_, fun d p hp => ?_, fun x hx => ?_, fun d p hp => ?_⟩
  · obtain ⟨hs, hlive, -⟩ := hlisted hk
    rw [hext, hlive]
    exact h.live d b _ hd hs fun hsl => hl ((State.lists_block hk ▸ hlog d b).2 hsl)
  · obtain ⟨hs, -, hpending, -⟩ := hlisted hk
    rw [hpending]
    exact h.pending d b _ hs fun hsl => hl ((State.lists_block hk ▸ hlog d b).2 hsl)
  · obtain ⟨hs, hlive, hpending, hmove⟩ := hlisted hk
    rw [hlive, hpending]
    rcases hmove with hsame | ⟨-, hq | ⟨-, hl, hp⟩⟩
    · exact h.dead d b _ hs (hsame ▸ hstate)
    · exact h.dead d b _ hs (.inl hq)
    · exact ⟨hl, hp⟩
  · rw [herases, List.filter_congr (q := fun b => (s.block d b).state != .log) fun b _ => ?_]
    · exact (h.erases d).1
    · rw [Bool.eq_iff_iff, bne_iff_ne, bne_iff_ne, ne_eq, ne_eq, hlog]
  · rw [herases] at hb
    obtain ⟨-, -, hsame | ⟨hto, -⟩⟩ := hblocks d b
    · rw [hsame]
      exact (h.erases d).2 b hb
    · exact .inr hto
  · rw [hfree]
    exact (h.free d).1
  · rw [hfree] at hb
    exact hkeeps ((h.free d).2 b hb) nofun nofun
  · rw [hpages, hfails]
    exact h.one d
  · rw [hpages, hpages]
    exact h.apart d e hde
  · rw [State.die_of_dies hdies] at hp
    exact hby (h.queued d p hp)
  · rw [hfails] at hx
    exact hby (h.failed x hx)
  · rw [State.under_congr hwork] at hp
    refine (h.underWay d p hp).imp hby fun ⟨hold, hstate⟩ => ⟨by rw [hinst]; exact hold, ?_⟩
    rcases hstate with hstate | ⟨n, hstate⟩
    · exact .inl (hkeeps hstate nofun nofun)
    · exact .inr ⟨n, hkeeps hstate nofun nofun⟩

end Sys2Proof.Machine
end

