-- ==== Sys2Proof/Proofs/BookMoves.lean ====
section
/-! SUPPORT. The page law and the long-op queues (O55): the idle choice, the entries that join a queue, the operation
that ends, and the programs that are withdrawn. -/

namespace Sys2Proof.Machine

/-! ### The idle choice -/

theorem splitRefused_append (fronts : List Nat) : ∀ ops : List LongOp,
    ops = (splitRefused fronts ops).1.map .program ++ (splitRefused fronts ops).2
  | [] => rfl
  | .erase b :: rest => rfl
  | .program p :: rest => by
    unfold splitRefused
    split
    · exact congrArg (LongOp.program p :: ·) (splitRefused_append fronts rest)
    · rfl

theorem State.beginRead_die_work {s t : State} {d : Nat} (hd : d < s.media.dies.length) (h : s.beginRead? d = some t) :
    (t.die d).work = (s.die d).work ∧ (t.die d).state ≠ .idle ∧ t.media.frontFailed = s.media.frontFailed := by
  unfold State.beginRead? at h
  obtain ⟨⟨die, free⟩, hbegin, rfl⟩ := Option.map_eq_some_iff.1 h
  rw [State.die_setDie, if_pos ⟨rfl, hd⟩]
  obtain ⟨hwork, hstate⟩ := Die.begin_work hbegin
  exact ⟨hwork, hstate, rfl⟩

theorem State.beginRead_getD_die_work {s : State} {d : Nat} (hd : d < s.media.dies.length) :
    (((s.beginRead? d).getD s).die d).work = (s.die d).work ∧
      ((s.beginRead? d).getD s).media.frontFailed = s.media.frontFailed := by
  cases h : s.beginRead? d with
  | none => exact ⟨rfl, rfl⟩
  | some t =>
    obtain ⟨hwork, -, hfailed⟩ := State.beginRead_die_work hd h
    exact ⟨hwork, hfailed⟩

/-- The idle choice splits the queue of its die: programs turned away, an operation begun, and the rest (R94, R102). -/
theorem State.idleChoice_splits {s : State} {d : Nat} (hd : d < s.media.dies.length) (hidle : (s.die d).state = .idle) :
    ∃ refused : List Program, (s.idleChoice d).media.frontFailed = s.media.frontFailed ++ refused.map (d, ·) ∧
      (s.die d).longOps = refused.map LongOp.program ++ ((s.idleChoice d).die d).ops ∧
      (((s.idleChoice d).die d).state = .idle → ((s.idleChoice d).die d).longOps = []) := by
  have hsplit := splitRefused_append (s.fronts d) (s.die d).longOps
  have hnone : (s.die d).state.longOp? = none := by rw [hidle]; rfl
  have hops {t : State} (hw : (t.die d).work = (s.die d).work) : (t.die d).ops = (s.die d).longOps := by
    obtain ⟨hop, hlong⟩ := Prod.mk.inj hw
    unfold Die.ops
    rw [hop, hlong, hnone]
    rfl
  unfold State.idleChoice
  rw [if_pos hidle]
  dsimp only
  split
  next u hu =>
    split at hu
    · obtain ⟨hwork, hstate, hfailed⟩ := State.beginRead_die_work hd hu
      exact ⟨[], by simpa using hfailed, by rw [hops hwork]; rfl, fun h => absurd h hstate⟩
    · cases hu
  next =>
    generalize hx : splitRefused (s.fronts d) (s.die d).longOps = x at hsplit
    have htake : s.takeLongOp d = match x.2 with
        | [] => ((s.setMedia { s.media with frontFailed := s.media.frontFailed ++ x.1.map (fun p => (d, p)) }).updateDie d
            fun die => { die with longOps := [] }, false)
        | op :: rest => (((s.setMedia { s.media with frontFailed := s.media.frontFailed ++ x.1.map (fun p => (d, p)) }).updateDie
            d fun die => { die with state := .busy op, longOps := rest }).markStarted d op, true) := by
      unfold State.takeLongOp
      rw [hx] <;> rfl
    refine ⟨x.1, ?_⟩
    rw [htake]
    cases hx2 : x.2 with
    | nil =>
      dsimp only
      rw [if_neg Bool.false_ne_true]
      generalize hy : (s.setMedia { s.media with frontFailed := s.media.frontFailed ++ x.1.map (fun p => (d, p)) }).updateDie d
        (fun die => { die with longOps := [] }) = y
      have hyd : (y.die d) = { s.die d with longOps := [] } := by
        rw [← hy, State.die_updateDie, if_pos ⟨rfl, hd⟩]
        rfl
      have hylen : d < y.media.dies.length := by rw [← hy]; simpa [State.updateDie] using hd
      have hyfailed : y.media.frontFailed = s.media.frontFailed ++ x.1.map (d, ·) := by rw [← hy]; rfl
      obtain ⟨hwork, hfailed⟩ := State.beginRead_getD_die_work hylen
      have hw : (((y.beginRead? d).getD y).die d).work = (none, []) := by rw [hwork, hyd]; exact congrArg (·, []) hnone
      obtain ⟨hop, hlong⟩ := Prod.mk.inj hw
      refine ⟨hfailed.trans hyfailed, ?_, fun _ => hlong⟩
      unfold Die.ops
      rw [hop, hlong]
      rw [hx2] at hsplit
      exact hsplit
    | cons op rest =>
      dsimp only
      rw [if_pos rfl]
      have hbusy : (((s.setMedia { s.media with frontFailed := s.media.frontFailed ++ x.1.map (fun p => (d, p)) }).updateDie
          d fun die => { die with state := .busy op, longOps := rest }).markStarted d op).die d =
          { s.die d with state := .busy op, longOps := rest } := by
        rw [State.markStarted_dies, State.die_updateDie, if_pos ⟨rfl, hd⟩]
        rfl
      refine ⟨?_, ?_, fun h => ?_⟩
      · rw [State.markStarted_media]
        rfl
      · rw [hbusy]
        rw [hx2] at hsplit
        exact hsplit
      · rw [hbusy] at h
        cases h

/-! ### Programs and erases in a queue -/

theorem filterMap_page_programs (l : List Program) :
    (l.map LongOp.program).filterMap LongOp.page? = l.filter fun p => decide (p.purpose = .page) := by
  induction l with
  | nil => rfl
  | cons p l ih =>
    by_cases h : p.purpose = .page
    · simp [LongOp.page?, h, ih]
    · simp [LongOp.page?, h, ih]

theorem filterMap_erases_programs (l : List Program) : (l.map LongOp.program).filterMap LongOp.erases? = [] := by
  induction l with
  | nil => rfl
  | cons p l ih => simp [LongOp.erases?]

theorem filterMap_page_erases (l : List Nat) : (l.map LongOp.erase).filterMap LongOp.page? = [] := by
  induction l with
  | nil => rfl
  | cons b l ih => simp [LongOp.page?]

theorem filterMap_erases_erases (l : List Nat) : (l.map LongOp.erase).filterMap LongOp.erases? = l := by
  induction l with
  | nil => rfl
  | cons b l ih => simpa [LongOp.erases?] using ih

/-! ### The moves -/

/-- Die `d`, which has none under way, takes up operations of its queue and turns programs away. -/
theorem State.Booked.split {s t : State} {skip : Option Nat} {running : List Extent} {d : Nat} {refused : List Program}
    (h : s.Booked skip running) (hskip : skip ≠ some d) (hnone : (s.die d).state.longOp? = none)
    (hcatalogue : t.catalogue = s.catalogue) (hinst : t.installer = s.installer)
    (hothers : ∀ e, e ≠ d → t.die e = s.die e)
    (hfailed : t.media.frontFailed = s.media.frontFailed ++ refused.map (d, ·))
    (hops : (s.die d).longOps = refused.map LongOp.program ++ (t.die d).ops) : t.Booked skip running := by
  have hblock (e b : Nat) : t.block e b = s.block e b := State.block_congr (congrArg _ hcatalogue) e b
  have hlists := State.lists_congr (congrArg Catalogue.blockTable hcatalogue)
  have hsops : s.opsBut skip d = (s.die d).longOps := by
    unfold State.opsBut State.under
    rw [if_neg hskip, hnone]
    rfl
  have htops : t.opsBut skip d = (t.die d).ops := by
    unfold State.opsBut State.under
    rw [if_neg hskip]
    rfl
  have hother (e : Nat) (he : e ≠ d) : t.opsBut skip e = s.opsBut skip e := by
    unfold State.opsBut State.under
    rw [hothers e he]
  have hpagesd : s.pagesAt skip d = (refused.filter fun p => decide (p.purpose = .page)) ++ t.pagesAt skip d := by
    unfold State.pagesAt
    rw [hsops, htops, hops, List.filterMap_append, filterMap_page_programs]
  have hpages (e : Nat) (he : e ≠ d) : t.pagesAt skip e = s.pagesAt skip e := by
    unfold State.pagesAt
    rw [hother e he]
  have herases (e : Nat) : t.erasesAt skip e = s.erasesAt skip e := by
    by_cases he : e = d
    · subst he
      unfold State.erasesAt
      rw [hsops, htops, hops, List.filterMap_append, filterMap_erases_programs, List.nil_append]
    · unfold State.erasesAt
      rw [hother e he]
  have hfails : t.failedPages = s.failedPages ++
      (refused.filter fun p => decide (p.purpose = .page)).map (d, ·) := by
    unfold State.failedPages
    rw [hfailed, List.filter_append, List.filter_map]
    rfl
  have hcount : t.failedPages.length + (t.pagesAt skip d).length =
      s.failedPages.length + (s.pagesAt skip d).length := by
    rw [hfails, hpagesd, List.length_append, List.length_append, List.length_map]
    omega
  have hby {e : Nat} {p : Program} : s.installsBy e p → t.installsBy e p :=
    State.installsBy_congr (by rw [hinst]) fun n hn => ⟨n, by rw [hblock]; exact hn⟩
  have hfrom {p : Program} (hp : p ∈ (t.die d).ops.filterMap LongOp.page?) : s.installsBy d p :=
    h.queued d p (by rw [hops, List.filterMap_append]; exact List.mem_append_right _ hp)
  have hone (e : Nat) (he : e ≠ d) : (s.pagesAt skip e).length + t.failedPages.length ≤ 1 := by
    by_cases hnil : s.pagesAt skip e = []
    · rw [hnil]
      have := h.one d
      simp only [List.length_nil]
      omega
    · have hzero : (s.pagesAt skip d).length = 0 := by rw [h.apart e d he hnil]; rfl
      have := h.one e
      omega
  refine ⟨fun e b k he hk => ?_, fun e b k hk => ?_, fun e b k hk => ?_, fun e => ?_, fun e => ?_, fun e => ?_,
    fun e f hef hne => ?_, fun e p hp => ?_, fun x hx => ?_, fun e p hp => ?_⟩
  · rw [hcatalogue]
    exact h.live e b k he ((hlists e b k).1 hk)
  · exact h.pending e b k ((hlists e b k).1 hk)
  · exact h.dead e b k ((hlists e b k).1 hk)
  · simp only [herases, hblock]
    exact h.erases e
  · simp only [State.dieBlocks_congr (congrArg Catalogue.blockTable hcatalogue), hblock]
    exact h.free e
  · by_cases he : e = d
    · subst he
      have := h.one e
      omega
    · rw [hpages e he]
      exact hone e he
  · have hsne {e : Nat} (hne : t.pagesAt skip e ≠ []) : s.pagesAt skip e ≠ [] := by
      by_cases he : e = d
      · subst he
        rw [hpagesd]
        simp [hne]
      · rwa [hpages e he] at hne
    have hnil := h.apart e f hef (hsne hne)
    by_cases hf : f = d
    · subst hf
      rw [hpagesd] at hnil
      exact (List.append_eq_nil_iff.1 hnil).2
    · rwa [hpages f hf]
  · by_cases he : e = d
    · subst he
      exact hby (hfrom (by unfold Die.ops; rw [List.filterMap_append]; exact List.mem_append_right _ hp))
    · rw [hothers e he] at hp
      exact hby (h.queued e p hp)
  · rw [hfails] at hx
    rcases List.mem_append.1 hx with hx | hx
    · exact hby (h.failed x hx)
    · obtain ⟨p, hp, rfl⟩ := List.mem_map.1 hx
      refine hby (h.queued d p ?_)
      rw [hops, List.filterMap_append, filterMap_page_programs]
      exact List.mem_append_left _ hp
  · by_cases he : e = d
    · subst he
      refine .inl (hby (hfrom ?_))
      unfold State.under at hp
      rw [if_neg hskip] at hp
      unfold Die.ops
      rw [List.filterMap_append]
      refine List.mem_append_left _ ?_
      cases hop : (t.die e).state.longOp? with
      | none => rw [hop] at hp; cases hp
      | some op =>
        rw [hop] at hp
        have hop' : op.page? = some p := hp
        simp [hop']
    · unfold State.under at hp
      rw [hothers e he] at hp
      refine (h.underWay e p hp).imp hby fun ⟨hold, hstate⟩ => ⟨by rw [hinst]; exact hold, ?_⟩
      rw [hblock]
      exact hstate

theorem State.idleFree_iff (s : State) : s.IdleFree ↔ ∀ d, (s.die d).state = .idle → (s.die d).longOps = [] := by
  constructor
  · intro h d hidle
    by_cases hd : d < s.media.dies.length
    · exact h _ (State.die_mem hd) hidle
    · rw [State.die_eq_reset hd]
      rfl
  · intro h die hm hidle
    obtain ⟨d, hd, rfl⟩ := List.mem_iff_getElem.1 hm
    have hdie : s.die d = s.media.dies[d] := State.die_eq_getElem hd
    rw [← hdie] at hidle ⊢
    exact h d hidle

theorem map_work_eq {s t : State} (h : t.media.dies.map Die.work = s.media.dies.map Die.work) (d : Nat) :
    (t.die d).work = (s.die d).work := by
  have hlen : t.media.dies.length = s.media.dies.length := by simpa using congrArg List.length h
  by_cases hd : d < s.media.dies.length
  · rw [State.die_eq_getElem hd, State.die_eq_getElem (hlen ▸ hd)]
    have hget := congrArg (·[d]?) h
    simpa [hd, hlen] using hget
  · rw [State.die_eq_reset hd, State.die_eq_reset (hlen ▸ hd)]

/-- A step of the voices, which leaves the library alone. -/
theorem State.Booked.rests {s t : State} {skip : Option Nat} {running : List Extent} (h : s.Booked skip running)
    (hr : Resting s t) (hidle : s.IdleFree) (hinst : t.installer = s.installer) : t.Booked skip running := by
  refine h.same (hr.blocks hidle) ?_ (by rw [hinst]) (by rw [hinst]) (map_work_eq (hr.work hidle)) (hr.refused hidle)
  have hext := congrArg (List.flatMap Region.extents) hr.table
  simpa [List.flatMap_map, Region.unused] using hext

/-- The idle choice keeps the page law (R94). -/
theorem State.Booked.idleChoice {s : State} {skip : Option Nat} {running : List Extent} {d : Nat}
    (h : s.Booked skip running) (hskip : skip = some d → (s.die d).state ≠ .idle)
    (hothers : ∀ e, e ≠ d → (s.die e).state = .idle → (s.die e).longOps = []) :
    (s.idleChoice d).Booked skip running ∧ (s.idleChoice d).IdleFree := by
  have hstep := s.idleChoice_die d
  by_cases hidle : (s.die d).state = .idle
  · have hskip' : skip ≠ some d := fun hs => hskip hs hidle
    by_cases hd : d < s.media.dies.length
    · obtain ⟨refused, hfailed, hops, hnone⟩ := State.idleChoice_splits hd hidle
      have hlongOp : (s.die d).state.longOp? = none := by rw [hidle]; rfl
      have hmoved : (s.setMedia (s.idleChoice d).media).Booked skip running :=
        h.split hskip' hlongOp rfl rfl (fun e he => s.idleChoice_die_other d e he) hfailed hops
      refine ⟨hmoved.faded (fun e b => ?_) hstep.length hstep.free (by rw [hstep.regions]; rfl) hstep.media.installer
        rfl rfl, ?_⟩
      · rcases hstep.blocks e b with hb | hb
        · rw [hb]
          exact .refl _
        · rw [hb]
          exact Block.startErase_fades _
      · rw [State.idleFree_iff]
        intro e he
        by_cases hed : e = d
        · subst hed
          exact hnone he
        · rw [s.idleChoice_die_other d e hed] at he ⊢
          exact hothers e hed he
    · have hempty : (s.die d).longOps = [] := by rw [State.die_eq_reset hd]; rfl
      have hfree : s.IdleFree := by
        rw [State.idleFree_iff]
        intro e he
        by_cases hed : e = d
        · rw [hed]
          exact hempty
        · exact hothers e hed he
      have hr := s.idleChoice_resting d
      exact ⟨h.rests hr hfree hstep.media.installer, hr.idle hfree⟩
  · rw [State.idleChoice_of_busy hidle, State.idleFree_iff]
    refine ⟨h, fun e he => ?_⟩
    by_cases hed : e = d
    · rw [hed] at he
      exact absurd he hidle
    · exact hothers e hed he

/-! ### Entries that join a queue -/

/-- No page program is held by a die or waits to be handed on, apart from the one that has just ended. -/
def State.NoPages (s : State) (skip : Option Nat) : Prop := (∀ d, s.pagesAt skip d = []) ∧ s.failedPages = []

theorem State.opsBut_append (s : State) (skip : Option Nat) (d e : Nat) (ops : List LongOp) :
    (s.updateDie d fun die => { die with longOps := die.longOps ++ ops }).opsBut skip e =
      if e = d ∧ d < s.media.dies.length then s.opsBut skip d ++ ops else s.opsBut skip e := by
  unfold State.opsBut State.under
  rw [State.die_updateDie]
  by_cases h : e = d ∧ d < s.media.dies.length
  · obtain ⟨rfl, hd⟩ := h
    simp [hd]
  · simp [h]

/-- Erases of blocks that have none yet, or one program, join the queue of a die. -/
theorem State.Booked.append {s : State} {skip : Option Nat} {running : List Extent} {d : Nat} {ops : List LongOp}
    {blocks : List Nat} {pages : List Program} (h : s.Booked skip running)
    (hblocks : ops.filterMap LongOp.erases? = blocks) (hnodup : blocks.Nodup)
    (hstate : ∀ b ∈ blocks, (s.block d b).state = .log ∨ (s.block d b).state = .queued ∨ (s.block d b).state = .erasing)
    (hnew : ∀ b ∈ blocks, (s.block d b).state ≠ .log → b ∉ s.erasesAt skip d)
    (hpages : ops.filterMap LongOp.page? = pages) (hone : pages.length ≤ 1)
    (hnone : pages ≠ [] → s.NoPages skip) (hby : ∀ p ∈ pages, s.installsBy d p) :
    (s.updateDie d fun die => { die with longOps := die.longOps ++ ops }).Booked skip running := by
  have hops := s.opsBut_append skip d (ops := ops)
  have hdie (e : Nat) : ((s.updateDie d fun die => { die with longOps := die.longOps ++ ops }).die e).state =
      (s.die e).state := by
    rw [State.die_updateDie]
    split
    next he => rw [he.1]
    next => rfl
  have hlong (e : Nat) {p : Program}
      (hp : p ∈ ((s.updateDie d fun die => { die with longOps := die.longOps ++ ops }).die e).longOps.filterMap
        LongOp.page?) : p ∈ (s.die e).longOps.filterMap LongOp.page? ∨ e = d ∧ p ∈ pages := by
    rw [State.die_updateDie] at hp
    split at hp
    next he =>
      rw [he.1]
      dsimp only at hp
      rw [List.filterMap_append, hpages] at hp
      exact (List.mem_append.1 hp).imp id fun hp => ⟨rfl, hp⟩
    next => exact .inl hp
  have hpagesAt (e : Nat) : ∃ l, l.length ≤ pages.length ∧ (l ≠ [] → e = d ∧ pages ≠ []) ∧
      (s.updateDie d fun die => { die with longOps := die.longOps ++ ops }).pagesAt skip e = s.pagesAt skip e ++ l := by
    unfold State.pagesAt
    rw [hops]
    by_cases he : e = d ∧ d < s.media.dies.length
    · rw [if_pos he, he.1, List.filterMap_append, hpages]
      exact ⟨pages, le_rfl, fun hl => ⟨rfl, hl⟩, rfl⟩
    · rw [if_neg he]
      exact ⟨[], Nat.zero_le _, fun hl => absurd rfl hl, (List.append_nil _).symm⟩
  have hunder (e : Nat) : (s.updateDie d fun die => { die with longOps := die.longOps ++ ops }).under skip e =
      s.under skip e := by
    unfold State.under
    rw [hdie]
  generalize ht : (s.updateDie d fun die => { die with longOps := die.longOps ++ ops }) = t at *
  have hblock (e b : Nat) : t.block e b = s.block e b := by rw [← ht]; rfl
  have hcatalogue : t.catalogue = s.catalogue := by rw [← ht]; rfl
  have hinst : t.installer = s.installer := by rw [← ht]; rfl
  have hfails : t.failedPages = s.failedPages := by rw [← ht]; rfl
  have hlists := State.lists_congr (congrArg Catalogue.blockTable hcatalogue)
  have hby' {e : Nat} {p : Program} : s.installsBy e p → t.installsBy e p :=
    State.installsBy_congr (by rw [hinst]) fun n hn => ⟨n, by rw [hblock]; exact hn⟩
  refine ⟨fun e b k he hk => ?_, fun e b k hk => ?_, fun e b k hk => ?_, fun e => ?_, fun e => ?_, fun e => ?_,
    fun e f hef hne => ?_, fun e p hp => ?_, fun x hx => ?_, fun e p hp => ?_⟩
  · rw [hcatalogue]
    exact h.live e b k he ((hlists e b k).1 hk)
  · exact h.pending e b k ((hlists e b k).1 hk)
  · exact h.dead e b k ((hlists e b k).1 hk)
  · obtain ⟨hold, hstates⟩ := h.erases e
    simp only [hblock]
    unfold State.erasesAt at hold hstates hnew ⊢
    rw [hops]
    split
    next he =>
      obtain ⟨rfl, -⟩ := he
      rw [List.filterMap_append, hblocks]
      refine ⟨?_, fun b hb => (List.mem_append.1 hb).elim (hstates b) (hstate b)⟩
      rw [List.filter_append, List.nodup_append]
      refine ⟨hold, hnodup.filter _, fun b hb c hc hbc => ?_⟩
      obtain ⟨hcmem, hclog⟩ := List.mem_filter.1 hc
      exact hnew c hcmem (by simpa using hclog) (hbc ▸ (List.mem_filter.1 hb).1)
    next => exact ⟨hold, hstates⟩
  · simp only [State.dieBlocks_congr (congrArg Catalogue.blockTable hcatalogue), hblock]
    exact h.free e
  · obtain ⟨l, hl, hcase, heq⟩ := hpagesAt e
    rw [heq, hfails, List.length_append]
    by_cases hnil : l = []
    · rw [hnil]
      exact h.one e
    · obtain ⟨hzero, hfail⟩ := hnone (hcase hnil).2
      rw [hzero e, hfail]
      simp only [List.length_nil]
      omega
  · obtain ⟨l, -, hcase, heq⟩ := hpagesAt e
    obtain ⟨m, -, hcase', heq'⟩ := hpagesAt f
    rw [heq] at hne
    rw [heq']
    by_cases hnil : l = []
    · rw [hnil, List.append_nil] at hne
      rw [h.apart e f hef hne]
      by_contra hm
      exact hne ((hnone (hcase' hm).2).1 e)
    · obtain ⟨hed, hpne⟩ := hcase hnil
      rw [(hnone hpne).1 f]
      by_contra hm
      exact hef (hed.trans (hcase' hm).1.symm)
  · rcases hlong e hp with hp | ⟨rfl, hp⟩
    · exact hby' (h.queued e p hp)
    · exact hby' (hby p hp)
  · rw [hfails] at hx
    exact hby' (h.failed x hx)
  · rw [hunder] at hp
    refine (h.underWay e p hp).imp hby' fun ⟨hold, hstate⟩ => ⟨by rw [hinst]; exact hold, ?_⟩
    rw [hblock]
    exact hstate

/-- The page law with the dies at rest as it says, and the die whose operation has just ended not IDLE. -/
structure State.Books (s : State) (skip : Option Nat) (running : List Extent) : Prop where
  booked : s.Booked skip running
  idle   : s.IdleFree
  busy   : ∀ d, skip = some d → (s.die d).state ≠ .idle

/-- A change outside the library's books. -/
theorem State.Books.same {s t : State} {skip : Option Nat} {running : List Extent} (h : s.Books skip running)
    (htable : t.catalogue.blockTable = s.catalogue.blockTable)
    (hext : t.catalogue.regions.flatMap (·.extents) = s.catalogue.regions.flatMap (·.extents))
    (hhead : t.installer.work.head? = s.installer.work.head?) (hheld : t.installer.held = s.installer.held)
    (hdies : t.media.dies = s.media.dies) (hfailed : t.media.frontFailed = s.media.frontFailed) :
    t.Books skip running := by
  refine ⟨h.booked.same htable hext hhead hheld (fun d => congrArg Die.work (State.die_of_dies hdies d)) hfailed,
    ?_, fun d hd => ?_⟩
  · unfold State.IdleFree
    rw [hdies]
    exact h.idle
  · rw [State.die_of_dies hdies]
    exact h.busy d hd

/-- The entries that join the queue of a die, which then makes its idle choice (R93, R94). -/
theorem State.Books.join {s : State} {skip : Option Nat} {running : List Extent} {d : Nat} {ops : List LongOp}
    (h : s.Books skip running)
    (happend : (s.updateDie d fun die => { die with longOps := die.longOps ++ ops }).Booked skip running) :
    ((s.updateDie d fun die => { die with longOps := die.longOps ++ ops }).idleChoice d).Books skip running := by
  have hother (e : Nat) (he : e ≠ d) :
      (s.updateDie d fun die => { die with longOps := die.longOps ++ ops }).die e = s.die e := by
    rw [State.die_updateDie, if_neg fun h => he h.1]
  have hstate (e : Nat) : ((s.updateDie d fun die => { die with longOps := die.longOps ++ ops }).die e).state =
      (s.die e).state := by
    rw [State.die_updateDie]
    split
    next he => rw [he.1]
    next => rfl
  have hbusy (e : Nat) (he : skip = some e) :
      ((s.updateDie d fun die => { die with longOps := die.longOps ++ ops }).die e).state ≠ .idle := by
    rw [hstate]
    exact h.busy e he
  obtain ⟨hbooked, hidle⟩ := happend.idleChoice (hbusy d) fun e he hidle => by
    rw [hother e he] at hidle ⊢
    exact s.idleFree_iff.1 h.idle e hidle
  exact ⟨hbooked, hidle, fun e he => by
    rw [State.idleChoice_workKept _ d e (hbusy e he)]
    exact hbusy e he⟩

/-- Erases of blocks that have none yet join a die's queue (R11, R93). -/
theorem State.Books.joinErases {s : State} {skip : Option Nat} {running : List Extent} (h : s.Books skip running)
    {d : Nat} {blocks : List Nat} (hnodup : blocks.Nodup)
    (hstate : ∀ b ∈ blocks, (s.block d b).state = .log ∨ (s.block d b).state = .queued ∨ (s.block d b).state = .erasing)
    (hnew : ∀ b ∈ blocks, (s.block d b).state ≠ .log → b ∉ s.erasesAt skip d) :
    (s.joinErases d blocks).Books skip running := by
  unfold State.joinErases
  split
  · exact h
  · exact h.join (h.booked.append (filterMap_erases_erases blocks) hnodup hstate hnew (filterMap_page_erases blocks)
      (Nat.zero_le _) (fun hp => absurd rfl hp) fun _ hp => absurd hp List.not_mem_nil)

/-- A log record's program joins a die's queue (R13). -/
theorem State.Books.joinLog {s : State} {skip : Option Nat} {running : List Extent} (h : s.Books skip running)
    {p : Program} (hp : p.purpose ≠ .page) (d : Nat) : (s.joinLongOp d (.program p)).Books skip running := by
  have hpage : [LongOp.program p].filterMap LongOp.page? = [] := by simp [LongOp.page?, hp]
  exact h.join (h.booked.append (blocks := []) rfl List.nodup_nil (fun _ hb => absurd hb List.not_mem_nil)
    (fun _ hb => absurd hb List.not_mem_nil) hpage (Nat.zero_le _) (fun hp => absurd rfl hp)
    fun _ hp => absurd hp List.not_mem_nil)

/-- The page program of the running install joins its die's queue, the only one (R163). -/
theorem State.Books.joinPage {s : State} {skip : Option Nat} {running : List Extent} (h : s.Books skip running)
    {p : Program} {d : Nat} (hp : p.purpose = .page) (hnone : s.NoPages skip) (hby : s.installsBy d p) :
    (s.joinLongOp d (.program p)).Books skip running := by
  have hpage : [LongOp.program p].filterMap LongOp.page? = [p] := by simp [LongOp.page?, hp]
  exact h.join (h.booked.append (blocks := []) rfl List.nodup_nil (fun _ hb => absurd hb List.not_mem_nil)
    (fun _ hb => absurd hb List.not_mem_nil) hpage (Nat.le_refl 1) (fun _ => hnone)
    fun q hq => (List.mem_singleton.1 hq) ▸ hby)

theorem State.Books.appendRecord {s : State} {skip : Option Nat} {running : List Extent} (h : s.Books skip running)
    (record : List Byte) : (s.appendRecord record).Books skip running := h.joinLog (by exact nofun) 0

end Sys2Proof.Machine
end

