-- ==== Sys2Proof/Proofs/BookTables.lean ====
section
/-! SUPPORT. The page law and the block table (O55): blocks made QUEUED, opened, used, erased, and the counts that an
install or a removal moves. -/

namespace Sys2Proof.Machine

/-! ### The blocks that a table lists -/

theorem State.lists_of_length {s : State} {d b : Nat} (hb : b < (s.dieBlocks d).blocks.length) :
    s.lists d b (s.block d b) := by
  unfold State.lists State.block
  rw [List.getD_eq_getElem _ _ hb]
  exact List.getElem?_eq_getElem hb

theorem State.lists_length {s : State} {d b : Nat} {k : Block} (h : s.lists d b k) : b < (s.dieBlocks d).blocks.length :=
  (List.getElem?_eq_some_iff.1 h).1

theorem State.lists_iff {s : State} {d b : Nat} {k : Block} :
    s.lists d b k ↔ b < (s.dieBlocks d).blocks.length ∧ s.block d b = k :=
  ⟨fun h => ⟨State.lists_length h, State.lists_block h⟩, fun ⟨hb, hk⟩ => hk ▸ State.lists_of_length hb⟩

/-- A block in any state but the unset one is listed. -/
theorem State.lists_of_state {s : State} {d b : Nat} (h : (s.block d b).state ≠ .unset) : s.lists d b (s.block d b) := by
  refine State.lists_of_length (Nat.lt_of_not_le fun hle => h ?_)
  have hunset : s.block d b = Block.unset := List.getD_eq_default _ _ hle
  rw [hunset]
  rfl

theorem DieBlocks.numbers_nodup (t : DieBlocks) (p : Block → Bool) : (t.numbers p).Nodup := by
  rw [DieBlocks.numbers_eq]
  exact List.nodup_range.filter _

theorem State.mem_numbers {s : State} {d b : Nat} {p : Block → Bool} :
    b ∈ (s.dieBlocks d).numbers p ↔ b < (s.dieBlocks d).blocks.length ∧ p (s.block d b) = true := by
  rw [DieBlocks.numbers_eq, List.mem_filter, List.mem_range]
  rfl

/-! ### Another table -/

/-- The law over another block table or installer, the dies as they were. -/
theorem State.Booked.retabled {s t : State} {skip : Option Nat} {running running' : List Extent}
    (h : s.Booked skip running)
    (hlive : ∀ d b k, d < 8 → t.lists d b k → k.state ≠ .log →
      k.live = pagesIn (t.catalogue.regions.flatMap (·.extents)) d b)
    (hpending : ∀ d b k, t.lists d b k → k.state ≠ .log → k.pending = pagesIn running' d b)
    (hdead : ∀ d b k, t.lists d b k → k.state = .queued ∨ k.state = .erasing → k.live = 0 ∧ k.pending = 0)
    (hfree : ∀ d, (t.dieBlocks d).free.Nodup ∧ ∀ b ∈ (t.dieBlocks d).free, (t.block d b).state = .free)
    (hlog : ∀ d b, (t.block d b).state = .log ↔ (s.block d b).state = .log)
    (herase : ∀ d, ∀ b ∈ s.erasesAt skip d, (s.block d b).state = .queued ∨ (s.block d b).state = .erasing →
      (t.block d b).state = .queued ∨ (t.block d b).state = .erasing)
    (hqueued : ∀ d, ∀ p ∈ (s.die d).longOps.filterMap LongOp.page?, t.installsBy d p)
    (hfails : ∀ x ∈ s.failedPages, t.installsBy x.1 x.2)
    (hunder : ∀ d p, (s.under skip d).bind LongOp.page? = some p → t.installsBy d p ∨ t.holdsFor d p)
    (hdies : t.media.dies = s.media.dies) (hfailed : t.media.frontFailed = s.media.frontFailed) :
    t.Booked skip running' := by
  have hwork (d : Nat) : (t.die d).work = (s.die d).work := congrArg Die.work (State.die_of_dies hdies d)
  have hops := State.opsBut_congr hwork skip
  have hpages (d : Nat) : t.pagesAt skip d = s.pagesAt skip d := by unfold State.pagesAt; rw [hops]
  have herases (d : Nat) : t.erasesAt skip d = s.erasesAt skip d := by unfold State.erasesAt; rw [hops]
  have hsame : t.failedPages = s.failedPages := by unfold State.failedPages; rw [hfailed]
  refine ⟨hlive, hpending, hdead, fun d => ?_, hfree, fun d => ?_, fun d e hde => ?_, fun d p hp => ?_, fun x hx => ?_,
    fun d p hp => ?_⟩
  · obtain ⟨hnodup, hstate⟩ := h.erases d
    rw [herases, List.filter_congr (q := fun b => (s.block d b).state != .log) fun b _ => by
      rw [Bool.eq_iff_iff, bne_iff_ne, bne_iff_ne, ne_eq, ne_eq, hlog]]
    exact ⟨hnodup, fun b hb => (hstate b hb).imp (hlog d b).2 (herase d b hb)⟩
  · rw [hpages, hsame]
    exact h.one d
  · rw [hpages, hpages]
    exact h.apart d e hde
  · rw [State.die_of_dies hdies] at hp
    exact hqueued d p hp
  · rw [hsame] at hx
    exact hfails x hx
  · rw [State.under_congr hwork] at hp
    exact hunder d p hp

theorem mem_pagesAt_of_under {s : State} {skip : Option Nat} {d : Nat} {p : Program}
    (h : (s.under skip d).bind LongOp.page? = some p) : p ∈ s.pagesAt skip d := by
  unfold State.pagesAt State.opsBut
  rw [List.filterMap_append]
  refine List.mem_append_left _ ?_
  cases hop : s.under skip d with
  | none => rw [hop] at h; cases h
  | some op =>
    rw [hop] at h
    have hp : op.page? = some p := h
    simp [hp]

theorem mem_pagesAt_of_queued {s : State} {skip : Option Nat} {d : Nat} {p : Program}
    (h : p ∈ (s.die d).longOps.filterMap LongOp.page?) : p ∈ s.pagesAt skip d := by
  unfold State.pagesAt State.opsBut
  rw [List.filterMap_append]
  exact List.mem_append_right _ h

theorem State.NoPages.queued {s : State} {skip : Option Nat} (h : s.NoPages skip) {P : Prop} (d : Nat) (p : Program)
    (hp : p ∈ (s.die d).longOps.filterMap LongOp.page?) : P := by
  have hmem := mem_pagesAt_of_queued (skip := skip) hp
  rw [h.1 d] at hmem
  cases hmem

theorem State.NoPages.under {s : State} {skip : Option Nat} (h : s.NoPages skip) {P : Prop} (d : Nat) (p : Program)
    (hp : (s.under skip d).bind LongOp.page? = some p) : P := by
  have hmem := mem_pagesAt_of_under hp
  rw [h.1 d] at hmem
  cases hmem

theorem State.NoPages.failed {s : State} {skip : Option Nat} (h : s.NoPages skip) {P : Prop} (x : Nat × Program)
    (hx : x ∈ s.failedPages) : P := by
  rw [h.2] at hx
  cases hx

theorem State.NoPages.same {s t : State} {skip : Option Nat} (h : s.NoPages skip) (hdies : t.media.dies = s.media.dies)
    (hfailed : t.media.frontFailed = s.media.frontFailed) : t.NoPages skip := by
  have hwork (d : Nat) : (t.die d).work = (s.die d).work := congrArg Die.work (State.die_of_dies hdies d)
  refine ⟨fun d => ?_, ?_⟩
  · rw [← h.1 d]
    unfold State.pagesAt
    rw [State.opsBut_congr hwork]
  · rw [← h.2]
    unfold State.failedPages
    rw [hfailed]

/-- A step outside the block table and the long operations, which leaves the page programs held their owners. -/
theorem State.Books.reowned {s t : State} {skip : Option Nat} {running : List Extent} (h : s.Books skip running)
    (htable : t.catalogue.blockTable = s.catalogue.blockTable)
    (hext : t.catalogue.regions.flatMap (·.extents) = s.catalogue.regions.flatMap (·.extents))
    (hdies : t.media.dies = s.media.dies) (hfailed : t.media.frontFailed = s.media.frontFailed)
    (hqueued : ∀ d, ∀ p ∈ (s.die d).longOps.filterMap LongOp.page?, t.installsBy d p)
    (hfails : ∀ x ∈ s.failedPages, t.installsBy x.1 x.2)
    (hunder : ∀ d p, (s.under skip d).bind LongOp.page? = some p → t.installsBy d p ∨ t.holdsFor d p) :
    t.Books skip running := by
  have hlists := State.lists_congr htable
  have hblock := State.block_congr htable
  refine ⟨h.booked.retabled (fun d b k hd hk => ?_) (fun d b k hk => ?_) (fun d b k hk => ?_) (fun d => ?_)
    (fun d b => by rw [hblock]) (fun d b _ hb => by rwa [hblock]) hqueued hfails hunder hdies hfailed, ?_, fun d hd => ?_⟩
  · rw [hext]
    exact h.booked.live d b k hd ((hlists d b k).1 hk)
  · exact h.booked.pending d b k ((hlists d b k).1 hk)
  · exact h.booked.dead d b k ((hlists d b k).1 hk)
  · simp only [State.dieBlocks_congr htable, hblock]
    exact h.booked.free d
  · unfold State.IdleFree
    rw [hdies]
    exact h.idle
  · rw [State.die_of_dies hdies]
    exact h.busy d hd

/-- With no page program held the head of the work list may be any. -/
theorem State.Books.library {s t : State} {skip : Option Nat} {running : List Extent} (h : s.Books skip running)
    (hnone : s.NoPages skip) (htable : t.catalogue.blockTable = s.catalogue.blockTable)
    (hext : t.catalogue.regions.flatMap (·.extents) = s.catalogue.regions.flatMap (·.extents))
    (hdies : t.media.dies = s.media.dies) (hfailed : t.media.frontFailed = s.media.frontFailed) :
    t.Books skip running :=
  h.reowned htable hext hdies hfailed (fun d p => hnone.queued d p) (fun x => hnone.failed x) fun d p => hnone.under d p

/-- The head programs no page. -/
def State.HeadRests (s : State) : Prop := ∀ i, s.installer.work.head? = some (.install i) → i.phase ≠ .programming

theorem State.HeadRests.not_installsBy {s : State} (h : s.HeadRests) {d : Nat} {p : Program} : ¬s.installsBy d p :=
  fun ⟨i, _, hi, hphase, _⟩ => h i hi hphase

/-- Behind a head that programs no page the head of the work list may be any, while the page buffer is held as it was. -/
theorem State.Books.rehead {s t : State} {skip : Option Nat} {running : List Extent} (h : s.Books skip running)
    (hrests : s.HeadRests) (htable : t.catalogue.blockTable = s.catalogue.blockTable)
    (hext : t.catalogue.regions.flatMap (·.extents) = s.catalogue.regions.flatMap (·.extents))
    (hheld : t.installer.held = s.installer.held)
    (hdies : t.media.dies = s.media.dies) (hfailed : t.media.frontFailed = s.media.frontFailed) :
    t.Books skip running := by
  refine h.reowned htable hext hdies hfailed (fun d p hp => absurd (h.booked.queued d p hp) hrests.not_installsBy)
    (fun x hx => absurd (h.booked.failed x hx) hrests.not_installsBy) fun d p hp => .inr ?_
  obtain ⟨hold, hstate⟩ := (h.booked.underWay d p hp).resolve_left hrests.not_installsBy
  refine ⟨hheld.trans hold, ?_⟩
  rw [State.block_congr htable]
  exact hstate

/-! ### Blocks made QUEUED -/

/-- The FULL blocks of a die without pages become QUEUED, and their erases join its queue (R11, R12). -/
theorem State.Books.queueDeadOn {s : State} {skip : Option Nat} {running : List Extent} (h : s.Books skip running)
    (d : Nat) : (s.queueDeadOn d).Books skip running := by
  rw [State.queueDeadOn_eq]
  have hblock (e b : Nat) := s.block_mapBlocks d e b Block.queueDead rfl
  have hlength (e : Nat) : ((s.updateDieBlocks d fun t => { t with blocks := t.blocks.map Block.queueDead }).dieBlocks
      e).blocks.length = (s.dieBlocks e).blocks.length := by
    rw [State.dieBlocks_updateDieBlocks]
    split
    next he => rw [he.1]; exact List.length_map _
    next => rfl
  have hfree (e : Nat) : ((s.updateDieBlocks d fun t => { t with blocks := t.blocks.map Block.queueDead }).dieBlocks
      e).free = (s.dieBlocks e).free := by
    rw [State.dieBlocks_updateDieBlocks]
    split
    next he => rw [he.1]
    next => rfl
  have hbooked : (s.updateDieBlocks d fun t => { t with blocks := t.blocks.map Block.queueDead }).Booked skip running :=
    h.booked.faded (fun e b => by
      rw [hblock]
      split
      · exact Block.queueDead_fades _
      · exact .refl _) hlength hfree rfl rfl rfl rfl
  have hbooks : (s.updateDieBlocks d fun t => { t with blocks := t.blocks.map Block.queueDead }).Books skip running :=
    ⟨hbooked, h.idle, h.busy⟩
  refine hbooks.joinErases (DieBlocks.numbers_nodup _ _) (fun b hb => ?_) fun b hb _ hmem => ?_
  · obtain ⟨-, hdead⟩ := State.mem_numbers.1 hb
    have hqueued : (s.block d b).queueDead.state = .queued := by
      unfold Block.queueDead
      rw [if_pos hdead]
    rw [hblock, if_pos rfl]
    exact .inr (.inl hqueued)
  · obtain ⟨-, hdead⟩ := State.mem_numbers.1 hb
    have hfull := ((Block.dead_iff _).1 hdead).1
    rcases (h.booked.erases d).2 b hmem with hs | hs | hs <;> rw [hs] at hfull <;> cases hfull

theorem State.Books.queueDead {s : State} {skip : Option Nat} {running : List Extent} (h : s.Books skip running) :
    s.queueDead.Books skip running := by
  unfold State.queueDead
  induction dieNumbers generalizing s with
  | nil => exact h
  | cons d l ih => exact ih (h.queueDeadOn d)

theorem State.clearPending_dieBlocks (s : State) (d : Nat) : s.clearPending.dieBlocks d =
    { s.dieBlocks d with blocks := (s.dieBlocks d).blocks.map fun b => { b with pending := 0 } } := by
  unfold State.dieBlocks State.clearPending
  simp only [State.setCatalogue_catalogue, List.getD_eq_getElem?_getD, List.getElem?_map]
  cases s.catalogue.blockTable[d]? <;> rfl

theorem pagesIn_nil (d b : Nat) : pagesIn [] d b = 0 := rfl

/-- No page is pending any more (R165). -/
theorem State.Books.clearPending {s : State} {skip : Option Nat} {running : List Extent} (h : s.Books skip running) :
    s.clearPending.Books skip [] := by
  have hblock := s.clearPending_block
  have hlisted {d b : Nat} {k : Block} (hk : s.clearPending.lists d b k) :
      s.lists d b (s.block d b) ∧ k = { s.block d b with pending := 0 } := by
    obtain ⟨hb, hk⟩ := State.lists_iff.1 hk
    rw [s.clearPending_dieBlocks, List.length_map] at hb
    exact ⟨State.lists_of_length hb, hk ▸ hblock d b⟩
  have hby {d : Nat} {p : Program} : s.installsBy d p → s.clearPending.installsBy d p :=
    State.installsBy_congr (s := s) (t := s.clearPending) rfl fun n hn => ⟨n, by rw [hblock]; exact hn⟩
  refine ⟨h.booked.retabled (fun d b k hd hk hlog => ?_) (fun d b k hk _ => ?_) (fun d b k hk hstate => ?_) (fun d => ?_)
    (fun d b => by rw [hblock]) (fun d b _ hb => by rw [hblock]; exact hb) (fun d p hp => hby (h.booked.queued d p hp))
    (fun x hx => hby (h.booked.failed x hx)) (fun d p hp => ?_) rfl rfl, h.idle, h.busy⟩
  · obtain ⟨hs, rfl⟩ := hlisted hk
    exact h.booked.live d b (s.block d b) hd hs hlog
  · obtain ⟨-, rfl⟩ := hlisted hk
    rfl
  · obtain ⟨hs, rfl⟩ := hlisted hk
    exact ⟨(h.booked.dead d b _ hs hstate).1, rfl⟩
  · rw [s.clearPending_dieBlocks]
    refine ⟨(h.booked.free d).1, fun b hb => ?_⟩
    rw [hblock]
    exact (h.booked.free d).2 b hb
  · refine (h.booked.underWay d p hp).imp hby fun ⟨hold, hstate⟩ => ⟨hold, ?_⟩
    rw [hblock]
    exact hstate

/-! ### One block -/

theorem State.lists_updateBlock {s : State} {d b e k : Nat} {f : Block → Block} {x y : Block} (hy : s.lists d b y) :
    (s.updateBlock d b f).lists e k x ↔ if e = d ∧ k = b then x = f y else s.lists e k x := by
  obtain ⟨hb, hblock⟩ := State.lists_iff.1 hy
  rw [State.lists_iff, (s.updateBlock_free d b f e).2]
  by_cases h : e = d ∧ k = b
  · obtain ⟨rfl, rfl⟩ := h
    rw [if_pos ⟨rfl, rfl⟩, State.block_updateBlock_same hb, hblock]
    exact ⟨fun h => h.2.symm, fun h => ⟨hb, h.symm⟩⟩
  · rw [if_neg h, State.block_updateBlock_other h, State.lists_iff]

/-- One block changed, the pending pages of the others as they were. -/
theorem State.Booked.updateBlock {s : State} {skip : Option Nat} {running running' : List Extent} {d b : Nat} {y : Block}
    (h : s.Booked skip running) (hy : s.lists d b y) (f : Block → Block)
    (hother : ∀ e k, ¬(e = d ∧ k = b) → pagesIn running' e k = pagesIn running e k)
    (hlog : (f y).state = .log ↔ y.state = .log)
    (hlive : (f y).live = y.live) (hpending : y.state ≠ .log → (f y).pending = pagesIn running' d b)
    (hdead : (f y).state = .queued ∨ (f y).state = .erasing → (f y).live = 0 ∧ (f y).pending = 0)
    (hfree : b ∉ (s.dieBlocks d).free)
    (herase : b ∈ s.erasesAt skip d → y.state = .queued ∨ y.state = .erasing →
      (f y).state = .queued ∨ (f y).state = .erasing)
    (hqueued : ∀ e, ∀ p ∈ (s.die e).longOps.filterMap LongOp.page?, (s.updateBlock d b f).installsBy e p)
    (hfails : ∀ x ∈ s.failedPages, (s.updateBlock d b f).installsBy x.1 x.2)
    (hunder : ∀ e p, (s.under skip e).bind LongOp.page? = some p →
      (s.updateBlock d b f).installsBy e p ∨ (s.updateBlock d b f).holdsFor e p) :
    (s.updateBlock d b f).Booked skip running' := by
  obtain ⟨hb, hblock⟩ := State.lists_iff.1 hy
  have hsame : (s.updateBlock d b f).block d b = f y := by rw [State.block_updateBlock_same hb, hblock]
  have helse {e k : Nat} (he : ¬(e = d ∧ k = b)) : (s.updateBlock d b f).block e k = s.block e k :=
    State.block_updateBlock_other he f
  refine h.retabled (fun e k x he hx hl => ?_) (fun e k x hx hl => ?_) (fun e k x hx hstate => ?_) (fun e => ?_)
    (fun e k => ?_) (fun e k hk hstate => ?_) hqueued hfails hunder rfl rfl
  · rw [State.lists_updateBlock hy] at hx
    split at hx
    next hek =>
      obtain ⟨rfl, rfl⟩ := hek
      subst hx
      rw [hlive]
      exact h.live e k y he hy fun hyl => hl (hlog.2 hyl)
    next => exact h.live e k x he hx hl
  · rw [State.lists_updateBlock hy] at hx
    split at hx
    next hek =>
      obtain ⟨rfl, rfl⟩ := hek
      subst hx
      exact hpending fun hyl => hl (hlog.2 hyl)
    next hek =>
      rw [hother e k hek]
      exact h.pending e k x hx hl
  · rw [State.lists_updateBlock hy] at hx
    split at hx
    next =>
      subst hx
      exact hdead hstate
    next => exact h.dead e k x hx hstate
  · rw [(s.updateBlock_free d b f e).1]
    refine ⟨(h.free e).1, fun k hk => ?_⟩
    rw [helse fun hek => hfree (hek.1 ▸ hek.2 ▸ hk)]
    exact (h.free e).2 k hk
  · by_cases hek : e = d ∧ k = b
    · rw [hek.1, hek.2, hsame, hblock]
      exact hlog
    · rw [helse hek]
  · by_cases hek : e = d ∧ k = b
    · obtain ⟨rfl, rfl⟩ := hek
      rw [hsame]
      rw [hblock] at hstate
      exact herase hk hstate
    · rw [helse hek]
      exact hstate

theorem State.Books.of_booked {s t : State} {skip : Option Nat} {running running' : List Extent}
    (h : s.Books skip running) (hdies : t.media.dies = s.media.dies) (hb : t.Booked skip running') :
    t.Books skip running' := by
  refine ⟨hb, ?_, fun d hd => ?_⟩
  · unfold State.IdleFree
    rw [hdies]
    exact h.idle
  · rw [State.die_of_dies hdies]
    exact h.busy d hd

/-- With no page program held, a block that has pages of an install takes another state or count (R11, R163). -/
theorem State.Books.updateUsed {s : State} {skip : Option Nat} {running running' : List Extent} {d b : Nat} {y : Block}
    (h : s.Books skip running) (hnone : s.NoPages skip) (hy : s.lists d b y) (f : Block → Block)
    (hother : ∀ e k, ¬(e = d ∧ k = b) → pagesIn running' e k = pagesIn running e k)
    (hstate : y.state = .erasing ∧ f y = y ∨
      (∃ n, y.state = .opened n) ∧ ((f y).state = .full ∨ (∃ n, (f y).state = .opened n) ∨ (f y).state = .worn))
    (hlive : (f y).live = y.live) (hcount : (f y).pending + pagesIn running d b = y.pending + pagesIn running' d b) :
    (s.updateBlock d b f).Books skip running' := by
  have hlog : y.state ≠ .log := by
    rcases hstate with ⟨hs, -⟩ | ⟨⟨n, hs⟩, -⟩ <;> rw [hs] <;> nofun
  have hpending := h.booked.pending d b y hy hlog
  refine h.of_booked rfl (h.booked.updateBlock hy f hother ⟨fun hf => ?_, fun hy => absurd hy hlog⟩ hlive
    (fun _ => by omega) (fun hq => ?_) (fun hmem => ?_) (fun hmem hq => ?_) (fun e p => hnone.queued e p)
    (fun x => hnone.failed x) fun e p => hnone.under e p)
  · rcases hstate with ⟨-, hs⟩ | ⟨-, hs | ⟨n, hs⟩ | hs⟩
    · exact hs ▸ hf
    all_goals rw [hs] at hf; cases hf
  · rcases hstate with ⟨hs, hf⟩ | ⟨-, hs | ⟨n, hs⟩ | hs⟩
    · rw [hf]
      exact h.booked.dead d b y hy (.inr hs)
    all_goals rw [hs] at hq; rcases hq with hq | hq <;> cases hq
  · have hfree := (h.booked.free d).2 b hmem
    rw [State.lists_block hy] at hfree
    rcases hstate with ⟨hs, -⟩ | ⟨⟨n, hs⟩, -⟩ <;> rw [hs] at hfree <;> cases hfree
  · rcases hstate with ⟨hs, hf⟩ | ⟨⟨n, hs⟩, -⟩
    · exact .inr (by rw [hf, hs])
    · rw [hs] at hq
      rcases hq with hq | hq <;> cases hq

theorem pagesIn_append (l m : List Extent) (d b : Nat) : pagesIn (l ++ m) d b = pagesIn l d b + pagesIn m d b := by
  simp [pagesIn]

/-- One page more lies in the extents of an install (R163). -/
theorem pagesIn_extendWith (d b page : Nat) (extents : List Extent) (e k : Nat) :
    pagesIn (extendWith d b page extents) e k = pagesIn extents e k + if e = d ∧ k = b then 1 else 0 := by
  have hone (x : Extent) : pagesIn [x] e k = if e = x.die ∧ k = x.block then x.count else 0 := by
    rw [pagesIn_cons, pagesIn_nil, Nat.add_zero]
  unfold extendWith
  split
  next x hx =>
    have hsplit : extents = extents.dropLast ++ [x] := (List.dropLast_append_getLast? x hx).symm
    split
    next h =>
      obtain ⟨rfl, rfl⟩ := h
      conv_rhs => rw [hsplit]
      rw [pagesIn_append, pagesIn_append, hone, hone]
      dsimp only
      split <;> omega
    next => rw [pagesIn_append, hone]
  next hx =>
    rw [List.getLast?_eq_none_iff.1 hx, hone, pagesIn_nil, Nat.zero_add]

/-- The head of a die's free list is opened (R11). -/
theorem State.Books.openBlock {s : State} {skip : Option Nat} {running : List Extent} {d b : Nat} {rest : List Nat}
    (h : s.Books skip running) (hnone : s.NoPages skip) (hfree : (s.dieBlocks d).free = b :: rest) :
    (s.openBlock d b).Books skip running ∧ ((s.openBlock d b).block d b).state = .opened 0 := by
  obtain ⟨hnodup, hstates⟩ := h.booked.free d
  rw [hfree] at hnodup hstates
  obtain ⟨hb, hrest⟩ := List.nodup_cons.1 hnodup
  have hstate : (s.block d b).state = .free := hstates b List.mem_cons_self
  have hlisted : s.lists d b (s.block d b) := State.lists_of_state (by rw [hstate]; nofun)
  have hd : d < s.catalogue.blockTable.length := Nat.lt_of_not_le fun hle => by
    rw [State.dieBlocks_beyond (Nat.not_lt.2 hle)] at hfree
    cases hfree
  generalize ht : (s.updateDieBlocks d fun t => { t with free := t.free.tail }) = t
  have hblocks (e : Nat) : (t.dieBlocks e).blocks = (s.dieBlocks e).blocks := by
    rw [← ht, State.dieBlocks_updateDieBlocks]
    split
    next he => rw [he.1]
    next => rfl
  have hblock (e k : Nat) : t.block e k = s.block e k := congrArg (fun l : List Block => l.getD k Block.unset) (hblocks e)
  have hlists (e k : Nat) (x : Block) : t.lists e k x ↔ s.lists e k x := by
    unfold State.lists
    rw [hblocks]
  have hfrees (e : Nat) : (t.dieBlocks e).free = if e = d then rest else (s.dieBlocks e).free := by
    rw [← ht, State.dieBlocks_updateDieBlocks]
    by_cases he : e = d
    · rw [if_pos ⟨he, hd⟩, if_pos he, hfree] <;> rfl
    · rw [if_neg fun h => he h.1, if_neg he]
  have htook : t.Booked skip running := by
    refine h.booked.retabled (fun e k x he hx => ?_) (fun e k x hx => ?_) (fun e k x hx => ?_) (fun e => ?_)
      (fun e k => by rw [hblock]) (fun e k _ hk => by rwa [hblock]) (fun e p => hnone.queued e p)
      (fun x => hnone.failed x) (fun e p => hnone.under e p) (by rw [← ht]; rfl) (by rw [← ht]; rfl)
    · rw [← ht]
      exact h.booked.live e k x he ((hlists e k x).1 hx)
    · exact h.booked.pending e k x ((hlists e k x).1 hx)
    · exact h.booked.dead e k x ((hlists e k x).1 hx)
    · simp only [hfrees, hblock]
      split
      next he =>
        subst he
        exact ⟨hrest, fun k hk => hstates k (List.mem_cons_of_mem _ hk)⟩
      next => exact h.booked.free e
  have htnone : t.NoPages skip := hnone.same (by rw [← ht]; rfl) (by rw [← ht]; rfl)
  have hopened : (s.openBlock d b) = t.updateBlock d b fun k => { k with state := .opened 0 } := by
    rw [← ht]
    rfl
  have htlisted : t.lists d b (s.block d b) := (hlists d b _).2 hlisted
  refine ⟨h.of_booked (by rw [hopened, ← ht]; rfl) ?_, ?_⟩
  · rw [hopened]
    refine htook.updateBlock htlisted (fun k => { k with state := .opened 0 }) (fun _ _ _ => rfl) ⟨nofun, fun hl => ?_⟩ rfl
      (fun hl => htook.pending d b (s.block d b) htlisted hl) (fun hq => ?_) (fun hmem => ?_) (fun hmem hq => ?_)
      (fun e p => htnone.queued e p) (fun x => htnone.failed x) fun e p => htnone.under e p
    · rw [hstate] at hl
      cases hl
    · rcases hq with hq | hq <;> cases hq
    · rw [hfrees, if_pos rfl] at hmem
      exact hb hmem
    · rw [hstate] at hq
      rcases hq with hq | hq <;> cases hq
  · rw [hopened, State.block_updateBlock_same (State.lists_length htlisted)]

/-! ### The end of an erase -/

/-- The block whose erase has ended on die `d` takes another state, the page programs of other blocks as they were. -/
theorem State.Books.updateErased {s : State} {running : List Extent} {d b : Nat} (h : s.Books (some d) running)
    (hstate : (s.block d b).state = .queued ∨ (s.block d b).state = .erasing) (hnew : b ∉ s.erasesAt (some d) d)
    (f : Block → Block) (hf : (f (s.block d b)).state = .free ∨ (f (s.block d b)).state = .worn)
    (hlive : (f (s.block d b)).live = (s.block d b).live)
    (hpending : (f (s.block d b)).pending = (s.block d b).pending) :
    (s.updateBlock d b f).Books (some d) running := by
  have hlisted : s.lists d b (s.block d b) := State.lists_of_state (by rcases hstate with hs | hs <;> rw [hs] <;> nofun)
  have hlog : (s.block d b).state ≠ .log := by rcases hstate with hs | hs <;> rw [hs] <;> nofun
  have helse {e k : Nat} (he : ¬(e = d ∧ k = b)) : (s.updateBlock d b f).block e k = s.block e k :=
    State.block_updateBlock_other he f
  have hby {e : Nat} {p : Program} : s.installsBy e p → (s.updateBlock d b f).installsBy e p :=
    State.installsBy_congr (s := s) (t := s.updateBlock d b f) rfl fun n hn => ⟨n, by
      rw [helse]
      · exact hn
      · rintro ⟨rfl, he⟩
        rw [he] at hn
        rcases hstate with hs | hs <;> rw [hs] at hn <;> cases hn⟩
  refine h.of_booked rfl (h.booked.updateBlock hlisted f (fun _ _ _ => rfl) ⟨fun hl => ?_, fun hl => absurd hl hlog⟩ hlive
    (fun hl => ?_) (fun hq => ?_) (fun hmem => ?_) (fun hmem => absurd hmem hnew)
    (fun e p hp => hby (h.booked.queued e p hp)) (fun x hx => hby (h.booked.failed x hx)) fun e p hp => ?_)
  · rcases hf with hs | hs <;> rw [hs] at hl <;> cases hl
  · rw [hpending]
    exact h.booked.pending d b _ hlisted hl
  · rw [hlive, hpending]
    exact h.booked.dead d b _ hlisted hstate
  · have hfree := (h.booked.free d).2 b hmem
    rcases hstate with hs | hs <;> rw [hs] at hfree <;> cases hfree
  · refine (h.booked.underWay e p hp).imp hby fun ⟨hold, hs⟩ => ⟨hold, ?_⟩
    rw [helse]
    · exact hs
    · rintro ⟨rfl, -⟩
      unfold State.under at hp
      rw [if_pos rfl] at hp
      cases hp

theorem State.Books.pushFree {s : State} {skip : Option Nat} {running : List Extent} {d b : Nat} (h : s.Books skip running)
    (hd : d < s.catalogue.blockTable.length) (hfree : (s.block d b).state = .free) (hnew : b ∉ (s.dieBlocks d).free) :
    (s.pushFree d b).Books skip running := by
  have hpush := State.dieBlocks_pushFree hd b
  have hother (e : Nat) (he : e ≠ d) : (s.pushFree d b).dieBlocks e = s.dieBlocks e := by
    unfold State.pushFree
    rw [State.dieBlocks_updateDieBlocks, if_neg fun h => he h.1]
  have hblocks (e : Nat) : ((s.pushFree d b).dieBlocks e).blocks = (s.dieBlocks e).blocks := by
    by_cases he : e = d
    · rw [he, hpush]
    · rw [hother e he]
  have hblock (e k : Nat) : (s.pushFree d b).block e k = s.block e k :=
    congrArg (fun l : List Block => l.getD k Block.unset) (hblocks e)
  have hlists (e k : Nat) (x : Block) : (s.pushFree d b).lists e k x ↔ s.lists e k x := by
    unfold State.lists
    rw [hblocks]
  have hby {e : Nat} {p : Program} : s.installsBy e p → (s.pushFree d b).installsBy e p :=
    State.installsBy_congr (s := s) (t := s.pushFree d b) rfl fun n hn => ⟨n, by rw [hblock]; exact hn⟩
  refine h.of_booked rfl (h.booked.retabled (fun e k x he hx => h.booked.live e k x he ((hlists e k x).1 hx))
    (fun e k x hx => h.booked.pending e k x ((hlists e k x).1 hx))
    (fun e k x hx => h.booked.dead e k x ((hlists e k x).1 hx)) (fun e => ?_) (fun e k => by rw [hblock])
    (fun e k _ hk => by rwa [hblock]) (fun e p hp => hby (h.booked.queued e p hp))
    (fun x hx => hby (h.booked.failed x hx)) (fun e p hp => ?_) rfl rfl)
  · obtain ⟨hnodup, hstates⟩ := h.booked.free e
    by_cases he : e = d
    · subst he
      simp only [hpush, hblock]
      refine ⟨List.nodup_append.2 ⟨hnodup, List.nodup_singleton b, fun x hx y hy hxy => ?_⟩, fun x hx => ?_⟩
      · rw [List.mem_singleton.1 hy] at hxy
        exact hnew (hxy ▸ hx)
      · rcases List.mem_append.1 hx with hx | hx
        · exact hstates x hx
        · rw [List.mem_singleton.1 hx]
          exact hfree
    · simp only [hother e he, hblock]
      exact ⟨hnodup, hstates⟩
  · refine (h.booked.underWay e p hp).imp hby fun ⟨hold, hs⟩ => ⟨hold, ?_⟩
    rw [hblock]
    exact hs

/-- The block of an ended erase: FREE at the tail of its die's list, or WORN (R11, R103). -/
theorem State.Books.blockErased {s : State} {running : List Extent} {d b : Nat} (h : s.Books (some d) running)
    (hstate : (s.block d b).state = .log ∨ (s.block d b).state = .queued ∨ (s.block d b).state = .erasing)
    (hnew : (s.block d b).state ≠ .log → b ∉ s.erasesAt (some d) d) (ok : Bool) :
    (s.blockErased d b ok).Books (some d) running := by
  unfold State.blockErased
  split
  · exact h
  next hlog =>
    have hdying := hstate.resolve_left hlog
    have hlisted : s.lists d b (s.block d b) :=
      State.lists_of_state (by rcases hdying with hs | hs <;> rw [hs] <;> nofun)
    have hb := State.lists_length hlisted
    have hd : d < s.catalogue.blockTable.length := Nat.lt_of_not_le fun hle => by
      rw [State.dieBlocks_beyond (Nat.not_lt.2 hle)] at hb
      cases hb
    obtain ⟨hlive, hpending⟩ := h.booked.dead d b _ hlisted hdying
    split
    · have hfreed := h.updateErased hdying (hnew hlog) (fun _ => { state := .free, live := 0, pending := 0 }) (.inl rfl)
        hlive.symm hpending.symm
      refine hfreed.pushFree ?_ ?_ ?_
      · simpa [State.updateBlock, State.updateDieBlocks] using hd
      · rw [State.block_updateBlock_same hb]
      · rw [(s.updateBlock_free d b _ d).1]
        intro hmem
        have hfree := (h.booked.free d).2 b hmem
        rcases hdying with hs | hs <;> rw [hs] at hfree <;> cases hfree
    · exact h.updateErased hdying (hnew hlog) (fun k => { k with state := .worn }) (.inr rfl) rfl rfl

/-! ### The operation that ends -/

/-- The law with the operation of die `d` taken as ended; its erase is no longer counted, and a page program leaves none
behind. -/
theorem State.Books.ended {s : State} {running : List Extent} {d : Nat} {op : LongOp} (h : s.Books none running)
    (hop : (s.die d).state.longOp? = some op) : s.Books (some d) running ∧
    (∀ p, op.page? = some p → s.NoPages (some d) ∧ (s.installsBy d p ∨ s.holdsFor d p)) ∧
    ∀ b, op = .erase b →
      ((s.block d b).state = .log ∨ (s.block d b).state = .queued ∨ (s.block d b).state = .erasing) ∧
      ((s.block d b).state ≠ .log → b ∉ s.erasesAt (some d) d) := by
  have hunderd : s.under (some d) d = none := if_pos rfl
  have hunder (e : Nat) (he : e ≠ d) : s.under (some d) e = s.under none e := by
    unfold State.under
    rw [if_neg fun hs => he (Option.some.inj hs).symm, if_neg nofun]
  have hopsd : s.opsBut none d = op :: s.opsBut (some d) d := by
    unfold State.opsBut
    rw [s.under_none, hop, hunderd]
    rfl
  have hops (e : Nat) (he : e ≠ d) : s.opsBut (some d) e = s.opsBut none e := by
    unfold State.opsBut
    rw [hunder e he]
  have hpagesd : s.pagesAt none d = op.page?.toList ++ s.pagesAt (some d) d := by
    unfold State.pagesAt
    rw [hopsd]
    cases hp : op.page? with
    | none => simp [hp]
    | some p => simp [hp]
  have herasesd : s.erasesAt none d = op.erases?.toList ++ s.erasesAt (some d) d := by
    unfold State.erasesAt
    rw [hopsd]
    cases hp : op.erases? with
    | none => simp [hp]
    | some p => simp [hp]
  have hpages (e : Nat) (he : e ≠ d) : s.pagesAt (some d) e = s.pagesAt none e := by
    unfold State.pagesAt
    rw [hops e he]
  have herases (e : Nat) (he : e ≠ d) : s.erasesAt (some d) e = s.erasesAt none e := by
    unfold State.erasesAt
    rw [hops e he]
  have hsub (e : Nat) : s.pagesAt (some d) e ≠ [] → s.pagesAt none e ≠ [] := by
    by_cases he : e = d
    · rw [he, hpagesd]
      intro hne
      simp [hne]
    · rw [hpages e he]
      exact id
  obtain ⟨hnodup, hstates⟩ := h.booked.erases d
  rw [herasesd] at hnodup hstates
  have hbooked : s.Booked (some d) running := by
    refine ⟨h.booked.live, h.booked.pending, h.booked.dead, fun e => ?_, h.booked.free, fun e => ?_, fun e f hef hne => ?_,
      h.booked.queued, h.booked.failed, fun e p hp => ?_⟩
    · by_cases he : e = d
      · subst he
        rw [List.filter_append] at hnodup
        exact ⟨(List.nodup_append.1 hnodup).2.1, fun b hb => hstates b (List.mem_append_right _ hb)⟩
      · rw [herases e he]
        exact h.booked.erases e
    · by_cases he : e = d
      · subst he
        have := h.booked.one e
        rw [hpagesd, List.length_append] at this
        omega
      · rw [hpages e he]
        exact h.booked.one e
    · by_contra hf
      exact hsub f hf (h.booked.apart e f hef (hsub e hne))
    · by_cases he : e = d
      · rw [he, hunderd] at hp
        cases hp
      · rw [hunder e he] at hp
        exact h.booked.underWay e p hp
  refine ⟨⟨hbooked, h.idle, fun e he hidle => ?_⟩, fun p hp => ⟨⟨fun e => ?_, ?_⟩, ?_⟩, fun b hb => ⟨?_, fun hlog hmem => ?_⟩⟩
  · rw [Option.some.inj he, hidle] at hop
    cases hop
  · by_cases he : e = d
    · subst he
      have := h.booked.one e
      rw [hpagesd, hp] at this
      simp only [Option.toList_some, List.length_append, List.length_singleton] at this
      exact List.eq_nil_of_length_eq_zero (by omega)
    · rw [hpages e he]
      refine h.booked.apart d e (Ne.symm he) ?_
      rw [hpagesd, hp]
      simp
  · have := h.booked.one d
    rw [hpagesd, hp] at this
    simp only [Option.toList_some, List.length_append, List.length_singleton] at this
    exact List.eq_nil_of_length_eq_zero (by omega)
  · refine h.booked.underWay d p ?_
    rw [s.under_none, hop]
    exact hp
  · subst hb
    exact hstates b (List.mem_append_left _ (by simp [LongOp.erases?]))
  · subst hb
    rw [List.filter_append, List.nodup_append] at hnodup
    obtain ⟨-, -, hdisjoint⟩ := hnodup
    exact hdisjoint b (List.mem_filter.2 ⟨by simp [LongOp.erases?], by simpa using hlog⟩) b
      (List.mem_filter.2 ⟨hmem, by simpa using hlog⟩) rfl

/-- The die whose operation has ended becomes IDLE and makes its choice (R94, R101). -/
theorem State.Books.becomeIdle {s : State} {running : List Extent} {d : Nat} (h : s.Books (some d) running)
    : (s.becomeIdle d).Books none running := by
  generalize ht : (s.updateDie d fun die => { die with state := .idle, lastResume := none }) = t
  have hother (e : Nat) (he : e ≠ d) : t.die e = s.die e := by
    rw [← ht, State.die_updateDie, if_neg fun h => he h.1]
  have hlong (e : Nat) : (t.die e).longOps = (s.die e).longOps := by
    rw [← ht, State.die_updateDie]
    split
    next he => rw [he.1]
    next => rfl
  have hidled : (t.die d).state = .idle := by
    rw [← ht, State.die_updateDie]
    split
    next => rfl
    next hd =>
      rw [State.die_eq_reset fun hlt => hd ⟨rfl, hlt⟩]
      rfl
  have hunder (e : Nat) : t.under none e = s.under (some d) e := by
    unfold State.under
    rw [if_neg nofun]
    by_cases he : e = d
    · rw [he, if_pos rfl, hidled]
      rfl
    · rw [if_neg fun hs => he (Option.some.inj hs).symm, hother e he]
  have hops (e : Nat) : t.opsBut none e = s.opsBut (some d) e := by
    unfold State.opsBut
    rw [hunder, hlong]
  have hpages (e : Nat) : t.pagesAt none e = s.pagesAt (some d) e := by unfold State.pagesAt; rw [hops]
  have herases (e : Nat) : t.erasesAt none e = s.erasesAt (some d) e := by unfold State.erasesAt; rw [hops]
  have hcatalogue : t.catalogue = s.catalogue := by rw [← ht]; rfl
  have hblock (e b : Nat) : t.block e b = s.block e b := State.block_congr (congrArg _ hcatalogue) e b
  have hlists := State.lists_congr (congrArg Catalogue.blockTable hcatalogue)
  have hinst : t.installer = s.installer := by rw [← ht]; rfl
  have hfails : t.failedPages = s.failedPages := by rw [← ht]; rfl
  have hby {e : Nat} {p : Program} : s.installsBy e p → t.installsBy e p :=
    State.installsBy_congr (by rw [hinst]) fun n hn => ⟨n, by rw [hblock]; exact hn⟩
  have hb := h.booked
  have htbooked : t.Booked none running := by
    refine ⟨fun e b k he hk => ?_, fun e b k hk => ?_, fun e b k hk => ?_, fun e => ?_, fun e => ?_, fun e => ?_,
      fun e f hef => ?_, fun e p hp => ?_, fun x hx => ?_, fun e p hp => ?_⟩
    · rw [hcatalogue]
      exact hb.live e b k he ((hlists e b k).1 hk)
    · exact hb.pending e b k ((hlists e b k).1 hk)
    · exact hb.dead e b k ((hlists e b k).1 hk)
    · simp only [herases, hblock]
      exact hb.erases e
    · simp only [State.dieBlocks_congr (congrArg Catalogue.blockTable hcatalogue), hblock]
      exact hb.free e
    · rw [hpages, hfails]
      exact hb.one e
    · rw [hpages, hpages]
      exact hb.apart e f hef
    · rw [hlong] at hp
      exact hby (hb.queued e p hp)
    · rw [hfails] at hx
      exact hby (hb.failed x hx)
    · rw [hunder] at hp
      refine (hb.underWay e p hp).imp hby fun ⟨hold, hs⟩ => ⟨by rw [hinst]; exact hold, ?_⟩
      rw [hblock]
      exact hs
  obtain ⟨hbooked, hidle⟩ := htbooked.idleChoice (d := d) nofun fun e he hidle => by
    rw [hother e he] at hidle ⊢
    exact s.idleFree_iff.1 h.idle e hidle
  unfold State.becomeIdle
  rw [ht]
  exact ⟨hbooked, hidle, nofun⟩

end Sys2Proof.Machine
end

