-- ==== Sys2Proof/Proofs/BookItems.lean ====
section
/-! SUPPORT. The page law and the work list (O55): the items that begin, that program their pages, and that end. -/

namespace Sys2Proof.Machine

/-- What the installer's operations keep within a step taken outside STARTING: the page law, what it says of the head of
the work list, and the law of uses. -/
structure State.Known (s : State) (skip : Option Nat) : Prop where
  books : s.Books skip s.runningExtents
  head  : s.HeadKnown
  uses  : s.usesLawful

/-! ### The head of the work list -/

theorem State.runningExtents_install {s : State} {i : InstallItem} {rest : List WorkItem}
    (hw : s.installer.work = .install i :: rest) : s.runningExtents = i.extents := by
  unfold State.runningExtents
  rw [hw]
  rfl

theorem State.runningExtents_reclaim {s : State} {sender region : Nat} {running : Bool} {rest : List WorkItem}
    (hw : s.installer.work = .reclaim sender region running :: rest) : s.runningExtents = [] := by
  unfold State.runningExtents
  rw [hw]
  rfl

theorem State.runningExtents_wipe {s : State} {sender worn left logLeft : Nat} {rest : List WorkItem}
    (hw : s.installer.work = .wipe sender worn left logLeft :: rest) : s.runningExtents = [] := by
  unfold State.runningExtents
  rw [hw]
  rfl

theorem State.runningExtents_empty {s : State} (hw : s.installer.work = []) : s.runningExtents = [] := by
  unfold State.runningExtents
  rw [hw]
  rfl

/-- An item behind the head has begun nothing: once it is the head, no page is pending (R158). -/
theorem State.usesLawful.next_head {s t : State} (hs : s.usesLawful) (ht : t.installer.work = s.installer.work.tail) :
    t.runningExtents = [] ∧ ∀ i, t.installer.work.head? = some (.install i) → i.phase = .waiting := by
  cases hw : t.installer.work with
  | nil => exact ⟨State.runningExtents_empty hw, nofun⟩
  | cons w rest =>
    have hwaits := hs.waiting w (by rw [← ht, hw]; exact List.mem_cons_self)
    cases w with
    | reclaim => exact ⟨State.runningExtents_reclaim hw, nofun⟩
    | wipe => exact ⟨State.runningExtents_wipe hw, nofun⟩
    | install i =>
      simp only [WorkItem.waits, Bool.and_eq_true, beq_iff_eq, List.isEmpty_iff] at hwaits
      obtain ⟨hphase, hextents⟩ := hwaits
      refine ⟨(State.runningExtents_install hw).trans hextents, fun j hj => ?_⟩
      cases hj
      exact hphase

/-- The state with the head item ended and no install read. -/
theorem State.HeadKnown.next {s t : State} (hs : s.usesLawful) (ht : t.installer.work = s.installer.work.tail)
    (hread : t.delivery.installRead = none) : t.HeadKnown :=
  ⟨fun _ => (hs.next_head ht).2, fun h => by rw [hread] at h; cases h⟩

/-- With a head that programs no page only an ended install's program can be held, and it is under way (R166). -/
theorem State.Books.noPages_of_under {s : State} {skip : Option Nat} {running : List Extent} (h : s.Books skip running)
    (hrests : s.HeadRests) (hunder : ∀ d p, (s.under skip d).bind LongOp.page? ≠ some p) : s.NoPages skip := by
  refine ⟨fun d => List.eq_nil_iff_forall_not_mem.2 fun p hp => ?_, List.eq_nil_iff_forall_not_mem.2 fun x hx =>
    hrests.not_installsBy (h.booked.failed x hx)⟩
  unfold State.pagesAt State.opsBut at hp
  rw [List.filterMap_append] at hp
  rcases List.mem_append.1 hp with hp | hp
  · refine hunder d p ?_
    cases hop : s.under skip d with
    | none => rw [hop] at hp; cases hp
    | some op =>
      rw [hop] at hp
      simpa using hp
  · exact hrests.not_installsBy (h.booked.queued d p hp)

/-- Without a held page buffer and an install that programs there is no page program (R163, R166). -/
theorem State.Books.noPages {s : State} {skip : Option Nat} {running : List Extent} (h : s.Books skip running)
    (hheld : s.installer.held = false) (hrests : s.HeadRests) : s.NoPages skip := by
  refine h.noPages_of_under hrests fun d p hp => ?_
  obtain ⟨hold, -⟩ := (h.booked.underWay d p hp).resolve_left hrests.not_installsBy
  rw [hheld] at hold
  cases hold

/-! ### An install that fails -/

theorem State.IdleFree.idleCalm {s : State} (h : s.IdleFree) : s.IdleCalm := fun die hm hidle op hop => by
  rw [h die hm hidle] at hop
  cases hop

theorem State.failedPages_congr {s t : State} (h : t.media.frontFailed = s.media.frontFailed) :
    t.failedPages = s.failedPages := by
  unfold State.failedPages
  rw [h]

/-- The page program under way on a die is the program under way there. -/
theorem DieState.page_of_program (x : DieState) : x.longOp?.bind LongOp.page? =
    x.program?.bind fun p => if p.purpose = .page then some p else none := by
  unfold DieState.program?
  cases x.longOp? with
  | none => rfl
  | some op => cases op <;> rfl

theorem State.under_page_congr {s t : State} (h : ∀ d, (t.die d).state.program? = (s.die d).state.program?)
    (skip : Option Nat) (d : Nat) :
    (t.under skip d).bind LongOp.page? = (s.under skip d).bind LongOp.page? := by
  unfold State.under
  split
  · rfl
  · rw [DieState.page_of_program, DieState.page_of_program, h]

theorem filterMap_filter_erases (l : List LongOp) :
    (l.filter fun op => !op.isProgram).filterMap LongOp.erases? = l.filterMap LongOp.erases? := by
  induction l with
  | nil => rfl
  | cons op l ih =>
    cases op with
    | program p => exact ih
    | erase b => exact congrArg (b :: ·) ih

theorem filterMap_filter_pages (l : List LongOp) :
    (l.filter fun op => !op.isProgram).filterMap LongOp.page? = [] := by
  induction l with
  | nil => rfl
  | cons op l ih =>
    cases op with
    | program p => exact ih
    | erase b => exact ih

/-- The waiting programs leave the queues, and the work list loses its head (R165). -/
theorem State.Books.withdraw {s t : State} {skip : Option Nat} {running : List Extent} (h : s.Books skip running)
    (hpage : ∀ d p, (s.under skip d).bind LongOp.page? = some p → s.installer.held = true)
    (hfail : s.failedPages = []) (htable : t.catalogue.blockTable = s.catalogue.blockTable)
    (hext : t.catalogue.regions.flatMap (·.extents) = s.catalogue.regions.flatMap (·.extents))
    (hheld : t.installer.held = s.installer.held) (hmedia : t.media = s.withdrawPrograms.media) :
    t.Books skip running := by
  have hdie (d : Nat) : t.die d = { s.die d with longOps := (s.die d).longOps.filter fun op => !op.isProgram } := by
    rw [State.die_of_dies (congrArg Media.dies hmedia)]
    exact State.die_mapDies s _ rfl d
  have hunder (d : Nat) : t.under skip d = s.under skip d := by
    unfold State.under
    rw [hdie]
  have hpages (d : Nat) : ∃ l, s.pagesAt skip d = t.pagesAt skip d ++ l := by
    unfold State.pagesAt State.opsBut
    rw [hunder, hdie, List.filterMap_append, List.filterMap_append, filterMap_filter_pages, List.append_nil]
    exact ⟨_, rfl⟩
  have herases (d : Nat) : t.erasesAt skip d = s.erasesAt skip d := by
    unfold State.erasesAt State.opsBut
    rw [hunder, hdie, List.filterMap_append, List.filterMap_append, filterMap_filter_erases]
  have hfails : t.failedPages = [] := by
    rw [← hfail]
    refine State.failedPages_congr ?_
    rw [hmedia]
    rfl
  have hblock := State.block_congr htable
  have hlists := State.lists_congr htable
  have hb := h.booked
  refine ⟨⟨fun d b k hd hk => ?_, fun d b k hk => ?_, fun d b k hk => ?_, fun d => ?_, fun d => ?_, fun d => ?_,
    fun d e hde hne => ?_, fun d p hp => ?_, fun x hx => ?_, fun d p hp => .inr ?_⟩, ?_, fun d hd => ?_⟩
  · rw [hext]
    exact hb.live d b k hd ((hlists d b k).1 hk)
  · exact hb.pending d b k ((hlists d b k).1 hk)
  · exact hb.dead d b k ((hlists d b k).1 hk)
  · simp only [herases, hblock]
    exact hb.erases d
  · simp only [State.dieBlocks_congr htable, hblock]
    exact hb.free d
  · obtain ⟨l, hl⟩ := hpages d
    have := hb.one d
    rw [hl, List.length_append, hfail] at this
    rw [hfails]
    simp only [List.length_nil] at *
    omega
  · obtain ⟨l, hl⟩ := hpages d
    obtain ⟨m, hm⟩ := hpages e
    have hnil := hb.apart d e hde (by rw [hl]; simp [hne])
    rw [hm] at hnil
    exact (List.append_eq_nil_iff.1 hnil).1
  · rw [hdie] at hp
    dsimp only at hp
    rw [filterMap_filter_pages] at hp
    cases hp
  · rw [hfails] at hx
    cases hx
  · rw [hunder] at hp
    refine ⟨hheld.trans (hpage d p hp), ?_⟩
    rw [hblock]
    rcases hb.underWay d p hp with ⟨i, n, -, -, -, hn⟩ | ⟨-, hstate⟩
    · exact .inr ⟨n, hn⟩
    · exact hstate
  · rw [State.idleFree_iff]
    intro d hidle
    rw [hdie] at hidle ⊢
    have hnil := s.idleFree_iff.1 h.idle d hidle
    dsimp only
    rw [hnil]
    rfl
  · rw [hdie]
    exact h.busy d hd

theorem State.Books.failInstall {s : State} {skip : Option Nat} {running : List Extent} (h : s.Books skip running)
    (hpage : ∀ d p, (s.under skip d).bind LongOp.page? = some p → s.installer.held = true)
    (hfail : s.failedPages = []) (i : InstallItem) (reason : Reason) :
    (s.failInstall i reason).Books skip [] := by
  have hcleared := h.clearPending
  have hbooks := hcleared.queueDead
  have hidling := s.clearPending.queueDead_idling
  have hcalm := hcleared.idle.idleCalm
  have hinstaller : s.clearPending.queueDead.installer = s.installer := s.clearPending.queueDead_step.installer
  have hpages := State.under_page_congr (hidling.programs hcalm) skip
  have hfails : s.clearPending.queueDead.failedPages = [] := (State.failedPages_congr (hidling.refused hcalm)).trans hfail
  unfold State.failInstall
  generalize s.clearPending.queueDead = y at *
  exact hbooks.withdraw (fun d p hp => by rw [hinstaller]; exact hpage d p ((hpages d).symm.trans hp)) hfails rfl rfl rfl rfl

/-- An install fails whose page programs are withdrawn, or hold the page buffer (R165, R166). -/
theorem State.Books.failKnown {s : State} {skip : Option Nat} {running : List Extent} {i : InstallItem}
    {rest : List WorkItem} (h : s.Books skip running) (hs : s.usesLawful) (hw : s.installer.work = .install i :: rest)
    (hread : s.delivery.installRead = none)
    (hpage : ∀ d p, (s.under skip d).bind LongOp.page? = some p → s.installer.held = true)
    (hfail : s.failedPages = []) (reason : Reason) : (s.failInstall i reason).Known skip := by
  have htail : (s.failInstall i reason).installer.work = s.installer.work.tail :=
    State.work_of_shelf (s.failInstall_shelf i reason)
  refine ⟨?_, .next hs htail (by rw [s.failInstall_delivery]; exact hread), State.failInstall_usesLawful hs hw reason⟩
  rw [(hs.next_head htail).1]
  exact h.failInstall hpage hfail i reason

/-! ### The next item -/

/-- The head item, which programs no page, ends in another way (R158). -/
theorem State.Known.endItem {s t : State} {skip : Option Nat} (h : s.Known skip) (hrests : s.HeadRests)
    (hrun : s.runningExtents = []) (htail : t.installer.work = s.installer.work.tail)
    (htable : t.catalogue.blockTable = s.catalogue.blockTable)
    (hext : t.catalogue.regions.flatMap (·.extents) = s.catalogue.regions.flatMap (·.extents))
    (hheld : t.installer.held = s.installer.held)
    (hmedia : t.media = s.media) (hread : t.delivery.installRead = none) (huses : t.usesLawful) : t.Known skip := by
  refine ⟨?_, .next h.uses htail hread, huses⟩
  have hbooks := h.books
  rw [hrun] at hbooks
  rw [(h.uses.next_head htail).1]
  exact hbooks.rehead hrests htable hext hheld (congrArg Media.dies hmedia) (congrArg Media.frontFailed hmedia)

theorem State.headRests_of {s : State} {w : WorkItem} {rest : List WorkItem} (hw : s.installer.work = w :: rest)
    (h : ∀ i, w = .install i → i.phase ≠ .programming) : s.HeadRests := by
  intro i hi
  rw [hw] at hi
  exact h i (Option.some.inj hi)

theorem restated_extents (id : Nat) (x : RegionState) (l : List Region) :
    (updateFirst (fun r => r.id == id) (fun r => { r with state := x }) l).flatMap (·.extents) =
      l.flatMap (·.extents) := by
  have h := updateFirst_map (fun r : Region => r.id == id) (fun r : Region => { r with state := x }) (·.extents)
    (fun _ => rfl) l
  have hflat := congrArg List.flatten h
  rwa [← List.flatMap_def, ← List.flatMap_def] at hflat

theorem State.HeadKnown.noRead {s : State} (h : s.HeadKnown) {w : WorkItem} {rest : List WorkItem}
    (hw : s.installer.work = w :: rest) (hphase : ∀ i, w = .install i → i.phase ≠ .reading) :
    s.delivery.installRead = none := by
  cases hread : s.delivery.installRead with
  | none => rfl
  | some r =>
    obtain ⟨i, hi, hreading⟩ := h.reading (by rw [hread]; rfl)
    rw [hw] at hi
    exact absurd hreading (hphase i (Option.some.inj hi))

theorem State.Known.noPages {s : State} {skip : Option Nat} (h : s.Known skip) (hheld : s.installer.held = false)
    {w : WorkItem} {rest : List WorkItem} (hw : s.installer.work = w :: rest)
    (hphase : ∀ i, w = .install i → i.phase ≠ .programming) : s.NoPages skip := by
  refine h.books.noPages hheld fun i hi => ?_
  rw [hw] at hi
  exact hphase i (Option.some.inj hi)

/-- The running install asks for its next page, with no page program held (R162). -/
theorem State.Books.startReading {s : State} {skip : Option Nat} {i : InstallItem}
    (h : s.Books skip i.extents) (hnone : s.NoPages skip) (hheld : s.installer.held = false)
    (huses : (s.startReading i).usesLawful) : (s.startReading i).Known skip := by
  have hw : (s.startReading i).installer.work = .install { i with phase := .reading } :: s.installer.work.tail := rfl
  refine ⟨?_, ⟨fun hh => ?_, fun _ => ⟨_, by rw [hw]; rfl, rfl⟩⟩, huses⟩
  · rw [State.runningExtents_install hw]
    exact h.library hnone rfl rfl rfl rfl
  · have hh' : s.installer.held = true := hh
    rw [hheld] at hh'
    cases hh'

theorem State.runReclaim_known {s : State} {skip : Option Nat} {sender region : Nat} {rest : List WorkItem} (h : s.Known skip)
    (hw : s.installer.work = .reclaim sender region false :: rest) (hheld : s.installer.held = false)
    (huses : (s.runReclaim sender region).usesLawful) : (s.runReclaim sender region).Known skip := by
  have hnone : s.NoPages skip := h.noPages hheld hw nofun
  have hread := h.head.noRead hw nofun
  have hbooks := h.books
  rw [State.runningExtents_reclaim hw] at hbooks
  have hjoin := State.joinLongOp_die ((s.setHead (.reclaim sender region true)).updateRegion region
    fun r => { r with state := .departing }) 0
  have hstep (record : List Byte) := State.appendRecord_die ((s.setHead (.reclaim sender region true)).updateRegion region
    fun r => { r with state := .departing }) record
  have hinst : (s.runReclaim sender region).installer =
      { s.installer with work := .reclaim sender region true :: s.installer.work.tail } :=
    (hstep (voidRecord region)).media.installer
  have hdelivery : (s.runReclaim sender region).delivery = s.delivery := (hstep (voidRecord region)).media.delivery
  refine ⟨?_, ⟨fun hh => ?_, fun hh => ?_⟩, huses⟩
  · rw [State.runningExtents_reclaim (by rw [hinst])]
    refine State.Books.appendRecord (s := (s.setHead (.reclaim sender region true)).updateRegion region
      fun r => { r with state := .departing }) ?_ _
    exact hbooks.library hnone rfl (restated_extents region .departing s.catalogue.regions) rfl rfl
  · rw [hinst] at hh
    have hh' : s.installer.held = true := hh
    rw [hheld] at hh'
    cases hh'
  · rw [hdelivery, hread] at hh
    cases hh

/-- The items that begin or end where the installer is free keep the law (R158). -/
theorem State.startNext_known {skip : Option Nat} (n : Nat) :
    ∀ {s t : State}, s.Known skip → State.startNext n s = t → t.usesLawful → t.Known skip := by
  induction n with
  | zero => exact fun h ht _ => ht ▸ h
  | succ n ih =>
    intro s t h ht huses
    have hnext {u : State} (hu : u.Known skip) (ht : State.startNext n u = t) : t.Known skip := ih hu ht huses
    rw [State.startNext] at ht
    split at ht
    · exact ht ▸ h
    next hheld =>
      have hfree : s.installer.held = false := by simpa using hheld
      split at ht
      next i rest hw =>
        split at ht
        next hphase =>
          have hwaits (j : InstallItem) (hj : WorkItem.install i = .install j) : j.phase = .waiting := by
            cases hj
            exact hphase
          have hnone := h.noPages hfree hw fun j hj => by rw [hwaits j hj]; nofun
          have hread := h.head.noRead hw fun j hj => by rw [hwaits j hj]; nofun
          have hbooks := h.books
          rw [State.runningExtents_install hw] at hbooks
          split at ht
          · subst ht
            exact hbooks.startReading hnone hfree huses
          · exact hnext (hbooks.failKnown h.uses hw hread (fun d p hp => hnone.under d p hp) hnone.2 .linkDown) ht
        · exact ht ▸ h
      next sender region rest hw =>
        have hread := h.head.noRead hw nofun
        have hend (reason : Reason) : ((s.endReclaim).refuse sender 11 reason region).Known skip :=
          h.endItem (State.headRests_of hw nofun) (State.runningExtents_reclaim hw) rfl rfl rfl rfl rfl hread
            (h.uses.leave_other ((s.endReclaim_step).trans (State.refuse_installStep _ _ _ _ _)) hw rfl rfl)
        split at ht
        · exact hnext (hend .absent) ht
        · split at ht
          · exact hnext (hend .inUse) ht
          · subst ht
            exact State.runReclaim_known h hw hfree huses
      · exact ht ▸ h
      · exact ht ▸ h
      · exact ht ▸ h

theorem State.Known.nextItem {s : State} {skip : Option Nat} (h : s.Known skip) : s.nextItem.Known skip :=
  State.startNext_known 4 h rfl (State.nextItem_usesLawful h.uses)

theorem State.Books.installFails {s : State} {skip : Option Nat} {running : List Extent} {i : InstallItem}
    {rest : List WorkItem} (h : s.Books skip running) (hs : s.usesLawful) (hw : s.installer.work = .install i :: rest)
    (hread : s.delivery.installRead = none)
    (hpage : ∀ d p, (s.under skip d).bind LongOp.page? = some p → s.installer.held = true)
    (hfail : s.failedPages = []) (reason : Reason) : (s.installFails i reason).Known skip :=
  (h.failKnown hs hw hread hpage hfail reason).nextItem

/-! ### A page on its die -/

/-- A page's program placed in an OPEN block of its die, with no other held (R163). -/
theorem State.Books.placeProgram {s : State} {skip : Option Nat} {i : InstallItem} {b page next : Nat}
    (h : s.Books skip i.extents) (hnone : s.NoPages skip) (hheld : s.installer.held = false)
    (hread : s.delivery.installRead = none) (hopen : (s.block i.die b).state = .opened next)
    (huses : (s.placeProgram i b page).usesLawful) : (s.placeProgram i b page).Known skip := by
  have hstep := State.joinLongOp_die (s.setHead (.install { i with phase := .programming })) i.die
    (.program { block := b, page := page, first := 0, count := i.programSectors, purpose := .page })
  have hinst : (s.placeProgram i b page).installer =
      { s.installer with work := .install { i with phase := .programming } :: s.installer.work.tail } :=
    hstep.media.installer
  have hdelivery : (s.placeProgram i b page).delivery = s.delivery := hstep.media.delivery
  refine ⟨?_, ⟨fun hh => ?_, fun hh => ?_⟩, huses⟩
  · rw [State.runningExtents_install (by rw [hinst])]
    have hset : (s.setHead (.install { i with phase := .programming })).Books skip i.extents :=
      h.library hnone rfl rfl rfl rfl
    exact hset.joinPage rfl (hnone.same rfl rfl)
      ⟨{ i with phase := .programming }, next, rfl, rfl, rfl, hopen⟩
  · rw [hinst] at hh
    have hh' : s.installer.held = true := hh
    rw [hheld] at hh'
    cases hh'
  · rw [hdelivery, hread] at hh
    cases hh

theorem DieBlocks.openBlock_some {t : DieBlocks} {b next : Nat} (h : t.openBlock? = some (b, next)) :
    (t.blocks.getD b Block.unset).state = .opened next := by
  unfold DieBlocks.openBlock? at h
  obtain ⟨⟨k, n⟩, hmem, hk⟩ := List.exists_of_findSome?_eq_some h
  have hget : t.blocks[n]? = some k := List.mem_zipIdx_iff_getElem?.1 hmem
  dsimp only at hk
  split at hk
  next m hm =>
    cases hk
    rw [List.getD_eq_getElem?_getD, hget]
    exact hm
  all_goals cases hk

/-- The running install enters PROGRAMMING, with no page program held and its read ended (R163). -/
theorem State.Books.enterProgramming {s : State} {skip : Option Nat} {i : InstallItem} {rest : List WorkItem}
    (h : s.Books skip i.extents) (hs : s.usesLawful) (hw : s.installer.work = .install i :: rest)
    (hnone : s.NoPages skip) (hheld : s.installer.held = false) (hread : s.delivery.installRead = none) :
    (s.enterProgramming i).Known skip := by
  have huses := State.enterProgramming_usesLawful hs hw
  generalize ht : s.enterProgramming i = t at huses ⊢
  unfold State.enterProgramming at ht
  dsimp only at ht
  split at ht
  next b next hopen =>
    subst ht
    exact h.placeProgram hnone hheld hread (DieBlocks.openBlock_some hopen) huses
  next b tail hopen hfree =>
    subst ht
    obtain ⟨hbooks, hstate⟩ := h.openBlock hnone hfree
    exact hbooks.placeProgram (hnone.same rfl rfl) hheld hread hstate huses
  next hopen hfree =>
    split at ht
    next herase =>
      subst ht
      have hhead : (s.setHead (.install { i with phase := .waitingBlock })).installer.work =
          .install { i with phase := .waitingBlock } :: s.installer.work.tail := rfl
      refine ⟨?_, ⟨fun hh => ?_, fun hh => ?_⟩, huses⟩
      · rw [State.runningExtents_install hhead]
        exact h.library hnone rfl rfl rfl rfl
      · have hh' : s.installer.held = true := hh
        rw [hheld] at hh'
        cases hh'
      · have hh' : s.delivery.installRead.isSome = true := hh
        rw [hread] at hh'
        cases hh'
    next herase =>
      rw [← ht]
      exact h.installFails hs hw hread (fun d p hp => hnone.under d p hp) hnone.2 .noSpace

end Sys2Proof.Machine
end

