-- ==== Sys2Proof/Proofs/BookResults.lean ====
section
/-! SUPPORT. The page law and the results of long operations (O55): pages and log records programmed, blocks erased, and
the programs turned away. -/

namespace Sys2Proof.Machine

/-! ### Changes outside the library -/

theorem State.HeadKnown.same {s t : State} (h : s.HeadKnown)
    (hwork : t.installer.work.head? = s.installer.work.head?)
    (hheld : t.installer.held = true → s.installer.held = true)
    (hread : t.delivery.installRead = s.delivery.installRead) : t.HeadKnown := by
  refine ⟨fun hh i hi => h.held (hheld hh) i (hwork.symm.trans hi), fun hh => ?_⟩
  rw [hread] at hh
  obtain ⟨i, hi, hphase⟩ := h.reading hh
  exact ⟨i, hwork.trans hi, hphase⟩

theorem State.runningExtents_congr {s t : State} (h : t.installer.work.head? = s.installer.work.head?) :
    t.runningExtents = s.runningExtents := by
  unfold State.runningExtents
  rw [h]

/-- A change outside the library's books. -/
theorem State.Known.same {s t : State} {skip : Option Nat} (h : s.Known skip)
    (htable : t.catalogue.blockTable = s.catalogue.blockTable)
    (hext : t.catalogue.regions.flatMap (·.extents) = s.catalogue.regions.flatMap (·.extents))
    (hwork : t.installer.work.head? = s.installer.work.head?) (hheld : t.installer.held = s.installer.held)
    (hread : t.delivery.installRead = s.delivery.installRead)
    (hdies : t.media.dies = s.media.dies) (hfailed : t.media.frontFailed = s.media.frontFailed)
    (huses : t.usesLawful) : t.Known skip := by
  refine ⟨?_, h.head.same hwork (fun hh => hheld ▸ hh) hread, huses⟩
  rw [State.runningExtents_congr hwork]
  exact h.books.same htable hext hwork hheld hdies hfailed

/-- An install that has begun finds the page buffer free (R166). -/
theorem State.HeadKnown.notHeld {s : State} (h : s.HeadKnown) {i : InstallItem} {rest : List WorkItem}
    (hw : s.installer.work = .install i :: rest) (hphase : i.phase ≠ .waiting) : s.installer.held = false := by
  cases hheld : s.installer.held with
  | false => rfl
  | true => exact absurd (h.held hheld i (by rw [hw]; rfl)) hphase

theorem State.HeadKnown.noReadBy {s : State} (h : s.HeadKnown) {i : InstallItem} {rest : List WorkItem}
    (hw : s.installer.work = .install i :: rest) (hphase : i.phase ≠ .reading) : s.delivery.installRead = none :=
  h.noRead hw fun _ hj => (WorkItem.install.inj hj) ▸ hphase

/-! ### A page program's result -/

theorem Block.pageUsed_opened {k : Block} {n : Nat} (h : k.state = .opened n) :
    (k.pageUsed.state = .full ∨ ∃ m, k.pageUsed.state = .opened m) ∧ k.pageUsed.live = k.live ∧
      k.pageUsed.pending = k.pending := by
  unfold Block.pageUsed
  rw [h]
  refine ⟨?_, rfl, rfl⟩
  dsimp only
  split
  · exact .inl rfl
  · exact .inr ⟨_, rfl⟩

theorem Block.pageUsed_erasing {k : Block} (h : k.state = .erasing) : k.pageUsed = k := by
  unfold Block.pageUsed
  rw [h]

theorem Block.programFailed_opened {k : Block} {n : Nat} (h : k.state = .opened n) :
    k.programFailed = { k with state := .worn } := if_neg (by rw [h]; nofun)

theorem Block.programFailed_erasing {k : Block} (h : k.state = .erasing) : k.programFailed = k := if_pos h

/-- The running install takes the success of its page program (R163, R164). -/
theorem State.Books.pageProgrammed {s : State} {skip : Option Nat} {i : InstallItem} {rest : List WorkItem}
    {p : Program} {n : Nat} (h : s.Books skip i.extents) (hs : s.usesLawful)
    (hw : s.installer.work = .install i :: rest) (hnone : s.NoPages skip) (hheld : s.installer.held = false)
    (hread : s.delivery.installRead = none) (hopen : (s.block i.die p.block).state = .opened n) :
    (s.pageProgrammed i p).Known skip := by
  have huses := State.pageProgrammed_usesLawful hs hw p
  have hlisted : s.lists i.die p.block (s.block i.die p.block) := State.lists_of_state (by rw [hopen]; nofun)
  obtain ⟨hto, hlive, hpending⟩ := Block.pageUsed_opened hopen
  have hused : (s.updateBlock i.die p.block fun b => b.pageUsed.addPending).Books skip
      (i.programmed p.block p.page).extents := by
    refine h.updateUsed hnone hlisted _ (fun e k hek => ?_) (.inr ⟨⟨n, hopen⟩, hto.imp_right .inl⟩) hlive ?_
    · exact (pagesIn_extendWith _ _ _ _ e k).trans (by rw [if_neg hek, Nat.add_zero])
    · show (s.block i.die p.block).pageUsed.pending + 1 + _ = _
      rw [hpending, show pagesIn (i.programmed p.block p.page).extents i.die p.block = _ from
        pagesIn_extendWith _ _ _ _ _ _, if_pos ⟨rfl, rfl⟩]
      omega
  have hnone' : (s.updateBlock i.die p.block fun b => b.pageUsed.addPending).NoPages skip := hnone.same rfl rfl
  generalize ht : s.pageProgrammed i p = t at huses ⊢
  unfold State.pageProgrammed at ht
  dsimp only at ht
  generalize hj : i.programmed p.block p.page = j at hused ht
  split at ht
  · subst ht
    exact hused.startReading hnone' hheld huses
  · subst ht
    generalize hy : (s.updateBlock i.die p.block fun b => b.pageUsed.addPending).setHead
      (.install { j with phase := .appending }) = y at huses ⊢
    have hyw : y.installer.work = .install { j with phase := .appending } :: s.installer.work.tail := by
      rw [← hy]
      rfl
    have hyheld : y.installer.held = false := by
      rw [← hy]
      exact hheld
    have hyread : y.delivery.installRead = none := by
      rw [← hy]
      exact hread
    have hbooks : y.Books skip j.extents := by
      subst hy
      exact hused.library hnone' rfl rfl rfl rfl
    have hinst := (y.appendRecord_die j.logRecord).media.installer
    have hdelivery := (y.appendRecord_die j.logRecord).media.delivery
    refine ⟨?_, ⟨fun hh => ?_, fun hh => ?_⟩, huses⟩
    · rw [State.runningExtents_install (i := { j with phase := .appending }) (by rw [hinst, hyw])]
      exact hbooks.appendRecord _
    · rw [hinst, hyheld] at hh
      cases hh
    · rw [hdelivery, hyread] at hh
      cases hh

/-- The result of an ended install's page program: its block used, and the page buffer free (R166). -/
theorem State.Known.orphanResult {s : State} {skip : Option Nat} {d : Nat} {p : Program} (h : s.Known skip)
    (hnone : s.NoPages skip) (hrests : s.HeadRests) (hfor : s.holdsFor d p) (ok : Bool) :
    (s.orphanResult d p ok).Known skip := by
  obtain ⟨-, hstate⟩ := hfor
  have hlisted : s.lists d p.block (s.block d p.block) :=
    State.lists_of_state (by rcases hstate with hs | ⟨n, hs⟩ <;> rw [hs] <;> nofun)
  have updates (f : Block → Block) (herasing : ∀ k : Block, k.state = .erasing → f k = k)
      (hopened : ∀ (k : Block) n, k.state = .opened n →
        ((f k).state = .full ∨ (∃ m, (f k).state = .opened m) ∨ (f k).state = .worn) ∧ (f k).live = k.live ∧
          (f k).pending = k.pending) :
      (s.updateBlock d p.block f).Books skip s.runningExtents := by
    rcases hstate with hs | ⟨n, hs⟩
    · have hf := herasing _ hs
      exact h.books.updateUsed hnone hlisted f (fun _ _ _ => rfl) (.inl ⟨hs, hf⟩) (by rw [hf]) (by rw [hf])
    · obtain ⟨hto, hlive, hpending⟩ := hopened _ n hs
      exact h.books.updateUsed hnone hlisted f (fun _ _ _ => rfl) (.inr ⟨⟨n, hs⟩, hto⟩) hlive (by rw [hpending])
  have finishes {x : State} (hb : x.Books skip s.runningExtents) (hx : x.NoPages skip)
      (hinst : x.installer = s.installer) (hread : x.delivery = s.delivery)
      (huses : (x.setInstaller { x.installer with held := false }).usesLawful) :
      ((x.setInstaller { x.installer with held := false }).nextItem).Known skip := by
    refine State.Known.nextItem ⟨?_, h.head.same ?_ nofun ?_, huses⟩
    · rw [State.runningExtents_congr (s := s) (by rw [← hinst]; rfl)]
      exact hb.library hx rfl rfl rfl rfl
    · rw [← hinst]
      rfl
    · rw [← hread]
      rfl
  cases ok with
  | false =>
    have hused := updates Block.programFailed (fun _ => Block.programFailed_erasing) fun k n hk => by
      rw [Block.programFailed_opened hk]
      exact ⟨.inr (.inr rfl), rfl, rfl⟩
    exact finishes hused (hnone.same rfl rfl) rfl rfl
      ((h.uses.same (State.updateBlock_step s _ _ _).installStep rfl).same (InstallStep.setInstaller _ _) rfl)
  | true =>
    have hused := updates Block.pageUsed (fun _ => Block.pageUsed_erasing) fun k n hk => by
      obtain ⟨hto, hlive, hpending⟩ := Block.pageUsed_opened hk
      exact ⟨hto.imp_right .inl, hlive, hpending⟩
    have hstep := State.queueDeadOn_step (s.updateBlock d p.block Block.pageUsed) d
    have hshelf := State.queueDeadOn_shelf (s.updateBlock d p.block Block.pageUsed) d
    have hidling := State.queueDeadOn_idling (s.updateBlock d p.block Block.pageUsed) d
    have hbooks := hused.queueDeadOn d
    have hunder := State.under_page_congr (hidling.programs hused.idle.idleCalm) skip
    have huses := (h.uses.same ((State.updateBlock_step s _ _ _).trans hstep).installStep hshelf).same
      (InstallStep.setInstaller _ { (State.queueDeadOn (s.updateBlock d p.block Block.pageUsed) d).installer with
        held := false }) rfl
    refine finishes hbooks ?_ hstep.installer hstep.delivery huses
    refine hbooks.noPages_of_under (fun i hi => hrests i ?_) fun e q hq => ?_
    · rw [hstep.installer] at hi
      exact hi
    · exact (hnone.same (t := s.updateBlock d p.block Block.pageUsed) rfl rfl).under e q ((hunder e).symm.trans hq)

/-- The result of a page program reaches the install that runs, or frees the page buffer (R163, R166). -/
theorem State.Known.pageResult {s : State} {skip : Option Nat} {d : Nat} {p : Program} (h : s.Known skip)
    (hnone : s.NoPages skip) (hby : s.installsBy d p ∨ s.holdsFor d p) (ok : Bool) : (s.pageResult d p ok).Known skip := by
  have orphan (hrests : s.HeadRests) : (s.orphanResult d p ok).Known skip :=
    h.orphanResult hnone hrests (hby.resolve_left hrests.not_installsBy) ok
  unfold State.pageResult
  split
  next i rest hw =>
    split
    next hphase =>
      have hbegun : i.phase ≠ .waiting := by rw [hphase]; nofun
      have hheld := h.head.notHeld hw hbegun
      have hread := h.head.noReadBy hw (by rw [hphase]; nofun)
      have hbooks := h.books
      rw [State.runningExtents_install hw] at hbooks
      obtain ⟨n, rfl, hopen⟩ : ∃ n, i.die = d ∧ (s.block d p.block).state = .opened n := by
        rcases hby with ⟨j, n, hj, -, hdie, hopen⟩ | ⟨hold, -⟩
        · rw [hw] at hj
          exact ⟨n, (WorkItem.install.inj (Option.some.inj hj)) ▸ hdie, hopen⟩
        · rw [hheld] at hold
          cases hold
      split
      · exact hbooks.pageProgrammed h.uses hw hnone hheld hread hopen
      · have hfailed : (s.updateBlock i.die p.block Block.programFailed).Books skip i.extents := by
          have hto := Block.programFailed_opened hopen
          refine hbooks.updateUsed hnone (State.lists_of_state (by rw [hopen]; nofun)) _ (fun _ _ _ => rfl)
            (.inr ⟨⟨n, hopen⟩, .inr (.inr ?_)⟩) ?_ ?_
          all_goals rw [hto]
        have hnone' : (s.updateBlock i.die p.block Block.programFailed).NoPages skip := hnone.same rfl rfl
        have huses : (s.updateBlock i.die p.block Block.programFailed).usesLawful :=
          h.uses.same (State.updateBlock_step s _ _ _).installStep rfl
        exact hfailed.installFails huses hw hread
          (fun e q hq => hnone'.under e q hq) hnone'.2 .program
    next hphase =>
      refine orphan fun j hj => ?_
      rw [hw] at hj
      exact (WorkItem.install.inj (Option.some.inj hj)) ▸ hphase
  next hw =>
    refine orphan fun j hj => ?_
    obtain ⟨rest, hrest⟩ := List.head?_eq_some_iff.1 hj
    exact absurd hrest (hw j rest)

/-! ### A log record's result -/

/-- The page counts of the blocks move, and their states stay. -/
theorem State.Books.recounted {s t : State} {skip : Option Nat} {running running' : List Extent}
    (h : s.Books skip running) (hstate : ∀ d b, (t.block d b).state = (s.block d b).state)
    (hlive : ∀ d b, d < 8 → s.lists d b (s.block d b) → (s.block d b).state ≠ .log →
      (t.block d b).live = pagesIn (t.catalogue.regions.flatMap (·.extents)) d b)
    (hpending : ∀ d b, s.lists d b (s.block d b) → (s.block d b).state ≠ .log →
      (t.block d b).pending = pagesIn running' d b)
    (hdead : ∀ d b, s.lists d b (s.block d b) → (s.block d b).state = .queued ∨ (s.block d b).state = .erasing →
      (t.block d b).live = 0 ∧ (t.block d b).pending = 0)
    (hlength : ∀ d, (t.dieBlocks d).blocks.length = (s.dieBlocks d).blocks.length)
    (hfree : ∀ d, (t.dieBlocks d).free = (s.dieBlocks d).free) (hinst : t.installer = s.installer)
    (hmedia : t.media = s.media) : t.Books skip running' := by
  have hlisted {d b : Nat} {k : Block} (hk : t.lists d b k) :
      s.lists d b (s.block d b) ∧ k = t.block d b ∧ (s.block d b).state = k.state := by
    obtain ⟨hb, rfl⟩ := State.lists_iff.1 hk
    exact ⟨State.lists_of_length (hlength d ▸ hb), rfl, (hstate d b).symm⟩
  have hby {d : Nat} {p : Program} : s.installsBy d p → t.installsBy d p :=
    State.installsBy_congr (s := s) (t := t) (by rw [hinst]) fun n hn => ⟨n, (hstate _ _).trans hn⟩
  refine h.of_booked (congrArg Media.dies hmedia) (h.booked.retabled (fun d b k hd hk hl => ?_) (fun d b k hk hl => ?_)
    (fun d b k hk hs => ?_) (fun d => ?_) (fun d b => by rw [hstate]) (fun d b _ hb => by rwa [hstate])
    (fun d p hp => hby (h.booked.queued d p hp)) (fun x hx => hby (h.booked.failed x hx)) (fun d p hp => ?_)
    (congrArg Media.dies hmedia) (congrArg Media.frontFailed hmedia))
  · obtain ⟨hs, rfl, heq⟩ := hlisted hk
    exact hlive d b hd hs (heq ▸ hl)
  · obtain ⟨hs, rfl, heq⟩ := hlisted hk
    exact hpending d b hs (heq ▸ hl)
  · obtain ⟨hs', rfl, heq⟩ := hlisted hk
    exact hdead d b hs' (by rw [heq]; exact hs)
  · simp only [hfree, hstate]
    exact h.booked.free d
  · refine (h.booked.underWay d p hp).imp hby fun ⟨hold, hs⟩ => ⟨by rw [hinst]; exact hold, ?_⟩
    rw [hstate]
    exact hs

theorem foldl_updateBlock_lists (f : Extent → Block → Block) (extents : List Extent) : ∀ (s : State) (d : Nat),
    ((extents.foldl (fun s x => s.updateBlock x.die x.block (f x)) s).dieBlocks d).free = (s.dieBlocks d).free ∧
      ((extents.foldl (fun s x => s.updateBlock x.die x.block (f x)) s).dieBlocks d).blocks.length =
        (s.dieBlocks d).blocks.length := by
  induction extents with
  | nil => exact fun _ _ => ⟨rfl, rfl⟩
  | cons x extents ih =>
    intro s d
    obtain ⟨hfree, hlength⟩ := ih (s.updateBlock x.die x.block (f x)) d
    obtain ⟨hfree', hlength'⟩ := s.updateBlock_free x.die x.block (f x) d
    exact ⟨hfree.trans hfree', hlength.trans hlength'⟩

theorem State.block_beyond {s : State} {d b : Nat} (h : ¬b < (s.dieBlocks d).blocks.length) : s.block d b = Block.unset :=
  List.getD_eq_default _ _ (Nat.not_lt.1 h)

/-- The pages of the running install become live, and its region enters the table (R12, R164). -/
theorem State.Books.makeLive {s : State} {skip : Option Nat} {r : Region} {extents : List Extent}
    (h : s.Books skip extents) (hr : r.extents = extents) :
    ((s.setCatalogue { s.catalogue with regions := s.catalogue.regions ++ [r] }).makeLive extents).Books skip [] := by
  subst hr
  generalize hu : s.setCatalogue { s.catalogue with regions := s.catalogue.regions ++ [r] } = u
  have hdie (d : Nat) : u.dieBlocks d = s.dieBlocks d := by rw [← hu]; rfl
  have hblock (d b : Nat) : u.block d b = s.block d b := by rw [← hu]; rfl
  have hstep : TableStep u (u.makeLive r.extents) := TableStep.foldl _ _ u
  have hlists (d : Nat) : ((u.makeLive r.extents).dieBlocks d).free = (u.dieBlocks d).free ∧
      ((u.makeLive r.extents).dieBlocks d).blocks.length = (u.dieBlocks d).blocks.length :=
    foldl_updateBlock_lists _ r.extents u d
  have hto {d b : Nat} (hb : b < (s.dieBlocks d).blocks.length) : (u.makeLive r.extents).block d b =
      { s.block d b with live := (s.block d b).live + pagesIn r.extents d b
                         pending := (s.block d b).pending - pagesIn r.extents d b } := by
    rw [State.makeLive_block (by rw [hdie]; exact hb), hblock]
  have hregions : (u.makeLive r.extents).catalogue.regions = s.catalogue.regions ++ [r] := by
    rw [hstep.regions, ← hu]
    rfl
  generalize u.makeLive r.extents = t at *
  refine h.recounted (fun d b => ?_) (fun d b hd hk hl => ?_) (fun d b hk hl => ?_) (fun d b hk hs => ?_)
    (fun d => (hlists d).2.trans (by rw [hdie])) (fun d => (hlists d).1.trans (by rw [hdie]))
    (hstep.installer.trans (by rw [← hu]; rfl)) (hstep.media.trans (by rw [← hu]; rfl))
  · by_cases hb : b < (s.dieBlocks d).blocks.length
    · rw [hto hb]
    · rw [State.block_beyond hb, State.block_beyond (by rw [(hlists d).2, hdie]; exact hb)]
  · rw [hto (State.lists_length hk), hregions, List.flatMap_append, pagesIn_append, List.flatMap_singleton]
    exact congrArg (· + _) (h.booked.live d b _ hd hk hl)
  · rw [hto (State.lists_length hk)]
    show (s.block d b).pending - _ = 0
    rw [h.booked.pending d b _ hk hl, Nat.sub_self]
  · obtain ⟨hlive, hpending⟩ := h.booked.dead d b _ hk hs
    have hlog : (s.block d b).state ≠ .log := by rcases hs with hs | hs <;> rw [hs] <;> nofun
    have hzero := h.booked.pending d b _ hk hlog
    rw [hto (State.lists_length hk)]
    show (s.block d b).live + _ = 0 ∧ (s.block d b).pending - _ = 0
    omega

/-- The pages of a removed region are live no more (R12, R168). -/
theorem State.Books.loseLive {s : State} {skip : Option Nat} {running : List Extent} {r : Region}
    (h : s.Books skip running) (hids : (s.catalogue.regions.map (·.id)).Nodup) (hr : r ∈ s.catalogue.regions) :
    ((s.setCatalogue { s.catalogue with regions := s.catalogue.regions.filter (·.id != r.id) }).loseLive
      r.extents).Books skip running := by
  generalize hu : s.setCatalogue { s.catalogue with regions := s.catalogue.regions.filter (·.id != r.id) } = u
  have hdie (d : Nat) : u.dieBlocks d = s.dieBlocks d := by rw [← hu]; rfl
  have hblock (d b : Nat) : u.block d b = s.block d b := by rw [← hu]; rfl
  have hstep : TableStep u (u.loseLive r.extents) := TableStep.foldl _ _ u
  have hlists (d : Nat) : ((u.loseLive r.extents).dieBlocks d).free = (u.dieBlocks d).free ∧
      ((u.loseLive r.extents).dieBlocks d).blocks.length = (u.dieBlocks d).blocks.length :=
    foldl_updateBlock_lists _ r.extents u d
  have hto {d b : Nat} (hb : b < (s.dieBlocks d).blocks.length) : (u.loseLive r.extents).block d b =
      { s.block d b with live := (s.block d b).live - pagesIn r.extents d b } := by
    rw [State.loseLive_block (by rw [hdie]; exact hb), hblock]
  have hregions : (u.loseLive r.extents).catalogue.regions = s.catalogue.regions.filter (·.id != r.id) := by
    rw [hstep.regions, ← hu]
    rfl
  have hpages (d b : Nat) (l : List Region) : pagesIn (l.flatMap (·.extents)) d b =
      (l.map fun x => pagesIn x.extents d b).sum := by
    induction l with
    | nil => rfl
    | cons x l ih => rw [List.flatMap_cons, pagesIn_append, ih, List.map_cons, List.sum_cons]
  generalize u.loseLive r.extents = t at *
  refine h.recounted (fun d b => ?_) (fun d b hd hk hl => ?_) (fun d b hk hl => ?_) (fun d b hk hs => ?_)
    (fun d => (hlists d).2.trans (by rw [hdie])) (fun d => (hlists d).1.trans (by rw [hdie]))
    (hstep.installer.trans (by rw [← hu]; rfl)) (hstep.media.trans (by rw [← hu]; rfl))
  · by_cases hb : b < (s.dieBlocks d).blocks.length
    · rw [hto hb]
    · rw [State.block_beyond hb, State.block_beyond (by rw [(hlists d).2, hdie]; exact hb)]
  · have hall := h.booked.live d b _ hd hk hl
    have hsum := sum_filter_key Region.id (fun x => pagesIn x.extents d b) s.catalogue.regions r hids hr
    rw [hto (State.lists_length hk), hregions, hpages]
    rw [hpages, hsum] at hall
    show (s.block d b).live - _ = _
    omega
  · rw [hto (State.lists_length hk)]
    show (s.block d b).pending = _
    exact h.booked.pending d b _ hk hl
  · obtain ⟨hlive, hpending⟩ := h.booked.dead d b _ hk hs
    rw [hto (State.lists_length hk)]
    show (s.block d b).live - _ = 0 ∧ (s.block d b).pending = 0
    omega

/-- The INSTALL log record is programmed (R164). -/
theorem State.Known.installComplete {s : State} {skip : Option Nat} {i : InstallItem} {rest : List WorkItem}
    (h : s.Known skip) (hw : s.installer.work = .install i :: rest) (hphase : i.phase = .appending) :
    (s.installComplete i).Known skip := by
  have hread := h.head.noReadBy hw (by rw [hphase]; nofun)
  have hbooks := h.books
  rw [State.runningExtents_install hw] at hbooks
  have huses := State.entered_usesLawful h.uses hw
  have hlive := (State.Books.makeLive
    (r := regionOf i.region i.format i.frames i.loopStart i.loopEnd i.extents) hbooks rfl).queueDead
  have hstep := (MediaStep.setCatalogue s { s.catalogue with regions := s.catalogue.regions ++
    [regionOf i.region i.format i.frames i.loopStart i.loopEnd i.extents] }).trans
      ((State.makeLive_step _ i.extents).trans (State.queueDead_step _))
  rw [State.installComplete_eq]
  unfold State.entered at huses ⊢
  dsimp only at huses ⊢
  generalize State.queueDead _ = y at huses hlive hstep ⊢
  have hyw : y.installer.work = .install i :: rest := hstep.installer ▸ hw
  have hrests : y.HeadRests := State.headRests_of hyw fun j hj => by
    rw [← WorkItem.install.inj hj, hphase]
    nofun
  have htail : ((y.dropPending i.region).lowerOwed.queueNotice i.sender (.installed i.region)).endItem.installer.work =
      s.installer.work.tail := by rw [← hstep.installer]; rfl
  refine State.Known.nextItem ⟨?_, .next h.uses htail (by rw [← hread, ← hstep.delivery]; rfl), huses⟩
  rw [(h.uses.next_head htail).1]
  exact hlive.rehead hrests rfl rfl rfl rfl rfl

/-- The VOID log record is programmed (R168). -/
theorem State.Known.voidComplete {s : State} {skip : Option Nat} {sender region : Nat} {rest : List WorkItem}
    (h : s.Known skip) (hw : s.installer.work = .reclaim sender region true :: rest) :
    (s.voidComplete sender region).Known skip := by
  have hread := h.head.noRead hw nofun
  have hbooks := h.books
  rw [State.runningExtents_reclaim hw] at hbooks
  have huses := State.voided_usesLawful h.uses hw
  obtain ⟨r, hr, rfl, -⟩ := h.uses.removal sender region (by rw [hw]; rfl)
  have hlost := (hbooks.loseLive h.uses.idsApart hr).queueDead
  have hstep := (MediaStep.setCatalogue s { s.catalogue with regions := s.catalogue.regions.filter (·.id != r.id) }).trans
    ((State.loseLive_step _ r.extents).trans (State.queueDead_step _))
  rw [State.voidComplete_eq]
  unfold State.voided at huses ⊢
  rw [State.region?_of_mem h.uses.idsApart hr] at huses ⊢
  dsimp only [Option.map_some, Option.getD_some] at huses ⊢
  generalize State.queueDead _ = y at huses hlost hstep ⊢
  have htail : (y.endReclaim.queueNotice sender (.reclaimed r.id)).installer.work = s.installer.work.tail := by
    rw [← hstep.installer]
    rfl
  refine State.Known.nextItem ⟨?_, .next h.uses htail (by rw [← hread, ← hstep.delivery]; rfl), huses⟩
  rw [(h.uses.next_head htail).1]
  have hyw : y.installer.work = .reclaim sender r.id true :: rest := hstep.installer ▸ hw
  exact hlost.rehead (State.headRests_of hyw nofun) rfl rfl rfl rfl rfl

/-- The VOID log record's program failed (R168). -/
theorem State.Known.voidFailed {s : State} {skip : Option Nat} {sender region : Nat} {rest : List WorkItem}
    (h : s.Known skip) (hw : s.installer.work = .reclaim sender region true :: rest) :
    (s.voidFailed sender region).Known skip := by
  rw [State.voidFailed_eq]
  exact (h.endItem (t := s.spared sender region) (State.headRests_of hw nofun) (State.runningExtents_reclaim hw) rfl rfl
    (restated_extents region .live s.catalogue.regions) rfl rfl (h.head.noRead hw nofun)
    (State.spared_usesLawful h.uses hw)).nextItem

/-- The result of a log append reaches the catalogue and its item (R13, R164, R168). -/
theorem State.Known.logResult {s : State} {skip : Option Nat} (h : s.Known skip) (ok : Bool) :
    (s.logResult ok).Known skip := by
  have hmoved : s.advanceAppend.Known skip :=
    h.same rfl rfl rfl rfl rfl rfl rfl (h.uses.same s.advanceAppend_step rfl)
  unfold State.logResult
  dsimp only
  generalize s.advanceAppend = x at hmoved ⊢
  split
  next i rest hw =>
    split
    next hphase =>
      split
      · exact hmoved.installComplete hw hphase
      · have hheld := hmoved.head.notHeld hw (by rw [hphase]; nofun)
        have hnone := hmoved.noPages hheld hw fun j hj => by
          rw [← WorkItem.install.inj hj, hphase]
          nofun
        exact hmoved.books.installFails hmoved.uses hw (hmoved.head.noReadBy hw (by rw [hphase]; nofun))
          (fun e q hq => hnone.under e q hq) hnone.2 .log
    next => exact hmoved
  next hw =>
    split
    · exact hmoved.voidComplete hw
    · exact hmoved.voidFailed hw
  next => exact hmoved

theorem State.Known.handOn {s : State} {skip : Option Nat} {d : Nat} {p : Program} (h : s.Known skip)
    (hpage : p.purpose = .page → s.NoPages skip ∧ (s.installsBy d p ∨ s.holdsFor d p)) (ok : Bool) :
    (s.handOn d p ok).Known skip := by
  unfold State.handOn
  split
  next hp =>
    obtain ⟨hnone, hby⟩ := hpage hp
    exact h.pageResult hnone hby ok
  next => exact h.logResult ok

end Sys2Proof.Machine
end

