-- ==== Sys2Proof/Proofs/BookEnds.lean ====
section
/-! SUPPORT. The page law and the ends of long operations (O55): what is told of an erase, the programs turned away, and
the close of a step. -/

namespace Sys2Proof.Machine

/-! ### Changes of the flash and the fronts -/

/-- What the page law speaks of is as it was, but for the law of uses. -/
structure SameBooks (s t : State) : Prop where
  catalogue : t.catalogue = s.catalogue
  installer : t.installer = s.installer
  delivery  : t.delivery = s.delivery
  dies      : t.media.dies = s.media.dies
  failed    : t.media.frontFailed = s.media.frontFailed

theorem SameBooks.refl (s : State) : SameBooks s s := ⟨rfl, rfl, rfl, rfl, rfl⟩

section
variable {s t : State} (h : SameBooks s t)
include h

theorem SameBooks.known {skip : Option Nat} (hs : s.Known skip) (huses : t.usesLawful) : t.Known skip :=
  hs.same (by rw [h.catalogue]) (by rw [h.catalogue]) (by rw [h.installer]) (by rw [h.installer]) (by rw [h.delivery])
    h.dies h.failed huses

theorem SameBooks.noPages {skip : Option Nat} (hs : s.NoPages skip) : t.NoPages skip := hs.same h.dies h.failed

theorem SameBooks.block (d b : Nat) : t.block d b = s.block d b := State.block_congr (by rw [h.catalogue]) d b

theorem SameBooks.owned {d : Nat} {p : Program} (hs : s.installsBy d p ∨ s.holdsFor d p) :
    t.installsBy d p ∨ t.holdsFor d p := by
  unfold State.installsBy State.holdsFor at *
  rw [h.installer, h.block]
  exact hs

theorem SameBooks.erasesAt (skip : Option Nat) (d : Nat) : t.erasesAt skip d = s.erasesAt skip d := by
  unfold State.erasesAt
  rw [State.opsBut_congr (s := s) (t := t) fun e => congrArg Die.work (State.die_of_dies h.dies e)]

end

theorem State.programFlash_sameBooks (s : State) (d b value : Nat) (p : Program) (ok : Bool) :
    SameBooks s ((s.setFront d b value).programFlash d p ok) := by
  unfold State.programFlash
  dsimp only
  split <;> exact ⟨rfl, rfl, rfl, rfl, rfl⟩

theorem State.eraseFlash_sameBooks (s : State) (d b value : Nat) (ok : Bool) :
    SameBooks s ((s.setFront d b value).eraseFlash d b ok) := by
  unfold State.eraseFlash
  split <;> exact ⟨rfl, rfl, rfl, rfl, rfl⟩

/-! ### The end of an erase -/

/-- A WIPE item goes on, or ends with its last erase (R169). -/
theorem State.Known.wipeProgress {s : State} {skip : Option Nat} {sender worn left logLeft : Nat} {rest : List WorkItem}
    (h : s.Known skip) (hw : s.installer.work = .wipe sender worn left logLeft :: rest) (isLog ok : Bool) :
    (s.wipeProgress sender worn left logLeft isLog ok).Known skip := by
  unfold State.wipeProgress
  dsimp only
  generalize hu : (if (isLog && (if isLog = true then logLeft - 1 else logLeft) == 0) = true then s.clearAppend else s) = u
  obtain ⟨hk, hwork⟩ : u.Known skip ∧ u.installer.work = .wipe sender worn left logLeft :: rest := by
    rcases hu ▸ ite_eq_or_eq _ s.clearAppend s with h' | h'
    · exact h' ▸ ⟨h.same rfl rfl rfl rfl rfl rfl rfl (h.uses.congr rfl rfl rfl rfl), hw⟩
    · exact h' ▸ ⟨h, hw⟩
  have hrests : u.HeadRests := State.headRests_of hwork nofun
  have hread := hk.head.noRead hwork nofun
  have hrun := State.runningExtents_wipe hwork
  split
  · have hend (addressee : Nat) (body : NoticeBody) : ((u.endItem).queueNotice addressee body).Known skip :=
      hk.endItem hrests hrun rfl rfl rfl rfl rfl hread (State.wiped_usesLawful hk.uses hwork _ _)
    exact (hend _ _).nextItem
  · have huses : ∀ w l, (u.setHead (.wipe sender w (left - 1) l)).usesLawful := fun w l =>
      hk.uses.head (State.setHead_step u _) hwork (u.setHead_shelf _) rfl fun _ _ => by nofun
    refine ⟨?_, ⟨fun _ => nofun, fun hh => ?_⟩, huses _ _⟩
    · have hbooks := hk.books
      rw [hrun] at hbooks
      rw [State.runningExtents_wipe rfl]
      exact hbooks.rehead hrests rfl rfl rfl rfl rfl
    · have hh' : u.delivery.installRead.isSome = true := hh
      rw [hread] at hh'
      cases hh'

/-- The running item is told of an erase (R163, R169). -/
theorem State.Known.eraseTold {s : State} {skip : Option Nat} (h : s.Known skip) (d : Nat) (isLog ok : Bool) :
    (s.eraseTold d isLog ok).Known skip := by
  unfold State.eraseTold
  split
  next hw => exact h.wipeProgress hw isLog ok
  next i rest hw =>
    split
    next hphase =>
      have hheld := h.head.notHeld hw (by rw [hphase.1]; nofun)
      have hnone := h.noPages hheld hw fun j hj => by
        rw [← WorkItem.install.inj hj, hphase.1]
        nofun
      have hbooks := h.books
      rw [State.runningExtents_install hw] at hbooks
      exact hbooks.enterProgramming h.uses hw hnone hheld (h.head.noReadBy hw (by rw [hphase.1]; nofun))
    next => exact h
  next => exact h

/-! ### The end of a long operation -/

theorem State.Known.becomeIdle {s : State} {d : Nat} (h : s.Known (some d)) : (s.becomeIdle d).Known none := by
  have hstep := s.becomeIdle_step d
  refine ⟨?_, h.head.same (by rw [hstep.installer]) (by rw [hstep.installer]; exact id) (by rw [hstep.delivery]),
    h.uses.same hstep.installStep (s.becomeIdle_shelf d)⟩
  rw [State.runningExtents_congr (s := s) (by rw [hstep.installer])]
  exact h.books.becomeIdle

/-- A long operation ends, with what its result does to the library (R101, R103). -/
theorem State.Known.longOpResult {s : State} {d : Nat} {op : LongOp} (h : s.Known none)
    (hop : (s.die d).state.longOp? = some op) (ok : Bool) : (s.longOpResult d op ok).Known none := by
  obtain ⟨hended, hpage, herase⟩ := h.books.ended hop
  have hknown : s.Known (some d) := ⟨hended, h.head, h.uses⟩
  cases op with
  | program p =>
    have hsame := s.programFlash_sameBooks d p.block (p.page * 48 + p.first + p.count) p ok
    have huses : ((s.setFront d p.block (p.page * 48 + p.first + p.count)).programFlash d p ok).usesLawful :=
      h.uses.same ((State.setFront_step s _ _ _).trans (State.programFlash_step _ d p ok)) (State.programFlash_shelf _ d p ok)
    refine State.Known.becomeIdle (State.Known.handOn (hsame.known hknown huses) (fun hp => ?_) ok)
    obtain ⟨hnone, hby⟩ := hpage p (if_pos hp)
    exact ⟨hsame.noPages hnone, hsame.owned hby⟩
  | erase b =>
    have hsame := s.eraseFlash_sameBooks d b 0 ok
    have hflash : ((s.setFront d b 0).eraseFlash d b ok).usesLawful :=
      h.uses.same ((State.setFront_step s _ _ _).trans (State.eraseFlash_step _ d b ok)) (State.eraseFlash_shelf _ d b ok)
    obtain ⟨hstate, hnew⟩ := herase b rfl
    refine State.Known.becomeIdle (State.Known.eraseTold ?_ d ((s.block d b).state == .log) ok)
    rw [← hsame.block] at hstate hnew
    rw [← hsame.erasesAt] at hnew
    have hk := hsame.known hknown hflash
    generalize (s.setFront d b 0).eraseFlash d b ok = x at *
    obtain ⟨-, -, hinst, -, hdelivery⟩ := x.blockErased_kept d b ok
    refine ⟨?_, hk.head.same (by rw [hinst]) (by rw [hinst]; exact id) (by rw [hdelivery]),
      hk.uses.same (State.blockErased_step x d b ok) (x.blockErased_shelf d b ok)⟩
    rw [State.runningExtents_congr (s := x) (by rw [hinst])]
    exact hk.books.blockErased hstate hnew ok

/-! ### The close of a step -/

/-- Failures of programs turned away leave the list (R102). -/
theorem State.Known.dropFailed {s : State} {skip : Option Nat} {rest : List (Nat × Program)} (h : s.Known skip)
    (hsub : rest.Sublist s.media.frontFailed) : (s.setMedia { s.media with frontFailed := rest }).Known skip := by
  have hpages : (s.setMedia { s.media with frontFailed := rest }).failedPages.Sublist s.failedPages := hsub.filter _
  have hb := h.books.booked
  refine ⟨⟨⟨hb.live, hb.pending, hb.dead, hb.erases, hb.free, fun d => ?_, hb.apart, hb.queued,
    fun x hx => hb.failed x (hpages.subset hx), hb.underWay⟩, h.books.idle, h.books.busy⟩, ⟨h.head.held, h.head.reading⟩,
    h.uses.congr rfl rfl rfl rfl⟩
  have hle := hb.one d
  have hlen := hpages.length_le
  show (s.pagesAt skip d).length + _ ≤ 1
  omega

/-- The failures of programs turned away reach their items (R102). -/
theorem State.settleFronts_known {skip : Option Nat} (n : Nat) :
    ∀ {s : State}, s.Known skip → (State.settleFronts n s).Known skip := by
  induction n with
  | zero => exact fun h => h.dropFailed (List.nil_sublist _)
  | succ n ih =>
    intro s h
    rw [State.settleFronts]
    split
    · exact h
    next d p rest hfailed =>
      have hsub : rest.Sublist s.media.frontFailed := by
        rw [hfailed]
        exact List.sublist_cons_self _ _
      refine ih ((h.dropFailed hsub).handOn (fun hp => ?_) false)
      have hb := h.books.booked
      have hpages : s.failedPages = (d, p) :: (rest.filter fun x => decide (x.2.purpose = .page)) := by
        unfold State.failedPages
        rw [hfailed, List.filter_cons_of_pos (by simpa using hp)]
      have hone (e : Nat) := hb.one e
      simp only [hpages, List.length_cons] at hone
      refine ⟨⟨fun e => List.eq_nil_of_length_eq_zero ?_, List.eq_nil_of_length_eq_zero ?_⟩,
        .inl (hb.failed (d, p) (by rw [hpages]; exact List.mem_cons_self))⟩
      · have := hone e
        show (s.pagesAt skip e).length = 0
        omega
      · have := hone 0
        show (rest.filter fun x => decide (x.2.purpose = .page)).length = 0
        omega

theorem State.Known.finish {s : State} {skip : Option Nat} (h : s.Known skip) : s.finish.Known skip := by
  have hsettled : s.settleFront.Known skip := State.settleFronts_known 8 h
  have hoffer := s.settleFront.recomputeReady.offer_step
  have hsame : SameBooks s.settleFront s.finish :=
    ⟨hoffer.catalogue, hoffer.installer, hoffer.delivery, congrArg Media.dies hoffer.media,
      congrArg Media.frontFailed hoffer.media⟩
  exact hsame.known hsettled (State.finish_usesLawful h.uses)

/-! ### The law between steps -/

theorem State.pagesLawful.known {s : State} (h : s.pagesLawful) (hs : s.settled) (huses : s.usesLawful)
    (hst : s.station.state ≠ .starting) : s.Known none := by
  obtain ⟨hbooked, hidle, hhead⟩ := h.booked hs hst
  exact ⟨⟨hbooked, hidle, nofun⟩, hhead, huses⟩

theorem State.Known.pagesLawful {s : State} (h : s.Known none) (hst : s.station.state ≠ .starting) : s.pagesLawful :=
  h.books.booked.pagesLawful h.books.idle h.head hst

end Sys2Proof.Machine
end

