-- ==== Sys2Proof/Proofs/BookAdmissions.lean ====
section
/-! SUPPORT. The page law and admissions (O55): an item joins the work list, and a WIPE empties the catalogue. -/

namespace Sys2Proof.Machine

/-! ### INSTALL and RECLAIM -/

/-- An item that joins an empty work list waits at its head (R158). -/
theorem State.Books.queueWork {s : State} {w : WorkItem} (h : s.Books none s.runningExtents) (hhead : s.HeadKnown)
    (hwait : w.waits = true) (huses : (s.queueWork w).usesLawful) : (s.queueWork w).Known none := by
  cases hw : s.installer.work with
  | cons x rest =>
    have hsame : (s.queueWork w).installer.work.head? = s.installer.work.head? := by
      show (s.installer.work ++ [w]).head? = _
      rw [hw]
      rfl
    refine ⟨?_, hhead.same hsame id rfl, huses⟩
    rw [State.runningExtents_congr hsame]
    exact h.same rfl rfl hsame rfl rfl rfl
  | nil =>
    have hnew : (s.queueWork w).installer.work = [w] := by
      show s.installer.work ++ [w] = [w]
      rw [hw]
      rfl
    have hbegun : (s.queueWork w).runningExtents = [] ∧
        ∀ i, (s.queueWork w).installer.work.head? = some (.install i) → i.phase = .waiting := by
      cases w with
      | reclaim => exact ⟨State.runningExtents_reclaim hnew, by rw [hnew]; nofun⟩
      | wipe => exact ⟨State.runningExtents_wipe hnew, by rw [hnew]; nofun⟩
      | install i =>
        simp only [WorkItem.waits, Bool.and_eq_true, beq_iff_eq, List.isEmpty_iff] at hwait
        refine ⟨(State.runningExtents_install hnew).trans hwait.2, fun j hj => ?_⟩
        rw [hnew] at hj
        rw [← WorkItem.install.inj (Option.some.inj hj)]
        exact hwait.1
    refine ⟨?_, ⟨fun _ => hbegun.2, fun hread => ?_⟩, huses⟩
    · rw [State.runningExtents_empty hw] at h
      rw [hbegun.1]
      refine h.rehead (fun i hi => ?_) rfl rfl rfl rfl rfl
      rw [hw] at hi
      cases hi
    · obtain ⟨i, hi, -⟩ := hhead.reading hread
      rw [hw] at hi
      cases hi

theorem State.Books.joinWork {s : State} {w : WorkItem} (h : s.Books none s.runningExtents) (hhead : s.HeadKnown)
    (hwait : w.waits = true) (huses : (s.queueWork w).usesLawful) : (s.joinWork w).Known none := by
  have hqueued := h.queueWork hhead hwait huses
  rw [State.joinWork_eq]
  split
  · exact hqueued.nextItem
  · exact hqueued

theorem State.Known.admitInstall {s : State} {i : InstallFields} (h : s.Known none) (hst : s.station.state ≠ .starting)
    (hnew : s.idTaken i.region = false) : (s.admitInstall i).Known none := by
  have hbooks : (s.installOwed i).Books none (s.installOwed i).runningExtents := h.books.same rfl rfl rfl rfl rfl rfl
  have hhead : (s.installOwed i).HeadKnown := h.head.same rfl id rfl
  exact hbooks.joinWork hhead rfl (State.installQueued_usesLawful h.uses hst hnew)

theorem State.Known.admitReclaim {s : State} {region sender : Nat} {r : Region} (h : s.Known none)
    (hst : s.station.state ≠ .starting) (hr : s.region? region = some r) (hu : r.inUse = 0) :
    (s.admitReclaim region sender).Known none := by
  have hbooks : (s.reclaimOwed region).Books none (s.reclaimOwed region).runningExtents :=
    h.books.same rfl (restated_extents region .departing s.catalogue.regions) rfl rfl rfl rfl
  have hhead : (s.reclaimOwed region).HeadKnown := h.head.same rfl id rfl
  exact hbooks.joinWork hhead rfl (State.reclaimQueued_usesLawful h.uses hst hr hu)

/-! ### WIPE -/

/-- The state with another region table. -/
def State.withRegions (s : State) (l : List Region) : State := s.setCatalogue { s.catalogue with regions := l }

theorem State.withRegions_beginRead (s : State) (l : List Region) (d : Nat) :
    (s.withRegions l).beginRead? d = (s.beginRead? d).map (·.withRegions l) := by
  unfold State.beginRead?
  rw [Option.map_map]
  rfl

theorem State.withRegions_takeLongOp (s : State) (l : List Region) (d : Nat) :
    (s.withRegions l).takeLongOp d = ((s.takeLongOp d).1.withRegions l, (s.takeLongOp d).2) := by
  have hsplit : splitRefused ((s.withRegions l).fronts d) ((s.withRegions l).die d).longOps =
      splitRefused (s.fronts d) (s.die d).longOps := rfl
  unfold State.takeLongOp
  dsimp only
  rw [hsplit]
  obtain ⟨refused, queue⟩ := splitRefused (s.fronts d) (s.die d).longOps
  cases queue with
  | nil => rfl
  | cons op rest => cases op <;> rfl

/-- The choice of a die does not look at the region table (R94). -/
theorem State.withRegions_idleChoice (s : State) (l : List Region) (d : Nat) :
    (s.withRegions l).idleChoice d = (s.idleChoice d).withRegions l := by
  have hdie : (s.withRegions l).die d = s.die d := rfl
  have hread := s.withRegions_beginRead l d
  have hread' (u : State) : ((u.withRegions l).beginRead? d).getD (u.withRegions l) =
      ((u.beginRead? d).getD u).withRegions l := by
    rw [u.withRegions_beginRead]
    cases u.beginRead? d <;> rfl
  have hurgent : (if (s.die d).headWithin (s.withRegions l).timebase.tick 8192 then (s.withRegions l).beginRead? d
      else none) =
      (if (s.die d).headWithin s.timebase.tick 8192 then s.beginRead? d else none).map (·.withRegions l) := by
    rw [hread, show (s.withRegions l).timebase = s.timebase from rfl]
    split <;> rfl
  unfold State.idleChoice
  dsimp only
  rw [hdie, s.withRegions_takeLongOp, hurgent, hread']
  split
  · cases (if (s.die d).headWithin s.timebase.tick 8192 then s.beginRead? d else none) with
    | some u => rfl
    | none =>
      dsimp only [Option.map_none]
      split <;> rfl
  · rfl

theorem State.withRegions_wipeDie (s : State) (l : List Region) (d : Nat) :
    (s.withRegions l).wipeDie d = (s.wipeDie d).withRegions l := by
  unfold State.wipeDie State.joinErases
  dsimp only
  rw [show (s.withRegions l).dieBlocks d = s.dieBlocks d from rfl]
  split
  · rfl
  · exact State.withRegions_idleChoice ((s.updateDieBlocks d fun t => { blocks := t.blocks.map Block.wiping
                                                                        free := [] }).updateDie d fun die =>
      { die with longOps := die.longOps ++ ((s.dieBlocks d).numbers Block.needsErase).map LongOp.erase }) l d

/-- Another region table with as many pages in each block. -/
theorem State.Books.withRegions {s : State} {skip : Option Nat} {running : List Extent} {l : List Region}
    (h : s.Books skip running) (hpages : ∀ d b, d < 8 →
      pagesIn (l.flatMap (·.extents)) d b = pagesIn (s.catalogue.regions.flatMap (·.extents)) d b) :
    (s.withRegions l).Books skip running := by
  have hb := h.booked
  refine ⟨⟨fun d b k hd hk hl => ?_, hb.pending, hb.dead, hb.erases, hb.free, hb.one, hb.apart, hb.queued, hb.failed,
    hb.underWay⟩, h.idle, h.busy⟩
  exact (hb.live d b k hd hk hl).trans (hpages d b hd).symm

/-- The region without its pages on a die. -/
def Region.offDie (d : Nat) (r : Region) : Region := { r with extents := r.extents.filter (·.die != d) }

theorem pagesIn_offDie (d e b : Nat) (l : List Region) : pagesIn ((l.map (Region.offDie d)).flatMap (·.extents)) e b =
    if e = d then 0 else pagesIn (l.flatMap (·.extents)) e b := by
  have hflat : (l.map (Region.offDie d)).flatMap (·.extents) = (l.flatMap (·.extents)).filter (·.die != d) := by
    rw [List.filter_flatMap, List.flatMap_map]
    rfl
  unfold pagesIn
  rw [hflat, List.filter_filter]
  split
  next he =>
    subst he
    rw [List.filter_eq_nil_iff.2 fun x _ => by simp; tauto]
    rfl
  next he =>
    refine congrArg (fun l : List Extent => (l.map (·.count)).sum) (List.filter_congr fun x _ => ?_)
    by_cases hx : x.die = e
    · simp [hx, he]
    · simp [hx]

/-- A block under a WIPE has no page counted, and is LOG as before or ERASING (R17, R169). -/
theorem Block.wiping_state (k : Block) : k.wiping.live = 0 ∧ k.wiping.pending = 0 ∧
    (k.state = .log ∧ k.wiping.state = .log ∨ k.state ≠ .log ∧ k.wiping.state = .erasing) := by
  refine ⟨rfl, rfl, ?_⟩
  unfold Block.wiping
  dsimp only
  split
  next h => exact .inl ⟨h, rfl⟩
  next h => exact .inr ⟨h, rfl⟩

theorem Block.needsErase_iff (k : Block) : k.needsErase = true ↔ k.state ≠ .queued ∧ k.state ≠ .erasing := by
  simp [Block.needsErase]

/-- The blocks of one die under a WIPE, the erases not placed yet (R17, R169). -/
def State.wiping (s : State) (d : Nat) : State :=
  s.updateDieBlocks d fun t => { blocks := t.blocks.map Block.wiping, free := [] }

theorem State.wiping_lists (s : State) (d e : Nat) :
    ((s.wiping d).dieBlocks e).blocks.length = (s.dieBlocks e).blocks.length ∧
      ((s.wiping d).dieBlocks e).free = if e = d then [] else (s.dieBlocks e).free := by
  by_cases he : e = d
  · subst he
    rw [State.wiping, s.wiping_dieBlocks, if_pos rfl]
    exact ⟨List.length_map _, rfl⟩
  · rw [State.wiping, State.dieBlocks_updateDieBlocks, if_neg fun h => he h.1, if_neg he]
    exact ⟨rfl, rfl⟩

theorem State.wiping_block (s : State) (d e b : Nat) : (s.wiping d).block e b =
    if e = d ∧ b < (s.dieBlocks d).blocks.length then (s.block e b).wiping else s.block e b := by
  by_cases he : e = d
  · subst he
    by_cases hb : b < (s.dieBlocks e).blocks.length
    · rw [if_pos ⟨rfl, hb⟩]
      unfold State.block State.wiping
      rw [s.wiping_dieBlocks, List.getD_eq_getElem?_getD, List.getD_eq_getElem?_getD, List.getElem?_map,
        List.getElem?_eq_getElem hb]
      rfl
    · rw [if_neg fun h => hb h.2, State.block_beyond hb, State.block_beyond (by rw [(s.wiping_lists e e).1]; exact hb)]
  · rw [if_neg fun h => he h.1]
    unfold State.block State.wiping
    rw [State.dieBlocks_updateDieBlocks, if_neg fun h => he h.1]

/-- What a WIPE makes of a block: its record stays, or it is LOG as before, or ERASING with no page counted (R169). -/
theorem State.wiping_cases (s : State) (d e b : Nat) : (s.wiping d).block e b = s.block e b ∨
    (s.wiping d).block e b = (s.block e b).wiping := by
  rw [s.wiping_block]
  split
  · exact .inr rfl
  · exact .inl rfl

/-- A die's blocks are under a WIPE, and its pages in no region (R17, R169). -/
theorem State.Books.wiping {s : State} (h : s.Books none []) (hrests : s.HeadRests) (d : Nat) :
    ((s.wiping d).withRegions (s.catalogue.regions.map (Region.offDie d))).Books none [] := by
  have hblock (e b : Nat) : ((s.wiping d).withRegions (s.catalogue.regions.map (Region.offDie d))).block e b =
      (s.wiping d).block e b := rfl
  have hlisted {e b : Nat} {k : Block}
      (hk : ((s.wiping d).withRegions (s.catalogue.regions.map (Region.offDie d))).lists e b k) :
      s.lists e b (s.block e b) ∧ k = (s.wiping d).block e b := by
    obtain ⟨hb, hk⟩ := State.lists_iff.1 hk
    exact ⟨State.lists_of_length ((s.wiping_lists d e).1 ▸ hb), hk.symm⟩
  refine h.of_booked rfl (h.booked.retabled (fun e b k he hk hl => ?_) (fun e b k hk hl => ?_) (fun e b k hk hs => ?_)
    (fun e => ?_) (fun e b => ?_) (fun e b _ hs => ?_)
    (fun e p hp => absurd (h.booked.queued e p hp) hrests.not_installsBy)
    (fun x hx => absurd (h.booked.failed x hx) hrests.not_installsBy) (fun e p hp => .inr ?_) rfl rfl)
  · obtain ⟨hs, rfl⟩ := hlisted hk
    refine Eq.trans ?_ (pagesIn_offDie d e b _).symm
    rw [s.wiping_block] at hl ⊢
    by_cases hed : e = d
    · subst hed
      rw [if_pos ⟨rfl, State.lists_length hs⟩, if_pos rfl]
      rfl
    · rw [if_neg fun h => hed h.1] at hl ⊢
      rw [if_neg hed]
      exact h.booked.live e b _ he hs hl
  · obtain ⟨hs, rfl⟩ := hlisted hk
    rcases s.wiping_cases d e b with hto | hto <;> rw [hto] at hl ⊢
    · exact h.booked.pending e b _ hs hl
    · rfl
  · obtain ⟨hlists, rfl⟩ := hlisted hk
    rcases s.wiping_cases d e b with hto | hto <;> rw [hto] at hs ⊢
    · exact h.booked.dead e b _ hlists hs
    · exact ⟨rfl, rfl⟩
  · have hfree : ((s.wiping d).withRegions (s.catalogue.regions.map (Region.offDie d))).dieBlocks e =
        (s.wiping d).dieBlocks e := rfl
    rw [hfree, (s.wiping_lists d e).2]
    split
    · exact ⟨.nil, fun b hb => by cases hb⟩
    next hed =>
      refine ⟨(h.booked.free e).1, fun b hb => ?_⟩
      rw [hblock, s.wiping_block, if_neg fun h => hed h.1]
      exact (h.booked.free e).2 b hb
  · rw [hblock]
    rcases s.wiping_cases d e b with hto | hto <;> rw [hto]
    obtain ⟨-, -, ⟨hlog, hw⟩ | ⟨hlog, hw⟩⟩ := (s.block e b).wiping_state
    · rw [hlog, hw]
    · rw [hw]
      exact ⟨nofun, fun hl => absurd hl hlog⟩
  · rw [hblock]
    rcases s.wiping_cases d e b with hto | hto <;> rw [hto]
    · exact hs
    · obtain ⟨-, -, ⟨hlog, -⟩ | ⟨-, hw⟩⟩ := (s.block e b).wiping_state
      · rw [hlog] at hs
        rcases hs with hs | hs <;> cases hs
      · exact .inr hw
  · obtain ⟨hold, hs⟩ := (h.booked.underWay e p hp).resolve_left hrests.not_installsBy
    refine ⟨hold, ?_⟩
    rw [hblock]
    rcases s.wiping_cases d e p.block with hto | hto <;> rw [hto]
    · exact hs
    · obtain ⟨-, -, ⟨hlog, -⟩ | ⟨-, hw⟩⟩ := (s.block e p.block).wiping_state
      · rw [hlog] at hs
        rcases hs with hs | ⟨n, hs⟩ <;> cases hs
      · exact .inl hw

/-- A die is under a WIPE: erases of the blocks that have none yet join its queue (R169). -/
theorem State.Books.wipeDie {s : State} (h : s.Books none []) (hrests : s.HeadRests) (d : Nat) :
    ((s.wipeDie d).withRegions (s.catalogue.regions.map (Region.offDie d))).Books none [] := by
  have hto : (s.withRegions (s.catalogue.regions.map (Region.offDie d))).wipeDie d =
      ((s.wiping d).withRegions (s.catalogue.regions.map (Region.offDie d))).joinErases d
        ((s.dieBlocks d).numbers Block.needsErase) := rfl
  have hblock (b : Nat) (hb : b < (s.dieBlocks d).blocks.length) :
      ((s.wiping d).withRegions (s.catalogue.regions.map (Region.offDie d))).block d b = (s.block d b).wiping :=
    (s.wiping_block d d b).trans (if_pos ⟨rfl, hb⟩)
  rw [← State.withRegions_wipeDie, hto]
  refine (h.wiping hrests d).joinErases (DieBlocks.numbers_nodup _ _) (fun b hb => ?_) fun b hb hl hmem => ?_
  · obtain ⟨hb, -⟩ := State.mem_numbers.1 hb
    rw [hblock b hb]
    obtain ⟨-, -, ⟨-, hw⟩ | ⟨-, hw⟩⟩ := (s.block d b).wiping_state
    · exact .inl hw
    · exact .inr (.inr hw)
  · obtain ⟨hb, hneeds⟩ := State.mem_numbers.1 hb
    obtain ⟨hqueued, herasing⟩ := (Block.needsErase_iff _).1 hneeds
    rw [hblock b hb] at hl
    have hmem' : b ∈ s.erasesAt none d := hmem
    rcases (h.booked.erases d).2 b hmem' with hs | hs | hs
    · obtain ⟨-, -, ⟨-, hw⟩ | ⟨hlog, -⟩⟩ := (s.block d b).wiping_state
      · exact hl hw
      · exact hlog hs
    · exact hqueued hs
    · exact herasing hs

/-- The dies are under a WIPE one after the other (R169). -/
theorem State.Books.wipeDies (ds : List Nat) : ∀ {s : State} {l : List Region}, (s.withRegions l).Books none [] →
    s.HeadRests → ∃ l', ((ds.foldl State.wipeDie s).withRegions l').Books none [] ∧
      ∀ e b, pagesIn (l'.flatMap (·.extents)) e b = if e ∈ ds then 0 else pagesIn (l.flatMap (·.extents)) e b := by
  induction ds with
  | nil => exact fun h _ => ⟨_, h, fun _ _ => rfl⟩
  | cons d ds ih =>
    intro s l h hrests
    have hwiped := h.wipeDie hrests d
    rw [State.withRegions_wipeDie] at hwiped
    have hrests' : (s.wipeDie d).HeadRests := by
      unfold State.HeadRests
      rw [(s.wipeDie_step d).installer]
      exact hrests
    obtain ⟨l', hl', hpages⟩ := ih (s := s.wipeDie d) (l := l.map (Region.offDie d)) hwiped hrests'
    refine ⟨l', hl', fun e b => ?_⟩
    rw [hpages, pagesIn_offDie]
    by_cases he : e = d
    · simp [he]
    · simp [he]

/-- A WIPE empties the catalogue (R17, R169). -/
theorem State.Known.admitWipe {s : State} (h : s.Known none) (hst : s.station.state ≠ .starting)
    (hbusy : s.wipeBusy = false) (sender : Nat) : (s.admitWipe sender).Known none := by
  obtain ⟨hw, -, -⟩ := State.wipeBusy_false hbusy
  have huses := State.admitWipe_usesLawful h.uses hst hbusy sender
  have hbooks := h.books
  rw [State.runningExtents_empty hw] at hbooks
  generalize hx : (s.setCatalogue s.catalogue.emptied).setInstaller
    { s.installer with work := [.wipe sender 0 16384 8] } = x
  have hxwork : x.installer.work = [.wipe sender 0 16384 8] := by
    rw [← hx]
    rfl
  have hxbooks : (x.withRegions s.catalogue.regions).Books none [] := by
    rw [← hx]
    refine hbooks.rehead (fun i hi => ?_) rfl rfl rfl rfl rfl
    rw [hw] at hi
    cases hi
  obtain ⟨l, hl, hpages⟩ := hxbooks.wipeDies dieNumbers (State.headRests_of hxwork nofun)
  have hkept := State.wipeDies_kept dieNumbers x
  have hadmit : s.admitWipe sender = dieNumbers.foldl State.wipeDie x := by
    rw [← hx]
    rfl
  obtain ⟨hregions, -, -, -, hinst, -⟩ := hkept
  have hread : (dieNumbers.foldl State.wipeDie x).delivery.installRead = none := by
    rw [(MediaStep.foldl _ State.wipeDie_step dieNumbers x).delivery, ← hx]
    cases hr : s.delivery.installRead with
    | none => exact hr
    | some r =>
      obtain ⟨i, hi, -⟩ := h.head.reading (by rw [hr]; rfl)
      rw [hw] at hi
      cases hi
  have hnil : (dieNumbers.foldl State.wipeDie x).catalogue.regions = [] := by
    rw [hregions, ← hx]
    rfl
  have hwork : (dieNumbers.foldl State.wipeDie x).installer.work = [.wipe sender 0 16384 8] := by rw [hinst, hxwork]
  have hfinal := hl.withRegions (l := []) fun d b hd => by
    have hmem : d ∈ dieNumbers := List.mem_range.2 hd
    show 0 = pagesIn (l.flatMap (·.extents)) d b
    rw [hpages, if_pos hmem]
  rw [hadmit] at huses ⊢
  generalize dieNumbers.foldl State.wipeDie x = y at huses hfinal hread hnil hwork ⊢
  have hback : (y.withRegions l).withRegions [] = y := by
    rw [← hnil]
    rfl
  rw [hback] at hfinal
  refine ⟨?_, ⟨fun _ i hi => ?_, fun hh => ?_⟩, huses⟩
  · rw [State.runningExtents_wipe hwork]
    exact hfinal
  · rw [hwork] at hi
    cases hi
  · rw [hread] at hh
    cases hh

end Sys2Proof.Machine
end

