-- ==== Sys2Proof/Proofs/BookLinks.lean ====
section
/-! SUPPORT. The page law and the delivery link (O55): the install read, and the link's loss. -/

namespace Sys2Proof.Machine

/-! ### The install read -/

/-- An install that reads its page: no page program is held (R162). -/
theorem State.Known.reading {s : State} {i : InstallItem} {rest : List WorkItem} {r : InstallRead} (h : s.Known none)
    (hread : s.delivery.installRead = some r) (hw : s.installer.work = .install i :: rest) :
    s.Books none i.extents ∧ s.installer.held = false ∧ s.NoPages none := by
  obtain ⟨j, hj, hphase⟩ := h.head.reading (by rw [hread]; rfl)
  rw [hw] at hj
  obtain rfl := WorkItem.install.inj (Option.some.inj hj)
  have hbooks := h.books
  rw [State.runningExtents_install hw] at hbooks
  have hheld := h.head.notHeld hw (by rw [hphase]; nofun)
  exact ⟨hbooks, hheld, h.noPages hheld hw fun k hk => by
    rw [← WorkItem.install.inj hk, hphase]
    nofun⟩

theorem State.Known.pageRead {s : State} {i : InstallItem} {rest : List WorkItem} {r : InstallRead} (h : s.Known none)
    (hread : s.delivery.installRead = some r) (hw : s.installer.work = .install i :: rest) (count : Nat)
    (bytes : List Byte) : (s.endRead.pageRead i count bytes).Known none := by
  obtain ⟨hbooks, hheld, hnone⟩ := h.reading hread hw
  have htaken : (s.endRead.setInstaller { s.endRead.installer with pageBuffer := i.page count bytes }).Books none
      i.extents := hbooks.same rfl rfl rfl rfl rfl rfl
  exact (htaken.enterProgramming (h.uses.congr rfl rfl rfl rfl) hw (hnone.same rfl rfl) hheld rfl).finish

theorem State.Known.readFails {s : State} {i : InstallItem} {rest : List WorkItem} {r : InstallRead} (h : s.Known none)
    (hread : s.delivery.installRead = some r) (hw : s.installer.work = .install i :: rest) (reason : Reason) :
    (s.endRead.installFails i reason).finish.Known none := by
  obtain ⟨hbooks, -, hnone⟩ := h.reading hread hw
  have hended : s.endRead.Books none i.extents := hbooks.same rfl rfl rfl rfl rfl rfl
  have hnone' : s.endRead.NoPages none := hnone.same rfl rfl
  exact (hended.installFails (h.uses.congr rfl rfl rfl rfl) hw rfl (fun d p hp => hnone'.under d p hp) hnone'.2
    reason).finish

/-! ### Steps of the voices -/

theorem Resting.of_eq {s t : State} (hc : t.catalogue = s.catalogue)
    (hr : t.delivery.installRead = s.delivery.installRead) (hm : t.media = s.media) : Resting s t := by
  refine ⟨?_, by rw [hc], by rw [hc], hr, fun h => ?_, fun _ => by rw [hm], fun _ => by rw [hc], fun _ => by rw [hm]⟩
  · unfold SameTable
    rw [hc]
  · unfold State.IdleFree
    rw [hm]
    exact h

theorem WatchStep.resting {s t : State} (h : WatchStep s t) : Resting s t :=
  .of_eq h.catalogue (by rw [h.delivery]) h.media

theorem State.dropBids_resting (s : State) : Resting s s.dropBids :=
  (Resting.of_eq (s := s) (t := s.setBids []) rfl rfl rfl).trans
    (State.releaseUses_resting (s.claims.bids.map (·.region)) _)

theorem State.abandonClaim_resting (s : State) : Resting s s.abandonClaim := by
  obtain ⟨-, -, -, -, hmedia, hcatalogue, -, hdelivery, -⟩ := s.abandonClaim_step
  exact .of_eq hcatalogue (by rw [hdelivery]) hmedia

/-- A step of the voices keeps the law within a step (R94). -/
theorem State.Books.rests {s t : State} {running : List Extent} (h : s.Books none running) (hr : Resting s t)
    (hinst : t.installer = s.installer) : t.Books none running :=
  ⟨h.booked.rests hr h.idle hinst, hr.idle h.idle, nofun⟩

/-! ### The link's loss -/

theorem State.retireRecords_uses (reason : RetireReason) (id : Nat) (l : List Voice) : ∀ s : State,
    (l.foldl (fun s v => s.retireRecord reason v) s).uses? id =
      (s.uses? id).map (· - (l.map (·.uses.count id)).sum) := by
  induction l with
  | nil => intro s; cases h : s.uses? id <;> simp [h]
  | cons v l ih =>
    intro s
    obtain ⟨-, -, -, -, hcat⟩ := s.retireRecord_media reason v
    have hone : (s.retireRecord reason v).uses? id = (s.uses? id).map (· - v.uses.count id) := by
      rw [State.uses_congr (congrArg Catalogue.regions hcat), State.releaseUses_uses]
      rfl
    rw [List.foldl_cons, ih, hone, Option.map_map, List.map_cons, List.sum_cons]
    refine congrArg (fun f => Option.map f (s.uses? id)) (funext fun n => ?_)
    exact (Nat.sub_sub n _ _)

/-- The link's loss but for the read it ends, which is a step of the voices (R37, R140). -/
theorem State.unlinked_resting (s : State) : Resting
    (s.setDelivery { link := .down, queue := [], posting := none, installRead := none }) s.unlinked :=
  (((State.retireAll_resting _ _).trans (State.freeBuffers_resting _ _)).trans (State.dropBids_resting _)).trans
    (State.abandonClaim_resting _)

/-- Every use is released (R9, R37, R140). -/
theorem State.unlinked_uses (s : State) (id : Nat) : s.unlinked.uses? id = (s.uses? id).map (· - s.usesOf id) := by
  unfold State.unlinked
  generalize hx : s.setDelivery { link := .down, queue := [], posting := none, installRead := none } = x
  have hxv : x.voices = s.voices := by rw [← hx]; rfl
  have hxb : x.claims = s.claims := by rw [← hx]; rfl
  have hxu : x.uses? id = s.uses? id := by rw [← hx]; rfl
  have hretired : (x.retireAll .link).uses? id = (s.uses? id).map (· - (s.voices.map (·.uses.count id)).sum) := by
    have hdiscard := State.uses_congr (x.discardSegments_regions (x.voices.map (·.tag))).1 (id := id)
    unfold State.retireAll
    rw [State.retireRecords_uses, hdiscard, hxu, ← hxv, (x.voicesByTag_perm.map _).sum_eq]
  have hclaims : (x.retireAll .link).claims = s.claims := (x.retireAll_step .link).claims.trans hxb
  generalize x.retireAll .link = y at hretired hclaims
  generalize (s.delivery.queue.length + if s.delivery.posting.isSome then 1 else 0) = n
  have hfree := State.freeBuffers_die n y
  have hz : (y.freeBuffers n).uses? id = _ := (State.uses_congr hfree.regions id).trans hretired
  have hzclaims := hfree.media.claims.trans hclaims
  generalize y.freeBuffers n = z at hz hzclaims
  obtain ⟨-, -, -, -, -, hcatalogue, -⟩ := z.dropBids.abandonClaim_step
  have hdropped : z.dropBids.uses? id = (z.uses? id).map (· - (z.claims.bids.map (·.region)).count id) :=
    State.releaseUses_uses _ (z.setBids []) id
  have hcount : (s.claims.bids.map (·.region)).count id = s.claims.bids.countP (·.region == id) := by
    rw [List.count, List.countP_map]
    rfl
  rw [State.uses_congr (congrArg Catalogue.regions hcatalogue), hdropped, hz, Option.map_map, hzclaims, hcount,
    State.usesOf_eq]
  refine congrArg (fun f => Option.map f (s.uses? id)) (funext fun m => ?_)
  show m - _ - _ = m - (_ + _)
  omega

theorem State.unlinked_usesLawful {s : State} (hs : s.usesLawful) : s.unlinked.usesLawful := by
  have h := s.unlinked_unlinks
  have hr := s.unlinked_resting
  have hzero := State.usesOf_of_empty h.voices h.bids
  refine hs.step (t := s.unlinked) hr.table (fun id hu => ?_) (fun id hlt => ?_) hr.installs hr.scan
    (congrArg Installer.work h.work) (congrArg Station.state h.station) fun _ => ⟨h.voices, h.bids⟩
  · rw [s.unlinked_uses, hu, hzero, Option.map_some, Nat.sub_self]
  · rw [hzero] at hlt
    cases hlt

/-- An item in progress fails at the link's loss, its page program under way then holding the page buffer (R166). -/
theorem State.Known.linkLostInstall {s : State} (h : s.Known none) (hread : s.delivery.installRead = none)
    (hs : s.settled) : s.linkLostInstall.Known none := by
  have fails {i : InstallItem} {rest : List WorkItem} (hw : s.installer.work = .install i :: rest) :
      ((s.setInstaller { s.installer with held := s.pageUnderWay }).installFails i .linkDown).Known none := by
    have hunder (d : Nat) (p : Program) (hp : (s.under none d).bind LongOp.page? = some p) : s.pageUnderWay = true := by
      rw [s.under_none] at hp
      have hd : d < s.media.dies.length := by
        by_contra hd
        rw [State.die_eq_reset hd] at hp
        cases hp
      unfold State.pageUnderWay
      refine List.any_eq_true.2 ⟨s.die d, State.die_mem hd, ?_⟩
      cases hop : (s.die d).state.longOp? with
      | none => rw [hop] at hp; cases hp
      | some op =>
        rw [hop] at hp
        cases op with
        | erase => cases hp
        | program q =>
          have hpage : (if q.purpose = .page then some q else none) = some p := hp
          by_cases hq : q.purpose = .page
          · simpa using hq
          · rw [if_neg hq] at hpage
            cases hpage
    have hbooks := h.books
    rw [State.runningExtents_install hw] at hbooks
    have huses : (s.setInstaller { s.installer with held := s.pageUnderWay }).usesLawful := h.uses.congr rfl rfl rfl rfl
    have hheld : (s.setInstaller { s.installer with held := s.pageUnderWay }).Books none i.extents :=
      hbooks.reowned rfl rfl rfl rfl hbooks.booked.queued hbooks.booked.failed fun d p hp =>
        (hbooks.booked.underWay d p hp).imp id fun ⟨_, hstate⟩ => ⟨hunder d p hp, hstate⟩
    have hfailed : s.failedPages = [] := by
      unfold State.failedPages
      rw [hs]
      rfl
    exact hheld.installFails huses hw hread (fun d p hp => hunder d p hp) hfailed .linkDown
  unfold State.linkLostInstall
  split
  next hw =>
    dsimp only
    split
    · exact h
    · exact fails hw
    · exact fails hw
    · exact fails hw
    · split
      · exact h
      · exact fails hw
  next => exact h

theorem State.Known.linkLost {s : State} (h : s.Known none) (hs : s.settled) : s.linkLost.Known none := by
  have hr := s.unlinked_resting
  have hun := s.unlinked_unlinks
  have hcut : (s.setDelivery { link := .down, queue := [], posting := none, installRead := none }).Books none
      s.runningExtents := h.books.same rfl rfl rfl rfl rfl rfl
  have hbooks := hcut.rests hr hun.work
  have hread : s.unlinked.delivery.installRead = none := by rw [hun.delivery]
  have hsettled : s.unlinked.settled := (hr.refused hcut.idle).trans hs
  have hknown : s.unlinked.Known none := by
    refine ⟨?_, ⟨fun hh i hi => ?_, fun hh => ?_⟩, State.unlinked_usesLawful h.uses⟩
    · rw [State.runningExtents_congr (s := s) (by rw [hun.work])]
      exact hbooks
    · rw [hun.work] at hh hi
      exact h.head.held hh i hi
    · rw [hread] at hh
      cases hh
  rw [State.linkLost_eq, State.settleFront, State.settleFronts_nil _ _ hsettled]
  exact (hknown.linkLostInstall hread hsettled).finish

end Sys2Proof.Machine
end

