-- ==== Sys2Proof/Proofs/BookScan.lean ====
section
/-! SUPPORT. The page law in STARTING and at the end of the scan (O55). -/

namespace Sys2Proof.Machine

/-! ### STARTING -/

theorem State.ops_nil {s : State} (h : ∀ die ∈ s.media.dies, die.ops = []) (d : Nat) : (s.die d).ops = [] := by
  by_cases hd : d < s.media.dies.length
  · exact h _ (State.die_mem hd)
  · rw [State.die_eq_reset hd]
    rfl

/-- While the station is STARTING the law is that the dies hold no long operation, and the blocks are as they were. -/
theorem State.pagesLawful.starts {s t : State} (h : s.pagesLawful) (hst : t.station.state = .starting)
    (htable : t.catalogue.blockTable = s.catalogue.blockTable) (hinst : t.installer = s.installer)
    (hread : t.delivery.installRead = s.delivery.installRead) (hheld : s.installer.held = false)
    (hops : ∀ die ∈ t.media.dies, die.ops = []) : t.pagesLawful := by
  have hlists := State.lists_congr htable
  have hblock := State.block_congr htable
  have hnone (d : Nat) := State.ops_nil hops d
  have herases (d : Nat) : t.erasesOn d = [] := by
    unfold State.erasesOn
    rw [hnone]
    rfl
  have hlong (d : Nat) := (List.append_eq_nil_iff.1 (hnone d)).2
  have hop (d : Nat) : (t.die d).state.longOp? = none := Option.toList_eq_nil_iff.1 (List.append_eq_nil_iff.1 (hnone d)).1
  refine ⟨fun hn => absurd hst hn, fun d b k hk hl => ?_, fun d b k hk => h.dead d b k ((hlists d b k).1 hk), fun d => ?_,
    fun d => ?_, fun die hm _ => (List.append_eq_nil_iff.1 (hops die hm)).2, ?_, fun d p hp => ?_, fun d p hp => ?_,
    fun hh => ?_, fun hh => ?_, fun _ => ⟨by rw [hinst, hheld], hops⟩⟩
  · rw [State.runningExtents_congr (s := s) (by rw [hinst])]
    exact h.pending d b k ((hlists d b k).1 hk) hl
  · rw [herases]
    exact ⟨.nil, fun b hb => by cases hb⟩
  · simp only [State.dieBlocks_congr htable, hblock]
    exact h.free d
  · rw [List.flatMap_eq_nil_iff.2 fun die hm => by rw [hops die hm]; rfl]
    exact Nat.zero_le 1
  · rw [hlong] at hp
    cases hp
  · rw [hop] at hp
    cases hp
  · rw [hinst, hheld] at hh
    cases hh
  · rw [hread] at hh
    obtain ⟨i, hi, hphase⟩ := h.reading hh
    exact ⟨i, by rw [hinst]; exact hi, hphase⟩

/-- A step of the voices keeps the law (R94). -/
theorem State.pagesLawful.rests {s t : State} (h : s.pagesLawful) (hs : s.settled) (hr : Resting s t)
    (hinst : t.installer = s.installer)
    (hstate : t.station.state = .starting ↔ s.station.state = .starting) : t.pagesLawful := by
  by_cases hst : s.station.state = .starting
  · obtain ⟨hheld, hops⟩ := h.starting hst
    refine h.starts (hstate.2 hst) (hr.blocks h.idle) hinst hr.read hheld fun die hm => ?_
    obtain ⟨d, hd, rfl⟩ := List.mem_iff_getElem.1 hm
    have hwork := map_work_eq (hr.work h.idle) d
    have hnone := State.ops_nil hops d
    rw [State.die_eq_getElem hd] at hwork
    unfold Die.ops at hnone ⊢
    rwa [show t.media.dies[d].state.longOp? = (s.die d).state.longOp? from congrArg Prod.fst hwork,
      show t.media.dies[d].longOps = (s.die d).longOps from congrArg Prod.snd hwork]
  · obtain ⟨hbooked, hidle, hhead⟩ := h.booked hs hst
    refine State.Booked.pagesLawful ?_ (hr.idle hidle) (hhead.same (by rw [hinst]) (by rw [hinst]; exact id) hr.read)
      fun hn => hst (hstate.1 hn)
    rw [State.runningExtents_congr (s := s) (by rw [hinst])]
    exact hbooked.rests hr hidle hinst

/-- The close of a step in which no program was turned away (R102). -/
theorem State.finish_settled_resting {s : State} (hs : s.settled) : Resting s s.finish := by
  rw [State.finish_settled s hs]
  have h := s.recomputeReady.offer_step
  exact .of_eq h.catalogue (by rw [h.delivery]; rfl) h.media

theorem State.finish_settled_installer {s : State} (hs : s.settled) : s.finish.installer = s.installer := by
  rw [State.finish_settled s hs]
  exact s.recomputeReady.offer_step.installer

theorem State.pagesLawful.finish {s : State} (h : s.pagesLawful) (hs : s.settled) : s.finish.pagesLawful :=
  h.rests hs (State.finish_settled_resting hs) (State.finish_settled_installer hs) (by rw [State.finish_station])

/-! ### The end of the scan -/

theorem State.derivedTable_length (s : State) (pos d : Nat) :
    ((s.derivedTable pos).dieBlocks d).blocks.length = (s.dieBlocks d).blocks.length := by
  have htable : (s.derivedTable pos).catalogue.blockTable = s.catalogue.blockTable.zipIdx.map fun x =>
      x.1.derived (s.catalogue.regions.flatMap (·.extents)) x.2 := rfl
  by_cases hd : d < s.catalogue.blockTable.length
  · unfold State.dieBlocks
    rw [htable]
    simp [List.getD_eq_getElem?_getD, List.getElem?_map, List.getElem?_zipIdx, List.getElem?_eq_getElem hd,
      DieBlocks.derived]
  · rw [State.dieBlocks_beyond hd, State.dieBlocks_beyond (by rw [htable]; simpa using hd)]

theorem State.derivedTable_lists {s : State} {pos d b : Nat} {k : Block} (h : (s.derivedTable pos).lists d b k) :
    k = (s.block d b).derived (pagesIn (s.catalogue.regions.flatMap (·.extents)) d b) := by
  obtain ⟨hb, rfl⟩ := State.lists_iff.1 h
  rw [State.derivedTable_length] at hb
  exact (State.derived_table (s := s) (x := s.derivedTable pos) rfl d).2 b hb

/-- A derived record: LOG, or FULL with live pages, or QUEUED with none (R16). -/
theorem Block.derived_counts (k : Block) (live : Nat) : (k.derived live).state = .log ∨
    (k.derived live).live = live ∧ (k.derived live).pending = 0 ∧
      ((k.derived live).state = .full ∨ (k.derived live).state = .queued ∧ live = 0) := by
  unfold Block.derived
  split
  next h => exact .inl h
  next h =>
    split
    next hlive => exact .inr ⟨rfl, rfl, .inl rfl⟩
    next hlive =>
      have hzero : live = 0 := by omega
      exact .inr ⟨hzero.symm, rfl, .inr ⟨rfl, hzero⟩⟩

theorem State.opsBut_nil {s : State} (h : ∀ die ∈ s.media.dies, die.ops = []) (skip : Option Nat) (d : Nat) :
    s.opsBut skip d = [] := by
  have hnone := List.append_eq_nil_iff.1 (State.ops_nil h d)
  unfold State.opsBut State.under
  rw [hnone.2]
  split
  · rfl
  · rw [hnone.1]
    rfl

/-- The derived table's counts are those of the regions that the scan has found (R16). -/
theorem State.derivedTable_booked {s : State} (hs : s.settled) (hops : ∀ die ∈ s.media.dies, die.ops = []) (pos : Nat)
    (skip : Option Nat) : (s.derivedTable pos).Booked skip [] := by
  have hnone (d : Nat) : (s.derivedTable pos).opsBut skip d = [] :=
    State.opsBut_nil (s := s.derivedTable pos) hops skip d
  have hpages (d : Nat) : (s.derivedTable pos).pagesAt skip d = [] := by
    unfold State.pagesAt
    rw [hnone]
    rfl
  have herases (d : Nat) : (s.derivedTable pos).erasesAt skip d = [] := by
    unfold State.erasesAt
    rw [hnone]
    rfl
  have hfailed : (s.derivedTable pos).failedPages = [] := by
    have hs' : (s.derivedTable pos).media.frontFailed = [] := hs
    unfold State.failedPages
    rw [hs']
    rfl
  have hunset (d : Nat) := (State.derived_table (s := s) (x := s.derivedTable pos) rfl d).1
  have hno : (s.derivedTable pos).NoPages skip := ⟨hpages, hfailed⟩
  refine ⟨fun d b k _ hk hl => ?_, fun d b k hk hl => ?_, fun d b k hk hstate => ?_, fun d => ?_, fun d => ?_, fun d => ?_,
    fun d e _ _ => hpages e, fun d p => hno.queued d p, fun x => hno.failed x, fun d p => hno.under d p⟩
  · rw [State.derivedTable_lists hk] at hl ⊢
    exact ((Block.derived_counts _ _).resolve_left hl).1
  · rw [State.derivedTable_lists hk] at hl ⊢
    exact ((Block.derived_counts _ _).resolve_left hl).2.1
  · rw [State.derivedTable_lists hk] at hstate ⊢
    rcases Block.derived_counts (s.block d b) (pagesIn (s.catalogue.regions.flatMap (·.extents)) d b) with
      hlog | ⟨hlive, hpending, hfull | ⟨-, hzero⟩⟩
    · rw [hlog] at hstate
      rcases hstate with hstate | hstate <;> cases hstate
    · rw [hfull] at hstate
      rcases hstate with hstate | hstate <;> cases hstate
    · exact ⟨hlive.trans hzero, hpending⟩
  · rw [herases]
    exact ⟨.nil, fun b hb => by cases hb⟩
  · rw [hunset]
    exact ⟨.nil, fun b hb => by cases hb⟩
  · rw [hpages, hfailed]
    exact Nat.zero_le 1

/-- The erases of the QUEUED blocks are placed on dies that have none (R16). -/
theorem State.Books.queueErases {skip : Option Nat} {running : List Extent} (ds : List Nat) (hn : ds.Nodup) :
    ∀ {s : State}, s.Books skip running → (∀ d ∈ ds, s.erasesAt skip d = []) →
      (ds.foldl State.queueErasesOn s).Books skip running := by
  induction ds with
  | nil => exact fun h _ => h
  | cons d ds ih =>
    intro s h hnone
    obtain ⟨hd, hn⟩ := List.nodup_cons.1 hn
    refine ih hn (h.joinErases (DieBlocks.numbers_nodup _ _) (fun b hb => ?_) fun b _ _ hmem => ?_) fun e he => ?_
    · obtain ⟨-, hqueued⟩ := State.mem_numbers.1 hb
      exact .inr (.inl (by simpa using hqueued))
    · rw [hnone d List.mem_cons_self] at hmem
      cases hmem
    · have hne : e ≠ d := fun hed => hd (hed ▸ he)
      rw [← hnone e (List.mem_cons_of_mem _ he)]
      unfold State.erasesAt State.opsBut State.under
      rw [show (s.queueErasesOn d).die e = s.die e from s.joinErases_die_other d e hne _]

/-- The scan ends: the law holds of the derived table, and of the erases placed (R15, R16). -/
theorem State.endScan_pagesLawful {s : State} {n : Nat} (hs : s.settled) (huses : s.usesLawful)
    (hst : s.station.state = .starting) (hdie : (s.die 0).state = .logRead n) (hread : s.delivery.installRead = none)
    (hops : ∀ die ∈ s.media.dies, die.ops = []) (pos skipped : Nat) :
    ((s.endScan pos skipped).becomeIdle 0).finish.pagesLawful := by
  have hwork : s.installer.work = [] := (huses.starting hst).2.2
  have hlaw := State.endScan_usesLawful huses hst pos skipped
  have hderived : (s.derivedTable pos).Books (some 0) [] := by
    refine ⟨State.derivedTable_booked hs hops pos _, fun die hm _ => ?_, fun d hd => ?_⟩
    · exact (List.append_eq_nil_iff.1 (hops die hm)).2
    · obtain rfl := Option.some.inj hd
      show (s.die 0).state ≠ .idle
      rw [hdie]
      nofun
  have hqueued := hderived.queueErases dieNumbers List.nodup_range fun d _ => by
    unfold State.erasesAt
    rw [State.opsBut_nil (s := s.derivedTable pos) hops]
    rfl
  have hstep : MediaStep (s.derivedTable pos) (dieNumbers.foldl State.queueErasesOn (s.derivedTable pos)) :=
    MediaStep.foldl _ State.queueErasesOn_step _ _
  rw [State.endScan_eq] at hlaw ⊢
  generalize dieNumbers.foldl State.queueErasesOn (s.derivedTable pos) = y at hqueued hstep hlaw ⊢
  have hyinst : y.installer = s.installer := hstep.installer
  have hyread : y.delivery.installRead = none := by
    rw [hstep.delivery]
    exact hread
  have hpwork : (y.presented skipped pos).installer.work = [] := by
    show y.installer.work = []
    rw [hyinst, hwork]
  have hknown : (y.presented skipped pos).Known (some 0) := by
    refine ⟨?_, ⟨fun _ i hi => ?_, fun hh => ?_⟩, hlaw⟩
    · rw [State.runningExtents_empty hpwork]
      exact hqueued.same rfl rfl rfl rfl rfl rfl
    · rw [hpwork] at hi
      cases hi
    · have hh' : y.delivery.installRead.isSome = true := hh
      rw [hyread] at hh'
      cases hh'
  refine (hknown.becomeIdle.finish).pagesLawful ?_
  rw [State.finish_station, (State.becomeIdle_step _ 0).station]
  nofun

theorem State.readLogSector_ops {s : State} (h : ∀ die ∈ s.media.dies, die.ops = []) (sector : Nat) :
    ∀ die ∈ (s.readLogSector sector).media.dies, die.ops = [] := by
  intro die hm
  obtain ⟨d, hd, rfl⟩ := List.mem_iff_getElem.1 hm
  have hto : (s.readLogSector sector).die d = _ := State.die_updateDie s 0 d _
  rw [State.die_eq_getElem hd] at hto
  rw [hto]
  split
  · exact (List.append_eq_nil_iff.1 (State.ops_nil h 0)).2
  · exact State.ops_nil h d

/-- A sector of the scan is read: the next is, or the scan ends (R15, R16). -/
theorem State.logSectorRead_pagesLawful {s : State} {n : Nat} {x : Scan} (h : s.pagesLawful) (hs : s.settled)
    (huses : s.usesLawful) (hdie : (s.die 0).state = .logRead n) (hx : s.catalogue.scan = some x) (bad : Bool) :
    (s.logSectorRead x bad).finish.pagesLawful := by
  have hst := huses.scanning (by rw [hx]; rfl)
  obtain ⟨hheld, hops⟩ := h.starting hst
  have hread : s.delivery.installRead = none := by
    cases hr : s.delivery.installRead with
    | none => rfl
    | some r =>
      obtain ⟨i, hi, -⟩ := h.reading (by rw [hr]; rfl)
      rw [(huses.starting hst).2.2] at hi
      cases hi
  unfold State.logSectorRead
  split
  · exact State.endScan_pagesLawful hs huses hst hdie hread hops _ _
  next record hrec =>
    have hlaw := State.classify_usesLawful (record := record) huses hst x fun r heq =>
      Flash.logRecord_unused (hrec.trans (congrArg some heq))
    have hfields : (s.classify x record).catalogue.blockTable = s.catalogue.blockTable ∧
        (s.classify x record).installer = s.installer ∧ (s.classify x record).delivery = s.delivery ∧
        (s.classify x record).media = s.media ∧ (s.classify x record).station = s.station := by
      rw [State.classify_eq]
      exact ⟨rfl, rfl, rfl, rfl, rfl⟩
    obtain ⟨htable, hinst, hdelivery, hmedia, hstation⟩ := hfields
    generalize s.classify x record = y at hlaw htable hinst hdelivery hmedia hstation ⊢
    have hyst : y.station.state = .starting := by rw [hstation, hst]
    have hyread : y.delivery.installRead = none := by rw [hdelivery, hread]
    have hys : y.settled := by
      unfold State.settled
      rw [hmedia]
      exact hs
    have hyops : ∀ die ∈ y.media.dies, die.ops = [] := by
      rw [hmedia]
      exact hops
    have hydie : (y.die 0).state = .logRead n := by
      rw [State.die_of_dies (congrArg Media.dies hmedia), hdie]
    have goesOn {u : State} (htable' : u.catalogue = y.catalogue) (hinst' : u.installer = y.installer)
        (hdelivery' : u.delivery = y.delivery) (hstation' : u.station = y.station) (hu : u.settled)
        (huops : ∀ die ∈ u.media.dies, die.ops = []) : u.finish.pagesLawful :=
      (h.starts (t := u) (by rw [hstation', hyst]) (by rw [htable', htable]) (hinst'.trans hinst)
        (by rw [hdelivery', hdelivery]) hheld huops).finish hu
    unfold State.continueScan
    split
    · exact goesOn rfl rfl rfl rfl hys hyops
    · split
      · exact goesOn rfl rfl rfl rfl hys (State.readLogSector_ops hyops _)
      · exact State.endScan_pagesLawful hys hlaw hyst hydie hyread hyops _ _

end Sys2Proof.Machine
end

