-- ==== Sys2Proof/Proofs/BookSteps.lean ====
section
/-! SUPPORT. The page law over the commands, and its obligation (O55). -/

namespace Sys2Proof.Machine

/-! ### Steps that leave the library alone -/

/-- From `s` to `t` the voices may have moved, and the library and its long operations are as they were. -/
structure Moves (s t : State) : Prop where
  resting   : Resting s t
  installer : t.installer = s.installer
  state     : t.station.state = .starting ↔ s.station.state = .starting

theorem Moves.refl (s : State) : Moves s s := ⟨.refl s, rfl, .rfl⟩

theorem Moves.trans {s t u : State} (a : Moves s t) (b : Moves t u) : Moves s u :=
  ⟨a.resting.trans b.resting, b.installer.trans a.installer, b.state.trans a.state⟩

theorem Moves.foldl {α : Type} (f : State → α → State) (h : ∀ s a, Moves s (f s a)) (l : List α) :
    ∀ s, Moves s (l.foldl f s) := by
  induction l with
  | nil => exact Moves.refl
  | cons a l ih => exact fun s => (h s a).trans (ih (f s a))

/-- A change of other fields. -/
theorem Moves.of_eq {s t : State} (hc : t.catalogue = s.catalogue) (hi : t.installer = s.installer)
    (hr : t.delivery.installRead = s.delivery.installRead) (hm : t.media = s.media)
    (hst : t.station.state = s.station.state) : Moves s t := ⟨.of_eq hc hr hm, hi, by rw [hst]⟩

theorem Moves.voice {s t : State} (h : VoiceStep s t) (hr : Resting s t) : Moves s t :=
  ⟨hr, h.installer, by rw [h.station]⟩

theorem Moves.media {s t : State} (h : MediaStep s t) (hr : Resting s t) : Moves s t :=
  ⟨hr, h.installer, by rw [h.station]⟩

theorem WatchStep.moves {s t : State} (h : WatchStep s t) : Moves s t := ⟨h.resting, h.installer, by rw [h.station]⟩

theorem Moves.pagesLawful {s t : State} (h : Moves s t) (hs : s.settled) (hp : s.pagesLawful) : t.pagesLawful :=
  hp.rests hs h.resting h.installer h.state

theorem Moves.closed {s t : State} (h : Moves s t) (hs : s.settled) (hp : s.pagesLawful) : t.finish.pagesLawful :=
  (h.pagesLawful hs hp).finish ((h.resting.refused hp.idle).trans hs)

theorem State.setTimebase_moves (s : State) (x : Timebase) : Moves s (s.setTimebase x) := .of_eq rfl rfl rfl rfl rfl

theorem State.setPort_moves (s : State) (x : Port) : Moves s (s.setPort x) := .of_eq rfl rfl rfl rfl rfl

theorem State.setNotices_moves (s : State) (x : NoticeQueue) : Moves s (s.setNotices x) := .of_eq rfl rfl rfl rfl rfl

theorem State.setWatches_moves (s : State) (x : List Watch) : Moves s (s.setWatches x) := .of_eq rfl rfl rfl rfl rfl

theorem State.setBids_moves (s : State) (x : List Bid) : Moves s (s.setBids x) := .of_eq rfl rfl rfl rfl rfl

theorem State.setVoices_moves (s : State) (x : List Voice) : Moves s (s.setVoices x) := .of_eq rfl rfl rfl rfl rfl

theorem State.queueNotice_moves (s : State) (addressee : Nat) (body : NoticeBody) :
    Moves s (s.queueNotice addressee body) := .of_eq rfl rfl rfl rfl rfl

theorem State.releaseUse_moves (s : State) (id : Nat) : Moves s (s.releaseUse id) :=
  ⟨(Resting.refl s).releaseUse id, rfl, .rfl⟩

theorem State.addUse_moves (s : State) (id : Nat) : Moves s (s.addUse id) := ⟨s.addUse_resting id, rfl, .rfl⟩

/-! ### The timebase -/

theorem State.tickEvent_moves (s : State) (order : List (BitVec 12)) : Moves s (s.tickEvent order) := by
  have voices (u : State) (l : List Nat) : Moves u (l.foldl State.tickVoice u) :=
    Moves.foldl _ (fun x g => .voice (x.tickVoice_step g) (x.tickVoice_resting g)) l u
  have tests (u : State) : Moves u u.suspendTests := .media (State.suspendTests_die u).media u.suspendTests_resting
  unfold State.tickEvent
  dsimp only
  refine Moves.trans (Moves.trans ?_ (State.setTimebase_moves _ _)) (tests _)
  have h1 := s.setTimebase_moves { s.timebase with tick := nextTick s.timebase.tick }
  generalize s.setTimebase { s.timebase with tick := nextTick s.timebase.tick } = u at h1 ⊢
  have h := h1.trans (voices u (tickOrder order u.voices))
  split
  · exact h.trans (.voice (State.recomputeHeld_step _) (State.recomputeHeld_resting _))
  · exact h

theorem State.standIn_moves (s : State) (at_ : Nat) (order : List (BitVec 12)) : Moves s (s.standIn at_ order) := by
  have h := (s.setTimebase_moves { s.timebase with
    reference := some at_, standIn := s.timebase.standIn + 1 }).trans (State.tickEvent_moves _ order)
  unfold State.standIn
  dsimp only
  split
  · exact (h.trans (State.setTimebase_moves _ _)).trans (State.queueNotice_moves _ _ _)
  · exact h

theorem State.edge_moves (s : State) (rate : SessionRate) (t : Nat) (order : List (BitVec 12)) :
    Moves s (s.edge rate t order) := by
  unfold State.edge
  split
  · exact Moves.refl s
  · unfold State.fallbackEdge
    dsimp only
    split
    · exact s.setTimebase_moves _
    · unfold State.lock
      dsimp only
      refine Moves.trans ?_ (State.queueNotice_moves _ _ _)
      split
      · exact (s.setTimebase_moves _).trans (State.tickEvent_moves _ _)
      · exact s.setTimebase_moves _
  · unfold State.externalEdge
    split
    · exact Moves.refl s
    · split
      · exact (s.setTimebase_moves _).trans (State.tickEvent_moves _ _)
      · exact Moves.refl s

theorem State.downbeat_moves (s : State) : Moves s s.downbeat := by
  have load : Moves s s.applyLoad := by
    unfold State.applyLoad
    split
    · exact Moves.refl s
    · exact (s.setTimebase_moves _).trans (State.setVoices_moves _ _)
  exact (load.trans (State.setVoices_moves _ _)).trans (.media (State.syncReads_step _) (State.syncReads_resting _))

/-! ### Voices, entries and watches -/

theorem State.retire_moves (s : State) (g : Nat) (reason : RetireReason) : Moves s (s.retire g reason) :=
  .voice (s.retire_step g reason) (s.retire_resting g reason)

theorem State.dropBid_moves (s : State) (tag : Nat) : Moves s (s.dropBid tag) := by
  unfold State.dropBid
  split
  · exact Moves.refl s
  · exact (s.setBids_moves _).trans (State.releaseUse_moves _ _)

theorem State.dropBids_moves (s : State) : Moves s s.dropBids :=
  ⟨s.dropBids_resting, s.dropBids_fields.2.2.2.1, by rw [s.dropBids_step.2.1]⟩

theorem State.claimReturned_moves (s : State) (tag : Nat) : Moves s (s.claimReturned tag) := by
  unfold State.claimReturned
  split
  · exact Moves.refl s
  · split
    · exact s.setBids_moves _
    · exact s.dropBid_moves tag

theorem State.stopClaim_moves (s : State) : Moves s s.stopClaim := (s.setPort_moves _).trans s.stopClaim_step.moves

theorem State.hear_moves (s : State) (tag : Nat) : Moves s (s.hear tag) := s.setWatches_moves _

theorem State.homeWatch_moves (s : State) (n : NoteFields) : Moves s (s.homeWatch n) := by
  have drop : Moves s (s.dropWatch n.tag) := s.setWatches_moves _
  unfold State.homeWatch
  split
  · split
    · split
      · unfold State.startWatch
        dsimp only
        split
        · exact drop.trans (State.setWatches_moves _ _)
        · exact drop
      · exact drop.trans (State.queueNotice_moves _ _ _)
    · exact drop
  · exact drop

theorem State.makeBid_moves (s : State) (n : NoteFields) : Moves s (s.makeBid n) := by
  unfold State.makeBid
  split
  · exact (s.setBids_moves _).trans (State.addUse_moves _ _)
  · exact Moves.refl s

theorem State.createVoice_moves (s : State) (b : Bid) : Moves s (s.createVoice b) :=
  .voice (s.createVoice_step b) (s.createVoice_resting b)

theorem State.updateVoice_moves (s : State) (tag : Nat) (f : Voice → Voice) : Moves s (s.updateVoice tag f) :=
  s.setVoices_moves _

theorem State.endVoice_moves (s : State) (v : Voice) (mode : EndMode) (atTick : Option Nat) (sender : Nat) :
    Moves s (s.endVoice v mode atTick sender) := by
  have apply (mode : CutOrFade) : Moves s (s.applyEnd v mode sender) :=
    .voice (s.applyEnd_step v mode sender) (s.applyEnd_resting v mode sender)
  have hold (mode : CutOrFade) : Moves s (s.endOrHold v mode atTick sender) := by
    unfold State.endOrHold
    split
    · split
      · exact s.updateVoice_moves _ _
      · exact apply mode
    · exact apply mode
  unfold State.endVoice
  split
  · exact s.updateVoice_moves _ _
  · exact hold _
  · exact hold _

theorem State.followTaken_moves (s : State) (v : Voice) (region start sender : Nat) :
    Moves s (s.followTaken v region start sender) := by
  unfold State.followTaken
  split
  · exact s.queueNotice_moves _ _
  · exact (s.updateVoice_moves _ _).trans (State.addUse_moves _ _)

theorem State.unfollowTaken_moves (s : State) (v : Voice) : Moves s (s.unfollowTaken v) := by
  unfold State.unfollowTaken
  split
  · exact (s.updateVoice_moves _ _).trans (State.releaseUse_moves _ _)
  · exact Moves.refl s

theorem State.configureTested_moves {s : State} (hst : s.station.state ≠ .starting) (sender : Nat)
    (c : Option Configuration) : Moves s (s.configureTested sender c) := by
  unfold State.configureTested
  split
  · exact s.queueNotice_moves _ _
  · split
    · exact s.queueNotice_moves _ _
    · exact ⟨.of_eq rfl rfl rfl, rfl, ⟨fun h => (nomatch h), fun h => absurd h hst⟩⟩

theorem Starts.moves {s u : State} (h : Starts s u) : Moves s u := by
  cases h
  case clock => exact .of_eq rfl rfl rfl rfl rfl
  case ended t h =>
    have h1 : Moves s (s.atTime t).endFrame := .of_eq rfl rfl rfl rfl rfl
    exact h1.trans (State.ended_step _).moves

theorem Starts.usesLawful {s u : State} (h : Starts s u) (hs : s.usesLawful) : u.usesLawful := by
  cases h
  case clock => exact hs.congr rfl rfl rfl rfl
  case ended t h =>
    have hstep := State.ended_step (s.atTime t)
    have hshelf : (s.atTime t).endFrame.settleDue.shelf = s.shelf := by
      unfold State.shelf
      rw [hstep.catalogue, hstep.installer]
      rfl
    exact hs.congr hshelf (by rw [hstep.station]; rfl) hstep.voices (by rw [hstep.bids]; rfl)

/-- In STARTING no item is under way that the link's loss could end. -/
theorem State.linkLost_starting {s : State} (hp : s.pagesLawful) (hs : s.settled) (hu : s.usesLawful)
    (hst : s.station.state = .starting) : s.linkLost.pagesLawful := by
  have hwork : s.installer.work = [] := (hu.starting hst).2.2
  have hread : s.delivery.installRead = none := by
    cases hr : s.delivery.installRead with
    | none => rfl
    | some r =>
      obtain ⟨i, hi, -⟩ := hp.reading (by rw [hr]; rfl)
      rw [hwork] at hi
      cases hi
  have hcut : Resting s (s.setDelivery { link := .down, queue := [], posting := none, installRead := none }) :=
    .of_eq rfl hread.symm rfl
  have hrest : Resting s s.unlinked := hcut.trans s.unlinked_resting
  have hun := s.unlinked_unlinks
  have hmoves : Moves s s.unlinked := ⟨hrest, hun.work, by rw [hun.station]⟩
  have hsettled : s.unlinked.settled := (hrest.refused hp.idle).trans hs
  have hnothing : s.unlinked.linkLostInstall = s.unlinked := by
    unfold State.linkLostInstall
    rw [hun.work, hwork]
  rw [State.linkLost_eq, State.settleFront, State.settleFronts_nil _ _ hsettled, hnothing]
  exact hmoves.closed hs hp

/-! ### The end of a segment read -/

/-- The outcome of a read leaves voices and uses alone (R97). -/
theorem State.readOutcome_kept (s : State) (d : Nat) (a : ActiveRead) (bad : BitVec 12) :
    (s.readOutcome d a bad).shelf = s.shelf ∧ (s.readOutcome d a bad).voices = s.voices := by
  have posts (u : State) : u.startPosting.shelf = u.shelf ∧ u.startPosting.voices = u.voices := by
    unfold State.startPosting
    split <;> exact ⟨rfl, rfl⟩
  unfold State.readOutcome
  split
  · unfold State.readResult
    dsimp only
    split
    · exact posts _
    · split
      · exact ⟨rfl, rfl⟩
      · exact posts _
  · have h := State.freeBuffers_die 1 s
    exact ⟨h.shelf, h.media.voices⟩

theorem State.readOutcome_moves (s : State) (d : Nat) (a : ActiveRead) (bad : BitVec 12) :
    Moves s (s.readOutcome d a bad) := .voice (s.readOutcome_step d a bad) (s.readOutcome_resting d a bad)

/-- A suspended die ends its read, or a die with no long operation waiting (R107). -/
theorem State.readEnded_moves {s : State} {d : Nat}
    (h : (s.die d).state.afterRead.longOp? = (s.die d).state.longOp?)
    (hidle : (s.die d).state.afterRead ≠ .idle ∨ (s.die d).longOps = []) : Moves s (s.readEnded d) := by
  refine .media (s.readEnded_step d) ?_
  have hset : Resting s (s.setDieState d (s.die d).state.afterRead) :=
    Resting.updateDie (Prod.ext h rfl) (.inr hidle)
  exact hset.trans (State.readsChanged_resting _ d)

/-- A die ends its read and is IDLE: it takes its long operations up (R94, R97). -/
theorem State.Known.readEnded {s : State} {d : Nat} {a : ActiveRead} (h : s.Known none)
    (hdie : (s.die d).state = .read a) : (s.readEnded d).Known none := by
  have hd : d < s.media.dies.length := by
    by_contra hd
    rw [State.die_eq_reset hd] at hdie
    cases hdie
  have hto (e : Nat) : (s.setDieState d .idle).die e = if e = d then { s.die d with state := .idle } else s.die e := by
    have h := State.die_updateDie s d e fun die => { die with state := .idle }
    simp only [hd, and_true] at h
    exact h
  have hwork (e : Nat) : ((s.setDieState d .idle).die e).work = (s.die e).work := by
    rw [hto]
    split
    next he =>
      rw [he]
      unfold Die.work
      rw [hdie]
      rfl
    next => rfl
  have hended : s.readEnded d = (s.setDieState d .idle).idleChoice d := by
    unfold State.readEnded State.readsChanged
    rw [hdie, show (DieState.read a).afterRead = .idle from rfl, hto, if_pos rfl]
  have hstep := s.readEnded_step d
  have hshelf : (s.readEnded d).shelf = s.shelf := (s.readEnded_die d).shelf
  have hbooked : (s.setDieState d .idle).Booked none s.runningExtents :=
    h.books.booked.same rfl rfl rfl rfl hwork rfl
  obtain ⟨hbooked', hidle⟩ := hbooked.idleChoice (d := d) nofun fun e he hidle => by
    rw [hto, if_neg he] at hidle ⊢
    exact s.idleFree_iff.1 h.books.idle e hidle
  refine ⟨?_, h.head.same (by rw [hstep.installer]) (by rw [hstep.installer]; exact id) (by rw [hstep.delivery]),
    h.uses.same hstep.installStep hshelf⟩
  rw [State.runningExtents_congr (s := s) (by rw [hstep.installer]), hended]
  exact ⟨hbooked', hidle, nofun⟩

/-- The end of a segment read (R97, R107). -/
theorem State.segmentRead_pagesLawful {s : State} {d : Nat} {a : ActiveRead} (h : s.pagesLawful) (hs : s.settled)
    (huses : s.usesLawful) (ha : (s.die d).state.activeRead? = some a) (bad : BitVec 12) :
    ((s.readOutcome d a bad).readEnded d).finish.pagesLawful := by
  have hstate := (s.readOutcome_steady d a bad ha).2
  have hmoves := s.readOutcome_moves d a bad
  have hstep := s.readOutcome_step d a bad
  obtain ⟨hshelf, hvoices⟩ := s.readOutcome_kept d a bad
  have hlaw : (s.readOutcome d a bad).usesLawful :=
    huses.congr hshelf (by rw [hstep.station]) hvoices (by rw [hstep.claims])
  rw [← hstate] at ha
  have hp := hmoves.pagesLawful hs h
  have hs' : (s.readOutcome d a bad).settled := (hmoves.resting.refused h.idle).trans hs
  generalize s.readOutcome d a bad = y at ha hlaw hp hs'
  cases hdie : (y.die d).state with
  | suspendedRead op b =>
    exact (State.readEnded_moves (by rw [hdie]; rfl) (.inl (by rw [hdie]; nofun))).closed hs' hp
  | read b =>
    by_cases hst : y.station.state = .starting
    · obtain ⟨-, hops⟩ := hp.starting hst
      exact (State.readEnded_moves (by rw [hdie]; rfl)
        (.inr (List.append_eq_nil_iff.1 (State.ops_nil hops d)).2)).closed hs' hp
    · have hknown := (hp.known hs' hlaw hst).readEnded hdie
      refine hknown.finish.pagesLawful ?_
      rw [State.finish_station, (y.readEnded_step d).station]
      exact hst
  | idle | logRead | busy | suspendPending | suspended =>
    rw [hdie] at ha
    cases ha

/-! ### Commands of the installer -/

theorem State.installTaken_known {s : State} (h : s.Known none) (hst : s.station.state ≠ .starting) (i : InstallFields) :
    (s.installTaken i).Known none := by
  unfold State.installTaken
  refine State.Known.finish ?_
  split
  · exact h.same rfl rfl rfl rfl rfl rfl rfl (h.uses.congr rfl rfl rfl rfl)
  next hnone => exact h.admitInstall hst (State.installRefusal_none hnone)

theorem State.reclaimTaken_known {s : State} (h : s.Known none) (hst : s.station.state ≠ .starting)
    (region sender : Nat) : (s.reclaimTaken region sender).Known none := by
  unfold State.reclaimTaken
  refine State.Known.finish ?_
  split
  · exact h.same rfl rfl rfl rfl rfl rfl rfl (h.uses.congr rfl rfl rfl rfl)
  next hnone =>
    obtain ⟨r, hr, hu⟩ := State.reclaimRefusal_unused hnone
    exact h.admitReclaim hst hr hu

theorem State.wipeTaken_known {s : State} (h : s.Known none) (hst : s.station.state ≠ .starting) (sender : Nat) :
    (s.wipeTaken sender).Known none := by
  unfold State.wipeTaken
  refine State.Known.finish ?_
  split
  · exact h.same rfl rfl rfl rfl rfl rfl rfl (h.uses.congr rfl rfl rfl rfl)
  next hbusy => exact h.admitWipe hst (by simpa using hbusy) sender

/-! ### Every step -/

/-- A station with an item in progress, or a die at a long operation, is not STARTING. -/
theorem State.pagesLawful.not_starting {s : State} (h : s.pagesLawful) {d : Nat} {op : LongOp}
    (hop : (s.die d).state.longOp? = some op) : s.station.state ≠ .starting := fun hst => by
  have hnone := (List.append_eq_nil_iff.1 (State.ops_nil (h.starting hst).2 d)).1
  rw [hop] at hnone
  cases hnone

theorem State.usesLawful.not_starting {s : State} (h : s.usesLawful) {w : WorkItem} {rest : List WorkItem}
    (hw : s.installer.work = w :: rest) : s.station.state ≠ .starting := fun hst => by
  rw [(h.starting hst).2.2] at hw
  cases hw

theorem State.resetOver_pagesLawful (number : Nat) (flash : Flash) (stamp : Nat) (pending : List Instr) :
    ((State.resetOver number flash stamp).setPending pending).pagesLawful := by
  have hdies : ((State.resetOver number flash stamp).setPending pending).media.dies = State.reset.media.dies := rfl
  refine State.reset_pagesLawful.starts rfl rfl rfl rfl rfl ?_
  rw [hdies]
  exact State.reset_dies_ops

theorem Effect.pagesLawful {s t : State} {c : Instr} (h : Effect s c t) (hs : s.settled) (hu : s.usesLawful)
    (hp : s.pagesLawful) : t.pagesLawful := by
  have kept {u : State} (hm : Moves s u) : u.pagesLawful := hm.pagesLawful hs hp
  have closed {u : State} (hm : Moves s u) : u.finish.pagesLawful := hm.closed hs hp
  have known (hst : s.station.state ≠ .starting) : s.Known none := hp.known hs hu hst
  have hstation := h.keeps.station
  have installs (hset : setsStation c = false) (hst : s.station.state ≠ .starting) (hk : t.Known none) : t.pagesLawful :=
    hk.pagesLawful (by rw [hstation hset]; exact hst)
  cases h
  case nothing => exact hp
  case reset =>
    exact State.resetOver_pagesLawful _ _ _ _
  case scan hn hx => exact State.logSectorRead_pagesLawful hp hs hu hn hx _
  case edge => exact closed (s.edge_moves _ _ _)
  case divider => exact closed ((s.setTimebase_moves _).trans (State.tickEvent_moves _ _))
  case standIn => exact closed (s.standIn_moves _ _)
  case driveEnd | lineRise | pulse => exact kept (s.setTimebase_moves _)
  case downbeat => exact closed ((s.setTimebase_moves _).trans (State.downbeat_moves _))
  case busIdle => exact closed (s.setPort_moves _)
  case frameBegins | claimGone => exact kept (s.setPort_moves _)
  case claimLost => exact kept ((s.setPort_moves _).trans (State.claimReturned_moves _ _))
  case claimLostTo =>
    exact kept (((s.setPort_moves _).trans (State.claimReturned_moves _ _)).trans (State.settleDue_step _).moves)
  case noticeLost | noticeBroken | noticeSent => exact kept ((s.setPort_moves _).trans (State.setNotices_moves _ _))
  case claimBroken => exact kept ((s.claimReturned_moves _).trans (State.stopClaim_moves _))
  case claimWon b _ _ _ =>
    exact closed (((((s.setPort_moves _).trans (State.setBids_moves _ _)).trans (State.createVoice_moves _ b)).trans
      (State.hear_moves _ _)).trans (State.settleDue_step _).moves)
  case claimHeard =>
    exact closed (((((s.setPort_moves _).trans (State.dropBid_moves _ _)).trans (State.retire_moves _ _ _)).trans
      (State.hear_moves _ _)).trans (State.settleDue_step _).moves)
  case note n _ _ =>
    exact closed ((((s.retire_moves _ _).trans (State.dropBid_moves _ _)).trans (State.homeWatch_moves _ n)).trans
      (State.makeBid_moves _ n))
  case endVoice => exact closed (s.endVoice_moves _ _ _ _)
  case endBid => exact closed (s.dropBid_moves _)
  case endNone | rateNone => exact closed (.refl s)
  case rateVoice v _ _ _ _ _ =>
    exact closed ((s.updateVoice_moves _ _).trans (.voice (State.recomputeDry_step _ v.tag)
      (State.recomputeDry_resting _ v.tag)))
  case rateBid => exact closed (s.setBids_moves _)
  case follow => exact kept (s.followTaken_moves _ _ _ _)
  case unfollow => exact kept (s.unfollowTaken_moves _)
  case halt =>
    exact closed (((((Moves.voice (s.retireAll_step .halted) (s.retireAll_resting .halted)).trans
      (State.dropBids_moves _)).trans (State.setWatches_moves _ _)).trans (State.setTimebase_moves _ _)).trans
      (State.queueNotice_moves _ _ _))
  case timebase =>
    unfold State.timebaseTaken
    split
    · exact kept (s.setTimebase_moves _)
    · exact hp
  case probe =>
    unfold State.probeTaken
    split
    · exact kept (s.queueNotice_moves _ _)
    · exact hp
  case install hst => exact installs rfl hst (State.installTaken_known (known hst) hst _)
  case reclaim hst => exact installs rfl hst (State.reclaimTaken_known (known hst) hst _ _)
  case wipe hst => exact installs rfl hst (State.wipeTaken_known (known hst) hst _)
  case configure hst => exact kept (State.configureTested_moves hst _ _)
  case bidExpires => exact kept (s.dropBid_moves _)
  case bidCloses => exact kept (s.setBids_moves _)
  case watchDeferred => exact kept (s.setWatches_moves _)
  case watchDecided => exact closed (State.decideWatch_step _ _).moves
  case segmentRead ha => exact State.segmentRead_pagesLawful hp hs hu ha _
  case programEnds hd | eraseEnds hd | completed hd =>
    have hop := congrArg DieState.longOp? hd
    have hst := hp.not_starting hop
    exact installs rfl hst ((known hst).longOpResult hop _).finish
  case suspended op _ d hd =>
    have hset : Resting s (s.setDieState d (.suspended op)) :=
      Resting.updateDie (Prod.ext (congrArg DieState.longOp? hd).symm rfl) (.inr (.inl nofun))
    exact closed (.media ((s.updateDie_die d fun die => { die with state := .suspended op }).media.trans
      (State.serviceDecision_die _ d).media) (hset.trans (State.serviceDecision_resting _ d)))
  case holdOff d => exact closed (.media (s.suspendTest_die d).media (s.suspendTest_resting d))
  case posting => exact closed (.voice (s.postingEnded_step _) (s.postingEnded_resting _))
  case linkUp => exact kept (.of_eq rfl rfl rfl rfl rfl)
  case linkLost =>
    by_cases hst : s.station.state = .starting
    · exact State.linkLost_starting hp hs hu hst
    · exact installs rfl hst ((known hst).linkLost hs)
  case pageRead hr hi =>
    have hst := hu.not_starting hi
    exact installs rfl hst ((known hst).pageRead hr hi _ _)
  case readFails hr hi | readTimesOut hr hi =>
    have hst := hu.not_starting hi
    exact installs rfl hst ((known hst).readFails hr hi _)

/-- Settles O55: the law is kept together with the law of uses, by which an item that follows the head has begun nothing;
within a step it speaks of the die whose operation has just ended apart, and of the programs just turned away. -/
theorem stepsKeepPagesCounted : Obligations.StepsKeepPagesCounted := fun _ _ hs hu hp h =>
  step_leads (P := fun s => s.settled ∧ s.usesLawful ∧ s.pagesLawful) (Q := State.pagesLawful)
    (fun _ _ ⟨hs, hu, hp⟩ => ⟨hs, hu.congr rfl rfl rfl rfl, hp.rests hs (.of_eq rfl rfl rfl) rfl .rfl⟩)
    (fun hstart ⟨hs, hu, hp⟩ => ⟨(hstart.moves.resting.refused hp.idle).trans hs, hstart.usesLawful hu,
      hstart.moves.pagesLawful hs hp⟩)
    (fun ⟨_, _, hp⟩ => hp) (fun he ⟨hs, hu, hp⟩ => he.pagesLawful hs hu hp) ⟨hs, hu, hp⟩ h

end Sys2Proof.Machine
end
